-- ==== Sys2Proof/Word.lean ====
section
/-! DEFINITION. The words of the machine. -/

namespace Sys2Proof

/-- A bundle word (02_bundles R38). -/
abbrev Word := BitVec 32
/-- A scalar register (03 R64). -/
abbrev W64 := BitVec 64
/-- A name (10 R249). -/
abbrev Name := BitVec 96
/-- The data bits of a vector register (05 R113). -/
abbrev VData := BitVec 2048
abbrev Byte := BitVec 8
/-- Register fields: the scalar and vector files, the mask file, the name file, the accumulator windows. -/
abbrev Reg := BitVec 5
abbrev KReg := BitVec 3
abbrev NReg := BitVec 4
abbrev WReg := BitVec 2

end Sys2Proof
end

