-- ==== Sys2Proof/Config.lean ====
section
/-! DEFINITION. What an implementation fixes, and the free values: results the spec leaves open. A free value is an
opaque constant applied to what it depends on, so that no proof can tell its value. -/

namespace Sys2Proof.Config

/-- A value the spec leaves open, fresh for each reading of the state's counter (log 7). -/
opaque freeBits (w : Nat) : Nat → BitVec w

/-- The result code of a group 0x7 operation (by minor opcode) in the format of a tag, in a rounding mode, at an
operand code at which R139 gives a bound and no value (log 8). -/
opaque special (minor tag mode code : Nat) : Nat

/-- What a home reads of a reduction's spilled cell, by its address, that the hem agent does not deliver (log 69). -/
opaque lostCell (addr : Nat) : BitVec 512

/-- The tag that a register or tile takes from a context image in which its tag is reserved; one of the 14 legal ones (log 70). -/
opaque restoredTag (tag : BitVec 4) : Fin 14

/-- SHAKE256: named, its function not given (16 R415); input bytes and output length in bytes (log 9). -/
opaque shake256 (input : List (BitVec 8)) (n : Nat) : List (BitVec 8)

/-- Falcon-1024 signature check of 16 R415: key, message, signature (log 9). -/
opaque falconVerify (key msg sig : List (BitVec 8)) : Bool

/-- Falcon-1024 signing of 16 R431 (log 9). -/
opaque falconSign (msg : List (BitVec 8)) : List (BitVec 8)

/-- The firmware key hash burnt in the fuses (log 9). -/
opaque keyHash : List (BitVec 8)

/-- The least security version the fuses admit (log 9). -/
opaque svnMin : Nat

/-- The device's serial number (log 9). -/
opaque serial : BitVec 128

/-- The device's Falcon-1024 identity public key, 1,793 bytes (log 9). -/
opaque identityKey : List (BitVec 8)

end Sys2Proof.Config
end

