-- ==== Sys2Proof/Machine/Num.lean ====
section
/-! DEFINITION. Number formats, rounding, MX blocks, accumulator cells, the Mangle and CXP (04_number_formats R87 to
R112). An element code is a natural number below 2 to the format's width; an exact value is kept as a sign, a
magnitude times a power of two, and a sticky mark for a remainder below the magnitude's last bit. -/

namespace Sys2Proof.Machine

/-- FPSTAT flags (03 R82): NV, DZ, OF, UF, NX from bit 4 down. -/
abbrev Flags := BitVec 5
def flNV : Flags := 16#5
def flDZ : Flags := 8#5
def flOF : Flags := 4#5
def flUF : Flags := 2#5
def flNX : Flags := 1#5
def flIf (c : Bool) (f : Flags) : Flags := if c then f else 0#5

/-- A floating-point element format (R87). -/
structure Fmt where
  /-- width in bits -/
  w : Nat
  /-- mantissa bits -/
  mb : Nat
  bias : Nat
  emax : Nat
  /-- code of the largest finite value -/
  maxfin : Nat
  /-- the all-ones exponent holds infinities and NaNs -/
  hasInf : Bool
  /-- canonical NaN (R92); none where the format has no NaN -/
  nan : Option Nat
deriving DecidableEq, Repr

def fmtFP32 : Fmt := ⟨32, 23, 127, 127, 0x7F7FFFFF, true, some 0x7FC00000⟩
def fmtBF16 : Fmt := ⟨16, 7, 127, 127, 0x7F7F, true, some 0x7FC0⟩
def fmtFP16 : Fmt := ⟨16, 10, 15, 15, 0x7BFF, true, some 0x7E00⟩
def fmtE4M3 : Fmt := ⟨8, 3, 7, 8, 0x7E, false, some 0x7F⟩
def fmtE5M2 : Fmt := ⟨8, 2, 15, 15, 0x7B, true, some 0x7E⟩
def fmtE3M2 : Fmt := ⟨6, 2, 3, 4, 0x1F, false, none⟩
def fmtE2M3 : Fmt := ⟨6, 3, 1, 2, 0x1F, false, none⟩
def fmtE2M1 : Fmt := ⟨4, 1, 1, 2, 0x7, false, none⟩

/-- The floating-point format of a tag (R90). -/
def fmtOf (tag : BitVec 4) : Option Fmt :=
  match tag.toNat with
  | 3 => some fmtFP32 | 4 => some fmtBF16 | 5 => some fmtFP16 | 6 => some fmtE4M3
  | 7 => some fmtE5M2 | 8 => some fmtE3M2 | 9 => some fmtE2M3 | 10 => some fmtE2M1
  | _ => none

/-- Element width in bits of a tag (R87, R89); raw is read by the instruction, CXP has no fixed width. -/
def tagWidth (tag : BitVec 4) : Nat :=
  match tag.toNat with
  | 1 | 3 => 32 | 4 | 5 | 12 => 16 | 2 | 6 | 7 | 11 => 8 | 8 | 9 => 6 | 10 => 4 | _ => 32

/-- An exact value: `fin neg m e st` is the magnitude m times 2 to the e, plus a remainder strictly between 0 and 2 to
the e when `st`. -/
inductive Exact where
  | nan
  | inf (neg : Bool)
  | fin (neg : Bool) (m : Nat) (e : Int) (st : Bool)
deriving DecidableEq, Repr

def Exact.zero (neg : Bool) : Exact := .fin neg 0 0 false

def Exact.isNan : Exact → Bool
  | .nan => true
  | _ => false

def Exact.isInf : Exact → Bool
  | .inf _ => true
  | _ => false

def Exact.isZero : Exact → Bool
  | .fin _ m _ st => m == 0 && !st
  | _ => false

def Exact.neg? : Exact → Bool
  | .nan => false
  | .inf n => n
  | .fin n _ _ _ => n

def Exact.negate : Exact → Exact
  | .nan => .nan
  | .inf n => .inf !n
  | .fin n m e st => .fin (!n) m e st

def Exact.abs : Exact → Exact
  | .nan => .nan
  | .inf _ => .inf false
  | .fin _ m e st => .fin false m e st

/-- An integer as an exact value; zero is +0. -/
def Exact.ofInt (i : Int) : Exact := .fin (decide (i < 0)) i.natAbs 0 false

/-- decode_fp (R88). -/
def decodeFp (f : Fmt) (b : Nat) : Exact :=
  let s := b.testBit (f.w - 1)
  let eb := f.w - 1 - f.mb
  let E := (b >>> f.mb) % 2 ^ eb
  let F := b % 2 ^ f.mb
  if E == 2 ^ eb - 1 && f.hasInf then
    if F == 0 then .inf s else .nan
  else if f.nan == some 0x7F && E == 15 && F == 7 then .nan
  else if E == 0 then .fin s F (1 - (f.bias : Int) - f.mb) false
  else .fin s (2 ^ f.mb + F) ((E : Int) - f.bias - f.mb) false

/-- The canonical NaN of a format (R92). Formats without NaN never meet it; 0 stands there. -/
def canonNan (f : Fmt) : Nat := f.nan.getD 0

/-- The infinity code of a format that has infinities. -/
def infCode (f : Fmt) (neg : Bool) : Nat := f.maxfin + 1 + (if neg then 2 ^ (f.w - 1) else 0)

/-- The sign bit of a format. -/
def signCode (f : Fmt) (neg : Bool) : Nat := if neg then 2 ^ (f.w - 1) else 0

/-- Whether the magnitude moves up to the next multiple (R93): n the truncated multiple, r the remainder in units of
2 to the minus sh, `st` a remainder below that. Modes from 4 on take the random word: 5 to 7, which only a restored image can
hold, stand as 4 (log 60). -/
def roundUp (mode : Nat) (rw : Nat) (neg : Bool) (n r sh : Nat) (st : Bool) : Bool :=
  if r == 0 && !st then false
  else match mode with
    | 0 => decide (2 ^ sh < 2 * r) || (2 * r == 2 ^ sh && (st || n.testBit 0))
    | 1 => false
    | 2 => neg
    | 3 => !neg
    | _ => decide (rw < r * 2 ^ 32 / 2 ^ sh)

/-- round_fmt (R93): the code of the rounded value and its flags. `satur` makes an overflow take the largest finite
value whatever the format, as MX quantisation does for E5M2 (R100). -/
def roundFmt (x : Exact) (f : Fmt) (mode : Nat) (rw : Nat) (satur : Bool := false) : Nat × Flags :=
  match x with
  | .nan => (canonNan f, 0#5)
  | .inf s => (infCode f s, 0#5)
  | .fin s m ex st =>
    if m == 0 && !st then (signCode f s, 0#5)
    else
      let lg : Int := (Nat.log2 m : Int) + ex
      let tiny := decide (lg < 1 - (f.bias : Int))
      let e : Int := max lg (1 - (f.bias : Int))
      let q : Int := e - f.mb
      let sh : Int := q - ex
      let n := if sh ≤ 0 then m <<< (-sh).toNat else m >>> sh.toNat
      let r := if sh ≤ 0 then 0 else m % 2 ^ sh.toNat
      let up := roundUp mode rw s n r sh.toNat st
      let y := if up then n + 1 else n
      let inexact := r != 0 || st
      let code := ((e + f.bias - 1).toNat <<< f.mb) + y
      let fl := flIf inexact flNX ||| flIf (inexact && tiny) flUF
      if f.maxfin < code then
        let sat := satur || !f.hasInf || mode == 1 || (mode == 2 && !s) || (mode == 3 && s)
        ((if sat then f.maxfin else f.maxfin + 1) + signCode f s, fl ||| flOF ||| flNX)
      else (code + signCode f s, fl)

/-- round_rne (R93). -/
def roundRne (x : Exact) (f : Fmt) : Nat × Flags := roundFmt x f 0 0

/-- The integer chosen as in round_fmt with unit 1 (R95), and whether it differs from the value. -/
def toInteger (x : Exact) (mode : Nat) (rw : Nat) : Int × Bool :=
  match x with
  | .fin s m ex st =>
    let sh : Int := -ex
    let n := if sh ≤ 0 then m <<< (-sh).toNat else m >>> sh.toNat
    let r := if sh ≤ 0 then 0 else m % 2 ^ sh.toNat
    let y := if roundUp mode rw s n r sh.toNat st then n + 1 else n
    ((if s then -(y : Int) else (y : Int)), r != 0 || st)
  | _ => (0, false)

def clampI (y lo hi : Int) : Int := if y < lo then lo else if hi < y then hi else y

/-- round_int (R95). -/
def roundInt (x : Exact) (w : Nat) (mode : Nat) (rw : Nat) : Int × Flags :=
  let lo : Int := -(2 ^ (w - 1) : Nat)
  let hi : Int := (2 ^ (w - 1) : Nat) - 1
  match x with
  | .nan => (0, flNV)
  | .inf neg => (if neg then lo else hi, flNV)
  | x =>
    let (y, inexact) := toInteger x mode rw
    if y < lo || hi < y then (clampI y lo hi, flNV) else (y, flIf inexact flNX)

/-- A two's-complement code of width w as an integer. -/
def signedOf (w : Nat) (c : Nat) : Int := if c.testBit (w - 1) then (c : Int) - (2 ^ w : Nat) else (c : Int)

/-- An integer as a two's-complement code of width w, high bits dropped. -/
def codeOf (w : Nat) (i : Int) : Nat := (i % ((2 ^ w : Nat) : Int)).toNat

/-- The element's exact value, whatever its format: floating by R88, integer by R89. -/
def decodeElem (tag : BitVec 4) (c : Nat) : Exact :=
  match fmtOf tag with
  | some f => decodeFp f c
  | none =>
    if tag == 0xB#4 then
      let i := signedOf 8 c
      .fin (decide (i < 0)) i.natAbs (-6) false
    else Exact.ofInt (signedOf (tagWidth tag) c)

/-! Exact arithmetic. A result comes with the NV flag where a NaN comes from operands none of which is NaN (R96). -/

/-- The signed significand at exponent e, which is at most the value's own exponent. -/
def Exact.sigAt (neg : Bool) (m : Nat) (ex e : Int) : Int :=
  let a : Int := (m <<< (ex - e).toNat : Nat)
  if neg then -a else a

/-- Exact sum; a zero sum of opposite signs is +0, or -0 in mode down (R92). The operands carry no remainder. -/
def Exact.add (mode : Nat) (x y : Exact) : Exact × Flags :=
  match x, y with
  | .nan, _ => (.nan, 0#5)
  | _, .nan => (.nan, 0#5)
  | .inf a, .inf b => if a == b then (.inf a, 0#5) else (.nan, flNV)
  | .inf a, .fin .. => (.inf a, 0#5)
  | .fin .., .inf b => (.inf b, 0#5)
  | .fin s m ex _, .fin t n ey _ =>
    if m == 0 && n == 0 then (.zero (if s == t then s else mode == 2), 0#5)
    else
      let e := min ex ey
      let v := Exact.sigAt s m ex e + Exact.sigAt t n ey e
      if v == 0 then (.zero (mode == 2), 0#5)
      else (.fin (decide (v < 0)) v.natAbs e false, 0#5)

def Exact.mul (x y : Exact) : Exact × Flags :=
  match x, y with
  | .nan, _ => (.nan, 0#5)
  | _, .nan => (.nan, 0#5)
  | .inf a, .inf b => (.inf (a != b), 0#5)
  | .inf a, .fin t n _ _ => if n == 0 then (.nan, flNV) else (.inf (a != t), 0#5)
  | .fin s m _ _, .inf b => if m == 0 then (.nan, flNV) else (.inf (s != b), 0#5)
  | .fin s m ex _, .fin t n ey _ => (.fin (s != t) (m * n) (ex + ey) false, 0#5)

/-- x times y plus z, exact (one rounding follows). A product of zero and infinity is invalid whatever z is (05 R124). -/
def Exact.fma (mode : Nat) (x y z : Exact) : Exact × Flags :=
  let (p, f) := Exact.mul x y
  if p.isNan then (.nan, f) else
  let (r, g) := Exact.add mode p z
  (r, f ||| g)

/-- Quotient with at least 64 significant bits and a sticky remainder. -/
def Exact.div (x y : Exact) : Exact × Flags :=
  match x, y with
  | .nan, _ => (.nan, 0#5)
  | _, .nan => (.nan, 0#5)
  | .inf _, .inf _ => (.nan, flNV)
  | .inf a, .fin t _ _ _ => (.inf (a != t), 0#5)
  | .fin s _ _ _, .inf b => (.zero (s != b), 0#5)
  | .fin s m ex _, .fin t n ey _ =>
    if n == 0 then
      if m == 0 then (.nan, flNV) else (.inf (s != t), flDZ)
    else if m == 0 then (.zero (s != t), 0#5)
    else
      let k := 70 + Nat.log2 n
      let a := m <<< k
      (.fin (s != t) (a / n) (ex - ey - k) (a % n != 0), 0#5)

/-- Integer square root, one result bit a turn from bit `k` down. -/
def isqrtFrom (n : Nat) : Nat → Nat → Nat
  | 0, r => r
  | k + 1, r =>
    let r' := r + 2 ^ k
    isqrtFrom n k (if r' * r' ≤ n then r' else r)

def isqrt (n : Nat) : Nat := isqrtFrom n (Nat.log2 n / 2 + 1) 0

/-- Square root (correctly rounded after `roundFmt`): -0 gives -0, a negative number is invalid. -/
def Exact.sqrt (x : Exact) : Exact × Flags :=
  match x with
  | .nan => (.nan, 0#5)
  | .inf neg => if neg then (.nan, flNV) else (.inf false, 0#5)
  | .fin s m ex _ =>
    if m == 0 then (.zero s, 0#5)
    else if s then (.nan, flNV)
    else
      let k : Nat := 140 + (ex % 2).toNat
      let a := m <<< k
      let r := isqrt a
      (.fin false r ((ex - k) / 2) (decide (r * r < a)), 0#5)

/-- Order of two values that are no NaN: less than; the two zeros are equal. -/
def Exact.lt (x y : Exact) : Bool :=
  match x, y with
  | .nan, _ => false
  | _, .nan => false
  | .inf a, .inf b => a && !b
  | .inf a, .fin .. => a
  | .fin .., .inf b => !b
  | .fin s m ex _, .fin t n ey _ =>
    let e := min ex ey
    decide (Exact.sigAt s m ex e < Exact.sigAt t n ey e)

def Exact.eq (x y : Exact) : Bool :=
  match x, y with
  | .nan, _ => false
  | _, .nan => false
  | .inf a, .inf b => a == b
  | .inf _, .fin .. => false
  | .fin .., .inf _ => false
  | .fin s m ex _, .fin t n ey _ =>
    let e := min ex ey
    Exact.sigAt s m ex e == Exact.sigAt t n ey e

/-- exp_bin (R106): the EXPHIST bin of a result. -/
def expBin (x : Exact) : Option Nat :=
  match x with
  | .nan => none
  | .inf _ => some 31
  | .fin _ m e _ => if m == 0 then none else some ((clampI ((Nat.log2 m : Int) + e) (-16) 15) + 16).toNat

/-! MX blocks (R99 to R101). -/

/-- A quantised block: scale code, 32 element codes, flags. -/
structure MxBlock where
  scale : Nat
  e : List Nat
  fl : Flags
deriving DecidableEq, Repr

/-- The larger of two finite magnitudes. -/
def Exact.maxAbs (x y : Exact) : Exact := if x.abs.lt y.abs then y.abs else x.abs

/-- The exponent emax of an MX element format by tag; MXINT8 has emax 0 (R89). -/
def mxEmax (tag : BitVec 4) : Int :=
  match fmtOf tag with
  | some f => f.emax
  | none => 0

/-- A value times 2 to the k. -/
def Exact.scale2 (x : Exact) (k : Int) : Exact :=
  match x with
  | .fin s m e st => .fin s m (e + k) st
  | x => x

/-- One element of quantize_mx under block exponent X. -/
def quantElem (tag : BitVec 4) (X : Int) (v : Exact) : Nat × Flags :=
  match fmtOf tag with
  | some f => roundFmt (v.scale2 (-X)) f 0 0 true
  | none =>
    let (y, inexact) := toInteger (v.scale2 (6 - X)) 0 0
    (codeOf 8 (clampI y (-127) 127), flIf inexact flNX ||| flIf (decide (127 < y) || decide (y < -127)) flOF)

/-- quantize_mx (R100) of 32 values. -/
def quantizeMx (tag : BitVec 4) (v : List Exact) : MxBlock :=
  if v.any fun x => x.isNan || x.isInf then
    ⟨0xFF, v.map fun _ => 0, flIf (!(v.any Exact.isNan)) flNV⟩
  else
    match v.foldl Exact.maxAbs (.zero false) with
    | .fin _ m e _ =>
      if m == 0 then ⟨0, v.map fun _ => 0, 0#5⟩
      else
        let X := clampI ((Nat.log2 m : Int) + e - mxEmax tag) (-127) 127
        let r := v.map (quantElem tag X)
        ⟨(X + 127).toNat, r.map Prod.fst, r.foldl (fun f p => f ||| p.2) 0#5⟩
    | _ => ⟨0xFF, v.map fun _ => 0, 0#5⟩

/-- dequantize_mx (R101): an FP32 code and its flags. -/
def dequantizeMx (tag : BitVec 4) (scale e : Nat) : Nat × Flags :=
  if scale == 0xFF then (canonNan fmtFP32, 0#5)
  else roundRne ((decodeElem tag e).scale2 ((scale : Int) - 127)) fmtFP32

/-! Accumulator windows (R102 to R105). -/

/-- A cell of an accumulator window (R102). -/
structure WCell where
  ni : Bool := false
  pi : Bool := false
  iv : Bool := false
  ns : Bool := false
  z : Bool := false
  anch : BitVec 10 := 0#10
  sig : BitVec 96 := 0#96
deriving DecidableEq, Repr

/-- The 112 bits of a cell. -/
def WCell.bits (c : WCell) : BitVec 112 :=
  0#1 ++ BitVec.ofBool c.ni ++ BitVec.ofBool c.pi ++ BitVec.ofBool c.iv ++ BitVec.ofBool c.ns ++ BitVec.ofBool c.z
    ++ c.anch ++ c.sig

def WCell.ofBits (b : BitVec 112) : WCell :=
  { ni := b.getLsbD 110, pi := b.getLsbD 109, iv := b.getLsbD 108, ns := b.getLsbD 107, z := b.getLsbD 106,
    anch := b.extractLsb' 96 10, sig := b.extractLsb' 0 96 }

/-- How many bits a significand must lose to fit 96 bits. -/
def excessBits (t : Int) : Nat :=
  let a := if t < 0 then (-t - 1).toNat else t.toNat
  if a == 0 then 0 else Nat.log2 a + 1 - 95

/-- window_add (R104). -/
def windowAdd (c : WCell) (Q q : Int) : WCell :=
  if Q == 0 then c else
  let cA := c.anch.toInt
  let cS := c.sig.toInt
  let empty := cS == 0 && !c.z
  let a := if empty then q else if c.z then cA else min cA q
  let base : Int := if empty then 0 else cS * (2 ^ (cA - a).toNat : Nat)
  let (T, lost) : Int × Bool :=
    if a ≤ q then (base + Q * (2 ^ (q - a).toNat : Nat), false)
    else
      let d : Int := (2 ^ (a - q).toNat : Nat)
      (base + Q / d, Q % d != 0)
  let k := excessBits T
  let p : Int := (2 ^ k : Nat)
  { c with z := c.z || lost || T % p != 0, sig := BitVec.ofInt 96 (T / p), anch := BitVec.ofInt 10 (a + k) }

/-- drain_window (R105). -/
def drainWindow (c : WCell) (f : Fmt) : Nat × Flags :=
  if c.ns || c.iv || (c.pi && c.ni) then (canonNan f, flIf (!c.ns) flNV)
  else if c.pi then (infCode f false, 0#5)
  else if c.ni then (infCode f true, 0#5)
  else if c.sig == 0#96 && !c.z then (0, 0#5)
  else
    let v : Int := 2 * c.sig.toInt + (if c.z then 1 else 0)
    roundRne (.fin (decide (v < 0)) v.natAbs (c.anch.toInt - 1) false) f

/-! The Mangle (R107, R108). -/

/-- An M320 accumulator. -/
structure M320 where
  v : BitVec 320 := 0#320
  ns : Bool := false
  ps : Bool := false
  ngs : Bool := false
  az : Bool := true
  count : BitVec 41 := 0#41
deriving DecidableEq, Repr

/-- An empty M320. -/
def M320.empty : M320 := {}

/-- x times 2 to the 149, an integer for every finite FP32 value. -/
def mangleInt (x : Exact) : Int :=
  match x with
  | .fin s m e _ => Exact.sigAt s m e (-149)
  | _ => 0

/-- The contribution is -0. -/
def isNegZero (x : Exact) : Bool :=
  match x with
  | .fin s m _ _ => s && m == 0
  | _ => false

/-- mangle_add (R107), the count bound apart. -/
def M320.add (m : M320) (x : Exact) : M320 :=
  { v := m.v + BitVec.ofInt 320 (mangleInt x)
    ns := m.ns || x.isNan
    ps := m.ps || x == .inf false
    ngs := m.ngs || x == .inf true
    az := m.az && isNegZero x
    count := m.count + 1#41 }

/-- mangle_merge (R107), the count bound apart. -/
def M320.merge (a b : M320) : M320 :=
  { v := a.v + b.v, ns := a.ns || b.ns, ps := a.ps || b.ps, ngs := a.ngs || b.ngs, az := a.az && b.az,
    count := a.count + b.count }

/-- A count beyond 2^40 raises MANGLE_COUNT (R107). -/
def countOver (a b : Nat) : Bool := decide (2 ^ 40 < a + b)

/-- mangle_round (R108). -/
def M320.round (m : M320) (f : Fmt) : Nat × Flags :=
  if m.ns || (m.ps && m.ngs) then (canonNan f, flIf (!m.ns) flNV)
  else if m.ps then (infCode f false, 0#5)
  else if m.ngs then (infCode f true, 0#5)
  else if m.v == 0#320 then (signCode f (m.az && m.count != 0#41), 0#5)
  else
    let i := m.v.toInt
    roundRne (.fin (decide (i < 0)) i.natAbs (-149) false) f

/-! CXP (R109 to R112). -/

/-- A CXP element: header and significand words. -/
structure CxpElem where
  hdr : BitVec 16
  words : List (BitVec 32)
deriving DecidableEq, Repr

/-- Words that follow a header of length code `len`. -/
def cxpWords (len : Nat) : Nat := if len == 7 then 10 else len

/-- Trailing zero bits of a non-zero number, at most `k`. -/
def ctzUpTo (n : Nat) : Nat → Nat
  | 0 => 0
  | k + 1 => if n.testBit 0 then 0 else 1 + ctzUpTo (n / 2) k

/-- The low `n` 32-bit words of an integer, lowest first. -/
def wordsOf (x : Nat) : Nat → List (BitVec 32)
  | 0 => []
  | n + 1 => BitVec.ofNat 32 x :: wordsOf (x / 2 ^ 32) n

def natOfWords : List (BitVec 32) → Nat
  | [] => 0
  | w :: t => w.toNat + 2 ^ 32 * natOfWords t

/-- The least word count in 1 to 6 that holds W as two's complement. -/
def cxpLen (W : Int) : Nat → Option Nat
  | 0 => none
  | k + 1 =>
    let L := 6 - k
    let h : Int := (2 ^ (32 * L - 1) : Nat)
    if -h ≤ W && W < h then some L else cxpLen W k

/-- cxp_encode (R110). -/
def cxpEncode (m : M320) : CxpElem :=
  let fl := BitVec.ofBool m.ns ++ BitVec.ofBool m.ps ++ BitVec.ofBool m.ngs ++ BitVec.ofBool m.az
  if m.v == 0#320 then ⟨fl ++ 0#3 ++ 0#9, []⟩
  else
    let t := ctzUpTo m.v.toNat 320
    let W : Int := m.v.toInt / (2 ^ t : Nat)
    match cxpLen W 6 with
    | some L => ⟨fl ++ BitVec.ofNat 3 L ++ BitVec.ofNat 9 t, wordsOf (codeOf (32 * L) W) L⟩
    | none => ⟨fl ++ 7#3 ++ 0#9, wordsOf m.v.toNat 10⟩

/-- cxp_decode (R112) under the chunk's count word. -/
def cxpDecode (e : CxpElem) (cw : BitVec 64) : M320 :=
  let len := (e.hdr.extractLsb' 9 3).toNat
  let t := (e.hdr.extractLsb' 0 9).toNat
  let n := cxpWords len
  let W := signedOf (32 * n) (natOfWords e.words)
  let V : Int := if len == 0 then 0 else W * (2 ^ t : Nat)
  let lim : Int := (2 ^ 319 : Nat)
  let bad := ((len == 0 || len == 7) && t != 0) || (1 ≤ len && len ≤ 6 && (319 < t || V < -lim || lim ≤ V))
    || cw.extractLsb' 41 23 != 0#23
  { v := if bad then 0#320 else BitVec.ofInt 320 V
    ns := e.hdr.getLsbD 15 || bad, ps := e.hdr.getLsbD 14, ngs := e.hdr.getLsbD 13, az := e.hdr.getLsbD 12
    count := cw.extractLsb' 0 41 }

/-- A CXP chunk (R111): the count word and its elements. -/
structure CxpChunk where
  cw : BitVec 64
  elems : List CxpElem
deriving DecidableEq, Repr

/-- The element that fills a slot beyond a tile's last element (R111). -/
def cxpPad : CxpElem := ⟨0#16, []⟩

/-- Little-endian bytes of a number. -/
def bytesLE (x : Nat) : Nat → List (BitVec 8)
  | 0 => []
  | n + 1 => BitVec.ofNat 8 x :: bytesLE (x / 256) n

def natOfBytes : List (BitVec 8) → Nat
  | [] => 0
  | b :: t => b.toNat + 256 * natOfBytes t

/-- A list brought to length n with a filler. -/
def padTo {α : Type} (n : Nat) (x : α) (l : List α) : List α := l.take n ++ List.replicate (n - l.length) x

/-- The bytes of a chunk (R111). -/
def CxpChunk.bytes (c : CxpChunk) : List (BitVec 8) :=
  let es := padTo 64 cxpPad c.elems
  bytesLE c.cw.toNat 8 ++ (es.map fun e => bytesLE e.hdr.toNat 2).flatten
    ++ (es.map fun e => (e.words.map fun w => bytesLE w.toNat 4).flatten).flatten

/-- Elements from their headers and the words that follow. -/
def cxpTake : List (BitVec 16) → List (BitVec 8) → List CxpElem
  | [], _ => []
  | h :: t, bs =>
    let n := 4 * cxpWords (h.extractLsb' 9 3).toNat
    ⟨h, wordsOf (natOfBytes (bs.take n)) (n / 4)⟩ :: cxpTake t (bs.drop n)

/-- Headers from their bytes. -/
def hdrsOf (bs : List (BitVec 8)) : Nat → List (BitVec 16)
  | 0 => []
  | n + 1 => BitVec.ofNat 16 (natOfBytes (bs.take 2)) :: hdrsOf (bs.drop 2) n

/-- A chunk read from bytes; bytes beyond the end read as zero. -/
def CxpChunk.ofBytes (bs : List (BitVec 8)) : CxpChunk :=
  ⟨BitVec.ofNat 64 (natOfBytes (bs.take 8)), cxpTake (hdrsOf (bs.drop 8) 64) (bs.drop 136)⟩

/-- The length in bytes of a chunk: 136 and four per word (R111). -/
def CxpChunk.size (c : CxpChunk) : Nat :=
  136 + 4 * ((padTo 64 cxpPad c.elems).map fun e => cxpWords (e.hdr.extractLsb' 9 3).toNat).sum

end Sys2Proof.Machine
end

