-- ==== Sys2Proof/Syntax.lean ====
section
/-! DEFINITION. The syntax: one constructor per row of the spec's table of operations and events (02_bundles R50,
15_edge_fabric R381 to R386, 95_what_each_step_holds). A slot instruction's arguments are the fields its form uses
(02 R42), an edge operation's are the fields of its element word (15 R381), an event has
no word and no operands: the item it acts on and what its outside agent supplies stand in the state's input latch, in
the order its docstring gives. -/

namespace Sys2Proof

/-- TAGA of an edge operation without a literal of its own, and the LSEL beside it: it selects the literal that source B or the tag
action takes (15 R378, R381, R382). -/
structure LitTag where
  act : BitVec 4
  lit : BitVec 2
deriving DecidableEq, Repr

inductive Instr where
  /-- R40. A header-only bundle with STALL non-zero idles the issue clock for STALL ticks. -/
  | nop (w : BitVec 4) (stl : BitVec 4)
  /-- R53. A header-only bundle with WAIT non-zero issues when its token counter is non-zero and decrements it. -/
  | waitPoint (w : BitVec 4)
  /-- R68. Writes S[a] + S[b] to S[d]. -/
  | add (d : Reg) (a : Reg) (b : Reg)
  /-- R68. Writes S[a] - S[b] to S[d]. -/
  | sub (d : Reg) (a : Reg) (b : Reg)
  /-- R68. Writes the low 64 bits of the product with latency 3. -/
  | mul (d : Reg) (a : Reg) (b : Reg)
  /-- R68. Writes the high 64 bits of the signed 128-bit product. -/
  | mulh (d : Reg) (a : Reg) (b : Reg)
  /-- R68. Writes the high 64 bits of the unsigned 128-bit product. -/
  | mulhu (d : Reg) (a : Reg) (b : Reg)
  /-- R69. Signed division on the shared 20-tick divider, never trapping. -/
  | div (d : Reg) (a : Reg) (b : Reg)
  /-- R69. Unsigned division on the shared divider. -/
  | divu (d : Reg) (a : Reg) (b : Reg)
  /-- R69. Signed remainder with the sign of a. -/
  | rem (d : Reg) (a : Reg) (b : Reg)
  /-- R69. Unsigned remainder. -/
  | remu (d : Reg) (a : Reg) (b : Reg)
  /-- R68. Bitwise AND. -/
  | and (d : Reg) (a : Reg) (b : Reg)
  /-- R68. Bitwise OR. -/
  | or (d : Reg) (a : Reg) (b : Reg)
  /-- R68. Bitwise exclusive OR. -/
  | xor (d : Reg) (a : Reg) (b : Reg)
  /-- R68. Bitwise a AND NOT b. -/
  | andn (d : Reg) (a : Reg) (b : Reg)
  /-- R68. Left shift by b[5:0]. -/
  | shl (d : Reg) (a : Reg) (b : Reg)
  /-- R68. Logical right shift by b[5:0]. -/
  | shr (d : Reg) (a : Reg) (b : Reg)
  /-- R68. Arithmetic right shift by b[5:0]. -/
  | sra (d : Reg) (a : Reg) (b : Reg)
  /-- R68. Rotate left by b[5:0]. -/
  | rol (d : Reg) (a : Reg) (b : Reg)
  /-- R68. Signed minimum. -/
  | min (d : Reg) (a : Reg) (b : Reg)
  /-- R68. Signed maximum. -/
  | max (d : Reg) (a : Reg) (b : Reg)
  /-- R68. Unsigned minimum. -/
  | minu (d : Reg) (a : Reg) (b : Reg)
  /-- R68. Unsigned maximum. -/
  | maxu (d : Reg) (a : Reg) (b : Reg)
  /-- R70. Writes 1 if the condition selected by m holds, else 0. -/
  | cmp (d : Reg) (a : Reg) (b : Reg) (m : BitVec 4)
  /-- R68. Writes a if the old S[d] is non-zero, else b. -/
  | sel (d : Reg) (a : Reg) (b : Reg)
  /-- R68. Counts leading zero bits. -/
  | clz (d : Reg) (a : Reg)
  /-- R68. Counts trailing zero bits. -/
  | ctz (d : Reg) (a : Reg)
  /-- R68. Counts one bits. -/
  | popc (d : Reg) (a : Reg)
  /-- R71. Extracts a bit field, zero- or sign-extended. -/
  | bfx (d : Reg) (a : Reg) (b : Reg) (m : BitVec 4)
  /-- R71. Inserts a bit field of a into the old S[d]. -/
  | bfi (d : Reg) (a : Reg) (b : Reg)
  /-- R72. Sign-extends from the width code in m. -/
  | sext (d : Reg) (a : Reg) (m : BitVec 4)
  /-- R72. Zero-extends from the width code in m. -/
  | zext (d : Reg) (a : Reg) (m : BitVec 4)
  /-- R68. Scaled-index add a + (b << m). -/
  | addx (d : Reg) (a : Reg) (b : Reg) (m : BitVec 4)
  /-- R68. Copies S[a] to S[d]. -/
  | mov (d : Reg) (a : Reg)
  /-- R73. Adds a sign-extended 12-bit immediate. -/
  | addi (d : Reg) (a : Reg) (imm : BitVec 12)
  /-- R73. AND with an immediate. -/
  | andi (d : Reg) (a : Reg) (imm : BitVec 12)
  /-- R73. OR with an immediate. -/
  | ori (d : Reg) (a : Reg) (imm : BitVec 12)
  /-- R73. Exclusive OR with an immediate. -/
  | xori (d : Reg) (a : Reg) (imm : BitVec 12)
  /-- R73. Left shift by an immediate count. -/
  | shli (d : Reg) (a : Reg) (sh : BitVec 6)
  /-- R73. Logical right shift by an immediate count. -/
  | shri (d : Reg) (a : Reg) (sh : BitVec 6)
  /-- R73. Arithmetic right shift by an immediate count. -/
  | srai (d : Reg) (a : Reg) (sh : BitVec 6)
  /-- R73. Writes -1, 0 or +1 comparing S[a] with an immediate. -/
  | cmpi (d : Reg) (a : Reg) (imm : BitVec 12)
  /-- R74. Loads a 32-bit literal word of the bundle, extended or spliced. -/
  | lit (d : Reg) (a : Reg) (idx : BitVec 2) (md : BitVec 10)
  /-- R74. Loads two consecutive literal words as 64 bits. -/
  | lit64 (d : Reg) (idx : BitVec 2)
  /-- R73. Multiplies by an immediate with latency 3. -/
  | muli (d : Reg) (a : Reg) (imm : BitVec 12)
  /-- R75. Unconditional relative branch. -/
  | br (off : BitVec 17)
  /-- R75. Branches if S[a] is zero. -/
  | brz (a : Reg) (off : BitVec 17)
  /-- R75. Branches if S[a] is non-zero. -/
  | brnz (a : Reg) (off : BitVec 17)
  /-- R75. Branches if mask K[a] is non-zero. -/
  | brany (a : KReg) (off : BitVec 17)
  /-- R75. Branches if mask K[a] is zero. -/
  | brnone (a : KReg) (off : BitVec 17)
  /-- R75. Branches and writes the next bundle address to S[a]. -/
  | jal (a : Reg) (off : BitVec 17)
  /-- R75. Jumps to the address in S[a]. -/
  | jr (a : Reg)
  /-- R76. Sets the hardware loop state with a count from S[a]. -/
  | loop (a : Reg) (off : BitVec 17)
  /-- R76. Sets the hardware loop state with an immediate count 1-32. -/
  | loopi (a : Reg) (off : BitVec 17)
  /-- R78. Mask AND. -/
  | kand (d : KReg) (a : KReg) (b : KReg)
  /-- R78. Mask OR. -/
  | kor (d : KReg) (a : KReg) (b : KReg)
  /-- R78. Mask exclusive OR. -/
  | kxor (d : KReg) (a : KReg) (b : KReg)
  /-- R78. Mask AND NOT. -/
  | kandn (d : KReg) (a : KReg) (b : KReg)
  /-- R78. Mask NOT. -/
  | knot (d : KReg) (a : KReg)
  /-- R78. Mask copy. -/
  | kmov (d : KReg) (a : KReg)
  /-- R78. Copies a mask to a scalar. -/
  | ktos (d : Reg) (a : KReg)
  /-- R78. Counts mask bits into a scalar. -/
  | kpopc (d : Reg) (a : KReg)
  /-- R78. Writes the index of the lowest set mask bit. -/
  | kfirst (d : Reg) (a : KReg)
  /-- R78. Builds a mask from a count or copies a scalar into a mask. -/
  | ksetn (d : KReg) (a : Reg) (m : BitVec 4)
  /-- R79. Builds a name from the region space, tensor, generation and index. -/
  | nmk (d : NReg) (a : Reg) (b : Reg)
  /-- R79. Sets one field of a name register. -/
  | nset (d : NReg) (a : Reg) (m : BitVec 4)
  /-- R79. Reads one field of a name register. -/
  | nget (d : Reg) (a : NReg) (m : BitVec 4)
  /-- R79. Adds to one name field, wrapping within the field. -/
  | nadd (d : NReg) (a : NReg) (b : Reg) (m : BitVec 4)
  /-- R79. Copies a name register. -/
  | nmov (d : NReg) (a : NReg)
  /-- R80. Compares names or returns a wrapped generation difference. -/
  | ncmp (d : Reg) (a : NReg) (b : NReg) (m : BitVec 4)
  /-- R123. Element-wise add under predicate. -/
  | vadd (d : Reg) (a : Reg) (b : Reg) (k : KReg) (m : BitVec 4)
  /-- R123. Element-wise subtract. -/
  | vsub (d : Reg) (a : Reg) (b : Reg) (k : KReg) (m : BitVec 4)
  /-- R123. Element-wise multiply. -/
  | vmul (d : Reg) (a : Reg) (b : Reg) (k : KReg) (m : BitVec 4)
  /-- R123. Fused multiply-add with one rounding, V0 or V1 only. -/
  | vfma (d : Reg) (a : Reg) (b : Reg) (k : KReg) (m : BitVec 4)
  /-- R123. Fused z - x*y with one rounding. -/
  | vfms (d : Reg) (a : Reg) (b : Reg) (k : KReg) (m : BitVec 4)
  /-- R124. Element-wise minimum. -/
  | vmin (d : Reg) (a : Reg) (b : Reg) (k : KReg) (m : BitVec 4)
  /-- R124. Element-wise maximum. -/
  | vmax (d : Reg) (a : Reg) (b : Reg) (k : KReg) (m : BitVec 4)
  /-- R124. Element-wise absolute value. -/
  | vabs (d : Reg) (a : Reg) (k : KReg) (m : BitVec 4)
  /-- R124. Element-wise negation. -/
  | vneg (d : Reg) (a : Reg) (k : KReg) (m : BitVec 4)
  /-- R126. Lane-wise AND keeping a's tag. -/
  | vand (d : Reg) (a : Reg) (b : Reg) (k : KReg)
  /-- R126. Lane-wise OR. -/
  | vor (d : Reg) (a : Reg) (b : Reg) (k : KReg)
  /-- R126. Lane-wise exclusive OR. -/
  | vxor (d : Reg) (a : Reg) (b : Reg) (k : KReg)
  /-- R123. Element-wise left shift. -/
  | vshl (d : Reg) (a : Reg) (b : Reg) (k : KReg) (m : BitVec 4)
  /-- R123. Element-wise logical right shift. -/
  | vshr (d : Reg) (a : Reg) (b : Reg) (k : KReg) (m : BitVec 4)
  /-- R123. Element-wise arithmetic right shift. -/
  | vsra (d : Reg) (a : Reg) (b : Reg) (k : KReg) (m : BitVec 4)
  /-- R125. Compares elements and writes a mask. -/
  | vcmp (d : KReg) (a : Reg) (b : Reg) (k : KReg) (m : BitVec 4)
  /-- R126. Selects lanes of a or b by mask. -/
  | vsel (d : Reg) (a : Reg) (b : Reg) (k : KReg)
  /-- R126. Copies a vector register. -/
  | vmov (d : Reg) (a : Reg) (k : KReg)
  /-- R126. Broadcasts a scalar into every element. -/
  | vbcast (d : Reg) (a : Reg) (k : KReg) (m : BitVec 4)
  /-- R126. INT8 four-way dot product accumulated into INT32 lanes. -/
  | vdot4 (d : Reg) (a : Reg) (b : Reg) (k : KReg)
  /-- R126. Two-way dot product accumulated with one rounding. -/
  | vdot2 (d : Reg) (a : Reg) (b : Reg) (k : KReg) (m : BitVec 4)
  /-- R124. Saturating element-wise add. -/
  | vsat (d : Reg) (a : Reg) (b : Reg) (k : KReg) (m : BitVec 4)
  /-- R123. Element-wise leading zero count. -/
  | vclz (d : Reg) (a : Reg) (k : KReg) (m : BitVec 4)
  /-- R123. Element-wise population count. -/
  | vpopc (d : Reg) (a : Reg) (k : KReg) (m : BitVec 4)
  /-- R123. High half of the signed element product. -/
  | vmulh (d : Reg) (a : Reg) (b : Reg) (k : KReg) (m : BitVec 4)
  /-- R127. Converts elements 0-63 between formats, stochastic rounding from b. -/
  | vcvt (d : Reg) (a : Reg) (b : Reg) (k : KReg) (m : BitVec 4)
  /-- R128. Quantises FP32 lanes into two MX blocks. -/
  | vqmx (d : Reg) (a : Reg) (m : BitVec 4)
  /-- R128. Dequantises MX elements to FP32. -/
  | vdqmx (d : Reg) (a : Reg) (k : KReg) (m : BitVec 4)
  /-- R129. Copies data and scales and sets a new tag. -/
  | vtag (d : Reg) (a : Reg) (m : BitVec 4)
  /-- R129. Reads a register's tag or scales into a scalar. -/
  | vgtag (d : Reg) (a : Reg) (m : BitVec 4)
  /-- R130. Permutes lanes by index. -/
  | vperm (d : Reg) (a : Reg) (b : Reg) (k : KReg)
  /-- R130. Shuffles bytes by index. -/
  | vshuf (d : Reg) (a : Reg) (b : Reg) (k : KReg)
  /-- R130. Rotates lanes by a scalar amount. -/
  | vrot (d : Reg) (a : Reg) (b : Reg) (k : KReg)
  /-- R130. Slides lanes across a and b. -/
  | vslide (d : Reg) (a : Reg) (b : Reg) (k : KReg) (m : BitVec 4)
  /-- R130. Packs b's elements 0-63 into part h of a. -/
  | vpack (d : Reg) (a : Reg) (b : Reg) (m : BitVec 4)
  /-- R130. Brings part h of a down to elements 0-63. -/
  | vunpk (d : Reg) (a : Reg) (m : BitVec 4)
  /-- R130. Compresses selected lanes to the bottom. -/
  | vcmprs (d : Reg) (a : Reg) (k : KReg)
  /-- R130. Expands lanes to selected positions. -/
  | vexpnd (d : Reg) (a : Reg) (k : KReg)
  /-- R130. Writes a base plus prefix counts of a mask. -/
  | viota (d : Reg) (a : Reg) (k : KReg)
  /-- R130. Extracts one lane into a scalar. -/
  | vextr (d : Reg) (a : Reg) (b : Reg) (m : BitVec 4)
  /-- R130. Inserts a scalar into one lane. -/
  | vins (d : Reg) (a : Reg) (b : Reg)
  /-- R128. Sets or adjusts MX block scales. -/
  | vscl (d : Reg) (a : Reg) (b : Reg) (m : BitVec 4)
  /-- R131. Fixed-tree sum of active lanes into a scalar. -/
  | vredadd (d : Reg) (a : Reg) (k : KReg) (m : BitVec 4)
  /-- R131. Minimum of active lanes. -/
  | vredmin (d : Reg) (a : Reg) (k : KReg) (m : BitVec 4)
  /-- R131. Maximum of active lanes. -/
  | vredmax (d : Reg) (a : Reg) (k : KReg) (m : BitVec 4)
  /-- R131. Inclusive prefix sum of active lanes. -/
  | vscan (d : Reg) (a : Reg) (k : KReg) (m : BitVec 4)
  /-- R133. Selects the 64 first key-index pairs of two register pairs. -/
  | vtopk (d : Reg) (a : Reg) (b : Reg) (k : KReg) (m : BitVec 4)
  /-- R133. Sorts active key-index pairs. -/
  | vsorts (d : Reg) (a : Reg) (k : KReg) (m : BitVec 4)
  /-- R131. Writes the lane first by topk order. -/
  | vargmx (d : Reg) (a : Reg) (k : KReg) (m : BitVec 4)
  /-- R134. Computes vrand_word of a key and per-lane counter. -/
  | vrand (d : Reg) (a : Reg) (b : Reg) (k : KReg)
  /-- R135. Counts values into EXPHIST bins or into a lane histogram. -/
  | vhistx (d : Reg) (a : Reg) (k : KReg) (m : BitVec 4)
  /-- R136. Adds active elements exactly into a CXP Mangle image. -/
  | vredx (d : Reg) (a : Reg) (b : Reg) (k : KReg) (m : BitVec 4)
  /-- R136. Rounds a CXP Mangle image once into a scalar. -/
  | vrndx (d : Reg) (a : Reg) (m : BitVec 4)
  /-- R137. Looks up 16-bit elements in a 128-entry table. -/
  | vlut (d : Reg) (a : Reg) (b : Reg) (k : KReg)
  /-- R139. Approximate 2^x. -/
  | fexp2 (d : Reg) (a : Reg) (k : KReg) (m : BitVec 4)
  /-- R139. Approximate log2 x. -/
  | flog2 (d : Reg) (a : Reg) (k : KReg) (m : BitVec 4)
  /-- R139. Approximate reciprocal. -/
  | frcp (d : Reg) (a : Reg) (k : KReg) (m : BitVec 4)
  /-- R139. Approximate reciprocal square root. -/
  | frsq (d : Reg) (a : Reg) (k : KReg) (m : BitVec 4)
  /-- R139. Correctly rounded square root, latency 14. -/
  | fsqrt (d : Reg) (a : Reg) (k : KReg) (m : BitVec 4)
  /-- R139. Correctly rounded division, latency 14. -/
  | fdiv (d : Reg) (a : Reg) (b : Reg) (k : KReg) (m : BitVec 4)
  /-- R139. Approximate tanh. -/
  | ftanh (d : Reg) (a : Reg) (k : KReg) (m : BitVec 4)
  /-- R139. Approximate logistic sigmoid. -/
  | fsigm (d : Reg) (a : Reg) (k : KReg) (m : BitVec 4)
  /-- R139. Approximate sin of pi x. -/
  | fsin (d : Reg) (a : Reg) (k : KReg) (m : BitVec 4)
  /-- R139. Approximate cos of pi x. -/
  | fcos (d : Reg) (a : Reg) (k : KReg) (m : BitVec 4)
  /-- R139. Approximate error function. -/
  | ferf (d : Reg) (a : Reg) (k : KReg) (m : BitVec 4)
  /-- R156. Queues a load of the shadow plane from a W tile. -/
  | mlds (a : Reg)
  /-- R157. Queues a dense product of an A tile and the front plane into a window. -/
  | mma (d : WReg) (a : Reg) (k : KReg)
  /-- R157. Queues a sparse product using A-tile metadata. -/
  | mmas (d : WReg) (a : Reg) (k : KReg)
  /-- R158. Queues zeroing of selected window rows. -/
  | mzero (d : WReg) (k : KReg)
  /-- R159. Queues rounding of window rows into a C tile. -/
  | mdrain (d : Reg) (a : WReg) (b : Reg) (k : KReg) (m : BitVec 4)
  /-- R160. Reads a drained window row into a vector register. -/
  | mrdv (d : Reg) (a : WReg) (b : Reg) (m : BitVec 4)
  /-- R161. Queues setting window row cells exactly from a vector. -/
  | mwrv (d : WReg) (a : Reg) (b : Reg) (k : KReg) (m : BitVec 4)
  /-- R155. Queues a write of MATMODE. -/
  | mmode (a : Reg)
  /-- R163. Holds until earlier matrix commands complete, or counts their completion on a token. -/
  | mwait (m : BitVec 4)
  /-- R162. Queues conversion of a window into the shadow plane. -/
  | mtrw (a : WReg) (m : BitVec 4)
  /-- R176. Loads 8 bytes from the A-buffer. -/
  | ld (d : Reg) (a : Reg) (off : BitVec 10)
  /-- R176. Stores 8 bytes to the A-buffer. -/
  | st (d : Reg) (a : Reg) (off : BitVec 10)
  /-- R176. Loads 256 bytes into a vector register tagged raw. -/
  | vld (d : Reg) (a : Reg) (sp : BitVec 2) (off : BitVec 10)
  /-- R176. Stores 256 bytes of vector data. -/
  | vst (d : Reg) (a : Reg) (sp : BitVec 2) (off : BitVec 10)
  /-- R178. Loads packed MX blocks from a tile into register layout. -/
  | vlds (d : Reg) (a : Reg) (b : Reg) (k : KReg) (sp : BitVec 2) (z : BitVec 2)
  /-- R178. Stores MX blocks in packed layout. -/
  | vsts (d : Reg) (a : Reg) (b : Reg) (k : KReg) (sp : BitVec 2) (z : BitVec 2)
  /-- R179. Gathers 32-bit lanes from indexed addresses. -/
  | vgath (d : Reg) (a : Reg) (b : Reg) (k : KReg) (sp : BitVec 2) (z : BitVec 2)
  /-- R179. Scatters 32-bit lanes in ascending lane order. -/
  | vscat (d : Reg) (a : Reg) (b : Reg) (k : KReg) (sp : BitVec 2) (z : BitVec 2)
  /-- R176. Loads 8 bytes after waiting for the line's fill bit. -/
  | ldw (d : Reg) (a : Reg) (sp : BitVec 2) (off : BitVec 10)
  /-- R176. Loads 256 bytes after waiting for fill bits. -/
  | vldw (d : Reg) (a : Reg) (sp : BitVec 2) (off : BitVec 10)
  /-- R181. Sends a load from another task's A-buffer, landing on a token. -/
  | qld (d : Reg) (a : Reg) (t : BitVec 4) (s : BitVec 6)
  /-- R181. Sends a store to another task's A-buffer. -/
  | qst (d : Reg) (a : Reg) (t : BitVec 4) (s : BitVec 6)
  /-- R184. Creates a READY tile in a named or the lowest empty slot. -/
  | talloc (d : Reg) (a : Reg) (b : Reg) (m : BitVec 4)
  /-- R185. Frees a tile once the interlock is met. -/
  | tfree (a : Reg)
  /-- R186. Reads a tile word. -/
  | tstat (d : Reg) (a : Reg)
  /-- R187. Sets a watch that increments a token when a tile is ready or filled enough. -/
  | twait (a : Reg) (b : Reg) (m : BitVec 4)
  /-- R188. Changes a tile's tag or scope, or opens or closes it for program filling. -/
  | tset (a : Reg) (b : Reg) (m : BitVec 4)
  /-- R191. Requests invalidation of one or all instruction-store lines. -/
  | icinv (a : Reg) (m : BitVec 4)
  /-- R211. Global load at the given scope, landing on a token. -/
  | gld (d : Reg) (a : Reg) (sp : BitVec 2) (t : BitVec 4) (s : BitVec 6)
  /-- R211. Global store into the G-cache or through to the agent. -/
  | gst (d : Reg) (a : Reg) (sp : BitVec 2) (t : BitVec 4) (s : BitVec 6)
  /-- R211. 256-byte global load. -/
  | vgld (d : Reg) (a : Reg) (sp : BitVec 2) (t : BitVec 4) (s : BitVec 6)
  /-- R211. 256-byte global store. -/
  | vgst (d : Reg) (a : Reg) (sp : BitVec 2) (t : BitVec 4) (s : BitVec 6)
  /-- R212. Acquire load; at wafer scope invalidates clean G-cache bytes on arrival. -/
  | ldacq (d : Reg) (a : Reg) (sp : BitVec 2) (t : BitVec 4) (s : BitVec 6)
  /-- R212. Release store; core scope logs dirty lines, wafer scope writes them back. -/
  | strel (d : Reg) (a : Reg) (sp : BitVec 2) (t : BitVec 4) (s : BitVec 6)
  /-- R213. Promotes the target task's core releases and reads a flag as a wafer acquire. -/
  | promacq (d : Reg) (a : Reg) (sp : BitVec 2) (t : BitVec 4) (s : BitVec 6)
  /-- R214. Orders global accesses of covered classes at a scope. -/
  | fence (sp : BitVec 2) (t : BitVec 4) (s : BitVec 6)
  /-- R215. Sends an integer atomic to the agent without a result. -/
  | atom (d : Reg) (a : Reg) (sp : BitVec 2) (t : BitVec 4) (s : BitVec 6)
  /-- R215. Sends an integer atomic returning the old word. -/
  | atomr (d : Reg) (a : Reg) (sp : BitVec 2) (t : BitVec 4) (s : BitVec 6)
  /-- R218. Adds contributions into, or clears, Mangle cells at the agent. -/
  | mred (d : Reg) (a : Reg) (sp : BitVec 2) (t : BitVec 4) (s : BitVec 6)
  /-- R219. Rounds a Mangle cell once and returns it, optionally clearing it. -/
  | mredrd (d : Reg) (a : Reg) (sp : BitVec 2) (t : BitVec 4) (s : BitVec 6)
  /-- R220. Writes back dirty G-cache bytes of a line or all lines. -/
  | clwb (a : Reg) (sp : BitVec 2) (t : BitVec 4) (s : BitVec 6)
  /-- R220. Writes back and invalidates a line or all lines. -/
  | clinv (a : Reg) (sp : BitVec 2) (t : BitVec 4) (s : BitVec 6)
  /-- R222. Queues a strided copy between a tile and global memory. -/
  | xcopy (d : Reg) (a : Reg) (b : Reg) (t : BitVec 4) (sp : BitVec 2)
  /-- R222. Queues an indexed gather of global rows into a tile. -/
  | xgath (d : Reg) (a : Reg) (b : Reg) (t : BitVec 4) (sp : BitVec 2)
  /-- R222. Queues an indexed scatter of tile rows to global memory. -/
  | xscat (d : Reg) (a : Reg) (b : Reg) (t : BitVec 4) (sp : BitVec 2)
  /-- R222. Queues a fill of tile or global bytes with a 64-bit pattern. -/
  | xfill (d : Reg) (a : Reg) (b : Reg) (t : BitVec 4) (sp : BitVec 2)
  /-- R274. Binds a one-shot subscription to a tile and sends it to the name's home. -/
  | subName (d : NReg) (a : Reg)
  /-- R275. Ends a one-shot binding, sending a withdrawal if still filling. -/
  | unsub (a : Reg)
  /-- R276. Publishes a tile under a name, optionally after a full wafer release. -/
  | pub (d : NReg) (a : Reg) (m : BitVec 4)
  /-- R278. Contributes a tile to a reduction name. -/
  | pubr (d : NReg) (a : Reg)
  /-- R278. Declares a reduction name with count, format and result name. -/
  | ropen (d : NReg) (a : NReg) (b : Reg) (m : BitVec 4)
  /-- R274. Rebinds a ready one-shot tile to a new name. -/
  | resub (d : NReg) (a : Reg)
  /-- R279. Sends a hold by count or rounds to the name's home. -/
  | nhold (d : NReg) (a : Reg) (m : BitVec 4)
  /-- R279. Sends a release of a held entry to the name's home. -/
  | nrel (d : NReg)
  /-- R280. Queries the home's entry for a name. -/
  | nqry (d : Reg) (a : NReg) (m : BitVec 4)
  /-- R277. Publishes strided rows of a tile as an engine command. -/
  | pubx (d : NReg) (a : Reg) (b : Reg) (t : BitVec 4) (sp : BitVec 2)
  /-- R312. Queues a range of child firings. -/
  | spawn (a : Reg)
  /-- R314. Issues a launch of firing records from the A-buffer. -/
  | launchr (a : Reg) (b : Reg) (m : BitVec 4)
  /-- R327. Adds a signed amount to a token counter. -/
  | tcadd (a : Reg) (m : BitVec 4)
  /-- R327. Reads a token counter. -/
  | tcrd (d : Reg) (m : BitVec 4)
  /-- R328. Waits until a counter reaches n and subtracts n. -/
  | tcwait (a : Reg) (m : BitVec 4)
  /-- R332. Arrives at a barrier of a scope, optionally with release and acquire. -/
  | bar (a : Reg) (b : Reg) (m : BitVec 4)
  /-- R334. Reads barrier instance and arrival counts. -/
  | barrd (d : Reg) (a : Reg)
  /-- R339. Queries wafer time from the reticle controller. -/
  | timeq (d : Reg) (m : BitVec 4)
  /-- R340. Writes a round stamp. -/
  | stamp (d : Reg)
  /-- R315. Sets the firing's priority. -/
  | prio (a : Reg)
  /-- R317. Queues a configuration image load on an edge block. -/
  | ecfg (a : Reg) (b : Reg) (m : BitVec 4)
  /-- R317. Queues the start of an edge period. -/
  | ego (a : Reg) (b : Reg)
  /-- R317. Reads an edge block's status word. -/
  | estat (d : Reg) (a : Reg) (m : BitVec 4)
  /-- R317. Aborts an edge block's queue and returns it to idle. -/
  | eabort (a : Reg) (m : BitVec 4)
  /-- R355. Takes a trap with a code after its bundle issues. -/
  | trap (imm : BitVec 12)
  /-- R356. Returns from firmware to TRAPPC or ends the firing. -/
  | tret (m : BitVec 4)
  /-- R83. Reads a control register. -/
  | ctlrd (d : Reg) (imm : BitVec 12)
  /-- R84. Writes a control register under access rules. -/
  | ctlwr (a : Reg) (imm : BitVec 12)
  /-- R355. Traps, or halts for the debugger when DBGEN is set. -/
  | brk (m : BitVec 4)
  /-- R358. Writes an event record to the region or PF queue. -/
  | evpost (a : Reg) (b : Reg) (m : BitVec 4)
  /-- R344. Sends a configuration word to a capture unit. -/
  | moncfg (a : Reg) (b : Reg)
  /-- R346. Reads a capture-unit item. -/
  | monrd (d : Reg) (a : Reg) (m : BitVec 4)
  /-- R359. Firmware halts the core and sends a report. -/
  | haltc (a : Reg)
  /-- R367. Writes the core's context image and performs a wafer release. -/
  | ctxsv (a : Reg)
  /-- R368. Checks and restores a context image. -/
  | ctxld (d : Reg) (a : Reg)
  /-- R384. Merges matching CXP chunks exactly. -/
  | xadd (a : BitVec 5) (b : BitVec 5) (d : BitVec 5) (t : LitTag)
  /-- R384. Rounds CXP chunks once to a float format. -/
  | xrnd (a : BitVec 5) (d : BitVec 5) (t : BitVec 4) (l : BitVec 2)
  /-- R384. Converts stream elements. -/
  | cvt (a : BitVec 5) (d : BitVec 5) (t : BitVec 4) (l : BitVec 2)
  /-- R384. Quantises stream values into MX blocks. -/
  | qmx (a : BitVec 5) (d : BitVec 5) (t : BitVec 4) (l : BitVec 2)
  /-- R384. Dequantises MX blocks to FP32. -/
  | dqmx (a : BitVec 5) (d : BitVec 5) (t : LitTag)
  /-- R384. Compresses zero bytes. -/
  | cmpz (a : BitVec 5) (d : BitVec 5) (t : LitTag)
  /-- R384. Restores zero-compressed bytes. -/
  | dcmpz (a : BitVec 5) (d : BitVec 5) (t : LitTag)
  /-- R385. Merges two inputs round-robin, or by tag in deterministic mode. -/
  | mrr (a : BitVec 5) (b : BitVec 5) (d : BitVec 5) (t : LitTag)
  /-- R385. Merges two inputs in generation order. -/
  | mtag (a : BitVec 5) (b : BitVec 5) (d : BitVec 5) (t : LitTag)
  /-- R385. Splits a stream in alternate runs. -/
  | splitE (a : BitVec 5) (d : BitVec 5) (e : BitVec 5) (t : BitVec 4) (l : BitVec 2)
  /-- R385. Duplicates every token. -/
  | dup (a : BitVec 5) (d : BitVec 5) (e : BitVec 5) (t : LitTag)
  /-- R385. Passes tokens of A when B's bit 0 is set. -/
  | gate (a : BitVec 5) (b : BitVec 5) (d : BitVec 5) (t : LitTag)
  /-- R385. Steers tokens by a GEN bit. -/
  | steer (a : BitVec 5) (d : BitVec 5) (e : BitVec 5) (t : BitVec 4) (l : BitVec 2)
  /-- R385. Counts data tokens per stream. -/
  | cnt (a : BitVec 5) (d : BitVec 5) (e : BitVec 5) (t : LitTag)
  /-- R385. Passes a limited number of tokens per stream. -/
  | lim (a : BitVec 5) (d : BitVec 5) (t : BitVec 4) (l : BitVec 2)
  /-- R385. Buffers tokens in order. -/
  | fifo (a : BitVec 5) (d : BitVec 5) (t : BitVec 4) (l : BitVec 2)
  /-- R385. Packs halves of paired tokens. -/
  | pack (a : BitVec 5) (b : BitVec 5) (d : BitVec 5) (t : LitTag)
  /-- R385. Splits token halves to two outputs. -/
  | unpk (a : BitVec 5) (d : BitVec 5) (e : BitVec 5) (t : LitTag)
  /-- R384. Scales elements or MX scales by a power of two. -/
  | scl (a : BitVec 5) (d : BitVec 5) (t : BitVec 4) (l : BitVec 2)
  /-- R384. Passes data and emits an exponent histogram at EOS. -/
  | hist (a : BitVec 5) (d : BitVec 5) (e : BitVec 5) (t : LitTag)
  /-- R385. Inserts EOS after every fixed number of tokens. -/
  | eosg (a : BitVec 5) (d : BitVec 5) (t : BitVec 4) (l : BitVec 2)
  /-- R385. Consumes tokens, counts EOS toward its quota and reports. -/
  | sink (a : BitVec 5) (l : BitVec 2)
  /-- R386. Emits tiles delivered to a subscribe binding as streams. -/
  | srcn (a : BitVec 5) (d : BitVec 5) (t : LitTag)
  /-- R395. Publishes or contributes each stream as one tile. -/
  | pubn (a : BitVec 5) (d : BitVec 5) (e : BitVec 5) (t : LitTag)
  /-- R386. Takes tokens received on a link stream. -/
  | rin (a : BitVec 5) (d : BitVec 5) (t : LitTag)
  /-- R400. Sends tokens on a link stream. -/
  | rout (a : BitVec 5) (d : BitVec 5) (t : LitTag)
  /-- R385. Moves a token unchanged. -/
  | edgeNop (a : BitVec 5) (d : BitVec 5) (t : LitTag)
  /-- R385. Writes a debug record and stops the element for the period. -/
  | halte (a : BitVec 5)
  /-- R156. Queues an exchange of the front and shadow planes. -/
  | mswap
  /-- R192. Empties the fetch buffer and orders fetch after earlier ICINVs. -/
  | fetchb
  /-- R310. Ends the firing, which retires once outstanding work completes. -/
  | fend
  /-- R311. Offers the core to an earlier-ranked ready firing. -/
  | yield
  /-- R150. A queued matrix command starts once its engine is free and earlier conflicting commands completed. Input: j. -/
  | matrixCmdStart
  /-- R164. A matrix command completes, its effects, flags and histogram counts become visible and held tiles are released. Input: j. -/
  | matrixCmdComplete
  /-- R183. A QLD or QST request is performed at the target task's A-buffer and answered. Input: j. -/
  | remoteQaccess
  /-- R191. The invalidation takes effect once earlier CLWBs have completed. Input: j. -/
  | icinvTakeEffect
  /-- R189. An instruction-store miss fill arrives from the hem agent. Input: line. -/
  | icacheFill
  /-- R194. A G-cache fill response arrives and fills invalid bytes. Input: j. -/
  | gcacheFill
  /-- R235. A promotion request at the target core writes back logged lines up to its sequence, reads the flag and answers. Input: j. -/
  | promotionRequest
  /-- R214. A fence's earlier accesses are performed and its token is incremented. Input: j. -/
  | fenceComplete
  /-- R221. An engine command starts after earlier accesses of its class are performed. Input: j. -/
  | engineCmdStart
  /-- R221. An engine command completes, its tile returns to READY and its token is incremented. Input: j. -/
  | engineCmdComplete
  /-- R206. A global access arrives at its hem agent and is translated, checked and performed in arrival order. Input: j. -/
  | agentRequest
  /-- R435. A host request times out after 50 ms and counts as poisoned for that access. Input: j. -/
  | hostRequestTimeout
  /-- R54. A variable-latency result or completion response arrives, lands and increments its token counter. Input: j. -/
  | varResultLand
  /-- R53. A fixed-latency result is written at the end of its latency tick. Input: j. -/
  | resultWrite
  /-- R208. A deferred fault is raised at the core's next bundle boundary. -/
  | boundaryFault
  /-- R276. The router finishes reading a published tile, accepts it and returns the tile to READY. Input: j. -/
  | publicationRead
  /-- R260. A subscription token passes a router, incrementing or allocating a match entry. Input: j. -/
  | subscriptionToken
  /-- R260. An unsubscription token decrements match counts along its path. Input: j. -/
  | unsubscriptionToken
  /-- R261. A publication passes a router and is copied to matching ports. Input: j. -/
  | publicationHop
  /-- R267. The home serves waiters and direct subscribers and stores a held tile. Input: j. -/
  | publicationAtHome
  /-- R268. A standing or one-shot subscription at its home is served, falls through or waits. Input: j. -/
  | subscriptionAtHome
  /-- R275. An UNSUB withdrawal arrives at the home and removes the wait-list entry. Input: j. -/
  | withdrawalAtHome
  /-- R279. A hold arrives at the home and sets the entry held. Input: j. -/
  | nholdAtHome
  /-- R279. A release arrives at the home and makes the entry aired. Input: j. -/
  | nrelAtHome
  /-- R280. A query is answered from the home's entry. Input: j. -/
  | nqryAtHome
  /-- R262. A token held at the home for lack of room is retried every 1,024 net cycles. Input: j. -/
  | heldTokenRetry
  /-- R271. A fetch for a backed name reaches a hem agent, which reads and publishes the tile or sends fault notices. Input: j. -/
  | fallThroughFetch
  /-- R264. A delivery reaches a subscriber core and is accepted into a tile, discarded or held. Input: j. -/
  | tileDelivery
  /-- R256. Firmware moves a home or task binding by hand-over and redirects requests. Input: region, home, index, dest, slot. -/
  | handOver
  /-- R286. A contribution token at a router merges into a slot, loads a free slot or passes on. Input: j. -/
  | contributionToken
  /-- R287. A reduction slot's timer expires or a flush event occurs and the merged chunk is sent on. Input: router, slot. -/
  | slotFlush
  /-- R290. A contribution merges into the home's reduction entry. Input: j. -/
  | contributionAtHome
  /-- R290. An ROPEN token declares or opens the reduction entry. Input: j. -/
  | ropenAtHome
  /-- R291. A completed reduction is rounded or encoded and published under its result name. Input: router, j. -/
  | reductionPublish
  /-- R296. The host writes a launch queue doorbell, or overflow sets OVF. Input: q, value. -/
  | lqtailDoorbell
  /-- R299. A LAUNCH record is checked and loaded into a region. Input: q, placement, pages. -/
  | launch
  /-- R303. An ABORT record ends the queue's live region. Input: q. -/
  | abort
  /-- R301. Sinks complete and cores are quiet, so the completion word is stored and the region freed. Input: region. -/
  | regionComplete
  /-- R307. A free core selects and starts the next ready firing. -/
  | schedulerSelect
  /-- R310. The firing retires, freeing scoped tiles and returning delivery tiles. -/
  | firingRetire
  /-- R314. The LAUNCHR command validates and reserves records, then commits or faults. Input: j. -/
  | launchrRun
  /-- R391. The block reads a configuration image into its shadow plane and, with its last line, checks it. Input: port, lines or none
  for all. -/
  | ecfgImageRead
  /-- R398. The shadow plane commits at quiescence. Input: port. -/
  | shadowCommit
  /-- R317. An ESTAT command arrives ahead of the queue and is answered. Input: j. -/
  | estatArrival
  /-- R317. An EABORT arrives, discards commands and tokens and idles the block. Input: j. -/
  | eabortArrival
  /-- R392. An EGO at the head of the queue starts a period. Input: port. -/
  | periodStart
  /-- R394. The sequencer arms subscribe bindings for a point. Input: port. -/
  | bindingArm
  /-- R380. A token arrives at an element queue and arms its handler. Input: port, j. -/
  | elementTokenArrival
  /-- R396. After draining, the block publishes its completion tile and raises period faults. Input: port. -/
  | periodEnd
  /-- R397. No handler or interface moves for DWD x 1,024 net cycles and the block drains. Input: port. -/
  | inactivityTimeout
  /-- R399. The drain watchdog expires and held tokens are discarded. Input: port. -/
  | drainWatchdog
  /-- R447. A link beat fails its CRC and is resent, the port going down after 16 failures. Input: port, failures, tokens in flight to this block. -/
  | linkBeatResend
  /-- R448. A PODCFG write with EN makes ports exchange identities and form the pod. Input: port, farWafer, farPort, farSize, farEn. -/
  | podFormation
  /-- R322. A seam fails at run time, is marked down and its queued flits discarded. Input: reticle, dir. -/
  | seamFailure
  /-- R86. A NETW write reaches the leader controller and is applied to every router. Input: region. -/
  | netwUpdate
  /-- R331. An arrival reaches a barrier node and may complete an instance. Input: j. -/
  | barrierArrival
  /-- R333. A completion notice updates ROUND and INST and increments member tokens. Input: j. -/
  | barrierCompletion
  /-- R338. The leader's beacon slews a controller's wafer-time copy. Input: reticle, time. -/
  | waferTimeBeacon
  /-- R344. The controller applies a capture-unit configuration on arrival. Input: j. -/
  | moncfgApply
  /-- R343. A source offers a sample that a capture unit records or drops. Input: reticle, unit, region, value, src, sel. -/
  | captureSample
  /-- R344. A level source's period expires and a sample is taken. Input: reticle, unit. -/
  | levelSample
  /-- R342. Firmware writes a unit's grant, clearing and disabling it. Input: reticle, unit, value. -/
  | captureGrantWrite
  /-- R360. A frozen or hogging firing reaches the watchdog limit and takes WATCHDOG. -/
  | watchdog
  /-- R438. PREEMPT CMD HALT starts pre-emption of the page's region. Input: q. -/
  | preemptHalt
  /-- R438. PREEMPT CMD RESUME restores and resumes a saved region. Input: q. -/
  | preemptResume
  /-- R361. The halt reaches a core, which stops at its next bundle boundary. -/
  | coreHalt
  /-- R364. After outstanding work lands, the controller saves the core and marks its tasks saved. -/
  | saveSequence
  /-- R369. A parked entry is written at its REM-th resumed tick. Input: j. -/
  | landingEntryLand
  /-- R371. A failed core is fenced, its tasks lost, its darn log poisoned and records written. Input: logReadable, cacheReadable. -/
  | coreFailure
  /-- R468. Firmware halts one core, saves it and restores it onto a free core by hand-over. Input: dest. -/
  | coreSave
  /-- R441. The bridge writes a staged record to the host ring, updates EQTAIL and signals. Input: q. -/
  | eventRecordWrite
  /-- R441. The host writes EQHEAD, consuming records and freeing ring space. Input: q, value. -/
  | eqheadWrite
  /-- R444. Selects a debug item and clears ERR. Input: value. -/
  | dbgselWrite
  /-- R444. Halts the selected core as HALTC does. -/
  | dbgctlHalt
  /-- R444. Restarts a debug-halted core. -/
  | dbgctlResume
  /-- R446. Reads the selected item through the aperture. Input: off. -/
  | debugApertureRead
  /-- R446. Writes the selected item, or discards the write and sets ERR. Input: off, value. -/
  | debugApertureWrite
  /-- R464. A router debug write is performed at the router's next idle net cycle. -/
  | debugWritePerform
  /-- R464. No idle cycle within 1,024 net cycles, so the write is discarded with ERR. -/
  | debugWriteTimeout
  /-- R427. Returns every reticle to SELF and increments the boot epoch. -/
  | bootctlRestart
  /-- R427. Sets or clears the boot descriptor valid bit. Input: valid. -/
  | bootctlValid
  /-- R437. The first valid write sets wafer time. Input: value. -/
  | wtsetWrite
  /-- R437. Starts an attestation report over the nonce. -/
  | attctlGo
  /-- R431. The leader finishes signing a report, or discards it on RESTART. -/
  | attestationReport
  /-- R10. A host write to a register with no row of its own sets or clears fields by its access code. Input: vf, off, value. -/
  | registerWrite
  /-- R403. A reticle's regulator reaches power-good and its controller and quads start. Input: reticle. -/
  | powerGood
  /-- R405. SELF BIST of the controller completes or darkens the reticle. Input: reticle, ok. -/
  | romSelfTest
  /-- R406. CORES BIST completes and yields the defect map. Input: reticle, planeOk, defects. -/
  | romCoreTest
  /-- R405. A ROM phase overruns its bound. Input: reticle. -/
  | phaseOverrun
  /-- R407. A seam trains, tests and settles its state by handshake. Input: reticle, dir, ok. -/
  | seamTraining
  /-- R407. A seam not trained 100 ms after power-good goes down. Input: reticle. -/
  | seamTrainTimeout
  /-- R409. A round message arrives and the reticle may advance its election round. Input: reticle, dir. -/
  | electRoundMessage
  /-- R410. A candidate's claim arrives at the bridge. Input: reticle. -/
  | claim
  /-- R410. The 1 ms claim window expires and the bridge grants the winner. -/
  | claimWindowClose
  /-- R411. A LEAD message arrives, setting the parent and forwarding once. Input: reticle, dir. -/
  | lead
  /-- R411. No LEAD within 10 ms, so the reticle fences itself. Input: reticle. -/
  | leadTimeout
  /-- R412. No claim within 500 ms, so the bridge reports NOLEADER. -/
  | noleader
  /-- R415. The leader polls the boot descriptor every 1 ms. -/
  | bootDescriptorPoll
  /-- R415. The leader's image fetch completes and is verified, retried or fails. Input: ok. -/
  | firmwareFetch
  /-- R416. A follower receives and verifies the image copy. Input: reticle, intact. -/
  | firmwareReceive
  /-- R416. A follower silent for 20 ms counts as a failed attempt. Input: reticle. -/
  | followerReportTimeout
  /-- R417. The leader fixes the grid, patch map, routes and topology record and releases cores. Input: diesOk, stacksOk, fwRoot, trapvec, wdlim, dbgen. -/
  | enumeration
  /-- R427. Enumeration overruns 50 ms and ERR is set to ENUMFAIL. -/
  | enumTimeout
  /-- R449. Coolant outlet reaches 65 C and power is removed from every reticle. -/
  | coolantOvertemp
  /-- R373. After CORE_LOST the runtime re-binds the lost tasks through the patch map and restarts the region from its last checkpoint. Input: region, placement, checkpoint. -/
  | checkpointRestart
  /-- R203. Firmware invalidates affected translation-cache entries at all 16 hem agents, after which a page-table change takes effect. Input: region, va. -/
  | translationCacheInvalidate
  /-- R400. A token sent by ROUT on a far wafer arrives on a link stream of this port, and its acknowledgement returns a credit to the sender. Input: port, stream, token. -/
  | linkTokenArrival
  /-- R408. A bridge-attached reticle's host-bridge attachment trains or fails, setting the CAND bit of its ballot. Input: reticle, ok. -/
  | bridgeAttachmentTraining
deriving DecidableEq, Repr

end Sys2Proof
end

