-- ==== Sys2Proof/Machine/State.lean ====
section
/-! DEFINITION. The state of the machine as plain data (01 R15, R27, R29, R30; each field cites the rule that names it),
the reasons a step can stop, and the state after reset. -/

namespace Sys2Proof.Machine

/-- A table by number: keys strictly rising, absent keys at the reader's default. -/
abbrev Map (α : Type) := List (Nat × α)

/-- Bytes by address; an unlisted byte is zero, and no listed byte is. -/
abbrev Memory := List Host.Cell

/-- A program-counter or global address (08 R197). -/
abbrev Addr := BitVec 56

/-- Why a step stops with a fault. -/
inductive Fault where
  /-- An event's input names an item outside the machine: a port beyond 31, a reticle beyond 47, a queue beyond its
  number. Raised by the events of the controllers, ports and bridge; safe, since no such item exists. -/
  | noSuchItem
deriving DecidableEq, Repr

/-- Why a step is refused. -/
inductive Refusal where
  /-- An instruction of the table without a meaning yet, by mnemonic: safe. -/
  | notModelled (mnemonic : String)
deriving DecidableEq, Repr

/-- Trap causes (14 R348). -/
inductive Cause where
  | illegalBundle | illegalOp | slotGroup | branchTarget | unitBusy | writeCollision | formatMismatch | tileState
  | localBounds | misaligned | globalXlate | globalPerm | poison | nameSpace | mangleCount | privilege | brk | trap
  | watchdog | fabricLength | fabricDrain | launchRecord | taskLost | windowOwner
deriving DecidableEq, Repr

/-- A vector register (05 R113). -/
structure VReg where
  tag : BitVec 4 := 0#4
  scale : BitVec 64 := 0#64
  data : VData := 0#2048
deriving DecidableEq, Repr

/-- The registers private to a firing (01 R27, 03 R64): what a yield frame keeps (12 R311). -/
structure Regs where
  s : Vector W64 32 := Vector.replicate 32 0#64
  k : Vector W64 8 := Vector.replicate 8 0#64
  n : Vector Name 16 := Vector.replicate 16 0#96
  v : Vector VReg 32 := Vector.replicate 32 {}
  /-- token counters, entry 0 unused (13 R326) -/
  tc : Vector (BitVec 16) 16 := Vector.replicate 16 0#16
  lpcnt : W64 := 0#64
  lpbeg : Addr := 0#56
  lpexit : Addr := 0#56
  fireid : W64 := 0#64
  prio : BitVec 3 := 0#3
  fpmode : BitVec 3 := 0#3
  fpstat : Flags := 0#5
  /-- the firing has issued SPAWN or LAUNCHR (01 R26) -/
  created : Bool := false
  /-- address of the bundle about to issue (03 R75) -/
  pc : Addr := 0#56
deriving DecidableEq, Repr

/-- A register write of an issued instruction, value included. -/
inductive Put where
  | none
  | s (r : Reg) (x : W64)
  | k (r : KReg) (x : W64)
  | n (r : NReg) (x : Name)
  | v (r : Reg) (x : VReg)
  /-- a pair d, d + 1 (05 R134) -/
  | vv (r : Reg) (x y : VReg)
  /-- a control register (03 R85) -/
  | ctl (num : BitVec 12) (x : W64)
  /-- PRIO (12 R315) -/
  | prio (x : BitVec 3)
  /-- LPBEG, LPEXIT and LPCNT, by LOOP and LOOPI (03 R76) -/
  | loop (beg exit : Addr) (cnt : W64)
deriving DecidableEq, Repr

/-- A result in flight or parked in the landing queue (02 R53, 14 R362, R363). -/
structure Pending where
  /-- ticks still to run; the write is made at the end of the last -/
  rem : Nat
  put : Put
  flags : Flags := 0#5
  /-- EXPHIST increments by bin, empty or 32 long -/
  hist : List Nat := []
  /-- a variable-latency result, parked in firmware mode (14 R350) or put off by a cycle (02 R54) -/
  var : Bool := false
  /-- firmware's own result, parked when the core stopped in firmware mode (14 R359, R362; log 12) -/
  own : Bool := false
  /-- token counter incremented on landing, 0 none -/
  tcn : BitVec 4 := 0#4
deriving DecidableEq, Repr

/-- A deferred fault that waits for a bundle boundary (08 R208, 14 R352). -/
structure Deferred where
  cause : Cause
  val : W64
deriving DecidableEq, Repr

/-- States of a tile slot (07 R171). -/
inductive TState where
  | empty | filling | ready | draining
deriving DecidableEq, Repr

/-- A published tile: bytes little-endian in a number. -/
structure Parcel where
  name : Name
  tag : BitVec 4
  size : Nat
  data : Nat
deriving DecidableEq, Repr

/-- What fills a tile that is FILLING and not program-opened. -/
inductive Filler where
  | none
  /-- a matrix drain, an engine command, or the command with this serial -/
  | cmd (ser : Nat)
  /-- a subscription's delivery: awaited, or accepted and being written line by line (10 R264, R274), with the net cycle in which the
  publication was accepted (13 R345) -/
  | delivery (got : Option (Parcel × Option Nat))
deriving DecidableEq, Repr

/-- A tile slot (07 R171): the tile word's fields, the fill bitmap, the bound name. -/
structure Tile where
  holds : BitVec 5 := 0#5
  owner : BitVec 4 := 0#4
  fsc : Bool := false
  nb : Bool := false
  tag : BitVec 4 := 0#4
  buf : BitVec 2 := 0#2
  state : TState := .empty
  pf : Bool := false
  sizem1 : BitVec 16 := 0#16
  line : BitVec 14 := 0#14
  fill : BitVec 1024 := 0#1024
  name : Name := 0#96
  filler : Filler := .none
  /-- freed when it next reaches READY (07 R173) -/
  dying : Bool := false
  /-- a standing delivery was larger than the tile (10 R266) -/
  ovr : Bool := false
  /-- an UNSUB waits for the delivery to end (10 R275) -/
  unbind : Bool := false
  /-- a delivery tile whose firing has retired: it fills again once the matrix commands that hold it have finished (06 R151, 10
  R266) -/
  rearm : Bool := false
deriving DecidableEq, Repr

/-- A TWAIT watch (07 R187). -/
structure Watch where
  tile : Nat
  thr : W64
  tc : BitVec 4
  /-- set in this cycle: it fires one cycle after issue at the earliest -/
  new : Bool := true
  /-- its condition has held -/
  hit : Bool := false
  /-- set by firmware: its counter is in the bank (14 R350) -/
  fw : Bool := false
deriving DecidableEq, Repr

/-- A yield frame (12 R311). -/
structure Frame where
  regs : Regs := {}
  watches : List Watch := []
  faults : List Deferred := []
  /-- its next fetch waits for its ICINVs (07 R192) -/
  fetchb : Bool := false
deriving DecidableEq, Repr

/-- Kinds of ready-queue entries (12 R305). -/
inductive ReadyKind where
  | subscription | spawn | record | yielded
deriving DecidableEq, Repr

/-- A ready-queue entry (12 R305). -/
structure Ready where
  kind : ReadyKind
  slot : BitVec 4
  prio : BitVec 3
  wait : Nat := 0
  rdyseq : BitVec 32
  nleft : BitVec 24 := 1#24
  rows : BitVec 6 := 0#6
  yfr : BitVec 2 := 0#2
  nfr : BitVec 6 := 0#6
  param : W64 := 0#64
  fid : W64
  /-- names that satisfied subscriptions 1 to 8 (01 R27) -/
  names : List Name := []
  /-- faults its firing takes at its first bundle (10 R266, R271) -/
  faults : List Deferred := []
deriving DecidableEq, Repr

/-- A line of the G-cache (07 R193): data, byte-valid and byte-dirty masks, the page's W bit once known (08 R207). -/
structure GLine where
  data : BitVec 512 := 0#512
  valid : BitVec 64 := 0#64
  dirty : BitVec 64 := 0#64
  w : Option Bool := none
deriving DecidableEq, Repr

/-- A darn-log entry (09 R232); the line by its address over 64. -/
structure DarnEntry where
  seq : W64
  line : Nat
deriving DecidableEq, Repr

/-- A stationary plane (06 R143): FMT, 64 column scales, elements by 64k + n; unlisted ones are zero. -/
structure Plane where
  fmt : BitVec 4 := 0#4
  scale : Map (BitVec 8) := []
  elem : Map (BitVec 16) := []
deriving DecidableEq, Repr

/-- A queued group 0x8 command with what it read at issue (06 R150). -/
inductive MatCmd where
  | mlds (tile : Nat) (wfmt : BitVec 4)
  | mswap
  | mma (w : WReg) (tile : Nat) (rows : W64) (sparse : Bool)
  | mzero (w : WReg) (rows : W64)
  | mdrain (tile : Nat) (w : WReg) (hist zero : Bool) (rows : W64) (fmt : BitVec 4)
  | mwrv (w : WReg) (row : Nat) (lanes : W64) (fmt : BitVec 4) (v : VReg)
  | mmode (x : BitVec 10)
  | mwait (tc : BitVec 4)
  | mtrw (w : WReg) (fmt : BitVec 4)
deriving DecidableEq, Repr

/-- A matrix command in the queue: its issuer, whether it runs, and the serial by which a tile knows it. -/
structure MatEntry where
  ser : Nat
  fid : W64
  cmd : MatCmd
  started : Bool := false
  fw : Bool := false
  /-- source lines read ahead of completion, by line of the tile (06 R151) -/
  snap : Map (BitVec 512) := []
deriving DecidableEq, Repr

/-- Where a response lands. -/
inductive Dest where
  | none
  | s (r : Reg)
  | v (r : Reg)
deriving DecidableEq, Repr

/-- Kinds of outstanding operations of a core, with what they carry beyond the common fields. -/
inductive OpKind where
  /-- GLD by size code, VGLD as 4; `wafer` as R211 -/
  | gload (size : Nat) (wafer : Bool)
  /-- GST and VGST of n bytes sent to the agent -/
  | gstore (n : Nat)
  /-- a core-scope store of n bytes, with the claims of its lines -/
  | claim (lines : List Nat) (n : Nat)
  /-- LDACQ by size code -/
  | ldacq (size : Nat)
  /-- STREL of n bytes -/
  | strel (n : Nat)
  | promacq (size : Nat) (task : Nat)
  /-- FENCE with a token; kind 0 covers all classes -/
  | fence (all : Bool)
  | atom (op : Nat) (x y : W64)
  /-- MRED by modifier; the lanes' FP32 codes -/
  | mred (op : Nat) (lanes : List Nat)
  | mredrd (fmt : Nat) (clr : Bool)
  /-- CLWB of a line or all -/
  | clwb (line : Option Nat)
  /-- CLINV of a line or all -/
  | clinv (line : Option Nat)
  /-- XCOPY, XGATH, XSCAT, XFILL by minor opcode: tile slot, offset, global address, descriptor, fill value -/
  | engine (minor : Nat) (tile off : Nat) (ga desc fillv : W64)
  /-- QLD and QST: vector form, release or acquire form, target task and address -/
  | qld (vec ra : Bool) (task adr : Nat)
  | qst (vec ra : Bool) (task adr : Nat)
  | icinv (line : Option Nat)
  /-- PUB, PUBR, PUBX of a tile slot (10 R276 to R278), NQRY (10 R280) -/
  | pub (name : Name) (tile : Nat) (rel : Bool)
  | pubr (name : Name) (tile : Nat)
  | pubx (name : Name) (tile : Nat) (off : Nat) (desc : W64)
  | nqry (name : Name)
  | launchr (ra nr : W64)
  /-- BAR: scope, acquire and release, the instance arrived at -/
  | bar (scope : Nat) (ra : Bool) (inst : BitVec 32)
  /-- TIMEQ with CYCLE at issue -/
  | timeq (issued : W64)
  | ecfg (block : Nat) (va : W64)
  | ego (block : Nat) (par : BitVec 32)
  | estat (block : Nat)
  | eabort (block : Nat)
  | moncfg (unit : Nat) (cfg : W64)
  | monrd (unit item : Nat)
deriving DecidableEq, Repr

/-- An outstanding operation of a core (08 R209, R221, 07 R181, 10 R273, 12 R310). Operations stand in issue order. -/
structure Op where
  ser : Nat := 0
  fid : W64 := 0#64
  /-- issued in firmware mode: its counter and its s24 to s31 are the bank's (14 R357) -/
  fw : Bool := false
  kind : OpKind
  cls : Nat := 0
  scope : Nat := 1
  tc : BitVec 4 := 0#4
  dest : Dest := .none
  /-- the address register's value -/
  va : W64 := 0#64
  /-- operand bits, or bytes the core supplied at issue -/
  data : Nat := 0
  /-- records that phase 1 of a LAUNCHR has been through (12 R314) -/
  next : Nat := 0
  /-- CYCLE at issue (13 R345) -/
  born : W64 := 0#64
  /-- how many parts (lines, cells, rows) the access has and which of them have been performed -/
  parts : Nat := 1
  done : List Nat := []
  /-- lowest failing address and its cause (08 R208) -/
  bad : Option (Nat × Cause) := none
  /-- result bits received -/
  got : Nat := 0
  flags : Flags := 0#5
  started : Bool := false
  /-- the response has left the place that performed the access -/
  resp : Bool := false
  /-- what it does at the core's G-cache or darn log waits for earlier accesses (09 R226, R228) -/
  wait : Bool := false
  /-- lines that an engine command has read, none for an unreadable one: of its index list by number, of its global side from 2^16 on
  (08 R221, R222); record lines that a LAUNCHR has read (12 R314) -/
  snap : Map (Option (BitVec 512)) := []
deriving DecidableEq, Repr

/-- How a core stands towards its controller (14 R351, R359, R361, R371). -/
inductive Halt where
  /-- held at reset, until its controller releases it -/
  | reset
  | no
  /-- stopped at a boundary by a pre-emption halt; `saved` once its image is written -/
  | region (saved : Bool)
  /-- stopped by HALTC or, `dbg`, by BREAK or the debugger, with the report -/
  | report (x : W64) (dbg : Bool)
  | failed
deriving DecidableEq, Repr

/-- What an issued bundle-ending instruction still has to finish (12 R310, R311, 14 R356). -/
inductive Ending where
  | none
  | fend
  | yield
  /-- tret.end -/
  | trapEnd
deriving DecidableEq, Repr

/-- A task slot (01 R22, 14 R365, 10 R264, 13 R330). Subscription patterns as bound at load. -/
structure Pattern where
  tensor : BitVec 20
  /-- coordinates; none is free -/
  coord : List (Option (BitVec 10))
  /-- generation of a fixed pattern; none follows the task's generation -/
  gen : Option (BitVec 24)
  buf : BitVec 2
  /-- first tile slot and depth of the delivery tiles -/
  tile : Nat
  depth : Nat
deriving DecidableEq, Repr

structure TaskSlot where
  /-- task identifier; 0xFFFF unbound -/
  task : BitVec 16 := 0xFFFF#16
  kernel : Addr := 0#56
  prio : BitVec 3 := 0#3
  fpmode : BitVec 3 := 0#3
  nextg : BitVec 24 := 0#24
  /-- barrier arrivals per scope .ln to .pd (13 R330) -/
  arr : Vector (BitVec 32) 6 := Vector.replicate 6 0#32
  /-- completed instances per scope (13 R333) -/
  inst : Vector (BitVec 32) 6 := Vector.replicate 6 0#32
  subs : List Pattern := []
  /-- faults that the first bundle of the task's next firing takes (10 R271, R274, 14 R370) -/
  due : List Deferred := []
deriving DecidableEq, Repr

/-- A BAR arrival that waits for its instance (13 R332). -/
structure Arrival where
  fid : W64
  scope : Nat
  inst : BitVec 32
  tc : BitVec 4
  ra : Bool
  /-- made in this cycle: at .ln it completes one cycle later (13 R330) -/
  new : Bool := false
  /-- serial of the BAR among the core's operations: accesses issued after it follow its acquire (09 R245) -/
  ser : Nat := 0
  /-- CYCLE at the arrival (13 R345) -/
  born : W64 := 0#64
deriving DecidableEq, Repr

/-- A created-pool entry that a LAUNCHR has reserved (12 R314): the issuing core, the command's serial, the entry. -/
structure Resv where
  core : Nat
  ser : Nat
  entry : Ready
deriving DecidableEq, Repr

/-- A fetched bundle in the fetch buffer (07 R189): its address and words. -/
structure Fetched where
  pc : Addr
  words : List Word
deriving DecidableEq, Repr

/-- One core (01 R15): firing-private, control, memories and tables. -/
structure Core where
  regs : Regs := {}
  /-- a firing runs (01 R30), and in which task slot -/
  running : Bool := false
  slot : BitVec 4 := 0#4
  /-- a taken branch whose target has not been checked: the branching bundle (02 R48, R51) -/
  branch : Option Addr := none
  /-- STALL ticks owed, and ticks until the divider frees (14 R349) -/
  stallrem : Nat := 0
  divrem : Nat := 0
  /-- cycles the issue clock stays frozen after a bundle (07 R180) -/
  frozen : Nat := 0
  pend : List Pending := []
  /-- token counter changes of the running cycle (13 R326) -/
  tcd : List (Nat × Int) := []
  ending : Ending := .none
  fbuf : List Fetched := []
  /-- fetch waits for the firing's ICINVs (07 R192) -/
  fetchb : Bool := false
  /-- firmware mode and its bank (14 R350); the firing's STALLREM and DIVREM while in firmware mode -/
  fwm : Bool := true
  bankS : Vector W64 8 := Vector.replicate 8 0#64
  bankTc : Vector (BitVec 16) 16 := Vector.replicate 16 0#16
  savedStall : Nat := 0
  savedDiv : Nat := 0
  /-- a branch whose target had not been checked when the trap was taken, and its target (02 R48); a FETCHB's wait (07 R192) -/
  savedBranch : Option (Addr × Addr) := none
  savedFetchb : Bool := false
  /-- the landing queue (14 R363) -/
  lq : List Pending := []
  /-- responses held at the core's router while the landing queue is full (14 R350) -/
  heldVar : List Pending := []
  /-- pending boundary faults (14 R352): the first 16 wait, further ones are held at the router until one is taken -/
  faults : List Deferred := []
  hreq : Bool := false
  halt : Halt := .reset
  /-- a core save has asked for the halt: a restore of its own follows (21 R468) -/
  moving : Bool := false
  trapcause : BitVec 6 := 0#6
  trappc : Addr := 0#56
  trapval : W64 := 0#64
  trapvec : Addr := 0#56
  wdlim : BitVec 32 := 0#32
  dbgen : BitVec 1 := 0#1
  stagger : BitVec 6 := 0#6
  /-- watchdog counts (14 R360) -/
  wdFrozen : Nat := 0
  wdHeld : Nat := 0
  /-- cause of the present freeze (14 R360) -/
  wdWhy : Nat := 0
  cycle : W64 := 0#64
  /-- launch values (03 R81, R82): REGION, NCORE, REGW, REGH, DETMODE, the router's copy of NETW -/
  region : BitVec 32 := 0#32
  ncore : BitVec 32 := 0#32
  regw : BitVec 16 := 0#16
  regh : BitVec 16 := 0#16
  detmode : Bool := false
  netw : BitVec 32 := 0#32
  round : BitVec 32 := 0#32
  lrskip : BitVec 32 := 0#32
  exphist : Vector (BitVec 32) 32 := Vector.replicate 32 0#32
  /-- the cycle part of STAMP (13 R340) -/
  stampCyc : BitVec 32 := 0#32
  /-- deliveries met by a full buffer or a stale generation (13 R324) -/
  delstale : BitVec 32 := 0#32
  bufW : Memory := []
  bufA : Memory := []
  bufC : Memory := []
  /-- poisoned 8-byte words by buffer code and address over 8 (07 R170) -/
  badWord : List (Nat × Nat) := []
  tiles : Map Tile := []
  watches : List Watch := []
  /-- the host will fail a request of the core's next image access to the host window (17 R435; the model's own, log 50) -/
  imageErr : Bool := false
  istore : Map (BitVec 512) := []
  /-- instruction-store fills in progress: line, and whether the fill is kept (07 R191) -/
  ifill : List (Nat × Bool) := []
  /-- fetch faults met, by line (07 R190) -/
  ifault : List (Nat × Cause) := []
  gcache : Map GLine := []
  darn : List DarnEntry := []
  rseq : W64 := 0#64
  windows : Map WCell := []
  wf : Plane := {}
  ws : Plane := {}
  matmode : BitVec 10 := 0#10
  matq : List MatEntry := []
  /-- cycles since the compute pipe last started a product, up to 1,024, and ticks of a stagger hold served (06 R165) -/
  matIdle : Nat := 1024
  matHold : Nat := 0
  /-- owner task slots of windows 0 to 3 and of the plane pair (01 R29) -/
  owners : Vector (Option (BitVec 4)) 5 := Vector.replicate 5 none
  ops : List Op := []
  nextSer : Nat := 0
  slots : Vector TaskSlot 16 := Vector.replicate 16 {}
  ready : List Ready := []
  rdyseq : BitVec 32 := 0#32
  /-- created-pool entries that LAUNCHRs hold reserved (12 R314) -/
  resv : List Resv := []
  nframes : Map (List Name) := []
  yframes : Map Frame := []
  arrivals : List Arrival := []
  /-- token increments that came for its firings while its image stood saved (12 R317, 14 R358): firing, firmware mode, counter; the restore
  makes them (14 R369) -/
  owed : List (W64 × Bool × BitVec 4) := []
  /-- frozen cycles of the bundle that waits at a wait point (13 R345) -/
  waited : Nat := 0
  /-- cycles until the selected firing may issue (12 R307) -/
  warm : Nat := 0
deriving DecidableEq, Repr

/-- A core right after core reset (03 R81, 06 R142, 14 R351). -/
def Core.reset : Core := {}

/-- Why the slots of the current bundle went no further. -/
inductive Stop where
  /-- an issue fault was taken: cause and TRAPVAL -/
  | fault (c : Cause) (val : W64)
  /-- the bundle is held unissued, for the freeze cause of 14 R360 -/
  | held (why : Nat)
  /-- a bundle-ending instruction has closed the bundle -/
  | closed
deriving DecidableEq, Repr

/-- The latch of the bundle being issued (the model's own, log 2). -/
structure Issue where
  /-- length of the bundle in bytes -/
  len : Nat := 4
  wait : BitVec 4 := 0#4
  stall : BitVec 4 := 0#4
  slot : Nat := 0
  word : Word := 0#32
  lits : List Word := []
  /-- the checks of every slot have passed and effects are being made (02 R51) -/
  commit : Bool := false
  /-- registers and ticks claimed by earlier slots of the bundle (02 R55) -/
  claims : List Pending := []
  /-- tiles allocated by earlier slots of the bundle, for the checks of later ones (07 R184) -/
  alloc : List (Nat × Tile) := []
  /-- the tile table at the start of the tick, for TSTAT (07 R186) -/
  tiles0 : Option (Map Tile) := none
  /-- the arrival counts of the running task at the start of the tick, for BARRD (13 R334) -/
  arr0 : Option (Vector (BitVec 32) 6) := none
  /-- the core as the bundle issues: what CTXSV's image shows (14 R367) -/
  core0 : Option Core := none
  /-- registers, banks and mode that a CTXLD of the bundle has restored: they stand once the later slots, which have read theirs at
  issue, have acted (02 R47) -/
  loaded : Option Core := none
  /-- the image that a CTXSV of the bundle has saved, in State.resume -/
  savedKey : Option Nat := none
  /-- a slot of the bundle has taken the divider -/
  divClaim : Bool := false
  /-- address of the next bundle where a branch is taken -/
  redirect : Option Addr := none
  /-- 8-byte words its local accesses touch, by buffer and address over 8 (07 R180) -/
  words : List (Nat × Nat) := []
  stop : Option Stop := none
deriving DecidableEq, Repr

/-! The network (10, 11). Routers and physical cores share one number: the ROUTER code of 10 R254. -/

/-- Who asked for a one-shot: a tile slot of a task, with the issuing firing, or a point of an edge block's binding. -/
inductive Asker where
  | tile (task slot : Nat) (fid : W64)
  | block (port bind point : Nat)
deriving DecidableEq, Repr

/-- What a token carries. -/
inductive Msg where
  | sub (task num : Nat) (name mask : Name) (direct : Bool)
  /-- an unsubscription; `direct` once it has passed the router from which its subscription was direct (10 R260, R262) -/
  | unsub (task num : Nat) (name mask : Name) (direct : Bool := false)
  | oneShot (name : Name) (who : Asker) (old : Option Name)
  | withdraw (name : Name) (who : Asker)
  /-- its acknowledgement to the task's tile, which a delivery still reaches or not (10 R275) -/
  | withdrawn (name : Name) (task slot : Nat) (coming : Bool)
  | nhold (name : Name) (rnd : Bool) (value : W64)
  | nrel (name : Name)
  /-- a query and the serial of its operation -/
  | nqry (name : Name) (ser : Nat)
  | ropen (name result : Name) (count : W64) (fmt : Nat)
  | contrib (name : Name) (chunk : Nat) (bytes : Nat) (len : Nat)
  /-- a publication on its way home -/
  | pub (p : Parcel)
  /-- a copy on the tree -/
  | copy (p : Parcel)
  /-- a copy at a local port, with the standing subscriptions (task slot, number) it has still to reach once they are known -/
  | arrive (p : Parcel) (todo : Option (List (Nat × Nat)))
  /-- a tile sent to one standing subscription, or to a one-shot -/
  | give (p : Parcel) (task num : Nat)
  | giveTo (p : Parcel) (who : Asker)
  /-- a fetch of a backed name, with the lines read so far and those that failed (10 R271) -/
  | fetch (name : Name) (got : Map (BitVec 512)) (bad : List (Nat × Cause))
  /-- fault notices (10 R271) -/
  | noticeSub (task : Nat) (cause : Cause) (va : Nat)
  | noticeTo (name : Name) (who : Asker) (cause : Cause) (va : Nat)
deriving DecidableEq, Repr

/-- A token in the network. -/
structure Token where
  region : Nat
  /-- the router it is at, and the port it came by: 0 local, 1 north, 2 east, 3 south, 4 west (10 R259) -/
  loc : Nat
  port : Nat := 0
  /-- the resolved home (20 R463) -/
  dest : Option Nat := none
  /-- of an unsubscription, the homes to which its subscription went on after `dest` (10 R260), then its own (20 R463); of a RESUB, the old
  name's home -/
  path : List Nat := []
  msg : Msg
  /-- issuing core and firing -/
  src : Nat := 0
  fid : W64 := 0#64
  /-- it has left its first router (10 R273) -/
  gone : Bool := false
  /-- at its home, its work in the home's match table is done; since which net cycle (10 R281) -/
  here : Bool := false
  since : Nat := 0
  /-- net cycle in which its publication was accepted (13 R345) -/
  born : Option Nat := none
  /-- held at the home for lack of room (10 R262, R268, 11 R289) -/
  held : Bool := false
  /-- the publication it belongs to, by a number among those under way, and the standing subscriptions (task, number) that other tokens of
  that publication serve (10 R281) -/
  pub : Nat := 0
  given : List (Nat × Nat) := []
  /-- published by a fetch, whose pending entry it ends (10 R271) -/
  fetched : Bool := false
  /-- of a standing subscription at its home: its count stands in the home's match table (10 R260, R281) -/
  counted : Bool := false
deriving DecidableEq, Repr

/-- A reverse-path entry of a match table (10 R259); PORTS follows from the counts. -/
structure MatchEntry where
  name : Name
  mask : Name
  cnt : Vector (BitVec 8) 5 := Vector.replicate 5 0#8
deriving DecidableEq, Repr

/-- A reduction entry (11 R288), with the chunks marked over (R290). -/
structure RedEntry where
  name : Name
  opened : Bool := false
  rfmt : Nat := 0
  spill : Bool := false
  dcount : Nat := 0
  nelem : Nat
  place : Nat
  cdone : Nat := 0
  rname : Name := 0#96
  ovr : List Nat := []
  /-- chunk counts -/
  counts : List Nat := []
deriving DecidableEq, Repr

/-- States of an airing entry (10 R267). -/
inductive AirState where
  | held | aired | pending
deriving DecidableEq, Repr

/-- An airing directory entry (10 R267). -/
structure Aired where
  name : Name
  state : AirState
  hkind : Nat := 0
  hcnt : BitVec 8 := 0#8
  round0 : BitVec 32 := 0#32
  hrnd : BitVec 4 := 0#4
  tag : BitVec 4 := 0#4
  size : Nat := 0
  line0 : Nat := 0
  /-- standing subscriptions (task, number) that wait for a pending fetch (10 R271) -/
  subs : List (Nat × Nat) := []
  /-- net cycle in which the publication was accepted (13 R345) -/
  born : Option Nat := none
deriving DecidableEq, Repr

/-- A one-shot on a home's wait list (10 R268): the directory EPOCH is that of the task as its subscription was met. -/
structure Shot where
  name : Name
  who : Asker
  epoch : BitVec 16 := 0#16
deriving DecidableEq, Repr

/-- A router reduction slot (11 R285). -/
structure RedSlot where
  flushing : Bool := false
  timer : Nat := 128
  chunk : Nat
  count : Nat
  name : Name
  acc : List M320 := []
deriving DecidableEq, Repr

/-- A home-map entry (10 R254). -/
structure HomeEntry where
  valid : Bool := true
  ho : Bool := false
  router : Nat
  epoch : BitVec 12 := 0#12
deriving DecidableEq, Repr

/-- A router's tables (10 R259, R262, R267, R268, 11 R285). Copies of the region's home map and tensor table that the
debug window has changed stand beside them (20 R463). -/
structure Router where
  table : List MatchEntry := []
  reds : List RedEntry := []
  mtfull : BitVec 32 := 0#32
  airDir : List Aired := []
  /-- the airing lines, 128 KiB by byte -/
  air : Memory := []
  shots : List Shot := []
  /-- standing subscriptions (task, number) that were marked direct here (10 R262): they have raised no count from here on -/
  turned : List (Nat × Nat) := []
  directs : List (Nat × Nat × Name × Name) := []
  slots : Map RedSlot := []
  round : BitVec 32 := 0#32
  /-- net cycles in which a completion stepped the round while its expiry is still to come: it follows what came to the router in or before
  that cycle (10 R281) -/
  due : List Nat := []
  homeCopy : Map HomeEntry := []
  tensCopy : Map (BitVec 256) := []
deriving DecidableEq, Repr

/-- Where a task is (10 R255). -/
inductive TaskWhere where
  | resident | rebinding | saved | lost
deriving DecidableEq, Repr

/-- A task directory entry (10 R255). -/
structure DirEntry where
  core : Nat
  slot : BitVec 4
  state : TaskWhere := .resident
  epoch : BitVec 16 := 0#16
deriving DecidableEq, Repr

/-- A barrier node (13 R331); MEMB follows from the task directory. -/
structure Node where
  inst : BitVec 32 := 0#32
  cur : Nat := 0
  nxt : Nat := 0
  /-- arrivals at later instances, by tasks that came from a unit further ahead (13 R336) -/
  later : List (BitVec 32) := []
deriving DecidableEq, Repr

/-- A completion notice on its way to a member core (13 R333). -/
structure Notice where
  region : Nat
  core : Nat
  scope : Nat
  inst : BitVec 32
deriving DecidableEq, Repr

/-- A sink (12 R301): tensor, final generation, tile count wanted and seen. -/
structure Sink where
  tensor : BitVec 20
  gen : BitVec 24
  need : Nat
  seen : Nat := 0
deriving DecidableEq, Repr

/-- A task template as loaded (12 R298, R299). -/
structure Template where
  first : Nat
  count : Nat
  kernel : Addr
  prio : BitVec 3
  mode : BitVec 3
  /-- the subscription patterns of each replica -/
  subs : List (List Pattern)
deriving DecidableEq, Repr

/-- How far a region's life has come (12 R300, R301, 17 R438, 14 R371). -/
inductive Phase where
  | free | loading | running | halting | saved | resuming | ending
deriving DecidableEq, Repr

/-- A region (01 R16 to R18, 12 R297, R300). -/
structure Region where
  phase : Phase := .free
  space : BitVec 12 := 0#12
  orgc : Nat := 0
  orgr : Nat := 0
  w : Nat := 0
  h : Nat := 0
  det : Bool := false
  netw : BitVec 32 := 0#32
  /-- NETW writes on their way to the leader, with the core; writes applied, on their way to a router (03 R86) -/
  netwq : List (Nat × BitVec 32) := []
  netwOut : List (Nat × BitVec 32) := []
  ltag : BitVec 32 := 0#32
  compl : W64 := 0#64
  edgemask : BitVec 32 := 0#32
  codeva : Nat := 0
  spillva : Nat := 0
  saveva : Nat := 0
  tasks : Nat := 0
  templates : List Template := []
  tensors : List (BitVec 256) := []
  /-- tensors of the image's .pub directives -/
  pubs : List (BitVec 20) := []
  homes : Nat := 1
  home : Map HomeEntry := []
  /-- names that ROPEN or PUBR has used (11 R282) -/
  redNames : List Name := []
  /-- homes to which a standing subscription went in turn, by core, task and number: its unsubscription follows (10 R260) -/
  subPath : Map (List Nat) := []
  /-- standing subscriptions that have left a core by hand-over: the core, task, number, name, mask (10 R256, 21 R469) -/
  left : List (Nat × Nat × Nat × Name × Name) := []
  dir : Map DirEntry := []
  /-- barrier nodes by scope and unit (13 R331), and the pod instances that the other wafers have completed, by wafer (17 R448) -/
  nodes : Map Node := []
  podInst : Map (BitVec 32) := []
  sinks : List Sink := []
  /-- the completion word has been stored -/
  stored : Bool := false
  /-- some core was lost: barriers complete nothing more (13 R336) -/
  lost : Bool := false
  /-- REFCNT by reticle controller (13 R324) -/
  refcnt : Map (BitVec 32) := []
deriving DecidableEq, Repr

/-! Edge blocks (15). -/

/-- A token of the edge fabric (15 R376). -/
structure ETok where
  eos : Bool := false
  fmt : BitVec 4 := 0#4
  gen : BitVec 24 := 0#24
  chan : BitVec 4 := 0#4
  data : BitVec 256 := 0#256
deriving DecidableEq, Repr

/-- Working state of a handler (15 R383). -/
structure HState where
  armed : Bool := false
  /-- streams whose EOS it has processed at source A -/
  streams : Nat := 0
  /-- generation it last emitted -/
  last : Option (BitVec 24) := none
  /-- tokens counted, alternation, byte buffer, bins, tokens held -/
  n : Nat := 0
  flip : Bool := false
  buf : List Nat := []
  bins : List Nat := []
  held : List ETok := []
  heldB : List ETok := []
  /-- EOS seen at A, at B; dropping the rest of A, of B -/
  eosA : Bool := false
  eosB : Bool := false
  dropA : Bool := false
  dropB : Bool := false
  bad : Bool := false
  fmt : BitVec 4 := 0#4
deriving DecidableEq, Repr

/-- An element: queues by channel, handler states, output still to be sent (to a port code) and a HALTE stop. -/
structure Element where
  queues : Map (List ETok) := []
  hs : Map HState := []
  out : List (Nat × ETok) := []
  /-- the outputs of the last run are several to one destination: they hold the element until they have gone (15 R380) -/
  hold : Bool := false
  halted : Bool := false
deriving DecidableEq, Repr

/-- A command at a block (12 R316, R317). -/
structure EdgeCmd where
  core : Nat
  fid : W64
  fw : Bool
  tc : BitVec 4
  /-- ECFG with its address, or EGO with its parameter -/
  cfg : Option W64
  par : BitVec 32 := 0#32
deriving DecidableEq, Repr

/-- States of a block (12 R317, 15 R397). -/
inductive BlockState where
  | idle | configured | running | draining | aborting
deriving DecidableEq, Repr

/-- A tile of the delivery buffer (15 R394): armed, with its bytes or its fault once it has come. -/
structure Armed where
  bind : Nat
  point : Nat
  name : Name
  got : Option Parcel := none
  failed : Bool := false
  /-- its reverse-path entry stands at the entry router (10 R258) -/
  listed : Bool := false
  /-- 32-byte tokens already emitted -/
  sent : Nat := 0
deriving DecidableEq, Repr

/-- A tile that PUBN has formed and that its router has not accepted yet (15 R395). -/
structure PubTile where
  parcel : Parcel
  contribute : Bool
  elem : Nat
  handler : Nat
  /-- the EOS to send to DSTB once accepted -/
  eos : ETok
deriving DecidableEq, Repr

/-- An edge block (15 R375, 12 R317). -/
structure Block where
  owner : Option Nat := none
  state : BlockState := .idle
  queue : List EdgeCmd := []
  /-- images of the committed and the shadow plane; a malformed shadow has been abandoned (15 R391) -/
  plane : Option Memory := none
  shadow : Option Memory := none
  /-- the image being read: lines that have come, and the addresses of those that failed (15 R391) -/
  load : Map (BitVec 512) := []
  loadBad : List (Nat × Cause) := []
  malformed : Bool := false
  errs : BitVec 8 := 0#8
  lenerr : BitVec 16 := 0#16
  drops : BitVec 16 := 0#16
  periods : BitVec 16 := 0#16
  /-- the period: generation, owner, points armed, error tokens, drops, SINK counts and reports by element and handler -/
  gen : BitVec 24 := 0#24
  ownerFid : W64 := 0#64
  ownerCore : Nat := 0
  armedTo : Nat := 0
  perErr : BitVec 32 := 0#32
  perDrop : BitVec 32 := 0#32
  drained : Bool := false
  /-- net cycles since a handler last started or an interface last moved a token, or since the block drains (15 R397, R399) -/
  waited : Nat := 0
  elems : Map Element := []
  armed : List Armed := []
  tiles : List PubTile := []
  /-- link streams: tokens received, and sent and not acknowledged -/
  rx : Map (List ETok) := []
  tx : Map (List ETok) := []
  /-- debug records of HALTE: the token and a round stamp (15 R385, 13 R341) -/
  debug : List (ETok × W64) := []
deriving DecidableEq, Repr

/-- A link port (17 R447). -/
structure Link where
  up : Bool := false
  absent : Bool := false
  farw : BitVec 6 := 0#6
  farp : BitVec 5 := 0#5
  retry : BitVec 32 := 0#32
  /-- down after 16 failed resends of a beat (17 R447) -/
  down : Bool := false
deriving DecidableEq, Repr

/-! Controllers, bridge and host (16, 17). -/

/-- States of a seam (16 R407). -/
inductive Seam where
  | untrained | up | down | edge
deriving DecidableEq, Repr

/-- Phases of a reticle controller: the ROM sequence (16 R405), the election (R412) and after. -/
inductive RPhase where
  | off | self | cores | seams
  | elect (round : Nat)
  | claim | await | leader | follower | enum | ready | fenced | dark | fwFenced
deriving DecidableEq, Repr

/-- A capture unit (13 R343). -/
structure Capture where
  cfg : W64 := 0#64
  min : W64 := BitVec.allOnes 64
  max : W64 := 0#64
  count : W64 := 0#64
  sum : W64 := 0#64
  drops : W64 := 0#64
  start : W64 := 0#64
  bins : Vector (BitVec 32) 32 := Vector.replicate 32 0#32
  /-- cycle and value of the last sample recorded (R344) -/
  last : Option Nat := none
  lastV : Nat := 0
  /-- the core whose turn it is for the ready-queue depth (R345) -/
  turn : Nat := 0
deriving DecidableEq, Repr

/-- A reticle controller and its reticle (16). -/
structure Reticle where
  phase : RPhase := .off
  /-- fuse: core-fenced at test (16 R405) -/
  fenced : Bool := false
  /-- physical cores with a defect bit, by NODE (16 R406) -/
  defects : List Nat := []
  seams : Vector Seam 4 := Vector.replicate 4 .untrained
  /-- the host-bridge attachment has trained (16 R407, R408) -/
  attached : Bool := false
  best : Option (BitVec 32) := none
  /-- round messages on their way here: round, direction, ballot (16 R409); those received, by round and direction -/
  votes : List (Nat × Nat × Option (BitVec 32)) := []
  heard : List (Nat × Nat) := []
  /-- direction of the parent (16 R411) -/
  parent : Option Nat := none
  /-- failed receipts of the firmware (16 R416), and a verified copy -/
  tries : Nat := 0
  loaded : Bool := false
  /-- logical reticle row, 7 none; state of 16 R426 -/
  lrow : Nat := 7
  code : Nat := 0
  time : W64 := 0#64
  captures : Map Capture := []
  /-- samples offered in the present cycle, whether or not a unit records them: region, source, selector, value (13 R344); that cycle -/
  offered : List (Nat × Nat × Nat × Nat) := []
  offeredAt : Nat := 0
  grants : Map (BitVec 5) := []
deriving DecidableEq, Repr

/-- A staged or waiting event record (17 R439, R442): its controller (48 the leader), the counter it increments once
written, and whether the end of a region waits for it. -/
structure Staged where
  ctl : Nat
  bits : BitVec 256
  tok : Option (Nat × W64 × Bool × BitVec 4) := none
  done : Option Nat := none
deriving DecidableEq, Repr

/-- An event queue (17 R441, R442). -/
structure EventQueue where
  base : W64 := 0#64
  size : BitVec 8 := 0#8
  tail : BitVec 32 := 0#32
  head : BitVec 32 := 0#32
  lost : BitVec 32 := 0#32
  staged : List Staged := []
  waiting : List Staged := []
  /-- sequence numbers by source, 65,536 times the kind plus the number -/
  seq : Map (BitVec 24) := []
deriving DecidableEq, Repr

/-- A launch page (12 R296, 17 R438). -/
structure Page where
  ring : Memory := []
  tail : BitVec 16 := 0#16
  head : BitVec 16 := 0#16
  ltag : BitVec 32 := 0#32
  status : BitVec 8 := 0#8
  ovf : Bool := false
  /-- records finished out of turn -/
  finished : List (BitVec 16) := []
deriving DecidableEq, Repr

/-- A debug write waiting for an idle router (20 R464): what it selects, its word, its value, the net cycle it came in. -/
structure DebugWrite where
  sel : W64
  word : Nat
  value : Nat
  since : Nat
deriving DecidableEq, Repr

/-- The host bridge and the leader's windows (16 R427, 17 R436 to R448). -/
structure Bridge where
  grade40 : Bool := false
  valid : Bool := false
  img : W64 := 0#64
  len : BitVec 32 := 0#32
  /-- the boot descriptor as polled: address and length of the image that is fetched and distributed (16 R415, R416) -/
  polledImg : W64 := 0#64
  polledLen : BitVec 32 := 0#32
  phase : BitVec 4 := 0#4
  err : BitVec 4 := 0#4
  leader : Option Nat := none
  fenced : Nat := 0
  epoch : BitVec 32 := 0#32
  /-- claims in the open window (16 R410) -/
  window : Option (List (BitVec 32)) := none
  /-- failed fetches (16 R415); the verified image's hash and SVN -/
  fetches : Nat := 0
  fetching : Bool := false
  /-- VALID was cleared during this fetch (16 R430) -/
  fetchLost : Bool := false
  fetched : Bool := false
  /-- the verified image in the leader's SRAM (16 R415, R416) -/
  image : Memory := []
  /-- what verified firmware has raised the fuses' SVNMIN to (16 R414; log 9) -/
  svnMin : BitVec 16 := 0#16
  fwhash : BitVec 512 := 0#512
  svn : BitVec 16 := 0#16
  wtset : Bool := false
  /-- attestation: DONE, REFUSED, a report being built over a nonce -/
  attDone : Bool := false
  attRefused : Bool := false
  attBusy : Bool := false
  nonce : BitVec 256 := 0#256
  /-- the nonce that came with the request being answered (16 R431) -/
  attNonce : BitVec 256 := 0#256
  report : Memory := []
  topology : Memory := []
  podcfg : BitVec 32 := 0#32
  podmemb : Vector W64 16 := Vector.replicate 16 0#64
  dbgsel : W64 := 0#64
  dbgaddr : W64 := 0#64
  dbgerr : Bool := false
  /-- writes to router items that wait for an idle cycle, oldest first (20 R464) -/
  dbgwrite : List DebugWrite := []
  /-- the word that the last read of the aperture returned -/
  dbgdata : W64 := 0#64
deriving DecidableEq, Repr

/-- What a context image has no place for (14 R365; log 12): where the firing or firmware goes on and how its bundle
stands, firmware's results in flight, the frames' addresses and creation marks, the names and first-bundle faults of
ready entries, and what fills or will free a tile. -/
structure Rest where
  pc : Addr := 0#56
  branch : Option Addr := none
  ending : Ending := .none
  created : Bool := false
  pend : List Pending := []
  /-- which landing entries are firmware's own -/
  own : List Bool := []
  heldVar : List Pending := []
  savedBranch : Option (Addr × Addr) := none
  frames : Map (Addr × Bool) := []
  entries : List (List Name × List Deferred) := []
  tiles : Map (Filler × Bool × Bool × Bool) := []
  /-- the LAUNCHRs that phase 1 had not finished, in issue order: the image's record is the first's, without its children's PRIO (12
  R314) -/
  launches : List Op := []
  /-- boundary faults beyond the 16 that the image holds -/
  faults : List Deferred := []
  /-- BAR arrivals that wait for their instances (13 R336) -/
  arrivals : List Arrival := []
  /-- firmware's own STALL ticks and divider -/
  stall : Nat := 0
  div : Nat := 0
deriving DecidableEq, Repr

/-- One entry of the agenda: what the environment lets happen next (the model's own, log 1). -/
inductive Turn where
  /-- one cycle of a core -/
  | core (c : Nat)
  /-- a step of the table that is no slot instruction, at a core, with its input -/
  | event (c : Nat) (i : Instr) (input : List Nat)
  /-- an edge element's next handler; a link token's acknowledgement; a command's arrival -/
  | element (p e : Nat)
  | linkAck (p stream : Nat)
  | edgeArrive (c j : Nat)
  /-- a tile of an edge block is accepted by its router -/
  | edgePub (p k : Nat)
  /-- matrix lines read ahead or written early (06 R151); a part of an engine command (08 R221); an eviction (07 R193); a deferred
  access taken up by the G-cache (09 R228); an uncorrectable error in a G-cache word (07 R194) -/
  | matRead (c j i : Nat)
  /-- a line of an accepted delivery is written (10 R264) -/
  | tileLine (c i l : Nat)
  | matWrite (c j i : Nat)
  | engine (c j i : Nat)
  | evict (c l : Nat)
  | gserve (c j : Nat)
  | spoilLine (c l w : Nat)
  /-- a translation leaves a full translation cache, or is dropped by it (08 R203) -/
  | tlbDrop (i : Nat)
  /-- the next bundle enters the fetch buffer (07 R189) -/
  | prefetch (c : Nat)
  /-- a net cycle passes; a nanosecond passes at a reticle -/
  | netCycle
  | nanosecond (r : Nat)
  /-- what the host does to its memory, page tables and handlers that firmware puts in HBM (08 R200, R203, 12 R298), and what may be
  poisoned (07 R170, 08 R205) -/
  | pokeHost (a x n : Nat)
  | tables (lines : List Nat)
  | poisonHbm (line : Nat)
  | poisonWord (c buf w : Nat)
  | podArrive (region port wafer mask : Nat)
  /-- a controller restarts a core that HALTC stopped (14 R359) -/
  | restart (c : Nat)
deriving DecidableEq, Repr

/-- A cached translation of an agent (08 R203): die, region (16 for firmware), page number, page bits, the leaf entry. -/
structure Tlb where
  die : Nat
  region : Nat
  page : Nat
  bits : Nat
  leaf : BitVec 64
deriving DecidableEq, Repr

/-- The machine. -/
structure State where
  /-- the core in focus, its physical number, and the other cores -/
  core : Core := {}
  cur : Nat := 0
  parked : Map Core := []
  /-- the model's own: latch, agenda, input of the event that acts, the edge handler that acts (port, element, handler),
  counter of free values (logs 1, 2, 7) -/
  issue : Issue := {}
  agenda : List Turn := []
  input : List Nat := []
  handler : Nat × Nat × Nat := (0, 0, 0)
  fresh : Nat := 0
  /-- HBM by physical address and the poisoned lines (08 R199, R205); host memory (08 R199) -/
  hbm : Memory := []
  badLine : List Nat := []
  host : Memory := []
  /-- table roots by region, 16 the firmware root (08 R200, 14 R351); cached leaves (08 R203); ports present (16 R421) -/
  roots : Map Nat := []
  tlb : List Tlb := []
  ports : BitVec 32 := 0#32
  regions : Map Region := []
  net : List Token := []
  routers : Map Router := []
  notices : List Notice := []
  blocks : Map Block := []
  links : Map Link := []
  reticles : Map Reticle := []
  bridge : Bridge := {}
  /-- event queues: 0 to 15 by launch page, 16 the PF's -/
  queues : Map EventQueue := []
  pages : Map Page := []
  /-- launch doorbells in the order they reached the leader (12 R299) -/
  doorbells : List (Nat × BitVec 16) := []
  /-- net cycles passed -/
  clock : Nat := 0
  /-- the remainders of saved contexts, by 2^56 times the region plus the image address (log 12) -/
  resume : Map Rest := []
deriving DecidableEq, Repr

/-- The machine right after reset: no reticle has power (16 R403), so no core runs. -/
def State.reset : State := {}

end Sys2Proof.Machine
end

