-- ==== Sys2Proof/Machine/Map.lean ====
section
/-! DEFINITION. Tables by number and byte memory: lists with keys strictly rising. Byte memory lists no zero byte, so
equal memories are equal lists. Multi-byte accesses are little-endian (00 R8). -/

namespace Sys2Proof.Machine

variable {α : Type}

/-- The entry at a number. -/
def find? (k : Nat) : Map α → Option α
  | [] => none
  | (j, x) :: t => if j = k then some x else find? k t

/-- The entry at a number, or a default. -/
def findD (k : Nat) (d : α) (m : Map α) : α := (find? k m).getD d

/-- Sets the entry at a number, keys kept rising. -/
def insert (k : Nat) (x : α) : Map α → Map α
  | [] => [(k, x)]
  | (j, y) :: t => if k < j then (k, x) :: (j, y) :: t else if k = j then (k, x) :: t else (j, y) :: insert k x t

/-- Removes the entry at a number. -/
def erase (k : Nat) : Map α → Map α
  | [] => []
  | (j, y) :: t => if j = k then t else (j, y) :: erase k t

/-- Sets an entry, a default value being left out. -/
def put [DecidableEq α] (d : α) (k : Nat) (x : α) (m : Map α) : Map α := if x = d then erase k m else insert k x m

/-- Applies a function to the entry at a number. -/
def modify (k : Nat) (d : α) (f : α → α) (m : Map α) : Map α := insert k (f (findD k d m)) m

/-- Keys strictly rise from a bound on. -/
def sortedFrom (lo : Nat) : Map α → Bool
  | [] => true
  | (j, _) :: t => decide (lo ≤ j) && sortedFrom (j + 1) t

/-- The canonical form of byte memory: keys strictly rising, no zero byte listed. -/
def Memory.wf (m : Memory) : Bool := sortedFrom 0 m && m.all fun p => p.2 != 0#8

/-- The byte at an address; what no one wrote reads as zero (07 R167; log 5). -/
def rd (m : Memory) (a : Nat) : Byte := findD a 0#8 m

/-- Writes one byte. -/
def wr (m : Memory) (a : Nat) (b : Byte) : Memory := put 0#8 a b m

/-- n bytes from an address as a number. -/
def rdN (m : Memory) (a : Nat) : Nat → Nat
  | 0 => 0
  | n + 1 => (rd m a).toNat + 256 * rdN m (a + 1) n

/-- Writes the low n bytes of a number. -/
def wrN (m : Memory) (a : Nat) (x : Nat) : Nat → Memory
  | 0 => m
  | n + 1 => wrN (wr m a (BitVec.ofNat 8 x)) (a + 1) (x / 256) n

/-- Lines of 64 bytes of the HBM address space (08 R199) written, as pairs of a line's number and its 512 bits. -/
def writeLines (m : Memory) : List Nat → Memory
  | l :: x :: t => writeLines (if l < 2 ^ 35 then wrN m (64 * l) x 64 else m) t
  | _ => m

/-- n bytes from an address as a list. -/
def rdBytes (m : Memory) (a : Nat) : Nat → List Byte
  | 0 => []
  | n + 1 => rd m a :: rdBytes m (a + 1) n

/-- Writes a list of bytes. -/
def wrBytes (m : Memory) (a : Nat) : List Byte → Memory
  | [] => m
  | b :: t => wrBytes (wr m a b) (a + 1) t

/-- Writes those of n bytes whose mask bit is set; mask bit i governs byte i. -/
def wrMask (m : Memory) (a : Nat) (mask x : Nat) : Nat → Memory
  | 0 => m
  | n + 1 =>
    wrMask (if mask.testBit 0 then wr m a (BitVec.ofNat 8 x) else m) (a + 1) (mask / 2) (x / 256) n

/-- Replaces the entry of a list. -/
def setAt (l : List α) (i : Nat) (x : α) : List α := l.set i x

/-- Removes the entry of a list. -/
def dropAt (l : List α) (i : Nat) : List α := l.eraseIdx i

/-- Applies a function to the entry of a list. -/
def mapAt (l : List α) (i : Nat) (f : α → α) : List α := l.modify i f

end Sys2Proof.Machine
end

