-- ==== Sys2Proof/Machine/Ops.lean ====
section
/-! DEFINITION. The named operations of a core: registers, results in flight, token counters, the issue clock, closing a
bundle, taking a trap and returning from one (02 R47 to R55, 03 R64, R65, R85, 13 R326, 14 R348 to R363). -/

namespace Sys2Proof.Machine

/-- The code of a cause (14 R348). -/
def Cause.code : Cause → BitVec 6
  | .illegalBundle => 0x01#6 | .illegalOp => 0x02#6 | .slotGroup => 0x03#6 | .branchTarget => 0x04#6
  | .unitBusy => 0x05#6 | .writeCollision => 0x06#6 | .formatMismatch => 0x07#6 | .tileState => 0x08#6
  | .localBounds => 0x09#6 | .misaligned => 0x0A#6 | .globalXlate => 0x0B#6 | .globalPerm => 0x0C#6
  | .poison => 0x0D#6 | .nameSpace => 0x0E#6 | .mangleCount => 0x0F#6 | .privilege => 0x10#6 | .brk => 0x11#6
  | .trap => 0x12#6 | .watchdog => 0x13#6 | .fabricLength => 0x14#6 | .fabricDrain => 0x15#6
  | .launchRecord => 0x16#6 | .taskLost => 0x17#6 | .windowOwner => 0x18#6

/-- Count of one bits in the low n bits. -/
def popBits (x : Nat) : Nat → Nat
  | 0 => 0
  | n + 1 => (if x.testBit n then 1 else 0) + popBits x n

/-- Changes the core in focus. -/
def State.onCore (f : Core → Core) (s : State) : State := { s with core := f s.core }

/-- Changes the registers of a core. -/
def Core.onRegs (f : Regs → Regs) (c : Core) : Core := { c with regs := f c.regs }

/-! Register files (03 R64). In firmware mode s24 to s31 and the token counters name the bank (14 R350). -/

/-- Firmware's bank is in use: in firmware mode, but for the wait of `tret.end`, in which what lands is the firing's as at FEND (14 R356). -/
def Core.banked (c : Core) : Bool := c.fwm && c.ending != .trapEnd

/-- Whether a scalar register name means the firmware bank. -/
def inBank (c : Core) (r : Reg) : Bool := c.banked && (24#5).ule r

/-- A scalar register; s0 reads zero. -/
def Core.s (c : Core) (r : Reg) : W64 :=
  if r = 0#5 then 0#64
  else if inBank c r then c.bankS[r.toNat % 8]'(Nat.mod_lt _ (by decide))
  else c.regs.s[r.toNat]'r.isLt

/-- Writes a scalar register; a write to s0 is discarded (03 R65). -/
def Core.setS (c : Core) (r : Reg) (x : W64) : Core :=
  if r = 0#5 then c
  else if inBank c r then { c with bankS := c.bankS.set (r.toNat % 8) x (Nat.mod_lt _ (by decide)) }
  else { c with regs := { c.regs with s := c.regs.s.set r.toNat x r.isLt } }

/-- A mask register; k0 reads all ones. -/
def Core.k (c : Core) (r : KReg) : W64 := if r = 0#3 then BitVec.allOnes 64 else c.regs.k[r.toNat]'r.isLt

/-- Writes a mask register; a write to k0 is discarded. -/
def Core.setK (c : Core) (r : KReg) (x : W64) : Core :=
  if r = 0#3 then c else { c with regs := { c.regs with k := c.regs.k.set r.toNat x r.isLt } }

/-- A name register. -/
def Core.n (c : Core) (r : NReg) : Name := c.regs.n[r.toNat]'r.isLt

def Core.setN (c : Core) (r : NReg) (x : Name) : Core :=
  { c with regs := { c.regs with n := c.regs.n.set r.toNat x r.isLt } }

/-- A vector register. -/
def Core.v (c : Core) (r : Reg) : VReg := c.regs.v[r.toNat]'r.isLt

def Core.setV (c : Core) (r : Reg) (x : VReg) : Core :=
  { c with regs := { c.regs with v := c.regs.v.set r.toNat x r.isLt } }

def sreg (s : State) (r : Reg) : W64 := s.core.s r
def kreg (s : State) (r : KReg) : W64 := s.core.k r
def nreg (s : State) (r : NReg) : Name := s.core.n r
def vreg (s : State) (r : Reg) : VReg := s.core.v r

/-- A token counter, of the bank in firmware mode (14 R357). -/
def Core.tc (c : Core) (i : BitVec 4) : BitVec 16 :=
  if c.banked then c.bankTc[i.toNat]'i.isLt else c.regs.tc[i.toNat]'i.isLt

/-! Token counters (13 R326): the changes of one cycle are summed, then the counter is held to 0 to 0xFFFF. -/

/-- The sum of the changes to counter i. -/
def tcSum (i : Nat) : List (Nat × Int) → Int
  | [] => 0
  | (j, d) :: t => (if j = i then d else 0) + tcSum i t

/-- A counter after the changes of a cycle. -/
def tcClamp (x : BitVec 16) (d : Int) : BitVec 16 := BitVec.ofInt 16 (clampI ((x.toNat : Int) + d) 0 0xFFFF)

/-- All counters after the changes of a cycle; entry 0 names no counter. -/
def tcApply (t : Vector (BitVec 16) 16) (l : List (Nat × Int)) : Vector (BitVec 16) 16 :=
  if l.isEmpty then t else Vector.ofFn fun i => if i.val = 0 then t[i] else tcClamp t[i] (tcSum i.val l)

/-- Applies the cycle's changes to the counters in use. -/
def Core.applyTc (c : Core) : Core :=
  if c.banked then { c with bankTc := tcApply c.bankTc c.tcd, tcd := [] }
  else { c with regs := { c.regs with tc := tcApply c.regs.tc c.tcd }, tcd := [] }

/-- Notes a change to a counter of the running stream; counter 0 is none. -/
def Core.addTc (c : Core) (i : BitVec 4) (d : Int) : Core := if i = 0#4 then c else { c with tcd := c.tcd ++ [(i.toNat, d)] }

/-! Control registers written by CTLWR (03 R81, R84, R85; 14 R352). -/

/-- The value of EXPHIST bins after increments, saturating (03 R81). -/
def histAdd (h : Vector (BitVec 32) 32) (inc : List Nat) : Vector (BitVec 32) 32 :=
  if inc.isEmpty then h
  else Vector.ofFn fun i => BitVec.ofNat 32 (min (h[i].toNat + inc.getD i.val 0) 0xFFFFFFFF)

/-- A register write of CTLWR at the end of its tick. NETW does not change here: its write goes to the leader (R86). -/
def Core.ctlWrite (c : Core) (num : BitVec 12) (x : W64) : Core :=
  match num.toNat with
  | 0x009 => if (x.extractLsb' 0 3).ule 4#3 then { c with regs := { c.regs with fpmode := x.extractLsb' 0 3 } } else c
  | 0x00A => { c with regs := { c.regs with fpstat := c.regs.fpstat &&& ~~~(x.extractLsb' 0 5) } }
  | 0x010 => { c with trapcause := x.truncate 6 }
  | 0x011 => { c with trappc := x.truncate 56 }
  | 0x012 => { c with trapval := x }
  | 0x013 => { c with trapvec := x.truncate 56 &&& ~~~(0x3FFF#56) }
  | 0x01A => { c with lrskip := x.truncate 32 }
  | 0x01C => { c with regs := { c.regs with lpcnt := x } }
  | 0x01D => { c with regs := { c.regs with lpbeg := x.truncate 56 } }
  | 0x01E => { c with regs := { c.regs with lpexit := x.truncate 56 } }
  | 0x101 => { c with wdlim := x.truncate 32 }
  | 0x102 => { c with stagger := x.truncate 6 }
  | 0x105 => { c with dbgen := x.truncate 1 }
  | n =>
    if 0x020 ≤ n ∧ n < 0x040 then
      { c with exphist := c.exphist.set (n % 32) (x.truncate 32) (Nat.mod_lt _ (by decide)) }
    else if 0x110 ≤ n ∧ n < 0x118 then
      { c with regs := { c.regs with s := c.regs.s.set (24 + n % 8) x (by omega) } }
    else if 0x121 ≤ n ∧ n < 0x130 then
      { c with regs := { c.regs with tc := c.regs.tc.set (n % 16) (x.truncate 16) (Nat.mod_lt _ (by decide)) } }
    else c

/-! Results in flight (02 R53). -/

/-- The write itself. -/
def Core.apply (c : Core) : Put → Core
  | .none => c
  | .s r x => c.setS r x
  | .k r x => c.setK r x
  | .n r x => c.setN r x
  | .v r x => c.setV r x
  | .vv r x y => (c.setV r x).setV (r + 1#5) y
  | .ctl num x => c.ctlWrite num x
  | .prio x => { c with regs := { c.regs with prio := x } }
  | .loop b e n => { c with regs := { c.regs with lpbeg := b, lpexit := e, lpcnt := n } }

/-- ORs flags into FPSTAT (04 R97). -/
def Core.orFlags (c : Core) (f : Flags) : Core := { c with regs := { c.regs with fpstat := c.regs.fpstat ||| f } }

/-- Lands one result: the write, its flags, its histogram increments, its token. -/
def Core.landOne (c : Core) (p : Pending) : Core :=
  let c := (c.apply p.put).orFlags p.flags
  let c := { c with exphist := histAdd c.exphist p.hist }
  c.addTc p.tcn 1

def Pending.isCtl (p : Pending) : Bool :=
  match p.put with
  | .ctl .. => true
  | _ => false

/-- The registers a write names, by file of 03 R64 and number: 0 scalar, 1 mask, 2 name, 3 vector, 4 the firmware bank, 5 the loop
registers. None for a discarded write (R65), nor for PRIO and the control registers of no file, where the write of the later slot
stands (log 58). -/
def Put.keys (c : Core) : Put → List (Nat × Nat)
  | .s r _ => if r = 0#5 then [] else [((if inBank c r then 4 else 0), r.toNat)]
  | .k r _ => if r = 0#3 then [] else [(1, r.toNat)]
  | .n r _ => [(2, r.toNat)]
  | .v r _ => [(3, r.toNat)]
  | .vv r _ _ => [(3, r.toNat), (3, (r + 1#5).toNat)]
  | .loop .. => [(5, 0), (5, 1), (5, 2)]
  | .ctl num _ =>
    let n := num.toNat
    if 0x01C ≤ n ∧ n ≤ 0x01E then [(5, n - 0x01C)] else if 0x110 ≤ n ∧ n < 0x118 then [(0, n - 0x110 + 24)] else []
  | .none | .prio _ => []

/-- Two writes name a register in common. -/
def Put.meets (c : Core) (p q : Put) : Bool := (p.keys c).any fun x => (q.keys c).contains x

/-- A variable-latency result that meets a fixed-latency one for its register, so that it lands in the next cycle (02 R54). -/
def Core.late (c : Core) (p : Pending) : Bool := p.var && c.pend.any fun q => q.rem == 0 && !q.var && p.put.meets c q.put

/-- What stays in flight at the end of a tick. -/
def Core.staying (c : Core) : List Pending :=
  (c.pend.filter fun p => p.rem != 0) ++ (c.pend.filter fun p => p.rem == 0 && c.late p).map fun p => { p with rem := 1 }

/-- Lands every result whose last tick has ended, but for those put off; CTLWR writes go first (03 R85). -/
def Core.landDue (c : Core) : Core :=
  let now := c.pend.filter fun p => p.rem == 0 && !c.late p
  ((now.filter Pending.isCtl) ++ (now.filter fun p => !p.isCtl)).foldl Core.landOne { c with pend := c.staying }

/-- A tick is counted: results and the divider run. -/
def Core.count (c : Core) : Core := { c with pend := c.pend.map fun p => { p with rem := p.rem - 1 }, divrem := c.divrem - 1 }

/-- The end of a counted tick of the issue clock (02 R52): results run one tick and land. -/
def Core.tick (c : Core) : Core := c.count.landDue

/-- Ready entries grow older while the region is not halted (12 R306). -/
def Ready.age (e : Ready) : Ready := { e with wait := min (e.wait + 1) 0x7000 }

/-- Lines of a tile (07 R172). -/
def Tile.nl (t : Tile) : Nat := (t.sizem1.toNat + 64) / 64

/-- FILLC (07 R171). -/
def Tile.fillc (t : Tile) : Nat := popBits t.fill.toNat 1024

/-- A tile slot; unlisted slots are EMPTY. -/
def Core.tile (c : Core) (i : Nat) : Tile := findD i {} c.tiles

/-- Watches that a core holds, those of yielded firings among them (07 R187). -/
def Core.watchCount (c : Core) : Nat := c.yframes.foldl (fun n (p : Nat × Frame) => n + p.2.watches.length) c.watches.length

/-- The condition of a TWAIT watch (07 R187); a freed slot meets it too. -/
def Watch.met (c : Core) (w : Watch) : Bool :=
  let t := c.tile w.tile
  t.state == .empty || t.state == .ready || t.state == .draining || (w.thr != 0#64 && decide (w.thr.toNat ≤ t.fillc))

/-- What is in flight is parked (14 R362), marked where it is firmware's own; entries beyond 64 wait outside. -/
def Core.park (c : Core) : Core :=
  let l := c.lq ++ (c.pend.filter (fun p => !p.var) ++ c.pend.filter Pending.var).map fun (p : Pending) => { p with own := c.fwm }
  { c with lq := l.take 64, heldVar := c.heldVar ++ l.drop 64, pend := [] }

/-! Landing of responses. -/

/-- A response that arrives for the firing while firmware runs waits in the landing queue, or at the core's router while that
holds 64 entries (14 R350, R362). -/
def Core.parkVar (c : Core) (p : Pending) : Core :=
  if c.lq.length < 64 then { c with lq := c.lq ++ [p] } else { c with heldVar := c.heldVar ++ [p] }

/-- Changes the frame of a yielded firing. -/
def Core.onFrame (c : Core) (fid : W64) (f : Frame → Frame) : Core :=
  match c.ready.find? fun e => e.kind == .yielded && e.fid == fid with
  | some e => { c with yframes := modify e.yfr.toNat {} f c.yframes }
  | none => c

/-- Applies a write and a token to a frame's registers. -/
def Frame.land (fr : Frame) (p : Put) (fl : Flags) (tc : BitVec 4) : Frame :=
  let c : Core := ({ regs := fr.regs, fwm := false } : Core).apply p |>.orFlags fl
  { fr with regs := { c.regs with tc := tcApply c.regs.tc (if tc = 0#4 then [] else [(tc.toNat, 1)]) } }

/-- The firing runs on this core now. -/
def Core.runs (c : Core) (fid : W64) : Bool := c.running && c.regs.fireid == fid

/-- A scalar destination in the firmware bank. -/
def Put.toBank : Put → Bool
  | .s r _ => (24#5).ule r
  | _ => false

/-- A variable-latency response of the running stream lands with the end of the cycle in which it has come, so that a fixed-latency
result written in that cycle puts it off by one (02 R54): at once where the core has stopped. -/
def Core.landNow (c : Core) (p : Put) (fl : Flags) (h : List Nat) (tc : BitVec 4) : Core :=
  let e : Pending := { rem := 1, put := p, flags := fl, hist := h, var := true, tcn := tc }
  if c.halt = .no ∧ p ≠ .none then { c with pend := c.pend ++ [e] } else c.landOne e

/-- A variable-latency response lands (02 R54), with the increments of EXPHIST that a drain counts (06 R159): in the running
firing's registers, as a VAR entry while firmware runs (14 R350), or in the frame of a yielded firing (12 R311). What comes for a
firing that `tret.end` is ending lands as at FEND (14 R356). -/
def Core.landHist (c : Core) (fid : W64) (fw : Bool) (p : Put) (fl : Flags) (h : List Nat) (tc : BitVec 4) : Core :=
  if c.runs fid then
    if fw then
      if c.banked then c.landNow p fl h tc
      else c.landNow (if p.toBank then .none else p) fl h 0#4
    else if c.banked then c.parkVar { rem := 0, put := p, flags := fl, hist := h, var := true, tcn := tc }
    else c.landNow p fl h tc
  else { c with exphist := histAdd c.exphist h }.onFrame fid fun fr => fr.land p fl tc

def Core.landVar (c : Core) (fid : W64) (fw : Bool) (p : Put) (fl : Flags) (tc : BitVec 4) : Core := c.landHist fid fw p fl [] tc

/-- A token increment for the running firing or, from firmware, for the bank (14 R350): parked while firmware runs. -/
def Core.tokenFor (c : Core) (fw : Bool) (tc : BitVec 4) : Core :=
  if tc = 0#4 then c
  else if fw then (if c.banked then c.addTc tc 1 else c)
  else if c.banked then c.parkVar { rem := 0, put := .none, var := true, tcn := tc }
  else c.addTc tc 1

/-- A watch at the end of a cycle: it increments its counter and is gone once its condition has held, in the cycle after issue at
the earliest (07 R187). -/
def Core.runWatch (c : Core) (w : Watch) : Core :=
  let hit := w.hit || w.met c
  if hit && !w.new then c.tokenFor w.fw w.tc
  else { c with watches := c.watches ++ [{ w with new := false, hit := hit }] }

/-- Every watch at the end of a cycle. -/
def Core.runWatches (c : Core) : Core := c.watches.foldl Core.runWatch { c with watches := [] }

/-- Watches of a yielded firing act on its frame (12 R311). -/
def Frame.runWatches (c : Core) (fr : Frame) : Frame :=
  let hit := fr.watches.filter fun w => w.hit || w.met c
  { fr with watches := fr.watches.filter fun w => !(w.hit || w.met c)
            regs := { fr.regs with tc := tcApply fr.regs.tc (hit.map fun w => (w.tc.toNat, 1)) } }

/-- Conditions of watches that hold as a bundle issues are kept: an effect of the bundle does not undo them (07 R187). -/
def Core.noteWatches (c : Core) : Core :=
  let note (l : List Watch) : List Watch := l.map fun w => { w with hit := w.hit || w.met c }
  { c with watches := note c.watches, yframes := c.yframes.map fun (p : Nat × Frame) => (p.1, { p.2 with watches := note p.2.watches }) }

/-- The task slot of a firing's task. -/
def Core.onTaskSlot (c : Core) (fid : W64) (f : TaskSlot → TaskSlot) : Core :=
  { c with slots := c.slots.map fun ts => if ts.task = fid.extractLsb' 48 16 then f ts else ts }

/-- A BAR.ln that arrived in an earlier cycle completes: the copy of INST at its task, and the token (13 R330). -/
def Core.completeLn (c : Core) (a : Arrival) : Core :=
  (c.onTaskSlot a.fid fun ts => { ts with inst := ts.inst.set 0 a.inst }).landVar a.fid false .none 0#5 a.tc

/-- Arrivals of BAR.ln at the end of a cycle. -/
def Core.runLn (c : Core) : Core :=
  let due (a : Arrival) : Bool := a.scope == 0 && !a.new
  (c.arrivals.filter due).foldl Core.completeLn
    { c with arrivals := (c.arrivals.filter fun a => !due a).map fun (a : Arrival) => { a with new := false } }

/-- The end of a core-clock cycle: watches, BAR.ln, the counters, CYCLE, the ages, the idle spell of the matrix unit. -/
def Core.endCycle (c : Core) : Core :=
  let c := c.runWatches.runLn.applyTc
  let c := { c with yframes := c.yframes.map fun (p : Nat × Frame) => (p.1, p.2.runWatches c) }
  { c with cycle := c.cycle + 1#64, ready := c.ready.map Ready.age
           stampCyc := if c.stampCyc = BitVec.allOnes 32 then c.stampCyc else c.stampCyc + 1#32, matIdle := min (c.matIdle + 1) 1024 }

/-- Results of variable latency that have come land while the issue clock is frozen (02 R52). -/
def Core.landVars (c : Core) : Core :=
  (c.pend.filter Pending.var).foldl Core.landOne { c with pend := c.pend.filter fun p => !p.var }

/-- A cycle in which the issue clock is frozen: variable-latency results still land (02 R52). -/
def Core.frozenCycle (c : Core) : Core := c.landVars.endCycle

/-- A counted idle tick (02 R52). -/
def Core.idleTick (c : Core) : Core := c.tick.endCycle

/-! Claims of registers (02 R55, 03 R65). -/

/-- A result that would be written to a register in the tick in which another fixed-latency result is (02 R55). -/
def clashes (s : State) (p : Pending) : Bool :=
  (s.core.pend ++ s.issue.claims).any fun q => !q.var && q.rem == p.rem && q.put.meets s.core p.put

/-! Traps (14 R348 to R356). -/

/-- TRAPVAL of the slot layout (02 R51). -/
def slotVal (s : State) : W64 := (0#28 ++ BitVec.ofNat 4 s.issue.slot ++ s.issue.word).truncate 64

/-- take_trap (14 R349): parks what is in flight, saves STALLREM and DIVREM, writes the trap registers, enters firmware
mode with a cleared bank and goes to the cause's entry. In firmware mode the fault is a double fault and the core has
failed (R353). A branch whose target has not been checked yet is checked once the handler returns to the target (02 R48). -/
def Core.takeTrap (cause : BitVec 6) (pc : Addr) (val : W64) (c : Core) : Core :=
  if c.fwm then { c with halt := .failed }
  else
    let c := c.applyTc.park
    { c with
      savedStall := c.stallrem, savedDiv := c.divrem, stallrem := 0, divrem := 0
      savedBranch := c.branch.map fun b => (b, c.regs.pc), savedFetchb := c.fetchb
      trapcause := cause, trappc := pc, trapval := val
      fwm := true, bankS := Vector.replicate 8 0#64, bankTc := Vector.replicate 16 0#16
      regs := { c.regs with pc := (c.trapvec.extractLsb' 14 42 ++ cause ++ 0#8).truncate 56 }
      branch := none, fbuf := [], fetchb := false, ending := .none, frozen := 0, waited := 0 }

/-- An issue fault of the bundle at the program counter (02 R51, 14 R348). -/
def raiseWith (c : Cause) (val : W64) (s : State) : State :=
  { s with core := s.core.takeTrap c.code s.core.regs.pc val, issue := { s.issue with stop := some (.fault c val) } }

/-- An issue fault with the slot's word as TRAPVAL. -/
def raise (c : Cause) (s : State) : State := raiseWith c (slotVal s) s

/-- The bundle is held before issue (02 R52). -/
def hold (why : Nat) (s : State) : State := { s with issue := { s.issue with stop := some (.held why) } }

/-- The firmware bank's writes still in flight are discarded by tret. -/
def Pending.inBank (p : Pending) : Bool :=
  match p.put with
  | .s r _ => (24#5).ule r
  | _ => false

/-- Parked entries as they run on: VAR entries land in the first tick. -/
def runOn (l : List Pending) : List Pending := l.map fun p => { p with rem := if p.var then 1 else p.rem, own := false }

/-- tret (14 R356): leaves firmware mode; parked entries run on, VAR entries landing in the first resumed tick. A FETCHB of its own bundle
holds the next fetch too (07 R192). -/
def Core.tret (c : Core) : Core :=
  { c with
    fwm := false, regs := { c.regs with pc := c.trappc }
    pend := runOn c.lq ++ (c.pend.filter fun p => !p.inBank) ++ runOn c.heldVar
    lq := [], heldVar := [], stallrem := c.savedStall, divrem := c.savedDiv, savedStall := 0, savedDiv := 0
    bankS := Vector.replicate 8 0#64, bankTc := Vector.replicate 16 0#16
    tcd := [], branch := c.savedBranch.bind fun b => if b.2 = c.trappc then some b.1 else none, savedBranch := none
    fbuf := [], fetchb := c.savedFetchb || c.fetchb, savedFetchb := false }

/-! Issuing an instruction: its checks in order, then its effect. -/

/-- One check of an instruction's description: it fails when `bad`, with a cause and, if not the slot's word, a
TRAPVAL. -/
structure Check where
  bad : Bool
  cause : Cause
  val : Option W64 := none
deriving DecidableEq, Repr

/-- The first check that fails. -/
def firstBad (l : List Check) : Option Check := l.find? Check.bad

/-- Makes an instruction's checks in order, then its effect. Once every slot of the bundle has passed, the effects are
made without a second check (02 R51). -/
def guarded (checks : List Check) (eff : State → State) (s : State) : State :=
  if s.issue.commit then eff s
  else
    match firstBad checks with
    | some c => raiseWith c.cause (c.val.getD (slotVal s)) s
    | none => eff s

/-- Holds the bundle while a condition stands (02 R52); judged, as the checks are, before any slot of the bundle takes
effect. -/
def waitFor (cond : Bool) (why : Nat) (eff : State → State) (s : State) : State :=
  if cond && !s.issue.commit then hold why s else eff s

/-- Holds the bundle while a queue has no room, the commands of earlier slots counted (02 R52). -/
def waitRoom (full : Bool) (eff : State → State) (s : State) : State := if full then hold 4 s else eff s

/-- A result of fixed latency on its way, its register and tick claimed for the bundle. -/
def launchResult (p : Pending) (s : State) : State :=
  { s with core := { s.core with pend := s.core.pend ++ [p] }, issue := { s.issue with claims := s.issue.claims ++ [p] } }

/-- The WRITE_COLLISION check of a result (02 R55). -/
def collision (p : Pending) (s : State) : Check := { bad := clashes s p, cause := .writeCollision }

/-- An instruction whose whole effect is one result, with the collision check alone. -/
def result (p : Pending) (s : State) : State := guarded [collision p s] (launchResult p) s

/-- Writes a scalar register with a latency. -/
def writeS (lat : Nat) (d : Reg) (x : W64) (s : State) : State := result { rem := lat, put := .s d x } s
def writeK (lat : Nat) (d : KReg) (x : W64) (s : State) : State := result { rem := lat, put := .k d x } s
def writeN (lat : Nat) (d : NReg) (x : Name) (s : State) : State := result { rem := lat, put := .n d x } s

/-! The end of a bundle (02 R53, 03 R76). -/

/-- Distinct entries of a list. -/
def distinct : List (Nat × Nat) → List (Nat × Nat)
  | [] => []
  | x :: t => if t.contains x then distinct t else x :: distinct t

/-- Cycles lost to bank conflicts: the greatest number of distinct words in one bank of one buffer, less one (07 R180). -/
def bankFreeze (ws : List (Nat × Nat)) : Nat :=
  let ds := distinct ws
  (ds.foldl (fun m x => max m (ds.countP fun y => y.1 == x.1 && y.2 % 32 == x.2 % 32)) 0) - 1

/-- The loop step after a sequential bundle (03 R76): the next address and the count. -/
def Core.loopStep (c : Core) (nxt : Addr) : Core :=
  if nxt = c.regs.lpexit ∧ c.regs.lpcnt = 1#64 then
    { c with regs := { c.regs with lpcnt := 0#64, pc := nxt } }
  else if nxt = c.regs.lpexit ∧ c.regs.lpcnt ≠ 0#64 then
    { c with regs := { c.regs with lpcnt := c.regs.lpcnt - 1#64, pc := c.regs.lpbeg } }
  else { c with regs := { c.regs with pc := nxt } }

/-- The address after the bundle. -/
def nextPc (s : State) : Addr := s.core.regs.pc + BitVec.ofNat 56 s.issue.len

/-- Issues the bundle: the WAIT counter falls, the tick ends and results land, the next address is found by `go`, STALL ticks
are owed. -/
def closeWith (go : Core → Core) (s : State) : State :=
  let c := go (s.core.addTc s.issue.wait (-1)).tick
  let c := { c with stallrem := s.issue.stall.toNat, frozen := bankFreeze s.issue.words }.endCycle
  { s with core := c, issue := { s.issue with stop := some .closed } }

/-- The branch is taken: its target is the next address, and still to be checked. -/
def Core.branchFrom (b t : Addr) (c : Core) : Core := { c with branch := some b, regs := { c.regs with pc := t } }

/-- The next address of a bundle whose last word is no bundle-ending instruction of S1: the branch taken, or the loop step. -/
def closeBundle (s : State) : State :=
  match s.issue.redirect with
  | some t => closeWith (Core.branchFrom s.core.regs.pc t) s
  | none => closeWith (fun c => c.loopStep (nextPc s)) s

/-- A bundle with an instruction of S1 that decides the next bundle: a LOOP beside it sets the loop state but skips nothing, and
the loop step is taken (03 R77). -/
def closeStepped (s : State) : State := closeWith (fun c => c.loopStep (nextPc s)) s

/-- The same where no loop step follows (03 R76): the next address is the one in sequence. -/
def closeStraight (s : State) : State := closeWith (fun c => { c with regs := { c.regs with pc := nextPc s } }) s

end Sys2Proof.Machine
end

