-- ==== Sys2Proof/Machine/Operands.lean ====
section
/-! DEFINITION. Operand forms of the scalar, mask and name instructions: immediates, bit fields, name fields, condition
codes (03_scalar_registers R66 to R80). -/

namespace Sys2Proof.Machine

/-- What a meaning answers. -/
abbrev Out := Host.Outcome State Fault Refusal

/-- A 12-bit immediate, sign-extended (03 R73). -/
def imm64 (i : BitVec 12) : W64 := i.signExtend 64

/-- The address a branch offset names: the bundle plus four times the offset (02 R48). -/
def branchTo (s : State) (off : BitVec 17) : Addr := s.core.regs.pc + ((off.signExtend 56) <<< 2)

/-- A bit as a scalar. -/
def bit64 (b : Bool) : W64 := if b then 1#64 else 0#64

/-- Conditions of CMP (03 R70). -/
def cond (m : BitVec 4) (a b : W64) : Bool :=
  match m.toNat with
  | 0 => a == b
  | 1 => a != b
  | 2 => a.slt b
  | 3 => b.sle a
  | 4 => a.ult b
  | _ => b.ule a

/-- Leading zero bits of the low n bits. -/
def clzBits (x : Nat) : Nat → Nat
  | 0 => 0
  | n + 1 => if x.testBit n then 0 else 1 + clzBits x n

/-- Trailing zero bits of n bits. -/
def ctzBits (x : Nat) (n : Nat) : Nat := ctzUpTo x n

/-- The field descriptor of BFX and BFI (03 R71): position and width cut at bit 63. -/
def fieldPos (b : W64) : Nat := (b.extractLsb' 0 6).toNat
def fieldWidth (b : W64) : Nat := min (b.extractLsb' 8 7).toNat (64 - fieldPos b)

/-- BFX (03 R71). -/
def bitField (signed : Bool) (a b : W64) : W64 :=
  let w := fieldWidth b
  if w = 0 then 0#64
  else
    let f := (a >>> fieldPos b).toNat % 2 ^ w
    if signed then BitVec.ofInt 64 (signedOf w f) else BitVec.ofNat 64 f

/-- BFI (03 R71). -/
def bitInsert (d a b : W64) : W64 :=
  let w := fieldWidth b
  if w = 0 then d
  else
    let mask : W64 := BitVec.ofNat 64 ((2 ^ w - 1) <<< fieldPos b)
    (d &&& ~~~mask) ||| ((a <<< fieldPos b) &&& mask)

/-- Widths of SEXT and ZEXT (03 R72). -/
def extWidth (m : BitVec 4) : Nat :=
  match m.toNat with
  | 0 => 8 | 1 => 16 | 2 => 24 | 3 => 32 | _ => 48

/-- Division of DIV, truncated toward zero (03 R69). -/
def divS (a b : W64) : W64 := if b = 0#64 then BitVec.allOnes 64 else a.sdiv b
def divU (a b : W64) : W64 := if b = 0#64 then BitVec.allOnes 64 else a / b
def remS (a b : W64) : W64 := if b = 0#64 then a else a.srem b
def remU (a b : W64) : W64 := if b = 0#64 then a else a % b

/-- The high half of the signed and of the unsigned product (03 R68). -/
def mulHi (a b : W64) : W64 := ((a.signExtend 128) * (b.signExtend 128)).extractLsb' 64 64
def mulHiU (a b : W64) : W64 := ((a.zeroExtend 128) * (b.zeroExtend 128)).extractLsb' 64 64

/-- A name field: low bit and width by code (03 R66). -/
def nameField (m : BitVec 4) : Nat × Nat :=
  match m.toNat with
  | 0 => (64, 20) | 1 => (24, 10) | 2 => (34, 10) | 3 => (44, 10) | 4 => (54, 10)
  | 5 => (0, 24) | 6 => (24, 40) | 7 => (0, 64) | _ => (84, 12)

/-- A field of a name. -/
def nameGet (m : BitVec 4) (x : Name) : Nat := (x.toNat >>> (nameField m).1) % 2 ^ (nameField m).2

/-- A name with a field replaced by a value taken to the field's width. -/
def nameSet (m : BitVec 4) (x : Name) (v : Nat) : Name :=
  let (lo, w) := nameField m
  let mask : Name := BitVec.ofNat 96 ((2 ^ w - 1) <<< lo)
  (x &&& ~~~mask) ||| BitVec.ofNat 96 ((v % 2 ^ w) <<< lo)

/-- Fields of a name (10 R249). -/
def nGen (x : Name) : BitVec 24 := x.extractLsb' 0 24
def nCoord (x : Name) (i : Nat) : BitVec 10 := x.extractLsb' (24 + 10 * i) 10
def nTensor (x : Name) : BitVec 20 := x.extractLsb' 64 20
def nSpace (x : Name) : BitVec 12 := x.extractLsb' 84 12

/-- The region's space identifier, REGION.SPACE (03 R82). -/
def Core.space (c : Core) : BitVec 12 := c.region.extractLsb' 0 12
/-- The region's number. -/
def Core.regnum (c : Core) : Nat := (c.region.extractLsb' 16 4).toNat

/-- Fields of a firing identifier (01 R24). -/
def fidTask (f : W64) : BitVec 16 := f.extractLsb' 48 16
def fidGen (f : W64) : BitVec 24 := f.extractLsb' 24 24
def fidOrd (f : W64) : BitVec 24 := f.extractLsb' 0 24
def mkFid (task : BitVec 16) (gen ord : BitVec 24) : W64 := task ++ gen ++ ord

/-- The state with the core as its bundle issues: an effect of an earlier slot does not show (02 R47). -/
def State.issued (s : State) : State := { s with core := s.issue.core0.getD s.core }

/-- The value CTLRD returns, none for an unassigned number (03 R81, 14 R352). -/
def ctlValue (s : State) (num : Nat) : Option W64 :=
  let c := s.core
  let z {w : Nat} (x : BitVec w) : Option W64 := some (x.zeroExtend 64)
  match num with
  | 0x000 => some c.regs.fireid
  | 0x001 => z (fidTask c.regs.fireid)
  | 0x002 => z (fidGen c.regs.fireid)
  | 0x003 => z c.region
  | 0x004 => z c.ncore
  | 0x005 => z c.regw
  | 0x006 => z c.regh
  | 0x007 => z c.regs.prio
  | 0x008 => some (bit64 c.detmode)
  | 0x009 => z c.regs.fpmode
  | 0x00A => z c.regs.fpstat
  | 0x00B => z c.netw
  | 0x010 => z c.trapcause
  | 0x011 => z c.trappc
  | 0x012 => some c.trapval
  | 0x013 => z c.trapvec
  | 0x018 => some c.cycle
  | 0x019 => z c.round
  | 0x01A => z c.lrskip
  | 0x01C => some c.regs.lpcnt
  | 0x01D => z c.regs.lpbeg
  | 0x01E => z c.regs.lpexit
  | 0x100 => some (0#61 ++ BitVec.ofBool (c.lq.any Pending.var) ++ BitVec.ofBool c.hreq ++ BitVec.ofBool c.fwm)
  | 0x101 => z c.wdlim
  | 0x102 => z c.stagger
  | 0x103 => some (BitVec.ofNat 64 c.lq.length)
  | 0x104 => some (BitVec.ofNat 64 (min 16 c.faults.length))
  | 0x105 => z c.dbgen
  | 0x106 => some c.rseq
  | n =>
    if 0x020 ≤ n ∧ n < 0x040 then z (c.exphist[n % 32]'(Nat.mod_lt _ (by decide)))
    else if 0x110 ≤ n ∧ n < 0x118 then some (c.regs.s[24 + n % 8]'(by omega))
    else if 0x121 ≤ n ∧ n < 0x130 then z (c.regs.tc[n % 16]'(Nat.mod_lt _ (by decide)))
    else none

/-- A number of the firmware block 0x100 to 0x1FF (03 R84). -/
def isFwNum (num : Nat) : Bool := decide (0x100 ≤ num) && decide (num < 0x200)

/-- Access by CTLWR outside firmware (03 R81): FPMODE, FPSTAT, NETW and the EXPHIST bins. -/
def userWritable (num : Nat) : Bool := num == 0x009 || num == 0x00A || num == 0x00B || (decide (0x020 ≤ num) && decide (num < 0x040))

end Sys2Proof.Machine
end

