-- ==== Sys2Proof/Machine/Control.lean ====
section
/-! DEFINITION. Group 0x2: branches and the hardware loop (03_scalar_registers R75 to R77), and the two header-only bundles
(02 R40, R53). A taken branch sets the address of the next bundle; its target is checked when it is fetched (02 R48). -/

namespace Sys2Proof.Machine

/-- The branch is taken: the next bundle is at the target. -/
def takeBranch (t : Addr) (s : State) : State := { s with issue := { s.issue with redirect := some t } }

def branchIf (c : Bool) (off : BitVec 17) (s : State) : State := if c then takeBranch (branchTo s off) s else s

def execBr (off : BitVec 17) (s : State) : Out := .next (branchIf true off s)
def execBrz (a : Reg) (off : BitVec 17) (s : State) : Out := .next (branchIf (sreg s a == 0#64) off s)
def execBrnz (a : Reg) (off : BitVec 17) (s : State) : Out := .next (branchIf (sreg s a != 0#64) off s)
def execBrany (a : KReg) (off : BitVec 17) (s : State) : Out := .next (branchIf (kreg s a != 0#64) off s)
def execBrnone (a : KReg) (off : BitVec 17) (s : State) : Out := .next (branchIf (kreg s a == 0#64) off s)

/-- JAL: links the address after the bundle, latency 1. -/
def execJal (a : Reg) (off : BitVec 17) (s : State) : Out :=
  let p : Pending := { rem := 1, put := .s a ((nextPc s).zeroExtend 64) }
  .next (guarded [collision p s] (fun s => branchIf true off (launchResult p s)) s)

def execJr (a : Reg) (s : State) : Out := .next (takeBranch ((sreg s a).truncate 56) s)

/-- LOOP and LOOPI (R76): the exit must lie beyond the next bundle; a zero count skips to the exit. The loop registers are written
at the end of the tick: other slots of the bundle read their old values (02 R47). -/
def setLoop (cnt : W64) (off : BitVec 17) (s : State) : State :=
  let x := branchTo s off
  let p : Pending := { rem := 1, put := .loop (nextPc s) x cnt }
  guarded [collision p s, { bad := x.ule (nextPc s), cause := .illegalOp }]
    (fun s => if cnt = 0#64 then takeBranch x (launchResult p s) else launchResult p s) s

def execLoop (a : Reg) (off : BitVec 17) (s : State) : Out := .next (setLoop (sreg s a) off s)
def execLoopi (a : Reg) (off : BitVec 17) (s : State) : Out :=
  .next (setLoop (if a = 0#5 then 32#64 else a.zeroExtend 64) off s)

/-- A bundle whose WAIT counter is zero is held (02 R53). -/
def waitHeld (s : State) : Bool := s.issue.wait != 0#4 && s.core.tc s.issue.wait == 0#16

/-- A header-only bundle (02 R40): waits, then closes. -/
def headerOnly (w stl : BitVec 4) (s : State) : State :=
  let s := { s with issue := { s.issue with wait := w, stall := stl } }
  waitFor (waitHeld s) 0 closeBundle s

def execNop (w stl : BitVec 4) (s : State) : Out := .next (headerOnly w stl s)
def execWaitPoint (w : BitVec 4) (s : State) : Out := .next (headerOnly w 0#4 s)

end Sys2Proof.Machine
end

