-- ==== Sys2Proof/WellFormed.lean ====
section
/-! DEFINITION. Which terms of the syntax are instructions: the operand limits of the descriptions, which an encoding
outside them breaks with ILLEGAL_OP (02_bundles R45), and the shapes of header-only bundles (R40). Edge words are held
to 15_edge_fabric R378, R381 and R382 as far as the word alone shows. -/

namespace Sys2Proof

/-- A source port of an element word (15 R378): a queue, the literal. -/
def srcPort (p : BitVec 5) : Bool := p.ule 16#5

/-- A destination port of an element word (15 R378): a neighbour, the element itself, or none. -/
def dstPort (p : BitVec 5) : Bool := (17#5).ule p && p.ule 22#5

/-- A queue of the element. -/
def queuePort (p : BitVec 5) : Bool := p.ule 15#5

/-- A tag action (15 R382). -/
def tagAct (t : BitVec 4) : Bool := t.ule 7#4

/-- A tag action, with an LSEL that is 0 unless source B or the action takes the literal (15 R378, R381, R382). -/
def LitTag.wf (t : LitTag) (b : BitVec 5) : Bool := tagAct t.act && (t.lit == 0#2 || b == 0x10#5 || t.act == 4#4)

/-- An operand field of an instruction that the description refuses makes the term ill-formed. -/
def Instr.wf : Instr → Bool
  | .nop _ stl => stl != 0#4
  | .waitPoint w => w != 0#4
  | .add _ _ _ => true
  | .sub _ _ _ => true
  | .mul _ _ _ => true
  | .mulh _ _ _ => true
  | .mulhu _ _ _ => true
  | .div _ _ _ => true
  | .divu _ _ _ => true
  | .rem _ _ _ => true
  | .remu _ _ _ => true
  | .and _ _ _ => true
  | .or _ _ _ => true
  | .xor _ _ _ => true
  | .andn _ _ _ => true
  | .shl _ _ _ => true
  | .shr _ _ _ => true
  | .sra _ _ _ => true
  | .rol _ _ _ => true
  | .min _ _ _ => true
  | .max _ _ _ => true
  | .minu _ _ _ => true
  | .maxu _ _ _ => true
  | .cmp _ _ _ m => m.ule 5#4
  | .sel _ _ _ => true
  | .clz _ _ => true
  | .ctz _ _ => true
  | .popc _ _ => true
  | .bfx _ _ _ m => (m == 0#4 || m == 1#4)
  | .bfi _ _ _ => true
  | .sext _ _ m => m.ule 4#4
  | .zext _ _ m => m.ule 4#4
  | .addx _ _ _ _ => true
  | .mov _ _ => true
  | .addi _ _ _ => true
  | .andi _ _ _ => true
  | .ori _ _ _ => true
  | .xori _ _ _ => true
  | .shli _ _ _ => true
  | .shri _ _ _ => true
  | .srai _ _ _ => true
  | .cmpi _ _ _ => true
  | .lit _ a _ md => md.ule 2#10 && (md == 2#10 || a == 0#5)
  | .lit64 _ _ => true
  | .muli _ _ _ => true
  | .br _ => true
  | .brz _ _ => true
  | .brnz _ _ => true
  | .brany _ _ => true
  | .brnone _ _ => true
  | .jal _ _ => true
  | .jr _ => true
  | .loop _ _ => true
  | .loopi _ _ => true
  | .kand _ _ _ => true
  | .kor _ _ _ => true
  | .kxor _ _ _ => true
  | .kandn _ _ _ => true
  | .knot _ _ => true
  | .kmov _ _ => true
  | .ktos _ _ => true
  | .kpopc _ _ => true
  | .kfirst _ _ => true
  | .ksetn _ _ m => (m == 0#4 || m == 1#4)
  | .nmk _ _ _ => true
  | .nset _ _ m => m.ule 8#4
  | .nget _ _ m => m.ule 8#4
  | .nadd _ _ _ m => m.ule 6#4
  | .nmov _ _ => true
  | .ncmp _ _ _ m => (m == 0#4 || m == 1#4 || m == 2#4)
  | .vadd _ _ _ _ m => (m == 1#4 || m == 2#4 || m == 3#4 || m == 4#4 || m == 5#4 || m == 12#4)
  | .vsub _ _ _ _ m => (m == 1#4 || m == 2#4 || m == 3#4 || m == 4#4 || m == 5#4 || m == 12#4)
  | .vmul _ _ _ _ m => (m == 1#4 || m == 2#4 || m == 3#4 || m == 4#4 || m == 5#4 || m == 12#4)
  | .vfma _ _ _ _ m => (m == 1#4 || m == 2#4 || m == 3#4 || m == 4#4 || m == 5#4 || m == 12#4)
  | .vfms _ _ _ _ m => (m == 1#4 || m == 2#4 || m == 3#4 || m == 4#4 || m == 5#4 || m == 12#4)
  | .vmin _ _ _ _ m => (m == 1#4 || m == 2#4 || m == 3#4 || m == 4#4 || m == 5#4 || m == 12#4)
  | .vmax _ _ _ _ m => (m == 1#4 || m == 2#4 || m == 3#4 || m == 4#4 || m == 5#4 || m == 12#4)
  | .vabs _ _ _ m => (m == 1#4 || m == 2#4 || m == 3#4 || m == 4#4 || m == 5#4 || m == 12#4)
  | .vneg _ _ _ m => (m == 1#4 || m == 2#4 || m == 3#4 || m == 4#4 || m == 5#4 || m == 12#4)
  | .vand _ _ _ _ => true
  | .vor _ _ _ _ => true
  | .vxor _ _ _ _ => true
  | .vshl _ _ _ _ m => (m == 1#4 || m == 2#4 || m == 12#4)
  | .vshr _ _ _ _ m => (m == 1#4 || m == 2#4 || m == 12#4)
  | .vsra _ _ _ _ m => (m == 1#4 || m == 2#4 || m == 12#4)
  | .vcmp _ _ _ _ _ => true
  | .vsel _ _ _ _ => true
  | .vmov _ _ _ => true
  | .vbcast _ _ _ m => (m == 0#4 || m == 1#4 || m == 2#4 || m == 3#4 || m == 4#4 || m == 5#4 || m == 12#4)
  | .vdot4 _ _ _ _ => true
  | .vdot2 _ _ _ _ m => (m == 4#4 || m == 5#4 || m == 12#4)
  | .vsat _ _ _ _ m => (m == 1#4 || m == 2#4 || m == 3#4 || m == 4#4 || m == 5#4 || m == 12#4)
  | .vclz _ _ _ m => (m == 1#4 || m == 2#4 || m == 12#4)
  | .vpopc _ _ _ m => (m == 1#4 || m == 2#4 || m == 12#4)
  | .vmulh _ _ _ _ m => (m == 1#4 || m == 2#4 || m == 12#4)
  | .vcvt _ _ _ _ m => (m == 1#4 || m == 2#4 || m == 3#4 || m == 4#4 || m == 5#4 || m == 12#4)
  | .vqmx _ _ m => (6#4).ule m && m.ule 11#4
  | .vdqmx _ _ _ m => m.ule 3#4
  | .vtag _ _ m => m.ule 13#4
  | .vgtag _ _ m => (m == 0#4 || m == 1#4)
  | .vperm _ _ _ _ => true
  | .vshuf _ _ _ _ => true
  | .vrot _ _ _ _ => true
  | .vslide _ _ _ _ _ => true
  | .vpack _ _ _ m => m.ule 3#4
  | .vunpk _ _ m => m.ule 3#4
  | .vcmprs _ _ _ => true
  | .vexpnd _ _ _ => true
  | .viota _ _ _ => true
  | .vextr _ _ _ m => (m == 0#4 || m == 1#4)
  | .vins _ _ _ => true
  | .vscl _ _ _ m => (m == 0#4 || m == 1#4)
  | .vredadd _ _ _ m => (m == 1#4 || m == 3#4)
  | .vredmin _ _ _ m => (m == 1#4 || m == 3#4)
  | .vredmax _ _ _ m => (m == 1#4 || m == 3#4)
  | .vscan _ _ _ m => (m == 1#4 || m == 3#4)
  | .vtopk d a b _ m => !d.getLsbD 0 && !a.getLsbD 0 && !b.getLsbD 0 && (m == 1#4 || m == 3#4)
  | .vsorts d a _ m => !d.getLsbD 0 && !a.getLsbD 0 && (m == 1#4 || m == 3#4)
  | .vargmx _ _ _ m => (m == 1#4 || m == 3#4)
  | .vrand _ _ _ _ => true
  | .vhistx d _ _ m => (m == 0#4 || m == 1#4) && (m != 0#4 || d == 0#5)
  | .vredx _ _ b _ m => (m == 0#4 || m == 1#4) && (m != 1#4 || b == 0#5)
  | .vrndx _ _ m => (m == 3#4 || m == 4#4 || m == 5#4)
  | .vlut _ _ _ _ => true
  | .fexp2 _ _ _ m => (m == 3#4 || m == 4#4 || m == 5#4)
  | .flog2 _ _ _ m => (m == 3#4 || m == 4#4 || m == 5#4)
  | .frcp _ _ _ m => (m == 3#4 || m == 4#4 || m == 5#4)
  | .frsq _ _ _ m => (m == 3#4 || m == 4#4 || m == 5#4)
  | .fsqrt _ _ _ m => (m == 3#4 || m == 4#4 || m == 5#4)
  | .fdiv _ _ _ _ m => (m == 3#4 || m == 4#4 || m == 5#4)
  | .ftanh _ _ _ m => (m == 3#4 || m == 4#4 || m == 5#4)
  | .fsigm _ _ _ m => (m == 3#4 || m == 4#4 || m == 5#4)
  | .fsin _ _ _ m => (m == 3#4 || m == 4#4 || m == 5#4)
  | .fcos _ _ _ m => (m == 3#4 || m == 4#4 || m == 5#4)
  | .ferf _ _ _ m => (m == 3#4 || m == 4#4 || m == 5#4)
  | .mlds _ => true
  | .mma _ _ _ => true
  | .mmas _ _ _ => true
  | .mzero _ _ => true
  | .mdrain _ _ b _ m => b.ule 3#5 && (m == 1#4 || m == 3#4 || m == 4#4 || m == 5#4)
  | .mrdv _ _ _ m => (m == 1#4 || m == 3#4)
  | .mwrv _ _ _ _ m => (m == 1#4 || m == 3#4)
  | .mmode _ => true
  | .mwait _ => true
  | .mtrw _ m => (m == 2#4 || m == 4#4 || m == 6#4 || m == 7#4 || m == 8#4 || m == 9#4 || m == 10#4 || m == 11#4)
  | .ld _ _ _ => true
  | .st _ _ _ => true
  | .vld _ _ sp _ => (sp == 0#2 || sp == 1#2 || sp == 2#2)
  | .vst _ _ sp _ => (sp == 0#2 || sp == 1#2 || sp == 2#2)
  | .vlds _ _ _ _ sp _ => (sp == 0#2 || sp == 1#2 || sp == 2#2)
  | .vsts _ _ _ _ sp _ => (sp == 0#2 || sp == 1#2 || sp == 2#2)
  | .vgath _ _ _ _ sp _ => (sp == 0#2 || sp == 1#2 || sp == 2#2)
  | .vscat _ _ _ _ sp _ => (sp == 0#2 || sp == 1#2 || sp == 2#2)
  | .ldw _ _ sp _ => (sp == 0#2 || sp == 1#2)
  | .vldw _ _ sp _ => (sp == 0#2 || sp == 1#2 || sp == 2#2)
  | .qld _ _ t s => t != 0#4 && (s == 16#6 || s == 17#6 || s == 20#6 || s == 21#6)
  | .qst _ _ _ s => (s == 16#6 || s == 17#6 || s == 20#6 || s == 21#6)
  | .talloc _ _ b m => (m == 0#4 || m == 1#4) && (m != 1#4 || b == 0#5)
  | .tfree _ => true
  | .tstat _ _ => true
  | .twait _ _ m => m != 0#4
  | .tset _ b m => m.ule 3#4 && (m != 2#4 || b == 0#5) && (m != 3#4 || b == 0#5)
  | .icinv a m => (m == 0#4 || m == 1#4) && (m != 1#4 || a == 0#5)
  | .gld _ _ _ t s => t != 0#4 && (s.extractLsb' 3 3).ule 5#3 && (s.extractLsb' 0 3).ule 3#3
  | .gst _ _ _ _ s => (s.extractLsb' 3 3).ule 5#3 && ((s.extractLsb' 0 3) == 0#3 || (s.extractLsb' 0 3) == 1#3 || (s.extractLsb' 0 3) == 3#3)
  | .vgld _ _ _ t s => t != 0#4 && (s.extractLsb' 3 3).ule 5#3 && ((s.extractLsb' 0 3) == 0#3)
  | .vgst _ _ _ _ s => (s.extractLsb' 3 3).ule 5#3 && ((s.extractLsb' 0 3) == 0#3)
  | .ldacq _ _ _ t s => t != 0#4 && (s.extractLsb' 3 3).ule 5#3 && ((s.extractLsb' 0 3) == 0#3 || (s.extractLsb' 0 3) == 1#3)
  | .strel _ _ _ _ s => (s.extractLsb' 3 3).ule 5#3 && ((s.extractLsb' 0 3) == 0#3 || (s.extractLsb' 0 3) == 1#3)
  | .promacq _ _ _ t s => t != 0#4 && s.extractLsb' 3 3 == 4#3 && ((s.extractLsb' 0 3) == 0#3 || (s.extractLsb' 0 3) == 1#3)
  | .fence _ _ s => (s.extractLsb' 3 3).ule 5#3 && ((s.extractLsb' 0 3) == 0#3 || (s.extractLsb' 0 3) == 1#3)
  | .atom d _ _ _ s => (s.extractLsb' 3 3).ule 5#3 && (s.extractLsb' 0 3 != 7#3 || (!d.getLsbD 0 && d != 0#5))
  | .atomr d _ _ t s => t != 0#4 && (s.extractLsb' 3 3).ule 5#3 && (s.extractLsb' 0 3 != 7#3 || (!d.getLsbD 0 && d != 0#5))
  | .mred d _ _ _ s => (s.extractLsb' 3 3).ule 5#3 && (s.extractLsb' 0 3).ule 3#3 && (!s.getLsbD 1 || d == 0#5)
  | .mredrd _ _ _ t s => t != 0#4 && (s.extractLsb' 3 3).ule 5#3 && ((s.extractLsb' 0 3) == 0#3 || (s.extractLsb' 0 3) == 1#3 || (s.extractLsb' 0 3) == 2#3 || (s.extractLsb' 0 3) == 4#3 || (s.extractLsb' 0 3) == 5#3 || (s.extractLsb' 0 3) == 6#3)
  | .clwb a _ _ s => s.extractLsb' 3 3 == 0#3 && ((s.extractLsb' 0 3) == 0#3 || (s.extractLsb' 0 3) == 1#3) && (!s.getLsbD 0 || a == 0#5)
  | .clinv a _ _ s => s.extractLsb' 3 3 == 0#3 && ((s.extractLsb' 0 3) == 0#3 || (s.extractLsb' 0 3) == 1#3) && (!s.getLsbD 0 || a == 0#5)
  | .xcopy _ _ _ t _ => t != 0#4
  | .xgath _ _ _ t _ => t != 0#4
  | .xscat _ _ _ t _ => t != 0#4
  | .xfill _ _ _ t _ => t != 0#4
  | .subName _ _ => true
  | .unsub _ => true
  | .pub _ _ m => (m == 0#4 || m == 1#4)
  | .pubr _ _ => true
  | .ropen _ _ _ m => (m == 3#4 || m == 4#4 || m == 5#4)
  | .resub _ _ => true
  | .nhold _ _ m => (m == 0#4 || m == 1#4)
  | .nrel _ => true
  | .nqry _ _ m => m != 0#4
  | .pubx _ _ _ t _ => t != 0#4
  | .spawn _ => true
  | .launchr _ _ _ => true
  | .tcadd _ m => m != 0#4
  | .tcrd _ m => m != 0#4
  | .tcwait _ m => m != 0#4
  | .bar a b m => a.ule 5#5 && b.ule 1#5 && m != 0#4
  | .barrd _ a => a.ule 5#5
  | .timeq _ m => m != 0#4
  | .stamp _ => true
  | .prio _ => true
  | .ecfg _ _ _ => true
  | .ego _ _ => true
  | .estat _ _ m => m != 0#4
  | .eabort _ _ => true
  | .trap _ => true
  | .tret m => (m == 0#4 || m == 1#4)
  | .ctlrd _ _ => true
  | .ctlwr _ _ => true
  | .brk _ => true
  | .evpost _ _ _ => true
  | .moncfg _ _ => true
  | .monrd _ _ m => m != 0#4
  | .haltc _ => true
  | .ctxsv _ => true
  | .ctxld _ _ => true
  | .xadd a b d t => queuePort a && srcPort b && dstPort d && t.wf b
  | .xrnd a d t _ => queuePort a && dstPort d && tagAct t
  | .cvt a d t _ => queuePort a && dstPort d && tagAct t
  | .qmx a d t _ => queuePort a && dstPort d && tagAct t
  | .dqmx a d t => queuePort a && dstPort d && t.wf 0x16#5
  | .cmpz a d t => queuePort a && dstPort d && t.wf 0x16#5
  | .dcmpz a d t => queuePort a && dstPort d && t.wf 0x16#5
  | .mrr a b d t => queuePort a && srcPort b && dstPort d && t.wf b
  | .mtag a b d t => queuePort a && srcPort b && dstPort d && t.wf b
  | .splitE a d e t _ => queuePort a && dstPort d && dstPort e && tagAct t
  | .dup a d e t => queuePort a && dstPort d && dstPort e && t.wf 0x16#5
  | .gate a b d t => queuePort a && srcPort b && dstPort d && t.wf b
  | .steer a d e t _ => queuePort a && dstPort d && dstPort e && tagAct t
  | .cnt a d e t => queuePort a && dstPort d && dstPort e && t.wf 0x16#5
  | .lim a d t _ => queuePort a && dstPort d && tagAct t
  | .fifo a d t _ => queuePort a && dstPort d && tagAct t
  | .pack a b d t => queuePort a && srcPort b && dstPort d && t.wf b
  | .unpk a d e t => queuePort a && dstPort d && dstPort e && t.wf 0x16#5
  | .scl a d t _ => queuePort a && dstPort d && tagAct t
  | .hist a d e t => queuePort a && dstPort d && dstPort e && t.wf 0x16#5
  | .eosg a d t _ => queuePort a && dstPort d && tagAct t
  | .sink a _ => queuePort a
  | .srcn a d t => queuePort a && dstPort d && t.wf 0x16#5
  | .pubn a d e t => queuePort a && queuePort d && dstPort e && t.wf 0x16#5
  | .rin a d t => queuePort a && dstPort d && t.wf 0x16#5
  | .rout a d t => queuePort a && queuePort d && t.wf 0x16#5
  | .edgeNop a d t => queuePort a && dstPort d && t.wf 0x16#5
  | .halte a => queuePort a
  | .mswap => true
  | .fetchb => true
  | .fend => true
  | .yield => true
  | .matrixCmdStart => true
  | .matrixCmdComplete => true
  | .remoteQaccess => true
  | .icinvTakeEffect => true
  | .icacheFill => true
  | .gcacheFill => true
  | .promotionRequest => true
  | .fenceComplete => true
  | .engineCmdStart => true
  | .engineCmdComplete => true
  | .agentRequest => true
  | .hostRequestTimeout => true
  | .varResultLand => true
  | .resultWrite => true
  | .boundaryFault => true
  | .publicationRead => true
  | .subscriptionToken => true
  | .unsubscriptionToken => true
  | .publicationHop => true
  | .publicationAtHome => true
  | .subscriptionAtHome => true
  | .withdrawalAtHome => true
  | .nholdAtHome => true
  | .nrelAtHome => true
  | .nqryAtHome => true
  | .heldTokenRetry => true
  | .fallThroughFetch => true
  | .tileDelivery => true
  | .handOver => true
  | .contributionToken => true
  | .slotFlush => true
  | .contributionAtHome => true
  | .ropenAtHome => true
  | .reductionPublish => true
  | .lqtailDoorbell => true
  | .launch => true
  | .abort => true
  | .regionComplete => true
  | .schedulerSelect => true
  | .firingRetire => true
  | .launchrRun => true
  | .ecfgImageRead => true
  | .shadowCommit => true
  | .estatArrival => true
  | .eabortArrival => true
  | .periodStart => true
  | .bindingArm => true
  | .elementTokenArrival => true
  | .periodEnd => true
  | .inactivityTimeout => true
  | .drainWatchdog => true
  | .linkBeatResend => true
  | .podFormation => true
  | .seamFailure => true
  | .netwUpdate => true
  | .barrierArrival => true
  | .barrierCompletion => true
  | .waferTimeBeacon => true
  | .moncfgApply => true
  | .captureSample => true
  | .levelSample => true
  | .captureGrantWrite => true
  | .watchdog => true
  | .preemptHalt => true
  | .preemptResume => true
  | .coreHalt => true
  | .saveSequence => true
  | .landingEntryLand => true
  | .coreFailure => true
  | .coreSave => true
  | .eventRecordWrite => true
  | .eqheadWrite => true
  | .dbgselWrite => true
  | .dbgctlHalt => true
  | .dbgctlResume => true
  | .debugApertureRead => true
  | .debugApertureWrite => true
  | .debugWritePerform => true
  | .debugWriteTimeout => true
  | .bootctlRestart => true
  | .bootctlValid => true
  | .wtsetWrite => true
  | .attctlGo => true
  | .attestationReport => true
  | .registerWrite => true
  | .powerGood => true
  | .romSelfTest => true
  | .romCoreTest => true
  | .phaseOverrun => true
  | .seamTraining => true
  | .seamTrainTimeout => true
  | .electRoundMessage => true
  | .claim => true
  | .claimWindowClose => true
  | .lead => true
  | .leadTimeout => true
  | .noleader => true
  | .bootDescriptorPoll => true
  | .firmwareFetch => true
  | .firmwareReceive => true
  | .followerReportTimeout => true
  | .enumeration => true
  | .enumTimeout => true
  | .coolantOvertemp => true
  | .checkpointRestart => true
  | .translationCacheInvalidate => true
  | .linkTokenArrival => true
  | .bridgeAttachmentTraining => true

end Sys2Proof
end

