-- ==== Sys2Proof/Decode.lean ====
section
/-! DEFINITION. The decoder of slot words (02_bundles R42 to R50) and of element words (15_edge_fabric R381), and the
encoder written from the same encoding tables. -/

namespace Sys2Proof

/-! Fields of a slot word (02 R42). -/

def fGroup (w : Word) : BitVec 4 := w.extractLsb' 28 4
def fMinor (w : Word) : BitVec 6 := w.extractLsb' 22 6
def fD (w : Word) : Reg := w.extractLsb' 17 5
def fA (w : Word) : Reg := w.extractLsb' 12 5
def fB (w : Word) : Reg := w.extractLsb' 7 5
def fK (w : Word) : KReg := w.extractLsb' 4 3
def fM (w : Word) : BitVec 4 := w.extractLsb' 0 4
def fImm (w : Word) : BitVec 12 := w.extractLsb' 0 12
def fIdx (w : Word) : BitVec 2 := w.extractLsb' 10 2
def fMod (w : Word) : BitVec 10 := w.extractLsb' 0 10
def fOffJ (w : Word) : BitVec 17 := w.extractLsb' 0 17
def fSp (w : Word) : BitVec 2 := w.extractLsb' 10 2
def fOff (w : Word) : BitVec 10 := w.extractLsb' 0 10
def fSpR (w : Word) : BitVec 2 := w.extractLsb' 2 2
def fZ (w : Word) : BitVec 2 := w.extractLsb' 0 2
def fT (w : Word) : BitVec 4 := w.extractLsb' 6 4
def fS (w : Word) : BitVec 6 := w.extractLsb' 0 6
def fTX (w : Word) : BitVec 4 := w.extractLsb' 3 4
def fSpX (w : Word) : BitVec 2 := w.extractLsb' 1 2

/-- A register field of the mask file: values 8 to 31 exceed it (R45). -/
def inK (r : Reg) : Bool := r.ule 7#5
/-- A register field of the name file. -/
def inN (r : Reg) : Bool := r.ule 15#5
/-- A register field of the window file. -/
def inW (r : Reg) : Bool := r.ule 3#5

def toK (r : Reg) : KReg := r.truncate 3
def toN (r : Reg) : NReg := r.truncate 4
def toW (r : Reg) : WReg := r.truncate 2

/-- `i` if the fields it does not use are zero and its register fields lie in their files, and if it is well formed. -/
def keep (c : Bool) (i : Instr) : Option Instr := if c && i.wf then some i else none

/-- Group 0x0 by minor opcode (R50). -/
def decodeG0 (w : Word) : Nat → Option Instr
  | 0x00 => keep (fK w == 0#3 && fM w == 0#4) (.add (fD w) (fA w) (fB w))
  | 0x01 => keep (fK w == 0#3 && fM w == 0#4) (.sub (fD w) (fA w) (fB w))
  | 0x02 => keep (fK w == 0#3 && fM w == 0#4) (.mul (fD w) (fA w) (fB w))
  | 0x03 => keep (fK w == 0#3 && fM w == 0#4) (.mulh (fD w) (fA w) (fB w))
  | 0x04 => keep (fK w == 0#3 && fM w == 0#4) (.mulhu (fD w) (fA w) (fB w))
  | 0x05 => keep (fK w == 0#3 && fM w == 0#4) (.div (fD w) (fA w) (fB w))
  | 0x06 => keep (fK w == 0#3 && fM w == 0#4) (.divu (fD w) (fA w) (fB w))
  | 0x07 => keep (fK w == 0#3 && fM w == 0#4) (.rem (fD w) (fA w) (fB w))
  | 0x08 => keep (fK w == 0#3 && fM w == 0#4) (.remu (fD w) (fA w) (fB w))
  | 0x09 => keep (fK w == 0#3 && fM w == 0#4) (.and (fD w) (fA w) (fB w))
  | 0x0A => keep (fK w == 0#3 && fM w == 0#4) (.or (fD w) (fA w) (fB w))
  | 0x0B => keep (fK w == 0#3 && fM w == 0#4) (.xor (fD w) (fA w) (fB w))
  | 0x0C => keep (fK w == 0#3 && fM w == 0#4) (.andn (fD w) (fA w) (fB w))
  | 0x0D => keep (fK w == 0#3 && fM w == 0#4) (.shl (fD w) (fA w) (fB w))
  | 0x0E => keep (fK w == 0#3 && fM w == 0#4) (.shr (fD w) (fA w) (fB w))
  | 0x0F => keep (fK w == 0#3 && fM w == 0#4) (.sra (fD w) (fA w) (fB w))
  | 0x10 => keep (fK w == 0#3 && fM w == 0#4) (.rol (fD w) (fA w) (fB w))
  | 0x11 => keep (fK w == 0#3 && fM w == 0#4) (.min (fD w) (fA w) (fB w))
  | 0x12 => keep (fK w == 0#3 && fM w == 0#4) (.max (fD w) (fA w) (fB w))
  | 0x13 => keep (fK w == 0#3 && fM w == 0#4) (.minu (fD w) (fA w) (fB w))
  | 0x14 => keep (fK w == 0#3 && fM w == 0#4) (.maxu (fD w) (fA w) (fB w))
  | 0x15 => keep (fK w == 0#3) (.cmp (fD w) (fA w) (fB w) (fM w))
  | 0x16 => keep (fK w == 0#3 && fM w == 0#4) (.sel (fD w) (fA w) (fB w))
  | 0x17 => keep (fB w == 0#5 && fK w == 0#3 && fM w == 0#4) (.clz (fD w) (fA w))
  | 0x18 => keep (fB w == 0#5 && fK w == 0#3 && fM w == 0#4) (.ctz (fD w) (fA w))
  | 0x19 => keep (fB w == 0#5 && fK w == 0#3 && fM w == 0#4) (.popc (fD w) (fA w))
  | 0x1A => keep (fK w == 0#3) (.bfx (fD w) (fA w) (fB w) (fM w))
  | 0x1B => keep (fK w == 0#3 && fM w == 0#4) (.bfi (fD w) (fA w) (fB w))
  | 0x1C => keep (fB w == 0#5 && fK w == 0#3) (.sext (fD w) (fA w) (fM w))
  | 0x1D => keep (fB w == 0#5 && fK w == 0#3) (.zext (fD w) (fA w) (fM w))
  | 0x1E => keep (fK w == 0#3) (.addx (fD w) (fA w) (fB w) (fM w))
  | 0x1F => keep (fB w == 0#5 && fK w == 0#3 && fM w == 0#4) (.mov (fD w) (fA w))
  | _ => none

/-- Group 0x1 by minor opcode (R50). -/
def decodeG1 (w : Word) : Nat → Option Instr
  | 0x00 => keep true (.addi (fD w) (fA w) (fImm w))
  | 0x01 => keep true (.andi (fD w) (fA w) (fImm w))
  | 0x02 => keep true (.ori (fD w) (fA w) (fImm w))
  | 0x03 => keep true (.xori (fD w) (fA w) (fImm w))
  | 0x04 => keep (w.extractLsb' 6 6 == 0#6) (.shli (fD w) (fA w) (w.extractLsb' 0 6))
  | 0x05 => keep (w.extractLsb' 6 6 == 0#6) (.shri (fD w) (fA w) (w.extractLsb' 0 6))
  | 0x06 => keep (w.extractLsb' 6 6 == 0#6) (.srai (fD w) (fA w) (w.extractLsb' 0 6))
  | 0x07 => keep true (.cmpi (fD w) (fA w) (fImm w))
  | 0x08 => keep true (.lit (fD w) (fA w) (fIdx w) (fMod w))
  | 0x09 => keep (fA w == 0#5 && fMod w == 0#10) (.lit64 (fD w) (fIdx w))
  | 0x0A => keep true (.muli (fD w) (fA w) (fImm w))
  | _ => none

/-- Group 0x2 by minor opcode (R50). -/
def decodeG2 (w : Word) : Nat → Option Instr
  | 0x00 => keep (fD w == 0#5) (.br (fOffJ w))
  | 0x01 => keep true (.brz (fD w) (fOffJ w))
  | 0x02 => keep true (.brnz (fD w) (fOffJ w))
  | 0x03 => keep (inK (fD w)) (.brany (toK (fD w)) (fOffJ w))
  | 0x04 => keep (inK (fD w)) (.brnone (toK (fD w)) (fOffJ w))
  | 0x05 => keep true (.jal (fD w) (fOffJ w))
  | 0x06 => keep (fD w == 0#5 && fB w == 0#5 && fK w == 0#3 && fM w == 0#4) (.jr (fA w))
  | 0x07 => keep true (.loop (fD w) (fOffJ w))
  | 0x08 => keep true (.loopi (fD w) (fOffJ w))
  | _ => none

/-- Group 0x3 by minor opcode (R50). -/
def decodeG3 (w : Word) : Nat → Option Instr
  | 0x00 => keep (fK w == 0#3 && fM w == 0#4 && inK (fD w) && inK (fA w) && inK (fB w)) (.kand (toK (fD w)) (toK (fA w)) (toK (fB w)))
  | 0x01 => keep (fK w == 0#3 && fM w == 0#4 && inK (fD w) && inK (fA w) && inK (fB w)) (.kor (toK (fD w)) (toK (fA w)) (toK (fB w)))
  | 0x02 => keep (fK w == 0#3 && fM w == 0#4 && inK (fD w) && inK (fA w) && inK (fB w)) (.kxor (toK (fD w)) (toK (fA w)) (toK (fB w)))
  | 0x03 => keep (fK w == 0#3 && fM w == 0#4 && inK (fD w) && inK (fA w) && inK (fB w)) (.kandn (toK (fD w)) (toK (fA w)) (toK (fB w)))
  | 0x04 => keep (fB w == 0#5 && fK w == 0#3 && fM w == 0#4 && inK (fD w) && inK (fA w)) (.knot (toK (fD w)) (toK (fA w)))
  | 0x05 => keep (fB w == 0#5 && fK w == 0#3 && fM w == 0#4 && inK (fD w) && inK (fA w)) (.kmov (toK (fD w)) (toK (fA w)))
  | 0x06 => keep (fB w == 0#5 && fK w == 0#3 && fM w == 0#4 && inK (fA w)) (.ktos (fD w) (toK (fA w)))
  | 0x07 => keep (fB w == 0#5 && fK w == 0#3 && fM w == 0#4 && inK (fA w)) (.kpopc (fD w) (toK (fA w)))
  | 0x08 => keep (fB w == 0#5 && fK w == 0#3 && fM w == 0#4 && inK (fA w)) (.kfirst (fD w) (toK (fA w)))
  | 0x09 => keep (fB w == 0#5 && fK w == 0#3 && inK (fD w)) (.ksetn (toK (fD w)) (fA w) (fM w))
  | 0x0A => keep (fK w == 0#3 && fM w == 0#4 && inN (fD w)) (.nmk (toN (fD w)) (fA w) (fB w))
  | 0x0B => keep (fB w == 0#5 && fK w == 0#3 && inN (fD w)) (.nset (toN (fD w)) (fA w) (fM w))
  | 0x0C => keep (fB w == 0#5 && fK w == 0#3 && inN (fA w)) (.nget (fD w) (toN (fA w)) (fM w))
  | 0x0D => keep (fK w == 0#3 && inN (fD w) && inN (fA w)) (.nadd (toN (fD w)) (toN (fA w)) (fB w) (fM w))
  | 0x0E => keep (fB w == 0#5 && fK w == 0#3 && fM w == 0#4 && inN (fD w) && inN (fA w)) (.nmov (toN (fD w)) (toN (fA w)))
  | 0x0F => keep (fK w == 0#3 && inN (fA w) && inN (fB w)) (.ncmp (fD w) (toN (fA w)) (toN (fB w)) (fM w))
  | _ => none

/-- Group 0x4 by minor opcode (R50). -/
def decodeG4 (w : Word) : Nat → Option Instr
  | 0x00 => keep true (.vadd (fD w) (fA w) (fB w) (fK w) (fM w))
  | 0x01 => keep true (.vsub (fD w) (fA w) (fB w) (fK w) (fM w))
  | 0x02 => keep true (.vmul (fD w) (fA w) (fB w) (fK w) (fM w))
  | 0x03 => keep true (.vfma (fD w) (fA w) (fB w) (fK w) (fM w))
  | 0x04 => keep true (.vfms (fD w) (fA w) (fB w) (fK w) (fM w))
  | 0x05 => keep true (.vmin (fD w) (fA w) (fB w) (fK w) (fM w))
  | 0x06 => keep true (.vmax (fD w) (fA w) (fB w) (fK w) (fM w))
  | 0x07 => keep (fB w == 0#5) (.vabs (fD w) (fA w) (fK w) (fM w))
  | 0x08 => keep (fB w == 0#5) (.vneg (fD w) (fA w) (fK w) (fM w))
  | 0x09 => keep (fM w == 0#4) (.vand (fD w) (fA w) (fB w) (fK w))
  | 0x0A => keep (fM w == 0#4) (.vor (fD w) (fA w) (fB w) (fK w))
  | 0x0B => keep (fM w == 0#4) (.vxor (fD w) (fA w) (fB w) (fK w))
  | 0x0C => keep true (.vshl (fD w) (fA w) (fB w) (fK w) (fM w))
  | 0x0D => keep true (.vshr (fD w) (fA w) (fB w) (fK w) (fM w))
  | 0x0E => keep true (.vsra (fD w) (fA w) (fB w) (fK w) (fM w))
  | 0x0F => keep (inK (fD w)) (.vcmp (toK (fD w)) (fA w) (fB w) (fK w) (fM w))
  | 0x10 => keep (fM w == 0#4) (.vsel (fD w) (fA w) (fB w) (fK w))
  | 0x11 => keep (fB w == 0#5 && fM w == 0#4) (.vmov (fD w) (fA w) (fK w))
  | 0x12 => keep (fB w == 0#5) (.vbcast (fD w) (fA w) (fK w) (fM w))
  | 0x13 => keep (fM w == 2#4) (.vdot4 (fD w) (fA w) (fB w) (fK w))
  | 0x14 => keep true (.vdot2 (fD w) (fA w) (fB w) (fK w) (fM w))
  | 0x15 => keep true (.vsat (fD w) (fA w) (fB w) (fK w) (fM w))
  | 0x16 => keep (fB w == 0#5) (.vclz (fD w) (fA w) (fK w) (fM w))
  | 0x17 => keep (fB w == 0#5) (.vpopc (fD w) (fA w) (fK w) (fM w))
  | 0x18 => keep true (.vmulh (fD w) (fA w) (fB w) (fK w) (fM w))
  | _ => none

/-- Group 0x5 by minor opcode (R50). -/
def decodeG5 (w : Word) : Nat → Option Instr
  | 0x00 => keep true (.vcvt (fD w) (fA w) (fB w) (fK w) (fM w))
  | 0x01 => keep (fB w == 0#5 && fK w == 0#3) (.vqmx (fD w) (fA w) (fM w))
  | 0x02 => keep (fB w == 0#5) (.vdqmx (fD w) (fA w) (fK w) (fM w))
  | 0x03 => keep (fB w == 0#5 && fK w == 0#3) (.vtag (fD w) (fA w) (fM w))
  | 0x04 => keep (fB w == 0#5 && fK w == 0#3) (.vgtag (fD w) (fA w) (fM w))
  | 0x05 => keep (fM w == 0#4) (.vperm (fD w) (fA w) (fB w) (fK w))
  | 0x06 => keep (fM w == 0#4) (.vshuf (fD w) (fA w) (fB w) (fK w))
  | 0x07 => keep (fM w == 0#4) (.vrot (fD w) (fA w) (fB w) (fK w))
  | 0x08 => keep true (.vslide (fD w) (fA w) (fB w) (fK w) (fM w))
  | 0x09 => keep (fK w == 0#3) (.vpack (fD w) (fA w) (fB w) (fM w))
  | 0x0A => keep (fB w == 0#5 && fK w == 0#3) (.vunpk (fD w) (fA w) (fM w))
  | 0x0B => keep (fB w == 0#5 && fM w == 0#4) (.vcmprs (fD w) (fA w) (fK w))
  | 0x0C => keep (fB w == 0#5 && fM w == 0#4) (.vexpnd (fD w) (fA w) (fK w))
  | 0x0D => keep (fB w == 0#5 && fM w == 0#4) (.viota (fD w) (fA w) (fK w))
  | 0x0E => keep (fK w == 0#3) (.vextr (fD w) (fA w) (fB w) (fM w))
  | 0x0F => keep (fK w == 0#3 && fM w == 0#4) (.vins (fD w) (fA w) (fB w))
  | 0x10 => keep (fK w == 0#3) (.vscl (fD w) (fA w) (fB w) (fM w))
  | _ => none

/-- Group 0x6 by minor opcode (R50). -/
def decodeG6 (w : Word) : Nat → Option Instr
  | 0x00 => keep (fB w == 0#5) (.vredadd (fD w) (fA w) (fK w) (fM w))
  | 0x01 => keep (fB w == 0#5) (.vredmin (fD w) (fA w) (fK w) (fM w))
  | 0x02 => keep (fB w == 0#5) (.vredmax (fD w) (fA w) (fK w) (fM w))
  | 0x03 => keep (fB w == 0#5) (.vscan (fD w) (fA w) (fK w) (fM w))
  | 0x04 => keep true (.vtopk (fD w) (fA w) (fB w) (fK w) (fM w))
  | 0x05 => keep (fB w == 0#5) (.vsorts (fD w) (fA w) (fK w) (fM w))
  | 0x06 => keep (fB w == 0#5) (.vargmx (fD w) (fA w) (fK w) (fM w))
  | 0x07 => keep (fM w == 0#4) (.vrand (fD w) (fA w) (fB w) (fK w))
  | 0x08 => keep (fB w == 0#5) (.vhistx (fD w) (fA w) (fK w) (fM w))
  | 0x09 => keep true (.vredx (fD w) (fA w) (fB w) (fK w) (fM w))
  | 0x0A => keep (fB w == 0#5 && fK w == 0#3) (.vrndx (fD w) (fA w) (fM w))
  | 0x0B => keep (fM w == 0#4) (.vlut (fD w) (fA w) (fB w) (fK w))
  | _ => none

/-- Group 0x7 by minor opcode (R50). -/
def decodeG7 (w : Word) : Nat → Option Instr
  | 0x00 => keep (fB w == 0#5) (.fexp2 (fD w) (fA w) (fK w) (fM w))
  | 0x01 => keep (fB w == 0#5) (.flog2 (fD w) (fA w) (fK w) (fM w))
  | 0x02 => keep (fB w == 0#5) (.frcp (fD w) (fA w) (fK w) (fM w))
  | 0x03 => keep (fB w == 0#5) (.frsq (fD w) (fA w) (fK w) (fM w))
  | 0x04 => keep (fB w == 0#5) (.fsqrt (fD w) (fA w) (fK w) (fM w))
  | 0x05 => keep true (.fdiv (fD w) (fA w) (fB w) (fK w) (fM w))
  | 0x06 => keep (fB w == 0#5) (.ftanh (fD w) (fA w) (fK w) (fM w))
  | 0x07 => keep (fB w == 0#5) (.fsigm (fD w) (fA w) (fK w) (fM w))
  | 0x08 => keep (fB w == 0#5) (.fsin (fD w) (fA w) (fK w) (fM w))
  | 0x09 => keep (fB w == 0#5) (.fcos (fD w) (fA w) (fK w) (fM w))
  | 0x0A => keep (fB w == 0#5) (.ferf (fD w) (fA w) (fK w) (fM w))
  | _ => none

/-- Group 0x8 by minor opcode (R50). -/
def decodeG8 (w : Word) : Nat → Option Instr
  | 0x00 => keep (fD w == 0#5 && fB w == 0#5 && fK w == 0#3 && fM w == 0#4) (.mlds (fA w))
  | 0x01 => keep (fD w == 0#5 && fA w == 0#5 && fB w == 0#5 && fK w == 0#3 && fM w == 0#4) (.mswap)
  | 0x02 => keep (fB w == 0#5 && fM w == 0#4 && inW (fD w)) (.mma (toW (fD w)) (fA w) (fK w))
  | 0x03 => keep (fB w == 0#5 && fM w == 0#4 && inW (fD w)) (.mmas (toW (fD w)) (fA w) (fK w))
  | 0x04 => keep (fA w == 0#5 && fB w == 0#5 && fM w == 0#4 && inW (fD w)) (.mzero (toW (fD w)) (fK w))
  | 0x05 => keep (inW (fA w)) (.mdrain (fD w) (toW (fA w)) (fB w) (fK w) (fM w))
  | 0x06 => keep (fK w == 0#3 && inW (fA w)) (.mrdv (fD w) (toW (fA w)) (fB w) (fM w))
  | 0x07 => keep (inW (fD w)) (.mwrv (toW (fD w)) (fA w) (fB w) (fK w) (fM w))
  | 0x08 => keep (fD w == 0#5 && fB w == 0#5 && fK w == 0#3 && fM w == 0#4) (.mmode (fA w))
  | 0x09 => keep (fD w == 0#5 && fA w == 0#5 && fB w == 0#5 && fK w == 0#3) (.mwait (fM w))
  | 0x0A => keep (fD w == 0#5 && fB w == 0#5 && fK w == 0#3 && inW (fA w)) (.mtrw (toW (fA w)) (fM w))
  | _ => none

/-- Group 0x9 by minor opcode (R50). -/
def decodeG9 (w : Word) : Nat → Option Instr
  | 0x00 => keep (fSp w == 1#2) (.ld (fD w) (fA w) (fOff w))
  | 0x01 => keep (fSp w == 1#2) (.st (fD w) (fA w) (fOff w))
  | 0x02 => keep true (.vld (fD w) (fA w) (fSp w) (fOff w))
  | 0x03 => keep true (.vst (fD w) (fA w) (fSp w) (fOff w))
  | 0x04 => keep true (.vlds (fD w) (fA w) (fB w) (fK w) (fSpR w) (fZ w))
  | 0x05 => keep true (.vsts (fD w) (fA w) (fB w) (fK w) (fSpR w) (fZ w))
  | 0x06 => keep true (.vgath (fD w) (fA w) (fB w) (fK w) (fSpR w) (fZ w))
  | 0x07 => keep true (.vscat (fD w) (fA w) (fB w) (fK w) (fSpR w) (fZ w))
  | 0x08 => keep true (.ldw (fD w) (fA w) (fSp w) (fOff w))
  | 0x09 => keep true (.vldw (fD w) (fA w) (fSp w) (fOff w))
  | 0x0A => keep (fSp w == 1#2) (.qld (fD w) (fA w) (fT w) (fS w))
  | 0x0B => keep (fSp w == 1#2) (.qst (fD w) (fA w) (fT w) (fS w))
  | 0x0C => keep (fK w == 0#3) (.talloc (fD w) (fA w) (fB w) (fM w))
  | 0x0D => keep (fD w == 0#5 && fB w == 0#5 && fK w == 0#3 && fM w == 0#4) (.tfree (fA w))
  | 0x0E => keep (fB w == 0#5 && fK w == 0#3 && fM w == 0#4) (.tstat (fD w) (fA w))
  | 0x0F => keep (fD w == 0#5 && fK w == 0#3) (.twait (fA w) (fB w) (fM w))
  | 0x10 => keep (fD w == 0#5 && fK w == 0#3) (.tset (fA w) (fB w) (fM w))
  | 0x11 => keep (fD w == 0#5 && fB w == 0#5 && fK w == 0#3) (.icinv (fA w) (fM w))
  | 0x12 => keep (fD w == 0#5 && fA w == 0#5 && fB w == 0#5 && fK w == 0#3 && fM w == 0#4) (.fetchb)
  | _ => none

/-- Group 0xA by minor opcode (R50). -/
def decodeGA (w : Word) : Nat → Option Instr
  | 0x00 => keep true (.gld (fD w) (fA w) (fSp w) (fT w) (fS w))
  | 0x01 => keep true (.gst (fD w) (fA w) (fSp w) (fT w) (fS w))
  | 0x02 => keep true (.vgld (fD w) (fA w) (fSp w) (fT w) (fS w))
  | 0x03 => keep true (.vgst (fD w) (fA w) (fSp w) (fT w) (fS w))
  | 0x04 => keep true (.ldacq (fD w) (fA w) (fSp w) (fT w) (fS w))
  | 0x05 => keep true (.strel (fD w) (fA w) (fSp w) (fT w) (fS w))
  | 0x06 => keep true (.promacq (fD w) (fA w) (fSp w) (fT w) (fS w))
  | 0x07 => keep (fD w == 0#5 && fA w == 0#5) (.fence (fSp w) (fT w) (fS w))
  | 0x08 => keep true (.atom (fD w) (fA w) (fSp w) (fT w) (fS w))
  | 0x09 => keep true (.atomr (fD w) (fA w) (fSp w) (fT w) (fS w))
  | 0x0A => keep true (.mred (fD w) (fA w) (fSp w) (fT w) (fS w))
  | 0x0B => keep true (.mredrd (fD w) (fA w) (fSp w) (fT w) (fS w))
  | 0x0C => keep (fD w == 0#5) (.clwb (fA w) (fSp w) (fT w) (fS w))
  | 0x0D => keep (fD w == 0#5) (.clinv (fA w) (fSp w) (fT w) (fS w))
  | 0x0E => keep (!w.getLsbD 0) (.xcopy (fD w) (fA w) (fB w) (fTX w) (fSpX w))
  | 0x0F => keep (!w.getLsbD 0) (.xgath (fD w) (fA w) (fB w) (fTX w) (fSpX w))
  | 0x10 => keep (!w.getLsbD 0) (.xscat (fD w) (fA w) (fB w) (fTX w) (fSpX w))
  | 0x11 => keep (!w.getLsbD 0) (.xfill (fD w) (fA w) (fB w) (fTX w) (fSpX w))
  | _ => none

/-- Group 0xC by minor opcode (R50). -/
def decodeGC (w : Word) : Nat → Option Instr
  | 0x00 => keep (fB w == 0#5 && fK w == 0#3 && fM w == 0#4 && inN (fD w)) (.subName (toN (fD w)) (fA w))
  | 0x01 => keep (fD w == 0#5 && fB w == 0#5 && fK w == 0#3 && fM w == 0#4) (.unsub (fA w))
  | 0x02 => keep (fB w == 0#5 && fK w == 0#3 && inN (fD w)) (.pub (toN (fD w)) (fA w) (fM w))
  | 0x03 => keep (fB w == 0#5 && fK w == 0#3 && fM w == 0#4 && inN (fD w)) (.pubr (toN (fD w)) (fA w))
  | 0x04 => keep (fK w == 0#3 && inN (fD w) && inN (fA w)) (.ropen (toN (fD w)) (toN (fA w)) (fB w) (fM w))
  | 0x05 => keep (fB w == 0#5 && fK w == 0#3 && fM w == 0#4 && inN (fD w)) (.resub (toN (fD w)) (fA w))
  | 0x06 => keep (fB w == 0#5 && fK w == 0#3 && inN (fD w)) (.nhold (toN (fD w)) (fA w) (fM w))
  | 0x07 => keep (fA w == 0#5 && fB w == 0#5 && fK w == 0#3 && fM w == 0#4 && inN (fD w)) (.nrel (toN (fD w)))
  | 0x08 => keep (fB w == 0#5 && fK w == 0#3 && inN (fA w)) (.nqry (fD w) (toN (fA w)) (fM w))
  | 0x09 => keep (!w.getLsbD 0 && inN (fD w)) (.pubx (toN (fD w)) (fA w) (fB w) (fTX w) (fSpX w))
  | _ => none

/-- Group 0xD by minor opcode (R50). -/
def decodeGD (w : Word) : Nat → Option Instr
  | 0x00 => keep (fD w == 0#5 && fA w == 0#5 && fB w == 0#5 && fK w == 0#3 && fM w == 0#4) (.fend)
  | 0x01 => keep (fD w == 0#5 && fB w == 0#5 && fK w == 0#3 && fM w == 0#4) (.spawn (fA w))
  | 0x02 => keep (fD w == 0#5 && fK w == 0#3) (.launchr (fA w) (fB w) (fM w))
  | 0x03 => keep (fD w == 0#5 && fA w == 0#5 && fB w == 0#5 && fK w == 0#3 && fM w == 0#4) (.yield)
  | 0x04 => keep (fD w == 0#5 && fB w == 0#5 && fK w == 0#3) (.tcadd (fA w) (fM w))
  | 0x05 => keep (fA w == 0#5 && fB w == 0#5 && fK w == 0#3) (.tcrd (fD w) (fM w))
  | 0x06 => keep (fD w == 0#5 && fB w == 0#5 && fK w == 0#3) (.tcwait (fA w) (fM w))
  | 0x07 => keep (fD w == 0#5 && fK w == 0#3) (.bar (fA w) (fB w) (fM w))
  | 0x08 => keep (fB w == 0#5 && fK w == 0#3 && fM w == 0#4) (.barrd (fD w) (fA w))
  | 0x09 => keep (fA w == 0#5 && fB w == 0#5 && fK w == 0#3) (.timeq (fD w) (fM w))
  | 0x0A => keep (fA w == 0#5 && fB w == 0#5 && fK w == 0#3 && fM w == 0#4) (.stamp (fD w))
  | 0x0B => keep (fD w == 0#5 && fB w == 0#5 && fK w == 0#3 && fM w == 0#4) (.prio (fA w))
  | 0x0C => keep (fD w == 0#5 && fK w == 0#3) (.ecfg (fA w) (fB w) (fM w))
  | 0x0D => keep (fD w == 0#5 && fK w == 0#3 && fM w == 0#4) (.ego (fA w) (fB w))
  | 0x0E => keep (fB w == 0#5 && fK w == 0#3) (.estat (fD w) (fA w) (fM w))
  | 0x0F => keep (fD w == 0#5 && fB w == 0#5 && fK w == 0#3) (.eabort (fA w) (fM w))
  | _ => none

/-- Group 0xE by minor opcode (R50). -/
def decodeGE (w : Word) : Nat → Option Instr
  | 0x00 => keep (fD w == 0#5 && fA w == 0#5) (.trap (fImm w))
  | 0x01 => keep (fD w == 0#5 && fA w == 0#5 && fB w == 0#5 && fK w == 0#3) (.tret (fM w))
  | 0x02 => keep (fA w == 0#5) (.ctlrd (fD w) (fImm w))
  | 0x03 => keep (fD w == 0#5) (.ctlwr (fA w) (fImm w))
  | 0x04 => keep (fD w == 0#5 && fA w == 0#5 && fB w == 0#5 && fK w == 0#3) (.brk (fM w))
  | 0x05 => keep (fD w == 0#5 && fK w == 0#3) (.evpost (fA w) (fB w) (fM w))
  | 0x06 => keep (fD w == 0#5 && fK w == 0#3 && fM w == 0#4) (.moncfg (fA w) (fB w))
  | 0x07 => keep (fB w == 0#5 && fK w == 0#3) (.monrd (fD w) (fA w) (fM w))
  | 0x08 => keep (fD w == 0#5 && fB w == 0#5 && fK w == 0#3 && fM w == 0#4) (.haltc (fA w))
  | 0x09 => keep (fD w == 0#5 && fB w == 0#5 && fK w == 0#3 && fM w == 0#4) (.ctxsv (fA w))
  | 0x0A => keep (fB w == 0#5 && fK w == 0#3 && fM w == 0#4) (.ctxld (fD w) (fA w))
  | _ => none

/-- The instruction of a slot word; none where the word raises ILLEGAL_OP (R45) or belongs to group 0xB or 0xF. -/
def decodeSlot (w : Word) : Option Instr :=
  match (fGroup w).toNat with
  | 0x0 => decodeG0 w (fMinor w).toNat
  | 0x1 => decodeG1 w (fMinor w).toNat
  | 0x2 => decodeG2 w (fMinor w).toNat
  | 0x3 => decodeG3 w (fMinor w).toNat
  | 0x4 => decodeG4 w (fMinor w).toNat
  | 0x5 => decodeG5 w (fMinor w).toNat
  | 0x6 => decodeG6 w (fMinor w).toNat
  | 0x7 => decodeG7 w (fMinor w).toNat
  | 0x8 => decodeG8 w (fMinor w).toNat
  | 0x9 => decodeG9 w (fMinor w).toNat
  | 0xA => decodeGA w (fMinor w).toNat
  | 0xC => decodeGC w (fMinor w).toNat
  | 0xD => decodeGD w (fMinor w).toNat
  | 0xE => decodeGE w (fMinor w).toNat
  | _ => none

/-! Fields of an element word (15 R381). -/

def eOp (w : Word) : BitVec 6 := w.extractLsb' 26 6
def eA (w : Word) : BitVec 5 := w.extractLsb' 21 5
def eB (w : Word) : BitVec 5 := w.extractLsb' 16 5
def eD (w : Word) : BitVec 5 := w.extractLsb' 11 5
def eE (w : Word) : BitVec 5 := w.extractLsb' 6 5
def eT (w : Word) : BitVec 4 := w.extractLsb' 2 4
def eL (w : Word) : BitVec 2 := w.extractLsb' 0 2

/-- `i` if the fields it does not use hold what R381 gives them. -/
def keepEdge (c : Bool) (i : Instr) : Option Instr := if c then some i else none

/-- LSEL is 0 where nothing uses the literal: neither source B nor the tag action (R378, R381, R382). -/
def litSelected (w : Word) : Bool := eL w == 0#2 || eB w == 0x10#5 || eT w == 4#4

/-- Edge operations by opcode (R384 to R386). A field an operation does not use holds 0x16 for ports and 0 for TAGA and
LSEL (R381). Whether its ports and tag action are
those of the description is judged with the image that holds it (R391). -/
def decodeEdgeOp (w : Word) : Nat → Option Instr
  | 0x00 => keepEdge (eE w == 22#5 && litSelected w) (.xadd (eA w) (eB w) (eD w) ⟨eT w, eL w⟩)
  | 0x01 => keepEdge (eB w == 22#5 && eE w == 22#5) (.xrnd (eA w) (eD w) (eT w) (eL w))
  | 0x02 => keepEdge (eB w == 22#5 && eE w == 22#5) (.cvt (eA w) (eD w) (eT w) (eL w))
  | 0x03 => keepEdge (eB w == 22#5 && eE w == 22#5) (.qmx (eA w) (eD w) (eT w) (eL w))
  | 0x04 => keepEdge (eB w == 22#5 && eE w == 22#5 && litSelected w) (.dqmx (eA w) (eD w) ⟨eT w, eL w⟩)
  | 0x05 => keepEdge (eB w == 22#5 && eE w == 22#5 && litSelected w) (.cmpz (eA w) (eD w) ⟨eT w, eL w⟩)
  | 0x06 => keepEdge (eB w == 22#5 && eE w == 22#5 && litSelected w) (.dcmpz (eA w) (eD w) ⟨eT w, eL w⟩)
  | 0x07 => keepEdge (eE w == 22#5 && litSelected w) (.mrr (eA w) (eB w) (eD w) ⟨eT w, eL w⟩)
  | 0x08 => keepEdge (eE w == 22#5 && litSelected w) (.mtag (eA w) (eB w) (eD w) ⟨eT w, eL w⟩)
  | 0x09 => keepEdge (eB w == 22#5) (.splitE (eA w) (eD w) (eE w) (eT w) (eL w))
  | 0x0A => keepEdge (eB w == 22#5 && litSelected w) (.dup (eA w) (eD w) (eE w) ⟨eT w, eL w⟩)
  | 0x0B => keepEdge (eE w == 22#5 && litSelected w) (.gate (eA w) (eB w) (eD w) ⟨eT w, eL w⟩)
  | 0x0C => keepEdge (eB w == 22#5) (.steer (eA w) (eD w) (eE w) (eT w) (eL w))
  | 0x0D => keepEdge (eB w == 22#5 && litSelected w) (.cnt (eA w) (eD w) (eE w) ⟨eT w, eL w⟩)
  | 0x0E => keepEdge (eB w == 22#5 && eE w == 22#5) (.lim (eA w) (eD w) (eT w) (eL w))
  | 0x0F => keepEdge (eB w == 22#5 && eE w == 22#5) (.fifo (eA w) (eD w) (eT w) (eL w))
  | 0x10 => keepEdge (eE w == 22#5 && litSelected w) (.pack (eA w) (eB w) (eD w) ⟨eT w, eL w⟩)
  | 0x11 => keepEdge (eB w == 22#5 && litSelected w) (.unpk (eA w) (eD w) (eE w) ⟨eT w, eL w⟩)
  | 0x12 => keepEdge (eB w == 22#5 && eE w == 22#5) (.scl (eA w) (eD w) (eT w) (eL w))
  | 0x13 => keepEdge (eB w == 22#5 && litSelected w) (.hist (eA w) (eD w) (eE w) ⟨eT w, eL w⟩)
  | 0x14 => keepEdge (eB w == 22#5 && eE w == 22#5) (.eosg (eA w) (eD w) (eT w) (eL w))
  | 0x15 => keepEdge (eB w == 22#5 && eD w == 22#5 && eE w == 22#5 && eT w == 0#4) (.sink (eA w) (eL w))
  | 0x16 => keepEdge (eB w == 22#5 && eE w == 22#5 && litSelected w) (.srcn (eA w) (eD w) ⟨eT w, eL w⟩)
  | 0x17 => keepEdge (eB w == 22#5 && litSelected w) (.pubn (eA w) (eD w) (eE w) ⟨eT w, eL w⟩)
  | 0x18 => keepEdge (eB w == 22#5 && eE w == 22#5 && litSelected w) (.rin (eA w) (eD w) ⟨eT w, eL w⟩)
  | 0x19 => keepEdge (eB w == 22#5 && eE w == 22#5 && litSelected w) (.rout (eA w) (eD w) ⟨eT w, eL w⟩)
  | 0x1A => keepEdge (eB w == 22#5 && eE w == 22#5 && litSelected w) (.edgeNop (eA w) (eD w) ⟨eT w, eL w⟩)
  | 0x1B => keepEdge (eB w == 22#5 && eD w == 22#5 && eE w == 22#5 && eT w == 0#4 && eL w == 0#2) (.halte (eA w))
  | _ => none

/-- The operation of an element word; none where the word is refused. -/
def decodeEdge (w : Word) : Option Instr := decodeEdgeOp w (eOp w).toNat

/-! Fields of a header word (02 R39). -/

def hSig (h : Word) : BitVec 4 := h.extractLsb' 28 4
def hMask (h : Word) : BitVec 9 := h.extractLsb' 19 9
def hLitc (h : Word) : BitVec 2 := h.extractLsb' 17 2
def hWait (h : Word) : BitVec 4 := h.extractLsb' 13 4
def hStall (h : Word) : BitVec 4 := h.extractLsb' 9 4
def hRes (h : Word) : BitVec 9 := h.extractLsb' 0 9

/-- The header-only bundles (R40): STALL non-zero is the NOP, otherwise WAIT non-zero is the wait point. -/
def decodeHeaderOnly (h : Word) : Option Instr :=
  if hSig h == 0xB#4 && hMask h == 0#9 && hLitc h == 0#2 && hRes h == 0#9 then
    if hStall h != 0#4 then keep true (.nop (hWait h) (hStall h)) else keep true (.waitPoint (hWait h))
  else none

/-- The instruction that a word of the opcode table stands for: a header-only bundle, or an element word. Both are one 32-bit
word; the table gives no bits to any other row. -/
def decodeTableWord (nbits w : Nat) : Option Instr :=
  if nbits = 32 ∧ w < 2 ^ 32 then
    let x : Word := BitVec.ofNat 32 w
    if hSig x = 0xB#4 then decodeHeaderOnly x else decodeEdge x
  else none

/-! The encoder. -/

def encR (g : BitVec 4) (mi : BitVec 6) (d a b : Reg) (k : KReg) (m : BitVec 4) : Word := g ++ mi ++ d ++ a ++ b ++ k ++ m
def encI (g : BitVec 4) (mi : BitVec 6) (d a : Reg) (imm : BitVec 12) : Word := g ++ mi ++ d ++ a ++ imm
def encL (g : BitVec 4) (mi : BitVec 6) (d a : Reg) (idx : BitVec 2) (md : BitVec 10) : Word := g ++ mi ++ d ++ a ++ idx ++ md
def encJ (g : BitVec 4) (mi : BitVec 6) (a : Reg) (off : BitVec 17) : Word := g ++ mi ++ a ++ off
def encMI (g : BitVec 4) (mi : BitVec 6) (d a : Reg) (sp : BitVec 2) (off : BitVec 10) : Word := g ++ mi ++ d ++ a ++ sp ++ off
def encMR (g : BitVec 4) (mi : BitVec 6) (d a b : Reg) (k : KReg) (sp z : BitVec 2) : Word :=
  g ++ mi ++ d ++ a ++ b ++ k ++ sp ++ z
def encMT (g : BitVec 4) (mi : BitVec 6) (d a : Reg) (sp : BitVec 2) (t : BitVec 4) (s : BitVec 6) : Word :=
  g ++ mi ++ d ++ a ++ sp ++ t ++ s
def encMX (g : BitVec 4) (mi : BitVec 6) (d a b : Reg) (t : BitVec 4) (sp : BitVec 2) : Word :=
  g ++ mi ++ d ++ a ++ b ++ t ++ sp ++ 0#1
def encE (op : BitVec 6) (a b d e : BitVec 5) (t : BitVec 4) (l : BitVec 2) : Word := op ++ a ++ b ++ d ++ e ++ t ++ l
def encH (w st : BitVec 4) : Word := 0xB#4 ++ 0#9 ++ 0#2 ++ w ++ st ++ 0#9

/-- The word of an instruction that has one: a slot word, a header word or an element word. Events have no word. -/
def encode : Instr → Option Word
  | .nop w stl => some (encH w stl)
  | .waitPoint w => some (encH w 0#4)
  | .add d a b => some (encR 0x0#4 0x00#6 d a b 0#3 0#4)
  | .sub d a b => some (encR 0x0#4 0x01#6 d a b 0#3 0#4)
  | .mul d a b => some (encR 0x0#4 0x02#6 d a b 0#3 0#4)
  | .mulh d a b => some (encR 0x0#4 0x03#6 d a b 0#3 0#4)
  | .mulhu d a b => some (encR 0x0#4 0x04#6 d a b 0#3 0#4)
  | .div d a b => some (encR 0x0#4 0x05#6 d a b 0#3 0#4)
  | .divu d a b => some (encR 0x0#4 0x06#6 d a b 0#3 0#4)
  | .rem d a b => some (encR 0x0#4 0x07#6 d a b 0#3 0#4)
  | .remu d a b => some (encR 0x0#4 0x08#6 d a b 0#3 0#4)
  | .and d a b => some (encR 0x0#4 0x09#6 d a b 0#3 0#4)
  | .or d a b => some (encR 0x0#4 0x0A#6 d a b 0#3 0#4)
  | .xor d a b => some (encR 0x0#4 0x0B#6 d a b 0#3 0#4)
  | .andn d a b => some (encR 0x0#4 0x0C#6 d a b 0#3 0#4)
  | .shl d a b => some (encR 0x0#4 0x0D#6 d a b 0#3 0#4)
  | .shr d a b => some (encR 0x0#4 0x0E#6 d a b 0#3 0#4)
  | .sra d a b => some (encR 0x0#4 0x0F#6 d a b 0#3 0#4)
  | .rol d a b => some (encR 0x0#4 0x10#6 d a b 0#3 0#4)
  | .min d a b => some (encR 0x0#4 0x11#6 d a b 0#3 0#4)
  | .max d a b => some (encR 0x0#4 0x12#6 d a b 0#3 0#4)
  | .minu d a b => some (encR 0x0#4 0x13#6 d a b 0#3 0#4)
  | .maxu d a b => some (encR 0x0#4 0x14#6 d a b 0#3 0#4)
  | .cmp d a b m => some (encR 0x0#4 0x15#6 d a b 0#3 m)
  | .sel d a b => some (encR 0x0#4 0x16#6 d a b 0#3 0#4)
  | .clz d a => some (encR 0x0#4 0x17#6 d a 0#5 0#3 0#4)
  | .ctz d a => some (encR 0x0#4 0x18#6 d a 0#5 0#3 0#4)
  | .popc d a => some (encR 0x0#4 0x19#6 d a 0#5 0#3 0#4)
  | .bfx d a b m => some (encR 0x0#4 0x1A#6 d a b 0#3 m)
  | .bfi d a b => some (encR 0x0#4 0x1B#6 d a b 0#3 0#4)
  | .sext d a m => some (encR 0x0#4 0x1C#6 d a 0#5 0#3 m)
  | .zext d a m => some (encR 0x0#4 0x1D#6 d a 0#5 0#3 m)
  | .addx d a b m => some (encR 0x0#4 0x1E#6 d a b 0#3 m)
  | .mov d a => some (encR 0x0#4 0x1F#6 d a 0#5 0#3 0#4)
  | .addi d a imm => some (encI 0x1#4 0x00#6 d a imm)
  | .andi d a imm => some (encI 0x1#4 0x01#6 d a imm)
  | .ori d a imm => some (encI 0x1#4 0x02#6 d a imm)
  | .xori d a imm => some (encI 0x1#4 0x03#6 d a imm)
  | .shli d a sh => some (encI 0x1#4 0x04#6 d a (0#6 ++ sh))
  | .shri d a sh => some (encI 0x1#4 0x05#6 d a (0#6 ++ sh))
  | .srai d a sh => some (encI 0x1#4 0x06#6 d a (0#6 ++ sh))
  | .cmpi d a imm => some (encI 0x1#4 0x07#6 d a imm)
  | .lit d a idx md => some (encL 0x1#4 0x08#6 d a idx md)
  | .lit64 d idx => some (encL 0x1#4 0x09#6 d 0#5 idx 0#10)
  | .muli d a imm => some (encI 0x1#4 0x0A#6 d a imm)
  | .br off => some (encJ 0x2#4 0x00#6 0#5 off)
  | .brz a off => some (encJ 0x2#4 0x01#6 a off)
  | .brnz a off => some (encJ 0x2#4 0x02#6 a off)
  | .brany a off => some (encJ 0x2#4 0x03#6 (a.zeroExtend 5) off)
  | .brnone a off => some (encJ 0x2#4 0x04#6 (a.zeroExtend 5) off)
  | .jal a off => some (encJ 0x2#4 0x05#6 a off)
  | .jr a => some (encR 0x2#4 0x06#6 0#5 a 0#5 0#3 0#4)
  | .loop a off => some (encJ 0x2#4 0x07#6 a off)
  | .loopi a off => some (encJ 0x2#4 0x08#6 a off)
  | .kand d a b => some (encR 0x3#4 0x00#6 (d.zeroExtend 5) (a.zeroExtend 5) (b.zeroExtend 5) 0#3 0#4)
  | .kor d a b => some (encR 0x3#4 0x01#6 (d.zeroExtend 5) (a.zeroExtend 5) (b.zeroExtend 5) 0#3 0#4)
  | .kxor d a b => some (encR 0x3#4 0x02#6 (d.zeroExtend 5) (a.zeroExtend 5) (b.zeroExtend 5) 0#3 0#4)
  | .kandn d a b => some (encR 0x3#4 0x03#6 (d.zeroExtend 5) (a.zeroExtend 5) (b.zeroExtend 5) 0#3 0#4)
  | .knot d a => some (encR 0x3#4 0x04#6 (d.zeroExtend 5) (a.zeroExtend 5) 0#5 0#3 0#4)
  | .kmov d a => some (encR 0x3#4 0x05#6 (d.zeroExtend 5) (a.zeroExtend 5) 0#5 0#3 0#4)
  | .ktos d a => some (encR 0x3#4 0x06#6 d (a.zeroExtend 5) 0#5 0#3 0#4)
  | .kpopc d a => some (encR 0x3#4 0x07#6 d (a.zeroExtend 5) 0#5 0#3 0#4)
  | .kfirst d a => some (encR 0x3#4 0x08#6 d (a.zeroExtend 5) 0#5 0#3 0#4)
  | .ksetn d a m => some (encR 0x3#4 0x09#6 (d.zeroExtend 5) a 0#5 0#3 m)
  | .nmk d a b => some (encR 0x3#4 0x0A#6 (d.zeroExtend 5) a b 0#3 0#4)
  | .nset d a m => some (encR 0x3#4 0x0B#6 (d.zeroExtend 5) a 0#5 0#3 m)
  | .nget d a m => some (encR 0x3#4 0x0C#6 d (a.zeroExtend 5) 0#5 0#3 m)
  | .nadd d a b m => some (encR 0x3#4 0x0D#6 (d.zeroExtend 5) (a.zeroExtend 5) b 0#3 m)
  | .nmov d a => some (encR 0x3#4 0x0E#6 (d.zeroExtend 5) (a.zeroExtend 5) 0#5 0#3 0#4)
  | .ncmp d a b m => some (encR 0x3#4 0x0F#6 d (a.zeroExtend 5) (b.zeroExtend 5) 0#3 m)
  | .vadd d a b k m => some (encR 0x4#4 0x00#6 d a b k m)
  | .vsub d a b k m => some (encR 0x4#4 0x01#6 d a b k m)
  | .vmul d a b k m => some (encR 0x4#4 0x02#6 d a b k m)
  | .vfma d a b k m => some (encR 0x4#4 0x03#6 d a b k m)
  | .vfms d a b k m => some (encR 0x4#4 0x04#6 d a b k m)
  | .vmin d a b k m => some (encR 0x4#4 0x05#6 d a b k m)
  | .vmax d a b k m => some (encR 0x4#4 0x06#6 d a b k m)
  | .vabs d a k m => some (encR 0x4#4 0x07#6 d a 0#5 k m)
  | .vneg d a k m => some (encR 0x4#4 0x08#6 d a 0#5 k m)
  | .vand d a b k => some (encR 0x4#4 0x09#6 d a b k 0#4)
  | .vor d a b k => some (encR 0x4#4 0x0A#6 d a b k 0#4)
  | .vxor d a b k => some (encR 0x4#4 0x0B#6 d a b k 0#4)
  | .vshl d a b k m => some (encR 0x4#4 0x0C#6 d a b k m)
  | .vshr d a b k m => some (encR 0x4#4 0x0D#6 d a b k m)
  | .vsra d a b k m => some (encR 0x4#4 0x0E#6 d a b k m)
  | .vcmp d a b k m => some (encR 0x4#4 0x0F#6 (d.zeroExtend 5) a b k m)
  | .vsel d a b k => some (encR 0x4#4 0x10#6 d a b k 0#4)
  | .vmov d a k => some (encR 0x4#4 0x11#6 d a 0#5 k 0#4)
  | .vbcast d a k m => some (encR 0x4#4 0x12#6 d a 0#5 k m)
  | .vdot4 d a b k => some (encR 0x4#4 0x13#6 d a b k 2#4)
  | .vdot2 d a b k m => some (encR 0x4#4 0x14#6 d a b k m)
  | .vsat d a b k m => some (encR 0x4#4 0x15#6 d a b k m)
  | .vclz d a k m => some (encR 0x4#4 0x16#6 d a 0#5 k m)
  | .vpopc d a k m => some (encR 0x4#4 0x17#6 d a 0#5 k m)
  | .vmulh d a b k m => some (encR 0x4#4 0x18#6 d a b k m)
  | .vcvt d a b k m => some (encR 0x5#4 0x00#6 d a b k m)
  | .vqmx d a m => some (encR 0x5#4 0x01#6 d a 0#5 0#3 m)
  | .vdqmx d a k m => some (encR 0x5#4 0x02#6 d a 0#5 k m)
  | .vtag d a m => some (encR 0x5#4 0x03#6 d a 0#5 0#3 m)
  | .vgtag d a m => some (encR 0x5#4 0x04#6 d a 0#5 0#3 m)
  | .vperm d a b k => some (encR 0x5#4 0x05#6 d a b k 0#4)
  | .vshuf d a b k => some (encR 0x5#4 0x06#6 d a b k 0#4)
  | .vrot d a b k => some (encR 0x5#4 0x07#6 d a b k 0#4)
  | .vslide d a b k m => some (encR 0x5#4 0x08#6 d a b k m)
  | .vpack d a b m => some (encR 0x5#4 0x09#6 d a b 0#3 m)
  | .vunpk d a m => some (encR 0x5#4 0x0A#6 d a 0#5 0#3 m)
  | .vcmprs d a k => some (encR 0x5#4 0x0B#6 d a 0#5 k 0#4)
  | .vexpnd d a k => some (encR 0x5#4 0x0C#6 d a 0#5 k 0#4)
  | .viota d a k => some (encR 0x5#4 0x0D#6 d a 0#5 k 0#4)
  | .vextr d a b m => some (encR 0x5#4 0x0E#6 d a b 0#3 m)
  | .vins d a b => some (encR 0x5#4 0x0F#6 d a b 0#3 0#4)
  | .vscl d a b m => some (encR 0x5#4 0x10#6 d a b 0#3 m)
  | .vredadd d a k m => some (encR 0x6#4 0x00#6 d a 0#5 k m)
  | .vredmin d a k m => some (encR 0x6#4 0x01#6 d a 0#5 k m)
  | .vredmax d a k m => some (encR 0x6#4 0x02#6 d a 0#5 k m)
  | .vscan d a k m => some (encR 0x6#4 0x03#6 d a 0#5 k m)
  | .vtopk d a b k m => some (encR 0x6#4 0x04#6 d a b k m)
  | .vsorts d a k m => some (encR 0x6#4 0x05#6 d a 0#5 k m)
  | .vargmx d a k m => some (encR 0x6#4 0x06#6 d a 0#5 k m)
  | .vrand d a b k => some (encR 0x6#4 0x07#6 d a b k 0#4)
  | .vhistx d a k m => some (encR 0x6#4 0x08#6 d a 0#5 k m)
  | .vredx d a b k m => some (encR 0x6#4 0x09#6 d a b k m)
  | .vrndx d a m => some (encR 0x6#4 0x0A#6 d a 0#5 0#3 m)
  | .vlut d a b k => some (encR 0x6#4 0x0B#6 d a b k 0#4)
  | .fexp2 d a k m => some (encR 0x7#4 0x00#6 d a 0#5 k m)
  | .flog2 d a k m => some (encR 0x7#4 0x01#6 d a 0#5 k m)
  | .frcp d a k m => some (encR 0x7#4 0x02#6 d a 0#5 k m)
  | .frsq d a k m => some (encR 0x7#4 0x03#6 d a 0#5 k m)
  | .fsqrt d a k m => some (encR 0x7#4 0x04#6 d a 0#5 k m)
  | .fdiv d a b k m => some (encR 0x7#4 0x05#6 d a b k m)
  | .ftanh d a k m => some (encR 0x7#4 0x06#6 d a 0#5 k m)
  | .fsigm d a k m => some (encR 0x7#4 0x07#6 d a 0#5 k m)
  | .fsin d a k m => some (encR 0x7#4 0x08#6 d a 0#5 k m)
  | .fcos d a k m => some (encR 0x7#4 0x09#6 d a 0#5 k m)
  | .ferf d a k m => some (encR 0x7#4 0x0A#6 d a 0#5 k m)
  | .mlds a => some (encR 0x8#4 0x00#6 0#5 a 0#5 0#3 0#4)
  | .mswap => some (encR 0x8#4 0x01#6 0#5 0#5 0#5 0#3 0#4)
  | .mma d a k => some (encR 0x8#4 0x02#6 (d.zeroExtend 5) a 0#5 k 0#4)
  | .mmas d a k => some (encR 0x8#4 0x03#6 (d.zeroExtend 5) a 0#5 k 0#4)
  | .mzero d k => some (encR 0x8#4 0x04#6 (d.zeroExtend 5) 0#5 0#5 k 0#4)
  | .mdrain d a b k m => some (encR 0x8#4 0x05#6 d (a.zeroExtend 5) b k m)
  | .mrdv d a b m => some (encR 0x8#4 0x06#6 d (a.zeroExtend 5) b 0#3 m)
  | .mwrv d a b k m => some (encR 0x8#4 0x07#6 (d.zeroExtend 5) a b k m)
  | .mmode a => some (encR 0x8#4 0x08#6 0#5 a 0#5 0#3 0#4)
  | .mwait m => some (encR 0x8#4 0x09#6 0#5 0#5 0#5 0#3 m)
  | .mtrw a m => some (encR 0x8#4 0x0A#6 0#5 (a.zeroExtend 5) 0#5 0#3 m)
  | .ld d a off => some (encMI 0x9#4 0x00#6 d a 1#2 off)
  | .st d a off => some (encMI 0x9#4 0x01#6 d a 1#2 off)
  | .vld d a sp off => some (encMI 0x9#4 0x02#6 d a sp off)
  | .vst d a sp off => some (encMI 0x9#4 0x03#6 d a sp off)
  | .vlds d a b k sp z => some (encMR 0x9#4 0x04#6 d a b k sp z)
  | .vsts d a b k sp z => some (encMR 0x9#4 0x05#6 d a b k sp z)
  | .vgath d a b k sp z => some (encMR 0x9#4 0x06#6 d a b k sp z)
  | .vscat d a b k sp z => some (encMR 0x9#4 0x07#6 d a b k sp z)
  | .ldw d a sp off => some (encMI 0x9#4 0x08#6 d a sp off)
  | .vldw d a sp off => some (encMI 0x9#4 0x09#6 d a sp off)
  | .qld d a t s => some (encMT 0x9#4 0x0A#6 d a 1#2 t s)
  | .qst d a t s => some (encMT 0x9#4 0x0B#6 d a 1#2 t s)
  | .talloc d a b m => some (encR 0x9#4 0x0C#6 d a b 0#3 m)
  | .tfree a => some (encR 0x9#4 0x0D#6 0#5 a 0#5 0#3 0#4)
  | .tstat d a => some (encR 0x9#4 0x0E#6 d a 0#5 0#3 0#4)
  | .twait a b m => some (encR 0x9#4 0x0F#6 0#5 a b 0#3 m)
  | .tset a b m => some (encR 0x9#4 0x10#6 0#5 a b 0#3 m)
  | .icinv a m => some (encR 0x9#4 0x11#6 0#5 a 0#5 0#3 m)
  | .fetchb => some (encR 0x9#4 0x12#6 0#5 0#5 0#5 0#3 0#4)
  | .gld d a sp t s => some (encMT 0xA#4 0x00#6 d a sp t s)
  | .gst d a sp t s => some (encMT 0xA#4 0x01#6 d a sp t s)
  | .vgld d a sp t s => some (encMT 0xA#4 0x02#6 d a sp t s)
  | .vgst d a sp t s => some (encMT 0xA#4 0x03#6 d a sp t s)
  | .ldacq d a sp t s => some (encMT 0xA#4 0x04#6 d a sp t s)
  | .strel d a sp t s => some (encMT 0xA#4 0x05#6 d a sp t s)
  | .promacq d a sp t s => some (encMT 0xA#4 0x06#6 d a sp t s)
  | .fence sp t s => some (encMT 0xA#4 0x07#6 0#5 0#5 sp t s)
  | .atom d a sp t s => some (encMT 0xA#4 0x08#6 d a sp t s)
  | .atomr d a sp t s => some (encMT 0xA#4 0x09#6 d a sp t s)
  | .mred d a sp t s => some (encMT 0xA#4 0x0A#6 d a sp t s)
  | .mredrd d a sp t s => some (encMT 0xA#4 0x0B#6 d a sp t s)
  | .clwb a sp t s => some (encMT 0xA#4 0x0C#6 0#5 a sp t s)
  | .clinv a sp t s => some (encMT 0xA#4 0x0D#6 0#5 a sp t s)
  | .xcopy d a b t sp => some (encMX 0xA#4 0x0E#6 d a b t sp)
  | .xgath d a b t sp => some (encMX 0xA#4 0x0F#6 d a b t sp)
  | .xscat d a b t sp => some (encMX 0xA#4 0x10#6 d a b t sp)
  | .xfill d a b t sp => some (encMX 0xA#4 0x11#6 d a b t sp)
  | .subName d a => some (encR 0xC#4 0x00#6 (d.zeroExtend 5) a 0#5 0#3 0#4)
  | .unsub a => some (encR 0xC#4 0x01#6 0#5 a 0#5 0#3 0#4)
  | .pub d a m => some (encR 0xC#4 0x02#6 (d.zeroExtend 5) a 0#5 0#3 m)
  | .pubr d a => some (encR 0xC#4 0x03#6 (d.zeroExtend 5) a 0#5 0#3 0#4)
  | .ropen d a b m => some (encR 0xC#4 0x04#6 (d.zeroExtend 5) (a.zeroExtend 5) b 0#3 m)
  | .resub d a => some (encR 0xC#4 0x05#6 (d.zeroExtend 5) a 0#5 0#3 0#4)
  | .nhold d a m => some (encR 0xC#4 0x06#6 (d.zeroExtend 5) a 0#5 0#3 m)
  | .nrel d => some (encR 0xC#4 0x07#6 (d.zeroExtend 5) 0#5 0#5 0#3 0#4)
  | .nqry d a m => some (encR 0xC#4 0x08#6 d (a.zeroExtend 5) 0#5 0#3 m)
  | .pubx d a b t sp => some (encMX 0xC#4 0x09#6 (d.zeroExtend 5) a b t sp)
  | .fend => some (encR 0xD#4 0x00#6 0#5 0#5 0#5 0#3 0#4)
  | .spawn a => some (encR 0xD#4 0x01#6 0#5 a 0#5 0#3 0#4)
  | .launchr a b m => some (encR 0xD#4 0x02#6 0#5 a b 0#3 m)
  | .yield => some (encR 0xD#4 0x03#6 0#5 0#5 0#5 0#3 0#4)
  | .tcadd a m => some (encR 0xD#4 0x04#6 0#5 a 0#5 0#3 m)
  | .tcrd d m => some (encR 0xD#4 0x05#6 d 0#5 0#5 0#3 m)
  | .tcwait a m => some (encR 0xD#4 0x06#6 0#5 a 0#5 0#3 m)
  | .bar a b m => some (encR 0xD#4 0x07#6 0#5 a b 0#3 m)
  | .barrd d a => some (encR 0xD#4 0x08#6 d a 0#5 0#3 0#4)
  | .timeq d m => some (encR 0xD#4 0x09#6 d 0#5 0#5 0#3 m)
  | .stamp d => some (encR 0xD#4 0x0A#6 d 0#5 0#5 0#3 0#4)
  | .prio a => some (encR 0xD#4 0x0B#6 0#5 a 0#5 0#3 0#4)
  | .ecfg a b m => some (encR 0xD#4 0x0C#6 0#5 a b 0#3 m)
  | .ego a b => some (encR 0xD#4 0x0D#6 0#5 a b 0#3 0#4)
  | .estat d a m => some (encR 0xD#4 0x0E#6 d a 0#5 0#3 m)
  | .eabort a m => some (encR 0xD#4 0x0F#6 0#5 a 0#5 0#3 m)
  | .trap imm => some (encI 0xE#4 0x00#6 0#5 0#5 imm)
  | .tret m => some (encR 0xE#4 0x01#6 0#5 0#5 0#5 0#3 m)
  | .ctlrd d imm => some (encI 0xE#4 0x02#6 d 0#5 imm)
  | .ctlwr a imm => some (encI 0xE#4 0x03#6 0#5 a imm)
  | .brk m => some (encR 0xE#4 0x04#6 0#5 0#5 0#5 0#3 m)
  | .evpost a b m => some (encR 0xE#4 0x05#6 0#5 a b 0#3 m)
  | .moncfg a b => some (encR 0xE#4 0x06#6 0#5 a b 0#3 0#4)
  | .monrd d a m => some (encR 0xE#4 0x07#6 d a 0#5 0#3 m)
  | .haltc a => some (encR 0xE#4 0x08#6 0#5 a 0#5 0#3 0#4)
  | .ctxsv a => some (encR 0xE#4 0x09#6 0#5 a 0#5 0#3 0#4)
  | .ctxld d a => some (encR 0xE#4 0x0A#6 d a 0#5 0#3 0#4)
  | .xadd a b d t => some (encE 0x00#6 a b d 22#5 t.act t.lit)
  | .xrnd a d t l => some (encE 0x01#6 a 22#5 d 22#5 t l)
  | .cvt a d t l => some (encE 0x02#6 a 22#5 d 22#5 t l)
  | .qmx a d t l => some (encE 0x03#6 a 22#5 d 22#5 t l)
  | .dqmx a d t => some (encE 0x04#6 a 22#5 d 22#5 t.act t.lit)
  | .cmpz a d t => some (encE 0x05#6 a 22#5 d 22#5 t.act t.lit)
  | .dcmpz a d t => some (encE 0x06#6 a 22#5 d 22#5 t.act t.lit)
  | .mrr a b d t => some (encE 0x07#6 a b d 22#5 t.act t.lit)
  | .mtag a b d t => some (encE 0x08#6 a b d 22#5 t.act t.lit)
  | .splitE a d e t l => some (encE 0x09#6 a 22#5 d e t l)
  | .dup a d e t => some (encE 0x0A#6 a 22#5 d e t.act t.lit)
  | .gate a b d t => some (encE 0x0B#6 a b d 22#5 t.act t.lit)
  | .steer a d e t l => some (encE 0x0C#6 a 22#5 d e t l)
  | .cnt a d e t => some (encE 0x0D#6 a 22#5 d e t.act t.lit)
  | .lim a d t l => some (encE 0x0E#6 a 22#5 d 22#5 t l)
  | .fifo a d t l => some (encE 0x0F#6 a 22#5 d 22#5 t l)
  | .pack a b d t => some (encE 0x10#6 a b d 22#5 t.act t.lit)
  | .unpk a d e t => some (encE 0x11#6 a 22#5 d e t.act t.lit)
  | .scl a d t l => some (encE 0x12#6 a 22#5 d 22#5 t l)
  | .hist a d e t => some (encE 0x13#6 a 22#5 d e t.act t.lit)
  | .eosg a d t l => some (encE 0x14#6 a 22#5 d 22#5 t l)
  | .sink a l => some (encE 0x15#6 a 22#5 22#5 22#5 0#4 l)
  | .srcn a d t => some (encE 0x16#6 a 22#5 d 22#5 t.act t.lit)
  | .pubn a d e t => some (encE 0x17#6 a 22#5 d e t.act t.lit)
  | .rin a d t => some (encE 0x18#6 a 22#5 d 22#5 t.act t.lit)
  | .rout a d t => some (encE 0x19#6 a 22#5 d 22#5 t.act t.lit)
  | .edgeNop a d t => some (encE 0x1A#6 a 22#5 d 22#5 t.act t.lit)
  | .halte a => some (encE 0x1B#6 a 22#5 22#5 22#5 0#4 0#2)
  | .matrixCmdStart => none
  | .matrixCmdComplete => none
  | .remoteQaccess => none
  | .icinvTakeEffect => none
  | .icacheFill => none
  | .gcacheFill => none
  | .promotionRequest => none
  | .fenceComplete => none
  | .engineCmdStart => none
  | .engineCmdComplete => none
  | .agentRequest => none
  | .hostRequestTimeout => none
  | .varResultLand => none
  | .resultWrite => none
  | .boundaryFault => none
  | .publicationRead => none
  | .subscriptionToken => none
  | .unsubscriptionToken => none
  | .publicationHop => none
  | .publicationAtHome => none
  | .subscriptionAtHome => none
  | .withdrawalAtHome => none
  | .nholdAtHome => none
  | .nrelAtHome => none
  | .nqryAtHome => none
  | .heldTokenRetry => none
  | .fallThroughFetch => none
  | .tileDelivery => none
  | .handOver => none
  | .contributionToken => none
  | .slotFlush => none
  | .contributionAtHome => none
  | .ropenAtHome => none
  | .reductionPublish => none
  | .lqtailDoorbell => none
  | .launch => none
  | .abort => none
  | .regionComplete => none
  | .schedulerSelect => none
  | .firingRetire => none
  | .launchrRun => none
  | .ecfgImageRead => none
  | .shadowCommit => none
  | .estatArrival => none
  | .eabortArrival => none
  | .periodStart => none
  | .bindingArm => none
  | .elementTokenArrival => none
  | .periodEnd => none
  | .inactivityTimeout => none
  | .drainWatchdog => none
  | .linkBeatResend => none
  | .podFormation => none
  | .seamFailure => none
  | .netwUpdate => none
  | .barrierArrival => none
  | .barrierCompletion => none
  | .waferTimeBeacon => none
  | .moncfgApply => none
  | .captureSample => none
  | .levelSample => none
  | .captureGrantWrite => none
  | .watchdog => none
  | .preemptHalt => none
  | .preemptResume => none
  | .coreHalt => none
  | .saveSequence => none
  | .landingEntryLand => none
  | .coreFailure => none
  | .coreSave => none
  | .eventRecordWrite => none
  | .eqheadWrite => none
  | .dbgselWrite => none
  | .dbgctlHalt => none
  | .dbgctlResume => none
  | .debugApertureRead => none
  | .debugApertureWrite => none
  | .debugWritePerform => none
  | .debugWriteTimeout => none
  | .bootctlRestart => none
  | .bootctlValid => none
  | .wtsetWrite => none
  | .attctlGo => none
  | .attestationReport => none
  | .registerWrite => none
  | .powerGood => none
  | .romSelfTest => none
  | .romCoreTest => none
  | .phaseOverrun => none
  | .seamTraining => none
  | .seamTrainTimeout => none
  | .electRoundMessage => none
  | .claim => none
  | .claimWindowClose => none
  | .lead => none
  | .leadTimeout => none
  | .noleader => none
  | .bootDescriptorPoll => none
  | .firmwareFetch => none
  | .firmwareReceive => none
  | .followerReportTimeout => none
  | .enumeration => none
  | .enumTimeout => none
  | .coolantOvertemp => none
  | .checkpointRestart => none
  | .translationCacheInvalidate => none
  | .linkTokenArrival => none
  | .bridgeAttachmentTraining => none

/-- The decoder that reads an instruction's word: of headers, of element words, of slot words. -/
def decoderOf : Instr → Word → Option Instr
  | .nop _ _ | .waitPoint _ => decodeHeaderOnly
  | .xadd _ _ _ _ | .xrnd _ _ _ _ | .cvt _ _ _ _ | .qmx _ _ _ _ | .dqmx _ _ _ | .cmpz _ _ _ | .dcmpz _ _ _ | .mrr _ _ _ _
  | .mtag _ _ _ _ | .splitE _ _ _ _ _ | .dup _ _ _ _ | .gate _ _ _ _ | .steer _ _ _ _ _ | .cnt _ _ _ _ | .lim _ _ _ _
  | .fifo _ _ _ _ | .pack _ _ _ _ | .unpk _ _ _ _ | .scl _ _ _ _ | .hist _ _ _ _ | .eosg _ _ _ _ | .sink _ _ | .srcn _ _ _
  | .pubn _ _ _ _ | .rin _ _ _ | .rout _ _ _ | .edgeNop _ _ _ | .halte _ => decodeEdge
  | _ => decodeSlot

end Sys2Proof
end

