-- ==== Sys2Proof/Machine/Flags.lean ====
section
/-! DEFINITION. Elements of vector registers, tag checks and widening, predication, and the rounding mode and flags of
floating-point results (04 R91, R94, R96, R97; 05 R113 to R121). -/

namespace Sys2Proof.Machine

/-- The rounding mode of an instruction without a random-word operand (04 R94); a reserved mode stands as 4 (log 60). -/
def rmode (s : State) : Nat := if s.core.regs.fpmode.ule 3#3 then s.core.regs.fpmode.toNat else 0

/-- Class F and class I formats (05 R119). -/
def isF (m : BitVec 4) : Bool := m == 3#4 || m == 4#4 || m == 5#4
def isMx (m : BitVec 4) : Bool := (6#4).ule m && m.ule 11#4

/-- Element width in a register (05 R114): MX elements take a byte each. -/
def regWidth (t : BitVec 4) : Nat := if isMx t then 8 else tagWidth t

/-- Elements of a register under a tag (05 R117). -/
def nelem (t : BitVec 4) : Nat := 2048 / regWidth t

/-- Whether an instruction of format `f` accepts an operand's tag (04 R91). -/
def tagOk (f t : BitVec 4) : Bool :=
  match f.toNat with
  | 0 => true
  | 1 => t == 1#4 || t == 12#4 || t == 2#4 || t == 0#4
  | 12 => t == 12#4 || t == 2#4 || t == 0#4
  | 3 => t == 3#4 || t == 4#4 || t == 5#4 || t == 0#4
  | 13 => t == 13#4
  | _ => t == f || t == 0#4

/-- Element e of width w. -/
def slice (d : Nat) (w e : Nat) : Nat := (d >>> (w * e)) % 2 ^ w

/-- The code of element e under tag t, padding removed (05 R117). -/
def elemCode (v : VReg) (t : BitVec 4) (e : Nat) : Nat := slice v.data.toNat (regWidth t) e % 2 ^ tagWidth t

/-- The tag an operand is read in: its own, or the instruction's where it is raw (04 R91). -/
def readTag (v : VReg) (f : BitVec 4) : BitVec 4 := if v.tag == 0#4 then f else v.tag

/-- An operand element's exact value. -/
def opndX (v : VReg) (f : BitVec 4) (e : Nat) : Exact := decodeElem (readTag v f) (elemCode v (readTag v f) e)

/-- An operand element of an integer format as a signed integer. -/
def opndI (v : VReg) (f : BitVec 4) (e : Nat) : Int :=
  signedOf (tagWidth (readTag v f)) (elemCode v (readTag v f) e)

/-- Elements of width w packed from element 0 up. -/
def pack (w : Nat) : List Nat → Nat
  | [] => 0
  | x :: t => x % 2 ^ w + 2 ^ w * pack w t

/-- Register data from elements. -/
def packV (w : Nat) (l : List Nat) : VData := BitVec.ofNat 2048 (pack w l)

/-- The lanes' data as 32-bit words. -/
def lane (v : VReg) (l : Nat) : Nat := slice v.data.toNat 32 l

/-- Predicate of element e of width w (05 R117). -/
def active (k : W64) (w e : Nat) : Bool := k.getLsbD (e * w / 32)

/-- Mask bits widened to lanes of 32 bits. -/
def laneMask (k : W64) : VData :=
  packV 32 ((List.range 64).map fun l => if k.getLsbD l then 0xFFFFFFFF else 0)

/-- Block i is written when any of its lanes is active (05 R118). -/
def blockOn (k : W64) (i : Nat) : Bool := slice k.toNat 8 i != 0

/-- Mask bits widened to blocks of 256 bits, and to the blocks' scale bytes. -/
def blockMask (k : W64) : VData :=
  packV 256 ((List.range 8).map fun i => if blockOn k i then 2 ^ 256 - 1 else 0)
def scaleMask (k : W64) : BitVec 64 := BitVec.ofNat 64 (pack 8 ((List.range 8).map fun i => if blockOn k i then 255 else 0))

/-- Data with the padding bits of an MX layout cleared (05 R114). -/
def unpad (t : BitVec 4) (d : VData) : VData :=
  if t == 8#4 || t == 9#4 then d &&& packV 8 (List.replicate 256 0x3F)
  else if t == 10#4 then d &&& packV 8 (List.replicate 256 0x0F)
  else d

/-- Writes a result under a predicate (05 R118): by block under an MX tag, padding cleared in the blocks that keep their elements
too (R114), else by lane; the tag is always set. -/
def merge (k : W64) (old new : VReg) : VReg :=
  if isMx new.tag then
    let m := blockMask k
    let sm := scaleMask k
    { tag := new.tag, scale := (new.scale &&& sm) ||| (old.scale &&& ~~~sm)
      data := unpad new.tag ((new.data &&& m) ||| (old.data &&& ~~~m)) }
  else
    let m := laneMask k
    { tag := new.tag, scale := new.scale, data := (new.data &&& m) ||| (old.data &&& ~~~m) }

/-- Element-wise results in format m with the flags of the written elements ORed (04 R97). -/
def elementwise (m : BitVec 4) (k : W64) (old : VReg) (f : Nat → Nat × Flags) : VReg × Flags :=
  let w := regWidth m
  let rs := (List.range (nelem m)).map fun e => if active k w e then f e else (slice old.data.toNat w e, 0#5)
  ({ tag := m, scale := 0#64, data := packV w (rs.map Prod.fst) }, rs.foldl (fun a p => a ||| p.2) 0#5)

/-- The floating-point format of a class-F tag. -/
def fmtF (m : BitVec 4) : Fmt := (fmtOf m).getD fmtFP32

/-- A value of class F rounded in the instruction's mode, its own flags ORed in. -/
def roundTo (mode : Nat) (m : BitVec 4) (r : Exact × Flags) (satur : Bool := false) : Nat × Flags :=
  let (c, fl) := roundFmt r.1 (fmtF m) mode 0 satur
  (c, fl ||| r.2)

/-- The tag check of 02 R55 on an operand. -/
def tagCheck (f : BitVec 4) (v : VReg) : Check := { bad := !tagOk f v.tag, cause := .formatMismatch }

/-- A vector result: tag checks, the collision check, the description's own checks, then the result on its way. -/
def vresult (lat : Nat) (d : Reg) (tags own : List Check) (r : VReg × Flags) (s : State) : State :=
  let p : Pending := { rem := lat, put := .v d r.1, flags := r.2 }
  guarded (tags ++ collision p s :: own) (launchResult p) s

/-- A scalar result of the vector unit. -/
def sresult (lat : Nat) (d : Reg) (tags own : List Check) (x : W64) (fl : Flags) (s : State) : State :=
  let p : Pending := { rem := lat, put := .s d x, flags := fl }
  guarded (tags ++ collision p s :: own) (launchResult p) s

end Sys2Proof.Machine
end

