-- ==== Sys2Proof/Machine/Tiles.lean ====
section
/-! DEFINITION. Core buffers and the tile table (07_core_memories R166 to R174), the landing of responses (02 R54, 14
R350, 12 R311), and the operation list of a core. -/

namespace Sys2Proof.Machine

/-- Sizes of the buffers by code (R166). -/
def bufSize (b : BitVec 2) : Nat :=
  match b.toNat with
  | 0 => 0x60000 | 1 => 0xC0000 | 2 => 0x40000 | _ => 0

/-- A buffer by code. -/
def Core.buf (c : Core) (b : BitVec 2) : Memory :=
  match b.toNat with
  | 0 => c.bufW | 1 => c.bufA | 2 => c.bufC | _ => []

def Core.setBuf (c : Core) (b : BitVec 2) (m : Memory) : Core :=
  match b.toNat with
  | 0 => { c with bufW := m } | 1 => { c with bufA := m } | 2 => { c with bufC := m } | _ => c

/-- Poison leaves the words that writes to ranges of bytes, by start and length, have rewritten whole between them (R170). -/
def Core.clearBad (c : Core) (b : BitVec 2) (l : List (Nat × Nat)) : Core :=
  let whole (w : Nat) : Bool := (List.range 8).all fun i => l.any fun r => decide (r.1 ≤ 8 * w + i) && decide (8 * w + i < r.1 + r.2)
  { c with badWord := c.badWord.filter fun w => !(w.1 == b.toNat && whole w.2) }

/-- Writes bytes and clears the poison of wholly written words (R170). -/
def Core.store (c : Core) (b : BitVec 2) (a x n : Nat) : Core := (c.setBuf b (wrN (c.buf b) a x n)).clearBad b [(a, n)]

/-- Reads bytes. -/
def Core.load (c : Core) (b : BitVec 2) (a n : Nat) : Nat := rdN (c.buf b) a n

/-- A word of a range is poisoned (R170). -/
def Core.bad (c : Core) (b : BitVec 2) (a n : Nat) : Bool :=
  c.badWord.any fun w => w.1 == b.toNat && decide (8 * w.2 < a + n) && decide (a < 8 * w.2 + 8)

def Core.setTile (c : Core) (i : Nat) (t : Tile) : Core := { c with tiles := put {} i t c.tiles }

def Tile.base (t : Tile) : Nat := 64 * t.line.toNat
def Tile.size (t : Tile) : Nat := t.sizem1.toNat + 1

/-- The bitmap with a tile's lines set. -/
def fillAll (nl : Nat) : BitVec 1024 := BitVec.ofNat 1024 (2 ^ nl - 1)

def TState.code : TState → BitVec 2
  | .empty => 0#2 | .filling => 1#2 | .ready => 2#2 | .draining => 3#2

/-- The tile word (R171). -/
def Tile.word (t : Tile) : W64 :=
  t.holds ++ t.owner ++ BitVec.ofBool t.fsc ++ BitVec.ofBool t.nb ++ t.tag ++ t.buf ++ t.state.code
    ++ BitVec.ofBool t.pf ++ t.sizem1 ++ t.line ++ 0#3 ++ BitVec.ofNat 11 t.fillc

/-- The tile reaches READY: every fill bit set; a dying tile becomes EMPTY instead (R173). -/
def Tile.toReady (t : Tile) : Tile :=
  if t.dying then {} else { t with state := .ready, pf := false, fill := fillAll t.nl, filler := .none }

/-- The tile starts to fill: READY to FILLING with PF 0, fill bits cleared. -/
def Tile.toFilling (t : Tile) (f : Filler) : Tile := { t with state := .filling, pf := false, fill := 0#1024, filler := f }

def Tile.toDraining (t : Tile) (f : Filler) : Tile := { t with state := .draining, filler := f }

/-- Lines LINE to LINE + nl - 1 hold the address. -/
def Tile.holdsAddr (t : Tile) (b : BitVec 2) (a : Nat) : Bool :=
  t.state != .empty && t.buf == b && decide (t.base ≤ a) && decide (a < t.base + 64 * t.nl)

/-- The non-EMPTY tile of a buffer whose lines hold an address. -/
def Core.tileOf (c : Core) (b : BitVec 2) (a : Nat) : Option (Nat × Tile) := c.tiles.find? fun p => p.2.holdsAddr b a

/-- A range of bytes touches a line of the tile. -/
def Tile.touches (t : Tile) (b : BitVec 2) (a n : Nat) : Bool :=
  t.state != .empty && t.buf == b && decide (t.base < a + n) && decide (a < t.base + 64 * t.nl)

/-- A store is refused: it touches a tile that a writer fills or a reader drains (R174). -/
def Core.storeRefused (c : Core) (b : BitVec 2) (a n : Nat) : Bool :=
  c.tiles.any fun p => p.2.touches b a n && ((p.2.state == .filling && !p.2.pf) || p.2.state == .draining)

/-- The tile slot a scalar names: bits 7 to 0 (R171). -/
def slotOf (x : W64) : Nat := (x.extractLsb' 0 8).toNat

/-- The tile interlock on a slot (R174): EMPTY faults at once, any other state but READY holds the bundle; an
instruction that changes the tile also waits for HOLDS 0. -/
def emptyCheck (s : State) (i : Nat) : Check := { bad := (s.core.tile i).state == .empty, cause := .tileState }
def interlock (s : State) (i : Nat) (change : Bool) : Bool :=
  (s.core.tile i).state != .ready || (change && (s.core.tile i).holds != 0#5)

/-- Words of a local access, for the bank conflicts of R180. -/
def wordsOfAccess (b : BitVec 2) (a n : Nat) : List (Nat × Nat) :=
  (List.range ((a + n + 7) / 8 - a / 8)).map fun i => (b.toNat, a / 8 + i)

def noteWords (ws : List (Nat × Nat)) (s : State) : State := { s with issue := { s.issue with words := s.issue.words ++ ws } }

/-! Deferred faults. -/

/-- The pending faults of a firing: at its next boundary, or in its frame. -/
def Core.faultsOf (c : Core) (fid : W64) : List Deferred :=
  if c.runs fid then c.faults
  else match c.ready.find? fun e => e.kind == .yielded && e.fid == fid with
    | some e => (findD e.yfr.toNat {} c.yframes).faults
    | none => []

/-- A deferred fault for a firing (08 R208): pending at its next boundary, or in its frame. At most 16 wait (14 R352);
the event that brings a 17th is not enabled. One that tret.end ends takes none (14 R356). -/
def Core.defer (c : Core) (fid : W64) (d : Deferred) : Core :=
  if c.runs fid then (if c.ending = .trapEnd then c else { c with faults := c.faults ++ [d] })
  else c.onFrame fid fun fr => { fr with faults := fr.faults ++ [d] }

/-- Room for a further pending fault of a firing. -/
def Core.faultRoom (c : Core) (fid : W64) : Bool := decide ((c.faultsOf fid).length < 16)

/-! The operation list. -/

/-- Appends an operation of the running firing. -/
def Core.addOp (c : Core) (o : Op) : Core :=
  { c with ops := c.ops ++ [{ o with ser := c.nextSer, fid := c.regs.fireid, fw := c.fwm, born := c.cycle }], nextSer := c.nextSer + 1 }

def addOp (o : Op) (s : State) : State := s.onCore fun c => c.addOp o

/-- Replaces operation j. -/
def Core.setOp (c : Core) (j : Nat) (o : Op) : Core := { c with ops := setAt c.ops j o }

/-- Removes operation j. -/
def Core.dropOp (c : Core) (j : Nat) : Core := { c with ops := dropAt c.ops j }

/-- The position of the operation with a serial. -/
def Core.opIdx (c : Core) (ser : Nat) : Option Nat := c.ops.findIdx? fun o => o.ser == ser

/-- A field of a word. -/
def fld (x : W64) (lo w : Nat) : Nat := (x.extractLsb' lo w).toNat

/-- An event's input. -/
def inp (s : State) (i : Nat) : Nat := s.input.getD i 0

end Sys2Proof.Machine
end

