-- ==== Sys2Proof/Machine/Agent.lean ====
section
/-! DEFINITION. Global addresses, page walks, the hem agents and the G-cache (08_wafer_memory R197 to R206, 07 R193, R194;
09_memory_model R229 to R234). -/

namespace Sys2Proof.Machine

/-- The cores by number: the one in focus, or a parked one. -/
def State.coreAt (s : State) (n : Nat) : Core := if n = s.cur then s.core else findD n Core.reset s.parked

def State.setCoreAt (s : State) (n : Nat) (c : Core) : State :=
  if n = s.cur then { s with core := c } else { s with parked := insert n c s.parked }

/-- Moves the focus to a core. -/
def State.focus (s : State) (n : Nat) : State :=
  if n = s.cur then s
  else { s with core := findD n Core.reset s.parked, cur := n, parked := insert s.cur s.core (erase n s.parked) }

/-- A region's record. -/
def State.region (s : State) (r : Nat) : Region := findD r {} s.regions

/-- The region of the core in focus, and its task count. -/
def regionOf (s : State) : Nat := s.core.regnum
def taskCount (s : State) : Nat := (s.region (regionOf s)).tasks

/-- port_of and hem_of (08 R198). -/
def portOf (va : Nat) : Nat :=
  let f (lo w : Nat) : Nat := (va >>> lo) % 2 ^ w
  f 21 5 ^^^ f 26 5 ^^^ f 31 5 ^^^ f 36 5 ^^^ f 41 5 ^^^ f 46 2
def hemOf (va : Nat) : Nat := portOf va / 2

/-- The host window: WIN = 0xF (08 R197). -/
def isHost (va : Nat) : Bool := (va >>> 52) % 16 == 15

/-- What an access needs of its page (08 R202). -/
inductive Need where
  | read | write | fetch | both
deriving DecidableEq, Repr

/-- A translated address. -/
structure PA where
  host : Bool
  addr : Nat
  writable : Bool
deriving DecidableEq, Repr

/-- An HBM line is poisoned. -/
def State.lineBad (s : State) (pa : Nat) : Bool := s.badLine.contains (pa / 64)

/-- The index fields of the five levels: low bit and width (08 R200). -/
def walkLevels : List (Nat × Nat × Nat) := [(1, 47, 9), (2, 38, 9), (3, 29, 9), (4, 21, 8), (5, 16, 5)]

/-- A leaf's own checks (08 R201, R202). -/
def leafOk (va : Nat) (bits : Nat) (e : BitVec 64) : Bool :=
  let pa := (e.extractLsb' 12 40).toNat * 4096
  (e.getLsbD 5 == isHost va) && pa % 2 ^ bits == 0 &&
    (e.getLsbD 5 || (pa < 2 ^ 41 && pa >>> 36 == portOf va))

/-- The walk from a table base: the leaf and its page bits (08 R200 to R202). -/
def walkFrom (s : State) (va : Nat) : List (Nat × Nat × Nat) → Nat → Option (BitVec 64 × Nat)
  | [], _ => none
  | (lvl, lo, w) :: t, base =>
    let ea := base + 8 * ((va >>> lo) % 2 ^ w)
    if base / 2 ^ 41 != 0 || !s.ports.getLsbD (base >>> 36) || s.lineBad ea then none
    else
      let e := BitVec.ofNat 64 (rdN s.hbm ea 8)
      if !e.getLsbD 0 || e.extractLsb' 52 12 != 0#12 || e.extractLsb' 6 6 != 0#6 || (lvl < 4 && e.getLsbD 4) then none
      else if lvl == 5 || (lvl == 4 && e.getLsbD 4) then
        if leafOk va lo e then some (e, lo) else none
      else walkFrom s va t ((e.extractLsb' 12 40).toNat * 4096)

/-- The leaf for an address: a cached one, or that of a walk. -/
def leafFor (s : State) (r va : Nat) : Option (BitVec 64 × Nat) :=
  match s.tlb.find? fun t => t.die == hemOf va && t.region == r && t.page == va >>> t.bits with
  | some t => some (t.leaf, t.bits)
  | none => (find? r s.roots).bind fun root => walkFrom s va walkLevels root

/-- Translation and permission (08 R202). An address beyond 2^56 − 1 has no translation: so the spec says of engine rows and of cells, and the
later lines of a VGLD or VGST take GLOBAL_XLATE likewise (DESIGN CHOICE, log 81). -/
def xlate (s : State) (r va : Nat) (need : Need) : Except Cause PA :=
  match if 2 ^ 56 ≤ va then none else leafFor s r va with
  | none => .error .globalXlate
  | some (e, bits) =>
    let ok := match need with
      | .read => e.getLsbD 1
      | .write => e.getLsbD 2
      | .fetch => e.getLsbD 3
      | .both => e.getLsbD 1 && e.getLsbD 2 && !e.getLsbD 5
    if ok then .ok { host := e.getLsbD 5, addr := (e.extractLsb' 12 40).toNat * 4096 + va % 2 ^ bits, writable := e.getLsbD 2 }
    else .error .globalPerm

/-- Drops entry k of an agent's translations. -/
def dropTlb (die : Nat) : Nat → List Tlb → List Tlb
  | _, [] => []
  | k, t :: ts => if t.die != die then t :: dropTlb die k ts else match k with | 0 => ts | k + 1 => t :: dropTlb die k ts

/-- A successful walk's leaf is cached at the agent, before what the access then does or meets: a write to its own page's entry caches
the leaf it used. The agent's cache holds 65,536: which one leaves a
full cache is free (08 R203, log 7). -/
def cacheLeaf (s : State) (r va : Nat) : State :=
  let die := hemOf va
  match s.tlb.find? fun t => t.die == die && t.region == r && t.page == va >>> t.bits with
  | some _ => s
  | none =>
    match if 2 ^ 56 ≤ va then none else leafFor s r va with
    | some (e, bits) =>
      let new : Tlb := ⟨die, r, va >>> bits, bits, e⟩
      if s.tlb.countP (fun t => t.die == die) < 65536 then { s with tlb := new :: s.tlb }
      else { s with tlb := new :: dropTlb die (Config.freeBits 16 s.fresh).toNat s.tlb, fresh := s.fresh + 1 }
    | none => s

/-- n bytes at the agent, within one line: read permission, poison (08 R205). -/
def agentRead (s : State) (r va n : Nat) (need : Need) : Except Cause Nat := do
  let p ← xlate s r va need
  if p.host then .ok (rdN s.host p.addr n)
  else if s.lineBad p.addr then .error .poison
  else .ok (rdN s.hbm p.addr n)

/-- Masked bytes written at the agent from a line's start; a write of all 64 bytes clears the poison (08 R205). -/
def agentWrite (s : State) (r va n mask x : Nat) : Except Cause State := do
  let p ← xlate s r va .write
  if p.host then .ok { s with host := wrMask s.host p.addr mask x n }
  else
    let full := n == 64 && mask % 2 ^ 64 == 2 ^ 64 - 1
    .ok { s with hbm := wrMask s.hbm p.addr mask x n
                 badLine := if full then s.badLine.filter (· != p.addr / 64) else s.badLine }

/-! The G-cache of the core in focus (07 R193, R194). Lines are numbered by address over 64. -/

/-- Byte masks widened to bits. -/
def byteMask (m : Nat) (n : Nat) : Nat := pack 8 ((List.range n).map fun i => if m.testBit i then 255 else 0)

/-- Replaces the masked bytes of x by those of y. -/
def mixBytes (n m x y : Nat) : Nat :=
  let bm := byteMask m n
  (x &&& (2 ^ (8 * n) - 1 - bm)) ||| (y &&& bm)

def Core.gline (c : Core) (l : Nat) : Option GLine := find? l c.gcache

/-- A line without a valid byte leaves the cache. -/
def Core.setGline (c : Core) (l : Nat) (g : GLine) : Core :=
  { c with gcache := if g.valid = 0#64 then erase l c.gcache else insert l g c.gcache }

/-- Writes the masked bytes of a line. -/
def GLine.write (g : GLine) (mask x : Nat) (dirty : Bool) : GLine :=
  let m := BitVec.ofNat 64 mask
  { g with data := BitVec.ofNat 512 (mixBytes 64 mask g.data.toNat x), valid := g.valid ||| m
           dirty := if dirty then g.dirty ||| m else g.dirty &&& ~~~m }

/-- Fills the bytes that are not valid (07 R194). -/
def GLine.fillFrom (g : GLine) (x : Nat) (w : Bool) : GLine :=
  { data := BitVec.ofNat 512 (mixBytes 64 (~~~g.valid).toNat g.data.toNat x), valid := BitVec.allOnes 64, dirty := g.dirty
    w := some w }

/-- A line's dirty bytes are written back (07 R194); a failing write-back is dropped (08 R203). Its log entry goes (09
R234). -/
def wbLine (l : Nat) (s : State) : State :=
  match s.core.gline l with
  | none => s
  | some g =>
    if g.dirty = 0#64 then s
    else
      let s := cacheLeaf s (regionOf s) (64 * l)
      let s := match agentWrite s (regionOf s) (64 * l) 64 g.dirty.toNat g.data.toNat with | .ok s' => s' | .error _ => s
      s.onCore fun c => { c.setGline l { g with dirty := 0#64 } with darn := c.darn.filter fun d => d.line != l }

/-- Invalidates a line's clean bytes. -/
def Core.invClean (c : Core) (l : Nat) : Core :=
  match c.gline l with
  | some g => c.setGline l { g with valid := g.dirty }
  | none => c

/-- Every dirty line, in ascending order. -/
def Core.dirtyLines (c : Core) : List Nat := (c.gcache.filter fun p => p.2.dirty != 0#64).map Prod.fst

/-- Every dirty byte is written back. -/
def wbAll (s : State) : State := s.core.dirtyLines.foldl (fun s l => wbLine l s) s

/-- A wafer release (09 R229): every dirty byte written back, the darn log emptied. RSEQ keeps its value, by the end of R233 and against
R229's "all that a core release does" (log 73). -/
def waferRelease (s : State) : State := (wbAll s).onCore fun c => { c with darn := [] }

/-- A wafer acquire (09 R229): every clean byte invalidated. -/
def Core.waferAcquire (c : Core) : Core := (c.gcache.map Prod.fst).foldl Core.invClean c

/-- The oldest entries of the log first: by SEQ, then LINE (09 R233). -/
def darnInsert (d : DarnEntry) : List DarnEntry → List DarnEntry
  | [] => [d]
  | e :: t => if d.seq.ult e.seq || (d.seq == e.seq && d.line < e.line) then d :: e :: t else e :: darnInsert d t
def darnSort (l : List DarnEntry) : List DarnEntry := l.foldr darnInsert []

/-- A line holds a dirty byte. -/
def Core.dirtyAt (c : Core) (l : Nat) : Bool := match c.gline l with | some g => g.dirty != 0#64 | none => false

/-- One dirty line enters the log with the release's number; a full log first writes back its 128 oldest. -/
def logLine (l : Nat) (s : State) : State :=
  if s.core.darn.any fun d => d.line == l then
    s.onCore fun c => { c with darn := c.darn.map fun d => if d.line == l then { d with seq := c.rseq } else d }
  else if !s.core.dirtyAt l then s
  else
    let s := if 256 ≤ s.core.darn.length then
        ((darnSort s.core.darn).take 128).foldl (fun s d => (wbLine d.line s).onCore fun c =>
          { c with darn := c.darn.filter fun e => e.line != d.line }) s
      else s
    -- a line written back by the overflow is no longer dirty and is not entered
    if s.core.dirtyAt l then s.onCore fun c => { c with darn := c.darn ++ [⟨c.rseq, l⟩] } else s

/-- A core release (09 R233). -/
def coreRelease (s : State) : State :=
  let s := s.onCore fun c => { c with rseq := c.rseq + 1#64 }
  s.core.dirtyLines.foldl (fun s l => logLine l s) s

/-- The requested bytes of a line under a mask, from the first requested byte. -/
def GLine.maskAt (m : BitVec 64) (off n : Nat) : Nat := (m.toNat >>> off) % 2 ^ n

/-- Eviction of a line (07 R193): its dirty bytes are written back. -/
def evictLine (l : Nat) (s : State) : State := (wbLine l s).onCore fun c => { c with gcache := erase l c.gcache }

/-- Lines of the set that a line belongs to: VA[13:6] (07 R193). -/
def Core.setLines (c : Core) (l : Nat) : List Nat := (c.gcache.filter fun p => p.1 % 256 == l % 256).map Prod.fst

/-- Room for a line: of a set with eight others one is evicted; which one is free (07 R193, log 7). -/
def makeWay (l : Nat) (s : State) : State :=
  let ls := s.core.setLines l
  if ls.contains l || ls.length < 8 then s
  else { evictLine (ls.getD (Config.freeBits 3 s.fresh).toNat l) s with fresh := s.fresh + 1 }

/-- The HBM line that is the home of a line whose page is mapped to HBM. -/
def homeLine (s : State) (reg l : Nat) : Option Nat :=
  match leafFor s reg (64 * l) with
  | some (e, bits) => if e.getLsbD 5 then none else some (((e.extractLsb' 12 40).toNat * 4096 + (64 * l) % 2 ^ bits) / 64)
  | none => none

/-- A line is poisoned at its home, where it has one in HBM (08 R205). -/
def poisonLine (reg : Nat) (s : State) (l : Nat) : State :=
  match homeLine s reg l with
  | some h => { s with badLine := if s.badLine.contains h then s.badLine else h :: s.badLine }
  | none => s

/-- An uncorrectable error in 8-byte word w of a G-cache line (07 R194): a clean line will be filled anew; dirty bytes are written
back as poisoned at their home, unless the write-back fails translation and is dropped (08 R203). An error in the clean bytes of a dirty
line takes those alone. -/
def spoilLineWord (l w : Nat) (s : State) : State :=
  match s.core.gline l with
  | none => s
  | some g =>
    if (g.dirty.toNat >>> (8 * (w % 8))) % 256 = 0 then s.onCore fun c => c.invClean l
    else
      let ok := match xlate s (regionOf s) (64 * l) .write with | .ok _ => true | .error _ => false
      let s := if ok then poisonLine (regionOf s) (wbLine l s) l else wbLine l s
      s.onCore fun c => { c with gcache := erase l c.gcache }

end Sys2Proof.Machine
end

