-- ==== Sys2Proof/Machine/Global.lean ====
section
/-! DEFINITION. Group 0xA but for the engines: loads, stores, acquire and release, fences, atomics, Mangle cells and cache
maintenance, and the steps that perform them (08_wafer_memory R207 to R220; 09_memory_model R226 to R240). -/

namespace Sys2Proof.Machine

/-! Issue. -/

/-- Check 1 of R207: address bits 63 to 56; TRAPVAL is the register (R197). -/
def addrCheck (x : W64) : Check := { bad := x.extractLsb' 56 8 != 0#8, cause := .globalXlate, val := some x }
def alignCheck (x : W64) (n : Nat) : Check := { bad := x.toNat % n != 0, cause := .misaligned }

/-- Scope code of the s field: wafer or pod at 4 and 5 (R210). -/
def scopeOf (f : BitVec 6) : Nat := (f.extractLsb' 3 3).toNat
def sizeCode (f : BitVec 6) : Nat := (f.extractLsb' 0 3).toNat

/-- Bytes of an access by size code: .d, .w, .ws, .b (R210). -/
def sizeBytes (z : Nat) : Nat := match z with | 0 => 8 | 1 => 4 | 2 => 4 | 3 => 1 | _ => 256

/-- An access is served at the agent: wafer or pod scope, or the host window (R211). -/
def atAgent (scope : Nat) (ea : Nat) : Bool := decide (4 ≤ scope) || isHost ea

/-- The line of an address and the offset in it. -/
def lineOf (a : Nat) : Nat := a / 64

/-- Lines of an access of n bytes. -/
def linesOf (ea n : Nat) : List Nat := (List.range ((ea + n + 63) / 64 - ea / 64)).map fun i => ea / 64 + i

/-! Order (09 R226, R229). -/

/-- A global access, in the sense of 09 R226 and 08 R209. -/
def OpKind.isGlobal : OpKind → Bool
  | .gload .. | .gstore _ | .claim .. | .ldacq _ | .strel _ | .promacq .. | .fence _ | .atom .. | .mred ..
  | .mredrd .. | .clwb _ | .clinv _ => true
  | _ => false

def OpKind.isEngine : OpKind → Bool
  | .engine .. | .pubx .. => true
  | _ => false

/-- An acquire, a release (09 R229); atomics and cell operations are both at wafer scope. -/
def Op.acquires (o : Op) : Bool :=
  match o.kind with
  | .ldacq _ | .promacq .. => true
  | .atom .. | .mred .. | .mredrd .. => decide (4 ≤ o.scope)
  | _ => false

def Op.releases (o : Op) : Bool :=
  match o.kind with
  | .strel _ => true
  | .atom .. | .mred .. | .mredrd .. => decide (4 ≤ o.scope)
  | _ => false

/-- The access has been performed, or has its answer. -/
def Op.performed (o : Op) : Bool := o.resp || decide (o.parts ≤ o.done.length)

/-- An acquire at wafer scope or above, which invalidates the clean bytes once its value has arrived (09 R229). DESIGN CHOICE (log 78): an
LDACQ or STREL at core scope to the host window, performed as a wafer-scope access (07 R193), acquires or releases at core scope only. -/
def Op.wideAcquire (o : Op) : Bool := o.acquires && (match o.kind with | .promacq .. => true | _ => decide (4 ≤ o.scope))

/-- Later accesses need wait for it no longer: performed and, for a wide acquire, landed (09 R230). -/
def Op.settled (o : Op) : Bool := o.performed && !o.wideAcquire

/-- A fence covers a class (R214). -/
def Op.fenceCovers (o : Op) (cls : Nat) : Bool :=
  match o.kind with
  | .fence all => all || o.cls == cls
  | _ => false

/-- An earlier access must be performed before a later one is (09 R226). A later fence is treated by its own rule. -/
def mustPrecede (e x : Op) : Bool :=
  e.fid == x.fid && e.kind.isGlobal && !e.settled &&
    (match e.kind with
      | .fence _ => e.fenceCovers x.cls
      | _ => e.cls == x.cls || e.acquires || x.releases)

/-- A BAR.ra of the firing, issued earlier with a scope of `least` or more, has not completed: its acquire comes first (09 R245), for global
memory at every scope, for the A-buffer from .qd on. -/
def Core.barBefore (c : Core) (least : Nat) (o : Op) : Bool :=
  (c.ops.any fun e => e.fid == o.fid && decide (e.ser < o.ser) &&
      (match e.kind with | .bar scope ra _ => ra && decide (least ≤ scope) | _ => false))
    || c.arrivals.any fun a => a.fid == o.fid && a.ra && decide (least ≤ a.scope) && decide (a.ser < o.ser)

/-! What an access does at the G-cache (08 R211, 09 R228): in program order, at issue unless an earlier access is still to come. -/

/-- Bytes and lines of an access that the G-cache takes part in. -/
def Op.bytes (o : Op) : Nat :=
  match o.kind with
  | .gload z _ | .ldacq z => sizeBytes z
  | .gstore n | .strel n | .claim _ n => n
  | _ => 0

/-- The lines of the G-cache that an access meets: none of the host window (07 R193), every line for CLWB and CLINV of all. -/
def Op.cacheLines (o : Op) : Option (List Nat) :=
  let own (l : List Nat) : Option (List Nat) := some (l.filter fun x => !isHost (64 * x))
  match o.kind with
  | .gload z _ | .ldacq z => own (linesOf o.va.toNat (sizeBytes z))
  | .gstore n | .strel n | .claim _ n => own (linesOf o.va.toNat n)
  | .atom .. | .mredrd .. | .promacq .. => own [o.va.toNat / 64]
  | .mred .. => own (linesOf o.va.toNat (64 * o.parts))
  | .clwb l | .clinv l => l.map fun x => [x]
  | _ => some []

/-- An access still to meet the G-cache: one put off, or one without its bytes or not performed that reads or flushes lines there. -/
def Op.inCache (o : Op) : Bool :=
  o.wait || (match o.kind with
    | .gload .. | .ldacq _ | .promacq .. | .atom .. | .mred .. | .mredrd .. | .clwb _ | .clinv _ => !o.performed
    | _ => false)

/-- An earlier access of the firing that the G-cache serves first (09 R228): one put off, before any that meets the cache, in program order
whatever the class and the line; one of a common line whose bytes are still to come or that is still to be performed. -/
def cacheFirst (e o : Op) : Bool :=
  e.fid == o.fid && ((e.wait && o.cacheLines != some []) || (e.inCache &&
    match e.cacheLines, o.cacheLines with
    | some x, some y => x.any y.contains
    | none, some y => !y.isEmpty
    | some x, none => !x.isEmpty
    | none, none => true))

/-- Every access ordered before operation j has been performed. -/
def mayPerform (c : Core) (j : Nat) (o : Op) : Bool := ((c.ops.take j).all fun e => !mustPrecede e o && !cacheFirst e o) && !c.barBefore 0 o

/-- A part of an access goes to the agent: by its scope, or in the host window (07 R193). -/
def Op.partAtAgent (o : Op) (i : Nat) : Bool := atAgent o.scope (o.va.toNat + 64 * i)

/-- An earlier access of the firing that comes first where operation o is put off: one that must precede, or that the G-cache serves
first. A core release logs every earlier store. -/
def servedBefore (e o : Op) : Bool :=
  cacheFirst e o || e.fid == o.fid && match o.kind with | .strel _ | .qst .. => e.wait | _ => mustPrecede e o

def mayServe (c : Core) (j : Nat) (o : Op) : Bool :=
  ((c.ops.take j).all fun e => !servedBefore e o) &&
    (match o.kind with | .strel _ | .qst .. => true | _ => !c.barBefore 0 o)

/-- The bytes of part i that a mask of the G-cache's line covers. -/
def cachedMask (c : Core) (o : Op) (dirtyOnly : Bool) (i : Nat) : Nat :=
  let va := o.va.toNat + 64 * i
  match c.gline (va / 64) with
  | some g => GLine.maskAt (if dirtyOnly then g.dirty else g.valid) (va % 64) (min o.bytes 64)
  | none => 0

/-- The bytes of part i in the G-cache's line. -/
def cachedBytes (c : Core) (o : Op) (i : Nat) : Nat :=
  let va := o.va.toNat + 64 * i
  match c.gline (va / 64) with
  | some g => (g.data.toNat >>> (8 * (va % 64))) % 2 ^ (8 * min o.bytes 64)
  | none => 0

/-- A part is done; the last one makes the answer. -/
def Op.finish (o : Op) (i : Nat) : Op :=
  let o := { o with done := i :: o.done }
  { o with resp := decide (o.parts ≤ o.done.length) }

/-- Puts part i's bytes into the answer. -/
def Op.take (o : Op) (i x : Nat) : Op := { o with got := o.got ||| (x <<< (8 * min o.bytes 64 * i)) }

/-- A core-scope load takes the lines whose requested bytes are all valid (R211, R228); the others are to be filled. -/
def Op.hits (c : Core) (o : Op) : Op :=
  (List.range o.parts).foldl (fun (o : Op) i =>
    if !o.done.contains i && !o.partAtAgent i && cachedMask c o false i == 2 ^ min o.bytes 64 - 1 then
      (o.take i (cachedBytes c o i)).finish i
    else o) { o with wait := false }

/-- Writes an access's bytes into the G-cache (R194); no line of the host window (R193). -/
def gWrite (ea n x : Nat) (dirty : Bool) (s : State) : State :=
  let len := min n 64
  let mask := (2 ^ len - 1) <<< (ea % 64)
  ((linesOf ea n).zip (List.range 4)).foldl (fun s p =>
    if isHost (64 * p.1) then s
    else
      (makeWay p.1 s).onCore fun c => c.setGline p.1
        (((c.gline p.1).getD {}).write mask ((slice x (8 * len) p.2) <<< (8 * (ea % 64))) dirty)) s

/-- A core-scope store's lines that need no claim: present ones whose page is known to be writable (R207, R211). A line that came in with W
clear, after the check at issue, is claimed, and the claim finds the permission missing. -/
def claimed (c : Core) (ls : List Nat) : List Nat :=
  (List.range ls.length).filter fun i => !isHost (64 * ls.getD i 0) && (c.gline (ls.getD i 0)).bind GLine.w == some true

/-- Operation j, put off, takes effect at the G-cache or in the darn log. -/
def serve (j : Nat) (o : Op) (s : State) : State :=
  let ea := o.va.toNat
  match o.kind with
  | .gload _ _ | .ldacq _ => s.onCore fun c => c.setOp j (o.hits c)
  | .claim ls n =>
    let have_ := claimed s.core ls
    let s := gWrite ea n o.data true s
    if have_.length = ls.length && o.tc == 0#4 then s.onCore fun c => c.dropOp j
    else s.onCore fun c => c.setOp j { o with wait := false, done := have_, resp := decide (have_.length = ls.length) }
  | .gstore n => (gWrite ea n o.data false s).onCore fun c => c.setOp j { o with wait := false }
  | .strel n =>
    let s := if o.scope < 4 then coreRelease s else s
    (gWrite ea n o.data false s).onCore fun c => c.setOp j { o with wait := false }
  | .qst .. => (coreRelease s).onCore fun c => c.setOp j { o with wait := false }
  | _ => s

/-- The model's own turn: operation j, put off, is served once it may be. -/
def serveTurn (j : Nat) (s : State) : State :=
  match s.core.ops[j]? with
  | some o => if o.wait && mayServe s.core j o then serve j o s else s
  | none => s

/-- Issues an access that takes effect at the G-cache: at once where nothing precedes it. -/
def issueAccess (o : Op) (s : State) : State := serveTurn s.core.ops.length (addOp { o with wait := true } s)

/-- Issues a load (R211): at core scope the G-cache serves it, the missing lines being filled; otherwise its agents do. -/
def issueLoad (kind : Nat → Bool → OpKind) (z : Nat) (dest : Dest) (x : W64) (cls scope : Nat) (tc : BitVec 4) (s : State) :
    State :=
  let ag := atAgent scope x.toNat
  let o : Op :=
    { kind := kind z ag, cls := cls, scope := scope, tc := tc, dest := dest, va := x, parts := (sizeBytes z + 63) / 64 }
  if ag then addOp o s else issueAccess o s

def execGld (d a : Reg) (sp : BitVec 2) (t : BitVec 4) (f : BitVec 6) (s : State) : Out :=
  let x := sreg s a
  let z := sizeCode f
  .next (guarded [addrCheck x, alignCheck x (sizeBytes z)]
    (issueLoad .gload z (.s d) x sp.toNat (scopeOf f) t) s)

def execVgld (d a : Reg) (sp : BitVec 2) (t : BitVec 4) (f : BitVec 6) (s : State) : Out :=
  let x := sreg s a
  .next (guarded [addrCheck x, alignCheck x 64] (issueLoad .gload 4 (.v d) x sp.toNat (scopeOf f) t) s)

/-- A store to a present line whose page's W bit is clear (R207). -/
def wCheck (s : State) (ea n : Nat) : Check :=
  { bad := !isHost ea && (linesOf ea n).any fun l => ((s.core.gline l).bind GLine.w) == some false, cause := .globalPerm }

/-- A core-scope store: into the G-cache, its lines claimed where their page's W bit is not known (R211). -/
def storeCore (ea n x cls scope : Nat) (tc : BitVec 4) (s : State) : State :=
  let ls := linesOf ea n
  issueAccess { kind := .claim ls n, cls := cls, scope := scope, tc := tc, va := BitVec.ofNat 64 ea, data := x, parts := ls.length } s

/-- A store at the agent: clean bytes in the G-cache, and the request (R211). -/
def storeAgent (kind : Nat → OpKind) (ea n x cls scope : Nat) (tc : BitVec 4) (s : State) : State :=
  issueAccess { kind := kind n, cls := cls, scope := scope, tc := tc, va := BitVec.ofNat 64 ea, data := x, parts := (n + 63) / 64 } s

def storeAny (ea n x cls scope : Nat) (tc : BitVec 4) (s : State) : State :=
  if atAgent scope ea then storeAgent .gstore ea n x cls scope tc s else storeCore ea n x cls scope tc s

def execGst (d a : Reg) (sp : BitVec 2) (t : BitVec 4) (f : BitVec 6) (s : State) : Out :=
  let x := sreg s a
  let n := sizeBytes (sizeCode f)
  .next (guarded [addrCheck x, alignCheck x n, wCheck s x.toNat n]
    (storeAny x.toNat n ((sreg s d).toNat % 2 ^ (8 * n)) sp.toNat (scopeOf f) t) s)

def execVgst (d a : Reg) (sp : BitVec 2) (t : BitVec 4) (f : BitVec 6) (s : State) : Out :=
  let x := sreg s a
  .next (guarded [addrCheck x, alignCheck x 64, wCheck s x.toNat 256]
    (storeAny x.toNat 256 (vreg s d).data.toNat sp.toNat (scopeOf f) t) s)

/-- LDACQ (R212). -/
def execLdacq (d a : Reg) (sp : BitVec 2) (t : BitVec 4) (f : BitVec 6) (s : State) : Out :=
  let x := sreg s a
  let z := sizeCode f
  .next (guarded [addrCheck x, alignCheck x (sizeBytes z)]
    (issueLoad (fun z _ => .ldacq z) z (.s d) x sp.toNat (scopeOf f) t) s)

/-- An access of the running firing is put off at the G-cache, so that a core release cannot yet do its steps (09 R233). -/
def putOff (s : State) : Bool := s.core.ops.any fun e => e.fid == s.core.regs.fireid && e.wait

/-- STREL (R212): at core scope the dirty lines are logged at issue, the bundle being held while an earlier store is put off (09 R233; log
71); the value goes to the agent at every scope. -/
def execStrel (d a : Reg) (sp : BitVec 2) (t : BitVec 4) (f : BitVec 6) (s : State) : Out :=
  let x := sreg s a
  let n := sizeBytes (sizeCode f)
  let sc := scopeOf f
  .next (guarded [addrCheck x, alignCheck x n, wCheck s x.toNat n]
    (waitFor (decide (sc < 4) && putOff s) 4
      (storeAgent .strel x.toNat n ((sreg s d).toNat % 2 ^ (8 * n)) sp.toNat sc t)) s)

/-- PROMACQ (R213). -/
def execPromacq (d a : Reg) (sp : BitVec 2) (t : BitVec 4) (f : BitVec 6) (s : State) : Out :=
  let x := sreg s a
  let task := (sreg s d).toNat % 2 ^ 16
  let z := sizeCode f
  .next (guarded
    [addrCheck x, alignCheck x (sizeBytes z), { bad := task == 0xFFFF || decide (taskCount s ≤ task), cause := .localBounds }]
    (addOp { kind := .promacq z task, cls := sp.toNat, scope := 4, tc := t, dest := .s d, va := x }) s)

/-! Fences (R214). -/

/-- Publications and contributions of the region that a link may still have to carry: read or accepted ones in the network, those
merged in a slot, tokens of its blocks that are still to be sent or acknowledged. The fence waits for all of these, of which the
firing's own are part (R214, 09 R246, 15 R400; log 17). -/
def linkPending (s : State) (fid : W64) : Bool :=
  let reg := regionOf s
  (s.blocks.any fun b => b.2.owner == some reg) &&
    ((s.core.ops.any fun o => o.fid == fid && (match o.kind with | .pub .. | .pubr .. | .pubx .. => true | _ => false))
      || (s.net.any fun t => t.region == reg && (match t.msg with
        | .pub _ | .copy _ | .arrive .. | .give .. | .giveTo .. | .contrib .. => true
        | _ => false))
      || (s.routers.any fun r => r.2.slots.any fun k => nSpace k.2.name == s.core.space)
      || (s.blocks.any fun b => b.2.owner == some reg &&
        (b.2.armed.any (fun a => a.got.isSome) || !b.2.tiles.isEmpty || (b.2.tx.any fun t => !t.2.isEmpty)
          || b.2.elems.any fun e => !e.2.out.isEmpty || (e.2.queues.any fun q => !q.2.isEmpty) ||
            e.2.hs.any fun h => !h.2.bad && !(h.2.held.isEmpty && h.2.heldB.isEmpty && h.2.buf.isEmpty && h.2.bins.isEmpty))))

/-- The pod part of a release, a fence or a pod-scope access (09 R224): the link fence. -/
def podReady (s : State) (scope : Nat) (fid : W64) : Bool := scope != 5 || !linkPending s fid

/-- Every earlier global access of the covered classes is performed (R214). -/
def fenceReady (s : State) (ops : List Op) (fid : W64) (all : Bool) (cls scope : Nat) : Bool :=
  (ops.all fun e => e.fid != fid || !e.kind.isGlobal || e.performed || !(all || e.cls == cls)) && podReady s scope fid

/-- Every earlier global access of the firing has been performed, as a wafer release needs (09 R229). -/
def allPerformed (ops : List Op) (fid : W64) : Bool := ops.all fun e => e.fid != fid || !e.kind.isGlobal || e.performed

/-- What a fence does when it completes (R214, 09 R229). -/
def fenceEffect (scope : Nat) (s : State) : State :=
  if 4 ≤ scope then (waferRelease s).onCore Core.waferAcquire else s

/-- FENCE: without a token it holds its own bundle until it completes. Behind an access of its own bundle, which is earlier (02 R47), it
stays among the operations, and no later bundle issues before it completes. -/
def execFence (sp : BitVec 2) (t : BitVec 4) (f : BitVec 6) (s : State) : Out :=
  let all := sizeCode f == 0
  let sc := scopeOf f
  .next (
    if t = 0#4 then
      let ready := fenceReady s s.core.ops s.core.regs.fireid all sp.toNat sc
      guarded [] (waitFor (!ready) 4 (if ready then fenceEffect sc else addOp { kind := .fence all, cls := sp.toNat, scope := sc })) s
    else guarded [] (addOp { kind := .fence all, cls := sp.toNat, scope := sc, tc := t }) s)

/-! Atomics, Mangle cells, cache maintenance at issue. -/

/-- ATOM and ATOMR (R215, R216). -/
def issueAtom (ret : Bool) (d a : Reg) (sp : BitVec 2) (t : BitVec 4) (f : BitVec 6) (s : State) : State :=
  let x := sreg s a
  guarded [addrCheck x, alignCheck x 8]
    (addOp { kind := .atom (sizeCode f) (sreg s d) (sreg s (d + 1#5)), cls := sp.toNat, scope := scopeOf f, tc := t
             dest := if ret then .s d else .none, va := x }) s

def execAtom (d a : Reg) (sp : BitVec 2) (t : BitVec 4) (f : BitVec 6) (s : State) : Out := .next (issueAtom false d a sp t f s)
def execAtomr (d a : Reg) (sp : BitVec 2) (t : BitVec 4) (f : BitVec 6) (s : State) : Out := .next (issueAtom true d a sp t f s)

/-- MRED (R218). -/
def execMred (d a : Reg) (sp : BitVec 2) (t : BitVec 4) (f : BitVec 6) (s : State) : Out :=
  let x := sreg s a
  let z := sizeCode f
  let tag := if z == 1 then [tagCheck 3#4 (vreg s d)] else []
  let lanes : List Nat :=
    match z with
    | 0 => [(sreg s d).toNat % 2 ^ 32]
    | 1 => (List.range 64).map fun l => (roundFmt (opndX (vreg s d) 3#4 l) fmtFP32 0 0).1
    | _ => []
  .next (guarded (tag ++ [addrCheck x, alignCheck x 64])
    (addOp { kind := .mred z lanes, cls := sp.toNat, scope := scopeOf f, tc := t, va := x
             parts := if z % 2 == 1 then 64 else 1 }) s)

/-- MREDRD (R219). -/
def execMredrd (d a : Reg) (sp : BitVec 2) (t : BitVec 4) (f : BitVec 6) (s : State) : Out :=
  let x := sreg s a
  .next (guarded [addrCheck x, alignCheck x 64]
    (addOp { kind := .mredrd (sizeCode f % 4) (f.getLsbD 2), cls := sp.toNat, scope := scopeOf f, tc := t, dest := .s d, va := x }) s)

/-- CLWB and CLINV (R220): no alignment check; the high address bits are checked where an address is named. -/
def issueMaint (k : Option Nat → OpKind) (a : Reg) (sp : BitVec 2) (t : BitVec 4) (f : BitVec 6) (s : State) : State :=
  let x := sreg s a
  let all := f.getLsbD 0
  guarded (if all then [] else [addrCheck x])
    (addOp { kind := k (if all then none else some (x.toNat / 64)), cls := sp.toNat, tc := t, va := x }) s

def execClwb (a : Reg) (sp : BitVec 2) (t : BitVec 4) (f : BitVec 6) (s : State) : Out := .next (issueMaint .clwb a sp t f s)
def execClinv (a : Reg) (sp : BitVec 2) (t : BitVec 4) (f : BitVec 6) (s : State) : Out := .next (issueMaint .clinv a sp t f s)

/-! Performing at the agent (R206, R208). -/

/-- Notes a failing part: the lowest failing address is kept (R208). -/
def Op.fail (o : Op) (va : Nat) (c : Cause) : Op :=
  match o.bad with
  | some (v, _) => if va < v then { o with bad := some (va, c) } else o
  | none => { o with bad := some (va, c) }

/-- The write-back and invalidation of a line before an atomic or a cell operation (R215). -/
def flushLine (l : Nat) (s : State) : State := (wbLine l s).onCore fun c => { c with gcache := erase l c.gcache }

/-- Integer atomics (R215): the new word. -/
def atomNew (op : Nat) (o x y : W64) : W64 :=
  match op with
  | 0 => o + x
  | 1 => o &&& x
  | 2 => o ||| x
  | 3 => o ^^^ x
  | 4 => if o.slt x then o else x
  | 5 => if o.slt x then x else o
  | 6 => x
  | _ => if o = x then y else o

/-- A Mangle cell from its line (R217); a malformed cell reads as V = 0 with NS. -/
def cellOfLine (x : Nat) : M320 :=
  let bad := x >>> 365 != 0
  { v := if bad then 0#320 else BitVec.ofNat 320 x, ns := x.testBit 361 || bad, ps := x.testBit 362, ngs := x.testBit 363
    az := !x.testBit 364, count := BitVec.ofNat 41 (x >>> 320) }

/-- The line of a cell in canonical form. -/
def lineOfCell (m : M320) : Nat :=
  m.v.toNat + m.count.toNat * 2 ^ 320 + (if m.ns then 2 ^ 361 else 0) + (if m.ps then 2 ^ 362 else 0)
    + (if m.ngs then 2 ^ 363 else 0) + (if m.az then 0 else 2 ^ 364)

/-- An empty cell is an all-zero line: AZ with COUNT 0 stands as NZ 0. -/
def emptyLine : Nat := 0

/-- A read-modify-write of n bytes at the agent. -/
def agentUpdate (s : State) (r va n : Nat) (f : Nat → Except Cause Nat) : Except Cause (State × Nat) := do
  let p ← xlate s r va .both
  if p.host then .error .globalPerm
  else if s.lineBad p.addr then .error .poison
  else
    let o := rdN s.hbm p.addr n
    let x ← f o
    .ok ({ s with hbm := wrN s.hbm p.addr x n }, o)

/-- A part of a load at the agent: the dirty bytes of the core's line, every other from the agent, which replace the line's clean
ones (R211). -/
def performLoad (o : Op) (i n : Nat) (s : State) : Op × State :=
  let va := o.va.toNat + 64 * i
  let len := min n 64
  let r := regionOf s
  match agentRead s r (64 * (va / 64)) 64 .read with
  | .error c => (o.fail va c, cacheLeaf s r va)
  | .ok line =>
    let s := cacheLeaf s r va
    let line := match s.core.gline (va / 64) with | some g => mixBytes 64 g.dirty.toNat line g.data.toNat | none => line
    let s := s.onCore fun c =>
      match c.gline (va / 64) with
      | some g => c.setGline (va / 64) { g with data := BitVec.ofNat 512 line }
      | none => c
    ({ o with got := o.got ||| (((line >>> (8 * (va % 64))) % 2 ^ (8 * len)) <<< (8 * len * i)) }, s)

/-- A part of a host-window load: the bytes themselves, no line (R204, R211). -/
def performHostLoad (o : Op) (i n : Nat) (s : State) : Op × State :=
  let va := o.va.toNat + 64 * i
  let len := min n 64
  match agentRead s (regionOf s) va len .read with
  | .error c => (o.fail va c, cacheLeaf s (regionOf s) va)
  | .ok x => ({ o with got := o.got ||| (x <<< (8 * len * i)) }, cacheLeaf s (regionOf s) va)

/-- A part of a store at the agent; the cached line learns its W bit, or loses the bytes of a failed store. -/
def performStore (o : Op) (i n : Nat) (s : State) : Op × State :=
  let va := o.va.toNat + 64 * i
  let len := min n 64
  let r := regionOf s
  let x := slice o.data (8 * len) i
  let s := cacheLeaf s r va
  match agentWrite s r va len (2 ^ len - 1) x with
  | .error c =>
    let m : BitVec 64 := BitVec.ofNat 64 ((2 ^ len - 1) <<< (va % 64))
    (o.fail va c, s.onCore fun k =>
      match k.gline (va / 64) with
      | some g => k.setGline (va / 64) { g with valid := g.valid &&& ~~~(m &&& ~~~g.dirty) }
      | none => k)
  | .ok s' =>
    (o, s'.onCore fun k =>
      match k.gline (va / 64) with
      | some g => k.setGline (va / 64) { g with w := some true }
      | none => k)

/-- A claim of a line (R211): a failing one drops the bytes and the line, and names the access's lowest address in it (R208). -/
def performClaim (o : Op) (l : Nat) (s : State) : Op × State :=
  let r := regionOf s
  let va := max o.va.toNat (64 * l)
  match xlate s r va .write with
  | .error c => (o.fail va c, (cacheLeaf s r va).onCore fun k => { k with gcache := erase l k.gcache })
  | .ok p => (o, (cacheLeaf s r va).onCore fun k =>
      match k.gline l with
      | some g => k.setGline l { g with w := some p.writable }
      | none => k)

/-- A scope-wafer operation is a wafer release before itself (R215). -/
def releaseBefore (o : Op) (s : State) : State := if o.releases && 4 ≤ o.scope then waferRelease s else s

/-- One cell of MRED (R218). -/
def performMred (o : Op) (z : Nat) (lanes : List Nat) (i : Nat) (s : State) : Op × State :=
  let va := o.va.toNat + 64 * i
  if 2 ^ 56 ≤ va then (o.fail va .globalXlate, s)
  else
    let s := flushLine (va / 64) s
    let upd (x : Nat) : Except Cause Nat :=
      if 2 ≤ z then .ok emptyLine
      else
        let m := cellOfLine x
        if countOver m.count.toNat 1 then .error .mangleCount
        else .ok (lineOfCell (m.add (decodeFp fmtFP32 (lanes.getD i 0))))
    let s := cacheLeaf s (regionOf s) va
    match agentUpdate s (regionOf s) va 64 upd with
    | .error c => (o.fail va c, s)
    | .ok (s', _) => (o, s')

/-- Part i of operation o is performed. -/
def performPart (o : Op) (i : Nat) (s : State) : Op × State :=
  let r := regionOf s
  let va := o.va.toNat
  match o.kind with
  | .gload z _ | .ldacq z =>
    if isHost (va + 64 * i) then performHostLoad o i (sizeBytes z) s else performLoad o i (sizeBytes z) s
  | .gstore n => performStore o i n s
  | .strel n => performStore o i n (releaseBefore o s)
  | .claim ls n => if isHost (64 * ls.getD i 0) then performStore o i n s else performClaim o (ls.getD i 0) s
  | .atom op x y =>
    let s := cacheLeaf (flushLine (va / 64) (releaseBefore o s)) r va
    match agentUpdate s r va 8 (fun w => .ok (atomNew op (BitVec.ofNat 64 w) x y).toNat) with
    | .error c => (o.fail va c, s)
    | .ok (s', w) => ({ o with got := w }, s')
  | .mred z lanes => performMred o z lanes i (releaseBefore o s)
  | .mredrd fmt clr =>
    let s := cacheLeaf (flushLine (va / 64) (releaseBefore o s)) r va
    match agentUpdate s r va 64 (fun w => .ok (if clr then emptyLine else lineOfCell (cellOfLine w))) with
    | .error c => (o.fail va c, s)
    | .ok (s', w) =>
      let (b, fl) := (cellOfLine w).round (fmtF (BitVec.ofNat 4 (3 + fmt)))
      ({ o with got := b, flags := fl }, s')
  | .clwb l => (o, match l with | some l => wbLine l s | none => wbAll s)
  | .clinv l =>
    (o, match l with
      | some l => flushLine l s
      | none => (wbAll s).onCore fun c => { c with gcache := [] })
  | _ => (o, s)

/-- Kinds the agents perform; the lines of core-scope loads are filled instead, but for those of the host window. -/
def Op.atAgents (o : Op) : Bool :=
  match o.kind with
  | .gload _ ag => ag
  | .ldacq _ => atAgent o.scope o.va.toNat
  | .gstore _ | .strel _ | .claim .. | .atom .. | .mred .. | .mredrd .. | .clwb _ | .clinv _ => true
  | _ => false

/-- Part i is performed at its agent. -/
def Op.agentPart (o : Op) (i : Nat) : Bool :=
  o.atAgents || (match o.kind with | .gload .. | .ldacq _ => o.partAtAgent i | _ => false)

/-- AGENT_REQUEST: part i of operation j arrives at its agent and is performed (R206), once what must precede it has been. -/
def execAgentRequest (s : State) : Out :=
  let j := inp s 0
  let i := inp s 1
  .next (match s.core.ops[j]? with
    | some o =>
      if o.agentPart i && !o.wait && !o.resp && decide (i < o.parts) && !o.done.contains i && mayPerform s.core j o
          && podReady s o.scope o.fid then
        let (o, s) := performPart o i s
        s.onCore fun c => c.setOp j (o.finish i)
      else s
    | none => s)

/-- GCACHE_FILL: the missing bytes of part i of a core-scope load arrive, and the load takes its bytes (07 R194, R211). -/
def execGcacheFill (s : State) : Out :=
  let j := inp s 0
  let i := inp s 1
  .next (match s.core.ops[j]? with
    | some o =>
      if o.bytes != 0 && !o.agentPart i && !o.wait && !o.resp && decide (i < o.parts) && !o.done.contains i && mayPerform s.core j o then
        let va := o.va.toNat + 64 * i
        let r := regionOf s
        match agentRead s r (64 * (va / 64)) 64 .read with
        | .error c => (cacheLeaf s r va).onCore fun k => k.setOp j ((o.fail va c).finish i)
        | .ok line =>
          let w := match xlate s r va .read with | .ok p => p.writable | .error _ => false
          let s := makeWay (va / 64) (cacheLeaf s r va)
          s.onCore fun k =>
            let k := k.setGline (va / 64) (((k.gline (va / 64)).getD {}).fillFrom line w)
            k.setOp j ((o.take i (cachedBytes k o i)).finish i)
      else s
    | none => s)

/-- FENCE_COMPLETE: a fence with a token completes (R214). -/
def execFenceComplete (s : State) : Out :=
  let j := inp s 0
  .next (match s.core.ops[j]? with
    | some o =>
      match o.kind with
      | .fence all =>
        if !o.resp && fenceReady s (s.core.ops.take j) o.fid all o.cls o.scope then
          let s := fenceEffect o.scope s
          s.onCore fun c => (c.dropOp j).landVar o.fid o.fw .none 0#5 o.tc
        else s
      | _ => s
    | none => s)

/-! Answers land (02 R54). -/

/-- The value of an answer by size code: .d, .w and .b zero-extended, .ws sign-extended (R210). -/
def extendBy (z : Nat) (x : Nat) : W64 :=
  match z with
  | 1 => BitVec.ofNat 64 (x % 2 ^ 32)
  | 2 => BitVec.ofInt 64 (signedOf 32 (x % 2 ^ 32))
  | 3 => BitVec.ofNat 64 (x % 256)
  | _ => BitVec.ofNat 64 x

/-- The write an answer makes; none after a fault (R208). -/
def Op.answer (o : Op) : Put :=
  if o.bad.isSome then .none
  else
    let z := match o.kind with | .gload z _ | .ldacq z | .promacq z _ => z | _ => 0
    match o.dest with
    | .none => .none
    | .s r => .s r (extendBy z o.got)
    | .v r => .v r { data := BitVec.ofNat 2048 o.got }

/-- Lands the answer of operation j. -/
def landOp (j : Nat) (o : Op) (s : State) : State :=
  s.onCore fun c =>
    let c := c.dropOp j
    let c := if o.wideAcquire && o.bad.isNone then c.waferAcquire else c
    let c := c.landVar o.fid o.fw o.answer (if o.bad.isSome then 0#5 else o.flags) o.tc
    match o.bad with
    | some (va, cause) => c.defer o.fid { cause := cause, val := BitVec.ofNat 64 va }
    | none => c

end Sys2Proof.Machine
end

