-- ==== Sys2Proof/Machine/Net.lean ====
section
/-! DEFINITION. Positions and routes, tensor descriptors, homes and tokens (10_name_tables R250 to R258, 16_bring_up R417,
R418), and event records (17_host_and_links R439 to R443). -/

namespace Sys2Proof.Machine

/-! Positions. -/

def State.reticle (s : State) (i : Nat) : Reticle := findD i {} s.reticles
def State.setReticle (s : State) (i : Nat) (r : Reticle) : State := { s with reticles := insert i r s.reticles }

/-- The ROUTER code (10 R254). -/
def routerCode (rcol rrow row col : Nat) : Nat := rcol * 8192 + rrow * 1024 + row * 32 + col

/-- The reticle index of a router (16, 6 × col + row), and its NODE (17 R444). -/
def reticleOf (code : Nat) : Nat := 6 * (code / 8192 % 8) + code / 1024 % 8
def nodeOf (code : Nat) : Nat := 24 * (code / 32 % 32) + code % 32

/-- SKIP of a column: the lowest physical row with a defect bit, 31 where none (16 R418). -/
def Reticle.skip (r : Reticle) (c : Nat) : Nat :=
  ((List.range 25).find? fun row => r.defects.contains (24 * row + c)).getD 31

/-- phys(r, c) (16 R418). -/
def Reticle.physRow (r : Reticle) (row c : Nat) : Nat := if r.skip c = 31 ∨ row < r.skip c then row else row + 1

/-- The logical core at bound coordinates is absent (16 R418). -/
def Reticle.hole (r : Reticle) (row c : Nat) : Bool := r.defects.contains (24 * r.physRow row c + c)

/-- The healthy count (16 R406). -/
def Reticle.healthy (r : Reticle) : Nat :=
  576 - ((List.range 576).filter fun i => r.hole (i / 24) (i % 24)).length

/-- The router of logical core (x, y), none where absent (16 R417, R418). -/
def physOf (s : State) (x y : Nat) : Option Nat :=
  ((List.range 6).find? fun row => (s.reticle (6 * (x / 24) + row)).lrow == y / 24
      && (s.reticle (6 * (x / 24) + row)).code == 0).bind fun row =>
    let r := s.reticle (6 * (x / 24) + row)
    if r.hole (y % 24) (x % 24) then none else some (routerCode (x / 24) row (r.physRow (y % 24) (x % 24)) (x % 24))

/-- Where a router lies on the logical grid; a router without a logical core stands at the row it is next to. -/
def gridOf (s : State) (code : Nat) : Nat × Nat :=
  let r := s.reticle (reticleOf code)
  let row := code / 32 % 32
  let lr := min (if r.skip (code % 32) < row then row - 1 else row) 23
  (24 * (code / 8192 % 8) + code % 32, 24 * (if r.lrow < 7 then r.lrow else code / 1024 % 8) + lr)

def Region.live (r : Region) : Bool := r.phase != .free

def State.setRegion (s : State) (i : Nat) (r : Region) : State := { s with regions := insert i r s.regions }
def State.onRegion (s : State) (i : Nat) (f : Region → Region) : State := s.setRegion i (f (s.region i))

/-- A logical core lies in the region. -/
def Region.has (r : Region) (x y : Nat) : Bool :=
  decide (r.orgc ≤ x) && decide (x < r.orgc + r.w) && decide (r.orgr ≤ y) && decide (y < r.orgr + r.h)

/-- The region's cores by number, row-major (16 R423). -/
def Region.coreAt (s : State) (r : Region) (i : Nat) : Option Nat := physOf s (r.orgc + i % r.w) (r.orgr + i / r.w)
def Region.cores (s : State) (r : Region) : List Nat := (List.range (r.w * r.h)).filterMap (r.coreAt s)

/-- The region number a router belongs to. -/
def regionAt (s : State) (code : Nat) : Option Nat :=
  let (x, y) := gridOf s code
  (s.regions.find? fun p => p.2.live && p.2.has x y && physOf s x y == some code).map Prod.fst

/-! Routes (10 R257): along the row, then along the column. Ports: 0 local, 1 north, 2 east, 3 south, 4 west. -/

def nextPort (from_ dst : Nat × Nat) : Nat :=
  if from_.1 < dst.1 then 2 else if dst.1 < from_.1 then 4 else if from_.2 < dst.2 then 3 else if dst.2 < from_.2 then 1 else 0

def oppositePort (p : Nat) : Nat := match p with | 1 => 3 | 2 => 4 | 3 => 1 | 4 => 2 | _ => 0

/-- The neighbour by a port, none outside the region. -/
def neighbour (s : State) (r : Region) (code port : Nat) : Option Nat :=
  let (x, y) := gridOf s code
  let dst : Option (Nat × Nat) :=
    match port with
    | 1 => if y = 0 then none else some (x, y - 1)
    | 2 => some (x + 1, y)
    | 3 => some (x, y + 1)
    | 4 => if x = 0 then none else some (x - 1, y)
    | _ => some (x, y)
  dst.bind fun q => if r.has q.1 q.2 then physOf s q.1 q.2 else none

/-! Tensor descriptors (10 R251). -/

def dTid (d : BitVec 256) : BitVec 20 := d.extractLsb' 236 20
def dFmt (d : BitVec 256) : BitVec 4 := d.extractLsb' 232 4
def dHkind (d : BitVec 256) : Nat := (d.extractLsb' 230 2).toNat
def dHval (d : BitVec 256) : BitVec 8 := d.extractLsb' 222 8
def dHmask (d : BitVec 256) (c : Nat) : BitVec 10 := d.extractLsb' (182 + 10 * c) 10
def dSize (d : BitVec 256) : Nat := (d.extractLsb' 166 16).toNat + 1
def dDim (d : BitVec 256) (c : Nat) : Nat := (d.extractLsb' (126 + 10 * c) 10).toNat + 1
def dBack (d : BitVec 256) : Nat := (d.extractLsb' 70 56).toNat
def dValid (d : BitVec 256) : Bool := d.getLsbD 0

/-- The default descriptor: raw, not held, HMASK all ones, unbacked; not valid. -/
def dDefault : BitVec 256 := BitVec.ofNat 256 ((2 ^ 40 - 1) <<< 182)

def State.router (s : State) (code : Nat) : Router := findD code {} s.routers
def State.setRouter (s : State) (code : Nat) (r : Router) : State := { s with routers := insert code r s.routers }
/-- A router's tables emptied; MTFULL counts from boot (13 R324). -/
def Router.cleared (r : Router) : Router := { mtfull := r.mtfull }
def State.onRouter (s : State) (code : Nat) (f : Router → Router) : State := s.setRouter code (f (s.router code))

/-- The region whose space a name carries. -/
def regionOfName (s : State) (n : Name) : Nat :=
  ((s.regions.find? fun p => p.2.live && p.2.space == nSpace n).map Prod.fst).getD 0

/-- The reduction slots of the chosen names flush: FL is set, and nothing merges into them any more (11 R286, R287). -/
def Router.flush (f : Name → Bool) (r : Router) : Router :=
  { r with slots := r.slots.map fun (q : Nat × RedSlot) => if f q.2.name then (q.1, { q.2 with flushing := true }) else q }

def flushNames (f : Name → Bool) (s : State) : State := { s with routers := s.routers.map fun (p : Nat × Router) => (p.1, p.2.flush f) }

/-- Every slot of a region flushes. -/
def flushRegion (s : State) (reg : Nat) : State := flushNames (fun n => regionOfName s n == reg) s

/-- A router's copy of the tensor table. -/
def tensorsAt (s : State) (reg code : Nat) : List (BitVec 256) :=
  let ts := (s.region reg).tensors
  let own := (s.router code).tensCopy
  own.foldl (fun ts p => setAt ts p.1 p.2) (if own.isEmpty then ts else ts ++ List.replicate (256 - ts.length) 0#256)

/-- The descriptor for a name at a router. -/
def descAt (s : State) (reg code : Nat) (n : Name) : BitVec 256 :=
  ((tensorsAt s reg code).find? fun d => dValid d && dTid d == nTensor n).getD dDefault

/-- addr(N) of a backed tensor (10 R253), none where a coordinate lies outside. -/
def backing (d : BitVec 256) (n : Name) : Option Nat :=
  let i (c : Nat) : Nat := (nCoord n c).toNat
  if dBack d = 0 ∨ ((List.range 4).any fun c => decide (dDim d c ≤ i c)) then none
  else some (dBack d + (((i 3 * dDim d 2 + i 2) * dDim d 1 + i 1) * dDim d 0 + i 0) * dSize d)

/-- The hold a descriptor gives: none, or its kind (10 R251). -/
def holds (d : BitVec 256) : Bool := (dHkind d == 1 && dHval d != 0#8) || (dHkind d == 2 && (dHval d).extractLsb' 0 4 != 0#4)

/-! Homes (10 R250, R254, 20 R463). -/

/-- home_of. -/
def homeIndex (s : State) (reg code : Nat) (n : Name) : Nat :=
  let d := descAt s reg code n
  let j (c : Nat) : BitVec 32 := (nCoord n c &&& dHmask d c).zeroExtend 32
  let h : BitVec 32 := (nTensor n).zeroExtend 32 ^^^ (j 0 * 0x2B#32) ^^^ (j 1 * 0x5F1#32) ^^^ (j 2 * 0x1C3#32) ^^^ (j 3 * 0x73#32)
  h.toNat % (s.region reg).homes

/-- A router's copy of a home-map entry. -/
def homeAt (s : State) (reg code i : Nat) : Option HomeEntry :=
  match find? i (s.router code).homeCopy with
  | some e => some e
  | none => find? i (s.region reg).home

/-- The home router of a name, resolved at a router; none while the entry is invalid or in hand-over. -/
def resolve (s : State) (reg code : Nat) (n : Name) : Option Nat :=
  (homeAt s reg code (homeIndex s reg code n)).bind fun e => if e.valid && !e.ho then some e.router else none

/-! Event records (17 R439 to R442). -/

/-- Wafer time at a controller; 48 is the leader. -/
def timeAt (s : State) (ctl : Nat) : W64 := (s.reticle (if ctl = 48 then s.bridge.leader.getD 0 else ctl)).time

def State.queue (s : State) (q : Nat) : EventQueue := findD q {} s.queues
def State.onQueue (s : State) (q : Nat) (f : EventQueue → EventQueue) : State := { s with queues := insert q (f (s.queue q)) s.queues }

def EventQueue.stagedBy (e : EventQueue) (ctl : Nat) : Nat := (e.staged.filter fun r => r.ctl == ctl).length

/-- The source of a record: kind 0 task, 1 reticle controller, 2 leader; its number; its controller. -/
structure Source where
  kind : Nat
  sid : Nat
  ctl : Nat
deriving DecidableEq, Repr

def fromReticle (i : Nat) : Source := ⟨1, i, i⟩
/-- The leader's source; its number is the leader's reticle index. -/
def fromLeader (s : State) : Source := ⟨2, s.bridge.leader.getD 0, 48⟩

/-- The record's bits (17 R439). -/
def recordBits (q : Nat) (src : Source) (seq : BitVec 24) (code : Nat) (p0 p1 time : W64) : BitVec 256 :=
  time ++ p1 ++ p0 ++ (seq ++ BitVec.ofNat 4 src.kind ++ BitVec.ofNat 16 src.sid ++ BitVec.ofNat 8 code
    ++ BitVec.ofNat 4 (if q = 16 then 0 else q) ++ BitVec.ofBool (q == 16) ++ 0#7)

/-- Forms a record: staged where there is room; otherwise waiting in its source, or dropped and counted (17 R442). -/
def post (s : State) (q : Nat) (src : Source) (code : Nat) (p0 p1 : W64) (held : Bool)
    (tok : Option (Nat × W64 × Bool × BitVec 4)) (done : Option Nat) : State :=
  let key := 65536 * src.kind + src.sid
  s.onQueue q fun e =>
    let seq := findD key 0#24 e.seq
    let r : Staged := { ctl := src.ctl, bits := recordBits q src seq code p0 p1 (timeAt s src.ctl), tok := tok, done := done }
    let e := { e with seq := insert key (seq + 1#24) e.seq }
    if e.stagedBy src.ctl < 64 then { e with staged := e.staged ++ [{ r with done := none }] }
    else if held then { e with waiting := e.waiting ++ [r] }
    else { e with lost := if e.lost = BitVec.allOnes 32 then e.lost else e.lost + 1#32 }

def satInc (x : BitVec 32) : BitVec 32 := if x = BitVec.allOnes 32 then x else x + 1#32
def satAdd (x : W64) (v : Nat) : W64 := BitVec.ofNat 64 (Nat.min (x.toNat + v) (2 ^ 64 - 1))

/-! Capture units (13 R342 to R345). -/

def grantOf (s : State) (r u : Nat) : BitVec 5 := findD u 0#5 (s.reticle r).grants

def State.capture (s : State) (r u : Nat) : Capture := findD u {} (s.reticle r).captures
def State.setCapture (s : State) (r u : Nat) (c : Capture) : State :=
  s.setReticle r { s.reticle r with captures := insert u c (s.reticle r).captures }

/-- A sample is recorded, or counted as dropped where one was recorded in this cycle (13 R343). -/
def Capture.sample (c : Capture) (now v : Nat) : Capture :=
  if c.last = some now then { c with drops := satAdd c.drops 1 }
  else
    let b := if v = 0 then 0 else Nat.min (1 + Nat.log2 v) 31
    let x : W64 := BitVec.ofNat 64 v
    { c with
      min := if x.ult c.min then x else c.min, max := if c.max.ult x then x else c.max
      count := satAdd c.count 1, sum := satAdd c.sum v, last := some now, lastV := v
      bins := Vector.ofFn fun i => if i.val = b then satInc c.bins[i] else c.bins[i] }

/-- The unit records samples of a source of a region (13 R342, R344). -/
def records (s : State) (r u region src sel : Nat) : Bool :=
  let c := s.capture r u
  let g := grantOf s r u
  c.cfg.getLsbD 63 && !c.cfg.getLsbD 61 && fld c.cfg 0 16 == src && fld c.cfg 16 16 == sel
    && (!g.getLsbD 4 || (g.extractLsb' 0 4).toNat == region)

/-- The cycle of the capture units: two net cycles (00 R5). -/
def State.cycles (s : State) : Nat := s.clock / 2

/-- The samples offered at a reticle in the present cycle. -/
def State.offeredNow (s : State) (ret : Nat) : List (Nat × Nat × Nat × Nat) :=
  if (s.reticle ret).offeredAt = s.cycles then (s.reticle ret).offered else []

/-- A sample of a source comes to every unit of a reticle that records it; one applied to a unit in this cycle still meets it (13 R344). -/
def offer (s : State) (ret region src sel v : Nat) : State :=
  let s := s.setReticle ret { s.reticle ret with offered := s.offeredNow ret ++ [(region, src, sel, v)], offeredAt := s.cycles }
  (List.range 16).foldl (fun s u =>
    if records s ret u region src sel then s.setCapture ret u ((s.capture ret u).sample s.cycles v) else s) s

/-- A BORDER_REFUSED record and the region's REFCNT (01 R19, 13 R324, 17 R440). -/
def borderRefused (s : State) (reg : Nat) (n : Name) (cls port code : Nat) : State :=
  let s := offer s (reticleOf code) reg 11 0 1
  let s := s.onRegion reg fun r => { r with refcnt := modify (reticleOf code) 0#32 (fun x => if x = BitVec.allOnes 32 then x else x + 1#32) r.refcnt }
  post s reg (fromReticle (reticleOf code)) 0x01 (n.extractLsb' 0 64)
    (BitVec.ofNat 16 code ++ 0#12 ++ BitVec.ofNat 2 (port - 1) ++ BitVec.ofNat 2 cls ++ n.extractLsb' 64 32) false none none

/-- A core lies in the region. -/
def State.within (s : State) (reg code : Nat) : Bool := ((s.region reg).cores s).contains code

/-- The last router of the region on the way to a place outside, and its output port (10 R257). -/
def borderOf (s : State) (r : Region) (dst : Nat) : Nat → Nat → Nat × Nat
  | 0, loc => (loc, 1)
  | fuel + 1, loc =>
    let p := nextPort (gridOf s loc) (gridOf s dst)
    match neighbour s r loc p with
    | some n => borderOf s r dst fuel n
    | none => (loc, p)

/-- A request on its way to a core outside the region is dropped at the border (01 R19): a wrong directory entry. -/
def refuseAtBorder (s : State) (reg from_ dst : Nat) (n : Name) (cls : Nat) : State :=
  let b := borderOf s (s.region reg) dst 400 from_
  borderRefused s reg n cls b.2 b.1

/-- The rim router of a link port (16 R421). -/
def rimRouter (p : Nat) : Nat := routerCode (p % 16 / 2) (if p < 16 then 0 else 5) (if p < 16 then 0 else 24) (if p % 2 = 0 then 6 else 17)

/-- Hops between two routers, over the physical grid of 192 columns and 150 rows. -/
def hops (a b : Nat) : Nat :=
  let x (c : Nat) : Nat := 24 * (c / 8192 % 8) + c % 32
  let y (c : Nat) : Nat := 25 * (c / 1024 % 8) + c / 32 % 32
  (x a - x b) + (x b - x a) + (y a - y b) + (y b - y a)

/-- The entry router of a region for a port (10 R258): the nearest; cores come row by row, so ties go to the lower row, then
column. -/
def entryRouter (s : State) (reg p : Nat) : Nat :=
  match (s.region reg).cores s with
  | [] => 0
  | c :: t => t.foldl (fun a n => if hops n (rimRouter p) < hops a (rimRouter p) then n else a) c

/-- The port of its entry router by which the path to a link port's block leaves (10 R258): toward the rim router or, there, over the
wafer's edge. -/
def pathPort (s : State) (reg p : Nat) : Nat :=
  match nextPort (gridOf s (entryRouter s reg p)) (gridOf s (rimRouter p)) with
  | 0 => if p < 16 then 1 else 3
  | d => d

/-- A token for port p's edge block, which the region does not own, is dropped at its entry router's output stage (10 R258). -/
def refuseAtEdge (s : State) (reg p : Nat) (n : Name) (cls : Nat) : State :=
  borderRefused s reg n cls (pathPort s reg p) (entryRouter s reg p)

/-- A record's source. -/
def sourceBits (r : Staged) : BitVec 20 := r.bits.extractLsb' 20 20

def EventQueue.full (e : EventQueue) : Bool := e.size == 0#8 || (e.tail - e.head).toNat == 2 ^ e.size.toNat

/-- The first waiting record of a controller is staged. -/
def EventQueue.refill (e : EventQueue) (ctl : Nat) : EventQueue :=
  match e.waiting.find? fun r => r.ctl == ctl with
  | some r => { e with waiting := e.waiting.erase r, staged := e.staged ++ [r] }
  | none => e

/-- Lands a token at a core that need not be the one in focus; one whose image stands saved makes the increment as it is restored (14 R369). -/
def landAt (s : State) (core : Nat) (fid : W64) (fw : Bool) (tc : BitVec 4) : State :=
  let c := s.coreAt core
  s.setCoreAt core (if c.halt = .region true then { c with owed := c.owed ++ [(fid, fw, tc)] } else c.landVar fid fw .none 0#5 tc)

/-- EVENT_RECORD_WRITE (17 R441, R443): staged record k of queue q, the first of its source, is written to the ring; a
waiting record of its controller is staged. -/
def execEventRecordWrite (s : State) : Out :=
  let q := inp s 0
  let k := inp s 1
  if 16 < q then .fault .noSuchItem
  else
    let e := s.queue q
    .next (match e.staged[k]? with
      | some r =>
        if e.full || ((e.staged.take k).any fun x => sourceBits x == sourceBits r) then s
        else
          let a := e.base.toNat + 32 * (e.tail.toNat % 2 ^ e.size.toNat)
          let s := { s with host := wrN s.host a r.bits.toNat 32 }
          let s := s.onQueue q fun e => EventQueue.refill { e with staged := dropAt e.staged k, tail := e.tail + 1#32 } r.ctl
          match r.tok with
          | some (core, fid, fw, tc) => landAt s core fid fw tc
          | none => s
      | none => s)

/-! Tokens. -/

def Msg.name : Msg → Name
  | .sub _ _ n _ _ | .unsub _ _ n _ _ | .oneShot n _ _ | .withdraw n _ | .nhold n _ _ | .nrel n | .nqry n _ | .ropen n _ _ _
  | .contrib n _ _ _ | .fetch n _ _ => n
  | .pub p | .copy p | .arrive p _ | .give p _ _ | .giveTo p _ => p.name
  | .withdrawn n _ _ _ | .noticeTo n _ _ _ => n
  | .noticeSub .. => 0#96

/-- Traffic classes as event records code them (17 R440): 0 control, 1 publication, 2 reduction. -/
def Msg.cls : Msg → Nat
  | .pub _ | .copy _ | .arrive .. | .give .. | .giveTo .. => 1
  | .contrib .. => 2
  | _ => 0

/-- A token still on its way to its home. -/
def Msg.homeward : Msg → Bool
  | .sub .. | .unsub .. | .oneShot .. | .withdraw .. | .nhold .. | .nrel .. | .nqry .. | .ropen .. | .contrib .. | .pub _ => true
  | _ => false

/-- An earlier token of the same origin, class and name is ahead: tokens of one path do not pass one another. -/
def behind (s : State) (j : Nat) (t : Token) : Bool :=
  (s.net.take j).any fun e => e.msg.homeward && t.msg.homeward && e.src == t.src && e.region == t.region && e.msg.cls == t.msg.cls
    && e.msg.name == t.msg.name && !e.held

def State.setTok (s : State) (j : Nat) (t : Token) : State := { s with net := setAt s.net j t }
def State.dropTok (s : State) (j : Nat) : State := { s with net := dropAt s.net j }
def State.send (s : State) (t : Token) : State := { s with net := s.net ++ [t] }

/-- A number for a publication that none under way has. -/
def State.newPub (s : State) : Nat := s.net.foldl (fun m t => max m t.pub) 0 + 1

/-- The tokens of a publication learn which standing subscriptions one of them serves (10 R281). -/
def State.giveMark (s : State) (pub : Nat) (l : List (Nat × Nat)) : State :=
  if pub = 0 ∨ l.isEmpty then s
  else { s with net := s.net.map fun (t : Token) => if t.pub = pub then { t with given := t.given ++ l } else t }

/-- Key of a standing subscription's path: the core it was sent from, task and number. -/
def subKey (src task num : Nat) : Nat := (65536 * src + task) * 16 + num

/-- The token with its home resolved at the router where it enters (20 R463); a RESUB resolves both of its names. An unsubscription goes where
its subscription went (10 R260), and its own home is the last it may go to (log 45). -/
def Token.resolved (s : State) (t : Token) : Option Token :=
  match t.dest with
  | some _ => some t
  | none =>
    let home := (resolve s t.region t.loc t.msg.name).map fun d => { t with dest := some d }
    match t.msg with
    | .oneShot _ _ (some o) => home.bind fun t => (resolve s t.region t.loc o).map fun h => { t with path := [h] }
    | .unsub task num .. =>
      home.map fun t =>
        match find? (subKey t.src task num) (s.region t.region).subPath with
        | some (d :: rest) => { t with dest := some d, path := rest ++ t.dest.toList }
        | _ => { t with path := t.dest.toList }
    | _ => home

/-- The port by which a token leaves toward a router. -/
def portTo (s : State) (loc dest : Nat) : Nat := nextPort (gridOf s loc) (gridOf s dest)

/-- A token leaves by a port: it moves on, or is refused at the border (01 R19). -/
def moveBy (s : State) (j : Nat) (t : Token) (port : Nat) : State :=
  match neighbour s (s.region t.region) t.loc port with
  | some n => s.setTok j { t with loc := n, port := oppositePort port, gone := true, here := false }
  | none => borderRefused (s.dropTok j) t.region t.msg.name t.msg.cls port t.loc

/-- A token takes a hop toward its home, or stands there. -/
def hopOn (s : State) (j : Nat) (t : Token) : State :=
  match t.dest with
  | none => s
  | some d => if t.loc = d then s.setTok j { t with gone := true, here := true, since := s.clock } else moveBy s j t (portTo s t.loc d)

/-- The token is at its home and has been through the home's match table. -/
def Token.atHome (t : Token) : Bool := t.here && t.dest == some t.loc

/-- The order in which a home takes what arrives in one net cycle (10 R281, 11 R294). -/
def Msg.rank : Msg → Nat
  | .sub .. | .unsub .. | .oneShot .. | .withdraw .. => 0
  | .nhold .. | .nrel .. => 1
  | .nqry .. | .ropen .. => 2
  | _ => 3

/-- It is the token's turn at its home: the net cycle in which it came is over, and what came there in an earlier cycle, a round change too, or
in the same one with an earlier kind, is done (10 R281). What is held for lack of room does not count. -/
def homeTurn (s : State) (t : Token) : Bool :=
  t.atHome && decide (t.since < s.clock) && ((s.router t.loc).due.all fun d => decide (t.since ≤ d)) && s.net.all fun e =>
    !(e.atHome && !e.held && e.loc == t.loc && (decide (e.since < t.since) || (e.since == t.since && decide (e.msg.rank < t.msg.rank))))

/-- Round holds that a new round ends (10 R269). -/
def Router.expire (r : Router) : Router :=
  { r with airDir := r.airDir.map fun a =>
      if a.state == .held && a.hkind == 2 && a.hrnd != 15#4 && decide ((a.hrnd.toNat : Int) ≤ (r.round - a.round0).toInt) then { a with state := .aired } else a }

/-- The oldest round change of a router takes effect once nothing that came there in or before its net cycle still has its turn to come
(10 R281). -/
def roundTurn (s : State) (code : Nat) (r : Router) : Router :=
  match r.due with
  | [] => r
  | d :: rest =>
    if s.net.any fun e => e.atHome && !e.held && e.loc == code && decide (e.since ≤ d) then r
    else Router.expire { r with due := rest, round := r.round + 1#32 }

/-- The core whose firings a task's requests reach, while it is resident (10 R255). -/
def holderOf (s : State) (reg task : Nat) : Option (Nat × BitVec 4) :=
  (find? task (s.region reg).dir).bind fun e => if e.state = .resident then some (e.core, e.slot) else none

/-- A fault for a task: on a firing that still runs or is yielded there, otherwise on the task's next firing (10 R271). -/
def Core.faultTask (c : Core) (fid : W64) (slot : BitVec 4) (d : Deferred) : Core :=
  if c.runs fid || (c.ready.any fun e => e.kind == .yielded && e.fid == fid) then c.defer fid d
  else { c with slots := c.slots.set slot.toNat { c.slots[slot.toNat]'slot.isLt with due := (c.slots[slot.toNat]'slot.isLt).due ++ [d] } slot.isLt }

end Sys2Proof.Machine
end

