-- ==== Sys2Proof/Machine/Publish.lean ====
section
/-! DEFINITION. Publications and contributions as they enter the network (10_name_tables R261, R273, R276, R278;
11_reduction_slots R282 to R284; 12_firing_queues R301), and lines of the airing cache (10 R267, 11 R289). -/

namespace Sys2Proof.Machine

/-- A sink counts a publication of its final generation (12 R301). -/
def countSink (s : State) (reg : Nat) (n : Name) : State :=
  s.onRegion reg fun r =>
    { r with sinks := r.sinks.map fun k => if k.tensor == nTensor n && k.gen == nGen n then { k with seen := k.seen + 1 } else k }

/-- A router accepts a publication: its home is resolved, its token stands at the router. -/
def acceptTile (s : State) (reg loc src : Nat) (fid : W64) (p : Parcel) : Option State :=
  (resolve s reg loc p.name).map fun d =>
    s.send { region := reg, loc := loc, dest := some d, msg := .pub p, src := src, fid := fid, born := some s.clock, pub := s.newPub }

/-- The same of a publication that sinks count (12 R301). -/
def acceptPub (s : State) (reg loc src : Nat) (fid : W64) (p : Parcel) : Option State :=
  acceptTile (countSink s reg p.name) reg loc src fid p

/-! Reductions (11 R282, R283). -/

/-- n and c of a reduction name, none where its descriptor breaks R282. -/
def redShape (d : BitVec 256) : Option (Nat × Nat) :=
  if dValid d && dSize d % 4 == 0 && decide (dSize d ≤ 8192) then some (dSize d / 4, (dSize d / 4 + 63) / 64) else none

def tagCxp : BitVec 4 := 0xD#4

/-- Bytes per element of the tags PUBR accepts, none for CXP; `some 0` is never an element size. -/
def redWidth (t : BitVec 4) : Nat := match t.toNat with | 0 => 4 | 3 => 4 | 4 => 2 | 5 => 2 | _ => 0

/-- A tag PUBR accepts (10 R278). -/
def redTag (t : BitVec 4) : Bool := redWidth t != 0 || t == tagCxp

/-- A value of a non-CXP tile: raw reads as FP32. -/
def redValue (t : BitVec 4) (code : Nat) : Exact := decodeFp (fmtF (if t = 0#4 then 3#4 else t)) code

/-- A chunk as bytes. -/
def CxpChunk.nat (c : CxpChunk) : Nat := natOfBytes c.bytes

/-- Chunk j of a non-CXP tile of n elements (11 R283). -/
def sourceChunk (t : BitVec 4) (n data j : Nat) : CxpChunk :=
  ⟨1#64, (List.range (min 64 (n - 64 * j))).map fun i =>
    cxpEncode (M320.empty.add (redValue t (slice data (8 * redWidth t) (64 * j + i))))⟩

/-- The c chunks of a CXP tile, none where its bytes do not end with the last (11 R283). -/
def splitChunks : Nat → List (BitVec 8) → Option (List (List (BitVec 8)))
  | 0, bs => if bs.isEmpty then some [] else none
  | c + 1, bs =>
    let n := (CxpChunk.ofBytes bs).size
    if bs.length < 136 || bs.length < n then none
    else (splitChunks c (bs.drop n)).map fun t => bs.take n :: t

/-- The chunks a tile contributes. -/
def redChunks (t : BitVec 4) (n c size data : Nat) : Option (List (Nat × Nat)) :=
  if t = tagCxp then (splitChunks c (bytesLE data size)).map fun l => l.map fun b => (natOfBytes b, b.length)
  else if size < redWidth t * n then none
  else some ((List.range c).map fun j => let k := sourceChunk t n data j; (k.nat, k.size))

/-- A name becomes a reduction name of its region (11 R282). -/
def useReduction (reg : Nat) (n : Name) (s : State) : State :=
  s.onRegion reg fun r => if r.redNames.contains n then r else { r with redNames := r.redNames ++ [n] }

/-- A router accepts a contribution: one token per chunk (11 R284). -/
def acceptContrib (s : State) (reg loc src : Nat) (fid : W64) (name : Name) (chunks : List (Nat × Nat)) : Option State :=
  (resolve s reg loc name).map fun d =>
    useReduction reg name <| (chunks.zip (List.range 32)).foldl (fun s p =>
      s.send { region := reg, loc := loc, dest := some d, msg := .contrib name p.2 p.1.1 p.1.2, src := src, fid := fid }) s

/-! Airing lines (10 R267, 11 R289). -/

def Aired.nl (a : Aired) : Nat := if a.state = .pending then 0 else (a.size + 63) / 64

/-- Ranges of lines in use, by first line and count. -/
def Router.used (r : Router) : List (Nat × Nat) :=
  ((r.airDir.filter fun a => a.state != .pending).map fun a => (a.line0, a.nl))
    ++ ((r.reds.filter fun e => !e.spill).map fun e => (e.place, e.nelem))

/-- The lowest run of n contiguous free lines of the 2,048; candidates are line 0 and the ends of ranges in use. Which run is taken is a
DESIGN CHOICE (log 82). -/
def Router.freeRun (r : Router) (n : Nat) : Option Nat :=
  let u := r.used
  let ok (a : Nat) : Bool := decide (a + n ≤ 2048) && u.all fun p => decide (a + n ≤ p.1) || decide (p.1 + p.2 ≤ a)
  ((0 :: u.map fun p => p.1 + p.2).filter ok).foldl (fun m a => some (match m with | some b => min a b | none => a)) none

/-- Bytes of an airing tile. -/
def Router.airBytes (r : Router) (a : Aired) : Nat := rdN r.air (64 * a.line0) a.size

def Aired.parcel (r : Router) (a : Aired) : Parcel := ⟨a.name, a.tag, a.size, r.airBytes a⟩

/-- An aired entry is evicted (10 R270); which one the environment chooses. -/
def Router.evictAired (r : Router) (pick : Nat) : Option Router :=
  let l := (List.range r.airDir.length).filter fun i => (r.airDir.getD i { name := 0#96, state := .held }).state == .aired
  (l[pick % max 1 l.length]?).map fun i => { r with airDir := dropAt r.airDir i }

/-- Evicts aired entries until n lines in a run and a directory place are free; no line where held ones still leave too little
(R267). -/
def Router.makeRoom (n : Nat) : Nat → List Nat → Router → Router × Option Nat
  | 0, _, r => (r, none)
  | fuel + 1, picks, r =>
    match (if r.airDir.length < 256 then r.freeRun n else none) with
    | some a => (r, some a)
    | none =>
      match r.evictAired (picks.headD 0) with
      | some r => makeRoom n fuel picks.tail r
      | none => (r, none)

end Sys2Proof.Machine
end

