-- ==== Sys2Proof/Machine/Names.lean ====
section
/-! DEFINITION. Group 0xC but for PUBX: subscriptions, publications, holds and queries by name, with their steps in the
network and at home (10_name_tables R249 to R281). -/

namespace Sys2Proof.Machine

/-! Issue (R272 to R280). -/

/-- A name of another space raises NAME_SPACE (R273). -/
def spaceCheck (s : State) (n : Name) : Check := { bad := nSpace n != s.core.space, cause := .nameSpace }

/-- A tile operand: not EMPTY, in an admitted buffer (R273). -/
def tileChecks (s : State) (i : Nat) (bufs : List Nat) : List Check :=
  [emptyCheck s i, { bad := !bufs.contains (s.core.tile i).buf.toNat, cause := .tileState }]

/-- A delivery tile of a standing subscription (R264). -/
def Core.standing (c : Core) (i : Nat) : Bool :=
  c.slots.toList.any fun t => t.subs.any fun p => decide (p.tile ≤ i) && decide (i < p.tile + p.depth)

/-- A token of the running firing at its router. -/
def Core.newToken (c : Core) (cur : Nat) (m : Msg) : Token :=
  { region := c.regnum, loc := cur, msg := m, src := cur, fid := c.regs.fireid }

def sendName (m : Msg) (s : State) : State := s.send (s.core.newToken s.cur m)

/-- The asker of a one-shot of the running firing. -/
def askerFor (c : Core) (i : Nat) : Asker := .tile (fidTask c.regs.fireid).toNat i c.regs.fireid

/-- SUB and RESUB bind the tile and send a one-shot. -/
def bindTile (n : Name) (i : Nat) (old : Option Name) (s : State) : State :=
  sendName (.oneShot n (askerFor s.core i) old)
    (s.onCore fun c => c.setTile i { (c.tile i).toFilling (.delivery none) with nb := true, name := n })

/-- SUB of group 0xC (R274). -/
def execSubName (d : NReg) (a : Reg) (s : State) : Out :=
  let i := slotOf (sreg s a)
  .next (guarded (spaceCheck s (nreg s d) :: tileChecks s i [0, 1] ++ [{ bad := (s.core.tile i).nb, cause := .tileState }])
    (waitFor (interlock s i true) 1 (bindTile (nreg s d) i none)) s)

/-- RESUB (R274). -/
def execResub (d : NReg) (a : Reg) (s : State) : Out :=
  let i := slotOf (sreg s a)
  let t := s.core.tile i
  .next (guarded (spaceCheck s (nreg s d) :: tileChecks s i [0, 1] ++
      [{ bad := !t.nb || s.core.standing i, cause := .tileState }])
    (waitFor (interlock s i true) 1 (bindTile (nreg s d) i (some t.name))) s)

/-- UNSUB (R275). Of a DRAINING tile, which the rule does not name, NB is cleared at issue as of a READY one (log 75). -/
def execUnsub (a : Reg) (s : State) : Out :=
  let i := slotOf (sreg s a)
  let t := s.core.tile i
  .next (guarded (tileChecks s i [0, 1, 2] ++ [{ bad := !t.nb || s.core.standing i, cause := .tileState }])
    (fun s =>
      if t.state == .filling then sendName (.withdraw t.name (askerFor s.core i)) s
      else s.onCore fun c => c.setTile i { c.tile i with nb := false }) s)

/-- The tile starts to drain and an operation stands for its reading. -/
def drainFor (i : Nat) (o : Op) (s : State) : State :=
  addOp o (s.onCore fun c => c.setTile i ((c.tile i).toDraining .none))

/-- PUB (R276). -/
def execPub (d : NReg) (a : Reg) (m : BitVec 4) (s : State) : Out :=
  let i := slotOf (sreg s a)
  .next (guarded (spaceCheck s (nreg s d) :: tileChecks s i [1, 2])
    (waitFor (interlock s i true) 1 (drainFor i { kind := .pub (nreg s d) i (m == 1#4) })) s)

/-- PUBR (R278, 11 R282, R283). Its tile's tag and size are judged at issue, before the interlock's wait, on what the tile then holds
(log 36). -/
def execPubr (d : NReg) (a : Reg) (s : State) : Out :=
  let i := slotOf (sreg s a)
  let t := s.core.tile i
  let shape := redShape (descAt s (regionOf s) s.cur (nreg s d))
  .next (guarded (spaceCheck s (nreg s d) :: tileChecks s i [1, 2] ++
      [{ bad := !redTag t.tag, cause := .formatMismatch }, { bad := shape.isNone, cause := .localBounds },
       { bad := match shape with | some (n, _) => decide (t.size < redWidth t.tag * n) | none => false, cause := .localBounds }])
    (waitFor (interlock s i true) 1 fun u => drainFor i { kind := .pubr (nreg s d) i } (useReduction (regionOf s) (nreg s d) u)) s)

/-- ROPEN (R278, 11 R282). -/
def execRopen (d a : NReg) (b : Reg) (m : BitVec 4) (s : State) : Out :=
  let n := sreg s b
  .next (guarded
    [spaceCheck s (nreg s d), spaceCheck s (nreg s a),
     { bad := n = 0#64 || decide (2 ^ 40 < n.toNat), cause := .mangleCount },
     { bad := (redShape (descAt s (regionOf s) s.cur (nreg s d))).isNone, cause := .localBounds }]
    (fun u => sendName (.ropen (nreg s d) (nreg s a) n (m.toNat - 3)) (useReduction (regionOf s) (nreg s d) u)) s)

/-- NHOLD and NREL (R279). -/
def execNhold (d : NReg) (a : Reg) (m : BitVec 4) (s : State) : Out :=
  .next (guarded [spaceCheck s (nreg s d)] (sendName (.nhold (nreg s d) (m == 1#4) (sreg s a))) s)
def execNrel (d : NReg) (s : State) : Out := .next (guarded [spaceCheck s (nreg s d)] (sendName (.nrel (nreg s d))) s)

/-- NQRY (R280): an operation that waits for the answer, and its token. -/
def execNqry (d : Reg) (a : NReg) (m : BitVec 4) (s : State) : Out :=
  .next (guarded [spaceCheck s (nreg s a)] (fun s =>
    let ser := s.core.nextSer
    sendName (.nqry (nreg s a) ser) (addOp { kind := .nqry (nreg s a), tc := m, dest := .s d } s)) s)

/-! The router reads a tile (R276, R278). -/

/-- PUBLICATION_READ: operation j of the core in focus. With .rel a wafer release comes first, once
every earlier global access of the firing has been performed (09 R229). The publication is accepted
once its home resolves; a CXP tile whose chunks do not end with its bytes sends nothing (11 R283). -/
def execPublicationRead (s : State) : Out :=
  let j := inp s 0
  .next (match s.core.ops[j]? with
    | some o =>
      let ready (i : Nat) (s : State) : State :=
        s.onCore fun c => (c.setTile i (c.tile i).toReady).dropOp j
      match o.kind with
      | .pub n i rel =>
        let t := s.core.tile i
        if rel && !allPerformed (s.core.ops.take j) o.fid then s else
        let s1 := if rel then waferRelease s else s
        let p : Parcel := ⟨n, t.tag, t.size, s1.core.load t.buf t.base t.size⟩
        match acceptPub s1 (regionOf s) s.cur s.cur o.fid p with
        | some s2 => ready i s2
        | none => s
      | .pubr n i =>
        let t := s.core.tile i
        match redShape (descAt s (regionOf s) s.cur n) with
        | none => s
        | some (e, c) =>
          match redChunks t.tag e c t.size (s.core.load t.buf t.base t.size) with
          | none =>
            if s.core.faultRoom o.fid then
              (ready i s).onCore fun k => k.defer o.fid { cause := .localBounds, val := BitVec.ofNat 64 i }
            else s
          | some ch => ((acceptContrib s (regionOf s) s.cur s.cur o.fid n ch).map (ready i)).getD s
      | _ => s
    | none => s)

/-! Match tables (R260 to R262). -/

def MatchEntry.is (e : MatchEntry) (n m : Name) : Bool := e.name == n && e.mask == m
def matchesPat (n p m : Name) : Bool := (n ^^^ p) &&& m == 0#96

def portIx (p : Nat) : Fin 5 := ⟨p % 5, Nat.mod_lt _ (by decide)⟩

/-- A subscription token is counted at a port of a router; none where the table is full or the count would pass 255. -/
def Router.count (r : Router) (n m : Name) (port : Nat) : Option Router :=
  let k := portIx port
  match r.table.find? fun e => e.is n m with
  | some e =>
    if e.cnt[k] = 255#8 then none
    else some { r with table := r.table.map fun x => if x.is n m then { x with cnt := x.cnt.set k.val (x.cnt[k] + 1#8) k.isLt } else x }
  | none =>
    if 1024 ≤ r.table.length + r.reds.length then none
    else some { r with table := r.table ++ [{ name := n, mask := m, cnt := (Vector.replicate 5 0#8).set k.val 1#8 k.isLt }] }

/-- An unsubscription is counted; an entry whose counts are all zero goes. -/
def Router.uncount (r : Router) (n m : Name) (port : Nat) : Router :=
  let k := portIx port
  let fall (x : MatchEntry) : MatchEntry :=
    if x.is n m && x.cnt[k] != 0#8 then { x with cnt := x.cnt.set k.val (x.cnt[k] - 1#8) k.isLt } else x
  { r with table := (r.table.map fall).filter fun x => !(x.is n m && x.cnt.toList.all (· == 0#8)) }

/-- The ports with subscribers for a name. -/
def Router.portsFor (r : Router) (n : Name) : List Nat :=
  (List.range 5).filter fun p => r.table.any fun e => matchesPat n e.name e.mask && e.cnt[portIx p] != 0#8

/-- A standing subscription is counted at a router on the port it came by, the local port at its own; one that finds no room goes on as direct
(R260, R262). -/
def countSub (s : State) (t : Token) (task num : Nat) (n m : Name) : State × Token :=
  match (s.router t.loc).count n m t.port with
  | some r => (s.setRouter t.loc r, { t with counted := true })
  | none =>
    ((offer s (reticleOf t.loc) t.region 9 0 1).onRouter t.loc fun r => { r with mtfull := satInc r.mtfull, turned := r.turned ++ [(task, num)] },
      { t with msg := .sub task num n m true })

/-- SUBSCRIPTION_TOKEN: token j passes a router, where a standing one is counted; at the home it is counted with its turn (R281). Name tokens
that no table matches pass likewise. -/
def execSubscriptionToken (s : State) : Out :=
  let j := inp s 0
  .next (match s.net[j]? with
    | some t0 =>
      if t0.here || behind s j t0 then s
      else
        match t0.msg, t0.resolved s with
        | .sub task num n m direct, some t =>
          let s := if t0.dest.isSome then s else
            s.onRegion t.region fun r => { r with subPath := insert (subKey t.src task num) t.dest.toList r.subPath }
          if direct || t.dest = some t.loc then hopOn s j t
          else
            let (s, t) := countSub s t task num n m
            hopOn s j { t with counted := false }
        | .oneShot .., some t | .withdraw .., some t | .nhold .., some t | .nrel .., some t | .nqry .., some t
        | .ropen .., some t => hopOn s j t
        | _, _ => s
    | none => s)

/-- An unsubscription has done its work where its subscription's path turned, or ended. A direct subscriber is forgotten where it is found; the
home that the unsubscription has resolved itself is the last place to look. -/
def unsubTurns (s : State) (j : Nat) (t : Token) (task num : Nat) (n : Name) (direct : Bool) : State :=
  let mine (d : Nat × Nat × Name × Name) : Bool := d.1 == task && d.2.1 == num && d.2.2.1 == n
  let next : Option (Nat × List Nat) :=
    match t.path.dropLast.dropWhile (· == t.loc) with
    | d :: rest => some (d, rest ++ t.path.getLast?.toList)
    | [] => (t.path.getLast?.filter fun d => direct && d != t.loc).map fun d => (d, [])
  if direct && (s.router t.loc).directs.any mine then
    (s.onRouter t.loc fun r => { r with directs := r.directs.filter fun d => !mine d }).dropTok j
  else
    match next with
    | some (d, rest) => moveBy s j { t with dest := some d, path := rest } (portTo s t.loc d)
    | none => s.dropTok j

/-- UNSUBSCRIPTION_TOKEN: token j decrements the counts that the subscription raised, on the path that it took, up to the router where that
was marked direct. At a home it takes its turn (R281). -/
def execUnsubscriptionToken (s : State) : Out :=
  let j := inp s 0
  .next (match s.net[j]? with
    | some t0 =>
      if behind s j t0 then s
      else
        match t0.msg, t0.resolved s with
        | .unsub task num n m direct, some t =>
          let s := if t0.dest.isSome then s else
            s.onRegion t.region fun r => { r with subPath := erase (subKey t.src task num) r.subPath }
          if t.dest = some t.loc ∧ !t.here then hopOn s j t else
          if t.here && !homeTurn s t then s else
          let turns := direct || (s.router t.loc).turned.contains (task, num)
          let s := s.onRouter t.loc fun r =>
            if direct then r
            else if turns then { r with turned := r.turned.erase (task, num) }
            else r.uncount n m t.port
          let t := { t with msg := .unsub task num n m turns }
          if t.dest = some t.loc then unsubTurns s j t task num n turns else hopOn s j t
        | _, _ => s
    | none => s)

/-- The points of a region's blocks that wait for a name beyond a port of their entry router (R258). -/
def beyond (s : State) (reg code port : Nat) (n : Name) : List Asker :=
  (List.range 32).flatMap fun p =>
    let b := findD p {} s.blocks
    if b.owner != some reg || entryRouter s reg p != code || pathPort s reg p != port then []
    else (b.armed.filter fun a => a.listed && a.name == n).map fun a => .block p a.bind a.point

/-- A copy of a publication. -/
def Token.copied (t : Token) (loc port : Nat) (m : Msg) : Token :=
  { t with loc := loc, port := port, msg := m, dest := none, path := [], here := false, fetched := false }

/-- Copies of a publication leave a router by the given ports (R261); by the port toward an edge path they go to its blocks (R258). -/
def copyTo (s : State) (t : Token) (p : Parcel) (ports : List Nat) : State :=
  ports.foldl (fun s q =>
    if q = 0 then s.send (t.copied t.loc 0 (.arrive p none))
    else
      match neighbour s (s.region t.region) t.loc q with
      | some n => s.send { t.copied n (oppositePort q) (.copy p) with gone := true }
      | none =>
        match beyond s t.region t.loc q p.name with
        | [] => borderRefused s t.region p.name 1 q t.loc
        | l => l.foldl (fun s w => s.send { t.copied t.loc 0 (.giveTo p w) with gone := true }) s) s

/-- Distinct numbers. -/
def nub (l : List Nat) : List Nat := l.foldl (fun a x => if a.contains x then a else a ++ [x]) []

/-- The standing subscriptions that have left a router's core and that no other token of the publication serves: its copy there goes on to
their tasks (R256, 21 R469). -/
def leftFrom (s : State) (t : Token) (n : Name) : List (Nat × Nat) :=
  ((s.region t.region).left.filter fun x => x.1 == t.loc && matchesPat n x.2.2.2.1 x.2.2.2.2 && !t.given.contains (x.2.1, x.2.2.1)).map
    fun x => (x.2.1, x.2.2.1)

/-- The ports of a router by which a publication is copied: each that matches but the one it came by. -/
def copyPorts (s : State) (t : Token) (n : Name) : List Nat := ((s.router t.loc).portsFor n).filter fun q => q != t.port || q == 0

/-- PUBLICATION_HOP: token j, a publication or a tree copy, passes a router and is copied there; the port by which a publication goes on
itself needs no copy, and at the home it is copied with its turn (R281). -/
def execPublicationHop (s : State) : Out :=
  let j := inp s 0
  .next (match s.net[j]? with
    | some t =>
      if t.here || behind s j t then s
      else
        match t.msg, t.dest with
        -- a copy for a subscription that has left this core is redirected at its port (R256)
        | .copy p, _ =>
          (copyTo s t p (if (leftFrom s t p.name).isEmpty then copyPorts s t p.name else nub (copyPorts s t p.name ++ [0]))).dropTok j
        | .pub p, some d =>
          hopOn (if t.loc = d then s else copyTo s t p ((copyPorts s t p.name).filter (· != portTo s t.loc d))) j t
        | _, _ => s
    | none => s)

/-! At the home (R267 to R271). -/

/-- A tile leaves the airing cache for a subscriber: a count hold falls, and ends at zero (R268, R269). -/
def Aired.serve (a : Aired) : Aired :=
  if a.state = .held && a.hkind == 1 then
    { a with hcnt := a.hcnt - 1#8, state := if a.hcnt = 1#8 then .aired else .held }
  else a

def Router.putAired (r : Router) (n : Name) (f : Aired → Aired) : Router :=
  { r with airDir := r.airDir.map fun a => if a.name == n then f a else a }

/-- Stored tiles a pattern matches, in ascending order of name. -/
def insertByName (a : Aired) : List Aired → List Aired
  | [] => [a]
  | b :: t => if a.name.ult b.name then a :: b :: t else b :: insertByName a t
def Router.storedFor (r : Router) (p m : Name) : List Aired :=
  (r.airDir.filter fun a => a.state != .pending && matchesPat a.name p m).foldl (fun l a => insertByName a l) []

/-- The home's answer tokens start at the home router. -/
def Token.from (t : Token) (m : Msg) : Token := { region := t.region, loc := t.loc, msg := m, gone := true, born := t.born }

/-- A tile of the airing cache goes to a subscriber: its publication was accepted when it was (13 R345). -/
def Token.serve (t : Token) (a : Aired) (m : Msg) : Token := { t.from m with born := a.born }

/-- The fall-through of R271 for a token at its home: a pending entry and one fetch. None where there is no room for the
entry. -/
def fallThrough (s : State) (t : Token) (n : Name) (subs : List (Nat × Nat)) : Option State :=
  let r := s.router t.loc
  if 256 ≤ r.airDir.length then none
  else some ((s.setRouter t.loc { r with airDir := r.airDir ++ [{ name := n, state := .pending, subs := subs }] }).send (t.from (.fetch n [] [])))

/-- A reduction name never falls through (11 R282). -/
def reduces (s : State) (t : Token) (n : Name) : Bool :=
  (s.region t.region).redNames.contains n || (s.router t.loc).reds.any fun e => e.name == n

/-- The directory EPOCH of a one-shot's task. -/
def askerEpoch (s : State) (reg : Nat) : Asker → BitVec 16
  | .tile task _ _ => ((find? task (s.region reg).dir).map DirEntry.epoch).getD 0#16
  | .block .. => 0#16

/-- A standing subscription is served at its home (R268). -/
def serveStanding (s : State) (j : Nat) (t : Token) (task num : Nat) (n m : Name) (direct : Bool) : State :=
  let r := s.router t.loc
  let hits := r.storedFor n m
  let d := descAt s t.region t.loc n
  if direct && 256 ≤ r.directs.length then s.setTok j { t with held := true }
  else
    let note (s : State) : State :=
      (if direct then s.onRouter t.loc fun r => { r with directs := r.directs ++ [(task, num, n, m)] } else s).dropTok j
    if !hits.isEmpty then
      note (hits.foldl (fun s a =>
        (s.send (t.serve a (.give (a.parcel (s.router t.loc)) task num))).onRouter t.loc fun r => r.putAired a.name Aired.serve) s)
    else if r.airDir.any fun a => a.state == .pending && matchesPat a.name n m then
      note (s.onRouter t.loc fun r =>
        { r with airDir := r.airDir.map fun a => if a.state == .pending && matchesPat a.name n m then { a with subs := a.subs ++ [(task, num)] } else a })
    else if m == BitVec.allOnes 96 && (backing d n).isSome && !reduces s t n then
      match fallThrough s t n [(task, num)] with
      | some s => note s
      | none => s.setTok j { t with held := true }
    else note s

/-- A one-shot is served at its home (R268). -/
def serveOneShot (s : State) (j : Nat) (t : Token) (n : Name) (who : Asker) : State :=
  let r := s.router t.loc
  let shot : Shot := { name := n, who := who, epoch := askerEpoch s t.region who }
  let join (s : State) : State := (s.onRouter t.loc fun r => { r with shots := r.shots ++ [shot] }).dropTok j
  match r.airDir.find? fun a => a.name == n && a.state != .pending with
  | some a =>
    ((s.send (t.serve a (.giveTo (a.parcel r) who))).onRouter t.loc fun r => r.putAired n Aired.serve).dropTok j
  | none =>
    if 64 ≤ r.shots.length then s.setTok j { t with held := true }
    else if (r.airDir.any fun a => a.name == n) || (backing (descAt s t.region t.loc n) n).isNone || reduces s t n then join s
    else
      match fallThrough s t n [] with
      | some s => join s
      | none => s.setTok j { t with held := true }

/-- A delivery has been accepted for the tile and is being written. -/
def Tile.delivering (t : Tile) : Bool :=
  match t.filler with | .delivery (some _) => t.state == .filling | _ => false

/-- The same slot of the same task. -/
def Asker.same : Asker → Asker → Bool
  | .tile a b _, .tile c d _ => a == c && b == d
  | .block a b c, .block d e f => a == d && b == e && c == f
  | _, _ => false

/-- Serves token j, at its home, whose match table counts a standing subscription first. -/
def serveAtHome (s : State) (j : Nat) (t : Token) : State :=
  match t.msg with
  | .sub task num n m direct =>
    if direct || t.counted then serveStanding s j t task num n m direct
    else
      let (s, t) := countSub s t task num n m
      serveStanding s j t task num n m (!t.counted)
  | .oneShot n who old =>
    let s := match old, t.path with
      | some o, h :: _ => s.onRouter h fun r => { r with shots := r.shots.filter fun p => !(p.name == o && p.who.same who) }
      | _, _ => s
    serveOneShot s j t n who
  | _ => s

/-- SUBSCRIPTION_AT_HOME: token j, a standing subscription or a one-shot. -/
def execSubscriptionAtHome (s : State) : Out :=
  let j := inp s 0
  .next (match s.net[j]? with
    | some t => if homeTurn s t && !t.held then serveAtHome s j t else s
    | none => s)

/-- A pending entry ends (R271). -/
def Router.unpend (r : Router) (n : Name) : Router :=
  { r with airDir := r.airDir.filter fun a => !(a.name == n && a.state == .pending) }

/-- A publication is treated at its home (R267): it is copied to the tree, waiters and direct subscribers are served, then it is stored
where its descriptor gives a hold. The picks choose the aired entries that make room. -/
def treatAtHome (s : State) (t : Token) (p : Parcel) (picks : List Nat) : State :=
  let s := if t.fetched then s.onRouter t.loc fun r => r.unpend p.name else s
  let s := copyTo s t p (copyPorts s t p.name)
  let r := s.router t.loc
  let waiting := r.shots.filter fun w => w.name == p.name
  let s := waiting.foldl (fun s w => s.send (t.from (.giveTo p w.who))) s
  let ds := r.directs.filter fun d => matchesPat p.name d.2.2.1 d.2.2.2 && !t.given.contains (d.1, d.2.1)
  let s := ds.foldl (fun s d => s.send (t.from (.give p d.1 d.2.1))) (s.giveMark t.pub (ds.map fun d => (d.1, d.2.1)))
  let s := s.onRouter t.loc fun r => { r with shots := r.shots.filter fun w => w.name != p.name }
  let d := descAt s t.region t.loc p.name
  -- of a reduction name the hold is not used (11 R282)
  if !holds d || reduces s t p.name then s
  else
    let r := s.router t.loc
    let nl := (p.size + 63) / 64
    let other := { r with airDir := r.airDir.filter fun a => a.name != p.name }
    let entry (l : Nat) : Aired :=
      { name := p.name, state := .held, hkind := dHkind d, hcnt := if dHkind d = 1 then dHval d else 0#8, round0 := r.round
        hrnd := if dHkind d = 2 then (dHval d).extractLsb' 0 4 else 0#4, tag := p.tag, size := p.size, line0 := l, born := t.born }
    match other.makeRoom nl 257 picks with
    | (r', some l) => s.setRouter t.loc { r' with airDir := r'.airDir ++ [entry l], air := wrN r'.air (64 * l) p.data (64 * nl) }
    | (r', none) =>
      post (s.setRouter t.loc r') t.region (fromReticle (reticleOf t.loc)) 0x06 (p.name.extractLsb' 0 64)
        (BitVec.ofNat 32 nl ++ p.name.extractLsb' 64 32) false none none

/-- PUBLICATION_AT_HOME: token j; the further inputs choose which aired entries are evicted. -/
def execPublicationAtHome (s : State) : Out :=
  let j := inp s 0
  .next (match s.net[j]? with
    | some t =>
      match t.msg with
      | .pub p => if homeTurn s t then (treatAtHome s t p (s.input.drop 1)).dropTok j else s
      | _ => s
    | none => s)

/-- The bytes of a tile from the lines read (R271). -/
def tileOf (got : Map (BitVec 512)) (va n : Nat) : Nat :=
  (pack 512 ((linesOf va n).map fun l => (findD l 0#512 got).toNat) >>> (8 * (va % 64))) % 2 ^ (8 * n)

/-- The lowest failing address. -/
def lowest : List (Nat × Cause) → Option (Nat × Cause)
  | [] => none
  | x :: t => match lowest t with | some y => if y.1 < x.1 then some y else some x | none => some x

/-- A fetch that has read its lines publishes the tile as if from the home, where the publication takes its turn and ends the pending
entry, or sends fault notices (R271). -/
def endFetch (s : State) (j : Nat) (t : Token) (n : Name) (x : Except (Nat × Cause) Nat) : State :=
  let d := descAt s t.region t.loc n
  let r := s.router t.loc
  let subs := ((r.airDir.find? fun a => a.name == n && a.state == .pending).map Aired.subs).getD []
  match x with
  | .ok x =>
    s.setTok j { region := t.region, loc := t.loc, dest := some t.loc, msg := .pub ⟨n, dFmt d, dSize d, x⟩, src := t.loc
                 fid := BitVec.allOnes 64, gone := true, here := true, since := s.clock, born := some s.clock, pub := s.newPub, fetched := true }
  | .error (va, c) =>
    let s1 := (s.dropTok j).setRouter t.loc (r.unpend n)
    let s2 := (r.shots.filter fun w => w.name == n).foldl (fun s w => s.send (t.from (.noticeTo n w.who c va))) s1
    let s3 := subs.foldl (fun s w => s.send (t.from (.noticeSub w.1 c va))) s2
    s3.onRouter t.loc fun r => { r with shots := r.shots.filter fun w => w.name != n }

/-- FALL_THROUGH_FETCH: line i of the tile that fetch j asks for is read at the hem agents, old or new against stores meanwhile; with
the last one the fetch ends (R271, 09 R243). 2^32 more than i says that the host fails the request (17 R435). -/
def execFallThroughFetch (s : State) : Out :=
  let j := inp s 0
  let i := inp s 1 % 2 ^ 32
  .next (match s.net[j]? with
    | some t =>
      match t.msg with
      | .fetch n got bad =>
        let va := (backing (descAt s t.region t.loc n) n).getD 0
        let ls := linesOf va (dSize (descAt s t.region t.loc n))
        match ls[i]? with
        | none => s
        | some l =>
          if (find? l got).isSome || bad.any (fun x => x.1 / 64 == l) then s
          else
            let read := if 2 ^ 32 ≤ inp s 1 && isHost (64 * l) then .error .poison else agentRead s t.region (64 * l) 64 .read
            let got' := match read with | .ok x => insert l (BitVec.ofNat 512 x) got | .error _ => got
            let bad' := match read with | .ok _ => bad | .error c => bad ++ [(max va (64 * l), c)]
            let s := cacheLeaf s t.region (64 * l)
            let t := { t with msg := .fetch n got' bad' }
            if got'.length + bad'.length < ls.length then s.setTok j t
            else
              endFetch s j t n (match lowest bad' with | some x => .error x | none => .ok (tileOf got' va (dSize (descAt s t.region t.loc n))))
      | _ => s
    | none => s)

/-- WITHDRAWAL_AT_HOME (R275): the wait-list entry goes, or a delivery is on its way and completes first; the task's core is told, wherever the
task is (21 R469). -/
def execWithdrawalAtHome (s : State) : Out :=
  let j := inp s 0
  .next (match s.net[j]? with
    | some t =>
      match t.msg with
      | .withdraw n (.tile task i fid) =>
        let mine (w : Asker) : Bool := w.same (.tile task i fid)
        let asked (e : Token) : Bool := match e.msg with | .oneShot m w _ => m == n && mine w | _ => false
        if homeTurn s t && !(s.net.take j).any (fun e => asked e && !e.held) then
          let coming := s.net.any fun e => match e.msg with | .giveTo p w => p.name == n && mine w | _ => false
          let s := (s.onRouter t.loc fun r => { r with shots := r.shots.filter fun p => !(p.name == n && mine p.who) }).dropTok j
          let s := { s with net := s.net.filter fun e => !(asked e && e.held) }
          s.send { t.from (.withdrawn n task i coming) with fid := fid }
        else s
      | _ => s
    | none => s)

/-- A one-shot's tile learns of its withdrawal: a delivery on its way, or being written, comes first; without one the tile is READY, its bytes
unchanged (R275). -/
def Tile.withdrawn (t : Tile) (coming : Bool) : Tile :=
  match t.state with
  | .empty => t
  | .filling => if coming || t.delivering then { t with unbind := true } else { t.toReady with nb := false }
  | _ => { t with nb := false }

/-- The effect of a hold or release on an entry (R279). -/
def Aired.hold (rnd : Bool) (x : W64) (round : BitVec 32) (a : Aired) : Aired :=
  if a.state = .pending then a
  else if rnd then
    let v := x.extractLsb' 0 4
    { a with state := if v = 0#4 then .aired else .held, hkind := 2, hrnd := v, round0 := round }
  else
    let v := x.extractLsb' 0 8
    { a with state := if v = 0#8 then .aired else .held, hkind := 1, hcnt := v }

def execNholdAtHome (s : State) : Out :=
  let j := inp s 0
  .next (match s.net[j]? with
    | some t =>
      match t.msg with
      | .nhold n rnd x =>
        if homeTurn s t then (s.onRouter t.loc fun r => r.putAired n (Aired.hold rnd x r.round)).dropTok j else s
      | _ => s
    | none => s)

def execNrelAtHome (s : State) : Out :=
  let j := inp s 0
  .next (match s.net[j]? with
    | some t =>
      match t.msg with
      | .nrel n =>
        if homeTurn s t then
          (s.onRouter t.loc fun r => r.putAired n fun a => if a.state = .pending then a else { a with state := .aired }).dropTok j
        else s
      | _ => s
    | none => s)

/-- Rounds that a round hold still has to run: 15 until NREL, none once the entry is aired (R280). -/
def Aired.roundsLeft (a : Aired) (round : BitVec 32) : BitVec 4 :=
  if a.hkind != 2 || a.state != .held then 0#4
  else if a.hrnd = 15#4 then 15#4
  else BitVec.ofNat 4 ((a.hrnd.toNat : Int) - (round - a.round0).toInt).toNat

/-- The answer of NQRY (R280); of a reduction name every field but STATE is 0 (11 R282, R288). -/
def queryWord (s : State) (t : Token) (n : Name) : W64 :=
  let r := s.router t.loc
  let backed := BitVec.ofBool (dBack (descAt s t.region t.loc n) != 0)
  if reduces s t n then (if r.reds.any fun e => e.name == n then 1#2 else 0#2) ++ 0#62
  else
    match r.airDir.find? fun a => a.name == n with
    | none => 0#2 ++ backed ++ 0#61
    | some a =>
      match a.state with
      | .pending => 1#2 ++ backed ++ 0#61
      | st =>
        (if st = .held then 2#2 else 3#2) ++ backed ++ 0#3 ++ (if a.hkind == 1 then a.hcnt else 0#8) ++ a.roundsLeft r.round ++ a.tag
          ++ BitVec.ofNat 16 (a.size - 1) ++ 0#26

def execNqryAtHome (s : State) : Out :=
  let j := inp s 0
  .next (match s.net[j]? with
    | some t =>
      match t.msg with
      | .nqry n ser =>
        if homeTurn s t then
          let c := s.coreAt t.src
          let w := queryWord s t n
          (match c.opIdx ser with
            | some k => s.setCoreAt t.src (c.setOp k { (c.ops.getD k { kind := .nqry n }) with got := w.toNat, resp := true })
            | none => s).dropTok j
        else s
      | _ => s
    | none => s)

/-! Delivery at a core (R264 to R266, R274). -/

/-- A pattern's name and mask in a region's space (R249). -/
def Pattern.pname (sp : BitVec 12) (p : Pattern) : Name :=
  let i (c : Nat) : BitVec 10 := (p.coord.getD c none).getD 0#10
  sp ++ p.tensor ++ i 3 ++ i 2 ++ i 1 ++ i 0 ++ p.gen.getD 0#24
def Pattern.pmask (p : Pattern) : Name :=
  let i (c : Nat) : BitVec 10 := if (p.coord.getD c none).isSome then BitVec.allOnes 10 else 0#10
  BitVec.allOnes 32 ++ i 3 ++ i 2 ++ i 1 ++ i 0 ++ (if p.gen.isSome then BitVec.allOnes 24 else 0#24)

/-- .gdiff (03 R80). -/
def gdiff (a b : BitVec 24) : Int := (a - b).toInt

/-- A delivery is accepted for its tile: TAG and name of the publication; its lines are still to be written (R264, R274). -/
def Core.acceptFill (c : Core) (i : Nat) (p : Parcel) (born : Option Nat) : Core :=
  c.setTile i { c.tile i with tag := p.tag, name := p.name, filler := .delivery (some (p, born)) }

/-- The last byte of a delivery has been written: the tile is READY, or as an UNSUB has asked (R264, R275). -/
def Tile.delivered (t : Tile) : Tile :=
  if t.dying then {} else if t.unbind then { t.toReady with unbind := false, nb := false } else t.toReady

/-- What a standing subscription does with a delivery. -/
inductive Verdict where
  | take (tile : Nat)
  | stale
  | wait
deriving DecidableEq, Repr

def Core.verdict (c : Core) (ts : TaskSlot) (p : Pattern) (n : Name) : Verdict :=
  if p.gen.isSome then
    if (c.tile p.tile).state != .filling then .stale
    else if (c.tile p.tile).holds != 0#5 || (c.tile p.tile).delivering then .wait
    else .take p.tile
  else
    let d := gdiff (nGen n) ts.nextg
    let i := p.tile + (nGen n).toNat % p.depth
    if d < 0 then .stale
    else if (c.tile i).state == .filling && (c.tile i).holds == 0#5 && !(c.tile i).delivering && decide (d < p.depth) then .take i
    else .wait

/-- A standing delivery of a parcel to one subscription; false where it waits. An oversize one is counted and its firing
faults (R266). -/
def Core.deliverStanding (c : Core) (slot : BitVec 4) (k : Nat) (p : Parcel) (born : Option Nat) : Core × Bool :=
  let ts := c.slots[slot.toNat]'slot.isLt
  match ts.subs[k]? with
  | none => (c, true)
  | some pat =>
    match c.verdict ts pat p.name with
    | .wait => (c, false)
    | .stale => ({ c with delstale := satInc c.delstale }, true)
    | .take i =>
      let ovr := decide ((c.tile i).size < p.size)
      let c := c.acceptFill i p born
      let c := if ovr then { c.setTile i { c.tile i with ovr := true } with delstale := satInc c.delstale } else c
      (c, true)

/-- The set of a task is satisfied for its next generation (R265): the firing is created with the names of its tiles, and
NEXTG advances. The faults of oversize deliveries go with it. -/
def Core.trySatisfy (c : Core) (slot : BitVec 4) : Core :=
  let ts := c.slots[slot.toNat]'slot.isLt
  let tileFor (p : Pattern) : Nat := if p.gen.isSome then p.tile else p.tile + ts.nextg.toNat % p.depth
  let ok (p : Pattern) : Bool :=
    let t := c.tile (tileFor p)
    t.state == .ready && !t.rearm && (p.gen.isSome || nGen t.name == ts.nextg)
  let single := ts.subs.all fun p => p.gen.isSome
  if ts.task = 0xFFFF#16 || !ts.subs.all ok || (single && ts.nextg != 0#24) then c
  else
    let tiles := ts.subs.map tileFor
    let ovr := (tiles.map c.tile).filter Tile.ovr
    let e : Ready :=
      { kind := .subscription, slot := slot, prio := ts.prio, rdyseq := c.rdyseq, fid := mkFid ts.task ts.nextg 0#24
        names := tiles.map fun i => (c.tile i).name
        faults := ovr.map fun t => { cause := .localBounds, val := t.name.extractLsb' 0 64 } }
    let c := tiles.foldl (fun c i => if (c.tile i).ovr then c.setTile i { c.tile i with ovr := false } else c) c
    { c with ready := c.ready ++ [e], rdyseq := c.rdyseq + 1#32
             slots := c.slots.set slot.toNat { ts with nextg := ts.nextg + 1#24 } slot.isLt }

/-- Every set that can be satisfied is, for up to as many generations as a delivery tile has depth. -/
def Core.satisfyAll (c : Core) : Core :=
  (List.range 16).foldl (fun c i => (List.range 4).foldl (fun c _ => c.trySatisfy (BitVec.ofNat 4 i)) c) c

/-- The standing subscriptions of a core that a name matches, by task slot and number. -/
def Core.wants (c : Core) (n : Name) : List (Nat × Nat) :=
  (List.range 16).flatMap fun i =>
    let ts := c.slots[i % 16]'(Nat.mod_lt _ (by decide))
    if ts.task = 0xFFFF#16 then []
    else ((List.range ts.subs.length).filter fun k =>
      match ts.subs[k]? with | some p => matchesPat n (p.pname c.space) p.pmask | none => false).map fun k => (i, k)

/-- Task and number of a standing subscription of a core, by task slot and number. -/
def Core.subId (c : Core) (k : Nat × Nat) : Nat × Nat := ((c.slots.toList.getD k.1 {}).task.toNat, k.2)

/-- The subscriptions that a copy at a core's local port reaches: those that match and that no other token of the publication serves
(R261, R281). -/
def Core.reaches (c : Core) (t : Token) (n : Name) : List (Nat × Nat) := (c.wants n).filter fun k => !t.given.contains (c.subId k)

/-- A token that stands at the local port of a router, or travels to a task there: the core it goes to. -/
def Token.targetCore (s : State) (t : Token) : Option Nat :=
  match t.msg with
  | .arrive _ _ => some t.loc
  | .give _ task _ | .noticeSub task _ _ | .withdrawn _ task _ _ => (holderOf s t.region task).map Prod.fst
  | .giveTo _ (.tile task _ _) | .noticeTo _ (.tile task _ _) _ _ => (holderOf s t.region task).map Prod.fst
  | _ => none

/-- A core that takes in no delivery now: one whose image stands saved, that its own core save has halted (21 R469), or that has failed. -/
def Core.takesNone (c : Core) : Bool := match c.halt with | .region saved => saved || c.moving | .failed => true | _ => false

/-- A one-shot's tile arrives (R274): an oversize publication raises LOCAL_BOUNDS on the issuing firing. -/
def Core.deliverOneShot (c : Core) (slot : BitVec 4) (i : Nat) (fid : W64) (p : Parcel) (born : Option Nat) : Core :=
  let t := c.tile i
  if t.state != .filling || t.filler != .delivery none || t.name != p.name then c
  else
    let c := c.acceptFill i p born
    if t.size < p.size then c.faultTask fid slot { cause := .localBounds, val := BitVec.ofNat 64 i } else c

/-- What a delivery shows the capture units (13 R345): each stale or oversize one. -/
def offerStale (t : Token) (n : Nat) (c c' : Core) (s : State) : State :=
  (List.range (c'.delstale - c.delstale).toNat).foldl (fun s _ => offer s (reticleOf n) t.region 10 0 1) s

/-- Line l of tile i's delivery at the core in focus is written and its fill bit set (R264). With the last line the tile is READY, sets
that it satisfies create their firings, and its latency is shown to the capture units (R265, 13 R345). -/
def tileLine (i l : Nat) (s : State) : State :=
  let c := s.core
  let t := c.tile i
  match t.state, t.filler with
  | .filling, .delivery (some (p, born)) =>
    let n := min t.size p.size
    if n ≤ 64 * l ∨ t.fill.getLsbD l then s
    else
      let t' := { t with fill := t.fill ||| 1#1024 <<< l }
      let c := c.store t.buf (t.base + 64 * l) (slice p.data 512 l % 2 ^ (8 * min 64 (n - 64 * l))) (min 64 (n - 64 * l))
      if !((List.range ((n + 63) / 64)).all fun k => t'.fill.getLsbD k) then { s with core := c.setTile i t' }
      else
        let s := match born with
          | some b => if t.dying then s else offer s (reticleOf s.cur) (regionOf s) 1 0 ((s.clock - b) / 2)
          | none => s
        { s with core := (c.setTile i t'.delivered).satisfyAll }
  | _, _ => s

/-- A tile or a notice has come for a point of an edge block, whose reverse-path entry goes (R258). -/
def toBlock (s : State) (reg port bind point : Nat) (f : Armed → Armed) : State :=
  let hit (a : Armed) : Bool := a.bind == bind && a.point == point && a.got.isNone
  let b := findD port {} s.blocks
  let s := (b.armed.filter fun a => hit a && a.listed).foldl (fun s a =>
    s.onRouter (entryRouter s reg port) fun r => r.uncount a.name (BitVec.allOnes 96) (pathPort s reg port)) s
  { s with blocks := modify port {} (fun b => { b with
    armed := b.armed.map (fun a => if hit a then f { a with listed := false } else a), waited := if b.state == .running then 0 else b.waited }) s.blocks }

/-- The router where a token for a block stands before the block takes it. -/
def Token.entry (s : State) (t : Token) : Option Nat :=
  match t.msg with
  | .giveTo _ (.block port _ _) | .noticeTo _ (.block port _ _) _ _ => some (entryRouter s t.region port)
  | _ => none

/-- TILE_DELIVERY: token j comes to the router of its core, or to its block's entry router; or, there, it is delivered, accepted, discarded or
held. Publications to one core do not pass one another; other traffic passes those that are held (R264). -/
def execTileDelivery (s : State) : Out :=
  let j := inp s 0
  .next (match s.net[j]? with
    | some t =>
      if (t.entry s).any fun n => n != t.loc then s.setTok j { t with loc := (t.entry s).getD t.loc } else
      match t.msg with
      | .giveTo p (.block port bind point) =>
        -- a block that the region does not own (R258)
        if (findD port {} s.blocks).owner != some t.region then refuseAtEdge (s.dropTok j) t.region port p.name 1 else
        if ((findD port {} s.blocks).armed.any fun a => a.bind == bind && a.point == point && a.name == p.name) then
          toBlock (s.dropTok j) t.region port bind point fun a => { a with got := some p }
        else s.dropTok j
      | .noticeTo n (.block port bind point) _ _ =>
        if (findD port {} s.blocks).owner != some t.region then refuseAtEdge (s.dropTok j) t.region port n 0 else
        if ((findD port {} s.blocks).armed.any fun a => a.bind == bind && a.point == point && a.name == n) then
          toBlock (s.dropTok j) t.region port bind point fun a => { a with failed := true }
        else s.dropTok j
      | _ =>
        match t.targetCore s with
        | none => s
        | some n =>
          -- a wrong directory entry (01 R19)
          if !s.within t.region n then refuseAtBorder (s.dropTok j) t.region t.loc n t.msg.name t.msg.cls else
          if n != t.loc then s.setTok j { t with loc := n } else
          let c := s.coreAt n
          let early := t.msg.cls == 1 && (s.net.take j).any fun e => e.msg.cls == 1 && e.targetCore s == some n
          if early || c.takesNone then s
          else
            match t.msg with
            | .arrive p todo =>
              let ks := todo.getD (c.reaches t p.name)
              let r := ks.foldl (fun (a : Core × List (Nat × Nat)) k =>
                let d := a.1.deliverStanding (BitVec.ofNat 4 k.1) k.2 p t.born
                (d.1, if d.2 then a.2 else a.2 ++ [k])) (c, [])
              let go := if todo.isSome then [] else leftFrom s t p.name
              let s := (offerStale t n c r.1 (s.giveMark t.pub (ks.map c.subId ++ go))).setCoreAt n r.1
              let s := go.foldl (fun s k => s.send { t with msg := .give p k.1 k.2 }) s
              if r.2.isEmpty then s.dropTok j else s.setTok j { t with msg := .arrive p (some r.2) }
            | .give p task num =>
              match holderOf s t.region task with
              | some (_, slot) =>
                let d := c.deliverStanding slot num p t.born
                if d.2 then ((offerStale t n c d.1 s).dropTok j).setCoreAt n d.1 else s
              | none => s
            | .giveTo p (.tile task i fid) =>
              match holderOf s t.region task with
              | some (_, slot) => if c.faultRoom fid && (c.tile i).holds == 0#5 then (s.dropTok j).setCoreAt n (c.deliverOneShot slot i fid p t.born) else s
              | none => s
            | .withdrawn _ _ i coming => (s.dropTok j).setCoreAt n (c.setTile i ((c.tile i).withdrawn coming))
            | .noticeTo _ (.tile task _ fid) cause va =>
              match holderOf s t.region task with
              | some (_, slot) =>
                if c.faultRoom fid then (s.dropTok j).setCoreAt n (c.faultTask fid slot { cause := cause, val := BitVec.ofNat 64 va }) else s
              | none => s
            | .noticeSub task cause va =>
              match holderOf s t.region task with
              | some (_, slot) =>
                let ts := c.slots[slot.toNat]'slot.isLt
                let d : Deferred := { cause := cause, val := BitVec.ofNat 64 va }
                (s.dropTok j).setCoreAt n { c with slots := c.slots.set slot.toNat { ts with due := ts.due ++ [d] } slot.isLt }
              | none => s
            | _ => s
    | none => s)

end Sys2Proof.Machine
end

