-- ==== Sys2Proof/Machine/Reductions.lean ====
section
/-! DEFINITION. Router reduction slots and the reduction state at a home (11_reduction_slots R285 to R292), and tokens
retried at a home (10_name_tables R262, R268). -/

namespace Sys2Proof.Machine

/-! Router slots (R285 to R287). -/

def chunkOf (bytes len : Nat) : CxpChunk := CxpChunk.ofBytes (bytesLE bytes len)
def CxpChunk.count (c : CxpChunk) : Nat := c.cw.toNat % 2 ^ 41

/-- The elements of a chunk, decoded. -/
def CxpChunk.decoded (c : CxpChunk) : List M320 := (padTo 64 cxpPad c.elems).map fun e => cxpDecode e c.cw

/-- SLOT_FLUSH: slot k of a router, flushing, is sent on toward the home, past this router (R287); it waits while the home is in
hand-over. -/
def execSlotFlush (s : State) : Out :=
  let code := inp s 0
  let k := inp s 1
  .next (match find? k (s.router code).slots with
    | some sl =>
      let reg := regionOfName s sl.name
      match if sl.flushing then resolve s reg code sl.name else none with
      | none => s
      | some d =>
        let ch : CxpChunk := ⟨BitVec.ofNat 64 sl.count, sl.acc.map cxpEncode⟩
        let t : Token := { region := reg, loc := code, dest := some d, msg := .contrib sl.name sl.chunk ch.nat ch.size, src := code, gone := true }
        let s := s.onRouter code fun r => { r with slots := erase k r.slots }
        hopOn (s.send t) s.net.length t
    | none => s)

/-- CONTRIBUTION_TOKEN: token j at a router other than its home merges into a slot of its key, takes a free slot, or passes
on (R286). DESIGN CHOICE (log 82): its contributor's own router is one of these, before the token has left it. -/
def execContributionToken (s : State) : Out :=
  let j := inp s 0
  .next (match s.net[j]? with
    | some t =>
      match t.msg, t.dest with
      | .contrib n k bytes len, some d =>
        if t.here || behind s j t then s
        else if t.loc = d then hopOn s j t
        else
          let r := s.router t.loc
          let ch := chunkOf bytes len
          match r.slots.find? fun p => p.2.name == n && p.2.chunk == k && !p.2.flushing with
          | some (i, sl) =>
            if countOver sl.count ch.count then hopOn s j t
            else
              let sl := { sl with count := sl.count + ch.count, acc := (sl.acc.zip ch.decoded).map fun p => p.1.merge p.2 }
              (s.setRouter t.loc { r with slots := insert i sl r.slots }).dropTok j
          | none =>
            match (List.range 16).find? fun i => (find? i r.slots).isNone with
            | some i =>
              (s.setRouter t.loc { r with slots := insert i { chunk := k, count := ch.count, name := n, acc := ch.decoded } r.slots }).dropTok j
            | none => hopOn s j t
      | _, _ => s
    | none => s)

/-! The home (R288 to R291). -/

def RedEntry.chunks (e : RedEntry) : Nat := (e.nelem + 63) / 64

/-- Chunk j is complete or over (R290). -/
def RedEntry.chunkDone (e : RedEntry) (j : Nat) : Bool := e.ovr.contains j || decide (e.dcount ≤ e.counts.getD j 0)
def RedEntry.chunkOver (e : RedEntry) (j : Nat) : Bool := e.ovr.contains j || decide (e.dcount < e.counts.getD j 0)

def RedEntry.recount (e : RedEntry) : RedEntry :=
  { e with cdone := if e.opened then ((List.range e.chunks).filter e.chunkDone).length else 0 }

def RedEntry.completing (e : RedEntry) : Bool := e.opened && e.cdone == e.chunks

/-- Address of element k in the spill area (R289). -/
def spillAddr (s : State) (reg code : Nat) (e : RedEntry) (k : Nat) : Nat :=
  (s.region reg).spillva + (4 * homeIndex s reg code e.name + e.place) * 0x20000 + 64 * k

/-- The cell of element k, in the airing lines or in the spill area; what the home reads of a cell that its agent does not deliver is
free (log 69). -/
def redGet (s : State) (reg code : Nat) (e : RedEntry) (k : Nat) : M320 :=
  if e.spill then
    match agentRead s reg (spillAddr s reg code e k) 64 .read with
    | .ok x => cellOfLine x
    | .error _ => cellOfLine (Config.lostCell (spillAddr s reg code e k)).toNat
  else cellOfLine (rdN (s.router code).air (64 * (e.place + k)) 64)

/-- Element k is changed, in the spill area as MRED does: not where the agent does not perform it (08 R205, R218). -/
def redUpd (s : State) (reg code : Nat) (e : RedEntry) (k : Nat) (f : M320 → M320) : State :=
  if e.spill then
    let s := cacheLeaf s reg (spillAddr s reg code e k)
    match agentUpdate s reg (spillAddr s reg code e k) 64 fun x => .ok (lineOfCell (f (cellOfLine x))) with
    | .ok (s', _) => s'
    | .error _ => s
  else s.onRouter code fun r =>
    { r with air := wrN r.air (64 * (e.place + k)) (lineOfCell (f (cellOfLine (rdN r.air (64 * (e.place + k)) 64)))) 64 }

/-- The translations of a spilled entry's cells are cached as they are read (08 R203). -/
def redCache (s : State) (reg code : Nat) (e : RedEntry) : State :=
  if e.spill then (List.range e.nelem).foldl (fun s k => cacheLeaf s reg (spillAddr s reg code e k)) s else s

/-- Element k is emptied: a whole line is written. -/
def redClear (s : State) (reg code : Nat) (e : RedEntry) (k : Nat) : State :=
  if e.spill then
    let s := cacheLeaf s reg (spillAddr s reg code e k)
    match agentWrite s reg (spillAddr s reg code e k) 64 (2 ^ 64 - 1) emptyLine with | .ok s' => s' | .error _ => s
  else s.onRouter code fun r => { r with air := wrN r.air (64 * (e.place + k)) emptyLine 64 }

/-- A new entry with empty accumulators, in airing lines or in a spill frame; none where neither or no table place is free. Which free lines
and which free frame it takes is a DESIGN CHOICE (log 82): the lowest. -/
def redAlloc (s : State) (reg code : Nat) (n : Name) : Option (State × RedEntry) :=
  let r := s.router code
  match redShape (descAt s reg code n) with
  | none => none
  | some (ne, c) =>
    let mk (spill : Bool) (place : Nat) : RedEntry :=
      { name := n, spill := spill, nelem := ne, place := place, counts := List.replicate c 0 }
    let e : Option RedEntry :=
      if 1024 ≤ r.table.length + r.reds.length then none
      else
        match r.freeRun ne with
        | some l => some (mk false l)
        | none =>
          ((List.range 4).find? fun f => !r.reds.any fun x =>
            x.spill && x.place == f && homeIndex s reg code x.name == homeIndex s reg code n).map (mk true)
    e.map fun e =>
      let s := s.setRouter code { r with reds := r.reds ++ [e] }
      ((List.range ne).foldl (fun s k => redClear s reg code e k) s, e)

/-- The entry of a name that is not completing, by position. -/
def redIdx (r : Router) (n : Name) : Option Nat := r.reds.findIdx? fun e => e.name == n && !e.completing

def redSet (s : State) (code i : Nat) (e : RedEntry) : State := s.onRouter code fun r => { r with reds := setAt r.reds i e }

/-- Merges a chunk into entry i (R290); one that would pass 2^40 marks the chunk over. -/
def redMerge (s : State) (reg code i k : Nat) (ch : CxpChunk) : State :=
  match (s.router code).reds[i]? with
  | none => s
  | some e =>
    let els := (List.range (min 64 (e.nelem - 64 * k)))
    let n := e.counts.getD k 0
    if countOver n ch.count then
      let s := els.foldl (fun s x => redUpd s reg code e (64 * k + x) fun m => { m with ns := true }) s
      redSet s code i (RedEntry.recount { e with ovr := k :: e.ovr })
    else
      let ds := ch.decoded
      let s := els.foldl (fun s x => redUpd s reg code e (64 * k + x) fun m => m.merge (ds.getD x .empty)) s
      redSet s code i (RedEntry.recount { e with counts := setAt e.counts k (n + ch.count) })

/-- A contribution at its home: token j. -/
def contributeAtHome (s : State) (j : Nat) (t : Token) (n : Name) (k : Nat) (ch : CxpChunk) : State :=
  match redIdx (s.router t.loc) n with
  | some i => (redMerge s t.region t.loc i k ch).dropTok j
  | none =>
    match redAlloc s t.region t.loc n with
    | some (s, _) => (redMerge s t.region t.loc ((s.router t.loc).reds.length - 1) k ch).dropTok j
    | none => s.setTok j { t with held := true }

/-- An ROPEN at its home (R290, R292): an entry already declared stands. -/
def openAtHome (s : State) (j : Nat) (t : Token) (n res : Name) (count : W64) (fmt : Nat) : State :=
  let declare (e : RedEntry) : RedEntry :=
    RedEntry.recount { e with opened := true, dcount := count.toNat, rfmt := fmt, rname := nSpace n ++ res.extractLsb' 0 84 }
  let r := s.router t.loc
  match r.reds.findIdx? fun e => e.name == n && !e.opened with
  | some i => (redSet s t.loc i (declare (r.reds.getD i { name := n, nelem := 0, place := 0 }))).dropTok j
  | none =>
    if r.reds.any fun e => e.name == n then s.dropTok j
    else
      match redAlloc s t.region t.loc n with
      | some (s, e) => (redSet s t.loc ((s.router t.loc).reds.length - 1) (declare e)).dropTok j
      | none => s.setTok j { t with held := true }

/-- CONTRIBUTION_AT_HOME and ROPEN_AT_HOME: token j. -/
def execContributionAtHome (s : State) : Out :=
  let j := inp s 0
  .next (match s.net[j]? with
    | some t =>
      match t.msg with
      | .contrib n k bytes len => if homeTurn s t && !t.held then contributeAtHome s j t n k (chunkOf bytes len) else s
      | _ => s
    | none => s)

def execRopenAtHome (s : State) : Out :=
  let j := inp s 0
  .next (match s.net[j]? with
    | some t =>
      match t.msg with
      | .ropen n res count fmt => if homeTurn s t && !t.held then openAtHome s j t n res count fmt else s
      | _ => s
    | none => s)

/-- HELD_TOKEN_RETRY: token j, held at its home for lack of room, is tried again. -/
def execHeldTokenRetry (s : State) : Out :=
  let j := inp s 0
  .next (match s.net[j]? with
    | some t0 =>
      if !(t0.held && t0.atHome) then s
      else
        let t := { t0 with held := false }
        match t.msg with
        | .contrib n k bytes len => contributeAtHome s j t n k (chunkOf bytes len)
        | .ropen n res count fmt => openAtHome s j t n res count fmt
        | _ => serveAtHome s j t
    | none => s)

/-- The result tile of entry e (R291). -/
def redResult (s : State) (reg code : Nat) (e : RedEntry) : Parcel :=
  let acc := (List.range e.nelem).map (redGet s reg code e)
  if dFmt (descAt s reg code e.rname) = tagCxp then
    let bs := (List.range e.chunks).flatMap fun k =>
      (CxpChunk.mk (BitVec.ofNat 64 (e.counts.getD k 0)) (((acc.drop (64 * k)).take 64).map cxpEncode)).bytes
    ⟨e.rname, tagCxp, bs.length, natOfBytes bs⟩
  else
    let tag : BitVec 4 := BitVec.ofNat 4 (3 + e.rfmt)
    let f := fmtF tag
    let codes := (acc.zip (List.range e.nelem)).map fun p =>
      if e.chunkOver (p.2 / 64) then canonNan f else (p.1.round f).1
    ⟨e.rname, tag, e.nelem * f.w / 8, pack f.w codes⟩

/-- REDUCTION_PUBLISH: entry i of a router, completing, is published under its result name and freed (R290, R291). -/
def execReductionPublish (s : State) : Out :=
  let code := inp s 0
  let i := inp s 1
  .next (match (s.router code).reds[i]? with
    | some e =>
      if !e.completing then s
      else
        let reg := regionOfName s e.name
        match acceptPub (redCache s reg code e) reg code code (BitVec.allOnes 64) (redResult s reg code e) with
        | some s => s.onRouter code fun r => { r with reds := dropAt r.reds i }
        | none => s
    | none => s)

end Sys2Proof.Machine
end

