-- ==== Sys2Proof/Machine/Engines.lean ====
section
/-! DEFINITION. The asynchronous engines, PUBX among them (08_wafer_memory R221, R222, 09_memory_model R241, 10_name_tables
R277), and remote A-buffer accesses (07_core_memories R181 to R183). -/

namespace Sys2Proof.Machine

/-! Descriptors (08 R222). An engine's minor is 0 XCOPY, 1 XGATH, 2 XSCAT, 3 XFILL. -/

/-- The command reads its tile; the command has a tile. -/
def engReads (minor : Nat) (desc : W64) : Bool := minor == 2 || (minor == 0 && desc.getLsbD 31)
def engTiled (minor : Nat) (desc : W64) : Bool := !(minor == 3 && desc.getLsbD 31)
/-- The command writes global memory. -/
def engStores (minor : Nat) (desc : W64) : Bool := engReads minor desc || !engTiled minor desc

def engRows (minor : Nat) (desc : W64) : Nat :=
  match minor with
  | 0 => fld desc 17 10 + 1
  | 3 => 1
  | _ => fld desc 20 12 + 1

def engRowBytes (minor : Nat) (desc : W64) : Nat :=
  match minor with
  | 0 => fld desc 0 17
  | 3 => fld desc 0 31
  | _ => fld desc 32 17

/-- The alignment that a global address must have. -/
def engAlign (minor : Nat) : Nat := if minor = 3 then 8 else 4

/-- Limits and alignment of a descriptor (08 R222), in the order of R207: the address's alignment comes first. Of the descriptor's own limits
the sizes are judged before the alignments, where the rule gives no order (log 36). DESIGN CHOICE (log 79): an index list that runs beyond
the A-buffer's end raises LOCAL_BOUNDS. -/
def engChecks (minor : Nat) (desc ga : W64) (tsize off : Nat) : List Check :=
  let rb := engRowBytes minor desc
  let rows := engRows minor desc
  let size (bad : Bool) : Check := { bad := bad, cause := .localBounds }
  let align (bad : Bool) : Check := { bad := bad, cause := .misaligned }
  align ((minor != 3 || desc.getLsbD 31) && ga.toNat % engAlign minor != 0) ::
  match minor with
  | 0 =>
    [size (fld desc 27 4 != 0 || rb == 0 || decide (65536 < rb) || decide (tsize < off + rows * rb)),
     align (rb % 4 != 0 || fld desc 32 32 % 4 != 0)]
  | 3 =>
    [size (fld desc 32 32 != 0 || (!desc.getLsbD 31 && decide (tsize < off + rb))),
     align (rb % 8 != 0)]
  | _ =>
    let list := fld desc 0 20
    [size (fld desc 49 15 != 0 || rb == 0 || decide (65536 < rb) || decide (4096 < rows)
        || decide (tsize < off + rows * rb) || decide (bufSize 1#2 < list + 4 * rows)),
     align (rb % 4 != 0 || list % 4 != 0)]

/-- Engine commands of the core that are outstanding. -/
def Core.engines (c : Core) : Nat := (c.ops.filter fun o => o.kind.isEngine).length

/-- Issues an engine command. The tile operand's state is judged before the address and the descriptor, where no rule gives an order (log 36). -/
def issueEngine (minor : Nat) (d a b : Reg) (t : BitVec 4) (sp : BitVec 2) (s : State) : State :=
  let x := sreg s d
  let ga := sreg s a
  let desc := sreg s b
  let tiled := engTiled minor desc
  let i := slotOf x
  let off := if tiled then fld x 16 16 else 0
  let tl := s.core.tile i
  let bufs := if engReads minor desc then [1] else [0, 1]
  let globalSide := minor != 3 || !tiled
  let op : Op :=
    { kind := .engine minor i off ga desc x, cls := sp.toNat, tc := t, va := ga }
  guarded
    ((if tiled then [emptyCheck s i, { bad := !bufs.contains tl.buf.toNat, cause := .tileState }] else [])
      ++ (if globalSide then [addrCheck ga] else []) ++ engChecks minor desc ga tl.size off)
    (waitFor (tiled && interlock s i true) 1 (waitRoom (decide (32 ≤ s.core.engines)) fun s =>
      addOp op (if tiled then s.onCore fun c =>
          c.setTile i (if engReads minor desc then (c.tile i).toDraining (.cmd c.nextSer) else (c.tile i).toFilling (.cmd c.nextSer))
        else s))) s

def execXcopy (d a b : Reg) (t : BitVec 4) (sp : BitVec 2) (s : State) : Out := .next (issueEngine 0 d a b t sp s)
def execXgath (d a b : Reg) (t : BitVec 4) (sp : BitVec 2) (s : State) : Out := .next (issueEngine 1 d a b t sp s)
def execXscat (d a b : Reg) (t : BitVec 4) (sp : BitVec 2) (s : State) : Out := .next (issueEngine 2 d a b t sp s)
def execXfill (d a b : Reg) (t : BitVec 4) (sp : BitVec 2) (s : State) : Out := .next (issueEngine 3 d a b t sp s)

/-- PUBX (10 R277): row bytes [48:32], stride [31:16], rows − 1 [15:6]. -/
def execPubx (d : NReg) (a b : Reg) (t : BitVec 4) (sp : BitVec 2) (s : State) : Out :=
  let x := sreg s a
  let desc := sreg s b
  let i := slotOf x
  let off := fld x 16 16
  let rb := fld desc 32 17
  let stride := fld desc 16 16
  let rows := fld desc 6 10 + 1
  .next (guarded
    (spaceCheck s (nreg s d) :: tileChecks s i [1, 2] ++
      [{ bad := fld desc 49 15 != 0 || fld desc 0 6 != 0 || rb == 0 || decide (65536 < rb) || decide (65536 < rows * rb)
            || decide ((s.core.tile i).size < off + (rows - 1) * stride + rb), cause := .localBounds },
       { bad := rb % 4 != 0 || stride % 4 != 0, cause := .misaligned }])
    (waitFor (interlock s i true) 1 (waitRoom (decide (32 ≤ s.core.engines)) fun s =>
      drainFor i { kind := .pubx (nreg s d) i off desc, cls := sp.toNat, tc := t } s)) s)

/-! Running (08 R221, 09 R241). -/

/-- An engine command with its operands. -/
structure Engine where
  minor : Nat
  tile : Nat
  off : Nat
  ga : W64
  desc : W64
  fillv : W64
deriving DecidableEq, Repr

def Op.engine (o : Op) : Option Engine :=
  match o.kind with
  | .engine minor tile off ga desc fillv => some ⟨minor, tile, off, ga, desc, fillv⟩
  | _ => none

def Engine.rows (e : Engine) : Nat := engRows e.minor e.desc
def Engine.rb (e : Engine) : Nat := engRowBytes e.minor e.desc
/-- The command has a global side; it has a tile. -/
def Engine.glob (e : Engine) : Bool := e.minor != 3 || e.desc.getLsbD 31
def Engine.tiled (e : Engine) : Bool := engTiled e.minor e.desc
def Engine.stores (e : Engine) : Bool := engStores e.minor e.desc

/-- The lines of the A-buffer that hold the index list of XGATH and XSCAT. -/
def Engine.listLines (e : Engine) : List Nat :=
  if e.minor = 1 ∨ e.minor = 2 then linesOf (fld e.desc 0 20) (4 * e.rows) else []

/-- The index of a row, from the list's lines as they have been read; none where its line met a poisoned word. -/
def Engine.index (e : Engine) (got : Map (Option (BitVec 512))) (row : Nat) : Option Nat :=
  let a := fld e.desc 0 20 + 4 * row
  (findD (a / 64) none got).map fun l => slice l.toNat 32 (a % 64 / 4)

/-- The start of a row in global space, in 64-bit two's complement and not modulo 2^56 (08 R222). -/
def Engine.rowAddr (e : Engine) (got : Map (Option (BitVec 512))) (row : Nat) : Option Int :=
  match e.minor with
  | 0 => some (e.ga.toInt + (row : Int) * signedOf 32 (fld e.desc 32 32))
  | 3 => some e.ga.toInt
  | _ => (e.index got row).map fun i => e.ga.toInt + ((i * e.rb : Nat) : Int)

/-- The row's range lies in the address space; XFILL's lines are judged one by one. -/
def Engine.inSpace (e : Engine) (a : Int) : Bool := e.minor == 3 || (decide (0 ≤ a) && decide (a + e.rb ≤ (2 ^ 56 : Int)))

/-- The rows that take effect, with their addresses. -/
def Engine.goodRows (e : Engine) (got : Map (Option (BitVec 512))) : List (Nat × Nat) :=
  (List.range e.rows).filterMap fun row =>
    (e.rowAddr got row).bind fun a => if e.inSpace a then some (row, a.toNat) else none

/-- Distinct numbers. -/
def nubNat : List Nat → List Nat
  | [] => []
  | x :: t => if t.contains x then nubNat t else x :: nubNat t

/-- The global lines of a command. -/
def Engine.lines (e : Engine) (got : Map (Option (BitVec 512))) : List Nat :=
  if e.glob then nubNat ((e.goodRows got).flatMap fun p => linesOf p.2 e.rb) else []

/-- The lines of its tile that a command which writes the tile fills. -/
def Engine.tileLines (e : Engine) : List Nat :=
  if e.tiled && !engReads e.minor e.desc then linesOf e.off (e.rows * e.rb) else []

/-- A part of a row: start in global space, start in the tile, length. -/
structure Piece where
  va : Nat
  lo : Nat
  n : Nat
deriving DecidableEq, Repr

/-- The parts of the rows that lie in a global line, by ascending row. -/
def Engine.inLine (e : Engine) (got : Map (Option (BitVec 512))) (l : Nat) : List Piece :=
  (e.goodRows got).filterMap fun p =>
    let lo := max p.2 (64 * l)
    let hi := min (p.2 + e.rb) (64 * l + 64)
    if lo < hi then some ⟨lo, e.off + p.1 * e.rb + (lo - p.2), hi - lo⟩ else none

/-- The parts of the rows that lie in a line of the tile, cut where a global line ends. -/
def Engine.inTileLine (e : Engine) (got : Map (Option (BitVec 512))) (k : Nat) : List Piece :=
  ((e.goodRows got).filter fun p => decide (e.off + p.1 * e.rb < 64 * k + 64) && decide (64 * k < e.off + (p.1 + 1) * e.rb)).flatMap fun p =>
    let start := e.off + p.1 * e.rb
    let lo := max start (64 * k)
    let hi := min (start + e.rb) (64 * k + 64)
    let va := p.2 + (lo - start)
    let cut := min (hi - lo) (64 - va % 64)
    [⟨va, lo, cut⟩] ++ (if cut < hi - lo then [⟨va + cut, lo + cut, hi - lo - cut⟩] else [])

/-- Parts of a running command in its `done`: line x of the index list, of the global side, of the tile. -/
def partList (x : Nat) : Nat := 3 * x
def partGlob (x : Nat) : Nat := 3 * x + 1
def partTile (x : Nat) : Nat := 3 * x + 2

/-- The index list has been read. -/
def Engine.listed (e : Engine) (o : Op) : Bool := e.listLines.all fun l => o.done.contains (partList l)

/-- Every part is done. -/
def Engine.whole (e : Engine) (o : Op) : Bool :=
  e.listed o && ((e.lines o.snap).all fun l => o.done.contains (partGlob l)) && (e.tileLines.all fun l => o.done.contains (partTile l))

/-- Earlier accesses of the class and firing have been performed; no fence covers an engine command (08 R214, R221). -/
def engMayStart (c : Core) (j : Nat) (o : Op) : Bool :=
  (c.ops.take j).all fun e =>
    !(e.fid == o.fid && e.kind.isGlobal && !e.performed && e.cls == o.cls && (match e.kind with | .fence _ => false | _ => true))

/-- The rows are known: those outside the address space fail, and dirty bytes of the global range are written back (08 R221, R222). DESIGN
CHOICE (log 79): failing addresses are compared, and reported, as unsigned 64-bit values, so that a negative row is the highest. -/
def engBegin (j : Nat) (o : Op) (e : Engine) (s : State) : State :=
  let o := (List.range e.rows).foldl (fun (o : Op) row =>
    match e.rowAddr o.snap row with
    | none => o.fail e.ga.toNat .poison
    | some a => if e.inSpace a then o else o.fail (BitVec.ofInt 64 a).toNat .globalXlate) o
  let s := s.onCore fun c => c.setOp j o
  let ls := e.lines o.snap
  (s.core.dirtyLines.filter fun l => ls.contains l).foldl (fun s l => wbLine l s) s

/-- ENGINE_CMD_START: operation j starts; without an index list its rows are known at once. -/
def execEngineCmdStart (s : State) : Out :=
  let j := inp s 0
  .next (match s.core.ops[j]? with
    | some o =>
      if o.started || !engMayStart s.core j o then s
      else
        match o.engine with
        | some e =>
          if e.listLines.isEmpty then engBegin j { o with started := true } e s
          else s.onCore fun c => c.setOp j { o with started := true }
        | none =>
          match o.kind with
          | .pubx .. => s.onCore fun c => c.setOp j { o with started := true }
          | _ => s
    | none => s)

/-- A line of the index list is read, old or new against stores since issue (08 R222); the last one makes the rows known. -/
def engReadList (j : Nat) (o : Op) (e : Engine) (l : Nat) (s : State) : State :=
  let bad := s.core.bad 1#2 (64 * l) 64
  let o := { o with snap := insert l (if bad then none else some (BitVec.ofNat 512 (s.core.load 1#2 (64 * l) 64))) o.snap
                    done := partList l :: o.done }
  if e.listed o then engBegin j o e s else s.onCore fun c => c.setOp j o

/-- Key of a global line among those read. -/
def globKey (l : Nat) : Nat := 2 ^ 16 + l

/-- The lowest address of the parts. -/
def lowVa (l : Nat) (ps : List Piece) : Nat := ps.foldl (fun m p => min m p.va) (64 * l + 64)

/-- A source line is read whole at its agent (08 R221). -/
def engReadLine (o : Op) (e : Engine) (l : Nat) (s : State) : Op × State :=
  match agentRead s (regionOf s) (64 * l) 64 .read with
  | .ok x => ({ o with snap := insert (globKey l) (some (BitVec.ofNat 512 x)) o.snap }, cacheLeaf s (regionOf s) (64 * l))
  | .error c => (o.fail (lowVa l (e.inLine o.snap l)) c, cacheLeaf s (regionOf s) (64 * l))

/-- The bytes of parts laid over a line of 64, later ones over earlier ones, and the mask of bytes laid: `src` gives a part's bytes. -/
def overlay (base : Piece → Nat) (src : Piece → Nat) (ps : List Piece) : Nat × Nat :=
  ps.foldl (fun a p =>
    let m := (2 ^ p.n - 1) <<< base p
    (a.1 ||| m, mixBytes 64 m a.2 (src p <<< (8 * base p)))) (0, 0)

/-- The pattern of XFILL over a part. -/
def Engine.pattern (e : Engine) (first : Nat) (n : Nat) : Nat :=
  let v := if e.desc.getLsbD 31 then e.fillv else e.ga
  pack 8 ((List.range n).map fun k => slice v.toNat 8 ((first + k) % 8))

/-- A global line is written as one (08 R221): the parts whose source is sound, the higher row remaining where two meet (R222). -/
def engWriteLine (o : Op) (e : Engine) (l : Nat) (s : State) : Op × State :=
  let t := s.core.tile e.tile
  let ps := e.inLine o.snap l
  let sour (p : Piece) : Bool := e.minor != 3 && s.core.bad t.buf (t.base + p.lo) p.n
  let o := (ps.filter sour).foldl (fun (o : Op) p => o.fail p.va .poison) o
  let good := ps.filter fun p => !sour p
  let src (p : Piece) : Nat := if e.minor = 3 then e.pattern (p.va - e.ga.toNat) p.n else s.core.load t.buf (t.base + p.lo) p.n
  let (m, x) := overlay (fun p => p.va % 64) src good
  if good.isEmpty then (o, s)
  else if 2 ^ 50 ≤ l then (o.fail (lowVa l good) .globalXlate, s)
  else
    let s := cacheLeaf s (regionOf s) (64 * l)
    match agentWrite s (regionOf s) (64 * l) 64 m x with
    | .ok s' => (o, s')
    | .error c => (o.fail (lowVa l good) c, s)

/-- A line of the tile is written as one (07 R174): the parts whose source has been read; its fill bit is set (R173). -/
def engWriteTile (o : Op) (e : Engine) (k : Nat) (s : State) : State :=
  s.onCore fun c =>
    let t := c.tile e.tile
    let ps := if e.minor = 3 then
        let lo := max e.off (64 * k)
        [⟨lo - e.off, lo, min (e.off + e.rb) (64 * k + 64) - lo⟩]
      else (e.inTileLine o.snap k).filter fun p => (findD (globKey (p.va / 64)) none o.snap).isSome
    let src (p : Piece) : Nat :=
      if e.minor = 3 then e.pattern p.va p.n
      else ((findD (globKey (p.va / 64)) none o.snap).getD 0#512).toNat >>> (8 * (p.va % 64))
    let c := ps.foldl (fun (c : Core) p => c.store t.buf (t.base + p.lo) (src p) p.n) c
    let c := c.clearBad t.buf (ps.map fun p => (t.base + p.lo, p.n))
    c.setTile e.tile { t with fill := t.fill ||| (1#1024 <<< k) }

/-- Part i of engine operation j of the core in focus is carried out (the model's own turn, log 1): a line of the index list, then,
the rows known, a global line, and a line of the tile once the lines it takes have been read. -/
def enginePart (j i : Nat) (s : State) : State :=
  match s.core.ops[j]? with
  | some o =>
    match o.engine with
    | some e =>
      let x := i / 3
      if !o.started || o.done.contains i then s
      else if i % 3 = 0 then (if e.listLines.contains x then engReadList j o e x s else s)
      else if !e.listed o then s
      else if i % 3 = 1 then
        if !(e.lines o.snap).contains x then s
        else
          let r := if e.stores then engWriteLine o e x s else engReadLine o e x s
          r.2.onCore fun c => c.setOp j { r.1 with done := i :: r.1.done }
      else if !e.tileLines.contains x || (e.glob && (e.inTileLine o.snap x).any fun p => !o.done.contains (partGlob (p.va / 64))) then s
      else (engWriteTile o e x s).onCore fun c => c.setOp j { o with done := i :: o.done }
    | none => s
  | none => s

/-- The packed rows of a PUBX. -/
def pubxParcel (c : Core) (n : Name) (t : Tile) (off : Nat) (desc : W64) : Parcel :=
  let rb := fld desc 32 17
  let rows := fld desc 6 10 + 1
  ⟨n, t.tag, rows * rb, pack (8 * rb) ((List.range rows).map fun i => c.load t.buf (t.base + off + i * fld desc 16 16) rb)⟩

/-- ENGINE_CMD_COMPLETE: operation j completes; its tile is READY again and its token counted. Of the lines in a global destination the clean
bytes are invalidated, the command's own dirty ones having been written back at its start; bytes stored there since, which are dirty
again, stay (DESIGN CHOICE, log 80). -/
def execEngineCmdComplete (s : State) : Out :=
  let j := inp s 0
  .next (match s.core.ops[j]? with
    | some o =>
      let finish (i : Option Nat) (s : State) : State :=
        s.onCore fun c =>
          let c := match i with | some i => c.setTile i (c.tile i).toReady | none => c
          let c := (c.dropOp j).landVar o.fid o.fw .none 0#5 o.tc
          match o.bad with
          | some (va, cause) => c.defer o.fid { cause := cause, val := BitVec.ofNat 64 va }
          | none => c
      if !o.started || (o.bad.isSome && !s.core.faultRoom o.fid) then s
      else
        match o.engine with
        | some e =>
          if !e.whole o then s
          else
            let s := if e.stores then
                s.onCore fun c => ((e.lines o.snap).filter fun l => (c.gline l).isSome).foldl Core.invClean c
              else s
            finish (if e.tiled then some e.tile else none) s
        | none =>
          match o.kind with
          | .pubx n ti off desc =>
            match acceptPub s (regionOf s) s.cur s.cur o.fid (pubxParcel s.core n (s.core.tile ti) off desc) with
            | some s => finish (some ti) s
            | none => s
          | _ => s
    | none => s)

/-! Remote promotion (09 R235 to R240). -/

/-- Writes back the logged lines of the core in focus with SEQ up to v, oldest first. -/
def promote (v : W64) (s : State) : State :=
  ((darnSort s.core.darn).filter fun d => d.seq.ule v).foldl (fun s d =>
    (wbLine d.line s).onCore fun c => { c with darn := c.darn.filter fun e => e.line != d.line }) s

/-- Operation j of the core in focus, a PROMACQ, is served: the target's log is promoted, the flag is read as `readFlag` says, the
answer leaves. A saved target promotes nothing, a lost one answers TASK_LOST, one in hand-over or halted and not yet saved waits
(R239); a directory entry that names a core outside the region drops the request at the border (01 R19). The stall of the target's port,
within R237's bound, is shown to the capture units. -/
def servePromotion (j : Nat) (o : Op) (task stall : Nat) (readFlag : State → State) (s : State) : State :=
  let r := regionOf s
  match find? task (s.region r).dir with
  | none => s
  | some e =>
    match e.state with
    | .rebinding => s
    | .lost => s.onCore fun c => c.setOp j ((o.fail o.va.toNat .taskLost).finish 0)
    | .saved => readFlag s
    | .resident =>
      if !s.within r e.core then (refuseAtBorder s r s.cur e.core 0#96 0).onCore fun c => c.setOp j { o with started := true }
      else
        match (s.coreAt e.core).halt with
        | .region false => s
        | .failed => s
        | _ =>
          let me := s.cur
          let t := s.focus e.core
          let n := (t.core.darn.filter fun d => d.seq.ule t.core.rseq).length
          readFlag (offer ((promote t.core.rseq t).focus me) (reticleOf e.core) r 3 0 (Nat.min stall (Nat.min 640 (128 + 2 * n))))

/-- PROMOTION_REQUEST: operation j of the core in focus, a PROMACQ, is served and its flag read at the agent; a second input is the stall. -/
def execPromotionRequest (s : State) : Out :=
  let j := inp s 0
  .next (match s.core.ops[j]? with
    | some o =>
      match o.kind with
      | .promacq z task =>
        if o.resp || o.started || !mayPerform s.core j o then s
        else
          servePromotion j o task (inp s 1) (fun s =>
            let r := if isHost o.va.toNat then performHostLoad o 0 (sizeBytes z) s else performLoad o 0 (sizeBytes z) s
            r.2.onCore fun c => c.setOp j (r.1.finish 0)) s
      | _ => s
    | none => s)

/-! QLD and QST (07 R181 to R183). -/

def Core.qCount (c : Core) : Nat :=
  (c.ops.filter fun o => match o.kind with | .qld .. | .qst .. => true | _ => false).length

def qChecks (s : State) (x : W64) (n : Nat) : List Check :=
  let adr := fld x 0 20
  [{ bad := fld x 20 28 != 0 || decide (bufSize 1#2 < adr + n), cause := .localBounds },
   { bad := adr % (if n = 8 then 8 else 64) != 0, cause := .misaligned },
   { bad := fld x 48 16 == 0xFFFF || decide (taskCount s ≤ fld x 48 16), cause := .localBounds }]

/-- Issues a remote access. -/
def issueQ (st : Bool) (d a : Reg) (t : BitVec 4) (f : BitVec 6) (s : State) : State :=
  let x := sreg s a
  let vec := f.getLsbD 0
  let ra := f.getLsbD 2
  let n := if vec then 256 else 8
  guarded (qChecks s x n)
    (waitRoom (decide (16 ≤ s.core.qCount)) (waitFor (st && ra && putOff s) 4 fun s =>
      let o : Op :=
        { kind := if st then .qst vec ra (fld x 48 16) (fld x 0 20) else .qld vec ra (fld x 48 16) (fld x 0 20)
          tc := t, dest := if st then .none else if vec then .v d else .s d, va := x, parts := if vec then 4 else 1
          data := if st then (if vec then (vreg s d).data.toNat else (sreg s d).toNat) else 0 }
      -- a quad release is a core release of what came before it (09 R229)
      if st && ra then issueAccess o s else addOp o s)) s

def execQld (d a : Reg) (t : BitVec 4) (f : BitVec 6) (s : State) : Out := .next (issueQ false d a t f s)
def execQst (d a : Reg) (t : BitVec 4) (f : BitVec 6) (s : State) : Out := .next (issueQ true d a t f s)

/-- Target task, and whether the access acquires or releases. -/
def Op.qTarget (o : Op) : Option (Nat × Bool × Bool) :=
  match o.kind with
  | .qld _ ra task _ => some (task, ra, false)
  | .qst _ ra task _ => some (task, false, ra)
  | _ => none

/-- Earlier accesses of the firing that a remote access must follow (07 R183, 09 R229, R245): those to its target, those an acquire
holds back, an acquiring barrier at quad scope or above, and all of them before a release. -/
def qMayPerform (c : Core) (j : Nat) (o : Op) : Bool :=
  !o.wait && !c.barBefore 2 o &&
    (c.ops.take j).all fun e =>
      match e.qTarget, o.qTarget with
      | some (te, acq, _), some (dst, _, rel) => !(e.fid == o.fid && !e.resp && (te == dst || acq || rel))
      | _, _ => true

/-- Part i of a remote access at the target's A-buffer: 8 bytes, or one 64-byte line (07 R183). A poisoned word faults the load
(R170; log 67). -/
def qPart (o : Op) (i : Nat) (c : Core) : Op × Core :=
  let n := if o.parts = 4 then 64 else 8
  match o.kind with
  | .qld _ _ _ adr =>
    if c.bad 1#2 (adr + n * i) n then ({ o with bad := some (o.va.toNat, .poison) }, c)
    else ({ o with got := o.got ||| (c.load 1#2 (adr + n * i) n <<< (8 * n * i)) }, c)
  | .qst _ _ _ adr => (o, c.store 1#2 (adr + n * i) (slice o.data (8 * n) i) n)
  | _ => (o, c)

/-- REMOTE_QACCESS: part i of operation j is performed at the core that holds its task, or the access completes as lost. A directory
entry that names a core outside the region drops the request at the border (01 R19); one for a core that a core save has halted waits (21
R469). -/
def execRemoteQaccess (s : State) : Out :=
  let j := inp s 0
  let i := inp s 1
  .next (match s.core.ops[j]? with
    | some o =>
      match o.qTarget with
      | some (task, _, _) =>
        if o.resp || o.started || decide (o.parts ≤ i) || o.done.contains i || !qMayPerform s.core j o then s
        else
          match find? task (s.region (regionOf s)).dir with
          | none => s
          | some e =>
            match e.state with
            | .lost => s.onCore fun c => c.setOp j { o with bad := some (o.va.toNat, .taskLost), resp := true }
            | .resident =>
              if (s.coreAt e.core).moving && (s.coreAt e.core).halt != .no then s
              else if !s.within (regionOf s) e.core then
                (refuseAtBorder s (regionOf s) s.cur e.core 0#96 0).onCore fun c => c.setOp j { o with started := true }
              else
                let r := qPart o i (s.coreAt e.core)
                (s.setCoreAt e.core r.2).onCore fun c => c.setOp j (r.1.finish i)
            | _ => s
      | none => s
    | none => s)

end Sys2Proof.Machine
end

