-- ==== Sys2Proof/Machine/Firing.lean ====
section
/-! DEFINITION. Firings: selection, retirement, yielding, creation (12_firing_queues R304 to R315, R323; 01_machine R24 to
R32), and the token-counter instructions (13_counters R326 to R328). -/

namespace Sys2Proof.Machine

/-- Instructions that firmware may not issue (14 R357). -/
def notFirmware (s : State) : Check := { bad := s.core.fwm, cause := .illegalOp }

/-! The ready queue (12 R304 to R307). -/

/-- Effective priority. -/
def Ready.eff (e : Ready) : Nat := min 7 (e.prio.toNat + e.wait / 4096)

/-- The order of R32: effective priority, then the identifier, or the order of readiness where DETMODE is 0. -/
def before (det : Bool) (ea : Nat) (fa : W64) (ra : BitVec 32) (eb : Nat) (fb : W64) (rb : BitVec 32) : Bool :=
  if ea ≠ eb then decide (eb < ea) else if det then fa.ult fb else (ra - rb).slt 0#32

def Ready.before (det : Bool) (a b : Ready) : Bool := Sys2Proof.Machine.before det a.eff a.fid a.rdyseq b.eff b.fid b.rdyseq

/-- The first entry in the order. -/
def bestReady (det : Bool) : List Ready → Option Ready
  | [] => none
  | e :: t => match bestReady det t with
    | none => some e
    | some b => if b.before det e then some b else some e

/-- Entries of the created pool, reserved ones included. -/
def Core.poolUsed (c : Core) : Nat :=
  (c.ready.filter fun e => match e.kind with
    | .spawn | .record => true
    | .yielded => fidOrd e.fid != 0#24
    | .subscription => false).length + c.resv.length

/-- A firing with this identifier is queued, yielded, running or reserved on the core. -/
def Core.holdsFid (c : Core) (f : W64) : Bool :=
  c.runs f || (c.resv.any fun r => r.entry.fid == f) || c.ready.any fun e =>
    if e.kind == .spawn then
      fidTask e.fid == fidTask f && fidGen e.fid == fidGen f && (fidOrd e.fid).ule (fidOrd f)
        && decide ((fidOrd f).toNat < (fidOrd e.fid).toNat + e.nleft.toNat)
    else e.fid == f

/-- A free name frame; a free yield frame. -/
def Core.freeNameFrame (c : Core) : Option Nat := (List.range 64).find? fun i => (find? i c.nframes).isNone
def Core.freeYieldFrame (c : Core) : Option Nat := (List.range 4).find? fun i => (find? i c.yframes).isNone

/-- A new entry takes the core's readiness number. -/
def Core.addReady (c : Core) (e : Ready) : Core :=
  { c with ready := c.ready ++ [{ e with rdyseq := c.rdyseq }], rdyseq := c.rdyseq + 1#32 }

/-! Starting a firing (01 R27, 12 R307). -/

/-- Registers of a firing at its start. -/
def startRegs (fid : W64) (s4 s5 k1 : W64) (names : List Name) (prio mode : BitVec 3) (pc : Addr) : Regs :=
  let s := ((((Vector.replicate 32 0#64).set 1 fid).set 2 ((fidTask fid).zeroExtend 64)).set 3 ((fidGen fid).zeroExtend 64))
  { s := (s.set 4 s4).set 5 s5
    k := (Vector.replicate 8 0#64).set 1 k1
    n := Vector.ofFn fun i => if i.val = 0 ∨ 8 < i.val then 0#96 else names.getD (i.val - 1) 0#96
    fireid := fid, prio := prio, fpmode := mode, pc := pc }

/-- The core begins to run a firing. -/
def Core.begin (c : Core) (slot : BitVec 4) (r : Regs) (ws : List Watch) (fs : List Deferred) (fetchb : Bool) (warm : Nat) : Core :=
  { c with running := true, slot := slot, regs := r, watches := ws, faults := fs
           branch := none, stallrem := 0, divrem := 0, frozen := 0, pend := [], tcd := [], ending := .none, fbuf := []
           fetchb := fetchb, savedBranch := none, savedFetchb := false, wdFrozen := 0, wdHeld := 0, waited := 0, warm := warm }

/-- A new firing of a task takes the faults that wait for it (10 R271), its own first; those beyond 16 wait at the core's router (14
R352). -/
def Core.takeDue (c : Core) (fs : List Deferred) : Core :=
  let ts := c.slots[c.slot.toNat]'c.slot.isLt
  { c with faults := fs ++ ts.due, slots := c.slots.set c.slot.toNat { ts with due := [] } c.slot.isLt }

/-- Starts the selected entry. -/
def Core.startEntry (c : Core) (e : Ready) : Core :=
  let ts := c.slots[e.slot.toNat]'e.slot.isLt
  let rest := c.ready.filter fun x => x != e
  match e.kind with
  | .yielded =>
    let fr := findD e.yfr.toNat {} c.yframes
    { c with ready := rest, yframes := erase e.yfr.toNat c.yframes }.begin e.slot fr.regs fr.watches fr.faults fr.fetchb 16
  | .spawn =>
    let names := findD e.nfr.toNat [] c.nframes
    let c' :=
      if e.nleft = 1#24 then { c with ready := rest, nframes := erase e.nfr.toNat c.nframes }
      else { c with ready := c.ready.map fun x => if x == e then { x with fid := x.fid + 1#64, nleft := x.nleft - 1#24 } else x }
    (c'.begin e.slot (startRegs e.fid ((fidOrd e.fid).zeroExtend 64 - 1#64) 0#64 0#64 names e.prio ts.fpmode ts.kernel) [] [] false 8).takeDue []
  | .record =>
    ({ c with ready := rest }.begin e.slot
      (startRegs e.fid e.param (e.rows.zeroExtend 64) ((1#64 <<< e.rows.toNat) - 1#64) [] e.prio ts.fpmode ts.kernel) [] [] false 8).takeDue []
  | .subscription =>
    ({ c with ready := rest }.begin e.slot
      (startRegs e.fid 0#64 0#64 0#64 e.names e.prio ts.fpmode ts.kernel) [] [] false 8).takeDue e.faults

/-- The core may select: it is free, released and not halted, and its region runs. -/
def Core.mayRun (c : Core) : Bool := c.halt == .no && !c.hreq

/-- The core's region has begun to run (R300, step 7). -/
def begun (s : State) : Bool :=
  match (s.region (regionOf s)).phase with
  | .running | .halting => true
  | _ => false

/-- SCHEDULER_SELECT: the best ready entry starts (R307). -/
def execSchedulerSelect (s : State) : Out :=
  let c := s.core
  .next (
    if c.running || !c.mayRun || c.fwm || !begun s then s
    else
      match bestReady c.detmode c.ready with
      | some e => s.onCore fun c => c.startEntry e
      | none => s)

/-! FEND and retirement (R310). -/

/-- FEND: the bundle issues and the firing waits at it; a fault met meanwhile has this bundle as TRAPPC (08 R209). -/
def execFend (s : State) : Out :=
  .next (guarded [notFirmware s] (fun s =>
    if s.issue.commit then
      let pc := s.core.regs.pc
      (closeStraight { s with issue := { s.issue with stall := 0#4 } }).onCore fun c =>
        { c with ending := .fend, stallrem := 0, regs := { c.regs with pc := pc } }
    else s) s)

/-- An outstanding operation keeps its firing from retiring (R310): not ICINV, nor MONCFG. -/
def Op.holdsFend (o : Op) : Bool :=
  match o.kind with
  | .icinv _ | .moncfg .. => false
  | _ => true

/-- Everything R310 waits for. -/
def mayRetire (s : State) : Bool :=
  let c := s.core
  let f := c.regs.fireid
  c.pend.isEmpty && (c.ops.all fun o => o.fid != f || !o.holdsFend) && (c.matq.all fun e => e.fid != f)
    && (s.net.all fun t => !(t.fid == f && t.src == s.cur && t.msg.homeward && t.msg.cls == 0 && !t.gone))
    && (s.blocks.all fun b => b.2.owner != some (regionOf s) || b.2.queue.all fun q => !(q.fid == f && q.tc != 0#4))

/-- What a retirement does to the tiles (07 R173, 10 R266). One that a queued matrix command of another firing holds stays
READY until it is released (06 R151). -/
def Core.freeTiles (c : Core) : Core :=
  let own (t : Tile) : Bool := t.fsc && t.owner == c.slot
  let tiles := c.tiles.map fun p =>
    if own p.2 && p.2.state == .ready && p.2.holds == 0#5 then (p.1, ({} : Tile))
    else if own p.2 && p.2.state != .empty then (p.1, { p.2 with dying := true })
    else p
  let c := { c with tiles := tiles.filter fun p => p.2 != {} }
  if fidOrd c.regs.fireid != 0#24 then c
  else
    let ts := c.slots[c.slot.toNat]'c.slot.isLt
    (ts.subs.filter fun p => p.gen.isNone).foldl (fun c p =>
      let i := p.tile + (fidGen c.regs.fireid).toNat % p.depth
      c.setTile i (if (c.tile i).holds = 0#5 then { (c.tile i).toFilling (.delivery none) with nb := true } else { c.tile i with rearm := true })) c

/-- The firing retires; the core is free. -/
def Core.retire (c : Core) : Core :=
  let c := c.freeTiles
  { c with running := false, regs := {}, watches := [], faults := [], ending := .none, branch := none, stallrem := 0
           divrem := 0, frozen := 0, fbuf := [], fetchb := false, fwm := false, lq := [], heldVar := []
           savedStall := 0, savedDiv := 0, savedBranch := none, savedFetchb := false, warm := 0 }.satisfyAll

/-- The running firing has issued FEND, or tret.end ends it, and may retire: R310 is met and, at FEND, no deferred fault waits. -/
def mayEnd (s : State) : Bool :=
  match s.core.ending with
  | .fend => mayRetire s && s.core.faults.isEmpty && !s.core.fwm
  | .trapEnd => mayRetire s
  | _ => false

/-- FIRING_RETIRE: the firing retires, on a core that its region's halt has stopped too (01 R31). -/
def execFiringRetire (s : State) : Out :=
  .next (if (s.core.halt == .no || s.core.halt == .region false) && mayEnd s then s.onCore Core.retire else s)

/-! YIELD (R311). -/

/-- Some ready entry precedes the yielder, and a frame is free. -/
def yieldSwitches (c : Core) : Bool :=
  c.freeYieldFrame.isSome &&
    c.ready.any fun e => before c.detmode e.eff e.fid e.rdyseq c.regs.prio.toNat c.regs.fireid c.rdyseq

def execYield (s : State) : Out :=
  .next (guarded [notFirmware s] (fun s =>
    if s.issue.commit then
      let sw := yieldSwitches s.core
      -- no loop step follows a bundle that switches (03 R76): the firing goes on in sequence
      if sw then (closeStraight s).onCore fun c => { c with ending := .yield, stallrem := 0 } else closeStepped s
    else s) s)

/-- The yielder's state goes to a frame and its entry to the queue, once its fixed-latency results are written. -/
def Core.saveYield (c : Core) : Core :=
  match c.freeYieldFrame with
  | none => { c with ending := .none }
  | some i =>
    let c := c.applyTc
    let fr : Frame := { regs := c.regs, watches := c.watches, faults := c.faults, fetchb := c.fetchb }
    let c := { c with yframes := insert i fr c.yframes, running := false, regs := {}, watches := [], faults := []
                      ending := .none, branch := none, fbuf := [], fetchb := false, frozen := 0, divrem := 0 }
    c.addReady { kind := .yielded, slot := c.slot, prio := fr.regs.prio, rdyseq := 0#32, yfr := BitVec.ofNat 2 i, fid := fr.regs.fireid }

/-! Creation (R312 to R315). -/

/-- Only a firing with ORD 0 that has created none may create (01 R26). -/
def createChecks (c : Core) : List Check :=
  [{ bad := fidOrd c.regs.fireid != 0#24, cause := .launchRecord }, { bad := c.regs.created, cause := .launchRecord }]

/-- A child's identifier, or any of a range's, is on the core already. -/
def Core.childClash (c : Core) (n : Nat) : Bool :=
  let f := c.regs.fireid
  let hit (g : W64) (len : Nat) : Bool :=
    fidTask g == fidTask f && fidGen g == fidGen f && decide (1 ≤ (fidOrd g).toNat + len - 1) && decide ((fidOrd g).toNat ≤ n)
  decide (1 ≤ n) && c.ready.any fun e => if e.kind == .spawn then hit e.fid e.nleft.toNat else (fidOrd e.fid != 0#24 && hit e.fid 1)

def execSpawn (a : Reg) (s : State) : Out :=
  let n := (sreg s a).toNat
  let c := s.core
  .next (guarded (notFirmware s :: createChecks c ++
      [{ bad := decide (0xFFFFFF < n), cause := .launchRecord }, { bad := c.childClash n, cause := .launchRecord },
       { bad := decide (1 ≤ n) && (decide (192 ≤ c.poolUsed) || c.freeNameFrame.isNone), cause := .launchRecord }])
    (fun s => s.onCore fun c =>
      let c := { c with regs := { c.regs with created := true } }
      if n = 0 then c
      else
        let i := c.freeNameFrame.getD 0
        let c := { c with nframes := insert i (c.regs.n.toList.extract 1 9) c.nframes }
        c.addReady { kind := .spawn, slot := c.slot, prio := c.regs.prio, rdyseq := 0#32, nleft := BitVec.ofNat 24 n
                     nfr := BitVec.ofNat 6 i, fid := mkFid (fidTask c.regs.fireid) (fidGen c.regs.fireid) 1#24 }) s)

def execLaunchr (a b : Reg) (m : BitVec 4) (s : State) : Out :=
  let ra := sreg s a
  let nr := sreg s b
  .next (guarded (notFirmware s :: createChecks s.core ++
      [{ bad := ra.toNat % 32 != 0, cause := .misaligned },
       { bad := nr = 0#64 || decide (bufSize 1#2 < ra.toNat + 32 * nr.toNat), cause := .localBounds }])
    (fun s => addOp { kind := .launchr ra nr, tc := m, data := s.core.regs.prio.toNat }
      (s.onCore fun c => { c with regs := { c.regs with created := true } })) s)

/-- A firing record (R313): parameter, rows, task, and whether its reserved bits are zero. -/
structure Record where
  param : W64
  rows : Nat
  task : Nat
  clean : Bool
deriving DecidableEq, Repr

def recordOf (x : BitVec 256) : Record :=
  { param := x.extractLsb' 64 64, rows := (x.extractLsb' 16 8).toNat, task := (x.extractLsb' 0 16).toNat
    clean := x.extractLsb' 128 128 == 0#128 && x.extractLsb' 24 40 == 0#40 }

/-- A LAUNCHR reads line l of its records, if it has not yet (R314). DESIGN CHOICE (log 83): a poisoned word's bytes are read as they
stand. -/
def readLaunchLine (c : Core) (l : Nat) (o : Op) : Op :=
  if (find? l o.snap).isSome then o else { o with snap := insert l (some (BitVec.ofNat 512 (c.load 1#2 (64 * l) 64))) o.snap }

/-- The record at an address, of the line as it was read. -/
def readRecord (o : Op) (a : Nat) : Record :=
  recordOf ((((find? (a / 64) o.snap).getD none).getD 0#512).extractLsb' (8 * (a % 64)) 256)

/-- The first failure of phase 1: record and cause. -/
def Op.failAt (o : Op) (i : Nat) (c : Cause) : Op := { o with bad := some (o.bad.getD (i, c)) }

/-- Every reservation of a LAUNCHR is cancelled, wherever it is held. -/
def cancelResv (core ser : Nat) (s : State) : State :=
  let drop (c : Core) : Core := { c with resv := c.resv.filter fun r => !(r.core == core && r.ser == ser) }
  { s with core := drop s.core, parked := s.parked.map fun (p : Nat × Core) => (p.1, drop p.2) }

/-- Phase 1 begins again. -/
def Op.restarted (o : Op) : Op := { o with next := 0, snap := [], bad := none, got := 0, started := false }

/-- Phase 1 of a LAUNCHR, operation j of the core in focus, goes through its next record (R314). A request to a core outside the region is
dropped at the border (01 R19): the command waits for ever. -/
def reserve (j : Nat) (o : Op) (ra : Nat) (s : State) : State :=
  let i := o.next
  let o := readLaunchLine s.core ((ra + 32 * i) / 64) o
  let r := readRecord o (ra + 32 * i)
  let go (o : Op) (s : State) : State := s.onCore fun c => c.setOp j { o with next := i + 1 }
  let wait (s : State) : State := (cancelResv s.cur o.ser s).onCore fun c => c.setOp j o.restarted
  if !r.clean || decide (32 < r.rows) || r.task == 0xFFFF || decide (taskCount s ≤ r.task) then go (o.failAt i .launchRecord) s
  else if r.rows = 0 then go { o with got := o.got + 1 } s
  else
    match find? r.task (s.region (regionOf s)).dir with
    | none => go (o.failAt i .launchRecord) s
    | some e =>
      let c := s.coreAt e.core
      match e.state with
      | .lost => go (o.failAt i .taskLost) s
      | .resident =>
        if !s.within (regionOf s) e.core then
          (refuseAtBorder s (regionOf s) s.cur e.core 0#96 0).onCore fun c => c.setOp j { o with started := true }
        else if c.hreq || c.halt != .no then wait s
        else
          let fid := mkFid (BitVec.ofNat 16 r.task) (fidGen o.fid) (BitVec.ofNat 24 (i + 1))
          if c.holdsFid fid || decide (192 ≤ c.poolUsed) then go (o.failAt i .launchRecord) s
          else
            let q : Ready :=
              { kind := .record, slot := e.slot, prio := BitVec.ofNat 3 o.data, rdyseq := 0#32, rows := BitVec.ofNat 6 r.rows, param := r.param
                fid := fid }
            (s.setCoreAt e.core { c with resv := c.resv ++ [⟨s.cur, o.ser, q⟩] }).onCore fun k => k.setOp j { o with next := i + 1 }
      | _ => wait s

/-- A core's reservations of a LAUNCHR become ready entries, in record order. -/
def Core.commitResv (core ser : Nat) (c : Core) : Core :=
  let mine (r : Resv) : Bool := r.core == core && r.ser == ser
  (c.resv.filter mine).foldl (fun c r => c.addReady r.entry) { c with resv := c.resv.filter fun r => !mine r }

def commitResv (core ser : Nat) (s : State) : State :=
  { s with core := s.core.commitResv core ser, parked := s.parked.map fun (p : Nat × Core) => (p.1, p.2.commitResv core ser) }

/-- Phase 2: the reservations are committed, or cancelled with the fault of the lowest failing record; the command is done (R314). -/
def finishLaunchr (j : Nat) (o : Op) (ra : W64) (s : State) : State :=
  let finish (s : State) : State := s.onCore fun c => (c.dropOp j).landVar o.fid o.fw .none 0#5 o.tc
  match o.bad with
  | none =>
    finish ((commitResv s.cur o.ser s).onCore fun c => { c with lrskip := BitVec.ofNat 32 (min (c.lrskip.toNat + o.got) 0xFFFFFFFF) })
  | some (i, cause) =>
    if s.core.faultRoom o.fid then
      (finish (cancelResv s.cur o.ser s)).onCore fun c => c.defer o.fid { cause := cause, val := ra + BitVec.ofNat 64 (32 * i) }
    else s

/-- LAUNCHR_RUN: operation j of the core in focus goes on: through its next record or, when all are through, to its end; with a second
input of 1 it reads the record line that the third names ahead. A halt that has reached the core abandons phase 1 (R314). -/
def execLaunchrRun (s : State) : Out :=
  let j := inp s 0
  let l := inp s 2
  .next (match s.core.ops[j]? with
    | some o =>
      match o.kind with
      | .launchr ra nr =>
        if !s.core.mayRun then (cancelResv s.cur o.ser s).onCore fun c => c.setOp j o.restarted
        else if o.started then s
        else if inp s 1 = 1 then
          if ra.toNat / 64 ≤ l ∧ 64 * l < ra.toNat + 32 * nr.toNat then s.onCore fun c => c.setOp j (readLaunchLine s.core l o) else s
        else if o.next < nr.toNat then reserve j o ra.toNat s
        else finishLaunchr j o ra s
      | _ => s
    | none => s)

/-- PRIO (R315): at the end of its tick. -/
def execPrio (a : Reg) (s : State) : Out :=
  .next (guarded [notFirmware s] (launchResult { rem := 1, put := .prio ((sreg s a).extractLsb' 0 3) }) s)

/-! Token counters (13 R327, R328). -/

def execTcadd (a : Reg) (m : BitVec 4) (s : State) : Out :=
  .next (guarded [] (fun s => s.onCore fun c => c.addTc m ((sreg s a).extractLsb' 0 17).toInt) s)

def execTcrd (d : Reg) (m : BitVec 4) (s : State) : Out := .next (writeS 1 d ((s.core.tc m).zeroExtend 64) s)

/-- TCWAIT is a wait point; a header WAIT on the same counter takes one more. -/
def execTcwait (a : Reg) (m : BitVec 4) (s : State) : Out :=
  let n := ((sreg s a).extractLsb' 0 16).toNat
  let need := n + (if s.issue.wait = m then 1 else 0)
  .next (guarded [] (waitFor (n != 0 && decide ((s.core.tc m).toNat < need)) 0 fun s =>
    s.onCore fun c => c.addTc m (-(n : Int))) s)

end Sys2Proof.Machine
end

