-- ==== Sys2Proof/Machine/Counters.lean ====
section
/-! DEFINITION. Barriers, time and capture units (13_counters R329 to R347), NETW (03 R86), and the landing of answers
(02 R54). -/

namespace Sys2Proof.Machine

/-! Barriers (R329 to R336). -/

/-- Instance i is complete where `done` is the last that is: instances are counted modulo 2^32, and no two at hand lie 2^31 apart (R330). -/
def passed (done i : BitVec 32) : Bool := decide ((i - done).toInt ≤ 0)

/-- The unit of a scope that a core lies in (R329): the core, its quad, its reticle, the region. -/
def unitOf (s : State) (scope core : Nat) : Nat :=
  match scope with
  | 1 => core
  | 2 => let (x, y) := gridOf s core; 192 * (y / 2) + x / 2
  | 3 => reticleOf core
  | _ => 0

def nodeKey (scope unit : Nat) : Nat := 65536 * scope + unit

/-- The members' directory entries. -/
def membersOf (s : State) (reg scope unit : Nat) : List DirEntry :=
  ((s.region reg).dir.map Prod.snd).filter fun e => unitOf s scope e.core == unit

/-- A pod instance may complete: the mask names this wafer, and each other wafer that it names has completed its part (17 R448). A mask that
misses its own wafer, an empty one too, lets none complete. -/
def podMay (s : State) (reg : Nat) (inst : BitVec 32) : Bool :=
  let m := s.bridge.podmemb.toList.getD reg 0#64
  let own := (s.bridge.podcfg.extractLsb' 0 6).toNat
  m.getLsbD own && (List.range 64).all fun w => w == own || !m.getLsbD w || passed (findD w 0#32 (s.region reg).podInst) inst

/-- Cores and routers that a completion at a scope reaches: the members' cores, and at .wf and .pd every core of the region, whose
routers step their round (R324, R333). -/
def noticed (s : State) (reg scope unit : Nat) : List Nat :=
  if scope < 4 then nub ((membersOf s reg scope unit).map DirEntry.core) else (s.region reg).cores s

/-- Completion notices of an instance leave a node. -/
def notify (reg scope unit : Nat) (inst : BitVec 32) (s : State) : State :=
  { s with notices := s.notices ++ (noticed s reg scope unit).map fun c => ⟨reg, c, scope, inst⟩ }

/-- A node whose CUR has reached MEMB completes an instance and sends the notices (R331); at most `fuel` times. A barrier whose member never
arrives never completes (R335). What tasks from units further ahead have arrived at counts in its turn (R336). -/
def testNode (reg scope unit : Nat) : Nat → State → State
  | 0, s => s
  | fuel + 1, s =>
    let r := s.region reg
    let n := findD (nodeKey scope unit) {} r.nodes
    let ms := membersOf s reg scope unit
    if ms.isEmpty || n.cur < ms.length || r.lost || (scope == 5 && !podMay s reg (n.inst + 1#32)) then s
    else
      let i := n.inst + 1#32
      let n' : Node :=
        { inst := i, cur := n.nxt, nxt := n.later.countP fun a => a == i + 2#32, later := n.later.filter fun a => decide (3 ≤ (a - i).toInt) }
      let s := s.onRegion reg fun r => { r with nodes := insert (nodeKey scope unit) n' r.nodes }
      testNode reg scope unit fuel (notify reg scope unit (n.inst + 1#32) s)

/-- An arrival at a node, toward the next instance or the one after, or toward a later one where its task came from a unit further ahead; one at an instance that a unit had passed before the task came
to it is complete (R330; log 45). -/
def arriveAt (s : State) (reg scope unit : Nat) (inst : BitVec 32) : State :=
  let n := findD (nodeKey scope unit) {} (s.region reg).nodes
  if scope < 4 && passed n.inst inst then notify reg scope unit n.inst s else
  let n' : Node :=
    if inst = n.inst + 1#32 then { n with cur := n.cur + 1 }
    else if inst = n.inst + 2#32 then { n with nxt := n.nxt + 1 }
    else { n with later := n.later ++ [inst] }
  testNode reg scope unit 2 (s.onRegion reg fun r => { r with nodes := insert (nodeKey scope unit) n' r.nodes })

def scopeIx (x : Nat) : Fin 6 := ⟨x % 6, Nat.mod_lt _ (by decide)⟩

def Core.arrOf (c : Core) (x : Nat) : BitVec 32 := (c.slots[c.slot.toNat]'c.slot.isLt).arr[scopeIx x]
def Core.instOf (c : Core) (x : Nat) : BitVec 32 := (c.slots[c.slot.toNat]'c.slot.isLt).inst[scopeIx x]

/-- BAR (R330, R332): held while the task is two instances ahead. At .ln without release the arrival is made at once, and
completes in the next cycle; a release, and the way to a node, make it an operation. -/
def execBar (a b : Reg) (m : BitVec 4) (s : State) : Out :=
  let x := a.toNat
  let k := scopeIx x
  .next (guarded [notFirmware s]
    (waitRoom (decide (2 ≤ (s.core.arrOf x - s.core.instOf x).toInt)) fun s =>
      let arr := s.core.arrOf x + 1#32
      let s := s.onCore fun c =>
        let ts := c.slots[c.slot.toNat]'c.slot.isLt
        { c with slots := c.slots.set c.slot.toNat { ts with arr := ts.arr.set k.val arr k.isLt } c.slot.isLt }
      if x = 0 ∧ b ≠ 1#5 then s.onCore fun c => { c with arrivals := c.arrivals ++ [⟨c.regs.fireid, 0, arr, m, false, true, c.nextSer, c.cycle⟩] }
      else addOp { kind := .bar x (b == 1#5) arr, tc := m, scope := x } s) s)

/-- The release of a BAR.ra may be performed (09 R245): no earlier access still waits for the G-cache, earlier global accesses are
performed at wafer scope and above, earlier QSTs from quad scope on, and the link fence at pod scope. -/
def barReady (s : State) (j : Nat) (o : Op) (scope : Nat) : Bool :=
  ((s.core.ops.take j).all fun e => e.fid != o.fid ||
    (!e.wait && (scope < 4 || !e.kind.isGlobal || e.performed) &&
      (scope < 2 || (match e.kind with | .qst .. => e.resp | _ => true)))) && podReady s scope o.fid

/-- BARRIER_ARRIVAL: operation j of the core in focus, a BAR, performs its release and arrives at its node. At .ln no node
takes part. -/
def execBarrierArrival (s : State) : Out :=
  let j := inp s 0
  .next (match s.core.ops[j]? with
    | some o =>
      match o.kind with
      | .bar x ra inst =>
        if ra && !barReady s j o x then s
        else
          let s := if !ra then s else if x < 4 then coreRelease s else waferRelease s
          let s := s.onCore fun c => c.dropOp j
          let s := s.onCore fun c => { c with arrivals := c.arrivals ++ [{ fid := o.fid, scope := x, inst := inst, tc := o.tc, ra := ra, ser := o.ser, born := c.cycle }] }
          if x = 0 then s else arriveAt s (regionOf s) x (unitOf s x s.cur) inst
      | _ => s
    | none => s)

/-- The arrivals that an instance counts: the acquire, their tokens. -/
def Core.settle (scope : Nat) (inst : BitVec 32) (c : Core) : Core :=
  let counts (a : Arrival) : Bool := a.scope == scope && passed inst a.inst
  let mine := c.arrivals.filter counts
  let c := if 4 ≤ scope && mine.any Arrival.ra then c.waferAcquire else c
  let c := mine.foldl (fun c a => c.landVar a.fid false .none 0#5 a.tc) c
  { c with arrivals := c.arrivals.filter fun a => !counts a }

/-- A completion at a core: ROUND, the copy of INST, and what it counts (R333). -/
def Core.noticed (n : Notice) (c : Core) : Core :=
  let c : Core := if n.scope < 4 then c else { c with round := c.round + 1#32, stampCyc := 0#32 }
  let k := scopeIx n.scope
  { c with slots := c.slots.map fun (ts : TaskSlot) =>
    if ts.task = 0xFFFF#16 then ts else { ts with inst := ts.inst.set k.val n.inst k.isLt } }.settle n.scope n.inst

/-- The arrivals whose tokens a completion brings: barrier latency samples (R345). -/
def offerBarrier (n : Notice) (s : State) : State :=
  let c := s.coreAt n.core
  (c.arrivals.filter fun a => a.scope == n.scope && passed n.inst a.inst && a.tc != 0#4).foldl (fun s a =>
    offer s (reticleOf n.core) n.region 5 n.scope (c.cycle - a.born).toNat) s

/-- Notice j is taken at its core, and at .wf and .pd at the core's router, whose round steps with the end of the net cycle (10 R281). -/
def takeNotice (j : Nat) (n : Notice) (s : State) : State :=
  let s := offerBarrier n { s with notices := dropAt s.notices j }
  let s := if n.scope < 4 then s else s.onRouter n.core fun r => { r with due := r.due ++ [s.clock] }
  s.setCoreAt n.core ((s.coreAt n.core).noticed n)

/-- A core that takes no completion now: halted, or about to be (R336); a core that has failed or rests at reset holds none up. -/
def Core.defers (c : Core) : Bool := c.hreq || (match c.halt with | .no | .reset | .failed => false | _ => true)

/-- BARRIER_COMPLETION: notice j reaches its core. A core that is halted takes it at resume (R336); two of one scope keep their order. -/
def execBarrierCompletion (s : State) : Out :=
  let j := inp s 0
  .next (match s.notices[j]? with
    | some n =>
      if (s.coreAt n.core).defers || (s.notices.take j).any (fun e => e.core == n.core && e.scope == n.scope) then s
      else takeNotice j n s
    | none => s)

/-- BARRD (R334): the counts as the tick began; at .ln both halves are ARR. -/
def execBarrd (d a : Reg) (s : State) : Out :=
  let x := a.toNat
  let arr := match s.issue.arr0 with | some l => l[scopeIx x] | none => s.core.arrOf x
  .next (writeS 1 d ((if x = 0 then arr else s.issued.core.instOf x) ++ arr) s)

/-- STAMP (R340). -/
def execStamp (d : Reg) (s : State) : Out := .next (writeS 1 d (s.issued.core.round ++ s.issued.core.stampCyc) s)

/-! Time (R338, R339). -/

/-- TIMEQ. -/
def execTimeq (d : Reg) (m : BitVec 4) (s : State) : Out :=
  .next (guarded [] (addOp { kind := .timeq s.core.cycle, tc := m, dest := .s d }) s)

/-- The answer of TIMEQ on landing: the controller's time and the uncertainty, ceil(q × 10 / 28) at most 255. -/
def timeAnswer (s : State) (issued : W64) : W64 :=
  let q := (s.core.cycle - issued).toNat
  (timeAt s (reticleOf s.cur)).extractLsb' 0 56 ++ BitVec.ofNat 8 (min 255 ((q * 10 + 27) / 28))

/-- WAFER_TIME_BEACON: a reticle's copy, not the leader's own, is slewed forward, never back, to within 32 ns of the leader's. -/
def execWaferTimeBeacon (s : State) : Out :=
  let r := inp s 0
  let t := inp s 1
  if 47 < r then .fault .noSuchItem
  else
    let l := (timeAt s 48).toNat
    .next (
      if s.bridge.leader ≠ some r ∧ l ≤ t + 32 ∧ t ≤ l + 32 ∧ (s.reticle r).time.toNat ≤ t ∧ t < 2 ^ 64 then
        s.setReticle r { s.reticle r with time := BitVec.ofNat 64 t }
      else s)

/-! Capture units (R342 to R346). -/

/-- A firing may name the unit (R342). -/
def unitCheck (s : State) (u : Nat) : Check :=
  let g := grantOf s (reticleOf s.cur) u
  { bad := !s.core.fwm && !(g.getLsbD 4 && (g.extractLsb' 0 4).toNat == s.core.regnum), cause := .privilege }

/-- Source and selector values that R345 lists. -/
def srcOk (cfg : W64) : Bool :=
  let src := fld cfg 0 16
  let sel := fld cfg 16 16
  decide (1 ≤ src) && decide (src ≤ 12) &&
    (if src = 5 then decide (1 ≤ sel) && decide (sel ≤ 5) else if src = 8 then decide (sel < 8) else sel == 0)

def execMoncfg (a b : Reg) (s : State) : Out :=
  let u := fld (sreg s a) 0 4
  let x := sreg s b
  .next (guarded [unitCheck s u, { bad := fld x 44 17 != 0 || !srcOk x, cause := .illegalOp, val := some x }]
    (addOp { kind := .moncfg u x }) s)

/-- A unit cleared at a time. The samples of the same cycle that the new configuration admits are recorded after the clear (R344): those
offered at the reticle, and a level source's own. -/
def Capture.cleared (c : Capture) (start : W64) (now : Nat) (cfg : W64) (g : BitVec 5) (offered : List (Nat × Nat × Nat × Nat)) : Capture :=
  let e : Capture := { start := start }
  let src := fld cfg 0 16
  let vs :=
    if 6 ≤ src ∧ src ≤ 8 then (if c.last = some now ∧ fld cfg 0 32 = fld c.cfg 0 32 then [c.lastV] else [])
    else (offered.filter fun o => o.2.1 == src && o.2.2.1 == fld cfg 16 16 && (!g.getLsbD 4 || (g.extractLsb' 0 4).toNat == o.1)).map fun o => o.2.2.2
  if cfg.getLsbD 63 ∧ !cfg.getLsbD 61 then vs.foldl (fun e v => e.sample now v) e else e

/-- The bits of a configuration word that a unit keeps: CLR is written only (R346), [60:44] are reserved (00 R11). -/
def cfgBits : W64 := 0xA0000FFFFFFFFFFF#64

/-- A configuration word is applied to a unit, cleared first where CLR is set (R344). -/
def applyCfg (s : State) (r u : Nat) (x : W64) : State :=
  let c := if x.getLsbD 62 then (s.capture r u).cleared (timeAt s r) s.cycles x (grantOf s r u) (s.offeredNow r) else s.capture r u
  s.setCapture r u { c with cfg := x &&& cfgBits }

/-- MONCFG_APPLY: operation j of the core in focus, the first of its MONCFGs, is applied. -/
def execMoncfgApply (s : State) : Out :=
  let j := inp s 0
  .next (match s.core.ops[j]? with
    | some o =>
      match o.kind with
      | .moncfg u x =>
        if (s.core.ops.take j).any fun e => match e.kind with | .moncfg .. => true | _ => false then s
        else
          (applyCfg s (reticleOf s.cur) u x).onCore fun c => c.dropOp j
      | _ => s
    | none => s)

/-- CAPTURE_SAMPLE: a corrected ECC error of a region at a reticle (07 R170). The other latencies and events are offered where they
happen. -/
def execCaptureSample (s : State) : Out :=
  let r := inp s 0
  if 47 < r then .fault .noSuchItem
  else .next (offer s r (inp s 1) 12 0 1)

/-- The cores of a reticle, or those of the granted region (R342, R345). -/
def levelCores (s : State) (r : Nat) (g : BitVec 5) : List Nat :=
  let ret := s.reticle r
  ((List.range 576).filter fun i => !ret.hole (i / 24) (i % 24)).filterMap fun i =>
    let n := routerCode (r / 6) (r % 6) (ret.physRow (i / 24) (i % 24)) (i % 24)
    if !g.getLsbD 4 || regionAt s n == some (g.extractLsb' 0 4).toNat then some n else none

/-- The level that a level source sees, of the granted region alone: the ready entries of the core whose turn it is, the airing lines in
use over the routers, or the occupied slots of a seam queue, which is given. -/
def levelOf (s : State) (r src turn x : Nat) (g : BitVec 5) : Nat :=
  match src with
  | 6 =>
    let l := levelCores s r g
    (s.coreAt (l.getD (turn % max 1 l.length) 0)).ready.length
  | 7 =>
    ((s.routers.filter fun p => reticleOf p.1 == r && (!g.getLsbD 4 || regionAt s p.1 == some (g.extractLsb' 0 4).toNat)).map fun p =>
      (p.2.used.map Prod.snd).sum).sum
  | _ => min x 16

/-- LEVEL_SAMPLE: a level source's period has run out; the next core's turn comes. -/
def execLevelSample (s : State) : Out :=
  let r := inp s 0
  let u := inp s 1
  if 47 < r ∨ 15 < u then .fault .noSuchItem
  else
    let c := s.capture r u
    let g := grantOf s r u
    let src := fld c.cfg 0 16
    .next (
      if decide (6 ≤ src) && decide (src ≤ 8) && records s r u (g.extractLsb' 0 4).toNat src (fld c.cfg 16 16) then
        s.setCapture r u { c.sample s.cycles (levelOf s r src c.turn (inp s 2) g) with turn := c.turn + 1 }
      else s)

/-- CAPTURE_GRANT_WRITE: the unit is cleared and disabled. -/
def execCaptureGrantWrite (s : State) : Out :=
  let r := inp s 0
  let u := inp s 1
  if 47 < r ∨ 15 < u then .fault .noSuchItem
  else .next (s.setReticle r { s.reticle r with
    grants := insert u (BitVec.ofNat 5 (inp s 2)) (s.reticle r).grants, captures := insert u {} (s.reticle r).captures })

/-- MONRD (R346). -/
def execMonrd (d a : Reg) (m : BitVec 4) (s : State) : Out :=
  let x := sreg s a
  .next (guarded [unitCheck s (fld x 0 4)] (addOp { kind := .monrd (fld x 0 4) (fld x 8 6), tc := m, dest := .s d }) s)

/-- An item of a unit. -/
def Capture.item (c : Capture) (i : Nat) : W64 :=
  match i with
  | 0 => c.cfg | 1 => c.min | 2 => c.max | 3 => c.count | 4 => c.sum | 5 => c.drops | 6 => c.start
  | _ => if 8 ≤ i ∧ i < 40 then (c.bins.toList.getD (i - 8) 0#32).zeroExtend 64 else 0#64

/-! NETW (03 R86). -/

/-- NETW_UPDATE: write k of a region, the first of its core, reaches the leader and is applied; or, with a third input of 1, the write
applied k-th, the first still to come to its router, reaches that router. -/
def execNetwUpdate (s : State) : Out :=
  let reg := inp s 0
  let k := inp s 1
  let r := s.region reg
  let first (l : List (Nat × BitVec 32)) (c : Nat) : Bool := (l.take k).all fun e => e.1 != c
  .next (
    if inp s 2 = 1 then
      match r.netwOut[k]? with
      | some (c, x) =>
        if first r.netwOut c then
          (s.setRegion reg { r with netwOut := dropAt r.netwOut k }).setCoreAt c { s.coreAt c with netw := x }
        else s
      | none => s
    else
      match r.netwq[k]? with
      | some (c, x) =>
        if first r.netwq c then
          s.setRegion reg { r with netw := x, netwq := dropAt r.netwq k, netwOut := r.netwOut ++ (r.cores s).map fun n => (n, x) }
        else s
      | none => s)

/-! Answers (02 R54). -/

/-- The answer of a query that its controller serves as it lands. -/
def Op.served (s : State) (j : Nat) (o : Op) : Op :=
  match o.kind with
  | .timeq issued =>
    let first := (s.core.ops.take j).all fun e => match e.kind with | .timeq _ => false | _ => true
    if first then { o with got := (timeAnswer s issued).toNat, resp := true } else o
  | .monrd u i => { o with got := ((s.capture (reticleOf s.cur) u).item i).toNat, resp := true }
  | _ => o

/-- The loads whose latency is sampled (R345). -/
def OpKind.isLoad : OpKind → Bool
  | .gload .. | .ldacq _ => true
  | _ => false

/-- VAR_RESULT_LAND: the answer of operation j arrives; one that brings a 17th pending fault waits (14 R352), and one to
parked registers waits while the landing queue is full (14 R350), unless a tret.end gives the firing up (R356). -/
def execVarResultLand (s : State) : Out :=
  let j := inp s 0
  .next (match s.core.ops[j]? with
    | some o0 =>
      let o := o0.served s j
      if o.resp && (o.bad.isNone || s.core.faultRoom o.fid) && !(s.core.banked && !o.fw && decide (64 ≤ s.core.lq.length)) then
        landOp j o (if o.kind.isLoad then offer s (reticleOf s.cur) (regionOf s) 2 0 (s.core.cycle - o.born).toNat else s)
      else s
    | none => s)

end Sys2Proof.Machine
end

