-- ==== Sys2Proof/Machine/Fetch.lean ====
section
/-! DEFINITION. Fetch and the checks of a bundle before issue (02_bundles R38 to R51, 07_core_memories R189 to R192, 14
R350). -/

namespace Sys2Proof.Machine

/-- The instruction-store line of an address; firmware space is apart from the region's (14 R350). -/
def lineKey (c : Core) (va : Nat) : Nat := va / 64 + if c.fwm then 2 ^ 50 else 0

/-- What a look-up of words gives. -/
inductive Got where
  | words (l : List Word)
  /-- no valid line: its key -/
  | miss (key : Nat)
  /-- the line's fill met a fault -/
  | fault (va : Nat) (cause : Cause)
deriving DecidableEq, Repr

/-- n words from an address, which wraps at 56 bits. A faulting line is reported by the first address in it that the
bundle needs. -/
def gather (c : Core) (va : Nat) : Nat → Got
  | 0 => .words []
  | n + 1 =>
    let a := va % 2 ^ 56
    match find? (lineKey c a) c.istore with
    | some l =>
      match gather c (va + 4) n with
      | .words ws => .words ((l.extractLsb' (32 * (a / 4 % 16)) 32) :: ws)
      | g => g
    | none =>
      match c.ifault.find? fun p => p.1 == lineKey c a with
      | some p => .fault a p.2
      | none => .miss (lineKey c a)

/-- Words of the bundle whose header this is: 1 + slots + literals (R38), whatever its signature (R51). -/
def bundleLen (h : Word) : Nat := 1 + popBits (hMask h).toNat 9 + (hLitc h).toNat

/-- The bundle at an address: from the fetch buffer, else from the store. -/
def fetchAt (c : Core) (pc : Addr) : Got :=
  match c.fbuf.find? fun f => f.pc == pc with
  | some f => .words f.words
  | none =>
    match gather c pc.toNat 1 with
    | .words (h :: _) => gather c pc.toNat (if hSig h = 0xB#4 then bundleLen h else 1)
    | g => g

/-- Slots present, in slot order S0 to X as 0 to 8. -/
def slotsOf (h : Word) : List Nat := (List.range 9).filter fun i => (hMask h).getLsbD (8 - i)

/-- Slot words by slot, and the literal words. -/
def slotWords (ws : List Word) : List (Nat × Word) × List Word :=
  match ws with
  | [] => ([], [])
  | h :: t => ((slotsOf h).zip t, t.drop (slotsOf h).length)

/-- Whether the slot accepts the word's group and minor opcode (R49). -/
def slotAccepts (slot : Nat) (w : Word) : Bool :=
  let g := (fGroup w).toNat
  let mi := (fMinor w).toNat
  match slot with
  | 0 => g == 0 || g == 1 || g == 2 || g == 3 || g == 0xD || g == 0xE
  | 1 => g == 0 || g == 1 || g == 3 || g == 0xD || g == 0xE
  | 2 | 3 => g == 4 || g == 5 || g == 6
  | 4 => (g == 4 && mi != 0x03 && mi != 0x04 && mi != 0x13 && mi != 0x14) || g == 5 || g == 6
  | 5 => g == 7
  | 6 | 7 => g == 9 || g == 0xA || g == 0xC
  | _ => g == 8

/-- Bundle-ending instructions (R46). -/
def ends : Instr → Bool
  | .br .. | .brz .. | .brnz .. | .brany .. | .brnone .. | .jal .. | .jr .. | .fend | .yield | .trap .. | .tret .. | .brk ..
  | .haltc .. => true
  | _ => false

/-- The literal index is within the bundle's literals (R41). -/
def litOk (litc : Nat) : Instr → Bool
  | .lit _ _ i _ => decide (i.toNat < litc)
  | .lit64 _ i => decide (i.toNat + 1 < litc)
  | _ => true

/-- Assigned control-register numbers (03 R81, 14 R352). -/
def ctlAssigned (n : Nat) : Bool :=
  decide (n ≤ 0x00B) || (decide (0x010 ≤ n) && decide (n ≤ 0x013)) || (decide (0x018 ≤ n) && decide (n ≤ 0x01E) && n != 0x01B)
    || (decide (0x020 ≤ n) && decide (n < 0x040)) || (decide (0x100 ≤ n) && decide (n ≤ 0x106))
    || (decide (0x110 ≤ n) && decide (n < 0x118)) || (decide (0x121 ≤ n) && decide (n < 0x130))

/-- What CTLRD and CTLWR check of their number in the running mode (03 R84): firmware's, read-only. -/
def ctlFault (fwm write : Bool) (n : Nat) : Option Cause :=
  if fwm || !ctlAssigned n then none
  else if isFwNum n || (write && !userWritable n) then some .privilege
  else none

/-- PRIVILEGE of a decoded slot word, by mode (R45, 03 R84). -/
def modeFault (fwm : Bool) : Instr → Option Cause
  | .haltc _ | .ctxsv _ | .ctxld .. => if fwm then none else some .privilege
  | .ctlrd _ n => ctlFault fwm false n.toNat
  | .ctlwr _ n => ctlFault fwm true n.toNat
  | _ => none

/-- The checks of one slot word, in the order of R51. -/
def slotFault (fwm : Bool) (litc slot : Nat) (w : Word) : Option Cause :=
  if fGroup w = 0xB#4 then some .illegalBundle
  else if fGroup w = 0xF#4 then some .illegalOp
  else if !slotAccepts slot w then some .slotGroup
  else
    match decodeSlot w with
    | none => some .illegalOp
    | some i =>
      if !litOk litc i then some .illegalBundle
      else modeFault fwm i

/-- The header's own checks (R41); bits 1 and 0 of its address are zero in every reachable bundle, and an address that
firmware has made odd faults as an illegal bundle (log 13). -/
def headerBad (pc : Addr) (h : Word) : Bool :=
  hSig h != 0xB#4 || hRes h != 0#9 || (hMask h == 0#9 && (decodeHeaderOnly h).isNone) || pc.extractLsb' 0 2 != 0#2

/-- The first decode fault of a bundle (R51, items 2 and 3): slot, word, cause. The header is slot 0xF; the slot of a second
bundle-ending instruction is that instruction's. -/
def decodeFault (fwm : Bool) (pc : Addr) (ws : List Word) : Option (Nat × Word × Cause) :=
  match ws with
  | [] => none
  | h :: _ =>
    if headerBad pc h then some (15, h, .illegalBundle)
    else
      let sl := (slotWords ws).1
      let litc := (hLitc h).toNat
      match sl.findSome? fun p => (slotFault fwm litc p.1 p.2).map fun c => (p.1, p.2, c) with
      | some f => some f
      | none =>
        match (sl.filter fun p => match decodeSlot p.2 with | some i => ends i | none => false) with
        | _ :: q :: _ => some (q.1, q.2, .illegalBundle)
        | _ => none

/-! Filling the instruction store (07 R189 to R191). -/

/-- Lines of one of the 256 sets. -/
def setLines (c : Core) (key : Nat) : List Nat := (c.istore.filter fun p => p.1 % 256 == key % 256).map Prod.fst

/-- A line enters the store, in place of one of its set where four are held. -/
def Core.keepLine (c : Core) (key pick : Nat) (x : BitVec 512) : Core :=
  let held := (setLines c key).filter (· != key)
  let c := if held.length < 4 then c else { c with istore := erase (held.getD (pick % 4) 0) c.istore }
  { c with istore := insert key x c.istore, ifault := c.ifault.filter fun p => p.1 != key }

/-- Region of a fetch: firmware space has its own root (14 R350, R351). -/
def fetchRegion (s : State) (key : Nat) : Nat := if 2 ^ 50 ≤ key then 16 else regionOf s

/-- The fill of a line, asked for or ahead of use, arrives at the core in focus: kept, dropped where an ICINV has met it,
or a fault noted for the bundle that needs it. -/
def icFill (key pick : Nat) (s : State) : State :=
  let keep := s.core.ifill.all fun p => p.1 != key || p.2
  let s := s.onCore fun c => { c with ifill := c.ifill.filter fun p => p.1 != key }
  let r := fetchRegion s key
  let va := 64 * (key % 2 ^ 50)
  if !keep then s
  else
    match agentRead s r va 64 .fetch with
    | .ok x => (cacheLeaf s r va).onCore fun c => c.keepLine key pick (BitVec.ofNat 512 x)
    | .error e => (cacheLeaf s r va).onCore fun c => { c with ifault := (key, e) :: c.ifault.filter fun p => p.1 != key }

/-- ICACHE_FILL of a line by its key: address over 64, 2^50 more in firmware space. -/
def execIcacheFill (s : State) : Out := .next (icFill (inp s 0 % 2 ^ 51) (inp s 1) s)

/-- A global line of an engine command whose host request has failed is not delivered. -/
def engineTimeout (j i : Nat) (o : Op) (e : Engine) (s : State) : State :=
  let l := i / 3
  if o.started && !o.done.contains i && i % 3 = 1 && e.listed o && (e.lines o.snap).contains l && isHost (64 * l) then
    s.onCore fun c => c.setOp j { o.fail (lowVa l (e.inLine o.snap l)) .poison with done := i :: o.done }
  else s

/-- A part of an access that goes to the host window. -/
def Op.hostPart (o : Op) (i : Nat) : Bool := o.bytes != 0 && isHost (o.va.toNat + 64 * i)

/-- HOST_REQUEST_TIMEOUT (17 R435, 08 R205): a request of the core in focus to the host window counts as poisoned, for that access
alone: part i of operation j, an access, a PROMACQ's flag or an engine command; or, where j is no position in the list, the fill of an
instruction-store line by its key or, with a third input of 1, a line of the image that the core's next CTXSV, CTXLD, save or
restore moves. -/
def execHostRequestTimeout (s : State) : Out :=
  let j := inp s 0
  let i := inp s 1
  .next (match s.core.ops[j]? with
    | some o =>
      match o.kind, o.engine with
      | .promacq _ task, _ =>
        if isHost o.va.toNat && !o.resp && !o.started && mayPerform s.core j o then
          servePromotion j o task (inp s 2) (fun s => s.onCore fun c => c.setOp j ((o.fail o.va.toNat .poison).finish 0)) s
        else s
      | _, some e => engineTimeout j i o e s
      | _, none =>
        if o.hostPart i && !o.wait && !o.resp && decide (i < o.parts) && !o.done.contains i && mayPerform s.core j o
            && podReady s o.scope o.fid then
          s.onCore fun c => c.setOp j ((o.fail (o.va.toNat + 64 * i) .poison).finish i)
        else s
    | none =>
      if inp s 2 = 1 then s.onCore fun c => { c with imageErr := true }
      else if isHost (64 * (j % 2 ^ 50)) && (s.core.ifill.any fun p => p.1 == j && p.2) then
        s.onCore fun c => { c with ifill := c.ifill.filter (fun p => p.1 != j), ifault := (j, .poison) :: c.ifault.filter fun p => p.1 != j }
      else s)

/-- A bundle ahead of the issuing one enters the fetch buffer, which holds four of them (R189); none while FETCHB waits. -/
def prefetch (s : State) : State :=
  s.onCore fun c =>
    let last := match c.fbuf.getLast? with
      | some f => f
      | none => ⟨c.regs.pc, match fetchAt c c.regs.pc with | .words w => w | _ => []⟩
    let nxt := last.pc + BitVec.ofNat 56 (4 * last.words.length)
    if c.fetchb || last.words.isEmpty || 4 ≤ c.fbuf.countP (fun f => f.pc != c.regs.pc) then c
    else
      let cur := if c.fbuf.isEmpty then [last] else c.fbuf
      match fetchAt c nxt with
      | .words ws => { c with fbuf := cur ++ [⟨nxt, ws⟩] }
      | _ => c

end Sys2Proof.Machine
end

