-- ==== Sys2Proof/Machine/Trap.lean ====
section
/-! DEFINITION. Trap and system instructions, boundary faults, the watchdog and halts (14_traps_and_context R348 to R363, 03
R83 to R86). -/

namespace Sys2Proof.Machine

/-- A check from a cause found or not. -/
def causeCheck (c : Option Cause) : Check := { bad := c.isSome, cause := c.getD .illegalOp }

/-- An instruction that ends its bundle: checks, then an effect that closes the bundle (02 R46). Beside a CTXLD that has restored a core it
does nothing: execution goes on as the image's STATE says (14 R368; log 15). -/
def ending (checks : List Check) (eff : State → State) (s : State) : State :=
  guarded checks (fun s => if s.issue.commit && s.issue.loaded.isNone then eff s else s) s

/-! TRAP, BREAK, TRET, HALTC (R354 to R359). -/

/-- The bundle issues, then the core takes a trap with the next address as TRAPPC. -/
def issueThenTrap (c : Cause) (val : W64) (s : State) : State :=
  (closeStepped s).onCore fun k => k.takeTrap c.code k.regs.pc val

def execTrap (imm : BitVec 12) (s : State) : Out := .next (ending [] (issueThenTrap .trap (imm.zeroExtend 64)) s)

/-- The core stops: a result of variable latency that has come lands (02 R52), and what else is in flight is parked (R362), in firmware mode
with a mark that it is firmware's own. -/
def Core.stop (h : Halt) (c : Core) : Core :=
  { c.landVars.park with halt := h, fbuf := [] }

/-- The stopped core goes on (R369): parked entries run again, in firmware mode those of firmware alone. -/
def Core.goOn (c : Core) : Core :=
  let mine (p : Pending) : Bool := p.own || !c.fwm
  { c with halt := .no, hreq := false, pend := runOn ((c.lq ++ c.heldVar).filter mine) ++ c.pend
           lq := c.lq.filter fun p => !mine p, heldVar := c.heldVar.filter fun p => !mine p }

/-- BREAK: a trap, or a halt for the debugger, which sees the trap registers as the trap would have written them (R355). -/
def execBrk (_m : BitVec 4) (s : State) : Out :=
  .next (ending [] (fun s =>
    if s.core.dbgen = 1#1 ∧ s.core.fwm = false then
      (closeStepped s).onCore fun c =>
        Core.stop (.report 0x11#64 true) { c with trapcause := Cause.brk.code, trappc := c.regs.pc, trapval := slotVal s }
    else issueThenTrap .brk (slotVal s) s) s)

/-- TRET and its .end form (R356). TRET decides the next bundle: no loop step follows it (03 R76). Beside a CTLWR of TRAPPC the next fetch is
from the value written, which stands at the end of the tick (log 77). -/
def execTret (m : BitVec 4) (s : State) : Out :=
  .next (ending [{ bad := !s.core.fwm, cause := .illegalOp }] (fun s =>
    if m = 1#4 then
      (closeStraight s).onCore fun (c : Core) =>
        { c with
          ending := .trapEnd, faults := [], stallrem := 0
          pend := runOn c.lq ++ (c.pend.filter fun p => !p.inBank) ++ runOn c.heldVar
          lq := [], heldVar := [] }
    else (closeStraight s).onCore Core.tret) s)

/-- HALTC (R359). Its bundle takes the loop step of R76 as any sequential bundle does: R77 says so of TRAP and BREAK alone, and the
model reads HALTC so too (log 59). -/
def execHaltc (a : Reg) (s : State) : Out :=
  .next (ending [{ bad := !s.core.fwm, cause := .privilege }] (fun s =>
    let x := sreg s a
    (closeStepped s).onCore fun c => c.stop (.report x false)) s)

/-! Control registers (03 R83 to R86). -/

/-- PRIVILEGE of a control register in the running mode (02 R45), which the decode checks make first. -/
def privCheck (s : State) (write : Bool) (imm : BitVec 12) : Check := causeCheck (ctlFault s.core.fwm write imm.toNat)

/-- An unassigned number, a check of the instruction's own description (03 R84, 02 R51). -/
def unassigned (imm : BitVec 12) : Check := { bad := !ctlAssigned imm.toNat, cause := .illegalOp }

def execCtlrd (d : Reg) (imm : BitVec 12) (s : State) : Out :=
  let p : Pending := { rem := 1, put := .s d ((ctlValue s.issued imm.toNat).getD 0#64) }
  .next (guarded [privCheck s false imm, collision p s, unassigned imm] (launchResult p) s)

/-- CTLWR: the write is made at the end of the tick; one of NETW goes to the region's leader (R86). -/
def execCtlwr (a : Reg) (imm : BitVec 12) (s : State) : Out :=
  let x := sreg s a
  let p : Pending := { rem := 1, put := .ctl imm x }
  .next (guarded [privCheck s true imm, collision p s, unassigned imm] (fun s =>
    if imm = 0x00B#12 then s.onRegion (regionOf s) fun r => { r with netwq := r.netwq ++ [(s.cur, x.truncate 32)] }
    else launchResult p s) s)

/-! EVPOST (R358). -/

/-- The queue a record of EVPOST goes to, and its code. -/
def evTarget (s : State) (tag : W64) : Nat × Nat :=
  let code := fld tag 16 8
  if s.core.fwm && code != 0 then ((if tag.getLsbD 24 then 16 else regionOf s), code) else (regionOf s, 0x08)

def execEvpost (a b : Reg) (m : BitVec 4) (s : State) : Out :=
  let x := sreg s a
  let y := sreg s b
  let q := (evTarget s x).1
  let ctl := reticleOf s.cur
  .next (guarded [] (waitRoom (decide (64 ≤ (s.queue q).stagedBy ctl)) fun s =>
    if !s.issue.commit then s
    else
      let f := s.core.regs.fireid
      post s q ⟨0, (fidTask f).toNat, ctl⟩ (evTarget s x).2 y
        (BitVec.ofNat 64 (fld x 0 16 + if s.core.fwm then 65536 else 0)) false
        (if m = 0#4 then none else some (s.cur, f, s.core.fwm, m)) none) s)

/-! Boundary faults and the watchdog (R348, R352, R360). -/

/-- A boundary fault may be taken: a firing runs outside firmware and is not halted. -/
def Core.atBoundary (c : Core) : Bool := c.running && !c.fwm && c.halt == .no

/-- The oldest pending fault is taken before the bundle about to issue. -/
def Core.takePending (c : Core) : Core :=
  match c.faults with
  | d :: t => { c with faults := t }.takeTrap d.cause.code c.regs.pc d.val
  | [] => c

/-- BOUNDARY_FAULT. -/
def execBoundaryFault (s : State) : Out :=
  .next (if s.core.atBoundary then s.onCore Core.takePending else s)

/-- The watchdog's limit in cycles. -/
def Core.wdLimit (c : Core) : Nat := 1024 * c.wdlim.toNat

/-- A cycle in which the firing holds the core: counted while an entry that matches it waits. Only cycles outside firmware mode
count, and an unarmed watchdog counts none (log 14). -/
def Core.countHeld (c : Core) : Core :=
  if !c.atBoundary then c
  else if c.wdlim = 0#32 then { c with wdFrozen := 0, wdHeld := 0 }
  else { c with wdHeld := if c.ready.any fun e => c.regs.prio.toNat ≤ e.eff then c.wdHeld + 1 else 0 }

/-- A cycle of the firing is counted: its issue clock frozen for a cause, or not. A stagger hold (06 R165), for which R360 lists no cause, is
shown as back-pressure (DESIGN CHOICE, log 84). -/
def Core.countCycle (why : Option Nat) (c : Core) : Core :=
  if !c.atBoundary || c.wdlim = 0#32 then c.countHeld
  else
    match why with
    | some w => { c.countHeld with wdFrozen := c.wdFrozen + 1, wdWhy := Nat.min w 4 }
    | none => { c.countHeld with wdFrozen := 0 }

/-- The counts after a cycle that began in c0 and issued a bundle or took a trap. -/
def Core.countedFrom (c c0 : Core) : Core :=
  { c with wdFrozen := (c0.countCycle none).wdFrozen, wdHeld := (c0.countCycle none).wdHeld }

/-- What the watchdog reports when a limit has been reached. -/
def Core.watchdogVal (c : Core) : Option W64 :=
  if !c.atBoundary || c.wdlim = 0#32 then none
  else if c.wdLimit ≤ c.wdFrozen then some (BitVec.ofNat 64 (1 + 2 ^ 32 * c.wdWhy))
  else if c.wdLimit ≤ c.wdHeld then some 2#64
  else none

/-- The WATCHDOG trap; both counts start again. -/
def Core.takeWatchdog (v : W64) (c : Core) : Core :=
  { c.takeTrap Cause.watchdog.code c.regs.pc v with wdFrozen := 0, wdHeld := 0 }

/-- WATCHDOG: the limit has been reached. -/
def execWatchdog (s : State) : Out :=
  .next (match s.core.watchdogVal with
    | some v => s.onCore (Core.takeWatchdog v)
    | none => s)

/-! Results that fall due as events of their own (02 R53, 14 R369). -/

/-- RESULT_WRITE: entry j in flight, whose last tick has ended, is written. -/
def execResultWrite (s : State) : Out :=
  let j := inp s 0
  .next (match s.core.pend[j]? with
    | some p =>
      if p.rem = 0 ∧ s.core.halt = .no then s.onCore fun c => { c with pend := dropAt c.pend j }.landOne p |>.applyTc else s
    | none => s)

/-- LANDING_ENTRY_LAND: entry j of the landing queue, its REM ticks run, is written once the firing runs again outside
firmware. -/
def execLandingEntryLand (s : State) : Out :=
  let j := inp s 0
  .next (match s.core.lq[j]? with
    | some p =>
      if p.rem = 0 ∧ s.core.halt = .no ∧ s.core.fwm = false then
        s.onCore fun c => { c with lq := dropAt c.lq j }.landOne p |>.applyTc
      else s
    | none => s)

/-! The halt of a region at a core (R361). -/

/-- A phase-1 LAUNCHR leaves its marks in the image and starts again at resume (R365, R369): nothing of it is lost while
the core is halted. -/
def Core.haltHere (c : Core) : Core := (c.stop (.region false))

/-- The core may stop here: at a bundle boundary, no switch under way (01 R31). A firing that waits at FEND or tret.end for its
outstanding work stops as a bundle does that waits. -/
def Core.maySplit (c : Core) : Bool :=
  match c.ending with
  | .none => true
  | .yield => false
  | _ => c.pend.isEmpty

/-- The core stops for its region's halt; a firing that has done all that its end waits for retires first (01 R31). -/
def haltNow (s : State) : State :=
  if s.core.maySplit then (if mayEnd s then s.onCore Core.retire else s).onCore Core.haltHere else s

/-- CORE_HALT: the halt of the core's region reaches it, and it stops at its next boundary: at once where it has been
asked before, a failed or reporting core staying as it is. -/
def execCoreHalt (s : State) : Out :=
  let r := s.region (regionOf s)
  .next (
    if r.phase == .halting && s.core.halt == .no && (r.cores s).contains s.cur then
      if s.core.hreq then haltNow s else s.onCore fun c => { c with hreq := true }
    else s)

end Sys2Proof.Machine
end

