-- ==== Sys2Proof/Machine/Region.lean ====
section
/-! DEFINITION. The end of a region and of a record of its launch queue (12_firing_queues R296, R301 to R303, 10 R269, 11
R290, 17 R442). -/

namespace Sys2Proof.Machine

def State.page (s : State) (q : Nat) : Page := findD q {} s.pages
def State.setPage (s : State) (q : Nat) (p : Page) : State := { s with pages := insert q p s.pages }

/-- LQHEAD passes every finished record (R296). -/
def Page.advance (p : Page) : Nat → Page
  | 0 => p
  | n + 1 =>
    if p.finished.contains p.head then
      Page.advance { p with head := p.head + 1#16, finished := p.finished.filter (· != p.head) } n
    else p

/-- A record finishes: LQSTAT and LQHEAD (R296, R302). -/
def finishRecord (q : Nat) (j : BitVec 16) (ltag : BitVec 32) (status : Nat) (s : State) : State :=
  let p := s.page q
  s.setPage q (Page.advance { p with ltag := ltag, status := BitVec.ofNat 8 status, finished := j :: p.finished } 16)

/-- The completion word (R302). -/
def completionWord (ltag : BitVec 32) (status detail : Nat) : W64 := ltag ++ BitVec.ofNat 8 status ++ BitVec.ofNat 24 detail

/-- The completion word is stored under a region's root, where its address translates with write permission. -/
def storeCompletion (reg : Nat) (va : W64) (w : W64) (s : State) : State :=
  if va.toNat % 8 ≠ 0 ∨ 2 ^ 56 ≤ va.toNat then s
  else
    let s := cacheLeaf s reg va.toNat
    match agentWrite s reg va.toNat 8 255 w.toNat with
    | .ok s' => s'
    | .error _ => s

/-- LAUNCH_DONE (17 R440); the end of region `done` waits for it. -/
def launchDone (q : Nat) (w compl : W64) (done : Option Nat) (s : State) : State :=
  post s q (fromLeader s) 0x07 w compl true none done

/-- The launch record of a region ends with a status: completion word, LQSTAT, LAUNCH_DONE; its reduction slots flush (11 R287). -/
def endRecord (reg status detail : Nat) (s : State) : State :=
  let s := flushRegion s reg
  let r := s.region reg
  let w := completionWord r.ltag status detail
  let s := storeCompletion reg r.compl w s
  let s := finishRecord reg (s.page reg).head r.ltag status s
  (launchDone reg w r.compl (some reg) s).onRegion reg fun r => { r with phase := .ending, stored := true }

/-- A core without any firing, task, frame or outstanding command. -/
def Core.vacate (c : Core) : Core :=
  { c with
    running := false, regs := {}, watches := [], faults := [], ending := .none, branch := none, stallrem := 0, divrem := 0
    frozen := 0, pend := [], tcd := [], fbuf := [], fetchb := false, lq := [], heldVar := [], savedBranch := none, savedFetchb := false, savedStall := 0, savedDiv := 0
    hreq := false, moving := false, halt := (match c.halt with | .reset => .reset | .failed => .failed | _ => .no), fwm := (match c.halt with | .reset => c.fwm | _ => false)
    ops := [], matq := [], arrivals := [], ready := [], resv := [], owed := [], nframes := [], yframes := [], warm := 0
    slots := Vector.replicate 16 {} }

/-- The firings, tables and tokens of a region are discarded at once; dirty bytes of its G-caches with them (R303). -/
def discardFirings (reg : Nat) (s : State) : State :=
  let cs := (s.region reg).cores s
  let s := cs.foldl (fun s n => s.setCoreAt n { (s.coreAt n).vacate with gcache := [], darn := [] }) s
  { s with net := s.net.filter fun t => t.region != reg, notices := s.notices.filter fun n => n.region != reg }

/-- The region is freed: tables, airing and reduction entries, cores, blocks (R301, step 4). -/
def freeRegion (reg : Nat) (s : State) : State :=
  let cs := (s.region reg).cores s
  let s := cs.foldl (fun s n => (s.setCoreAt n (s.coreAt n).vacate).onRouter n Router.cleared) s
  let blocks := s.blocks.map fun (b : Nat × Block) => if b.2.owner = some reg then (b.1, ({} : Block)) else b
  { s with
    blocks := blocks, regions := erase reg s.regions
    net := s.net.filter fun t => t.region != reg, notices := s.notices.filter fun n => n.region != reg }

/-- The region ends without completing: ABORTED or FAILED (R302, R303, 14 R367). -/
def endRegion (reg status : Nat) (s : State) : State := endRecord reg status 0 (discardFirings reg s)

/-- A region that has ended is free, unless its LAUNCH_DONE had to wait for staging: then once that record is written (17 R442, R450). -/
def endedFree (s : State) (reg : Nat) : Bool :=
  (s.region reg).phase == .ending && ((s.queue reg).waiting ++ (s.queue reg).staged).all fun r => r.done != some reg

end Sys2Proof.Machine
end

