-- ==== Sys2Proof/Machine/Image.lean ====
section
/-! DEFINITION. The context image (14_traps_and_context R363, R365, R366): a core laid out as bytes, and a core restored from
them. -/

namespace Sys2Proof.Machine

/-- Bytes of values at offsets, given in rising order: offset, length, value. -/
def sects (l : List (Nat × Nat × Nat)) : Memory := (l.map fun x => wrN [] x.1 x.2.2 x.2.1).flatten

/-- A byte memory moved to an offset, and the n bytes at an offset taken back. -/
def shiftMem (off : Nat) (m : Memory) : Memory := m.map fun p => (p.1 + off, p.2)
def cutMem (off n : Nat) (m : Memory) : Memory :=
  (m.filter fun p => decide (off ≤ p.1) && decide (p.1 < off + n)).map fun p => (p.1 - off, p.2)

/-- A vector value: 256 bytes of DATA, 8 of scale, 1 of tag, 7 zero (R363). -/
def vNat (v : VReg) : Nat := v.data.toNat + 2 ^ 2048 * v.scale.toNat + 2 ^ 2112 * v.tag.toNat
/-- A tag as it is restored: no register or tile ever holds a reserved one (04 R90; log 70). -/
def legalTag (t : BitVec 4) : BitVec 4 := if t.ult 14#4 then t else BitVec.ofNat 4 (Config.restoredTag t).val
def vOf (x : Nat) : VReg :=
  { data := BitVec.ofNat 2048 x, scale := BitVec.ofNat 64 (x >>> 2048), tag := legalTag (BitVec.ofNat 4 (x >>> 2112)) }

/-! Landing entries (R363). -/

/-- KIND, DREG, first and second value. -/
def Pending.parts (p : Pending) : Nat × Nat × Nat × Nat :=
  match p.put with
  | .s r x => (0, r.toNat, x.toNat, 0)
  | .k r x => (1, r.toNat, x.toNat, 0)
  | .n r x => (2, r.toNat, x.toNat, 0)
  | .v r x => (3, r.toNat, vNat x, 0)
  | .vv r x y => (4, r.toNat, vNat x, vNat y)
  | .none | .ctl .. | .prio _ | .loop .. => if p.hist.isEmpty then (0, 0, 0, 0) else (5, 0, pack 16 p.hist, 0)

/-- The control word. -/
def Pending.control (p : Pending) : BitVec 64 :=
  1#1 ++ BitVec.ofBool p.var ++ BitVec.ofNat 4 p.parts.1 ++ BitVec.ofNat 5 p.parts.2.1 ++ BitVec.ofNat 5 (if p.var then 0 else p.rem)
    ++ (if p.var then p.tcn else 0#4) ++ 0#7 ++ p.flags ++ 0#32

def Pending.nat (p : Pending) : Nat := p.control.toNat + 2 ^ 128 * p.parts.2.2.1 + 2 ^ 2304 * p.parts.2.2.2

/-- An entry read back. -/
def pendingOf (x : Nat) : Pending :=
  let c : BitVec 64 := BitVec.ofNat 64 x
  let r : Reg := c.extractLsb' 53 5
  let y := (x >>> 128) % 2 ^ 2176
  let z := (x >>> 2304) % 2 ^ 2176
  let kind := fld c 58 4
  { rem := fld c 48 5, var := c.getLsbD 62, tcn := c.extractLsb' 44 4, flags := c.extractLsb' 32 5
    hist := if kind == 5 then (List.range 32).map fun i => (y >>> (16 * i)) % 65536 else []
    put := match kind with
      | 0 => .s r (BitVec.ofNat 64 y)
      | 1 => .k (r.truncate 3) (BitVec.ofNat 64 y)
      | 2 => .n (r.truncate 4) (BitVec.ofNat 96 y)
      | 3 => .v r (vOf y)
      | 4 => .vv r (vOf y) (vOf z)
      | _ => .none }

/-- What R363 refuses in a valid entry. -/
def entryBad (x : Nat) : Bool :=
  let c : BitVec 64 := BitVec.ofNat 64 x
  c.getLsbD 63 && (decide (5 < fld c 58 4) || (fld c 48 5 == 0 && !c.getLsbD 62) || decide (19 < fld c 48 5))

/-! Registers of a firing, in the image and in a yield frame. -/

def regS (r : Regs) : Nat := pack 64 (r.s.toList.map BitVec.toNat)
def regK (r : Regs) : Nat := pack 64 (0xFFFFFFFFFFFFFFFF :: (r.k.toList.drop 1).map BitVec.toNat)
def regN (r : Regs) : Nat := pack 128 (r.n.toList.map BitVec.toNat)
def regT (t : Vector (BitVec 16) 16) : Nat := pack 16 (0 :: (t.toList.drop 1).map BitVec.toNat)
def regV (r : Regs) : Nat := pack 2176 (r.v.toList.map vNat)
def regL (r : Regs) (stall div : Nat) : Nat :=
  pack 64 [r.lpcnt.toNat, r.lpbeg.toNat, r.lpexit.toNat, stall % 256 + 256 * (div % 256)]

/-- The fields at the offsets of s, k, n, the loop registers, the token counters and v. -/
def readRegs (m : Memory) (oS oK oN oL oT oV : Nat) : Regs :=
  let w64 (o i : Nat) : W64 := BitVec.ofNat 64 (rdN m (o + 8 * i) 8)
  { s := Vector.ofFn fun i => if i.val = 0 then 0#64 else w64 oS i.val
    k := Vector.ofFn fun i => if i.val = 0 then 0#64 else w64 oK i.val
    n := Vector.ofFn fun i => BitVec.ofNat 96 (rdN m (oN + 16 * i.val) 12)
    v := Vector.ofFn fun i => vOf (rdN m (oV + 272 * i.val) 272)
    tc := Vector.ofFn fun i => if i.val = 0 then 0#16 else BitVec.ofNat 16 (rdN m (oT + 2 * i.val) 2)
    lpcnt := w64 oL 0, lpbeg := (w64 oL 1).truncate 56, lpexit := (w64 oL 2).truncate 56 }

/-! Watches and pending faults; the bytes of a watch are the model's (log 12). -/

def Watch.nat (w : Watch) : Nat :=
  1 + (if w.fw then 2 else 0) + (if w.hit then 4 else 0) + 256 * w.tile + 65536 * w.tc.toNat + 2 ^ 64 * w.thr.toNat
def watchOf (x : Nat) : Option Watch :=
  if x % 2 = 1 then
    some { tile := x / 256 % 256, tc := BitVec.ofNat 4 (x / 65536), thr := BitVec.ofNat 64 (x >>> 64), new := false, fw := x / 2 % 2 == 1, hit := x / 4 % 2 == 1 }
  else none

def causes : List Cause :=
  [.illegalBundle, .illegalOp, .slotGroup, .branchTarget, .unitBusy, .writeCollision, .formatMismatch, .tileState, .localBounds,
   .misaligned, .globalXlate, .globalPerm, .poison, .nameSpace, .mangleCount, .privilege, .brk, .trap, .watchdog, .fabricLength,
   .fabricDrain, .launchRecord, .taskLost, .windowOwner]
def causeOf (x : Nat) : Option Cause := causes.find? fun c => c.code.toNat == x % 64

/-- 32 bytes: cause, TRAPPC, TRAPVAL in words of eight. -/
def Deferred.nat (pc : Addr) (d : Deferred) : Nat := pack 64 [d.cause.code.toNat, pc.toNat, d.val.toNat]
/-- An entry whose code is no cause of R348 is none (log 12). -/
def deferredOf (x : Nat) : Option Deferred := (causeOf (x % 2 ^ 64)).map fun c => { cause := c, val := BitVec.ofNat 64 (x >>> 128) }

/-! Ready entries (12 R305). -/

def ReadyKind.code : ReadyKind → BitVec 2
  | .subscription => 0#2 | .spawn => 1#2 | .record => 2#2 | .yielded => 3#2
def kindOf (x : Nat) : ReadyKind := match x % 4 with | 0 => .subscription | 1 => .spawn | 2 => .record | _ => .yielded

def Ready.bits (e : Ready) : BitVec 256 :=
  1#1 ++ e.kind.code ++ e.slot ++ e.prio ++ BitVec.ofNat 15 e.wait ++ e.rdyseq ++ e.nleft ++ e.rows ++ e.yfr ++ e.nfr ++ 0#9 ++ e.param
    ++ 0#24 ++ e.fid

def readyOf (b : BitVec 256) (ns : List Name) (fs : List Deferred) : Ready :=
  { kind := kindOf (b.extractLsb' 253 2).toNat, slot := b.extractLsb' 249 4, prio := b.extractLsb' 246 3, wait := (b.extractLsb' 231 15).toNat
    rdyseq := b.extractLsb' 199 32, nleft := b.extractLsb' 175 24, rows := b.extractLsb' 169 6, yfr := b.extractLsb' 167 2
    nfr := b.extractLsb' 161 6, param := b.extractLsb' 88 64, fid := b.extractLsb' 0 64, names := ns, faults := fs }

/-! Tile slots (07 R171). -/

def Tile.nat (t : Tile) : Nat := t.word.toNat + 2 ^ 64 * t.name.toNat + 2 ^ 192 * t.fill.toNat

def tstateOf (x : Nat) : TState := match x % 4 with | 0 => .empty | 1 => .filling | 2 => .ready | _ => .draining

/-- A tile slot read back; what fills or frees it comes from the remainder. -/
def tileFrom (x : Nat) (rest : Filler × Bool × Bool × Bool) : Tile :=
  let w : W64 := BitVec.ofNat 64 x
  { holds := w.extractLsb' 59 5, owner := w.extractLsb' 55 4, fsc := w.getLsbD 54, nb := w.getLsbD 53, tag := legalTag (w.extractLsb' 49 4)
    buf := w.extractLsb' 47 2, state := tstateOf (fld w 45 2), pf := w.getLsbD 44, sizem1 := w.extractLsb' 28 16, line := w.extractLsb' 14 14
    fill := BitVec.ofNat 1024 (x >>> 192), name := BitVec.ofNat 96 (x >>> 64)
    filler := rest.1, dying := rest.2.1, ovr := rest.2.2.1, unbind := rest.2.2.2 }

/-! Planes (06 R143). -/

def Plane.nat (p : Plane) : Nat :=
  ((p.elem.map fun (e : Nat × BitVec 16) => e.2.toNat <<< (16 * e.1)).foldl (· ||| ·) 0)
    ||| ((p.scale.map fun (e : Nat × BitVec 8) => e.2.toNat <<< (32768 + 8 * e.1)).foldl (· ||| ·) 0) ||| (p.fmt.toNat <<< 33340)

def planeOf (x : Nat) : Plane :=
  { fmt := BitVec.ofNat 4 (x >>> 33340)
    scale := (List.range 64).filterMap fun i => let y := BitVec.ofNat 8 (x >>> (32768 + 8 * i)); if y = 0#8 then none else some (i, y)
    elem := (List.range 2048).filterMap fun i => let y := BitVec.ofNat 16 (x >>> (16 * i)); if y = 0#16 then none else some (i, y) }

/-! The image. -/

def imageBytes : Nat := 0x1A8000

/-- STATE of R366. -/
def Core.imageState (c : Core) : Nat := if !c.running then 0 else if c.fwm then 2 else 1

/-- Entries of the landing queue, those still in flight on a running core included. -/
def Core.landing (c : Core) : List Pending := if c.fwm then c.lq else c.lq ++ c.pend

def Core.header (c : Core) : BitVec 512 :=
  0#64 ++ c.rseq ++ (if c.running then c.regs.fireid else 0#64) ++ 0x001A8000#32 ++ c.region ++ 0#184 ++ BitVec.ofNat 8 (min 16 c.faults.length)
    ++ BitVec.ofNat 8 c.landing.length ++ (0#4 ++ c.slot) ++ BitVec.ofNat 8 c.imageState ++ 0#8 ++ 0x0001#16 ++ 0x4B57#16

/-- A yield frame (R365). -/
def Frame.sects (o : Nat) (fr : Frame) : List (Nat × Nat × Nat) :=
  let r := fr.regs
  [(o, 256, regS r), (o + 0x100, 64, regK r), (o + 0x140, 256, regN r), (o + 0x240, 64, regL r 0 0),
   (o + 0x280, 3, pack 8 [r.fpmode.toNat, r.fpstat.toNat, r.prio.toNat]), (o + 0x2C0, 32, regT r.tc), (o + 0x2E0, 8704, regV r),
   (o + 0x24E0, 256, pack 128 (fr.watches.map Watch.nat)), (o + 0x25E0, 512, pack 256 (fr.faults.map (Deferred.nat r.pc)))]

def Frame.read (m : Memory) (o : Nat) (fid : W64) (pc : Addr) (created : Bool) : Frame :=
  { regs := { readRegs m o (o + 0x100) (o + 0x140) (o + 0x240) (o + 0x2C0) (o + 0x2E0) with
      fpmode := BitVec.ofNat 3 (rdN m (o + 0x280) 1), fpstat := BitVec.ofNat 5 (rdN m (o + 0x281) 1), prio := BitVec.ofNat 3 (rdN m (o + 0x282) 1)
      fireid := fid, pc := pc, created := created }
    watches := (List.range 16).filterMap fun i => watchOf (rdN m (o + 0x24E0 + 16 * i) 16)
    faults := (List.range 16).filterMap fun i => deferredOf (rdN m (o + 0x25E0 + 32 * i) 32) }

/-- A LAUNCHR that is not done. -/
def Op.isLaunchr (o : Op) : Bool := match o.kind with | .launchr .. => true | _ => false

/-- The pending LAUNCHR of the image (R365): V, m, the firing, ra, nr. Of several the first issued (log 12). -/
def launchrNat (c : Core) : Nat :=
  match c.ops.find? Op.isLaunchr with
  | some o =>
    match o.kind with
    | .launchr ra nr => 1 + 256 * o.tc.toNat + 2 ^ 64 * o.fid.toNat + 2 ^ 128 * ra.toNat + 2 ^ 192 * nr.toNat
    | _ => 0
  | none => 0

/-- The image of a core (R365). -/
def Core.image (c : Core) : Memory :=
  let r := c.regs
  let stall := if c.fwm then c.savedStall else c.stallrem
  let div := if c.fwm then c.savedDiv else c.divrem
  sects
    ([(0, 64, c.header.toNat), (0x40, 256, regS r), (0x140, 64, regK r), (0x180, 256, regN r), (0x280, 64, regL r stall div),
      (0x2C0, 64, pack 8 [r.fpmode.toNat, r.fpstat.toNat, r.prio.toNat,
          (if c.lq.any Pending.var then 4 else 0) + (if c.hreq then 2 else 0) + (if c.fwm then 1 else 0), c.trapcause.toNat]
        + 2 ^ 64 * c.trappc.toNat + 2 ^ 128 * c.trapval.toNat + 2 ^ 192 * c.lrskip.toNat + 2 ^ 224 * c.round.toNat + 2 ^ 256 * c.stampCyc.toNat),
      (0x300, 128, pack 32 (c.exphist.toList.map BitVec.toNat)), (0x380, 32, regT r.tc),
      (0x3A0, 64, pack 64 (c.bankS.toList.map BitVec.toNat)), (0x3E0, 32, regT c.bankTc), (0x400, 8704, regV r),
      (0x2600, 36864, pack 4608 (c.landing.map Pending.nat)), (0xB600, 8192, pack 256 (c.ready.map fun e => e.bits.toNat))]
    ++ c.nframes.map (fun (p : Nat × List Name) => (0xD600 + 128 * p.1, 128, pack 128 (p.2.map BitVec.toNat)))
    ++ (c.yframes.map fun (p : Nat × Frame) => p.2.sects (0xF600 + 10240 * p.1)).flatten
    ++ c.tiles.map (fun (p : Nat × Tile) => (0x19600 + 160 * p.1, 160, p.2.nat))
    ++ (List.range 16).map (fun i => let t := c.slots.toList.getD i {}
        (0x23600 + 96 * i, 28, pack 32 (t.nextg.toNat :: t.arr.toList.map BitVec.toNat)))
    ++ [(0x23C00, 256, pack 128 (c.watches.map Watch.nat)),
        (0x23D00, 512, pack 256 ((c.faults.take 16).map (Deferred.nat (if c.fwm then c.trappc else r.pc)))),
        (0x23F00, 32, launchrNat c)]
    ++ c.windows.map (fun (p : Nat × WCell) => (0x24000 + 16 * p.1, 14, p.2.bits.toNat))
    ++ [(0x44000, 4168, c.wf.nat), (0x45048, 4168, c.ws.nat), (0x46090, 8, c.matmode.toNat)])
  ++ shiftMem 0x48000 c.bufW ++ shiftMem 0xA8000 c.bufA ++ shiftMem 0x168000 c.bufC

/-- What the image has no place for (log 12). -/
def Core.rest (c : Core) : Rest :=
  { pc := c.regs.pc, branch := c.branch, ending := c.ending, created := c.regs.created
    pend := if c.fwm then c.pend else []
    own := c.landing.map Pending.own, heldVar := c.heldVar, savedBranch := c.savedBranch
    frames := c.yframes.map fun (p : Nat × Frame) => (p.1, p.2.regs.pc, p.2.regs.created)
    entries := c.ready.map fun e => (e.names, e.faults)
    tiles := c.tiles.map fun (p : Nat × Tile) => (p.1, p.2.filler, p.2.dying, p.2.ovr, p.2.unbind)
    launches := (c.ops.filter Op.isLaunchr).map Op.restarted, faults := c.faults.drop 16, arrivals := c.arrivals
    stall := if c.fwm then c.stallrem else 0, div := if c.fwm then c.divrem else 0 }

/-- Status of an image whose lines could be read (R368); 0 where it is sound. -/
def imageStatus (c : Core) (m : Memory) : Nat :=
  let h : BitVec 512 := BitVec.ofNat 512 (rdN m 0 64)
  if h.extractLsb' 0 32 != 0x00014B57#32 || h.extractLsb' 288 32 != 0x001A8000#32 then 1
  else if h.extractLsb' 256 32 != c.region then 2
  else if 64 < (h.extractLsb' 56 8).toNat || 16 < (h.extractLsb' 64 8).toNat
      || (List.range 64).any (fun i => entryBad (rdN m (0x2600 + 576 * i) 576)) then 4
  else 0

/-- The ready queue read back, with its remainders in order. -/
def readReady (m : Memory) (rest : Rest) : List Ready :=
  ((List.range 256).filterMap fun i =>
    let b : BitVec 256 := BitVec.ofNat 256 (rdN m (0xB600 + 32 * i) 32)
    if b.getLsbD 255 then let e := rest.entries.getD i ([], []); some (readyOf b e.1 e.2) else none)

/-- The LAUNCHRs that start again (R369): the image's record first, with the PRIO that its issuer had as it issued it (12 R306), then
the others that the save met. An image without a remainder gives its issuer's PRIO. -/
def launchesOf (m : Memory) (rest : Rest) (prio : W64 → BitVec 3) (ser : Nat) : List Op :=
  let lr := rdN m 0x23F00 32
  let fid := BitVec.ofNat 64 (lr >>> 64)
  let head : List Op :=
    if lr % 2 = 1 then
      [{ kind := .launchr (BitVec.ofNat 64 (lr >>> 128)) (BitVec.ofNat 64 (lr >>> 192)), fid := fid, tc := BitVec.ofNat 4 (lr >>> 8)
         data := match rest.launches.head? with | some o => o.data | none => (prio fid).toNat }]
    else []
  (head ++ rest.launches.drop 1).zipIdx.map fun p => { p.1 with ser := ser + p.2 }

/-- The landing queue of an image. -/
def landingOf (m : Memory) (rest : Rest) : List Pending :=
  (List.range 64).filterMap fun i =>
    let x := rdN m (0x2600 + 576 * i) 576
    if x.testBit 63 then some { pendingOf x with own := rest.own.getD i false } else none

/-- A core as an image and its remainder give it (R368): the firing's clock, or firmware, goes on as STATE says; a STATE above 2, which no rule names, as
1 does (log 12). -/
def Core.restored (m : Memory) (rest : Rest) (c : Core) : Core :=
  let h : BitVec 512 := BitVec.ofNat 512 (rdN m 0 64)
  let st := (h.extractLsb' 40 8).toNat
  let fw := st == 2
  let ready := readReady m rest
  let b (o : Nat) : Nat := rdN m o 1
  let lq := landingOf m rest
  let regs : Regs := { readRegs m 0x40 0x140 0x180 0x280 0x380 0x400 with
    fpmode := BitVec.ofNat 3 (b 0x2C0), fpstat := BitVec.ofNat 5 (b 0x2C1), prio := BitVec.ofNat 3 (b 0x2C2)
    fireid := h.extractLsb' 320 64, created := rest.created, pc := rest.pc }
  let prio (f : W64) : BitVec 3 := match ready.find? fun e => e.kind == .yielded && e.fid == f with | some e => e.prio | none => regs.prio
  let launch := launchesOf m rest prio c.nextSer
  let slots := Vector.ofFn fun (i : Fin 16) =>
    { c.slots[i] with
      nextg := BitVec.ofNat 24 (rdN m (0x23600 + 96 * i.val) 4)
      arr := Vector.ofFn fun (k : Fin 6) => BitVec.ofNat 32 (rdN m (0x23604 + 96 * i.val + 4 * k.val) 4) }
  { c with
    regs := regs, running := st != 0, slot := h.extractLsb' 48 4, fwm := fw, ending := rest.ending, frozen := 0
    branch := rest.branch, savedBranch := rest.savedBranch, savedFetchb := false
    stallrem := if fw then rest.stall else b 0x298, divrem := if fw then rest.div else b 0x299
    savedStall := if fw then b 0x298 else 0, savedDiv := if fw then b 0x299 else 0
    pend := if fw then rest.pend ++ runOn ((lq ++ rest.heldVar).filter Pending.own) else runOn (lq ++ rest.heldVar)
    lq := if fw then lq.filter fun p => !p.own else []
    heldVar := if fw then rest.heldVar.filter fun p => !p.own else []
    tcd := [], fbuf := [], fetchb := false, imageErr := false, wdFrozen := 0, wdHeld := 0
    bankS := Vector.ofFn fun i => BitVec.ofNat 64 (rdN m (0x3A0 + 8 * i.val) 8)
    bankTc := Vector.ofFn fun i => if i.val = 0 then 0#16 else BitVec.ofNat 16 (rdN m (0x3E0 + 2 * i.val) 2)
    faults := ((List.range 16).filterMap fun i => deferredOf (rdN m (0x23D00 + 32 * i) 32)) ++ rest.faults
    watches := (List.range 16).filterMap fun i => watchOf (rdN m (0x23C00 + 16 * i) 16)
    trapcause := BitVec.ofNat 6 (b 0x2C4), trappc := BitVec.ofNat 56 (rdN m 0x2C8 7), trapval := BitVec.ofNat 64 (rdN m 0x2D0 8)
    lrskip := BitVec.ofNat 32 (rdN m 0x2D8 4), round := BitVec.ofNat 32 (rdN m 0x2DC 4), stampCyc := BitVec.ofNat 32 (rdN m 0x2E0 4)
    exphist := Vector.ofFn fun i => BitVec.ofNat 32 (rdN m (0x300 + 4 * i.val) 4)
    rseq := h.extractLsb' 384 64, darn := [], gcache := [], istore := [], ifill := [], ifault := []
    ready := ready, rdyseq := ready.foldl (fun x e => if (x - e.rdyseq).slt 1#32 then e.rdyseq + 1#32 else x) c.rdyseq
    nframes := (ready.filter fun e => e.kind == .spawn).foldl (fun fs e =>
      insert e.nfr.toNat ((List.range 8).map fun i => BitVec.ofNat 96 (rdN m (0xD600 + 128 * e.nfr.toNat + 16 * i) 12)) fs) []
    yframes := (ready.filter fun e => e.kind == .yielded).foldl (fun fs e =>
      let k := findD e.yfr.toNat (0#56, false) rest.frames
      insert e.yfr.toNat (Frame.read m (0xF600 + 10240 * e.yfr.toNat) e.fid k.1 k.2) fs) []
    tiles := (List.range 256).filterMap fun i =>
      let t := tileFrom (rdN m (0x19600 + 160 * i) 152) (findD i (.none, false, false, false) rest.tiles)
      if t.state == .empty then none else some (i, t)
    slots := slots
    windows := (List.range 8192).filterMap fun i =>
      let x := rdN m (0x24000 + 16 * i) 14
      if x = 0 then none else some (i, WCell.ofBits (BitVec.ofNat 112 x))
    wf := planeOf (rdN m 0x44000 4168), ws := planeOf (rdN m 0x45048 4168), matmode := BitVec.ofNat 10 (rdN m 0x46090 2)
    bufW := cutMem 0x48000 0x60000 m, bufA := cutMem 0xA8000 0xC0000 m, bufC := cutMem 0x168000 0x40000 m, badWord := []
    ops := (c.ops.filter fun o => !o.isLaunchr) ++ launch, nextSer := c.nextSer + launch.length }

/-- A core restored from an image: firmware's results that were due with CTXSV's own tick stand. -/
def Core.restore (m : Memory) (rest : Rest) (c : Core) : Core :=
  let k := c.restored m rest
  if k.fwm then k.landDue else k

end Sys2Proof.Machine
end

