-- ==== Sys2Proof/Machine/Context.lean ====
section
/-! DEFINITION. Saving and restoring cores, pre-emption, core failure, hand-over (14_traps_and_context R361 to R374, 10 R256, 21
R468, 08 R203). -/

namespace Sys2Proof.Machine

/-! Moving an image between a core and memory. -/

/-- Lines of an image. -/
def imageLines : Nat := 27136

/-- Key of the remainder of an image. -/
def restKey (reg ia : Nat) : Nat := 2 ^ 56 * reg + ia

/-- One line of an image is written at wafer scope; once a line has failed, none is. The second part counts the lines written. -/
def writeLine (reg ia : Nat) (m : Memory) (x : State × Nat × Option Cause) (i : Nat) : State × Nat × Option Cause :=
  let va := ia + 64 * i
  if x.2.2.isSome then x
  else if 2 ^ 56 ≤ va then (x.1, x.2.1, some .globalXlate)
  else
    let s := cacheLeaf x.1 reg va
    match agentWrite s reg va 64 (2 ^ 64 - 1) (rdN m (64 * i) 64) with
    | .ok s => (s, x.2.1 + 1, none)
    | .error c => (s, x.2.1, some c)

/-- The image's bytes are written line by line; the first line that fails stops it. -/
def writeImage (reg ia : Nat) (m : Memory) (s : State) : State × Nat × Option Cause :=
  (List.range imageLines).foldl (writeLine reg ia m) (s, 0, none)

/-- The translations of the first n lines of an image are cached as they are read (08 R203). -/
def cacheImage (reg ia n : Nat) (s : State) : State := (List.range n).foldl (fun s i => cacheLeaf s reg (ia + 64 * i)) s

/-- A line of an image lies in the host window. -/
def hostImage (ia : Nat) : Bool := isHost ia || isHost (ia + 64 * (imageLines - 1))

/-- Line i of an image as read at its agent. -/
def imageLine (s : State) (reg ia i : Nat) : Option Memory :=
  let va := ia + 64 * i
  if 2 ^ 56 ≤ va then none
  else match agentRead s reg va 64 .read with
    | .ok x => some (wrN [] (64 * i) x 64)
    | .error _ => none

/-- The image's bytes as read at the agents. -/
def readImage (s : State) (reg ia : Nat) : Option Memory := ((List.range imageLines).mapM (imageLine s reg ia)).map List.flatten

/-- A core's own cached bytes of the image's first n lines leave its cache, as a wafer-scope store's do. -/
def dropLines (ia n : Nat) (c : Core) : Core :=
  { c with gcache := c.gcache.filter fun p => !(decide (ia / 64 ≤ p.1) && decide (p.1 < ia / 64 + n)) }

/-- CTXSV's operation on the core in focus (R367): image, wafer release. `k` is the core the image shows. Where a line fails, the lines before
it have been written. -/
def saveAt (reg ia : Nat) (k : Core) (s : State) : State × Option Cause :=
  if !k.badWord.isEmpty || (k.imageErr && hostImage ia) then (s.onCore fun c => { c with imageErr := false }, some .poison)
  else
    match writeImage reg ia k.image s with
    | (u, n, some c) => (u.onCore fun c => { dropLines ia n c with imageErr := false }, some c)
    | (u, n, none) =>
      (waferRelease { u.onCore (fun c => { dropLines ia n c with imageErr := false }) with resume := insert (restKey reg ia) k.rest u.resume }, none)

/-- The remainder of an image; where no save has left one, the address to go on at is free (log 12). -/
def restAt (s : State) (reg ia : Nat) : Rest :=
  (find? (restKey reg ia) s.resume).getD { pc := Config.freeBits 56 s.fresh }

/-- The header of an image that a core loads. -/
def imageHead (reg ia : Nat) (c : Core) (s : State) : Option Memory :=
  if c.imageErr && hostImage ia then none else imageLine s reg ia 0

/-- CTXLD's operation (R368): the status, or the restored core. Status 1 and 2 need the header alone. -/
def loadAt (reg ia : Nat) (c : Core) (s : State) : Nat ⊕ Core :=
  match imageHead reg ia c s with
  | none => .inl 3
  | some h =>
    let st := imageStatus c h
    if st = 1 ∨ st = 2 then .inl st
    else
      match readImage s reg ia with
      | none => .inl 3
      | some m =>
        let st := imageStatus c m
        if st ≠ 0 then .inl st else .inr (c.restore m (restAt s reg ia))

/-- How many lines of an image a core's load reads: the header alone where that fails or is refused, else up to the first line that fails. -/
def loadLines (reg ia : Nat) (c : Core) (s : State) : Nat :=
  match imageHead reg ia c s with
  | none => 1
  | some h =>
    if imageStatus c h = 1 ∨ imageStatus c h = 2 then 1
    else (((List.range imageLines).find? fun i => (imageLine s reg ia i).isNone).map (· + 1)).getD imageLines

/-- The translations that a core's load of an image uses are cached, whether or not the load succeeds (08 R203). -/
def cacheLoad (reg ia : Nat) (c : Core) (s : State) : State := cacheImage reg ia (loadLines reg ia c s) s

/-- The checks of CTXSV and CTXLD (R367). -/
def imageChecks (s : State) (x : W64) : List Check :=
  [{ bad := !s.core.fwm, cause := .privilege }, alignCheck x 4096, addrCheck x]

/-- The core that CTXSV's image shows: as the bundle issued (R367), with the address of the bundle in sequence to go on at and one tick less to
run for what is in flight (log 15). -/
def State.atIssue (s : State) : Core :=
  let c := s.issue.core0.getD s.core
  let c := { c.count with stallrem := s.issue.stall.toNat }
  { c with regs := { c.regs with pc := (c.loopStep (nextPc s)).regs.pc } }

/-- CTXSV: the image shows the core as it stood at issue, and a restore goes on at the next bundle. Its wafer release
needs every earlier global access performed (09 R229), for which the bundle waits. Queued matrix commands do not hold it, and are in no
image: the spec speaks of the save sequence alone (06 R153; log 64). A poisoned word of a buffer faults as it is read (07 R170; log 67),
and a fault on the image is a double fault. -/
def execCtxsv (a : Reg) (s : State) : Out :=
  let x := sreg s a
  .next (guarded (imageChecks s x) (fun s =>
    if !s.issue.commit then waitFor (!allPerformed s.core.ops s.core.regs.fireid) 4 id s
    else
      match saveAt (regionOf s) x.toNat s.atIssue s with
      | (s', none) => { s' with issue := { s'.issue with savedKey := some (restKey (regionOf s) x.toNat) } }
      | (s', some c) => raise c s') s)

/-- CTXLD: on success the core is what the image says, once the later slots, whose operands are read at issue, have acted (02 R47), and no
instruction of its bundle decides the next; otherwise S[d] receives the status. -/
def execCtxld (d a : Reg) (s : State) : Out :=
  let x := sreg s a
  let p (st : Nat) : Pending := { rem := 1, put := .s d (BitVec.ofNat 64 st) }
  .next (guarded ({ bad := !s.core.fwm, cause := .privilege } :: collision (p 0) s :: imageChecks s x) (fun s =>
    if !s.issue.commit then { s with issue := { s.issue with claims := s.issue.claims ++ [p 0] } }
    else
      let r := loadAt (regionOf s) x.toNat s.core s
      let s := (cacheLoad (regionOf s) x.toNat s.core s).onCore fun c => { c with imageErr := false }
      match r with
      | .inl st => launchResult (p st) s
      | .inr k =>
        let c := s.core
        { s with core := { k with regs := c.regs, bankS := c.bankS, bankTc := c.bankTc, fwm := c.fwm }, fresh := s.fresh + 1
                 issue := { s.issue with loaded := some k } }) s)

/-! The save sequence and pre-emption (R361, R364, R369). -/

/-- A core's number in its region, row-major. -/
def Region.number (s : State) (r : Region) (code : Nat) : Nat :=
  let (x, y) := gridOf s code
  (x - r.orgc) + (y - r.orgr) * r.w

/-- A core's save area (R364). -/
def Region.saveArea (s : State) (r : Region) (code : Nat) : Nat := r.saveva + imageBytes * r.number s code

/-- Everything that the collect stage waits for is done. It does not wait for a LAUNCHR in phase 1, which is abandoned, for an ICINV,
since the instruction store is not saved, or for an edge command that stands before a full block queue. No reservation is held here. -/
def collected (s : State) : Bool :=
  let c := s.core
  c.resv.isEmpty && (c.ops.all fun o => match o.kind with
    | .launchr .. => o.next == 0
    | .icinv _ => true
    | .ecfg p _ | .ego p _ => decide (8 ≤ (findD p {} s.blocks).queue.length)
    | _ => false) && c.matq.isEmpty && (c.tiles.all fun p => !p.2.delivering)
    && (s.net.all fun t => !(t.src == s.cur && t.msg.homeward && !t.gone && t.fid != BitVec.allOnes 64))

/-- Sets the directory state of a core's tasks. -/
def setTasks (reg code : Nat) (w : TaskWhere) (s : State) : State :=
  s.onRegion reg fun r =>
    { r with dir := r.dir.map fun (p : Nat × DirEntry) => if p.2.core = code then (p.1, { p.2 with state := w }) else p }

/-- Cores of a region that pre-emption has still to save. -/
def unsaved (s : State) (r : Region) : List Nat :=
  (r.cores s).filter fun n => match (s.coreAt n).halt with | .region true | .failed | .reset => false | _ => true

/-- SAVE_SEQUENCE on the core in focus, stopped by a halt or by HALTC: collect, save, mark (R364). A firing that can retire does so
first (01 R31). A fault on the image ends the
region with FAILED (R367). -/
def execSaveSequence (s : State) : Out :=
  let reg := regionOf s
  let r := s.region reg
  let stopped := match s.core.halt with | .region false | .report _ _ => true | _ => false
  .next (
    if stopped && collected s && !mayEnd s && r.live && (r.cores s).contains s.cur then
      match saveAt reg (r.saveArea s s.cur) s.core.applyTc s with
      | (s, some _) => endRegion reg 0x03 s
      | (s, none) =>
        let s := (setTasks reg s.cur .saved s).onCore fun c => { c with halt := .region true, ops := c.ops.filter fun o => match o.kind with | .icinv _ => false | _ => true }
        if (s.region reg).phase == .halting && (unsaved s (s.region reg)).isEmpty then
          s.onRegion reg fun r => { r with phase := .saved }
        else s
    else s)

/-- PREEMPT_HALT (17 R438): accepted with a running region; slots flush, shadow loads of its blocks are abandoned (11 R294,
14 R370). -/
def execPreemptHalt (s : State) : Out :=
  let q := inp s 0
  if 15 < q then .fault .noSuchItem
  else .next (
    if (s.region q).phase == .running then
      let s := flushRegion (s.onRegion q fun r => { r with phase := .halting }) q
      { s with blocks := s.blocks.map fun (p : Nat × Block) =>
          if p.2.owner = some q then (p.1, { p.2 with shadow := none, load := [], loadBad := [], malformed := false }) else p }
    else s)

/-- Barrier completions that fell due at a core while it was saved are delivered (13 R336). -/
def takeNotices (code : Nat) (s : State) : State :=
  s.notices.foldl (fun s n =>
    if n.core = code then
      match s.notices.findIdx? fun e => e == n with
      | some j => takeNotice j n s
      | none => s
    else s) s

/-- Token increments that came while a core's image stood saved are made (R369). -/
def Core.payOwed (c : Core) : Core := c.owed.foldl (fun c t => c.landVar t.1 t.2.1 .none 0#5 t.2.2) { c with owed := [] }

/-- The core of a saved image goes on at a core: image, token increments, directory, completions (R369, steps 1 to 6). None where the image
is refused. -/
def resumeCore (reg ia code : Nat) (s : State) : Option State :=
  match loadAt reg ia (s.coreAt code) s with
  | .inl _ => none
  | .inr k =>
    let s := (cacheLoad reg ia (s.coreAt code) s).setCoreAt code { k.payOwed with halt := .no, hreq := false, moving := false }
    some (takeNotices code (setTasks reg code .resident { s with fresh := s.fresh + 1 }))

/-! Standing subscriptions and the binding of tasks. -/

/-- Subscription tokens of a task slot's patterns leave a core's router (10 R260). -/
def installSubs (reg code : Nat) (ts : TaskSlot) (s : State) : State :=
  let sp := (s.region reg).space
  (ts.subs.zipIdx).foldl (fun s p =>
    s.send { region := reg, loc := code, src := code, gone := true
             msg := .sub ts.task.toNat p.2 (p.1.pname sp) p.1.pmask false }) s

def removeSubs (reg code : Nat) (ts : TaskSlot) (s : State) : State :=
  let sp := (s.region reg).space
  (ts.subs.zipIdx).foldl (fun s p =>
    s.send { region := reg, loc := code, src := code, gone := true
             msg := .unsub ts.task.toNat p.2 (p.1.pname sp) p.1.pmask }) s

/-- A task's standing subscriptions leave a core for another, to which copies that still come there are redirected (10 R256, 21 R469). -/
def noteLeft (reg from_ dst : Nat) (ts : TaskSlot) (s : State) : State :=
  let task := ts.task.toNat
  s.onRegion reg fun r => { r with
    left := r.left.filter (fun x => !(x.2.1 == task && (x.1 == dst || x.1 == from_)))
      ++ ts.subs.zipIdx.map fun p => (from_, task, p.2, p.1.pname r.space, p.1.pmask) }

/-- A task slot as the loader binds it (01 R21, R22). -/
def Region.bound (r : Region) (task : Nat) : TaskSlot :=
  match r.templates.find? fun t => decide (t.first ≤ task) && decide (task < t.first + t.count) with
  | some t =>
    { task := BitVec.ofNat 16 task, kernel := t.kernel, prio := t.prio, fpmode := t.mode, subs := t.subs.getD (task - t.first) [] }
  | none => {}

/-- Arrivals of a task that have reached its node: its ARR without the BARs still on their way. -/
def reached (s : State) (scope : Nat) (e : DirEntry) : BitVec 32 :=
  let c := s.coreAt e.core
  let ts := c.slots[e.slot.toNat]'e.slot.isLt
  let away := c.ops.filter fun o => fidTask o.fid == ts.task && (match o.kind with | .bar x _ _ => x == scope | _ => false)
  ts.arr[scopeIx scope] - BitVec.ofNat 32 away.length

/-- A node as the members' arrivals give it, counted from an instance: an instance is complete once every member has arrived (13
R330). -/
def nodeFrom (s : State) (reg scope unit : Nat) (inst : BitVec 32) : Node :=
  let ds := (membersOf s reg scope unit).map fun e => (reached s scope e - inst).toInt.toNat
  let least := ds.foldl Nat.min (ds.headD 0)
  { inst := inst + BitVec.ofNat 32 least, cur := (ds.filter (least < ·)).length, nxt := (ds.filter (least + 1 < ·)).length
    later := ds.flatMap fun d => ((List.range d).filter (least + 2 ≤ ·)).map fun k => inst + BitVec.ofNat 32 (k + 1) }

/-- The slots of a core take a unit's count of completed instances. -/
def Core.setInst (x : Nat) (inst : BitVec 32) (mine : Nat → Bool) (c : Core) : Core :=
  { c with slots := Vector.ofFn fun (i : Fin 16) =>
      if mine i.val then { c.slots[i] with inst := c.slots[i].inst.set (scopeIx x).val inst (scopeIx x).isLt } else c.slots[i] }

/-- The nodes of the units that tasks leave and come to are counted anew, and tested; the slots that moved take the new unit's count, and the
members learn the outcome (13 R336; log 45). -/
def moveBarriers (reg from_ dst : Nat) (mine : Nat → Bool) (s : State) : State :=
  if (s.region reg).lost then s
  else
    [1, 2, 3].foldl (fun s x =>
      let u := unitOf s x from_
      let v := unitOf s x dst
      if u == v then s
      else
        let s := [u, v].foldl (fun s w =>
          let n := nodeFrom s reg x w (findD (nodeKey x w) {} (s.region reg).nodes).inst
          notify reg x w n.inst (s.onRegion reg fun r => { r with nodes := insert (nodeKey x w) n r.nodes })) s
        s.setCoreAt dst ((s.coreAt dst).setInst x (findD (nodeKey x v) {} (s.region reg).nodes).inst mine)) s

/-- What is still to count at firings of a core's tasks, and what its blocks know of them, follows them to another core: the token of a record
not yet written (14 R358), edge commands and periods. -/
def retarget (reg : Nat) (place : Nat → W64 → Nat) (s : State) : State :=
  let rec_ (x : Staged) : Staged := { x with tok := x.tok.map fun t => (place t.1 t.2.1, t.2) }
  let s := s.onQueue reg fun e => { e with staged := e.staged.map rec_, waiting := e.waiting.map rec_ }
  { s with blocks := s.blocks.map fun (p : Nat × Block) => if p.2.owner = some reg then
      (p.1, { p.2 with ownerCore := place p.2.ownerCore p.2.ownerFid, queue := p.2.queue.map fun (k : EdgeCmd) => { k with core := place k.core k.fid } }) else p }

/-! Core save (21 R468). -/

/-- No task is bound at the core. -/
def Core.vacant (c : Core) : Bool := c.slots.toList.all fun t => t.task = 0xFFFF#16

/-- A saved core's work goes on at another core without tasks: owners and bindings as the loader set them, the image, the completions
that fell due, the directory by hand-over (R256), subscriptions reinstalled; what waits at the old router for the core, and its edge
commands still on their way, follow. -/
def moveCore (reg from_ dst ia : Nat) (s : State) : Option State :=
  let s := takeNotices dst s
  let old := s.coreAt from_
  let new := s.coreAt dst
  let due := s.notices.filter fun n => n.region == reg && n.core == from_
  let k : Core := { new with slots := old.slots, owners := old.owners, arrivals := old.arrivals, owed := old.owed, ops := new.ops ++ old.ops }
  match loadAt reg ia k s with
  | .inl _ => none
  | .inr k =>
    let tasks := old.slots.toList.filter fun t => t.task != 0xFFFF#16
    let s := (cacheLoad reg ia new s).setCoreAt dst (due.foldl (fun c n => c.noticed n) { k.payOwed with halt := .no, hreq := false, moving := false })
    let s := s.setCoreAt from_ { old.vacate with owners := Vector.replicate 5 none, tiles := [], halt := .no }
    let s := { s with
      fresh := s.fresh + 1
      net := s.net.map fun (t : Token) => match t.msg with
        | .arrive .. => if t.region = reg ∧ t.loc = from_ then { t with loc := dst } else t
        | _ => t }
    let s := s.onRegion reg fun r => { r with dir := r.dir.map fun (p : Nat × DirEntry) =>
      if p.2.core = from_ then (p.1, { p.2 with core := dst, state := .resident, epoch := p.2.epoch + 1#16 }) else p }
    let s := tasks.foldl (fun s t => noteLeft reg from_ dst t (installSubs reg dst t (removeSubs reg from_ t s))) s
    some (retarget reg (fun c _ => if c = from_ then dst else c) (moveBarriers reg from_ dst (fun _ => true) s))

/-- A saved core's work goes on at the same core, by hand-over too (21 R468, step 3). -/
def restoreHere (reg ia code : Nat) (s : State) : Option State :=
  (resumeCore reg ia code s).map fun s =>
    let tasks := (s.coreAt code).slots.toList.filter fun t => t.task != 0xFFFF#16
    let s := s.onRegion reg fun r => { r with dir := r.dir.map fun (p : Nat × DirEntry) =>
      if p.2.core = code then (p.1, { p.2 with epoch := p.2.epoch + 1#16 }) else p }
    tasks.foldl (fun s t => installSubs reg code t (removeSubs reg code t s)) s

/-- CORE_SAVE: on a running core the halt is sent; once its save sequence has run, the work goes on at the same core or at
`dest`, a core of the region without tasks. A region pre-empted meanwhile takes the restore as it resumes: its cores without tasks still stand
halted then. -/
def execCoreSave (s : State) : Out :=
  let reg := regionOf s
  let r := s.region reg
  let dest := inp s 0
  .next (
    if !(r.phase == .running || (r.phase == .resuming && s.core.moving)) || !(r.cores s).contains s.cur then s
    else
      match s.core.halt with
      | .no => s.onCore fun c => { c with hreq := true, moving := true }
      | .region true =>
        let ia := r.saveArea s s.cur
        let k := s.coreAt dest
        if dest = s.cur then (restoreHere reg ia s.cur s).getD (cacheLoad reg ia s.core s)
        else if (r.cores s).contains dest && k.vacant && !k.running && (k.halt == .no || (r.phase == .resuming && k.halt == .region true)) then
          (moveCore reg s.cur dest ia s).getD (cacheLoad reg ia k s)
        else s
      | _ => s)

/-! Hand-over (10 R256). -/

/-- The home index of a name. -/
def movesWith (s : State) (reg code index : Nat) (n : Name) : Bool := homeIndex s reg code n == index

/-- Steps 1 and 2 for a home: HO is set in every copy of the entry, so that new requests wait where they resolve it; the reduction slots
of its names flush (11 R287). -/
def beginHome (reg index : Nat) (e : HomeEntry) (s : State) : State :=
  let s := s.onRegion reg fun r => { r with home := insert index { e with ho := true } r.home }
  let s := ((s.region reg).cores s).foldl (fun s c => s.onRouter c fun r =>
    { r with homeCopy := r.homeCopy.map fun (p : Nat × HomeEntry) => if p.1 = index then (p.1, { p.2 with ho := true }) else p }) s
  flushNames (fun n => regionOfName s n == reg && movesWith s reg e.router index n) s

/-- Step 4 for a home: the new entry stands in every copy. -/
def endHome (reg index : Nat) (e : HomeEntry) (s : State) : State :=
  let s := s.onRegion reg fun r => { r with home := insert index e r.home }
  ((s.region reg).cores s).foldl (fun s c => s.onRouter c fun r => { r with homeCopy := erase index r.homeCopy }) s

/-- An airing entry's tile and entry come to a router. -/
def Router.takeAired (a : Router) (b : Router) (x : Aired) : Option Router :=
  if 256 ≤ b.airDir.length then none
  else (b.freeRun x.nl).map fun i =>
    Router.expire { b with air := wrN b.air (64 * i) (a.airBytes x) x.size, airDir := insertByName { x with line0 := i } b.airDir }

/-- A reduction entry comes to a router: a spilled one in place, another with its accumulators, in lines of the new router (11 R290). -/
def Router.takeRed (a : Router) (b : Router) (e : RedEntry) : Option Router :=
  if 1024 ≤ b.table.length + b.reds.length then none
  else if e.spill then some { b with reds := b.reds ++ [e] }
  else (b.freeRun e.nelem).map fun i =>
    { b with air := wrN b.air (64 * i) (rdN a.air (64 * e.place) (64 * e.nelem)) (64 * e.nelem), reds := b.reds ++ [{ e with place := i }] }

/-- A token on its way to a home that moves, or held there for want of room, is redirected, and so is a RESUB's withdrawal; an unsubscription
keeps to its subscription's path. -/
def Token.redirected (old dst : Nat) (here : Name → Bool) (t : Token) : Token :=
  match t.msg with
  | .unsub .. => t
  | m =>
    let t := match m with
      | .oneShot _ _ (some o) => if here o then { t with path := t.path.map fun h => if h = old then dst else h } else t
      | _ => t
    if t.dest = some old ∧ here m.name then { t with dest := some dst, here := false, held := false, counted := false } else t

/-- The path of a standing subscription that is redirected where it stands (10 R260). -/
def turnPath (dst : Nat) (t : Token) (m : Map (List Nat)) : Map (List Nat) :=
  match t.msg with
  | .sub task num _ _ _ => modify (subKey t.src task num) ([] : List Nat) (fun (l : List Nat) => l.dropLast ++ [t.loc, dst]) m
  | _ => m

/-- A home's state goes to its new router: airing entries with their lines, waits, direct subscriptions, reduction entries. What is on
its way to the old holder, or is held there for want of room, is redirected; a standing subscription held there leaves no count at
it. None where the new router has no room, or while the old holder still completes what it has accepted; where both are one, nothing
moves. -/
def moveHome (s : State) (reg index dst : Nat) (e : HomeEntry) : Option State :=
  let a := s.router e.router
  let here (n : Name) : Bool := movesWith s reg e.router index n
  let open_ := s.net.any fun t => t.region == reg && t.loc == e.router && here t.msg.name &&
    ((t.atHome && !t.held) || (match t.msg with | .fetch .. => true | _ => false))
  let shots := a.shots.filter fun x => here x.name
  let directs := a.directs.filter fun x => here x.2.2.1
  let b := s.router dst
  if open_ then none
  else if dst = e.router then some s
  else if 64 < b.shots.length + shots.length || 256 < b.directs.length + directs.length then none
  else do
    let b ← (a.airDir.filter fun x => here x.name).foldlM (Router.takeAired a) b
    let b ← (a.reds.filter fun x => here x.name).foldlM (Router.takeRed a) b
    let mine (t : Token) : Bool := t.region == reg && t.dest == some e.router && here t.msg.name
    let a' : Router := { a with
      airDir := a.airDir.filter (fun x => !here x.name), shots := a.shots.filter (fun x => !here x.name)
      directs := a.directs.filter (fun x => !here x.2.2.1), reds := a.reds.filter fun x => !here x.name }
    let a' := (s.net.filter fun t => mine t && t.here).foldl (fun r t =>
      match t.msg with | .sub _ _ n m false => if t.counted then r.uncount n m t.port else r | _ => r) a'
    let s := (s.setRouter e.router a').setRouter dst { b with shots := b.shots ++ shots, directs := b.directs ++ directs }
    let s := s.onRegion reg fun r => { r with subPath := (s.net.filter mine).foldl (fun m t => turnPath dst t m) r.subPath }
    some { s with net := s.net.map fun (t : Token) => if t.region = reg then t.redirected e.router dst here else t }

/-- Copies at a core's local port that are for a task go on as deliveries to the task, wherever it is. -/
def redirectCopies (reg task from_ slot : Nat) (s : State) : State :=
  let c := s.coreAt from_
  let split (t : Token) (p : Parcel) (todo : Option (List (Nat × Nat))) : List (Nat × Nat) × List (Nat × Nat) :=
    let ks := if t.region ≠ reg ∨ t.loc ≠ from_ then [] else todo.getD (c.reaches t p.name)
    (ks.filter fun k => k.1 == slot, ks.filter fun k => k.1 != slot)
  let marks := s.net.filterMap fun t => match t.msg with
    | .arrive p none => let k := split t p none; if k.1.isEmpty then none else some (t.pub, (k.1 ++ k.2).map c.subId)
    | _ => none
  let s := { s with net := s.net.flatMap fun (t : Token) => match t.msg with
      | .arrive p todo =>
        let k := split t p todo
        if k.1.isEmpty then [t]
        else (if k.2.isEmpty then [] else [{ t with msg := .arrive p (some k.2) }]) ++ k.1.map fun k => { t with msg := .give p task k.2 }
      | _ => [t] }
  marks.foldl (fun s m => s.giveMark m.1 m.2) s

/-- A task's state goes to another core's slot (12 R308, 13 R336): slot, ready entries, frames, delivery tiles with their bytes.
None while a firing of it runs or has work outstanding, while a barrier completion is on its way to either core, or where there is no
room. -/
def moveTask (s : State) (reg task dst : Nat) (slot : BitVec 4) (e : DirEntry) : Option State :=
  let s := (waferRelease (s.focus e.core)).focus s.cur
  let old := s.coreAt e.core
  let new := s.coreAt dst
  let ts := old.slots[e.slot.toNat]'e.slot.isLt
  let mine (f : W64) : Bool := (fidTask f).toNat == task
  let ents := old.ready.filter fun x => mine x.fid
  let tiles := (ts.subs.map fun p => (List.range p.depth).map (p.tile + ·)).flatten
  let busy := (old.running && mine old.regs.fireid) || old.resv.any (fun r => mine r.entry.fid) || old.ops.any (fun o => mine o.fid) || old.matq.any (fun o => mine o.fid)
    || tiles.any fun i => (old.tile i).delivering
  let made (x : Ready) : Bool := match x.kind with | .spawn | .record => true | .yielded => fidOrd x.fid != 0#24 | .subscription => false
  let room := (new.slots[slot.toNat]'slot.isLt).task == 0xFFFF#16 && decide (new.ready.length + new.resv.length + ents.length ≤ 256)
    && decide (new.poolUsed + ents.countP made ≤ 192)
    && decide (new.nframes.length + (ents.filter fun x => x.kind == .spawn).length ≤ 64)
    && decide (new.yframes.length + (ents.filter fun x => x.kind == .yielded).length ≤ 4)
    && (tiles.all fun i => (new.tile i).state == .empty &&
        let t := old.tile i
        new.tiles.all fun p => !p.2.touches t.buf t.base (64 * t.nl))
  if dst == e.core || busy || !room || s.notices.any (fun n => n.core == e.core || n.core == dst) then none
  else
    let new := tiles.foldl (fun (c : Core) i =>
      let t := old.tile i
      let bad := old.badWord.filter fun w => w.1 == t.buf.toNat && decide (t.base ≤ 8 * w.2) && decide (8 * w.2 < t.base + 64 * t.nl)
      let c := (c.setTile i t).store t.buf t.base (old.load t.buf t.base (64 * t.nl)) (64 * t.nl)
      { c with badWord := c.badWord ++ bad }) new
    let new : Core := { new with slots := new.slots.set slot.toNat ts slot.isLt
                                 arrivals := new.arrivals ++ old.arrivals.filter fun a => mine a.fid }
    let new := ents.foldl (fun (c : Core) x =>
      match x.kind with
      | .spawn =>
        let i := c.freeNameFrame.getD 0
        { c with nframes := insert i (findD x.nfr.toNat [] old.nframes) c.nframes }.addReady { x with slot := slot, nfr := BitVec.ofNat 6 i }
      | .yielded =>
        let i := c.freeYieldFrame.getD 0
        { c with yframes := insert i (findD x.yfr.toNat {} old.yframes) c.yframes }.addReady { x with slot := slot, yfr := BitVec.ofNat 2 i }
      | _ => c.addReady { x with slot := slot }) new
    let gone (x : Ready) : Bool := mine x.fid
    let old : Core := { old with
      slots := old.slots.set e.slot.toNat {} e.slot.isLt
      ready := old.ready.filter (fun x => !gone x)
      nframes := (ents.filter fun x => x.kind == .spawn).foldl (fun f x => erase x.nfr.toNat f) old.nframes
      yframes := (ents.filter fun x => x.kind == .yielded).foldl (fun f x => erase x.yfr.toNat f) old.yframes
      tiles := tiles.foldl (fun t i => erase i t) old.tiles
      arrivals := old.arrivals.filter fun a => !mine a.fid }
    let s := redirectCopies reg task e.core e.slot.toNat s
    let s := (s.setCoreAt e.core old).setCoreAt dst new
    let s := s.onRegion reg fun r => { r with dir := insert task { core := dst, slot := slot, epoch := e.epoch + 1#16 } r.dir }
    let s := moveBarriers reg e.core dst (· == slot.toNat) (noteLeft reg e.core dst ts (installSubs reg dst ts (removeSubs reg e.core ts s)))
    some (retarget reg (fun c f => if c = e.core && mine f then dst else c) s)

/-- The hand-over token of R256, step 2, goes to the old holder: where a wrong entry names one outside the region, it is dropped at the border
(01 R19), and the hand-over gets no further. -/
def tellHolder (reg dest old : Nat) (s : State) : State := if s.within reg old then s else refuseAtBorder s reg dest old 0#96 0

/-- HAND_OVER of a home-map entry (`home` 1) or of a task, to a router or core and slot. The first event sets HO, or STATE to
rebinding, so that new requests wait; a later one, once the old holder has completed what it had accepted, moves the state, writes the new
entry and ends the hand-over. -/
def execHandOver (s : State) : Out :=
  let reg := inp s 0
  let index := inp s 2
  let dest := inp s 3
  let r := s.region reg
  if 15 < reg then .fault .noSuchItem
  else .next (
    if !r.live || !(r.cores s).contains dest then s
    else if inp s 1 = 1 then
      match find? index r.home with
      | some e =>
        if !e.ho then tellHolder reg dest e.router (beginHome reg index e s)
        else if !s.within reg e.router then s
        else
          match moveHome s reg index dest e with
          | some s =>
            post (endHome reg index { e with ho := false, router := dest, epoch := e.epoch + 1#12 } s) reg (fromLeader s) 0x05
              (0#40 ++ (e.epoch + 1#12) ++ BitVec.ofNat 12 index) (0#32 ++ BitVec.ofNat 16 dest ++ BitVec.ofNat 16 e.router) true none none
          | none => s
      | none => s
    else
      match find? index r.dir with
      | some e =>
        match e.state with
        | .resident => tellHolder reg dest e.core (s.onRegion reg fun r => { r with dir := insert index { e with state := .rebinding } r.dir })
        | .rebinding => if !s.within reg e.core then s else (moveTask s reg index dest (BitVec.ofNat 4 (inp s 4)) e).getD s
        | _ => s
      | none => s)

/-! Core failure (R371, R372) and restart (R373). -/

/-- Dirty bytes of lines that the log does not name are written back; poison stays (R372, step 3). -/
def salvage (s : State) : State :=
  let bad := s.badLine
  let ls := s.core.dirtyLines.filter fun l => s.core.darn.all fun d => d.line != l
  { ls.foldl (fun s l => wbLine l s) s with badLine := bad }

/-- Held entries of the tensors become aired (R372, step 4, 10 R269). -/
def Router.airAll (ts : List (BitVec 20)) (r : Router) : Router :=
  { r with airDir := r.airDir.map fun a => if a.state == .held && ts.contains (nTensor a.name) then { a with state := .aired } else a }

/-- The core in focus is fenced and what its absence has broken is repaired; its darn log stays to be read (09 R232). Its log, and its
cache, may be unreadable; with `pf` the records go to the PF's queue too (17 R440). -/
def failCore (logOk cacheOk pf : Bool) (s : State) : State :=
  let reg := regionOf s
  let r := s.region reg
  let mine := (r.dir.filter fun p => p.2.core == s.cur && p.2.state != .lost).map Prod.fst
  if !(r.live && (r.cores s).contains s.cur) then s.onCore fun c => { c.vacate with halt := .failed, tiles := [], gcache := [] }
  else
    let s := setTasks reg s.cur .lost s
    let lines := (if logOk then (s.core.darn.map DarnEntry.line) else []).filter fun l => (homeLine s reg l).isSome
    let s := if cacheOk then salvage s else s
    let s := lines.foldl (poisonLine reg) s
    let s := { s with routers := s.routers.map fun (p : Nat × Router) =>
      if (r.cores s).contains p.1 && !mine.isEmpty then (p.1, p.2.airAll r.pubs) else p }
    let s := s.core.ops.foldl (fun s o => cancelResv s.cur o.ser s) s
    let s := s.onCore fun c => { c.vacate with halt := .failed, tiles := [], gcache := [] }
    -- what has not left the core's router is never sent (11 R294)
    let s := { s with net := s.net.filter fun t => !(t.region == reg && t.src == s.cur && t.msg.homeward && !t.gone && t.fid != BitVec.allOnes 64) }
    let s := s.onRegion reg fun r => { r with lost := r.lost || !mine.isEmpty }
    mine.foldl (fun s t =>
      (if pf then [reg, 16] else [reg]).foldl (fun s q =>
        post s q (fromReticle (reticleOf s.cur)) 0x02
          (0#30 ++ BitVec.ofBool cacheOk ++ BitVec.ofBool (!logOk) ++ BitVec.ofNat 16 mine.length ++ BitVec.ofNat 16 t)
          (0#16 ++ BitVec.ofNat 16 s.cur ++ BitVec.ofNat 32 lines.length) true none none) s) s

/-- CORE_FAILURE of the core in focus. Inputs: whether its log, and its cache, can be read. -/
def execCoreFailure (s : State) : Out := .next (failCore (inp s 0 != 0) (inp s 1 != 0) false s)

/-- The last instance that every member of a unit has arrived at. -/
def nodeBase (s : State) (reg scope unit : Nat) : BitVec 32 :=
  match (membersOf s reg scope unit).map (reached s scope) with
  | [] => 0#32
  | x :: l => l.foldl (fun m y => if (y - m).slt 0#32 then y else m) x

/-- Every node, and every slot's copy of INST, from the restored counts; arrivals at instances that those complete are counted. -/
def resetNodes (reg : Nat) (s : State) : State :=
  let r := s.region reg
  let cs := r.cores s
  let keys := ([1, 2, 3, 4, 5].map fun x => (nub (cs.map (unitOf s x))).map fun u => (x, u)).flatten
  let nodes := keys.foldl (fun m k => insert (nodeKey k.1 k.2) (nodeFrom s reg k.1 k.2 (nodeBase s reg k.1 k.2)) m) ([] : Map Node)
  let s := s.onRegion reg fun r => { r with nodes := nodes, lost := false }
  cs.foldl (fun s n =>
    let c := s.coreAt n
    let inst (x : Nat) : BitVec 32 := (findD (nodeKey x (unitOf s x n)) {} nodes).inst
    let c : Core := { c with slots := c.slots.map fun (ts : TaskSlot) =>
      if ts.task = 0xFFFF#16 then ts
      else { ts with inst := Vector.ofFn fun (x : Fin 6) => if x.val = 0 then ts.arr[x] else inst x.val } }
    s.setCoreAt n ([1, 2, 3, 4, 5].foldl (fun c x => c.settle x (inst x)) c)) s

/-- A core of the region is restored from its image of a checkpoint, at the same core or at the one its work is re-bound to. -/
def restoreCore (reg base : Nat) (target : Nat → Nat) (s : State) (n : Nat) : Option State :=
  let r := s.region reg
  let dst := target n
  let slots := Vector.ofFn fun (i : Fin 16) =>
    match r.dir.find? fun p => p.2.core == n && p.2.slot.toNat == i.val with
    | some p => r.bound p.1
    | none => {}
  let k : Core := { (s.coreAt dst).vacate with slots := slots, owners := (s.coreAt n).owners }
  match loadAt reg (base + imageBytes * r.number s n) k s with
  | .inl _ => none
  | .inr k =>
    let s := (cacheLoad reg (base + imageBytes * r.number s n) (s.coreAt dst) s).setCoreAt dst { k with
      halt := .no, hreq := false, owed := [], arrivals := (restAt s reg (base + imageBytes * r.number s n)).arrivals }
    some { s with fresh := s.fresh + 1 }

/-- CHECKPOINT_RESTART: every core of the region is restored from its image in the areas at `checkpoint` (log 16). Inputs: region,
checkpoint base address, then one core without tasks for each failed core in turn, to which its work is re-bound. -/
def execCheckpointRestart (s : State) : Out :=
  let reg := inp s 0
  let base := inp s 1
  if 15 < reg then .fault .noSuchItem
  else
    let r := s.region reg
    let cs := r.cores s
    let dead := cs.filter fun n => (s.coreAt n).halt == .failed && r.dir.any fun p => p.2.core == n
    let target (n : Nat) : Nat := match dead.findIdx? (· == n) with | some i => inp s (2 + i) | none => n
    let ok := dead.all fun n => cs.contains (target n) && (s.coreAt (target n)).vacant && (s.coreAt (target n)).halt != .failed
    .next (
      if !r.live || !r.lost || !ok then s
      else
        let work := cs.filter fun n => r.dir.any fun p => p.2.core == n
        let s1 := { s with net := s.net.filter (fun t => t.region != reg), notices := s.notices.filter fun n => n.region != reg }
        -- copies of the region's tables that a debug write has changed stand (20 R463)
        let s1 := (cs.foldl (fun s n => s.onRouter n fun r => { r.cleared with homeCopy := r.homeCopy, tensCopy := r.tensCopy }) s1).onRegion reg fun r => { r with subPath := [], left := [] }
        match work.foldlM (restoreCore reg base target) s1 with
        | none =>
          work.foldl (fun s n => cacheLoad reg (base + imageBytes * r.number s n) (s.coreAt (target n)) s) s
        | some s =>
          let s := s.onRegion reg fun r => { r with
            phase := .running
            dir := r.dir.map fun (p : Nat × DirEntry) =>
              (p.1, { p.2 with core := target p.2.core, state := .resident, epoch := if target p.2.core = p.2.core then p.2.epoch else p.2.epoch + 1#16 }) }
          let round := ((work.head?.map fun n => (s.coreAt (target n)).round).getD 0#32)
          let s := cs.foldl (fun s n => (s.setCoreAt n { s.coreAt n with round := round }).onRouter n fun r => { r with round := round }) s
          let s := resetNodes reg s
          (s.region reg).dir.foldl (fun s p => installSubs reg p.2.core ((s.coreAt p.2.core).slots[p.2.slot.toNat]'p.2.slot.isLt) s) s)

/-! Translation caches (08 R203). -/

/-- TRANSLATION_CACHE_INVALIDATE: the entries of a page of a region, 16 for firmware, go at every agent. -/
def execTranslationCacheInvalidate (s : State) : Out :=
  let reg := inp s 0
  let va := inp s 1
  if 16 < reg then .fault .noSuchItem
  else .next { s with tlb := s.tlb.filter fun t => !(t.region == reg && t.page == va >>> t.bits) }

end Sys2Proof.Machine
end

