-- ==== Sys2Proof/Machine/Permute.lean ====
section
/-! DEFINITION. Group 0x5: conversions, tags and permutes (05_vector_registers R127 to R130). -/

namespace Sys2Proof.Machine

/-- One element of VCVT (R127). Between equal formats every element keeps its value; a NaN, which has no value to keep but being a
NaN, gets the canonical code of round_fmt (log 61). -/
def cvtElem (src m : BitVec 4) (mode rw : Nat) (code : Nat) : Nat × Flags :=
  let w := tagWidth m
  if isF m then roundFmt (decodeElem src code) (fmtF m) mode rw
  else if isF src then
    let (y, fl) := roundInt (decodeElem src code) w mode rw
    (codeOf w y, fl)
  else
    (codeOf w (clampI (signedOf (tagWidth src) code) (-(2 ^ (w - 1) : Nat)) ((2 ^ (w - 1) : Nat) - 1)), 0#5)

/-- Elements 0 to 63 written by element index, the rest zero. -/
def first64 (m : BitVec 4) (k : W64) (old : VReg) (f : Nat → Nat × Flags) : VReg × Flags :=
  let w := regWidth m
  let rs := (List.range 64).map fun j => if k.getLsbD j then f j else (slice old.data.toNat w j, 0#5)
  ({ tag := m, scale := 0#64, data := packV w (rs.map Prod.fst) }, rs.foldl (fun a p => a ||| p.2) 0#5)

/-- VCVT: the one vector instruction with a random-word operand, read in mode 4 only. -/
def execVcvt (d a b : Reg) (k : KReg) (m : BitVec 4) (s : State) : Out :=
  let va := vreg s a
  let vb := vreg s b
  let ok := isF va.tag || va.tag == 1#4 || va.tag == 2#4 || va.tag == 12#4
  .next (vresult 4 d [] [{ bad := !ok, cause := .formatMismatch }]
    (first64 m (kreg s k) (vreg s d) fun j =>
      cvtElem va.tag m s.core.regs.fpmode.toNat (lane vb j) (elemCode va va.tag j)) s)

/-- VQMX: lanes 0 to 63 into blocks 0 and 1 (R128). -/
def execVqmx (d a : Reg) (m : BitVec 4) (s : State) : Out :=
  let va := vreg s a
  let q (h : Nat) : MxBlock := quantizeMx m ((List.range 32).map fun j => opndX va 3#4 (32 * h + j))
  let x := q 0
  let y := q 1
  .next (vresult 4 d [tagCheck 3#4 va] []
    ({ tag := m, scale := BitVec.ofNat 64 (x.scale + 256 * y.scale), data := packV 8 (x.e ++ y.e) }, x.fl ||| y.fl) s)

/-- Block scale i of a register. -/
def scaleOf (v : VReg) (i : Nat) : Nat := slice v.scale.toNat 8 i

/-- The description's own refusal of a source that is not tagged MX. -/
def needMx (v : VReg) : Check := { bad := !isMx v.tag, cause := .formatMismatch }

def execVdqmx (d a : Reg) (k : KReg) (m : BitVec 4) (s : State) : Out :=
  let va := vreg s a
  let h := m.toNat
  .next (vresult 4 d [] [needMx va]
    (first64 3#4 (kreg s k) (vreg s d) fun j =>
      dequantizeMx va.tag (scaleOf va (2 * h + j / 32)) (elemCode va va.tag (64 * h + j))) s)

/-- VSCL: sets or moves the block scales (R128). -/
def execVscl (d a b : Reg) (m : BitVec 4) (s : State) : Out :=
  let va := vreg s a
  let x := sreg s b
  let one (i : Nat) : Nat :=
    if m == 0#4 then slice x.toNat 8 i
    else if scaleOf va i == 0xFF then 0xFF
    else (clampI ((scaleOf va i : Int) + signedOf 8 (x.toNat % 256)) 0 0xFE).toNat
  .next (vresult 4 d [] [needMx va] ({ va with data := unpad va.tag va.data, scale := BitVec.ofNat 64 (pack 8 ((List.range 8).map one)) }, 0#5) s)

/-- VTAG: a new tag, no check; DATA is copied bit for bit, padding too, as R129 says of this instruction (log 18). -/
def execVtag (d a : Reg) (m : BitVec 4) (s : State) : Out :=
  .next (vresult 2 d [] [] ({ vreg s a with tag := m }, 0#5) s)

def execVgtag (d a : Reg) (m : BitVec 4) (s : State) : Out :=
  .next (sresult 2 d [] [] (if m == 0#4 then (vreg s a).tag.zeroExtend 64 else (vreg s a).scale) 0#5 s)

/-! Permutes (R130): every tag, a's tag kept. -/

/-- A permute under a predicate: lane l of the result from `f l`. -/
def permLanes (d a : Reg) (k : KReg) (f : Nat → Nat) (s : State) : State :=
  let va := vreg s a
  vresult 2 d [] [] (merge (kreg s k) (vreg s d) { va with data := packV 32 ((List.range 64).map f) }, 0#5) s

def execVperm (d a b : Reg) (k : KReg) (s : State) : Out :=
  .next (permLanes d a k (fun l => lane (vreg s a) (lane (vreg s b) l % 64)) s)

def execVshuf (d a b : Reg) (k : KReg) (s : State) : Out :=
  let va := vreg s a
  let by8 (v : VReg) (j : Nat) : Nat := slice v.data.toNat 8 j
  .next (vresult 2 d [] []
    (merge (kreg s k) (vreg s d)
      { va with data := packV 8 ((List.range 256).map fun j => by8 va (by8 (vreg s b) j)) }, 0#5) s)

def execVrot (d a b : Reg) (k : KReg) (s : State) : Out :=
  .next (permLanes d a k (fun l => lane (vreg s a) ((l + (sreg s b).toNat) % 64)) s)

def execVslide (d a b : Reg) (k : KReg) (m : BitVec 4) (s : State) : Out :=
  .next (permLanes d a k
    (fun l => let i := l + m.toNat
      if i < 64 then lane (vreg s a) i else lane (vreg s b) (i - 64)) s)

/-- VPACK: 64 elements of b into quarter h of a. A register tagged CXP is taken as 64 elements of 32 bits (log 62). -/
def execVpack (d a b : Reg) (m : BitVec 4) (s : State) : Out :=
  let va := vreg s a
  let vb := vreg s b
  let w := regWidth va.tag
  let h := m.toNat
  let els := (List.range (nelem va.tag)).map fun e =>
    if 64 * h ≤ e && e < 64 * h + 64 then slice vb.data.toNat w (e - 64 * h) else slice va.data.toNat w e
  let sc := (List.range 8).map fun i =>
    if isMx va.tag && (i == 2 * h || i == 2 * h + 1) then scaleOf vb (i - 2 * h) else scaleOf va i
  .next (vresult 2 d []
    [{ bad := vb.tag != va.tag && vb.tag != 0#4, cause := .formatMismatch },
     { bad := decide (nelem va.tag / 64 ≤ h), cause := .formatMismatch }]
    ({ tag := va.tag, scale := BitVec.ofNat 64 (pack 8 sc), data := unpad va.tag (packV w els) }, 0#5) s)

/-- VUNPK: quarter h of a into elements 0 to 63. -/
def execVunpk (d a : Reg) (m : BitVec 4) (s : State) : Out :=
  let va := vreg s a
  let w := regWidth va.tag
  let h := m.toNat
  let sc : Nat := if isMx va.tag then scaleOf va (2 * h) + 256 * scaleOf va (2 * h + 1) else va.scale.toNat
  .next (vresult 2 d []
    [{ bad := decide (nelem va.tag / 64 ≤ h) || va.tag == 13#4, cause := .formatMismatch }]
    ({ tag := va.tag, scale := BitVec.ofNat 64 sc
       data := unpad va.tag (packV w ((List.range 64).map fun e => slice va.data.toNat w (64 * h + e))) }, 0#5) s)

/-- Lanes whose selector bit is set, in ascending order. -/
def selected (k : W64) : List Nat := (List.range 64).filter fun l => k.getLsbD l

/-- Set bits of a mask below a lane. -/
def below (k : W64) (l : Nat) : Nat := popBits k.toNat l

def execVcmprs (d a : Reg) (k : KReg) (s : State) : Out :=
  let va := vreg s a
  .next (vresult 2 d [] []
    ({ va with data := unpad va.tag (packV 32 ((selected (kreg s k)).map (lane va))) }, 0#5) s)

def execVexpnd (d a : Reg) (k : KReg) (s : State) : Out :=
  let va := vreg s a
  let kk := kreg s k
  .next (vresult 2 d [] []
    ({ va with data := unpad va.tag (packV 32 ((List.range 64).map fun l =>
        if kk.getLsbD l then lane va (below kk l) else 0)) }, 0#5) s)

def execViota (d a : Reg) (k : KReg) (s : State) : Out :=
  let kk := kreg s k
  .next (vresult 2 d [] []
    ({ tag := 1#4, data := packV 32 ((List.range 64).map fun l => (sreg s a).toNat + below kk l) }, 0#5) s)

def execVextr (d a b : Reg) (m : BitVec 4) (s : State) : Out :=
  let x := lane (vreg s a) ((sreg s b).toNat % 64)
  .next (sresult 2 d [] [] (if m == 0#4 then BitVec.ofNat 64 x else BitVec.ofInt 64 (signedOf 32 x)) 0#5 s)

def execVins (d a b : Reg) (s : State) : Out :=
  let vd := vreg s d
  let i := (sreg s b).toNat % 64
  .next (vresult 2 d [] []
    ({ vd with data := unpad vd.tag (packV 32 ((List.range 64).map fun l => if l == i then (sreg s a).toNat else lane vd l)) }, 0#5) s)

end Sys2Proof.Machine
end

