-- ==== Sys2Proof/Machine/Edge.lean ====
section
/-! DEFINITION. Edge blocks: configuration images, streams and the run of one handler (15_edge_fabric R375 to R391). -/

namespace Sys2Proof.Machine

/-! The configuration image (R388 to R390). -/

def planeBytes : Nat := 0xA400
def planeHeader (m : Memory) : BitVec 512 := BitVec.ofNat 512 (rdN m 0 64)
def planeCname (m : Memory) : Name := (planeHeader m).extractLsb' 128 96
/-- The drain watchdog in net cycles (R389). -/
def planeDwd (m : Memory) : Nat :=
  let d := ((planeHeader m).extractLsb' 112 16).toNat
  1024 * if d = 0 then 64 else d

/-- Iteration counts, and the number of points. -/
def planeIter (m : Memory) (c : Nat) : Nat := ((planeHeader m).extractLsb' (64 + 10 * c) 10).toNat + 1
def planePoints (m : Memory) : Nat := planeIter m 0 * planeIter m 1 * planeIter m 2 * planeIter m 3
def planeBind (m : Memory) (i : Nat) : BitVec 256 := BitVec.ofNat 256 (rdN m (0x40 + 32 * i) 32)
def planeEntry (m : Memory) (e c : Nat) : W64 := BitVec.ofNat 64 (rdN m (0x400 + 128 * e + 8 * c) 8)
def planeLit (m : Memory) (e j : Nat) : BitVec 256 := BitVec.ofNat 256 (rdN m (0x2400 + 512 * e + 32 * j) 32)

def entryWord (x : W64) : Word := x.extractLsb' 0 32
def entryPri (x : W64) : Nat := fld x 59 4
/-- V = 1 and MASK = 0 (R380). -/
def entryRuns (x : W64) : Bool := x.getLsbD 63 && !x.getLsbD 58

def bindKind (b : BitVec 256) : Nat := (b.extractLsb' 192 2).toNat
def bindSize (b : BitVec 256) : Nat := (b.extractLsb' 200 16).toNat + 1
def bindName (b : BitVec 256) : Name := b.extractLsb' 0 96

/-- Coordinates of a point, i0 fastest (R393). -/
def pointCoord (m : Memory) (p c : Nat) : Nat :=
  match c with
  | 0 => p % planeIter m 0
  | 1 => p / planeIter m 0 % planeIter m 1
  | 2 => p / (planeIter m 0 * planeIter m 1) % planeIter m 2
  | _ => p / (planeIter m 0 * planeIter m 1 * planeIter m 2) % planeIter m 3

/-- A binding's name for a point and a generation (R394, R395). -/
def pointName (m : Memory) (b : BitVec 256) (p : Nat) (g : BitVec 24) : Name :=
  let n := bindName b
  let co (c : Nat) : BitVec 10 :=
    nCoord n c + (if b.getLsbD (196 + c) then BitVec.ofNat 10 (pointCoord m p c) else 0#10)
  nSpace n ++ nTensor n ++ co 3 ++ co 2 ++ co 1 ++ co 0 ++ g

/-! The check of an image (R391). -/

/-- The literal of a handler (R379). -/
def entryLit (m : Memory) (e : Nat) (x : W64) : BitVec 256 :=
  planeLit m e ((fld x 46 4 + (eL (entryWord x)).toNat) % 16)

/-- The neighbour, or the element itself, behind a destination code (R378). -/
def destElem (e code : Nat) : Option Nat :=
  match code with
  | 0x11 => if 8 ≤ e then some (e - 8) else none
  | 0x12 => if e % 8 < 7 then some (e + 1) else none
  | 0x13 => if e < 56 then some (e + 8) else none
  | 0x14 => if 1 ≤ e % 8 then some (e - 1) else none
  | 0x15 => some e
  | _ => none

/-- Literals that R384 and R385 refuse. -/
def litRefused (op : Nat) (l : BitVec 256) : Bool :=
  let f (lo w : Nat) : Nat := (l.extractLsb' lo w).toNat
  match op with
  | 0x01 => f 0 2 == 3
  | 0x02 => decide (4 ≤ f 4 3) || !(f 0 4 == 1 || f 0 4 == 2 || f 0 4 == 3 || f 0 4 == 4 || f 0 4 == 5 || f 0 4 == 12)
  | 0x03 => decide (f 0 4 < 6) || decide (11 < f 0 4)
  | 0x0C => decide (23 < f 0 5)
  | 0x14 => f 0 24 == 0
  | _ => false

/-- A handler entry breaks R378, R381, R382, R384, R385 or R386, or names a binding of the wrong kind. -/
def entryMalformed (m : Memory) (e c : Nat) : Bool :=
  let x := planeEntry m e c
  let w := entryWord x
  let op := (eOp w).toNat
  let dest (p : Nat) : Bool := p == 0x16 || (destElem e p).isSome
  x.extractLsb' 32 14 != 0#14 ||
    (x.getLsbD 63 &&
      ((decodeEdge w).all (fun i => !i.wf)
        || (op != 0x16 && op != 0x18 && (eA w).toNat != c)
        || (op != 0x17 && op != 0x19 && !dest (eD w).toNat) || !dest (eE w).toNat
        || litRefused op (entryLit m e x)
        || (op == 0x16 && bindKind (planeBind m (eA w).toNat) != 1)
        || (op == 0x17 && bindKind (planeBind m (eD w).toNat) != 2 && bindKind (planeBind m (eD w).toNat) != 3)))

/-- The image is malformed (R391). -/
def planeMalformed (sp : BitVec 12) (m : Memory) : Bool :=
  let h := planeHeader m
  let es := (List.range 64).flatMap fun e => (List.range 16).map fun c => (e, c)
  h.extractLsb' 0 64 != 0x0000A400_0001_4B45#64 || h.extractLsb' 104 8 != 0#8 || h.extractLsb' 224 288 != 0#288
    || nSpace (planeCname m) != sp
    || (List.range 16).any (fun i =>
        let b := planeBind m i
        b.extractLsb' 216 40 != 0#40 || b.extractLsb' 194 2 != 0#2 || b.extractLsb' 96 96 != 0#96
          || (bindKind b != 0 && nSpace (bindName b) != sp))
    || rdN m 0x240 448 != 0 || es.any (fun p => entryMalformed m p.1 p.2)
    || es.all (fun p => !((planeEntry m p.1 p.2).getLsbD 63 && (eOp (entryWord (planeEntry m p.1 p.2))).toNat == 0x15))
    || decide (2 ^ 20 < planePoints m)

/-! Tokens and streams (R376, R377). -/

/-- An error token (R376). -/
def errTok (elem op reason : Nat) (g : BitVec 24) : ETok :=
  { fmt := 0xF#4, gen := g, data := BitVec.ofNat 256 (elem + 256 * op + 65536 * reason) }
def ETok.isErr (t : ETok) : Bool := !t.eos && t.fmt == 0xF#4

def tokBytes (t : ETok) : List Nat := (List.range 32).map fun i => slice t.data.toNat 8 i

/-- Whole tokens of a byte string, and the bytes left over. -/
def cutToks (fmt : BitVec 4) : Nat → List Nat → List ETok × List Nat
  | 0, bs => ([], bs)
  | n + 1, bs =>
    if bs.length < 32 then ([], bs)
    else
      let r := cutToks fmt n (bs.drop 32)
      ({ fmt := fmt, data := BitVec.ofNat 256 (pack 8 (bs.take 32)) } :: r.1, r.2)

/-- All bytes as tokens, the last padded with zero bytes. -/
def allToks (fmt : BitVec 4) (bs : List Nat) : List ETok :=
  let r := cutToks fmt (bs.length / 32) bs
  if r.2.isEmpty then r.1 else r.1 ++ [{ fmt := fmt, data := BitVec.ofNat 256 (pack 8 r.2) }]

/-- Elements of a byte string. -/
def elemsOf (w : Nat) (bs : List Nat) : List Nat := (List.range (8 * bs.length / w)).map (slice (pack 8 bs) w)
def bytesOf (w : Nat) (es : List Nat) : List Nat := (List.range (w * es.length / 8)).map (slice (pack w es) 8)

/-! The run of a handler. -/

/-- What a handler works in: opcode, element, literal, DETMODE, period generation, point count, tag action, credits. -/
structure EEnv where
  op : Nat
  elem : Nat
  lit : BitVec 256
  det : Bool
  g : BitVec 24
  points : Nat
  taga : Nat
  room : Bool
deriving DecidableEq, Repr

/-- What a run does. -/
structure Act where
  popA : Bool := false
  popB : Bool := false
  hs : HState
  outA : List ETok := []
  outB : List ETok := []
  /-- error tokens that a SINK counts -/
  errs : Nat := 0
  halt : Option ETok := none
  /-- a whole stream at PUBN: its data tokens and its EOS -/
  stream : Option (List ETok × ETok) := none
deriving DecidableEq, Repr

/-- The tag action (R382): the GEN, and the reason of an error or 0. -/
def EEnv.tag (x : EEnv) (hs : HState) (g h : BitVec 24) : BitVec 24 × Nat :=
  match x.taga with
  | 1 => (g + 1#24, 0)
  | 2 => (x.g, 0)
  | 3 => match hs.last with
    | some l => if gdiff g l < 0 then (g, 3) else (g, 0)
    | none => (g, 0)
  | 4 => (x.lit.extractLsb' 0 24, 0)
  | 5 => (h, 0)
  | 6 => (x.g + BitVec.ofNat 24 (hs.streams % x.points), 0)
  | 7 => if h = g then (g, 0) else (g, 4)
  | _ => (g, 0)

def Act.push (b : Bool) (ts : List ETok) (a : Act) : Act := if b then { a with outB := a.outB ++ ts } else { a with outA := a.outA ++ ts }

/-- Emits tokens to A, or to B; an output that the tag action refuses is one error token (R382). -/
def EEnv.emit (x : EEnv) (b : Bool) (ts : List ETok) (g h : BitVec 24) (a : Act) : Act :=
  let (gen, r) := x.tag a.hs g h
  if ts.isEmpty then a
  else if r ≠ 0 then a.push b [errTok x.elem x.op r g]
  else { a.push b (ts.map fun t => { t with gen := gen }) with hs := { a.hs with last := some gen } }

def EEnv.error (x : EEnv) (reason : Nat) (g : BitVec 24) (a : Act) : Act := a.push false [errTok x.elem x.op reason g]

/-- Working state is cleared after an EOS; what lasts for the period stays (R383). -/
def HState.clear (hs : HState) : HState := { armed := hs.armed, streams := hs.streams, last := hs.last }

/-- One EOS to each destination, then the working state is cleared. -/
def EEnv.eos (x : EEnv) (ws : List Bool) (fmt : BitVec 4) (g h : BitVec 24) (a : Act) : Act :=
  let a := ws.foldl (fun a w => x.emit w [{ eos := true, fmt := fmt }] g h a) a
  { a with hs := a.hs.clear }

/-- A processed EOS at source A counts as a stream (R382). -/
def Act.counted (t : ETok) (a : Act) : Act := if t.eos then { a with hs := { a.hs with streams := a.hs.streams + 1 } } else a

/-- Output bytes join those waiting; whole tokens are emitted (a byte stream repacked, R377). -/
def EEnv.repack (x : EEnv) (fmt : BitVec 4) (bs : List Nat) (g : BitVec 24) (a : Act) : Act :=
  let r := cutToks fmt ((a.hs.buf.length + bs.length) / 32) (a.hs.buf ++ bs)
  let a := x.emit false r.1 g g a
  { a with hs := { a.hs with buf := r.2, fmt := fmt } }

/-- Flushes the bytes waiting. -/
def EEnv.flush (x : EEnv) (g : BitVec 24) (a : Act) : Act := x.emit false (allToks a.hs.fmt a.hs.buf) g g a

/-! CXP chunks in streams. -/

/-- A tile of whole CXP chunks that lie back to back (11 R291) as tokens: each chunk starts a new one (R377). None for any other tile. -/
def cxpToks : Nat → List Nat → Option (List ETok)
  | 0, bs => if bs.isEmpty then some [] else none
  | n + 1, bs =>
    if bs.isEmpty then some []
    else
      let k := (CxpChunk.ofBytes (bs.map (BitVec.ofNat 8))).size
      if bs.length < 136 || bs.length < k then none else (cxpToks n (bs.drop k)).map (allToks 0xD#4 (bs.take k) ++ ·)

/-- A tile's bytes as a stream's data tokens: 32 bytes per token (R386), so that the tokens which PUBN made a tile of come again, and a new
token for each chunk of a tile whose chunks lie back to back (log 46). -/
def tileToks (fmt : BitVec 4) (bs : List Nat) : List ETok :=
  ((if fmt = 0xD#4 then cxpToks (bs.length / 136 + 1) bs else none)).getD (allToks fmt bs)

/-- Tokens of the chunk that these bytes begin, once its headers are there (R377). -/
def chunkToks (bs : List Nat) : Option Nat :=
  if bs.length < 136 then none
  else some (((CxpChunk.ofBytes (bs.map (BitVec.ofNat 8))).size + 31) / 32)

/-- The tokens hold a whole chunk. -/
def chunkFull (ts : List ETok) : Bool :=
  match chunkToks (ts.flatMap tokBytes) with
  | some n => decide (n ≤ ts.length)
  | none => false

def chunkFrom (ts : List ETok) : CxpChunk := CxpChunk.ofBytes ((ts.flatMap tokBytes).map (BitVec.ofNat 8))

/-- Chunks of A and B merged (R384): a count above 2^40 sets NS everywhere. -/
def mergeChunks (a b : CxpChunk) : CxpChunk :=
  let ovr := countOver (a.cw.toNat % 2 ^ 41) (b.cw.toNat % 2 ^ 41)
  let es := (padTo 64 cxpPad a.elems).zip (padTo 64 cxpPad b.elems)
  ⟨BitVec.ofNat 64 ((a.cw.toNat % 2 ^ 41 + b.cw.toNat % 2 ^ 41) % 2 ^ 41), es.map fun p =>
    let m := (cxpDecode p.1 a.cw).merge (cxpDecode p.2 b.cw)
    cxpEncode { m with ns := m.ns || ovr }⟩

/-! One-input operations. A trigger token has been taken from A. -/

/-- Formats of the float and integer elements that CVT takes. -/
def cvtTag (t : BitVec 4) : Bool := isF t || t == 1#4 || t == 2#4 || t == 12#4

/-- Complete MX blocks of a byte string, and the rest. -/
def cutBlocks (nb : Nat) : Nat → List Nat → List (List Nat) × List Nat
  | 0, bs => ([], bs)
  | n + 1, bs => if nb = 0 ∨ bs.length < nb then ([], bs) else let r := cutBlocks nb n (bs.drop nb); (bs.take nb :: r.1, r.2)

/-- Bytes left at the end of an MX stream that are more than the last token's padding (R377, log 18). -/
def partialBlock (bs : List Nat) : Bool := decide (32 ≤ bs.length) || bs.any (· != 0)

def EEnv.xrnd (x : EEnv) (t : ETok) (a : Act) : Act :=
  let tag : BitVec 4 := match (x.lit.extractLsb' 0 2).toNat with | 0 => 3#4 | 1 => 4#4 | _ => 5#4
  if t.eos then x.eos [false] tag t.gen t.gen (if a.hs.held.isEmpty then a else x.error 5 t.gen a)
  else if t.fmt != 0xD#4 then x.error 2 t.gen a
  else
    let held := a.hs.held ++ [t]
    if chunkFull held then
      let c := chunkFrom held
      let es := (padTo 64 cxpPad c.elems).map fun e => ((cxpDecode e c.cw).round (fmtF tag)).1
      x.emit false (allToks tag (bytesOf (tagWidth tag) es)) t.gen t.gen { a with hs := { a.hs with held := [] } }
    else { a with hs := { a.hs with held := held } }

def EEnv.cvt (x : EEnv) (t : ETok) (a : Act) : Act :=
  let m := x.lit.extractLsb' 0 4
  if t.eos then x.eos [false] m t.gen t.gen (x.flush t.gen a)
  else if !cvtTag t.fmt then x.error 2 t.gen a
  else
    let es := (elemsOf (tagWidth t.fmt) (tokBytes t)).map fun c => (cvtElem t.fmt m (x.lit.extractLsb' 4 3).toNat 0 c).1
    x.repack m (bytesOf (tagWidth m) es) t.gen a

/-- Blocks of 32 collected values (FP32 codes) as bytes (R99, R100). -/
def quantBytes (m : BitVec 4) (vs : List Nat) : List Nat :=
  let b := quantizeMx m (vs.map (decodeFp fmtFP32))
  b.scale :: bytesOf (tagWidth m) b.e

def EEnv.qmx (x : EEnv) (t : ETok) (a : Act) : Act :=
  let m := x.lit.extractLsb' 0 4
  if t.eos then
    let a := if a.hs.bins.isEmpty then a else x.repack m (quantBytes m (padTo 32 0 a.hs.bins)) t.gen a
    x.eos [false] m t.gen t.gen (x.flush t.gen a)
  else if !isF t.fmt then x.error 2 t.gen a
  else
    let vs := a.hs.bins ++ (elemsOf (tagWidth t.fmt) (tokBytes t)).map fun c => (roundRne (decodeElem t.fmt c) fmtFP32).1
    let r := cutBlocks 32 (vs.length / 32) vs
    x.repack m (r.1.flatMap (quantBytes m)) t.gen { a with hs := { a.hs with bins := r.2 } }

def EEnv.dqmx (x : EEnv) (t : ETok) (a : Act) : Act :=
  if t.eos then x.eos [false] 3#4 t.gen t.gen (if partialBlock a.hs.buf then x.error 5 t.gen a else a)
  else if !isMx t.fmt then x.error 2 t.gen a
  else
    let w := tagWidth t.fmt
    let nb := 1 + 4 * w
    let bs := a.hs.buf ++ tokBytes t
    let r := cutBlocks nb (bs.length / nb) bs
    let a := { a with hs := { a.hs with buf := r.2, fmt := t.fmt } }
    x.emit false (r.1.flatMap fun b => allToks 3#4 (bytesOf 32 ((elemsOf w (b.drop 1)).map fun e => (dequantizeMx t.fmt (b.headD 0) e).1)))
      t.gen t.gen a

def EEnv.cmpz (x : EEnv) (t : ETok) (a : Act) : Act :=
  if t.eos then x.eos [false] t.fmt t.gen t.gen (x.flush t.gen a)
  else
    let bs := tokBytes t
    let mask := pack 1 (bs.map fun b => if b = 0 then 0 else 1)
    x.repack t.fmt ((List.range 4).map (slice mask 8) ++ bs.filter (· != 0)) t.gen a

/-- Masks with their bytes, read off a byte string of which `old` bytes come before the last token: zero bytes that end it may be that
token's padding, and wait. -/
def uncompress : Nat → Nat → List Nat → List (List Nat) × List Nat
  | 0, _, bs => ([], bs)
  | n + 1, old, bs =>
    let mask := pack 8 (bs.take 4)
    let k := popBits mask 32
    if bs.length < 4 + k || (old == 0 && bs.all (· == 0)) then ([], bs)
    else
      let tok := (List.range 32).map fun i => if mask.testBit i then bs.getD (4 + popBits mask i) 0 else 0
      let r := uncompress n (old - (4 + k)) (bs.drop (4 + k))
      (tok :: r.1, r.2)

/-- DCMPZ: of a last token of zero bytes alone, the first mask is data, since CMPZ sends no token of padding alone. -/
def EEnv.dcmpz (x : EEnv) (t : ETok) (a : Act) : Act :=
  if t.eos then
    let a :=
      if a.hs.buf.any (· != 0) then x.error 5 t.gen a
      else if a.hs.buf.length = 32 then x.emit false [{ fmt := a.hs.fmt }] t.gen t.gen a
      else a
    x.eos [false] t.fmt t.gen t.gen a
  else
    let bs := a.hs.buf ++ tokBytes t
    let r := uncompress (bs.length / 4) a.hs.buf.length bs
    x.emit false (r.1.flatMap (allToks t.fmt)) t.gen t.gen { a with hs := { a.hs with buf := r.2, fmt := t.fmt } }

/-- Alternate runs of N tokens. -/
def EEnv.split (x : EEnv) (t : ETok) (a : Act) : Act :=
  if t.eos then x.eos [false, true] t.fmt t.gen t.gen a
  else
    let n := (x.lit.extractLsb' 0 16).toNat
    let a := x.emit a.hs.flip [t] t.gen t.gen a
    if (if n = 0 then 65536 else n) ≤ a.hs.n + 1 then { a with hs := { a.hs with n := 0, flip := !a.hs.flip } }
    else { a with hs := { a.hs with n := a.hs.n + 1 } }

/-- Moves the token to each destination. -/
def EEnv.pass (x : EEnv) (ws : List Bool) (t : ETok) (a : Act) : Act :=
  if t.eos then x.eos ws t.fmt t.gen t.gen a else ws.foldl (fun a w => x.emit w [t] t.gen t.gen a) a

def EEnv.steer (x : EEnv) (t : ETok) (a : Act) : Act :=
  if t.eos then x.eos [false, true] t.fmt t.gen t.gen a
  else x.emit (t.gen.getLsbD (x.lit.extractLsb' 0 5).toNat) [t] t.gen t.gen a

def EEnv.cnt (x : EEnv) (t : ETok) (a : Act) : Act :=
  if t.eos then
    x.eos [false, true] t.fmt t.gen t.gen (x.emit true [{ fmt := 1#4, data := BitVec.ofNat 256 (a.hs.n % 2 ^ 64) }] t.gen t.gen a)
  else let a := x.emit false [t] t.gen t.gen a; { a with hs := { a.hs with n := a.hs.n + 1 } }

def EEnv.lim (x : EEnv) (t : ETok) (a : Act) : Act :=
  if t.eos then x.eos [false] t.fmt t.gen t.gen a
  else
    let a := if a.hs.n < (x.lit.extractLsb' 0 24).toNat then x.emit false [t] t.gen t.gen a else a
    { a with hs := { a.hs with n := a.hs.n + 1 } }

def EEnv.unpk (x : EEnv) (t : ETok) (a : Act) : Act :=
  if t.eos then x.eos [false, true] t.fmt t.gen t.gen a
  else
    x.emit true [{ t with data := t.data >>> 128 }] t.gen t.gen
      (x.emit false [{ t with data := t.data &&& (BitVec.allOnes 128).zeroExtend 256 }] t.gen t.gen a)

/-- SCL moves float elements, or the scales of whole MX blocks, by 2^n. -/
def EEnv.scl (x : EEnv) (t : ETok) (a : Act) : Act :=
  let n := (x.lit.extractLsb' 0 9).toInt
  if t.eos then
    -- the bytes of an unfinished block pass as they are
    x.eos [false] t.fmt t.gen t.gen (x.flush t.gen { a with hs := { a.hs with buf := a.hs.buf ++ a.hs.bins } })
  else if isF t.fmt then
    let es := (elemsOf (tagWidth t.fmt) (tokBytes t)).map fun c => (roundRne ((decodeElem t.fmt c).scale2 n) (fmtF t.fmt)).1
    let a := x.emit false (allToks t.fmt (bytesOf (tagWidth t.fmt) es)) t.gen t.gen a
    { a with hs := { a.hs with fmt := t.fmt } }
  else if isMx t.fmt then
    let nb := 1 + 4 * tagWidth t.fmt
    let bs := a.hs.bins ++ tokBytes t
    let r := cutBlocks nb (bs.length / nb) bs
    let out := r.1.flatMap fun b =>
      (if b.headD 0 = 0xFF then 0xFF else (clampI ((b.headD 0 : Int) + n) 0 0xFE).toNat) :: b.drop 1
    x.repack t.fmt out t.gen { a with hs := { a.hs with bins := r.2 } }
  else x.error 2 t.gen a

def EEnv.hist (x : EEnv) (t : ETok) (a : Act) : Act :=
  if t.eos then
    let a := x.emit true (allToks 1#4 (bytesOf 32 (padTo 32 0 a.hs.bins))) t.gen t.gen a
    x.eos [false, true] t.fmt t.gen t.gen a
  else if !isF t.fmt then x.error 2 t.gen a
  else
    let hits := (elemsOf (tagWidth t.fmt) (tokBytes t)).filterMap fun c => expBin (decodeElem t.fmt c)
    let bins := (padTo 32 0 a.hs.bins).zipIdx.map fun p => Nat.min (p.1 + hits.countP (· == p.2)) 0xFFFFFFFF
    let a := x.emit false [t] t.gen t.gen a
    { a with hs := { a.hs with bins := bins } }

def EEnv.eosg (x : EEnv) (t : ETok) (a : Act) : Act :=
  if t.eos then if a.hs.n = 0 then { a with hs := a.hs.clear } else x.eos [false] t.fmt t.gen t.gen a
  else
    let a := x.emit false [t] t.gen t.gen a
    if (x.lit.extractLsb' 0 24).toNat ≤ a.hs.n + 1 then x.eos [false] t.fmt t.gen t.gen a
    else { a with hs := { a.hs with n := a.hs.n + 1 } }

/-- SINK counts EOS tokens. -/
def EEnv.sink (_x : EEnv) (t : ETok) (a : Act) : Act := if t.eos then { a with hs := { a.hs with n := a.hs.n + 1 } } else a

/-- PUBN collects a stream; error tokens are part of it (R395). Its EOS, or in its place the error token of a tag action that fails, goes to
DSTB: at once where there is no data. -/
def EEnv.pubn (x : EEnv) (t : ETok) (a : Act) : Act :=
  if t.eos then
    let (gen, r) := x.tag a.hs t.gen t.gen
    let e : ETok := if r = 0 then { t with gen := gen } else errTok x.elem x.op r t.gen
    let hs : HState := { a.hs.clear with last := if r = 0 then some gen else a.hs.last }
    if a.hs.held.isEmpty then { a.push true [e] with hs := hs } else { a with hs := hs, stream := some (a.hs.held, e) }
  else { a with hs := { a.hs with held := a.hs.held ++ [t] } }

/-- A one-input operation on its trigger. -/
def EEnv.one (x : EEnv) (hs : HState) (t : ETok) : Act :=
  let a : Act := { popA := true, hs := hs }
  if t.isErr && x.op != 0x17 then
    if x.op = 0x15 then { a with errs := 1 } else if x.op = 0x0A then (a.push false [t]).push true [t] else a.push false [t]
  else if x.op = 0x1B then { a with halt := some t }
  else
    Act.counted t (match x.op with
      | 0x01 => x.xrnd t a | 0x02 => x.cvt t a | 0x03 => x.qmx t a | 0x04 => x.dqmx t a | 0x05 => x.cmpz t a
      | 0x06 => x.dcmpz t a | 0x09 => x.split t a | 0x0A => x.pass [false, true] t a | 0x0C => x.steer t a | 0x0D => x.cnt t a
      | 0x0E => x.lim t a | 0x11 => x.unpk t a | 0x12 => x.scl t a | 0x13 => x.hist t a | 0x14 => x.eosg t a
      | 0x15 => x.sink t a | 0x17 => x.pubn t a | _ => x.pass [false] t a)

/-- FIFO: gives up its oldest token where there is a credit, else takes one while it has a place. -/
def EEnv.fifo (x : EEnv) (hs : HState) (ha : Option ETok) : Option Act :=
  match hs.held, ha with
  | t :: q, _ =>
    if x.room then
      let a : Act := { hs := { hs with held := q } }
      if t.isErr then some (a.push false [t])
      else if t.eos then
        let a := Act.counted t (x.eos [false] t.fmt t.gen t.gen a)
        some { a with hs := { a.hs with held := q } }
      else some (x.emit false [t] t.gen t.gen a)
    else
      match ha with
      | some u =>
        if hs.held.length ≤ (x.lit.extractLsb' 0 6).toNat then some { popA := true, hs := { hs with held := hs.held ++ [u] } } else none
      | none => none
  | [], some u => some { popA := true, hs := { hs with held := [u] } }
  | [], none => none

/-! Two-input operations (R385, R387). -/

/-- MRR and MTAG. Error tokens of B are discarded, those of A pass; the literal is no error token (`litB`). -/
def EEnv.mergeIn (x : EEnv) (litB : Bool) (hs : HState) (ha hb : Option ETok) : Option Act :=
  match hb, ha with
  | some b, _ => if b.isErr && !litB then some { popB := true, hs := hs } else go (if hs.eosA then none else ha) (if hs.eosB then none else hb)
  | none, _ => go (if hs.eosA then none else ha) none
where
  take (fromB : Bool) (t : ETok) : Act :=
    let a : Act := { popA := !fromB, popB := fromB, hs := hs }
    if !t.eos then x.emit false [t] t.gen t.gen { a with hs := { hs with flip := !fromB } }
    else
      let hs' : HState := if fromB then { hs with eosB := true } else { hs with eosA := true, streams := hs.streams + 1 }
      let a := { a with hs := hs' }
      if hs'.eosA && hs'.eosB then
        -- one EOS after both; its point is that of the streams processed before
        let b := x.eos [false] t.fmt t.gen t.gen { a with hs := { hs' with streams := hs.streams } }
        { b with hs := { b.hs with streams := hs'.streams } }
      else a
  go (ha hb : Option ETok) : Option Act :=
    if !x.room then none
    else
      match ha, hb with
      | some a, some b =>
        if a.isErr then some (({ popA := true, hs := hs } : Act).push false [a])
        else if x.op = 0x08 || x.det then
          if a.eos || (!b.eos && decide (a.gen.toNat ≤ b.gen.toNat)) then some (take false a) else some (take true b)
        else if hs.flip then some (take true b) else some (take false a)
      | some a, none =>
        if a.isErr then some (({ popA := true, hs := hs } : Act).push false [a])
        else if (x.op = 0x08 || x.det) && !(a.eos || hs.eosB) then none
        else some (take false a)
      | none, some b =>
        if (x.op = 0x08 || x.det) && !(b.eos || hs.eosA) then none else some (take true b)
      | none, none => none

/-- A side of an element-wise pair: nothing yet, a whole datum, an EOS, an EOS inside a chunk, or a token to collect. -/
inductive Side where
  | wait | data | eos (t : ETok) | cut (t : ETok) | grow (t : ETok)
deriving DecidableEq, Repr

def side (chunk : Bool) (held : List ETok) (h : Option ETok) : Side :=
  if chunk && chunkFull held then .data
  else
    match h with
    | none => .wait
    | some t => if t.eos then (if chunk && !held.isEmpty then .cut t else .eos t) else if chunk then .grow t else .data

/-- XADD, GATE and PACK (R384, R385, R387). `litB` says that source B is the literal, which is never an EOS
and no error token. -/
def EEnv.pair (x : EEnv) (litB : Bool) (hs : HState) (ha hb : Option ETok) : Option Act :=
  let chunk := x.op == 0x00
  if hs.bad then
    -- a mismatch: both inputs are dropped up to and including their EOS, then one EOS
    let ovr (a : Act) (hs' : HState) : Act :=
      if hs'.dropA || hs'.dropB then { a with hs := hs' }
      else
        let g := match hs'.held with | t :: _ => t.gen | [] => 0#24
        let b := x.eos [false] hs'.fmt g g { a with hs := { hs' with streams := hs'.streams - 1 } }
        { b with hs := { b.hs with streams := b.hs.streams + 1 } }
    match ha, hb with
    | some t, _ =>
      if hs.dropA then
        some (ovr { popA := true, hs := hs } (if t.eos then { hs with dropA := false, held := [t], fmt := t.fmt, streams := hs.streams + 1 } else hs))
      else
        match hb with
        | some u => if hs.dropB && !litB then some (ovr { popB := true, hs := hs } (if u.eos then { hs with dropB := false } else hs)) else none
        | none => none
    | none, some u => if hs.dropB && !litB then some (ovr { popB := true, hs := hs } (if u.eos then { hs with dropB := false } else hs)) else none
    | none, none => none
  else if !litB && (match hb with | some u => u.isErr | none => false) then some { popB := true, hs := hs }
  else
    match ha with
    | some t => if t.isErr then (if x.room then some (({ popA := true, hs := hs } : Act).push false [t]) else none) else sides chunk
    | none => sides chunk
where
  sides (chunk : Bool) : Option Act :=
    match side chunk hs.held ha, side chunk hs.heldB hb with
    | .grow t, _ =>
      if t.fmt = 0xD#4 then some { popA := true, hs := { hs with held := hs.held ++ [t] } }
      else if x.room then some (x.error 2 t.gen { popA := true, hs := hs }) else none
    | _, .grow u =>
      if u.fmt = 0xD#4 then some { popB := !litB, hs := { hs with heldB := hs.heldB ++ [u] } }
      else if x.room then some (x.error 2 u.gen { popB := !litB, hs := hs }) else none
    | .wait, _ | _, .wait => none
    | .data, .data => if x.room then some (both chunk) else none
    | .eos t, .eos u =>
      if x.room then some (Act.counted t (x.eos [false] t.fmt t.gen u.gen { popA := true, popB := true, hs := hs })) else none
    | sa, _ =>
      if x.room then
        let g := match sa with
          | .eos t | .cut t => t.gen
          | _ => match hs.held, ha with | t :: _, _ => t.gen | [], some t => t.gen | [], none => 0#24
        some (x.error 1 g { hs := { hs with bad := true, dropA := true, dropB := !litB, held := [], heldB := [] } })
      else none
  both (chunk : Bool) : Act :=
    if chunk then
      let a : Act := { hs := { hs with held := [], heldB := [] } }
      let g := match hs.held.getLast? with | some t => t.gen | none => 0#24
      let h := match hs.heldB.getLast? with | some t => t.gen | none => 0#24
      x.emit false (allToks 0xD#4 ((mergeChunks (chunkFrom hs.held) (chunkFrom hs.heldB)).bytes.map BitVec.toNat)) g h a
    else
      match ha, hb with
      | some t, some u =>
        let a : Act := { popA := true, popB := !litB, hs := hs }
        if x.op = 0x0B then if u.data.getLsbD 0 then x.emit false [t] t.gen u.gen a else a
        else if t.fmt != u.fmt then x.error 2 t.gen a
        else
          x.emit false [{ t with data := (u.data.extractLsb' 0 128 ++ t.data.extractLsb' 0 128).truncate 256 }] t.gen u.gen a
      | _, _ => { hs := hs }

/-- What a handler does now; none where it is not runnable (R380). -/
def EEnv.run (x : EEnv) (litB : Bool) (hs : HState) (ha hb : Option ETok) : Option Act :=
  if x.op = 0x07 ∨ x.op = 0x08 then x.mergeIn litB hs ha hb
  else if x.op = 0x00 ∨ x.op = 0x0B ∨ x.op = 0x10 then x.pair litB hs ha hb
  else if x.op = 0x0F then x.fifo hs ha
  else if !x.room then none
  else ha.map (x.one hs)

end Sys2Proof.Machine
end

