-- ==== Sys2Proof/Machine/EdgeOps.lean ====
section
/-! DEFINITION. The element operations of the edge fabric: how a handler is run in its block, and one meaning per operation
(15_edge_fabric R378 to R387, R395, R400). -/

namespace Sys2Proof.Machine

/-! Blocks and routers. -/

def State.block (s : State) (p : Nat) : Block := findD p {} s.blocks
def State.setBlock (s : State) (p : Nat) (b : Block) : State := { s with blocks := insert p b s.blocks }
def State.onBlock (s : State) (p : Nat) (f : Block → Block) : State := s.setBlock p (f (s.block p))

/-- The block runs elements: a period is on, and its region is neither halted nor saved (R375, 14 R370). -/
def Block.runs (s : State) (b : Block) : Bool :=
  (b.state == .running || b.state == .draining) &&
    match b.owner with
    | some reg => (s.region reg).phase == .running
    | none => false

def Block.elem (b : Block) (e : Nat) : Element := findD e {} b.elems
def Block.setElem (b : Block) (e : Nat) (x : Element) : Block := { b with elems := insert e x b.elems }
def Element.queue (x : Element) (c : Nat) : List ETok := findD c [] x.queues
def Element.state (x : Element) (c : Nat) : HState := findD c {} x.hs

/-- Tokens discarded: status word and period count, both saturating. -/
def Block.drop (n : Nat) (b : Block) : Block :=
  { b with drops := BitVec.ofNat 16 (Nat.min (b.drops.toNat + n) 0xFFFF)
           perDrop := BitVec.ofNat 32 (Nat.min (b.perDrop.toNat + n) 0xFFFFFFFF) }

/-! Sinks (R385). -/

/-- The quota of a SINK. -/
def sinkQuota (m : Memory) (l : BitVec 256) : Nat :=
  (l.extractLsb' 0 24).toNat * if l.getLsbD 24 then planePoints m else 1

/-- Every SINK of the plane has reported. -/
def Block.reported (b : Block) (m : Memory) : Bool :=
  (List.range 64).all fun e => (List.range 16).all fun c =>
    let x := planeEntry m e c
    !(x.getLsbD 63 && (eOp (entryWord x)).toNat == 0x15) || decide (sinkQuota m (entryLit m e x) ≤ ((b.elem e).state c).n)

/-- A running block whose sinks have all reported drains (R397). -/
def Block.settle (m : Memory) (b : Block) : Block :=
  if b.state == .running && b.reported m then { b with state := .draining, waited := 0 } else b

/-! Sources (R378, R386, R394). -/

/-- What SRCN reads: the next token of a binding's lowest point that has not been emitted, and the points armed after it. -/
def Block.feed (s : State) (b : Block) (m : Memory) (e bind : Nat) : Option (ETok × List Armed) :=
  match b.armed.findIdx? fun a => a.bind == bind with
  | none => none
  | some i =>
    match b.armed[i]? with
    | none => none
    | some a =>
      let size := bindSize (planeBind m bind)
      if a.failed then
        if a.sent = 0 then some (errTok e 0x16 6 b.gen, setAt b.armed i { a with sent := 1 })
        else
          -- the FMT of this EOS is open, but 0xE is never produced (R376)
          let f : BitVec 4 := Config.freeBits 4 s.fresh
          some ({ eos := true, fmt := if f = 0xE#4 then 0xF#4 else f, gen := b.gen }, dropAt b.armed i)
      else
        match a.got with
        | none => none
        | some p =>
          let n := Nat.min size p.size
          let bytes := (List.range n).map (slice p.data 8)
          match (tileToks p.tag bytes)[a.sent]? with
          | some t => some ({ t with gen := nGen p.name }, setAt b.armed i { a with sent := a.sent + 1 })
          | none => some ({ eos := true, fmt := p.tag, gen := nGen p.name }, dropAt b.armed i)

/-- Where source A of an operation comes from: SRCN a binding, RIN a link stream, all others a queue. -/
def Block.headA (s : State) (b : Block) (m : Memory) (op e a : Nat) : Option ETok :=
  if op = 0x16 then (b.feed s m e a).map Prod.fst
  else if op = 0x18 then (findD a [] b.rx).head?
  else ((b.elem e).queue a).head?

/-- Consumes source A. -/
def Block.popA (s : State) (b : Block) (m : Memory) (op e a : Nat) : Block :=
  if op = 0x16 then { b with armed := ((b.feed s m e a).map Prod.snd).getD b.armed }
  else if op = 0x18 then { b with rx := insert a (findD a [] b.rx).tail b.rx }
  else b.setElem e { b.elem e with queues := insert a ((b.elem e).queue a).tail (b.elem e).queues }

/-- Source B: a queue, or the literal beside a token of A: the head or, where XADD has collected A's chunk, the chunk's token in its turn
(R378). -/
def Block.headB (b : Block) (e code : Nat) (lit : BitVec 256) (ha : Option ETok) (hs : HState) : Option ETok :=
  if code < 16 then ((b.elem e).queue code).head?
  else if code = 0x10 then
    (((hs.held[hs.heldB.length]?).or hs.held.getLast?).or ha).map fun t => { fmt := t.fmt, gen := t.gen, data := lit }
  else none

/-! Destinations. -/

/-- The queue behind a destination code and channel has a place (R378). -/
def Block.place (b : Block) (e code chan : Nat) : Bool :=
  match destElem e code with
  | some k => (b.elem k).halted || decide (((b.elem k).queue chan).length < 2)
  | none => true

/-- Tokens on their way to a queue. -/
def Block.onWay (b : Block) (k chan : Nat) : Nat :=
  (b.elems.map fun (p : Nat × Element) => p.2.out.countP fun o => destElem p.1 o.1 == some k && o.2.chan.toNat == chan).sum

/-- A credit of that queue: tokens on their way to it hold theirs. -/
def Block.credit (b : Block) (e code chan : Nat) : Bool :=
  match destElem e code with
  | some k => (b.elem k).halted || decide (((b.elem k).queue chan).length + b.onWay k chan < 2)
  | none => true

/-- The far side of a link is up and its wafer holds a part of the region (R400, 17 R448). -/
def linkOwned (s : State) (p reg : Nat) : Bool :=
  let l := findD p {} s.links
  l.up && (s.bridge.podmemb.toList.getD reg 0#64).getLsbD l.farw.toNat

/-- Tokens go onto a link stream, or are discarded at the sender. -/
def Block.sendLink (owned : Bool) (stream : Nat) (ts : List ETok) (b : Block) : Block :=
  if owned then { b with tx := insert stream (findD stream [] b.tx ++ ts) b.tx } else b.drop ts.length

/-- Outputs of a run, alternating between A and B, one to each in a cycle (R380). -/
def weave : List (Nat × ETok) → List (Nat × ETok) → List (Nat × ETok)
  | a :: as, b :: bs => a :: b :: weave as bs
  | [], bs => bs
  | as, [] => as

/-- Output tokens with their channel; a destination of 0x16 drops them. -/
def toward (code : Nat) (chan : BitVec 4) (ts : List ETok) : List (Nat × ETok) :=
  if code = 0x16 then [] else ts.map fun t => (code, { t with chan := chan })

/-! PUBN (R395). -/

/-- The tile of a stream, or none where the stream is refused. -/
def pubTile (s : State) (reg p : Nat) (m : Memory) (bind e c streams : Nat) (ts : List ETok) (eos : ETok) : Option PubTile :=
  let x := planeBind m bind
  let size := Nat.min (bindSize x) (32 * ts.length)
  let fmt := (ts.headD {}).fmt
  let data := pack 8 ((ts.flatMap tokBytes).take size)
  let name := pointName m x (streams % planePoints m) eos.gen
  let parcel : Parcel := ⟨name, fmt, size, data⟩
  let tile : PubTile := { parcel := parcel, contribute := bindKind x == 3, elem := e, handler := c, eos := eos }
  if ts.any ETok.isErr || decide (65536 < 32 * ts.length) then none
  else if bindKind x = 3 then
    match redShape (descAt s reg (entryRouter s reg p) name) with
    | none => none
    | some (n, k) => if redTag fmt && (redChunks fmt n k size data).isSome then some tile else none
  else some tile

/-! The run. -/

/-- Operand fields of an element word: opcode, sources, destinations, tag action, literal select (R381). -/
structure EdgeOp where
  op : Nat
  a : BitVec 5
  b : BitVec 5 := 0x16#5
  d : BitVec 5 := 0x16#5
  e : BitVec 5 := 0x16#5
  t : BitVec 4 := 0#4
  l : BitVec 2 := 0#2
deriving DecidableEq, Repr

/-- The element is held by an earlier output of several tokens (R380), except for a handler whose full queue that output waits for (log
19). -/
def Element.heldFor (x : Element) (c : Nat) : Bool :=
  x.hold && !x.out.isEmpty && !(x.out.any (fun o => o.1 == 0x15 && o.2.chan.toNat == c) && decide (2 ≤ (x.queue c).length))

/-- The queues or the stream that a run writes have room. -/
def Block.roomFor (b : Block) (o : EdgeOp) (e ocha ochb : Nat) (act : Act) : Bool :=
  (act.outA.isEmpty ||
    (if o.op = 0x19 then decide ((findD o.d.toNat [] b.tx).length < 64) else o.op = 0x17 || b.credit e o.d.toNat ocha))
  && ((act.outB.isEmpty && act.stream.isNone) || b.credit e o.e.toNat ochb)

/-- What a handler would do now: with the credits its outputs need, or, without any output, as it stands (R380). One whose literal a debug write
has made such as an image may not hold (R384, R385) does nothing, so that no reserved tag arises (04 R90; log 70). -/
def edgeAct (s : State) (b : Block) (m : Memory) (o : EdgeOp) (e c : Nat) : Option Act :=
  let x := planeEntry m e c
  let lit := planeLit m e ((fld x 46 4 + o.l.toNat) % 16)
  let reg := b.owner.getD 0
  let env (room : Bool) : EEnv :=
    { op := o.op, elem := e, lit := lit, det := (s.region reg).det, g := b.gen, points := planePoints m, taga := o.t.toNat, room := room }
  let ha := b.headA s m o.op e o.a.toNat
  let hs := (b.elem e).state c
  let hb := b.headB e o.b.toNat lit ha hs
  let fits (act : Act) : Bool := b.roomFor o e (fld x 54 4) (fld x 50 4) act
  if litRefused o.op lit then none else
  match ((env true).run (o.b == 0x10#5) hs ha hb).filter fits with
  | some act => some act
  | none => ((env false).run (o.b == 0x10#5) hs ha hb).filter fits

/-- A whole stream at PUBN: a tile for the router, or an error token and the EOS. -/
def Block.publish (s : State) (reg p : Nat) (m : Memory) (o : EdgeOp) (e c : Nat) (act : Act) (old : HState) (g : BitVec 24) (b : Block) :
    Block × List ETok :=
  match act.stream with
  | none => (b, act.outB)
  | some (ts, eos) =>
    match pubTile s reg p m o.d.toNat e c old.streams ts eos with
    | some t => ({ b with tiles := b.tiles ++ [t] }, act.outB)
    | none => (b, act.outB ++ [errTok e 0x17 7 g, eos])

/-- A debug record of HALTE: the token and a round stamp, whose cycle part the spec leaves open (13 R341). -/
def Block.record (s : State) (reg p e : Nat) (act : Act) (b : Block) : Block :=
  match act.halt with
  | none => b
  | some t =>
    { b.setElem e { b.elem e with halted := true } with
      debug := b.debug ++ [(t, (s.router (entryRouter s reg p)).round ++ Config.freeBits 32 s.fresh)] }

/-- Runs an operation as the handler in focus; a block has 64 elements (R375). -/
def runHandler (o : EdgeOp) (s : State) : State :=
  let p := s.handler.1
  let e := s.handler.2.1
  let c := s.handler.2.2
  let b := s.block p
  match b.plane, b.owner with
  | some m, some reg =>
    let x := planeEntry m e c
    let el := b.elem e
    if 63 < e || !b.runs s || el.halted || !entryRuns x || el.heldFor c then s
    else
      match edgeAct s b m o e c with
      | none => s
      | some act =>
        let old := el.state c
        let g := match b.headA s m o.op e o.a.toNat with | some t => t.gen | none => 0#24
        let b1 := if act.popA then b.popA s m o.op e o.a.toNat else b
        let b2 := if act.popB && decide (o.b.toNat < 16) then b1.popA s m 0 e o.b.toNat else b1
        let (b3, outB) := b2.publish s reg p m o e c act old g
        let b4 := if o.op = 0x19 then b3.sendLink (linkOwned s p reg) o.d.toNat act.outA else b3
        let el := b4.elem e
        let toA := if o.op = 0x19 then [] else toward o.d.toNat (x.extractLsb' 54 4) act.outA
        let toB := toward o.e.toNat (x.extractLsb' 50 4) outB
        let b5 := { b4.setElem e { el with
          hs := insert c act.hs el.hs, out := el.out ++ weave toA toB
          hold := (el.hold && !el.out.isEmpty) || decide (1 < toA.length) || decide (1 < toB.length) } with
          waited := if b4.state == BlockState.running then 0 else b4.waited }
        let b6 := { b5 with lenerr := BitVec.ofNat 16 (Nat.min (b5.lenerr.toNat + act.errs) 0xFFFF)
                            perErr := BitVec.ofNat 32 (Nat.min (b5.perErr.toNat + act.errs) 0xFFFFFFFF) }
        { s.setBlock p ((b6.record s reg p e act).settle m) with fresh := s.fresh + 1 }
  | _, _ => s

/-! One meaning per operation (R384 to R386). -/

def execXadd (a b d : BitVec 5) (t : LitTag) (s : State) : Out :=
  .next (runHandler { op := 0x00, a := a, b := b, d := d, t := t.act, l := t.lit } s)
def execXrnd (a d : BitVec 5) (t : BitVec 4) (l : BitVec 2) (s : State) : Out := .next (runHandler { op := 0x01, a := a, d := d, t := t, l := l } s)
def execCvt (a d : BitVec 5) (t : BitVec 4) (l : BitVec 2) (s : State) : Out := .next (runHandler { op := 0x02, a := a, d := d, t := t, l := l } s)
def execQmx (a d : BitVec 5) (t : BitVec 4) (l : BitVec 2) (s : State) : Out := .next (runHandler { op := 0x03, a := a, d := d, t := t, l := l } s)
def execDqmx (a d : BitVec 5) (t : LitTag) (s : State) : Out :=
  .next (runHandler { op := 0x04, a := a, d := d, t := t.act, l := t.lit } s)
def execCmpz (a d : BitVec 5) (t : LitTag) (s : State) : Out :=
  .next (runHandler { op := 0x05, a := a, d := d, t := t.act, l := t.lit } s)
def execDcmpz (a d : BitVec 5) (t : LitTag) (s : State) : Out :=
  .next (runHandler { op := 0x06, a := a, d := d, t := t.act, l := t.lit } s)
def execMrr (a b d : BitVec 5) (t : LitTag) (s : State) : Out :=
  .next (runHandler { op := 0x07, a := a, b := b, d := d, t := t.act, l := t.lit } s)
def execMtag (a b d : BitVec 5) (t : LitTag) (s : State) : Out :=
  .next (runHandler { op := 0x08, a := a, b := b, d := d, t := t.act, l := t.lit } s)
def execSplitE (a d e : BitVec 5) (t : BitVec 4) (l : BitVec 2) (s : State) : Out :=
  .next (runHandler { op := 0x09, a := a, d := d, e := e, t := t, l := l } s)
def execDup (a d e : BitVec 5) (t : LitTag) (s : State) : Out :=
  .next (runHandler { op := 0x0A, a := a, d := d, e := e, t := t.act, l := t.lit } s)
def execGate (a b d : BitVec 5) (t : LitTag) (s : State) : Out :=
  .next (runHandler { op := 0x0B, a := a, b := b, d := d, t := t.act, l := t.lit } s)
def execSteer (a d e : BitVec 5) (t : BitVec 4) (l : BitVec 2) (s : State) : Out :=
  .next (runHandler { op := 0x0C, a := a, d := d, e := e, t := t, l := l } s)
def execCnt (a d e : BitVec 5) (t : LitTag) (s : State) : Out :=
  .next (runHandler { op := 0x0D, a := a, d := d, e := e, t := t.act, l := t.lit } s)
def execLim (a d : BitVec 5) (t : BitVec 4) (l : BitVec 2) (s : State) : Out := .next (runHandler { op := 0x0E, a := a, d := d, t := t, l := l } s)
def execFifo (a d : BitVec 5) (t : BitVec 4) (l : BitVec 2) (s : State) : Out := .next (runHandler { op := 0x0F, a := a, d := d, t := t, l := l } s)
def execPack (a b d : BitVec 5) (t : LitTag) (s : State) : Out :=
  .next (runHandler { op := 0x10, a := a, b := b, d := d, t := t.act, l := t.lit } s)
def execUnpk (a d e : BitVec 5) (t : LitTag) (s : State) : Out :=
  .next (runHandler { op := 0x11, a := a, d := d, e := e, t := t.act, l := t.lit } s)
def execScl (a d : BitVec 5) (t : BitVec 4) (l : BitVec 2) (s : State) : Out := .next (runHandler { op := 0x12, a := a, d := d, t := t, l := l } s)
def execHist (a d e : BitVec 5) (t : LitTag) (s : State) : Out :=
  .next (runHandler { op := 0x13, a := a, d := d, e := e, t := t.act, l := t.lit } s)
def execEosg (a d : BitVec 5) (t : BitVec 4) (l : BitVec 2) (s : State) : Out := .next (runHandler { op := 0x14, a := a, d := d, t := t, l := l } s)
def execSink (a : BitVec 5) (l : BitVec 2) (s : State) : Out := .next (runHandler { op := 0x15, a := a, l := l } s)
def execSrcn (a d : BitVec 5) (t : LitTag) (s : State) : Out :=
  .next (runHandler { op := 0x16, a := a, d := d, t := t.act, l := t.lit } s)
def execPubn (a d e : BitVec 5) (t : LitTag) (s : State) : Out :=
  .next (runHandler { op := 0x17, a := a, d := d, e := e, t := t.act, l := t.lit } s)
def execRin (a d : BitVec 5) (t : LitTag) (s : State) : Out :=
  .next (runHandler { op := 0x18, a := a, d := d, t := t.act, l := t.lit } s)
def execRout (a d : BitVec 5) (t : LitTag) (s : State) : Out :=
  .next (runHandler { op := 0x19, a := a, d := d, t := t.act, l := t.lit } s)
def execEdgeNop (a d : BitVec 5) (t : LitTag) (s : State) : Out :=
  .next (runHandler { op := 0x1A, a := a, d := d, t := t.act, l := t.lit } s)
def execHalte (a : BitVec 5) (s : State) : Out := .next (runHandler { op := 0x1B, a := a } s)

end Sys2Proof.Machine
end

