-- ==== Sys2Proof/Machine/EdgeCmd.lean ====
section
/-! DEFINITION. Edge commands, configuration, periods, tokens between elements and across links (12_firing_queues R316, R317;
15_edge_fabric R391 to R400; 17 R447, R448). -/

namespace Sys2Proof.Machine

/-! ECFG, EGO, ESTAT, EABORT at issue (R316, R317). -/

/-- The port of a region's logical block, none at or above the number granted. -/
def blockPort (s : State) (reg b : Nat) : Option Nat := ((List.range 32).filter fun p => (s.region reg).edgemask.getLsbD p)[b]?

/-- The block operand of an edge command: S[a], bits 4 to 0. -/
def blockOf (s : State) (a : Reg) : Option Nat := blockPort s (regionOf s) (fld (sreg s a) 0 5)
def blockCheck (s : State) (a : Reg) : Check := { bad := (blockOf s a).isNone, cause := .localBounds }

def execEcfg (a b : Reg) (m : BitVec 4) (s : State) : Out :=
  let va := sreg s b
  .next (guarded [notFirmware s, blockCheck s a, alignCheck va 64, addrCheck va]
    (addOp { kind := .ecfg ((blockOf s a).getD 0) va, tc := m, va := va }) s)

def execEgo (a b : Reg) (s : State) : Out :=
  .next (guarded [notFirmware s, blockCheck s a] (addOp { kind := .ego ((blockOf s a).getD 0) ((sreg s b).truncate 32) }) s)

def execEstat (d a : Reg) (m : BitVec 4) (s : State) : Out :=
  .next (guarded [blockCheck s a] (addOp { kind := .estat ((blockOf s a).getD 0), tc := m, dest := .s d }) s)

def execEabort (a : Reg) (m : BitVec 4) (s : State) : Out :=
  .next (guarded [blockCheck s a] (addOp { kind := .eabort ((blockOf s a).getD 0), tc := m }) s)

/-! Arrival. -/

def OpKind.edgePort : OpKind → Option Nat
  | .ecfg p _ | .ego p _ | .estat p | .eabort p => some p
  | _ => none

/-- The operation waits in order for a place in the block's queue. -/
def OpKind.queues : OpKind → Bool
  | .ecfg .. | .ego .. => true
  | _ => false

/-- An earlier command of the same firing for the same block has not reached it yet (R316). -/
def edgeBehind (c : Core) (j : Nat) (o : Op) : Bool :=
  (c.ops.take j).any fun e => e.kind.edgePort == o.kind.edgePort && e.kind.edgePort.isSome && e.fid == o.fid && !e.resp

/-- A command enters the queue of its block. -/
def edgeArrive (c j : Nat) (s : State) : State :=
  let k := s.coreAt c
  match k.ops[j]? with
  | none => s
  | some o =>
    let q (p : Nat) (cfg : Option W64) (par : BitVec 32) : State :=
      if edgeBehind k j o || 8 ≤ (s.block p).queue.length then s
      else
        (s.setCoreAt c (k.dropOp j)).onBlock p fun b =>
          { b with queue := b.queue ++ [{ core := c, fid := o.fid, fw := o.fw, tc := o.tc, cfg := cfg, par := par }] }
    match o.kind with
    | .ecfg p va => q p (some va) 0#32
    | .ego p par => q p none par
    | _ => s

/-- The core and task slot where the firing that issued a command is to be found. -/
def cmdCore (s : State) (reg core : Nat) (fid : W64) : Nat × BitVec 4 :=
  (holderOf s reg (fidTask fid).toNat).getD (core, (s.coreAt core).slot)

/-- An answer of port p's block goes to a core: where a wrong directory entry names one outside the region it is dropped at the border
(01 R19). -/
def answerCore (reg p n : Nat) (f : State → State) (s : State) : State :=
  if s.within reg n then f s else refuseAtBorder s reg (entryRouter s reg p) n 0#96 0

/-- A command of port p completes: its token counter. -/
def cmdDone (s : State) (reg p : Nat) (k : EdgeCmd) : State :=
  if k.tc = 0#4 then s
  else
    let n := (cmdCore s reg k.core k.fid).1
    answerCore reg p n (fun s => landAt s n k.fid k.fw k.tc) s

/-! The configuration (R391, R398). -/

/-- Line i of the image at va is read at its agent, old or new against stores meanwhile, or is known to fail; 2^32 more says that the host
fails the request (17 R435). -/
def readPlaneLine (reg va : Nat) (x : State × Block) (k : Nat) : State × Block :=
  let i := k % 2 ^ 32
  let a := va + 64 * i
  let (s, b) := x
  let bad (c : Cause) : State × Block := (s, { b with loadBad := b.loadBad ++ [(a, c)] })
  if planeBytes / 64 ≤ i || (find? i b.load).isSome || b.loadBad.any (fun y => y.1 == a) then x
  else if 2 ^ 56 ≤ a then bad .globalXlate
  else if 2 ^ 32 ≤ k && isHost a then bad .poison
  else match agentRead s reg a 64 .read with
    | .ok w => (cacheLeaf s reg a, { b with load := insert i (BitVec.ofNat 512 w) b.load })
    | .error c => (cacheLeaf s reg a, (bad c).2)

/-- The lines that an ECFG_IMAGE_READ reads: those that its inputs after the first name, or all. -/
def planeLines (s : State) : List Nat := if (s.input.drop 1).isEmpty then List.range (planeBytes / 64) else s.input.drop 1

/-- Every line has come or failed. -/
def Block.loaded (b : Block) : Bool := decide (planeBytes / 64 ≤ b.load.length + b.loadBad.length)

/-- The image of the lines that have come. -/
def Block.image (b : Block) : Memory := b.load.foldl (fun m p => wrN m (64 * p.1) p.2.toNat 64) []

/-- The image has been read whole: it becomes the shadow plane, or is malformed. -/
def Block.shadowed (sp : BitVec 12) (b : Block) : Block :=
  let l := { b with load := [], loadBad := [] }
  if planeMalformed sp b.image then { l with malformed := true } else { l with shadow := some b.image }

/-- ECFG_IMAGE_READ: lines of the image that the ECFG at the head of a block's queue reads; with the last one the image is checked, or
the command fails at its lowest failing address. -/
def execEcfgImageRead (s : State) : Out :=
  let p := inp s 0
  if 31 < p then .fault .noSuchItem
  else
    let b := s.block p
    .next (match b.owner, b.queue with
      | some reg, k :: q =>
        match k.cfg with
        | none => s
        | some va =>
          if b.shadow.isSome || b.malformed || (s.region reg).phase != .running then s
          else
            let (s, b) := (planeLines s).foldl (readPlaneLine reg va.toNat) (s, b)
            if !b.loaded then s.setBlock p b
            else
              match lowest b.loadBad with
              | none => s.setBlock p (b.shadowed (s.region reg).space)
              | some (a, c) =>
                let (n, slot) := cmdCore s reg k.core k.fid
                let s1 := s.setBlock p { b with queue := q, load := [], loadBad := [] }
                if !s.within reg n then refuseAtBorder s1 reg (entryRouter s1 reg p) n 0#96 0
                else if (s.coreAt n).faultRoom k.fid then
                  cmdDone (s1.setCoreAt n ((s1.coreAt n).faultTask k.fid slot { cause := c, val := BitVec.ofNat 64 a })) reg p k
                else s.setBlock p b
      | _, _ => s)

/-- Tokens that a handler holds: a FIFO's, a PUBN's stream, chunks not yet whole. -/
def HState.tokens (h : HState) : Nat := if h.bad then 0 else h.held.length + h.heldB.length

def Element.tokens (x : Element) : Nat :=
  (x.queues.map fun (p : Nat × List ETok) => p.2.length).sum + x.out.length + (x.hs.map fun (p : Nat × HState) => p.2.tokens).sum

/-- Tokens still to be emitted from a delivered tile, its EOS included. -/
def Block.tileTokens (b : Block) (a : Armed) : Nat :=
  match a.got, b.plane with
  | some p, some m =>
    let n := Nat.min (bindSize (planeBind m a.bind)) p.size
    (if p.tag = 0xD#4 then (tileToks p.tag ((List.range n).map (slice p.data 8))).length else (n + 31) / 32) - a.sent + 1
  | _, _ => if a.failed then 2 - a.sent else 0

/-- Tokens in the elements, the delivery buffer and the receiving streams. -/
def Block.tokens (b : Block) : Nat :=
  (b.elems.map fun (p : Nat × Element) => p.2.tokens).sum + (b.armed.map b.tileTokens).sum
    + (b.rx.map fun (p : Nat × List ETok) => p.2.length).sum

def Block.txEmpty (b : Block) : Bool := b.tx.all fun p => p.2.isEmpty

/-- The quiescence tree reports drained (R398). -/
def Block.quiet (b : Block) : Bool := b.tokens == 0 && b.txEmpty && b.tiles.isEmpty

/-- SHADOW_COMMIT: at quiescence the shadow plane becomes the configuration, and a malformed image leaves none. -/
def execShadowCommit (s : State) : Out :=
  let p := inp s 0
  if 31 < p then .fault .noSuchItem
  else
    let b := s.block p
    .next (match b.owner, b.queue with
      | some reg, k :: q =>
        if k.cfg.isNone || !(b.state == .idle || b.state == .configured) || !b.quiet || (s.region reg).phase != .running then s
        else if b.malformed then
          cmdDone (s.setBlock p { b with queue := q, malformed := false, plane := none, state := .idle, elems := [] }) reg p k
        else
          match b.shadow with
          | some m => cmdDone (s.setBlock p { b with queue := q, shadow := none, plane := some m, state := .configured, elems := [] }) reg p k
          | none => s
      | _, _ => s)

/-! ESTAT and EABORT (R317). -/

def BlockState.code : BlockState → BitVec 3
  | .idle => 0#3 | .configured => 1#3 | .running => 2#3 | .draining => 3#3 | .aborting => 4#3

/-- The status word. -/
def Block.status (b : Block) : W64 :=
  b.state.code ++ BitVec.ofNat 4 b.queue.length ++ BitVec.ofBool b.shadow.isSome ++ b.errs ++ b.lenerr ++ b.drops ++ b.periods

/-- Tokens held in the block are discarded. -/
def Block.discard (b : Block) : Block :=
  { b.drop b.tokens with
    elems := b.elems.map fun (p : Nat × Element) => (p.1, { p.2 with queues := [], out := [], hs := p.2.hs.map fun (q : Nat × HState) =>
      (q.1, if q.2.bad then q.2 else { q.2 with held := [], heldB := [] }) })
    armed := [], rx := [] }

/-- The reverse-path entries of a block's points that have not come go (10 R258). -/
def unlistAll (p : Nat) (s : State) : State :=
  let b := s.block p
  match b.owner with
  | some reg => (b.armed.filter Armed.listed).foldl (fun s a =>
      s.onRouter (entryRouter s reg p) fun r => r.uncount a.name (BitVec.allOnes 96) (pathPort s reg p)) s
  | none => s

/-- ESTAT_ARRIVAL: operation j of the core in focus is answered. -/
def execEstatArrival (s : State) : Out :=
  let j := inp s 0
  .next (match s.core.ops[j]? with
    | some o =>
      match o.kind with
      | .estat p =>
        if o.resp || ((s.core.ops.take j).any fun e => e.kind.edgePort == some p && e.fid == o.fid && !e.resp
            && !(e.kind.queues && decide (8 ≤ (s.block p).queue.length))) then s
        else s.onCore fun c => c.setOp j { o with got := (s.block p).status.toNat, resp := true }
      | _ => s
    | none => s)

/-- EABORT_ARRIVAL: operation j of the core in focus acts on its arrival, the block being aborting; with the next such event the block is
idle, and the command is answered. -/
def execEabortArrival (s : State) : Out :=
  let j := inp s 0
  .next (match s.core.ops[j]? with
    | some o =>
      match o.kind with
      | .eabort p =>
        let b := s.block p
        if o.resp || ((s.core.ops.take j).any fun e => e.kind.edgePort == some p && e.fid == o.fid && !e.resp
            && !(e.kind.queues && decide (8 ≤ b.queue.length))) then s
        else if o.started then
          (s.setBlock p { b with state := if b.state == .aborting then .idle else b.state }).onCore fun c => c.setOp j { o with resp := true }
        else
          let d := b.discard
          let d := d.drop d.tiles.length
          let s := (unlistAll p s).setBlock p { d with
            queue := [], shadow := none, load := [], loadBad := [], malformed := false, plane := none, state := .aborting, elems := [], tiles := [], tx := [] }
          let s := b.queue.foldl (fun s k => cmdDone s (b.owner.getD 0) p k) s
          s.onCore fun c => c.setOp j { o with started := true }
      | _ => s
    | none => s)

/-! Periods (R392 to R397). -/

/-- PERIOD_START: the EGO at the head of a block's queue. -/
def execPeriodStart (s : State) : Out :=
  let p := inp s 0
  if 31 < p then .fault .noSuchItem
  else
    let b := s.block p
    .next (match b.owner, b.queue with
      | some reg, k :: q =>
        if k.cfg.isSome || !(b.state == .idle || b.state == .configured) || (s.region reg).phase != .running then s
        else
          match (if b.state == .configured && k.par.extractLsb' 24 8 == 0#8 then b.plane else none) with
          | none => s.setBlock p { b with queue := q, errs := if b.errs = 0xFF#8 then b.errs else b.errs + 1#8 }
          | some m =>
            let b : Block := { b with
              queue := q, state := .running, gen := k.par.extractLsb' 0 24, ownerFid := k.fid, ownerCore := k.core, armedTo := 0
              perErr := 0#32, perDrop := 0#32, drained := false, waited := 0, elems := [], armed := [], tiles := [] }
            s.setBlock p (b.settle m)
      | _, _ => s)

/-- The bindings of kind 1. -/
def planeSubs (m : Memory) : List Nat := (List.range 16).filter fun i => bindKind (planeBind m i) == 1

/-- The binding and point that the sequencer arms next, where the buffer and the limit of points allow it (R394). -/
def Block.nextArm (b : Block) (m : Memory) : Option (Nat × Nat) :=
  let ks := planeSubs m
  if ks.isEmpty then none
  else
    let point := b.armedTo / ks.length
    let bind := ks.getD (b.armedTo % ks.length) 0
    let lowest := b.armed.foldl (fun l a => Nat.min l a.point) point
    let used := (b.armed.map fun a => bindSize (planeBind m a.bind)).sum
    if planePoints m ≤ point ∨ lowest + 4 < point ∨ 524288 < used + bindSize (planeBind m bind) then none else some (bind, point)

/-- The reverse-path entry of a block's one-shot at its entry router, where the match table has room for it (10 R258, R262). -/
def listPoint (reg p : Nat) (n : Name) (s : State) : State × Bool :=
  let loc := entryRouter s reg p
  match (s.router loc).count n (BitVec.allOnes 96) (pathPort s reg p) with
  | some r => (s.setRouter loc r, true)
  | none => ((offer s (reticleOf loc) reg 9 0 1).onRouter loc fun r => { r with mtfull := satInc r.mtfull }, false)

/-- BINDING_ARM: the next binding of the next point is armed and its one-shot sent. -/
def execBindingArm (s : State) : Out :=
  let p := inp s 0
  if 31 < p then .fault .noSuchItem
  else
    let b := s.block p
    .next (match b.owner, b.plane with
      | some reg, some m =>
        if !b.runs s then s
        else
          match b.nextArm m with
          | none => s
          | some (bind, point) =>
            let n := pointName m (planeBind m bind) point b.gen
            let loc := entryRouter s reg p
            let (s, ok) := listPoint reg p n s
            (s.setBlock p { b with armedTo := b.armedTo + 1, armed := b.armed ++ [{ bind := bind, point := point, name := n, listed := ok }] }).send
              { region := reg, loc := loc, src := loc, fid := BitVec.allOnes 64, gone := true, msg := .oneShot n (.block p bind point) none }
      | _, _ => s)

/-- Output k of an element is the first of those to its queue. -/
def Element.firstOut (x : Element) (k : Nat) (code : Nat) (chan : BitVec 4) : Bool :=
  (x.out.take k).all fun o => !(o.1 == code && o.2.chan == chan)

/-- ELEMENT_TOKEN_ARRIVAL: output k of an element reaches its queue; at a stopped element it is dropped (R380, R385). -/
def execElementTokenArrival (s : State) : Out :=
  let p := inp s 0
  let e := inp s 1
  let k := inp s 2
  if 31 < p ∨ 63 < e then .fault .noSuchItem
  else
    let b := s.block p
    .next (match (b.elem e).out[k]? with
      | none => s
      | some (code, t) =>
        if !b.runs s || !(b.elem e).firstOut k code t.chan then s
        else
          let b1 := b.setElem e { b.elem e with out := dropAt (b.elem e).out k }
          match destElem e code with
          | none => s
          | some d =>
            let x := b1.elem d
            let c := t.chan.toNat
            if x.halted then s.setBlock p (b1.drop 1)
            else if 2 ≤ (x.queue c).length then s
            else s.setBlock p (b1.setElem d { x with queues := insert c (x.queue c ++ [t]) x.queues, hs := insert c { x.state c with armed := true } x.hs }))

/-- A tile of PUBN is accepted by the entry router, if it can be; its EOS then goes to DSTB (R395). -/
def edgePubTry (p k : Nat) (s : State) : Option State :=
  let b := s.block p
  match b.owner, b.plane, b.tiles[k]? with
  | some reg, some m, some t =>
    let early := (b.tiles.take k).any fun u => u.elem == t.elem && u.handler == t.handler
    let loc := entryRouter s reg p
    let done (s : State) : State := s.onBlock p fun b =>
      let x := planeEntry m t.elem t.handler
      let el := b.elem t.elem
      { b.setElem t.elem { el with out := el.out ++ toward (eE (entryWord x)).toNat (x.extractLsb' 50 4) [t.eos] } with
        tiles := dropAt b.tiles k, waited := if b.state == .running then 0 else b.waited }
    if early || !b.runs s then none
    else if t.contribute then
      match redShape (descAt s reg loc t.parcel.name) with
      | none => none
      | some (n, c) =>
        match redChunks t.parcel.tag n c t.parcel.size t.parcel.data with
        | none => none
        | some ch => (acceptContrib s reg loc loc (BitVec.allOnes 64) t.parcel.name ch).map done
    else (acceptPub s reg loc loc (BitVec.allOnes 64) t.parcel).map done
  | _, _, _ => none

def edgePub (p k : Nat) (s : State) : State := (edgePubTry p k s).getD s

/-- The completion tile (R396). -/
def Block.completion (b : Block) (m : Memory) : Parcel :=
  let n := planeCname m
  let status := (if b.drained then 1 else 0) + (if b.perErr = 0#32 then 0 else 2)
  ⟨n.extractLsb' 24 72 ++ b.gen, 1#4, 64, status + 2 ^ 32 * b.perErr.toNat + 2 ^ 64 * b.perDrop.toNat⟩

/-- The logical number of a port in its region. -/
def logicalBlock (s : State) (reg p : Nat) : Nat := popBits (s.region reg).edgemask.toNat p

/-- The faults of a period (R396, 14 R348). -/
def Block.periodFaults (s : State) (reg p : Nat) (b : Block) : List Deferred :=
  let l := logicalBlock s reg p
  (if b.perErr = 0#32 then [] else
    [{ cause := .fabricLength, val := BitVec.ofNat 64 (l + 65536 * Nat.min b.perErr.toNat 0xFFFF) }])
  ++ (if b.perDrop = 0#32 then [] else [{ cause := .fabricDrain, val := BitVec.ofNat 64 (l + 65536 * b.perDrop.toNat) }])

/-- PERIOD_END: a drained block publishes its completion tile and raises the period's faults on the owner. -/
def execPeriodEnd (s : State) : Out :=
  let p := inp s 0
  if 31 < p then .fault .noSuchItem
  else
    let b := s.block p
    .next (match b.owner, b.plane with
      | some reg, some m =>
        let (n, slot) := cmdCore s reg b.ownerCore b.ownerFid
        let fs := b.periodFaults s reg p
        if b.state != .draining || !b.runs s || !b.quiet || 16 < ((s.coreAt n).faultsOf b.ownerFid).length + fs.length then s
        else
          let loc := entryRouter s reg p
          match acceptTile s reg loc loc (BitVec.allOnes 64) (b.completion m) with
          | none => s
          | some s =>
            let s := (unlistAll p s).setBlock p { b with state := .configured, periods := b.periods + 1#16, drained := false, armed := [], elems := [] }
            if fs.isEmpty then s
            else answerCore reg p n (fun s => s.setCoreAt n (fs.foldl (fun (c : Core) f => c.faultTask b.ownerFid slot f) (s.coreAt n))) s
      | _, _ => s)

/-- Some handler of the block can start. -/
def Block.canStart (s : State) (b : Block) (m : Memory) : Bool :=
  (List.range 64).any fun e =>
    !(b.elem e).halted && (List.range 16).any fun c =>
      let x := planeEntry m e c
      let w := entryWord x
      entryRuns x && !(b.elem e).heldFor c
        && (edgeAct s b m { op := (eOp w).toNat, a := eA w, b := eB w, d := eD w, e := eE w, t := eT w, l := eL w } e c).isSome

/-- Some output can move on. -/
def Block.canMove (b : Block) : Bool :=
  b.elems.any fun p => p.2.out.any fun o => b.place p.1 o.1 o.2.chan.toNat

/-- INACTIVITY_TIMEOUT: a running block in which nothing has started or moved for its drain watchdog's time, and nothing can, drains (R397). -/
def execInactivityTimeout (s : State) : Out :=
  let p := inp s 0
  if 31 < p then .fault .noSuchItem
  else
    let b := s.block p
    .next (match b.plane with
      | some m =>
        if b.state == .running && b.runs s && decide (planeDwd m ≤ b.waited) && !b.canStart s m && !b.canMove && (b.nextArm m).isNone
            && (List.range b.tiles.length).all (fun k => (edgePubTry p k s).isNone) then
          s.setBlock p { b with state := .draining, drained := true, waited := 0 }
        else s
      | none => s)

/-- DRAIN_WATCHDOG: a block that has drained for its watchdog's time and is not quiet discards what it holds (R399). -/
def execDrainWatchdog (s : State) : Out :=
  let p := inp s 0
  if 31 < p then .fault .noSuchItem
  else
    let b := s.block p
    .next (if b.state == .draining && b.runs s && !b.quiet && decide (planeDwd (b.plane.getD []) ≤ b.waited) then (unlistAll p s).setBlock p { b.discard with drained := true } else s)

/-! Links (R400, 17 R447, R448). -/

def State.link (s : State) (p : Nat) : Link := findD p {} s.links

/-- A token's bits (R376). -/
def ETok.ofBits (x : Nat) : ETok :=
  { eos := x.testBit 288, fmt := BitVec.ofNat 4 (x >>> 284), gen := BitVec.ofNat 24 (x >>> 260), chan := BitVec.ofNat 4 (x >>> 256)
    data := if x.testBit 288 then 0#256 else BitVec.ofNat 256 x }

/-- LINK_TOKEN_ARRIVAL: a token of the far block on a stream of an UP port. FMT 0xE is never produced (R376). -/
def execLinkTokenArrival (s : State) : Out :=
  let p := inp s 0
  let k := inp s 1
  if 31 < p ∨ 15 < k then .fault .noSuchItem
  else
    let b := s.block p
    .next (match b.owner with
      | some reg =>
        if (s.link p).up && linkOwned s p reg && (ETok.ofBits (inp s 2)).fmt != 0xE#4 && decide ((findD k [] b.rx).length < 64) then
          s.setBlock p { b with rx := insert k (findD k [] b.rx ++ [ETok.ofBits (inp s 2)]) b.rx, waited := if b.state == .running then 0 else b.waited }
        else s
      | none => s)

/-- A token sent on a stream is acknowledged by the far block. -/
def linkAck (p k : Nat) (s : State) : State := s.onBlock p fun b => { b with tx := insert k (findD k [] b.tx).tail b.tx }

/-- LINK_BEAT_RESEND: failed resends of one beat, of a port that is UP or, live, exchanges its pod formation; after the 16th the port is
down and what was in flight on it is lost. A third input says how many tokens the far block had in flight to this one, at most its
1,024 credits: this block counts them. -/
def execLinkBeatResend (s : State) : Out :=
  let p := inp s 0
  let n := inp s 1
  if 31 < p then .fault .noSuchItem
  else
    let l := s.link p
    .next (if !l.up && (l.absent || l.down || !s.bridge.podcfg.getLsbD 31) then s
    else
      let l := { l with retry := BitVec.ofNat 32 (Nat.min (l.retry.toNat + n) 0xFFFFFFFF) }
      if n < 16 then { s with links := insert p l s.links }
      else
        let s := { s with links := insert p { l with up := false, down := true } s.links }
        let s := if (s.block p).owner.isSome then s.onBlock p fun b => { b.drop (Nat.min (inp s 2) 1024) with tx := [] } else s
        post s 16 (fromLeader s) 0x09 (BitVec.ofNat 64 p) (BitVec.ofNat 64 l.retry.toNat) true none none)

/-- POD_FORMATION: with EN set, a live port that has not gone down since learns its far end: wafer, port, pod size less 1, EN (17 R448). -/
def execPodFormation (s : State) : Out :=
  let p := inp s 0
  if 31 < p then .fault .noSuchItem
  else
    let l := s.link p
    let cfg := s.bridge.podcfg
    let farw : BitVec 6 := BitVec.ofNat 6 (inp s 1)
    .next (if l.absent || l.down || !cfg.getLsbD 31 then s
    else
      { s with links := insert p { l with farw := farw, farp := BitVec.ofNat 5 (inp s 2)
                                          up := inp s 4 == 1 && BitVec.ofNat 6 (inp s 3) == cfg.extractLsb' 8 6 && farw != cfg.extractLsb' 0 6 } s.links })

end Sys2Proof.Machine
end

