-- ==== Sys2Proof/Machine/Launch.lean ====
section
/-! DEFINITION. Launch queues, graph images, the checks of a launch and its loading, the completion and the abort of a region
(12_firing_queues R296 to R303, 01 R16 to R22, R29, 07 R167, 10 R251 to R265, 16 R419, R421, R423). -/

namespace Sys2Proof.Machine

/-! Launch records (R297). -/

def recordAt (s : State) (q : Nat) (j : BitVec 16) : BitVec 512 := BitVec.ofNat 512 (rdN (s.page q).ring (64 * (j.toNat % 16)) 64)
def rf (r : BitVec 512) (lo w : Nat) : Nat := (r.extractLsb' lo w).toNat
def rOp (r : BitVec 512) : Nat := rf r 0 8
def rLtag (r : BitVec 512) : BitVec 32 := r.extractLsb' 224 32
def rCompl (r : BitVec 512) : W64 := r.extractLsb' 320 64
def rEdge (r : BitVec 512) : BitVec 32 := r.extractLsb' 384 32

/-- A reserved OP, a reserved bit set, or a COMPL that is no multiple of 8. -/
def recordBad (r : BitVec 512) : Bool :=
  decide (1 < rOp r) || rf r 9 7 != 0 || rf r 28 4 != 0 || rf r 48 16 != 0 || rf r 416 96 != 0 || rf r 320 3 != 0

/-- LQTAIL_DOORBELL (R296): a value that would leave more than 16 records pending is ignored and sets OVF. Accepted once the
module is ready (16 R427). -/
def execLqtailDoorbell (s : State) : Out :=
  let q := inp s 0
  let v : BitVec 16 := BitVec.ofNat 16 (inp s 1)
  if 15 < q then .fault .noSuchItem
  else
    let p := s.page q
    .next (if s.bridge.phase != 6#4 then s
    else if 16 < (v - p.head).toNat then s.setPage q { p with ovf := true }
    else
      let n := (v - p.tail).toNat
      let js := if 16 < n then [] else (List.range n).map fun i => (q, p.tail + BitVec.ofNat 16 i)
      { s.setPage q { p with tail := v } with doorbells := s.doorbells ++ js })

/-! Graph images (R298). -/

/-- An image in host memory. -/
structure Img where
  mem : Memory
  base : Nat
deriving DecidableEq, Repr

def Img.u (m : Img) (off n : Nat) : Nat := rdN m.mem (m.base + off) n
def Img.secOff (m : Img) (i : Nat) : Nat := m.u (0x30 + 8 * i) 4
def Img.secLen (m : Img) (i : Nat) : Nat := m.u (0x34 + 8 * i) 4
/-- A field of the image by section and offset in it. -/
def Img.at (m : Img) (i off n : Nat) : Nat := m.u (m.secOff i + off) n
/-- Entries of a section. -/
def Img.count (m : Img) (i size : Nat) : Nat := m.secLen i / size
def Img.kernels (m : Img) : Nat := m.at 4 0 4
def Img.constants (m : Img) : Nat := m.at 5 0 4
def Img.constRef (m : Img) (i : Nat) : Nat := m.at 5 (8 + 4 * i) 4
def Img.homes (m : Img) : Nat := m.u 0x0C 2
def Img.codeva (m : Img) : Nat := m.u 0x10 8
def Img.spillva (m : Img) : Nat := m.u 0x18 8
def Img.saveva (m : Img) : Nat := m.u 0x20 8

def noRef : Nat := 0xFFFFFFFF

/-- An expression program is well formed: `lim` constants may be pushed, and REP if `rp`; `d` values are on the stack. The region's space
(operand 3) may be pushed by every program: 01 R20 leaves it out and 12 R298 forbids it nowhere (log 20). -/
def Img.progOk (m : Img) (lim : Nat) (rp : Bool) : Nat → Nat → Nat → Bool
  | 0, _, _ => false
  | n + 1, off, d =>
    if m.secLen 5 < off + 8 then false
    else
      let op := m.at 5 off 1
      let arg := m.at 5 (off + 1) 7
      if op = 0x00 then arg == 0 && d == 1
      else if op = 0x01 then decide (d < 32) && m.progOk lim rp n (off + 8) (d + 1)
      else if op = 0x02 then arg == 0 && decide (d < 32) && decide (off + 16 ≤ m.secLen 5) && m.progOk lim rp n (off + 16) (d + 1)
      else if op = 0x03 then decide (arg ≤ 4) && (arg != 4 || rp) && decide (d < 32) && m.progOk lim rp n (off + 8) (d + 1)
      else if op = 0x04 then decide (arg < lim) && decide (d < 32) && m.progOk lim rp n (off + 8) (d + 1)
      else if op = 0x1A then arg == 0 && decide (1 ≤ d) && m.progOk lim rp n (off + 8) d
      else if 0x10 ≤ op ∧ op ≤ 0x19 then arg == 0 && decide (2 ≤ d) && m.progOk lim rp n (off + 8) (d - 1)
      else false

/-- A reference names a well-formed program. -/
def Img.refOk (m : Img) (rp : Bool) (r : Nat) : Bool := m.progOk m.constants rp (m.secLen 5 / 8 + 1) r 0

/-- What a program may read: region shape, space, replica, constants. -/
structure LEnv where
  ncore : Nat
  regw : Nat
  regh : Nat
  space : Nat
  replica : Nat := 0
  consts : List W64 := []
deriving DecidableEq, Repr

/-- Two-operand arithmetic; none for a division by zero. -/
def arith (op : Nat) (a b : W64) : Option W64 :=
  match op with
  | 0x10 => some (a + b) | 0x11 => some (a - b) | 0x12 => some (a * b)
  | 0x13 => if b = 0#64 then none else some (a.sdiv b)
  | 0x14 => if b = 0#64 then none else some (a.srem b)
  | 0x15 => some (a <<< (b.toNat % 64)) | 0x16 => some (a.sshiftRight (b.toNat % 64))
  | 0x17 => some (a &&& b) | 0x18 => some (a ||| b) | _ => some (a ^^^ b)

/-- Evaluates a well-formed program. -/
def Img.eval (m : Img) (x : LEnv) : Nat → Nat → List W64 → Option W64
  | 0, _, _ => none
  | n + 1, off, st =>
    let op := m.at 5 off 1
    let arg := m.at 5 (off + 1) 7
    if op = 0x00 then st.head?
    else if op = 0x01 then m.eval x n (off + 8) ((BitVec.ofNat 56 arg).signExtend 64 :: st)
    else if op = 0x02 then m.eval x n (off + 16) (BitVec.ofNat 64 (m.at 5 (off + 8) 8) :: st)
    else if op = 0x03 then
      m.eval x n (off + 8) (BitVec.ofNat 64 ([x.ncore, x.regw, x.regh, x.space, x.replica].getD arg 0) :: st)
    else if op = 0x04 then m.eval x n (off + 8) (x.consts.getD arg 0#64 :: st)
    else
      match st with
      | b :: a :: t => if op = 0x1A then m.eval x n (off + 8) (-b :: a :: t) else (arith op a b).bind fun v => m.eval x n (off + 8) (v :: t)
      | [a] => m.eval x n (off + 8) [-a]
      | [] => none

def Img.value (m : Img) (x : LEnv) (r : Nat) : Option Int := (m.eval x (m.secLen 5 / 8 + 1) r []).map BitVec.toInt

/-- All of n bytes are zero. -/
def Img.zero (m : Img) (i off n : Nat) : Bool := m.at i off n == 0

def typeWidth (t : Nat) : Nat := match t with | 0 => 1 | 1 => 4 | 2 => 8 | _ => 4

/-- The data records: offsets of their heads in section 6, none where they do not end with the section. -/
def Img.records (m : Img) : Nat → Nat → Option (List Nat)
  | 0, _ => none
  | n + 1, off =>
    if off = m.secLen 6 then some []
    else
      let size := (16 + 4 * m.at 6 (off + 4) 4 + 7) / 8 * 8
      if m.secLen 6 < off + 16 ∨ m.secLen 6 < off + size then none else (m.records n (off + size)).map (off :: ·)

def Img.allRecords (m : Img) : Option (List Nat) := m.records (m.secLen 6 / 16 + 1) 0

def Img.templateOk (m : Img) (i : Nat) : Bool :=
  let a (off n : Nat) : Nat := m.at 0 (32 * i + off) n
  decide (a 0 2 < m.kernels) && decide (a 2 1 ≤ 7) && decide (a 3 1 ≤ 4) && decide (a 4 1 ≤ 8) && a 5 3 == 0 && a 0x10 16 == 0
    && m.refOk false (a 8 4) && (a 4 1 == 0 || decide (a 0xC 4 + a 4 1 ≤ m.count 1 40))

def Img.subOk (m : Img) (i : Nat) : Bool :=
  let a (off n : Nat) : Nat := m.at 1 (40 * i + off) n
  let opt (r : Nat) : Bool := r == noRef || m.refOk true r
  decide (a 0 2 < m.count 2 48) && decide (a 2 1 ≤ 1) && decide (1 ≤ a 4 1) && decide (a 4 1 ≤ 4) && decide (a 3 1 + a 4 1 ≤ 256)
    && decide (a 5 1 ≤ 1) && (a 5 1 == 1 || a 4 1 == 1) && a 6 2 == 0 && opt (a 8 4) && opt (a 0xC 4) && opt (a 0x10 4) && opt (a 0x14 4)
    && (if a 5 1 = 1 then a 0x18 4 == noRef else m.refOk true (a 0x18 4)) && m.refOk true (a 0x1C 4) && a 0x20 8 == 0

def Img.tensorOk (m : Img) (i : Nat) : Bool :=
  let a (off n : Nat) : Nat := m.at 2 (48 * i + off) n
  let d : BitVec 256 := BitVec.ofNat 256 (a 0 32)
  dTid d == 0#20 && dBack d == 0 && d.extractLsb' 1 69 == 0#69 && dHkind d != 3 && (dFmt d).ult 14#4 && m.refOk false (a 0x20 4)
    && (a 0x24 4 == noRef || m.refOk false (a 0x24 4)) && a 0x28 8 == 0

def Img.declOk (m : Img) (i : Nat) : Bool :=
  let a (off n : Nat) : Nat := m.at 3 (16 * i + off) n
  if a 0 1 = 1 then
    decide (a 1 1 ≤ 1) && decide (a 2 2 < m.count 2 48) && (if a 1 1 = 1 then m.refOk false (a 4 4) else a 4 4 == noRef) && a 8 8 == 0
  else a 0 1 == 2 && decide (a 1 1 ≤ 4) && decide (a 2 2 < m.count 0 32) && a 4 12 == 0

def Img.kernelOk (m : Img) (i : Nat) : Bool :=
  m.at 4 (8 + 8 * i) 4 % 64 == 0 && decide (m.at 4 (8 + 8 * i) 4 + m.at 4 (12 + 8 * i) 4 ≤ m.secLen 4)

def Img.recordOk (m : Img) (off : Nat) : Bool :=
  let a (o n : Nat) : Nat := m.at 6 (off + o) n
  decide (a 0 1 ≤ 3) && decide (a 1 1 ≤ 3) && (if a 0 1 = 3 then a 2 2 == 0xFFFF else decide (a 2 2 < m.count 0 32)) && m.refOk false (a 8 4)
    && a 12 4 == 0 && ((List.range (a 4 4)).all fun i => m.refOk false (a (16 + 4 * i) 4)) && a (16 + 4 * a 4 4) (4 * (a 4 4 % 2)) == 0

def Img.patchOk (m : Img) (i : Nat) : Bool :=
  let a (o n : Nat) : Nat := m.at 7 (12 * i + o) n
  decide (a 8 1 ≤ 2) && decide (a 0 4 + (if a 8 1 = 2 then 8 else 4) ≤ m.secLen 4) && m.refOk false (a 4 4) && a 9 3 == 0

/-- The image is well formed (R298; log 20). -/
def Img.ok (m : Img) (len : Nat) : Bool :=
  decide (128 ≤ len) && m.u 0 2 == 0x4B47 && m.u 2 2 == 1 && m.u 4 4 == len && m.u 0x0E 2 == 0 && m.u 0x28 8 == 0 && m.u 0x70 16 == 0
    && ((List.range 13).any fun i => m.homes == 2 ^ i) && m.codeva % 65536 == 0 && m.spillva % 65536 == 0 && m.saveva % 4096 == 0
    && (List.range 8).all (fun i => m.secOff i % 8 == 0 && decide (m.secOff i + m.secLen i ≤ len))
    && m.secLen 0 % 32 == 0 && m.secLen 1 % 40 == 0 && m.secLen 2 % 48 == 0 && m.secLen 3 % 16 == 0 && m.secLen 7 % 12 == 0
    && decide (8 + 8 * m.kernels ≤ m.secLen 4) && m.zero 4 4 4 && decide (8 + 4 * m.constants ≤ m.secLen 5) && m.zero 5 4 4
    && decide (m.count 2 48 ≤ 256)
    && (List.range m.kernels).all m.kernelOk
    && (List.range m.constants).all (fun i => m.progOk i false (m.secLen 5 / 8 + 1) (m.constRef i) 0)
    && (List.range (m.count 0 32)).all m.templateOk && (List.range (m.count 1 40)).all m.subOk
    && (List.range (m.count 2 48)).all m.tensorOk && (List.range (m.count 3 16)).all m.declOk
    && (match m.allRecords with | some l => l.all m.recordOk | none => false)
    && (List.range (m.count 7 12)).all m.patchOk

/-! Evaluation at load (R299). A failure is a STATUS and a DETAIL. -/

abbrev Load (α : Type) := Except (Nat × Nat) α

def constFail (d : Nat) : Nat × Nat := (0x85, d)

/-- The value of a reference within bounds, or a failure. -/
def Img.within (m : Img) (x : LEnv) (d : Nat) (lo hi : Int) (r : Nat) : Load Int :=
  match m.value x r with
  | some v => if lo ≤ v ∧ v ≤ hi then .ok v else .error (constFail d)
  | none => .error (constFail d)

def i64min : Int := -(2 ^ 63)
def i64max : Int := 2 ^ 63 - 1

/-- The constants, in index order. -/
def Img.loadConsts (m : Img) (x : LEnv) : Load LEnv :=
  (List.range m.constants).foldlM (fun x i =>
    match m.eval x (m.secLen 5 / 8 + 1) (m.constRef i) [] with
    | some v => .ok { x with consts := x.consts ++ [v] }
    | none => .error (constFail 0)) x

/-- A tensor's descriptor with TID and BACK (10 R251, R252). -/
def Img.loadTensor (m : Img) (x : LEnv) (i : Nat) : Load (BitVec 256) := do
  let tid ← m.within x i 1 0xFFFFF (m.at 2 (48 * i + 0x20) 4)
  let br := m.at 2 (48 * i + 0x24) 4
  let back ← if br = noRef then .ok 0 else m.within x i 0 (2 ^ 56 - 1) br
  if back % 64 ≠ 0 then .error (constFail i)
  else .ok (BitVec.ofNat 256 (m.at 2 (48 * i) 32) ||| (BitVec.ofInt 256 tid <<< 236) ||| (BitVec.ofInt 256 back <<< 70))

def Img.loadTensors (m : Img) (x : LEnv) : Load (List (BitVec 256)) :=
  (List.range (m.count 2 48)).foldlM (fun ds i => do
    let d ← m.loadTensor x i
    if ds.any fun e => dTid e == dTid d then .error (constFail i) else .ok (ds ++ [d])) []

/-- A data record: buffer, owning template, address, bytes. -/
structure LData where
  buf : Nat
  tmpl : Nat
  off : Nat
  data : List Nat
deriving DecidableEq, Repr

def bufBytes (b : Nat) : Nat := match b with | 0 => 0x60000 | 1 => 0xC0000 | _ => 0x40000

def Img.loadRecord (m : Img) (x : LEnv) (off : Nat) : Load LData := do
  let buf := m.at 6 off 1
  let ty := m.at 6 (off + 1) 1
  let w := typeWidth ty
  let n := m.at 6 (off + 4) 4
  let top : Int := if buf = 3 then 2 ^ 56 - 1 else (bufBytes buf : Int) - (n * w : Nat)
  let a ← m.within x 0 0 top (m.at 6 (off + 8) 4)
  let lo : Int := if ty = 2 then i64min else if ty = 3 then 0 else -(2 ^ (8 * w - 1) : Nat)
  let hi : Int := if ty = 2 then i64max else (2 ^ (8 * w) : Nat) - 1
  let vs ← (List.range n).mapM fun i => m.within x 0 lo hi (m.at 6 (off + 16 + 4 * i) 4)
  .ok ⟨buf, m.at 6 (off + 2) 2, a.toNat, vs.flatMap fun v => (List.range w).map (slice (codeOf (8 * w) v) 8)⟩

/-- The code section with its literal words patched (R62). -/
def Img.loadCode (m : Img) (x : LEnv) : Load Memory :=
  let code := wrBytes [] 0 (rdBytes m.mem (m.base + m.secOff 4) (m.secLen 4))
  (List.range (m.count 7 12)).foldlM (fun c i => do
    let at_ := m.at 7 (12 * i) 4
    let kind := m.at 7 (12 * i + 8) 1
    let lo : Int := if kind = 0 then -(2 ^ 31) else if kind = 1 then 0 else i64min
    let hi : Int := if kind = 0 then 2 ^ 31 - 1 else if kind = 1 then 2 ^ 32 - 1 else i64max
    let v ← m.within x 0 lo hi (m.at 7 (12 * i + 4) 4)
    .ok (wrN c at_ (codeOf 64 v) (if kind = 2 then 8 else 4))) code

/-- What the first stage gives. -/
structure Loaded where
  env : LEnv
  counts : List Int
  tensors : List (BitVec 256)
  sinks : List Sink
  data : List LData
  code : Memory
deriving DecidableEq, Repr

/-- The sinks (R301). -/
def Img.loadSinks (m : Img) (x : LEnv) (ts : List (BitVec 256)) : Load (List Sink) :=
  (List.range (m.count 3 16)).foldlM (fun ks i =>
    if m.at 3 (16 * i) 1 = 1 ∧ m.at 3 (16 * i + 1) 1 = 1 then do
      let g ← m.within x 0 0 (2 ^ 24 - 1) (m.at 3 (16 * i + 4) 4)
      let d := ts.getD (m.at 3 (16 * i + 2) 2) 0#256
      .ok (ks ++ [{ tensor := dTid d, gen := BitVec.ofInt 24 g, need := dDim d 0 * dDim d 1 * dDim d 2 * dDim d 3 }])
    else .ok ks) []

/-- The first stage: every expression outside section 1. -/
def Img.stage1 (m : Img) (x : LEnv) : Load Loaded := do
  let x ← m.loadConsts x
  let counts ← (List.range (m.count 0 32)).mapM fun i => m.within x i i64min i64max (m.at 0 (32 * i + 8) 4)
  let ts ← m.loadTensors x
  let ks ← m.loadSinks x ts
  let ds ← ((m.allRecords).getD []).mapM (m.loadRecord x)
  let code ← m.loadCode x
  .ok ⟨x, counts, ts, ks, ds, code⟩

/-- A subscription of a replica (10 R263). -/
def Img.loadSub (m : Img) (x : LEnv) (ts : List (BitVec 256)) (j i : Nat) : Load Pattern := do
  let a (off n : Nat) : Nat := m.at 1 (40 * i + off) n
  let d := ts.getD (a 0 2) 0#256
  let coord ← (List.range 4).mapM fun c =>
    if a (8 + 4 * c) 4 = noRef then .ok none
    else do
      let v ← m.within x j 0 0x3FF (a (8 + 4 * c) 4)
      .ok (some (BitVec.ofInt 10 v))
  let gen ← if a 5 1 = 1 then .ok none else do
    let v ← m.within x j 0 (2 ^ 24 - 1) (a 0x18 4)
    .ok (some (BitVec.ofInt 24 v))
  let span : Nat := a 4 1 * (64 * ((dSize d + 63) / 64))
  let addr ← m.within x j 0 ((bufBytes (a 2 1) : Int) - span) (a 0x1C 4)
  if addr % 64 ≠ 0 then .error (constFail j)
  else .ok { tensor := dTid d, coord := coord, gen := gen, buf := BitVec.ofNat 2 (a 2 1), tile := a 3 1, depth := a 4 1 }

/-- The delivery address of a subscription of a replica. -/
def Img.subAddr (m : Img) (x : LEnv) (i : Nat) : Nat := ((m.value x (m.at 1 (40 * i + 0x1C) 4)).getD 0).toNat

/-- A replica: template, subscriptions with their delivery addresses. -/
structure Replica where
  tmpl : Nat
  subs : List (Pattern × Nat)
deriving DecidableEq, Repr

/-- The per-replica stage, in task order. -/
def Img.stage2 (m : Img) (l : Loaded) : Load (List Replica) :=
  (l.counts.zipIdx).foldlM (fun rs (c, j) => do
    let first := m.at 0 (32 * j + 0xC) 4
    let n := m.at 0 (32 * j + 4) 1
    let new ← (List.range c.toNat).mapM fun k => do
      let x := { l.env with replica := k }
      let subs ← (List.range n).mapM fun i => do
        let p ← m.loadSub x l.tensors j (first + i)
        .ok (p, m.subAddr x (first + i))
      .ok ⟨j, subs⟩
    .ok (rs ++ new)) []

/-- The TASKS check (01 R21): the first template at which it fails. -/
def tasksBad (ncore : Nat) (counts : List Int) : Option Nat :=
  ((List.range counts.length).find? fun i =>
    let sum := ((counts.take (i + 1)).map Int.toNat).sum
    decide (counts.getD i 0 < 0) || decide (0xFFFF < sum) || decide (16 * ncore < sum))

/-! Geometry and memory. -/

/-- The logical grid's rows (01 R16). -/
def gridRows (s : State) : Nat := if s.bridge.grade40 then 120 else 144

/-- The seam between two neighbouring logical reticles is down (16 R419): across a column boundary the east seam of the left one,
across a row boundary every seam between their sites. -/
def seamDown (r : Reticle) (i : Nat) : Bool := r.seams.toList.getD i .down != .up
def siteOf (s : State) (col lrow : Nat) : Option Nat := (List.range 6).find? fun row => (s.reticle (6 * col + row)).lrow == lrow

def cutInside (s : State) (r : Region) : Bool :=
  let c0 := r.orgc / 24
  let c1 := (r.orgc + r.w - 1) / 24
  let r0 := r.orgr / 24
  let r1 := (r.orgr + r.h - 1) / 24
  (List.range 8).any fun c => (List.range 6).any fun k =>
    decide (c0 ≤ c) && decide (c ≤ c1) && decide (r0 ≤ k) && decide (k ≤ r1) &&
      match siteOf s c k with
      | none => true
      | some a =>
        (decide (c < c1) && seamDown (s.reticle (6 * c + a)) 1)
          || (decide (k < r1) &&
            match siteOf s c (k + 1) with
            | none => true
            | some b => (List.range (b - a)).any fun i => seamDown (s.reticle (6 * c + a + i)) 2)

def overlap (a b : Region) : Bool :=
  decide (a.orgc < b.orgc + b.w) && decide (b.orgc < a.orgc + a.w) && decide (a.orgr < b.orgr + b.h) && decide (b.orgr < a.orgr + a.h)

/-- The other live regions. -/
def others (s : State) (q : Nat) : List Region := (s.regions.filter fun p => p.1 != q && p.2.live).map Prod.snd

/-- A rectangle that no region may have (01 R16, 16 R419). -/
def placeBad (s : State) (q : Nat) (r : Region) : Bool :=
  r.orgc % 2 != 0 || r.orgr % 2 != 0 || r.w % 2 != 0 || r.h % 2 != 0 || decide (r.w < 2) || decide (r.h < 2)
    || decide (192 < r.orgc + r.w) || decide (gridRows s < r.orgr + r.h)
    || (others s q).any (overlap r) || (List.range (r.w * r.h)).any (fun i => (r.coreAt s i).isNone) || cutInside s r

def geometryBad (s : State) (q : Nat) (m : Img) (r : Region) : Bool :=
  placeBad s q r || decide (r.w < m.u 8 2) || decide (r.h < m.u 0x0A 2)

/-- Every page of a range translates with write permission. -/
def rangeOk (s : State) (q va n : Nat) : Bool :=
  decide (va + n ≤ 2 ^ 56) && (n == 0 || (List.range ((va + n - 1) / 65536 - va / 65536 + 1)).all fun i =>
    match xlate s q (max va (65536 * (va / 65536 + i))) .write with
    | .ok _ => true
    | .error _ => false)

/-- Two of the ranges meet. -/
def meets : List (Nat × Nat) → Bool
  | [] => false
  | a :: t => t.any (fun b => decide (a.1 < b.1 + b.2) && decide (b.1 < a.1 + a.2)) || meets t

def memoryBad (s : State) (q root ncore : Nat) (m : Img) (l : Loaded) (compl : Nat) : Bool :=
  let areas := [(m.codeva, m.secLen 4), (m.spillva, m.homes * 524288), (m.saveva, ncore * 0x1A8000), (compl, 8)]
    ++ ((l.data.filter fun d => d.buf == 3).map fun d => (d.off, d.data.length))
  root % 4096 != 0 || root / 2 ^ 41 != 0 || !s.ports.getLsbD (root >>> 36) || areas.any (fun a => !rangeOk s q a.1 a.2) || meets areas

/-! Placement (01 R22, R29, 02 R63, 10 R263). -/

/-- What a core holds so far: slots, delivery tiles (buffer, slots from and to, lines from and to), templates. -/
structure Occ where
  slots : List Nat := []
  tiles : List (Nat × Nat × Nat × Nat × Nat) := []
  tmpls : List Nat := []
deriving DecidableEq, Repr

def Replica.tiles (ts : List (BitVec 256)) (r : Replica) : List (Nat × Nat × Nat × Nat × Nat) :=
  r.subs.map fun (p, addr) =>
    let nl := (dSize ((ts.find? fun d => dTid d == p.tensor).getD 0#256) + 63) / 64
    (p.buf.toNat, p.tile, p.tile + p.depth, addr / 64, addr / 64 + p.depth * nl)

/-- Ranges of a template's core-buffer data. -/
def dataOf (l : Loaded) (t : Nat) : List (Nat × Nat × Nat) :=
  (l.data.filter fun d => d.buf != 3 && d.tmpl == t).map fun d => (d.buf, d.off, d.off + d.data.length)

/-- A replica fits at a core. No two replicas on a core own one window, or the plane pair: of two templates that name the same, as of
one template's replicas, the second finds no place there (01 R29; log 68). -/
def fits (l : Loaded) (wins : List (Nat × Nat)) (r : Replica) (o : Occ) : Bool :=
  !(wins.any fun w => w.2 == r.tmpl && wins.any fun x => x.1 == w.1 && o.tmpls.contains x.2)
    && ((r.tiles l.tensors).all fun (b, s0, s1, l0, l1) => o.tiles.all fun (b', t0, t1, m0, m1) =>
        !(decide (s0 < t1) && decide (t0 < s1)) && !(b == b' && decide (l0 < m1) && decide (m0 < l1)))
    && (o.tmpls.all fun k => k == r.tmpl || (dataOf l r.tmpl).all fun (b, x0, x1) => (dataOf l k).all fun (b', y0, y1) =>
        !(b == b' && decide (x0 < y1) && decide (y0 < x1)))

/-- Cores that take tasks: those in service. -/
def serving (s : State) (r : Region) : List Nat :=
  (r.cores s).filter fun n => match (s.coreAt n).halt with | .reset | .failed => false | _ => true

/-- One task is placed: where the environment asks, if it fits, else at the first core and slot that fit. -/
def placeOne (s : State) (r : Region) (l : Loaded) (wins : List (Nat × Nat)) (hint : Option Nat) (t : Replica)
    (occ : Map Occ) : Option (Nat × Nat × Map Occ) :=
  let free (o : Occ) : List Nat := (List.range 16).filter fun i => !o.slots.contains i
  let take (n slot : Nat) : Nat × Nat × Map Occ :=
    let o := findD n {} occ
    (n, slot, insert n { slots := slot :: o.slots, tiles := t.tiles l.tensors ++ o.tiles, tmpls := t.tmpl :: o.tmpls } occ)
  let cs := serving s r
  let good (n : Nat) : Bool := fits l wins t (findD n {} occ) && !(free (findD n {} occ)).isEmpty
  match hint with
  | some h =>
    if cs.contains (h / 16) && good (h / 16) && (free (findD (h / 16) {} occ)).contains (h % 16) then some (take (h / 16) (h % 16))
    else (cs.find? good).map fun n => take n ((free (findD n {} occ)).headD 0)
  | none => (cs.find? good).map fun n => take n ((free (findD n {} occ)).headD 0)

/-- Templates that own a window or the planes, with what they own (R29). -/
def Img.windows (m : Img) : List (Nat × Nat) :=
  ((List.range (m.count 3 16)).filter fun i => m.at 3 (16 * i) 1 == 2).map fun i => (m.at 3 (16 * i + 1) 1, m.at 3 (16 * i + 2) 2)

def Img.place (m : Img) (s : State) (r : Region) (l : Loaded) (hints : List Nat) (ts : List Replica) : Load (List (Nat × Nat)) :=
  let one (a : List (Nat × Nat) × Map Occ) (x : Replica × Nat) : Load (List (Nat × Nat) × Map Occ) :=
    match placeOne s r l m.windows hints[x.2]? x.1 a.2 with
    | some (n, slot, occ) => .ok (a.1 ++ [(n, slot)], occ)
    | none => .error (0x86, x.1.tmpl)
  (ts.zipIdx.foldlM one (([] : List (Nat × Nat)), ([] : Map Occ))).map Prod.fst

/-! The checks in order (R299). -/

/-- The region a record asks for. -/
def askedRegion (r : BitVec 512) : Region :=
  { phase := .loading, space := r.extractLsb' 16 12, orgc := rf r 32 8, orgr := rf r 40 8, w := rf r 64 16, h := rf r 80 16
    det := r.getLsbD 8, netw := r.extractLsb' 96 32, ltag := rLtag r, compl := rCompl r, edgemask := rEdge r }

structure Plan where
  img : Img
  loaded : Loaded
  tasks : List Replica
  places : List (Nat × Nat)
deriving DecidableEq, Repr

/-- Ports that EDGEMASK may not name: absent ones and those of other live regions. -/
def edgeBad (s : State) (q : Nat) (mask : BitVec 32) : Option Nat :=
  (List.range 32).find? fun p => mask.getLsbD p && ((s.link p).absent || (others s q).any fun o => o.edgemask.getLsbD p)

/-- All the checks; `s` holds the record's ROOT. The image is read from host memory, whose reads may fail (R298). -/
def checkLaunch (s : State) (q : Nat) (rec_ : BitVec 512) (unread : Bool) (hints : List Nat) : Load Plan := do
  let m : Img := ⟨s.host, rf rec_ 128 64⟩
  let len := rf rec_ 192 32
  let r := askedRegion rec_
  if recordBad rec_ then .error (0x80, 0)
  if unread ∨ 2 ^ 64 < m.base + len ∨ !m.ok len then .error (0x83, 0)
  if geometryBad s q m r then .error (0x81, 0)
  if r.space = 0#12 ∨ (others s q).any fun o => o.space == r.space then .error (0x82, 0)
  match edgeBad s q r.edgemask with
  | some p => .error (0x87, p)
  | none => .ok ()
  let l ← m.stage1 { ncore := r.w * r.h, regw := r.w, regh := r.h, space := r.space.toNat }
  if memoryBad s q (rf rec_ 256 64) (r.w * r.h) m l r.compl.toNat then .error (0x88, 0)
  match tasksBad (r.w * r.h) l.counts with
  | some j => .error (0x84, j)
  | none => .ok ()
  let ts ← m.stage2 l
  let ps ← m.place s r l hints ts
  .ok ⟨m, l, ts, ps⟩

/-! Loading (R300). -/

/-- Bytes are written at the agents, by lines. -/
def writeRange (q : Nat) (va : Nat) (src : Memory) (n : Nat) (s : State) : State :=
  (List.range ((va + n + 63) / 64 - va / 64)).foldl (fun s i =>
    let line := 64 * (va / 64 + i)
    let a := max va line
    let k := min (va + n) (line + 64) - a
    let s := cacheLeaf s q a
    match agentWrite s q a k (2 ^ k - 1) (rdN src (a - va) k) with
    | .ok s => s
    | .error _ => s) s

/-- A prepared core of the region (07 R167, step 5 of R300). The windows, the planes and MATMODE are cleared too: no byte of an
earlier region is left to be read (log 66), nor in the trap registers. -/
def Core.prepared (r : Region) (q : Nat) (c : Core) : Core :=
  { c.vacate with
    bufW := [], bufA := [], bufC := [], badWord := [], tiles := [], istore := [], ifill := [], ifault := [], gcache := [], darn := []
    trapcause := 0#6, trappc := 0#56, trapval := 0#64, rseq := 0#64, exphist := Vector.replicate 32 0#32, round := 0#32, lrskip := 0#32, delstale := 0#32, stampCyc := 0#32
    windows := [], wf := {}, ws := {}, matmode := 0#10
    region := BitVec.ofNat 32 (65536 * q + r.space.toNat), ncore := BitVec.ofNat 32 (r.w * r.h), regw := BitVec.ofNat 16 r.w
    regh := BitVec.ofNat 16 r.h, detmode := r.det, netw := r.netw, owners := Vector.replicate 5 none }

/-- The delivery tiles of a task (10 R264). -/
def Core.addTiles (c : Core) (sp : BitVec 12) (slot : BitVec 4) (ts : List (BitVec 256)) (t : Replica) : Core :=
  t.subs.foldl (fun c (p, addr) =>
    let d := (ts.find? fun d => dTid d == p.tensor).getD 0#256
    (List.range p.depth).foldl (fun c j =>
      c.setTile (p.tile + j)
        { state := .filling, owner := slot, nb := true, tag := dFmt d, buf := p.buf, sizem1 := BitVec.ofNat 16 (dSize d - 1)
          line := BitVec.ofNat 14 (addr / 64 + j * ((dSize d + 63) / 64)), name := p.pname sp, filler := .delivery none }) c) c

/-- A task is bound at its core. -/
def bindTask (m : Img) (r : Region) (l : Loaded) (task : Nat) (t : Replica) (n slot : Nat) (s : State) : State :=
  let a (off k : Nat) : Nat := m.at 0 (32 * t.tmpl + off) k
  let c := s.coreAt n
  let ts : TaskSlot :=
    { task := BitVec.ofNat 16 task, kernel := BitVec.ofNat 56 (m.codeva + m.at 4 (8 + 8 * a 0 2) 4)
      prio := BitVec.ofNat 3 (a 2 1), fpmode := BitVec.ofNat 3 (a 3 1), subs := t.subs.map Prod.fst }
  let c := { c with slots := c.slots.set (slot % 16) ts (Nat.mod_lt _ (by decide)) }
  let c := c.addTiles r.space (BitVec.ofNat 4 slot) l.tensors t
  let own := (m.windows.filter fun w => w.2 == t.tmpl).map Prod.fst
  let c := own.foldl (fun (c : Core) w => { c with owners := c.owners.set (w % 5) (some (BitVec.ofNat 4 slot)) (Nat.mod_lt _ (by decide)) }) c
  s.setCoreAt n ((l.data.filter fun d => d.buf != 3 && d.tmpl == t.tmpl).foldl (fun (c : Core) d =>
    c.store (BitVec.ofNat 2 d.buf) d.off (pack 8 d.data) d.data.length) c)

/-- The home map as the loader lays it (16 R423). -/
def homeMap (s : State) (r : Region) (e : Nat) : Map HomeEntry :=
  (List.range e).map fun j => (j, { router := (r.coreAt s (j * (r.w * r.h) / e)).getD 0 })

/-- The templates as loaded. -/
def Img.templatesOf (m : Img) (l : Loaded) (ts : List Replica) : List Template :=
  (List.range l.counts.length).map fun j =>
    { first := ((l.counts.take j).map Int.toNat).sum, count := (l.counts.getD j 0).toNat
      kernel := BitVec.ofNat 56 (m.codeva + m.at 4 (8 + 8 * m.at 0 (32 * j) 2) 4)
      prio := BitVec.ofNat 3 (m.at 0 (32 * j + 2) 1), mode := BitVec.ofNat 3 (m.at 0 (32 * j + 3) 1)
      subs := (ts.filter fun t => t.tmpl == j).map fun t => t.subs.map Prod.fst }

/-- Tensors that the image's .pub directives declare. -/
def Img.pubsOf (m : Img) (ts : List (BitVec 256)) : List (BitVec 20) :=
  ((List.range (m.count 3 16)).filter fun i => m.at 3 (16 * i) 1 == 1).map fun i => dTid (ts.getD (m.at 3 (16 * i + 2) 2) 0#256)

/-- Steps 1 to 6 of R300. -/
def loadRegion (q : Nat) (rec_ : BitVec 512) (p : Plan) (s : State) : State :=
  let m := p.img
  let r0 := askedRegion rec_
  let dir : Map DirEntry := p.places.zipIdx.map fun (x, i) => (i, { core := x.1, slot := BitVec.ofNat 4 x.2 })
  let r : Region := { r0 with
    codeva := m.codeva, spillva := m.spillva, saveva := m.saveva, tasks := p.tasks.length, templates := m.templatesOf p.loaded p.tasks
    tensors := p.loaded.tensors, pubs := m.pubsOf p.loaded.tensors, homes := m.homes, home := homeMap s r0 m.homes, dir := dir
    sinks := p.loaded.sinks }
  let s := writeRange q m.codeva p.loaded.code (m.secLen 4) (s.setRegion q r)
  let s := (p.loaded.data.filter fun d => d.buf == 3).foldl (fun s d =>
    writeRange q d.off (wrN [] 0 (pack 8 d.data) d.data.length) d.data.length s) s
  let s := (r.cores s).foldl (fun s n => (s.setCoreAt n ((s.coreAt n).prepared r q)).onRouter n Router.cleared) s
  let s := ((p.tasks.zip p.places).zipIdx).foldl (fun s (x, i) => bindTask m r p.loaded i x.1 x.2.1 x.2.2 s) s
  let s := (List.range 32).foldl (fun s b => if r.edgemask.getLsbD b then s.setBlock b { owner := some q } else s) s
  let s := dir.foldl (fun s (_, e) => installSubs q e.core ((s.coreAt e.core).slots[e.slot.toNat]'e.slot.isLt) s) s
  s.onQueue q fun e => { e with lost := 0#32, seq := [] }

/-- Step 7: once the subscriptions stand, tasks without any fire, and the region runs. -/
def startRegion (q : Nat) (s : State) : State :=
  let r := s.region q
  let s := (r.cores s).foldl (fun s n => s.setCoreAt n (s.coreAt n).satisfyAll) s
  s.onRegion q fun r => { r with phase := .running }

/-- The record has an ABORT. -/
def isAbort (s : State) (d : Nat × BitVec 16) : Bool := rOp (recordAt s d.1 d.2) == 1

/-- The doorbell of a queue whose LAUNCH starts next: the first of those whose region number is free; none while an ABORT is
still to be acted on. -/
def nextLaunch (s : State) : Option (Nat × BitVec 16) :=
  if s.doorbells.any (isAbort s) || s.regions.any (fun p => p.2.phase == .loading) then none
  else s.doorbells.find? fun d => !(s.region d.1).live

/-- LAUNCH: queue q's next record, if it is its turn; a second input of 1 says that the image cannot be read from host memory
(R298), further ones where tasks go, as 16 times the core plus the slot. Later, the same event lets a loaded region run. -/
def execLaunch (s : State) : Out :=
  let q := inp s 0
  if 15 < q then .fault .noSuchItem
  else .next (
    if (s.region q).phase == .loading then
      if s.net.any fun t => t.region == q && (match t.msg with | .sub .. => true | _ => false) then s else startRegion q s
    else
      match nextLaunch s with
      | some (q', j) =>
        if q' ≠ q then s
        else
          let r := recordAt s q j
          let s := { s with doorbells := s.doorbells.erase (q, j), roots := insert q (rf r 256 64) s.roots, tlb := s.tlb.filter fun t => t.region != q }
          match checkLaunch s q r (inp s 1 == 1) (s.input.drop 2) with
          | .ok p => loadRegion q r p s
          | .error (st, d) =>
            let w := completionWord (rLtag r) st d
            launchDone q w (rCompl r) none (finishRecord q j (rLtag r) st (storeCompletion q (rCompl r) w s))
      | none => s)

/-- ABORT (R303): the first ABORT record of queue q whose doorbell has been written. -/
def execAbort (s : State) : Out :=
  let q := inp s 0
  if 15 < q then .fault .noSuchItem
  else .next (
    match s.doorbells.find? fun d => d.1 == q && isAbort s d with
    | none => s
    | some (_, j) =>
      let r := recordAt s q j
      let s := { s with doorbells := s.doorbells.erase (q, j) }
      if (s.region q).live && (s.region q).phase != .ending then finishRecord q j (rLtag r) 0x01 (endRegion q 0x02 s)
      else finishRecord q j (rLtag r) 0x89 s)

/-! Completion (R301). -/

/-- No firing and no command of the listed kinds at a core. -/
def Core.quiet (c : Core) : Bool :=
  (match c.halt with | .no | .failed | .reset => true | _ => false) && !c.running && c.ready.isEmpty && c.yframes.isEmpty && c.matq.isEmpty
    && c.ops.all fun o => match o.kind with
      | .launchr .. | .ecfg .. | .ego .. | .estat _ | .eabort _ => false
      | k => !k.isEngine

/-- Every sink complete, every core quiet, every owned block past its completion publication, all at one instant: a firing that becomes ready
while the controller waits for a block undoes the completion (log 74). -/
def mayComplete (s : State) (reg : Nat) : Bool :=
  let r := s.region reg
  r.phase == .running && (r.sinks.all fun k => decide (k.need ≤ k.seen)) && ((r.cores s).all fun n => (s.coreAt n).quiet)
    && s.blocks.all fun b => b.2.owner != some reg || (b.2.queue.isEmpty && (b.2.state == .idle || b.2.state == .configured))

/-- REGION_COMPLETE: the region ends with DONE, after a wafer release of every core; a region that has ended is freed. -/
def execRegionComplete (s : State) : Out :=
  let reg := inp s 0
  if 15 < reg then .fault .noSuchItem
  else .next (
    if mayComplete s reg then
      let me := s.cur
      let s := ((s.region reg).cores s).foldl (fun s n => waferRelease (s.focus n)) s
      endRecord reg 0x01 0 (s.focus me)
    else if endedFree s reg then freeRegion reg s
    else s)

end Sys2Proof.Machine
end

