-- ==== Sys2Proof/Machine/Resume.lean ====
section
/-! DEFINITION. The resumption of a saved region, in place or on another rectangle (14_traps_and_context R369, 13_counters R336,
10_name_tables R256). -/

namespace Sys2Proof.Machine

/-- A core's place in a region is taken by another core: what no image holds goes with it, the core keeps its own control registers. The place
of a failed core has no image, and its new core serves (14 R371). -/
def Core.inPlaceOf (k old : Core) : Core :=
  { old with cycle := k.cycle, trapvec := k.trapvec, wdlim := k.wdlim, dbgen := k.dbgen, stagger := k.stagger
             halt := if old.halt = .failed then .no else old.halt }

/-- The reverse-path entries of a region's blocks leave the entry routers, or come to them (10 R258). -/
def unlistBlocks (reg : Nat) (s : State) : State :=
  s.blocks.foldl (fun s p => if p.2.owner = some reg then unlistAll p.1 s else s) s
def relistBlocks (reg : Nat) (s : State) : State :=
  s.blocks.foldl (fun s p =>
    if p.2.owner = some reg then
      let r := p.2.armed.foldl (fun (x : State × List Armed) a =>
        if a.listed then let y := listPoint reg p.1 a.name x.1; (y.1, x.2 ++ [{ a with listed := y.2 }]) else (x.1, x.2 ++ [a])) (s, [])
      { r.1 with blocks := insert p.1 { p.2 with armed := r.2 } r.1.blocks }
    else s) s

/-- A saved region comes to another rectangle of equal shape: cores, routers and what is under way keep their places within it, and every
home-map and directory entry is re-bound as by hand-over, for which the reduction slots flush (11 R287). -/
def moveRegion (reg orgc orgr : Nat) (s : State) : State :=
  let s := unlistBlocks reg (flushRegion s reg)
  let r := s.region reg
  let r' : Region := { r with orgc := orgc, orgr := orgr }
  let ps := (r.cores s).zip (r'.cores s)
  let moved (n : Nat) : Nat := ((ps.find? fun p => p.1 == n).map Prod.snd).getD n
  -- every place is left before any is taken: the rectangles may overlap
  let s0 := s
  let s := ps.foldl (fun s p => (s.setCoreAt p.1
    { (s0.coreAt p.1).vacate with
      owners := Vector.replicate 5 none, tiles := [], gcache := [], darn := [],
      halt := if (s0.coreAt p.1).halt = .failed then .failed else .no }).onRouter p.1 Router.cleared) s0
  let s := ps.foldl (fun s p => (s.setCoreAt p.2 ((s0.coreAt p.2).inPlaceOf (s0.coreAt p.1))).setRouter p.2
    { s0.router p.1 with mtfull := (s0.router p.2).mtfull, homeCopy := [] }) s
  let s := { s with
    net := s.net.map fun (t : Token) => if t.region = reg then
        { t with loc := moved t.loc, dest := t.dest.map moved, path := t.path.map moved, src := moved t.src } else t
    notices := s.notices.map fun (n : Notice) => if n.region = reg then { n with core := moved n.core } else n }
  let s := retarget reg (fun c _ => moved c) s
  let s := s.setRegion reg { r' with
    netwq := r.netwq.map (fun p => (moved p.1, p.2)), netwOut := r.netwOut.map fun p => (moved p.1, p.2)
    subPath := r.subPath.foldl (fun m p => insert (subKey (moved (p.1 / 16 / 65536)) (p.1 / 16 % 65536) (p.1 % 16)) (p.2.map moved) m) ([] : Map (List Nat))
    left := r.left.map fun x => (moved x.1, x.2)
    home := r.home.map fun (p : Nat × HomeEntry) => (p.1, { p.2 with router := moved p.2.router, epoch := p.2.epoch + 1#12 })
    dir := r.dir.map fun (p : Nat × DirEntry) => (p.1, { p.2 with core := moved p.2.core, epoch := p.2.epoch + 1#16 }) }
  r.home.foldl (fun s p =>
    post s reg (fromLeader s) 0x05 (0#40 ++ (p.2.epoch + 1#12) ++ BitVec.ofNat 12 p.1)
      (0#32 ++ BitVec.ofNat 16 (moved p.2.router) ++ BitVec.ofNat 16 p.2.router) true none none) (relistBlocks reg s)

/-- Units whose barriers a moved region counts anew, by scope. -/
def unitsOf (s : State) (reg scope : Nat) : List Nat := nub (((s.region reg).cores s).map (unitOf s scope))

/-- The nodes of the units below the region are counted anew, and the members learn the outcome. -/
def recountUnits (reg : Nat) (s : State) : State :=
  [1, 2, 3].foldl (fun s x => (unitsOf s reg x).foldl (fun s u =>
    let n := nodeFrom s reg x u (nodeBase s reg x u)
    notify reg x u n.inst (s.onRegion reg fun r => { r with nodes := insert (nodeKey x u) n r.nodes })) s) s

/-- A core save of the region still awaits its restore (21 R468). -/
def saveOpen (s : State) (q : Nat) : Bool := ((s.region q).cores s).any fun n => (s.coreAt n).moving

/-- The cores of a region whose image stands saved. -/
def savedCores (q : Nat) (s : State) : List Nat :=
  ((s.region q).cores s).filter fun n => match (s.coreAt n).halt with | .region true => true | _ => false

/-- The region ends with FAILED, for an image is refused: what its cores' loads have read until then has cached its translations (08 R203). -/
def refuseResume (q : Nat) (s : State) : State :=
  let r := s.region q
  endRegion q 0x03 ((savedCores q s).foldl (fun (x : State × Bool) n =>
    let ia := r.saveArea s n
    if x.2 then x
    else (cacheLoad q ia (x.1.coreAt n) x.1, match loadAt q ia (x.1.coreAt n) x.1 with | .inl _ => true | .inr _ => false)) (s, false)).1

/-- The cores of a saved region go on; none where an image is refused. -/
def resumeRegion (q : Nat) (s : State) : Option State :=
  let r := s.region q
  let cs := savedCores q s
  (cs.foldlM (fun s n => resumeCore q (r.saveArea s n) n s) s).map fun s => s.onRegion q fun r => { r with phase := .running }

/-- PREEMPT_RESUME (17 R438): a saved region goes on upon its own cores or, with a second input of 1, upon a rectangle of equal shape at
the origin that the next two give. On its own cores the command is taken first, RSTATE reading 3, and the cores go on with a second such
event. A core whose own core save was under way is restored by that before (21 R468). An image that is refused ends the region with
FAILED. -/
def execPreemptResume (s : State) : Out :=
  let q := inp s 0
  let orgc := inp s 2
  let orgr := inp s 3
  if 15 < q then .fault .noSuchItem
  else .next (
    let r := s.region q
    let r' : Region := { r with orgc := orgc, orgr := orgr }
    if r.phase == .resuming then (if saveOpen s q then s else (resumeRegion q s).getD (refuseResume q s))
    else if r.phase != .saved then s
    else if inp s 1 ≠ 1 then s.onRegion q fun r => { r with phase := .resuming }
    else if r.lost || placeBad s q r' || (serving s r').length != r.w * r.h then s
    else
      let s := recountUnits q (moveRegion q orgc orgr s)
      if saveOpen s q then s.onRegion q fun r => { r with phase := .resuming } else (resumeRegion q s).getD (refuseResume q s))

end Sys2Proof.Machine
end

