-- ==== Sys2Proof/Machine/Boot.lean ====
section
/-! DEFINITION. Bring-up: power, the mask ROM, seams, election, firmware, enumeration, restart (16_bring_up R403 to R430), power
loss (17 R449) and run-time seam failure (12 R322). -/

namespace Sys2Proof.Machine

/-! Reticles and seams. -/

/-- The reticle index of an input; out of range is none. -/
def reticleIn (s : State) (f : Nat → State) : Out := if 47 < inp s 0 then .fault .noSuchItem else .next (f (inp s 0))

/-- The reticle across a seam: 0 north, 1 east, 2 south, 3 west; none at the rim. -/
def across (i dir : Nat) : Option Nat :=
  match dir with
  | 0 => if i % 6 = 0 then none else some (i - 1)
  | 1 => if i / 6 = 7 then none else some (i + 6)
  | 2 => if i % 6 = 5 then none else some (i + 1)
  | 3 => if i / 6 = 0 then none else some (i - 6)
  | _ => none

def facing (dir : Nat) : Nat := (dir + 2) % 4

def Reticle.seam (r : Reticle) (dir : Nat) : Seam := r.seams[dir % 4]'(Nat.mod_lt _ (by decide))
def Reticle.setSeam (r : Reticle) (dir : Nat) (x : Seam) : Reticle := { r with seams := r.seams.set (dir % 4) x (Nat.mod_lt _ (by decide)) }
def State.onReticle (s : State) (i : Nat) (f : Reticle → Reticle) : State := s.setReticle i (f (s.reticle i))

/-- Reticles the bridge attaches to: (3, 0), (4, 0), (3, 5), (4, 5). -/
def bridgeSite (i : Nat) : Bool := i == 18 || i == 24 || i == 23 || i == 29

/-- No traffic passes through it (R404). -/
def Reticle.dark (r : Reticle) : Bool := match r.phase with | .off | .dark => true | _ => false

/-- A follower has the firmware, or has been fenced for want of it. -/
def Reticle.settledFw (r : Reticle) : Bool := match r.phase with | .follower => r.loaded | _ => true

/-- The reticle may still become a follower: it has power, and is not dark or under the leader. -/
def Reticle.coming (r : Reticle) : Bool :=
  match r.phase with | .self | .cores | .seams | .elect _ | .claim | .await => true | _ => false

/-- Once every follower is settled and no reticle may still become one, the leader enumerates (log 21). -/
def distributed (s : State) : State :=
  if s.bridge.phase == 4#4 && (List.range 48).all (fun i => (s.reticle i).settledFw && !(s.reticle i).coming) then
    { s with bridge := { s.bridge with phase := 5#4 } }
  else s

/-- A reticle goes dark: its seams are down on both sides. The leader waits for it no longer (R416, R429). -/
def goDark (i code : Nat) (s : State) : State :=
  let s := s.onReticle i fun r => { r with phase := .dark, code := code, votes := [], heard := [], seams := r.seams.map fun x => if x == .edge then .edge else .down }
  distributed ((List.range 4).foldl (fun s d => match across i d with
    | some j => s.onReticle j fun r => if r.seam (facing d) == .up then r.setSeam (facing d) .down else r
    | none => s) s)

/-! Ballots (R408). -/

def Reticle.cand (r : Reticle) (i : Nat) : Bool := bridgeSite i && r.attached

def Reticle.ballot (r : Reticle) (i : Nat) : BitVec 32 :=
  BitVec.ofNat 10 (if r.fenced then 0 else r.healthy) ++ BitVec.ofBool (r.cand i) ++ BitVec.ofNat 3 (i % 6) ++ BitVec.ofNat 3 (i / 6) ++ 0#15

/-- Of two candidate ballots the winner: larger HEALTHY, then lower ROW, then lower COL. -/
def wins (a b : BitVec 32) : Bool :=
  let h (x : BitVec 32) : Nat := (x.extractLsb' 22 10).toNat
  let p (x : BitVec 32) : Nat := 8 * (x.extractLsb' 18 3).toNat + (x.extractLsb' 15 3).toNat
  decide (h b < h a) || (h a == h b && decide (p a < p b))

def better : Option (BitVec 32) → Option (BitVec 32) → Option (BitVec 32)
  | some a, some b => if wins b a then some b else some a
  | some a, none => some a
  | none, b => b

/-! Election (R409). -/

/-- A reticle sends its best for a round over every seam that is up. -/
def sendRound (i k : Nat) (s : State) : State :=
  (List.range 4).foldl (fun s d =>
    match across i d with
    | some j =>
      if (s.reticle i).seam d == .up then s.onReticle j fun r => { r with votes := r.votes ++ [(k, facing d, (s.reticle i).best)] }
      else s
    | none => s) s

/-- A reticle advances while it holds its round's message from every seam that is up; after round 14 it claims or waits. -/
def advance (i : Nat) : Nat → State → State
  | 0, s => s
  | n + 1, s =>
    let r := s.reticle i
    match r.phase with
    | .elect k =>
      if (List.range 4).all fun d => r.seam d != .up || r.heard.contains (k, d) then
        if k < 14 then advance i n (sendRound i (k + 1) (s.setReticle i { r with phase := .elect (k + 1) }))
        else s.setReticle i { r with phase := if r.cand i && r.best == some (r.ballot i) then .claim else .await }
      else s
    | _ => s

def setPhase (n : BitVec 4) (s : State) : State :=
  { s with bridge := { s.bridge with phase := if s.bridge.phase.ult n then n else s.bridge.phase } }

/-- All of a reticle's seams are down or at the rim, and no attachment has trained. -/
def Reticle.cutOff (r : Reticle) (i : Nat) : Bool := r.seams.toList.all (fun x => x == .down || x == .edge) && !r.cand i

/-- A seam of reticle k that was up is down. Before FOLLOWER, with all seams down and no trained attachment, it fences itself; in ELECT a
round may now be complete (R409, R412). -/
def seamLost (k : Nat) (s : State) : State :=
  let r := s.reticle k
  match r.phase with
  | .elect _ => if r.cutOff k then goDark k 3 s else advance k 16 s
  | .claim | .await => if r.cutOff k then goDark k 3 s else s
  | _ => s

/-- A reticle whose seams are all settled enters ELECT, or fences itself (R407, R412). -/
def settleSeams (i : Nat) (s : State) : State :=
  let r := s.reticle i
  if r.phase != .seams || r.seams.toList.any (· == .untrained) then s
  else if r.cutOff i then goDark i 3 s
  else
    let b := if r.cand i then some (r.ballot i) else none
    advance i 16 (sendRound i 0 (setPhase 2#4 (s.setReticle i { r with phase := .elect 0, best := b })))

/-! Power-up and the ROM (R403, R405 to R407). -/

/-- POWER_GOOD: in ascending index; further input: the fuse that core-fences the reticle. -/
def execPowerGood (s : State) : Out :=
  reticleIn s fun i =>
    if (s.reticle i).phase == .off && (List.range i).all fun j => (s.reticle j).phase != .off then
      let f := inp s 1 == 1
      let s := s.setReticle i { phase := .self, fenced := f }
      setPhase 1#4 { s with bridge := { s.bridge with grade40 := s.bridge.grade40 || f } }
    else s

/-- ROM_SELF_TEST. -/
def execRomSelfTest (s : State) : Out :=
  reticleIn s fun i =>
    if (s.reticle i).phase != .self then s
    else if inp s 1 = 1 then s.onReticle i fun r => { r with phase := .cores }
    else goDark i 2 s

/-- A reticle enters SEAMS; sides at the rim are edges. -/
def Reticle.enterSeams (r : Reticle) (i : Nat) : Reticle :=
  { r with phase := .seams, seams := Vector.ofFn fun (d : Fin 4) => if (across i d.val).isNone then .edge else .untrained }

/-- CORES ends with a router plane that passed: the defects of the cores are recorded by NODE. A core-fenced reticle has run the
router-plane part alone. -/
def recordCores (i : Nat) (nodes : List Nat) (s : State) : State :=
  s.onReticle i fun r => { r.enterSeams i with defects := if r.fenced then [] else (nodes.filter (· < 600)).eraseDups }

/-- ROM_CORE_TEST: the router plane, then the physical cores with a defect. -/
def execRomCoreTest (s : State) : Out :=
  reticleIn s fun i =>
    if (s.reticle i).phase != .cores then s
    else if inp s 1 = 1 then recordCores i (s.input.drop 2) s
    else goDark i 2 s

/-- Untrained seams go down. -/
def seamTimeout (i : Nat) (s : State) : State :=
  settleSeams i (s.onReticle i fun r => { r with seams := r.seams.map fun x => if x == .untrained then .down else x })

/-- PHASE_OVERRUN: SELF and the router-plane part of CORES leave the reticle dark, SEAMS its untrained seams down. Where CORES overruns
with the router plane passed (second input 1), the cores that failed or were not done are recorded, as for a failure (R405, R406). -/
def execPhaseOverrun (s : State) : Out :=
  reticleIn s fun i =>
    match (s.reticle i).phase with
    | .self => goDark i 2 s
    | .cores => if inp s 1 = 1 && !(s.reticle i).fenced then recordCores i (s.input.drop 2) s else goDark i 2 s
    | .seams => seamTimeout i s
    | _ => s

/-- SEAM_TRAINING: up where both sides are in SEAMS and the links pass, else down on both sides. -/
def execSeamTraining (s : State) : Out :=
  reticleIn s fun i =>
    let d := inp s 1
    match across i d with
    | none => s
    | some j =>
      let a := s.reticle i
      let b := s.reticle j
      let ready (r : Reticle) (d : Nat) : Bool := r.phase == .seams && r.seam d == .untrained
      if a.phase != .seams || a.seam d != .untrained then s
      else if ready b (facing d) then
        let x : Seam := if inp s 2 = 1 then .up else .down
        settleSeams j (settleSeams i ((s.setReticle i (a.setSeam d x)).setReticle j (b.setSeam (facing d) x)))
      else if b.seam (facing d) == .down then settleSeams i (s.setReticle i (a.setSeam d .down))
      else s

def execSeamTrainTimeout (s : State) : Out :=
  reticleIn s fun i => if (s.reticle i).phase == .seams then seamTimeout i s else s

/-- BRIDGE_ATTACHMENT_TRAINING: before the reticle enters ELECT. -/
def execBridgeAttachmentTraining (s : State) : Out :=
  reticleIn s fun i =>
    if bridgeSite i && (s.reticle i).phase == .seams then s.onReticle i fun r => { r with attached := inp s 1 == 1 } else s

/-! The election's events. -/

/-- ELECT_ROUND_MESSAGE: the first message on its way from a direction is received. -/
def execElectRoundMessage (s : State) : Out :=
  reticleIn s fun i =>
    let d := inp s 1
    let r := s.reticle i
    match r.phase, r.votes.find? fun v => v.2.1 == d with
    | .elect _, some v =>
      if r.seam d != .up then s
      else advance i 16 (s.setReticle i { r with votes := r.votes.erase v, heard := (v.1, d) :: r.heard, best := better r.best v.2.2 })
    | _, _ => s

/-- CLAIM: into the open window, or opening it; after a grant it is refused. -/
def execClaim (s : State) : Out :=
  reticleIn s fun i =>
    let r := s.reticle i
    let b := r.ballot i
    if r.phase != .claim then s
    else if s.bridge.leader.isSome then s.setReticle i { r with phase := .await }
    else
      let w := s.bridge.window.getD []
      if w.contains b then s else { s with bridge := { s.bridge with window := some (w ++ [b]) } }

/-- CLAIM_WINDOW_CLOSE: the winner is granted, the others wait for its LEAD. -/
def execClaimWindowClose (s : State) : Out :=
  .next (match s.bridge.window with
    | some (b :: t) =>
      let w := t.foldl (fun a x => if wins x a then x else a) b
      let site (x : BitVec 32) : Nat := 6 * (x.extractLsb' 15 3).toNat + (x.extractLsb' 18 3).toNat
      let s := (b :: t).foldl (fun s x => s.onReticle (site x) fun r => { r with phase := if x = w then .leader else .await }) s
      setPhase 3#4 { s with bridge := { s.bridge with window := none, leader := some (site w) } }
    | _ => s)

/-- The reticle has LEAD and passes it on. -/
def Reticle.leads (r : Reticle) : Bool := match r.phase with | .leader | .follower | .enum | .ready | .fwFenced => true | _ => false

/-- A reticle holds LEAD to pass over a seam. -/
def leadOver (s : State) (i d : Nat) : Bool :=
  (s.reticle i).seam d == .up && match across i d with | some j => (s.reticle j).leads | none => false

/-- LEAD reaches a waiting reticle over the seams of the further inputs in one cycle: the parent is the first of them in the order north,
east, south, west (R411, R430). -/
def execLead (s : State) : Out :=
  reticleIn s fun i =>
    match (List.range 4).find? fun d => (s.input.drop 1).contains d && leadOver s i d with
    | some d => if (s.reticle i).phase == .await then s.onReticle i fun r => { r with phase := .follower, parent := some d } else s
    | none => s

/-- Reticles connected over seams that are up. -/
def component (s : State) : Nat → List Nat → List Nat
  | 0, l => l
  | n + 1, l =>
    component s n (l.foldl (fun a i => (List.range 4).foldl (fun a d =>
      match across i d with
      | some j => if (s.reticle i).seam d == .up && !a.contains j then a ++ [j] else a
      | none => a) a) l)

/-- LEAD_TIMEOUT: a waiting reticle to whose component no LEAD will come fences itself, and so does a neighbour that it leaves cut off. -/
def execLeadTimeout (s : State) : Out :=
  reticleIn s fun i =>
    let live := (component s 48 [i]).any fun j => (s.reticle j).leads || match (s.reticle j).phase with | .elect _ | .claim => true | _ => false
    if (s.reticle i).phase == .await && !live then ((List.range 4).filterMap (across i)).foldl (fun s k => seamLost k s) (goDark i 3 s)
    else s

/-- The election is still on somewhere. -/
def electing (r : Reticle) : Bool := match r.phase with | .off | .self | .cores | .seams | .elect _ | .claim => true | _ => false

/-- NOLEADER: no claim has come and none will. PHASE then reads stopped, which R427 says of ENUMFAIL alone, and FENCED still reads
zero (log 21). -/
def execNoleader (s : State) : Out :=
  .next (
    if s.bridge.leader.isNone && s.bridge.window.isNone && s.bridge.phase.ult 3#4 && (List.range 48).all fun i => !electing (s.reticle i) then
      { s with bridge := { s.bridge with err := 1#4, phase := 7#4 } }
    else s)

/-! Firmware (R413 to R416). -/

/-- The SVNMIN of the fuses: as set at test, or as verified firmware has raised it. -/
def Bridge.leastSvn (b : Bridge) : Nat := max Config.svnMin b.svnMin.toNat

/-- verify(img) of R414 on an image of n bytes in memory, against an SVNMIN. -/
def verifyImage (least : Nat) (m : Memory) (a n : Nat) : Option (BitVec 512 × BitVec 16) :=
  let u (off k : Nat) : Nat := rdN m (a + off) k
  let body := u 8 4
  let key := rdBytes m (a + 0x40) 1793
  let hash := Config.shake256 (rdBytes m a 64 ++ rdBytes m (a + 0xC80) body) 64
  if u 0 2 ≠ 0x4B46 ∨ u 2 2 ≠ 1 ∨ 4194304 < body ∨ body % 64 ≠ 0 ∨ body ≤ u 12 4 ∨ n < 0xC80 + body then none
  else if Config.shake256 key 64 ≠ Config.keyHash ∨ u 4 2 < least then none
  else if Config.falconVerify key hash (rdBytes m (a + 0x780) 1280) then some (BitVec.ofNat 512 (natOfBytes hash), BitVec.ofNat 16 (u 4 2))
  else none

/-- BOOT_DESCRIPTOR_POLL: the leader reads the descriptor, and keeps what it has read. -/
def execBootDescriptorPoll (s : State) : Out :=
  .next (if s.bridge.phase == 3#4 && s.bridge.valid && s.bridge.leader.isSome && !s.bridge.fetching then
    { s with bridge := { s.bridge with fetching := true, polledImg := s.bridge.img, polledLen := s.bridge.len } } else s)

/-- FIRMWARE_FETCH: the image of the descriptor as polled, read into the leader's SRAM, is verified; a fetch in which VALID was cleared has failed. The next fetch waits
for VALID again. A third failure reports FWFAIL, and PHASE then reads stopped, which R427 says of ENUMFAIL alone (log 21). -/
def execFirmwareFetch (s : State) : Out :=
  .next (
    let b := s.bridge
    match b.leader with
    | none => s
    | some l =>
      if !b.fetching || b.phase != 3#4 then s
      else
        match (if inp s 0 = 1 && b.valid && !b.fetchLost then verifyImage b.leastSvn s.host b.polledImg.toNat b.polledLen.toNat else none) with
        | some (h, v) =>
          let s := s.onReticle l fun r => { r with loaded := true }
          let held := cutMem b.polledImg.toNat b.polledLen.toNat s.host
          distributed { s with bridge := { b with fetching := false, fetched := true, image := held, fwhash := h, svn := v, phase := 4#4 } }
        | none =>
          if b.fetches = 2 then { s with bridge := { b with fetches := 3, fetching := false, err := 2#4, phase := 7#4 } }
          else { s with bridge := { b with fetches := b.fetches + 1, fetching := b.valid && !b.fetchLost, fetchLost := false } })

/-- A follower's turn: at most four of lower index are still waiting for theirs (R416). -/
def sendTurn (s : State) (i : Nat) : Bool :=
  let r := s.reticle i
  r.phase == .follower && !r.loaded && decide (((List.range i).filter fun j => !(s.reticle j).settledFw).length < 4)

/-- A failed receipt; the third fences the follower. -/
def failReceipt (i : Nat) (s : State) : State :=
  distributed (s.onReticle i fun r => if 2 ≤ r.tries then { r with tries := 3, phase := .fwFenced, code := 4 } else { r with tries := r.tries + 1 })

/-- The copy of the image that a follower receives; further inputs, in pairs: the offset of a byte that arrives changed, and its value. -/
def receivedCopy (m : Memory) : List Nat → Memory
  | off :: x :: t => receivedCopy (wrN m off x 1) t
  | _ => m

/-- The follower's own verification of its copy passes (R416). -/
def copyVerified (s : State) : Bool := (verifyImage s.bridge.leastSvn (receivedCopy s.bridge.image (s.input.drop 1)) 0 s.bridge.polledLen.toNat).isSome

/-- FIRMWARE_RECEIVE: the follower verifies its copy. A failure that it reports once enumeration has begun fences it (R430). -/
def execFirmwareReceive (s : State) : Out :=
  reticleIn s fun i =>
    let ok := copyVerified s
    if s.bridge.phase == 5#4 && (s.reticle i).phase == .follower && !ok then
      s.onReticle i fun r => { r with phase := .fwFenced, code := 4 }
    else if s.bridge.phase != 4#4 || !sendTurn s i then s
    else if ok then distributed (s.onReticle i fun r => { r with loaded := true })
    else failReceipt i s

def execFollowerReportTimeout (s : State) : Out :=
  reticleIn s fun i => if s.bridge.phase == 4#4 && sendTurn s i then failReceipt i s else s

/-! Enumeration (R417 to R428). -/

/-- STATE of R426. -/
def Reticle.state (r : Reticle) : Nat :=
  match r.phase with
  | .leader | .follower | .enum | .ready => if r.fenced then 1 else 0
  | .fwFenced => 4
  | _ => if r.code = 0 then 2 else r.code

/-- The logical row of a reticle: its place among its column's bound reticles, 7 for a core-fenced one (R417). -/
def logicalRow (s : State) (i : Nat) : Nat :=
  if (s.reticle i).fenced then 7
  else ((List.range (i % 6)).filter fun row => !(s.reticle (6 * (i / 6) + row)).fenced).length

/-- The W40 can form its grid: each column has one core-fenced reticle, and none of them failed SELF or its router plane (R429). One that is
firmware-fenced, or outside the component, leaves the grid as the fuses fix it (R417). -/
def gridForms (s : State) : Bool :=
  !s.bridge.grade40 || (List.range 8).all fun c =>
    ((List.range 6).filter fun row => (s.reticle (6 * c + row)).fenced).length == 1
      && (List.range 6).all fun row => !(s.reticle (6 * c + row)).fenced || (s.reticle (6 * c + row)).state != 2

/-- Primary and alternate rim reticles of a hem die (R421). -/
def hemSites (h : Nat) : Nat × Nat :=
  let row (k : Nat) : Nat := match k with | 0 => 0 | 1 => 1 | 2 => 3 | _ => 4
  if h < 4 then (12 * h, 12 * h + 6)
  else if h < 8 then (12 * (h - 4) + 5, 12 * (h - 4) + 11)
  else if h < 12 then (row (h - 8), row (h - 8) + 1)
  else (42 + row (h - 12), 42 + row (h - 12) + 1)

/-- The attachment a die uses: 0 primary, 1 alternate, 3 none. -/
def hemUsed (s : State) (h : Nat) : Nat :=
  if !(s.reticle (hemSites h).1).dark then 0 else if !(s.reticle (hemSites h).2).dark then 1 else 3

/-- A link port is absent (R421). -/
def linkAbsent (s : State) (p : Nat) : Bool :=
  let r := s.reticle (reticleOf (rimRouter p))
  r.dark || r.defects.contains (nodeOf (rimRouter p))

def seamUp (s : State) (i d : Nat) : Bool := (s.reticle i).seam d == .up

/-- The header of the topology record (R425). -/
def topologyHeader (s : State) (avail : Nat) : BitVec 512 :=
  (0#352 ++ s.bridge.epoch ++ BitVec.ofNat 16 avail ++ BitVec.ofNat 8 (if s.bridge.grade40 then 5 else 6)
    ++ BitVec.ofNat 8 ((List.range 48).filter fun i => (s.reticle i).state == 0).length ++ BitVec.ofNat 8 (s.bridge.leader.getD 255)
    ++ BitVec.ofNat 8 (if s.bridge.grade40 then 1 else 0) ++ 0#16 ++ 0x1580#32 ++ 1#16 ++ 0x4B54#16)

/-- A reticle-table entry (R426). -/
def topologyReticle (s : State) (i : Nat) : Nat :=
  let r := s.reticle i
  let bound := r.state == 0
  let skips := (List.range 24).map fun c => if bound then r.skip c else 31
  pack 5 skips * 2 ^ 72 + (if bound then r.healthy else 0) * 2 ^ 38 + r.lrow * 2 ^ 35 + r.state * 2 ^ 24 + i

/-- A logical core is absent; rows beyond the grid are (R424). -/
def coreAbsent (s : State) (x y : Nat) : Bool := (physOf s x y).isNone

/-- The topology record (R424). -/
def topologyRecord (s : State) (dies : Nat) : Memory :=
  let absent := (List.range (192 * 144)).map fun i => if coreAbsent s (i % 192) (i / 192) then 1 else 0
  let m := wrN [] 0 (topologyHeader s (192 * gridRows s - ((absent.take (192 * gridRows s)).filter (· == 1)).length)).toNat 64
  let m := (List.range 48).foldl (fun m i => wrN m (0x40 + 32 * i) (topologyReticle s i) 32) m
  let m := wrN m 0x640 (pack 1 ((List.range 48).map fun i => if seamUp s i 1 then 1 else 0)) 8
  let m := wrN m 0x648 (pack 1 ((List.range 48).map fun i => if seamUp s i 2 then 1 else 0)) 8
  let m := (List.range 16).foldl (fun m h =>
    let live := dies.testBit h && hemUsed s h != 3
    let ports := (if s.ports.getLsbD (2 * h) then 1 else 0) + (if s.ports.getLsbD (2 * h + 1) then 2 else 0)
    wrN m (0x680 + 8 * h) ((if live then 0 else 1) + 256 * ports + 65536 * hemUsed s h) 8) m
  let m := (List.range 32).foldl (fun m p =>
    let c := rimRouter p
    wrN m (0x700 + 8 * p) ((if linkAbsent s p then 1 else 0) + 256 * reticleOf c + 65536 * c) 8) m
  wrN m 0x800 (pack 1 absent) 3456

/-- The stagger slot of a physical core (R422). -/
def staggerOf (code : Nat) : Nat := (9 * (code / 32 % 32) + 5 * (code % 32) + 17 * reticleOf code) % 64

/-- Release of a core (14 R351). -/
def Core.release (trapvec wdlim dbgen : Nat) (code : Nat) : Core :=
  { Core.reset with
    fwm := false, halt := .no, trapvec := BitVec.ofNat 56 trapvec &&& ~~~(0x3FFF#56), wdlim := BitVec.ofNat 32 wdlim
    dbgen := BitVec.ofNat 1 dbgen, stagger := BitVec.ofNat 6 (staggerOf code) }

/-- The boot-time fencings as records (R428). -/
def bootRecords (s : State) : State :=
  (List.range 48).foldl (fun s i =>
    let st := (s.reticle i).state
    let s := if 2 ≤ st then post s 16 (fromLeader s) 0x04 (BitVec.ofNat 64 (i + 256 * st)) 0#64 true none none else s
    [1, 2].foldl (fun s d =>
      match across i d with
      | some j =>
        if (s.reticle i).seam d == .down && !(s.reticle i).dark && !(s.reticle j).dark then
          post s 16 (fromLeader s) 0x03 (BitVec.ofNat 64 (i + 64 * d + 256)) 0#64 true none none
        else s
      | none => s) s) s

def enumFail (s : State) : State := { s with bridge := { s.bridge with err := 3#4, phase := 7#4 } }

/-- ENUMERATION: grid, ports, link table, record, the firmware's trap-handler area and root, release of the cores, wafer time, boot
records (R427). Inputs: hem dies that passed their test, ports whose stack is good, firmware root, TRAPVEC, WDLIM, DBGEN, the SVNMIN that
the verified firmware asks for, which the fuses take where it is the larger (R414), and the lines of the firmware's area and tables.
FENCED is counted here (log 21). -/
def execEnumeration (s : State) : Out :=
  .next (
    if s.bridge.phase != 5#4 then s
    else
      let s := (List.range 48).foldl (fun s i => s.onReticle i fun r => { r with lrow := logicalRow s i, code := r.state }) s
      if !gridForms s || (List.range 48).all (fun i => (s.reticle i).state != 0) then enumFail s
      else
        let dies := inp s 0
        let stks := inp s 1
        let ports := pack 1 ((List.range 32).map fun p =>
          if dies.testBit (p / 2) && stks.testBit p && hemUsed s (p / 2) != 3 then 1 else 0)
        let s := { s with ports := BitVec.ofNat 32 ports, roots := insert 16 (inp s 2) s.roots, hbm := writeLines s.hbm (s.input.drop 7) }
        let s := { s with links := (List.range 32).map fun p => (p, { s.link p with absent := linkAbsent s p, up := false }) }
        let fenced := ((List.range 48).filter fun i => decide (2 ≤ (s.reticle i).state)).length
        let least := BitVec.ofNat 16 (max s.bridge.svnMin.toNat (inp s 6 % 65536))
        let s := { s with bridge := { s.bridge with fenced := fenced, topology := topologyRecord s dies, svnMin := least } }
        let codes := (List.range (192 * gridRows s)).filterMap fun i => physOf s (i % 192) (i / 192)
        let s := codes.foldl (fun s c => s.setCoreAt c (Core.release (inp s 3) (inp s 4) (inp s 5) c)) s
        let s := (List.range 48).foldl (fun s i => s.onReticle i fun r =>
          { r with time := 0#64, phase := match r.phase with | .leader | .follower => .ready | p => p }) s
        bootRecords { s with bridge := { s.bridge with phase := 6#4 } })

/-- ENUM_TIMEOUT. -/
def execEnumTimeout (s : State) : Out := .next (if s.bridge.phase == 5#4 then enumFail s else s)

/-! Restart and power loss (R427, R430, 17 R449). -/

/-- RESTART: a waiting debug write is refused with ERR (17 R450); every powered reticle returns to SELF; regions, queues of the leader and all that the wafer held in its reticles
are gone, memory is not touched (log 21). -/
def restart (s : State) : State :=
  let b := s.bridge
  { State.reset with
    agenda := s.agenda, input := s.input, fresh := s.fresh, hbm := s.hbm, badLine := s.badLine, host := s.host, clock := s.clock
    resume := s.resume
    reticles := s.reticles.map fun (p : Nat × Reticle) =>
      (p.1, if p.2.phase == .off then p.2 else { phase := .self, fenced := p.2.fenced, time := p.2.time })
    queues := s.queues.map fun (p : Nat × EventQueue) => (p.1, { p.2 with staged := [], waiting := [], seq := [] })
    bridge := { b with
      phase := 1#4, err := 0#4, leader := none, fenced := 0, epoch := b.epoch + 1#32, window := none, fetches := 0, fetching := false
      fetchLost := false, fetched := false, image := [], wtset := false, attBusy := false, attRefused := b.attRefused || b.attBusy, topology := [], dbgwrite := []
      dbgerr := b.dbgerr || !b.dbgwrite.isEmpty } }

def execBootctlRestart (s : State) : Out := .next (restart s)

/-- BOOTCTL VALID; cleared during the leader's fetch, it fails that fetch (R430). -/
def execBootctlValid (s : State) : Out :=
  let v := inp s 0 % 2 == 1
  .next { s with bridge := { s.bridge with valid := v, fetchLost := s.bridge.fetchLost || (s.bridge.fetching && !v) } }

/-- COOLANT_OVERTEMP: the module loses power; only the host's memory and the fuses are left. -/
def execCoolantOvertemp (s : State) : Out :=
  .next { State.reset with
    agenda := s.agenda, input := s.input, fresh := s.fresh, host := s.host, bridge := { svnMin := s.bridge.svnMin } }

/-! Seam failure (12 R322, R409). -/

/-- The seam lies inside a region. -/
def seamCuts (s : State) (i d : Nat) (r : Region) : Bool :=
  let col := i / 6
  let lrow := (s.reticle i).lrow
  match d with
  | 1 => decide (lrow < 6) && decide (r.orgc ≤ 24 * col + 23) && decide (24 * col + 24 < r.orgc + r.w) && decide (r.orgr < 24 * lrow + 24)
          && decide (24 * lrow < r.orgr + r.h)
  | _ => decide (lrow < 6) && decide (r.orgr ≤ 24 * lrow + 23) && decide (24 * lrow + 24 < r.orgr + r.h) && decide (r.orgc < 24 * col + 24)
          && decide (24 * col < r.orgc + r.w)

/-- SEAM_FAILURE: a seam that was up is down. In ELECT it leaves both wait sets and its messages are discarded; later a
SEAM_DOWN record is written to the PF queue and to each region affected, which is recovered as for CORE_LOST: the cores of a region that
the seam cuts fail (14 R371; log 56). Further inputs: tokens that were in its queues; 65,536 plus a region, where other traffic of the
region was. -/
def execSeamFailure (s : State) : Out :=
  reticleIn s fun i =>
    let d := inp s 1
    match across i d with
    | none => s
    | some j =>
      if (s.reticle i).seam d != .up then s
      else
        let cut (k d : Nat) (s : State) : State :=
          s.onReticle k fun r => { r.setSeam d .down with votes := r.votes.filter fun v => v.2.1 != d }
        let s := cut j (facing d) (cut i d s)
        if s.bridge.phase.ult 6#4 then
          [i, j].foldl (fun s k => seamLost k s) s
        else
          let (a, e) := if d = 1 ∨ d = 2 then (i, d) else (j, facing d)
          let hit := (s.regions.filter fun p => p.2.live && seamCuts s a e p.2).map Prod.fst
          let gone := s.input.drop 2
          let struck := gone.filterMap fun k => if k < 65536 then (s.net[k]?).map Token.region else some (k - 65536)
          let all := nub (hit ++ struck.filter fun q => (s.region q).live)
          let p0 := BitVec.ofNat 64 (i + 64 * d)
          let me := s.cur
          let s := { s with net := (s.net.zipIdx.filter fun x => !gone.contains x.2).map Prod.fst }
          let s := post s 16 (fromLeader s) 0x03 p0 0#64 true none none
          let s := all.foldl (fun s r => post (s.onRegion r fun x => { x with lost := true }) r (fromLeader s) 0x03 p0 0#64 true none none) s
          (hit.foldl (fun s q => ((s.region q).cores s).foldl (fun s n => failCore true true true (s.focus n)) s) s).focus me

end Sys2Proof.Machine
end

