-- ==== Sys2Proof/Machine/Host.lean ====
section
/-! DEFINITION. What the host does at the bridge: registers of the control window, launch pages and event queues, attestation,
wafer time, and the debug window (17_host_and_links R434 to R450, 16_bring_up R427, R431, R432, 20 R463, R464). A host access
takes a whole register, or a whole 8-byte word of a ring, record or aperture (log 22). -/

namespace Sys2Proof.Machine

/-! Registers as the host reads them (R434, R436 to R438, R441, R444). -/

def bootstat (b : Bridge) : Nat :=
  b.phase.toNat * 2 ^ 28 + b.err.toNat * 2 ^ 24 + (b.leader.getD 255) * 2 ^ 16 + b.fenced

def Link.word (l : Link) : W64 := BitVec.ofBool l.up ++ BitVec.ofBool l.absent ++ l.farw ++ l.farp ++ 0#19 ++ l.retry

/-- RSTATE of a launch page. -/
def rstate (s : State) (q : Nat) : Nat :=
  match (s.region q).phase with | .halting => 1 | .saved => 2 | .resuming => 3 | _ => 0

def EventQueue.register (e : EventQueue) (off : Nat) : Nat :=
  match off with
  | 0x00 => e.base.toNat | 0x08 => e.size.toNat | 0x10 => e.tail.toNat | 0x18 => e.head.toNat | 0x20 => e.lost.toNat | _ => 0

/-- A word of a launch page. -/
def pageRead (s : State) (q off : Nat) : Nat :=
  let p := s.page q
  if off < 0x400 then rdN p.ring off 8
  else if off = 0x400 then p.tail.toNat
  else if off = 0x408 then p.head.toNat
  else if off = 0x410 then p.ltag.toNat * 2 ^ 32 + p.status.toNat * 2 ^ 24 + (if p.ovf then 1 else 0)
  else if off = 0x420 then 4 * rstate s q
  else if 0x440 ≤ off ∧ off < 0x468 then (s.queue q).register (off - 0x440)
  else 0

/-- A register or word of the control window. -/
def controlRead (s : State) (off : Nat) : Nat :=
  let b := s.bridge
  if off = 0x00 then (if b.grade40 then 1 else 0) + 256 * (Config.serial.toNat % 2 ^ 56)
  else if off = 0x08 then (if b.valid then 1 else 0)
  else if off = 0x10 then bootstat b
  else if off = 0x18 then b.img.toNat
  else if off = 0x20 then b.len.toNat
  else if off = 0x48 then (timeAt s 48).toNat
  else if off = 0x80 then (if b.attDone then 2 else 0) + (if b.attRefused then 4 else 0)
  else if off = 0x100 then b.podcfg.toNat
  else if 0x180 ≤ off ∧ off < 0x200 ∧ off % 8 = 0 then (b.podmemb.toList.getD ((off - 0x180) / 8) 0#64).toNat
  else if 0x200 ≤ off ∧ off < 0x300 ∧ off % 8 = 0 then (s.link ((off - 0x200) / 8)).word.toNat
  else if 0x400 ≤ off ∧ off < 0x428 then (s.queue 16).register (off - 0x400)
  else if 0x1000 ≤ off ∧ off < 0x2580 then rdN b.topology (off - 0x1000) 8
  else if 0x3000 ≤ off ∧ off < 0x3D60 then rdN b.report (off - 0x3000) 8
  else 0

/-! Register writes without a row of their own. -/

/-- EQBASE and EQSIZE, while the queue is empty (R441). -/
def EventQueue.configure (e : EventQueue) (off : Nat) (x : Nat) : EventQueue :=
  if e.head ≠ e.tail then e
  else
    match off with
    | 0x00 => { e with base := BitVec.ofNat 64 x &&& ~~~0xFFF#64 }
    | 0x08 => { e with size := if 6 ≤ x % 256 ∧ x % 256 ≤ 16 then BitVec.ofNat 8 x else 0#8 }
    | _ => e

/-- A write to launch page q: the ring, OVF, the event queue. -/
def pageWrite (q off x : Nat) (s : State) : State :=
  let p := s.page q
  if off < 0x400 ∧ off % 8 = 0 then s.setPage q { p with ring := wrN p.ring off x 8 }
  else if off = 0x410 ∧ x % 2 = 1 then s.setPage q { p with ovf := false }
  else if off = 0x440 ∨ off = 0x448 then s.onQueue q fun e => e.configure (off - 0x440) x
  else s

/-- A region runs: its firings do, or the save or the resume of them is under way. -/
def Region.runs (r : Region) : Bool := match r.phase with | .running | .halting | .resuming => true | _ => false

/-- PODCFG, unless a region runs: EN clear leaves no port UP, and EN set makes each port exchange anew (R448). -/
def setPodcfg (x : Nat) (s : State) : State :=
  if s.regions.any fun p => p.2.runs then s
  else
    let v : BitVec 32 := BitVec.ofNat 32 x &&& 0x80003F3F#32
    let s := { s with bridge := { s.bridge with podcfg := v } }
    { s with links := s.links.map fun (p : Nat × Link) => (p.1, { p.2 with up := p.2.up && v.getLsbD 31, down := p.2.down && !v.getLsbD 31 }) }

/-- A write to the control window. -/
def controlWrite (off x : Nat) (s : State) : State :=
  let b := s.bridge
  if off = 0x18 then { s with bridge := { b with img := BitVec.ofNat 64 x } }
  else if off = 0x20 then { s with bridge := { b with len := BitVec.ofNat 32 x } }
  else if 0xA0 ≤ off ∧ off < 0xC0 ∧ off % 8 = 0 then
    let k := 8 * (off - 0xA0)
    { s with bridge := { b with nonce := (b.nonce &&& ~~~((BitVec.allOnes 64).zeroExtend 256 <<< k)) ||| ((BitVec.ofNat 64 x).zeroExtend 256 <<< k) } }
  else if off = 0x100 then setPodcfg x s
  else if 0x180 ≤ off ∧ off < 0x200 ∧ off % 8 = 0 then
    { s with bridge := { b with podmemb := b.podmemb.set ((off - 0x180) / 8 % 16) (BitVec.ofNat 64 x) (Nat.mod_lt _ (by decide)) } }
  else if off = 0x400 ∨ off = 0x408 then s.onQueue 16 fun e => e.configure (off - 0x400) x
  else s

/-- An access of the debug window is refused (R444). -/
def dbgError (s : State) : State := { s with bridge := { s.bridge with dbgerr := true } }

/-- REGISTER_WRITE: function (0 to 15 a VF, 16 the PF's BAR0, 17 its BAR2), offset, value. A VF reaches its own page alone (R434). -/
def execRegisterWrite (s : State) : Out :=
  let fn := inp s 0
  let off := inp s 1
  let x := inp s 2
  if 17 < fn then .fault .noSuchItem
  else .next (
    if fn = 17 then
      if off = 8 then if s.bridge.phase != 6#4 then dbgError s else { s with bridge := { s.bridge with dbgaddr := BitVec.ofNat 64 x &&& ~~~7#64 } } else s
    else if fn < 16 then (if off < 0x10000 then pageWrite fn off x s else s)
    else if off < 0x100000 then controlWrite off x s
    else if off < 0x200000 then pageWrite ((off - 0x100000) / 0x10000) (off % 0x10000) x s
    else s)

/-- EQHEAD_WRITE: queue 16 is the PF's. -/
def execEqheadWrite (s : State) : Out :=
  let q := inp s 0
  if 16 < q then .fault .noSuchItem
  else .next (s.onQueue q fun e => { e with head := BitVec.ofNat 32 (inp s 1) })

/-! Wafer time and attestation (R437, 16 R431, R432). -/

/-- WTSET_WRITE: the boot's first after ready sets every copy, unless it is below WTNOW. -/
def execWtsetWrite (s : State) : Out :=
  let x := inp s 0
  .next (
    if s.bridge.phase != 6#4 || s.bridge.wtset then s
    else
      let s := { s with bridge := { s.bridge with wtset := true } }
      if (timeAt s 48).toNat ≤ x ∧ x < 2 ^ 64 then
        { s with reticles := s.reticles.map fun (p : Nat × Reticle) => (p.1, { p.2 with time := BitVec.ofNat 64 x }) }
      else s)

/-- ATTCTL_GO: while verified firmware runs. The request carries the nonce as it stands (16 R431). -/
def execAttctlGo (s : State) : Out :=
  let b := s.bridge
  .next (if b.phase != 6#4 || !b.fetched || b.attBusy then s
    else { s with bridge := { b with attBusy := true, attDone := false, attRefused := false, attNonce := b.nonce } })

/-- The report but for its signature (16 R431). -/
def reportBody (b : Bridge) : Memory :=
  let m := wrN [] 0 (0x4B41 + 2 ^ 16 + 0xD60 * 2 ^ 32 + (if b.grade40 then 1 else 0) * 2 ^ 64 + b.epoch.toNat * 2 ^ 96 + Config.serial.toNat * 2 ^ 128) 32
  let m := wrN m 0x20 b.attNonce.toNat 32
  let m := wrN m 0x40 b.fwhash.toNat 64
  let m := wrBytes m 0x80 ((Config.shake256 (rdBytes b.topology 0 0x1580) 64).take 64)
  let m := wrBytes m 0xC0 (Config.keyHash.take 64)
  let m := wrN m 0x100 (b.svn.toNat + 65536 * (b.leastSvn % 65536)) 4
  wrBytes m 0x120 (Config.identityKey.take 1793)

/-- ATTESTATION_REPORT: signed by the leader and placed at 0x3000. -/
def execAttestationReport (s : State) : Out :=
  let b := s.bridge
  .next (
    if !b.attBusy then s
    else
      let m := reportBody b
      let sig := Config.falconSign (Config.shake256 (rdBytes m 0 0x860) 64)
      { s with bridge := { b with attBusy := false, attDone := true, report := wrBytes m 0x860 (sig.take 1280) } })

/-! The debug window (R444 to R446). -/

/-- The fields of DBGSEL. -/
def selUnit (x : W64) : Nat := fld x 60 4
def selRet (x : W64) : Nat := fld x 54 6
def selNode (x : W64) : Nat := fld x 44 10
def selItem (x : W64) : Nat := fld x 36 8
def selReg (x : W64) : Nat := fld x 32 4

/-- The selected core or router. -/
def selCode (x : W64) : Nat := routerCode (selRet x / 6) (selRet x % 6) (selNode x / 24) (selNode x % 24)

/-- What is selected. -/
inductive Item where
  | core (code item : Nat)
  | router (code item : Nat)
  | controller (ret item reg : Nat)
  | hem (die item : Nat)
  | edge (port item : Nat)
deriving DecidableEq, Repr

/-- The item that DBGSEL names, none where the access is refused (R444, R445). A dark reticle has none. -/
def dbgItem (s : State) (x : W64) : Option Item :=
  let i := selItem x
  let here := selRet x < 48 && !(s.reticle (selRet x)).dark
  if s.bridge.phase != 6#4 || 600 ≤ selNode x then none
  else
    match selUnit x with
    | 0 => if here && i ≤ 4 then some (.core (selCode x) i) else none
    | 1 => if here && i ≤ 4 then some (.router (selCode x) i) else none
    | 2 =>
      let r := s.region (selReg x)
      if here && (i = 0 || (i ≤ 3 && r.live && (r.cores s).any fun c => reticleOf c == selRet x)) then
        some (.controller (selRet x) i (selReg x))
      else none
    | 3 => if selRet x < 16 && i ≤ 1 then some (.hem (selRet x) i) else none
    | 4 =>
      let b := s.block (selRet x)
      if selRet x < 32 && (i == 2 || (i == 0 && b.plane.isSome) || (i == 1 && b.shadow.isSome)) then some (.edge (selRet x) i) else none
    | _ => none

/-- Words of 64 bits of a number. -/
def getW (x k : Nat) : Nat := (x >>> (64 * k)) % 2 ^ 64
def setW (x k v : Nat) : Nat := x - getW x k * 2 ^ (64 * k) + (v % 2 ^ 64) * 2 ^ (64 * k)

/-! Lines of a core's G-cache, instruction store and log: entry k stands in set k over the ways, in the order held. -/

def wayOf {α : Type} (m : Map α) (ways k : Nat) : Option (Nat × α) := (m.filter fun p => p.1 % 256 == k / ways)[k % ways]?

def gEntry (c : Core) (k : Nat) : Nat :=
  match wayOf c.gcache 8 k with
  | some (l, g) => pack 64 [64 * l, g.valid.toNat, g.dirty.toNat] + g.data.toNat * 2 ^ 192
  | none => 0

def setGEntry (k x : Nat) (c : Core) : Core :=
  let c := match wayOf c.gcache 8 k with | some (l, _) => { c with gcache := erase l c.gcache } | none => c
  let l := getW x 0 % 2 ^ 56 / 64 / 256 * 256 + k / 8
  c.setGline l { valid := BitVec.ofNat 64 (getW x 1), dirty := BitVec.ofNat 64 (getW x 2), data := BitVec.ofNat 512 (x >>> 192) }

/-- The tag word of a line: its address, bit 0 valid, bit 1 firmware space. -/
def iEntry (c : Core) (k : Nat) : Nat :=
  match wayOf c.istore 4 k with
  | some (key, d) => 64 * (key % 2 ^ 50) + 1 + (if 2 ^ 50 ≤ key then 2 else 0) + d.toNat * 2 ^ 64
  | none => 0

def setIEntry (k x : Nat) (c : Core) : Core :=
  let c := match wayOf c.istore 4 k with | some (key, _) => { c with istore := erase key c.istore } | none => c
  let key := getW x 0 % 2 ^ 56 / 64 / 256 * 256 + k / 4 + (if x.testBit 1 then 2 ^ 50 else 0)
  if x.testBit 0 then { c with istore := insert key (BitVec.ofNat 512 (x >>> 64)) c.istore } else c

def darnBits (d : DarnEntry) : Nat := d.seq.toNat * 2 ^ 64 + 64 * d.line + 1

/-- RSEQ, then the entries of two words. -/
def darnWord (c : Core) (w : Nat) : Nat :=
  if w = 0 then c.rseq.toNat
  else match c.darn[(w - 1) / 2]? with | some d => getW (darnBits d) ((w - 1) % 2) | none => 0

/-- A list whose entry k is replaced, added at the end or taken out. -/
def putAt {α : Type} (l : List α) (k : Nat) (x : Option α) : List α :=
  match x with
  | some y => if k < l.length then setAt l k y else l ++ [y]
  | none => dropAt l k

def setDarnWord (w v : Nat) (c : Core) : Core :=
  if w = 0 then { c with rseq := BitVec.ofNat 64 v }
  else
    let k := (w - 1) / 2
    let x := setW (match c.darn[k]? with | some d => darnBits d | none => 0) ((w - 1) % 2) v
    { c with darn := putAt c.darn k (if x.testBit 0 then some ⟨BitVec.ofNat 64 (x >>> 64), x % 2 ^ 56 / 64⟩ else none) }

/-- A control register is set whole: its storage, whatever an instruction may do to it. Registers that are views of other state
take no write. -/
def Core.debugCtl (num : Nat) (x : W64) (c : Core) : Core :=
  match num with
  | 0x000 => { c with regs := { c.regs with fireid := x } }
  | 0x003 => { c with region := x.truncate 32 &&& 0x000F0FFF#32 }
  | 0x004 => { c with ncore := x.truncate 32 }
  | 0x005 => { c with regw := x.truncate 16 }
  | 0x006 => { c with regh := x.truncate 16 }
  | 0x007 => { c with regs := { c.regs with prio := x.truncate 3 } }
  | 0x008 => { c with detmode := x.getLsbD 0 }
  | 0x00A => { c with regs := { c.regs with fpstat := x.truncate 5 } }
  | 0x00B => { c with netw := x.truncate 32 }
  | 0x018 => { c with cycle := x }
  | 0x019 => { c with round := x.truncate 32 }
  | 0x106 => { c with rseq := x }
  | _ => c.ctlWrite (BitVec.ofNat 12 num) x

/-- A core whose image has had a word changed: what the image does not hold stays as it is. -/
def Core.editImage (w v : Nat) (c : Core) : Core :=
  let m := wrN c.image (8 * w) v 8
  let k := c.restored m c.rest
  let lands := landingOf m c.rest
  let clear (p : Nat × Nat) : Bool :=
    8 * w == (match p.1 with | 0 => 0x48000 | 1 => 0xA8000 | _ => 0x168000) + 8 * p.2
  let same := rdN k.image 0x23F00 32 == rdN c.image 0x23F00 32
  let buf (at_ n : Nat) (b : Memory) : Memory := if at_ ≤ 8 * w ∧ 8 * w < at_ + n then wrN b (8 * w - at_) v 8 else b
  { k with
    bufW := buf 0x48000 0x60000 c.bufW, bufA := buf 0xA8000 0xC0000 c.bufA, bufC := buf 0x168000 0x40000 c.bufC
    ops := if same then c.ops else k.ops, nextSer := if same then c.nextSer else k.nextSer, tcd := c.tcd, imageErr := c.imageErr
    regs := { k.regs with fireid := if c.running || k.running then k.regs.fireid else c.regs.fireid }
    lq := if c.fwm then lands else lands.take c.lq.length, pend := if c.fwm then c.pend else lands.drop c.lq.length, heldVar := c.heldVar
    tiles := k.tiles.map fun p => (p.1, { p.2 with rearm := (c.tile p.1).rearm })
    yframes := k.yframes.map fun p => (p.1, { p.2 with fetchb := (findD p.1 {} c.yframes).fetchb })
    watches := if k.watches.map Watch.nat == c.watches.map Watch.nat then c.watches else k.watches
    gcache := c.gcache, darn := c.darn, istore := c.istore, ifill := c.ifill, ifault := c.ifault, fbuf := c.fbuf, fetchb := c.fetchb
    savedFetchb := c.savedFetchb
    badWord := c.badWord.filter fun p => !clear p
    frozen := c.frozen, wdFrozen := c.wdFrozen, wdHeld := c.wdHeld }

def coreWord (s : State) (code item w : Nat) : Nat :=
  let c := s.coreAt code
  match item with
  | 0 => rdN c.image (8 * w) 8
  | 1 => getW (gEntry c (w / 18)) (w % 18)
  | 2 => getW (iEntry c (w / 9)) (w % 9)
  | 3 => darnWord c w
  | _ => ((ctlValue (s.focus code) w).getD 0#64).toNat

def setCoreWord (item w v : Nat) (c : Core) : Core :=
  match item with
  | 0 => if 8 * w < imageBytes then c.editImage w v else c
  | 1 => if w / 18 < 2048 then setGEntry (w / 18) (setW (gEntry c (w / 18)) (w % 18) v) c else c
  | 2 => if w / 9 < 1024 then setIEntry (w / 9) (setW (iEntry c (w / 9)) (w % 9) v) c else c
  | 3 => if w ≤ 512 then setDarnWord w v c else c
  | _ => if w < 4096 then c.debugCtl w (BitVec.ofNat 64 v) else c

/-! Entries of a router (10 R254, R259, R267, 11 R285, R288). -/

def matchBits (e : MatchEntry) : BitVec 256 :=
  let p (i : Fin 5) : BitVec 1 := BitVec.ofBool (e.cnt[i] != 0#8)
  1#1 ++ 0#2 ++ 0#4 ++ (p 4 ++ p 3 ++ p 2 ++ p 1 ++ p 0) ++ (e.cnt[4] ++ e.cnt[3] ++ e.cnt[2] ++ e.cnt[1] ++ e.cnt[0]) ++ 0#12 ++ e.mask ++ e.name

def matchOf (b : BitVec 256) : MatchEntry :=
  { name := b.extractLsb' 0 96, mask := b.extractLsb' 96 96, cnt := Vector.ofFn fun i => b.extractLsb' (204 + 8 * i.val) 8 }

def redBits (e : RedEntry) : BitVec 256 :=
  1#1 ++ 1#2 ++ BitVec.ofBool e.opened ++ BitVec.ofNat 2 e.rfmt ++ BitVec.ofBool e.spill ++ BitVec.ofNat 41 e.dcount ++ BitVec.ofNat 11 (e.nelem - 1)
    ++ BitVec.ofNat 11 e.place ++ BitVec.ofNat 6 e.cdone ++ e.rname.extractLsb' 0 84 ++ e.name

def redOf (b : BitVec 256) (old : Option RedEntry) : RedEntry :=
  let n := (b.extractLsb' 197 11).toNat + 1
  { name := b.extractLsb' 0 96, opened := b.getLsbD 252, rfmt := (b.extractLsb' 250 2).toNat, spill := b.getLsbD 249
    dcount := (b.extractLsb' 208 41).toNat, nelem := n, place := (b.extractLsb' 186 11).toNat, cdone := (b.extractLsb' 180 6).toNat
    rname := b.extractLsb' 84 12 ++ b.extractLsb' 96 84
    ovr := (old.map RedEntry.ovr).getD [], counts := (old.map RedEntry.counts).getD (List.replicate ((n + 63) / 64) 0) }

/-- Entry k of the match table: the reverse paths, then the reductions. -/
def tableEntry (r : Router) (k : Nat) : Nat :=
  match r.table[k]? with
  | some e => (matchBits e).toNat
  | none => match r.reds[k - r.table.length]? with | some e => (redBits e).toNat | none => 0

def setTableEntry (k x : Nat) (r : Router) : Router :=
  let b : BitVec 256 := BitVec.ofNat 256 x
  let j := k - r.table.length
  let red := b.extractLsb' 253 2 == 1#2
  if k < r.table.length then
    if b.getLsbD 255 && red then { r with table := dropAt r.table k, reds := r.reds ++ [redOf b none] }
    else { r with table := putAt r.table k (if b.getLsbD 255 then some (matchOf b) else none) }
  else if b.getLsbD 255 && !red then { r with table := r.table ++ [matchOf b], reds := dropAt r.reds j }
  else { r with reds := putAt r.reds j (if b.getLsbD 255 then some (redOf b r.reds[j]?) else none) }

def AirState.code : AirState → BitVec 2 | .held => 0#2 | .aired => 1#2 | .pending => 2#2
def airBits (e : Aired) : BitVec 192 :=
  1#1 ++ e.state.code ++ BitVec.ofNat 2 e.hkind ++ e.hcnt ++ e.round0 ++ e.hrnd ++ e.tag ++ BitVec.ofNat 16 (e.size - 1) ++ BitVec.ofNat 11 e.line0
    ++ 0#16 ++ e.name
def airOf (b : BitVec 192) (subs : List (Nat × Nat)) (born : Option Nat) : Aired :=
  { name := b.extractLsb' 0 96, state := match (b.extractLsb' 189 2).toNat with | 0 => .held | 1 => .aired | _ => .pending
    hkind := (b.extractLsb' 187 2).toNat, hcnt := b.extractLsb' 179 8, round0 := b.extractLsb' 147 32, hrnd := b.extractLsb' 143 4
    tag := legalTag (b.extractLsb' 139 4), size := (b.extractLsb' 123 16).toNat + 1, line0 := (b.extractLsb' 112 11).toNat, subs := subs, born := born }

/-- A reduction slot: its header in 64 bytes, then its accumulators as Mangle cells (08 R217). -/
def slotBits (r : RedSlot) : Nat :=
  let h : BitVec 192 :=
    1#1 ++ BitVec.ofBool r.flushing ++ BitVec.ofNat 8 r.timer ++ BitVec.ofNat 5 r.chunk ++ BitVec.ofNat 41 r.count ++ 0#40 ++ r.name
  h.toNat + pack 512 (r.acc.map lineOfCell) * 2 ^ 512
def redSlotOf (x : Nat) : RedSlot :=
  let h : BitVec 192 := BitVec.ofNat 192 x
  { flushing := h.getLsbD 190, timer := (h.extractLsb' 182 8).toNat, chunk := (h.extractLsb' 177 5).toNat, count := (h.extractLsb' 136 41).toNat
    name := h.extractLsb' 0 96, acc := (List.range 64).map fun i => cellOfLine ((x >>> (512 + 512 * i)) % 2 ^ 512) }

def homeBits (e : HomeEntry) : Nat :=
  (BitVec.ofBool e.valid ++ BitVec.ofBool e.ho ++ 0#2 ++ BitVec.ofNat 16 e.router ++ e.epoch : BitVec 32).toNat
def homeOfBits (x : Nat) : HomeEntry :=
  { valid := x.testBit 31, ho := x.testBit 30, router := x / 4096 % 65536, epoch := BitVec.ofNat 12 x }

/-- A tensor descriptor as a debug write leaves it: its FMT no reserved tag (04 R90; log 70), its reserved bits zero (00 R11). -/
def legalDesc (d : BitVec 256) : BitVec 256 :=
  d.extractLsb' 236 20 ++ legalTag (dFmt d) ++ d.extractLsb' 70 162 ++ 0#69 ++ d.extractLsb' 0 1

def routerWord (s : State) (code item w : Nat) : Nat :=
  let r := s.router code
  let reg := (regionAt s code).getD 16
  match item with
  | 0 => getW (tableEntry r (w / 4)) (w % 4)
  | 1 =>
    if w < 768 then (match r.airDir[w / 3]? with | some e => getW (airBits e).toNat (w % 3) | none => 0)
    else if w < 768 + 16384 then rdN r.air (8 * (w - 768)) 8 else 0
  | 2 => (match find? (w / 520) r.slots with | some x => getW (slotBits x) (w % 520) | none => 0)
  | 3 =>
    let e (i : Nat) : Nat := if i < (s.region reg).homes then ((homeAt s reg code i).map homeBits).getD 0 else 0
    e (2 * w) + 2 ^ 32 * e (2 * w + 1)
  | _ => getW ((tensorsAt s reg code).getD (w / 4) 0#256).toNat (w % 4)

def setRouterWord (code item w v : Nat) (s : State) : State :=
  let reg := (regionAt s code).getD 16
  s.onRouter code fun r =>
    match item with
    | 0 => if w / 4 < 1024 then setTableEntry (w / 4) (setW (tableEntry r (w / 4)) (w % 4) v) r else r
    | 1 =>
      if w < 768 then
        let old := r.airDir[w / 3]?
        let b : BitVec 192 := BitVec.ofNat 192 (setW ((old.map fun e => (airBits e).toNat).getD 0) (w % 3) v)
        { r with airDir := putAt r.airDir (w / 3) (if b.getLsbD 191 then some (airOf b ((old.map Aired.subs).getD []) (old.bind Aired.born)) else none) }
      else if w < 768 + 16384 then { r with air := wrN r.air (8 * (w - 768)) v 8 } else r
    | 2 =>
      let x := setW (match find? (w / 520) r.slots with | some x => slotBits x | none => 0) (w % 520) v
      if 16 ≤ w / 520 then r
      else if x.testBit 191 then { r with slots := insert (w / 520) (redSlotOf x) r.slots } else { r with slots := erase (w / 520) r.slots }
    | 3 =>
      let put (i x : Nat) (m : Map HomeEntry) : Map HomeEntry := if i < (s.region reg).homes then insert i (homeOfBits x) m else m
      { r with homeCopy := put (2 * w + 1) (v / 2 ^ 32) (put (2 * w) (v % 2 ^ 32) r.homeCopy) }
    | _ =>
      if w / 4 < 256 && reg < 16 then
        { r with tensCopy := insert (w / 4) (legalDesc (BitVec.ofNat 256 (setW ((tensorsAt s reg code).getD (w / 4) 0#256).toNat (w % 4) v))) r.tensCopy }
      else r

/-! Items of a controller (13 R331, R343, 10 R255). -/

/-- The nodes a reticle shows: its cores by NODE, its quads, the reticle, and at the leader the wafer's and the pod's. -/
def nodeAt (s : State) (ret k : Nat) : Option (Nat × Nat) :=
  let r := s.reticle ret
  if k < 600 then some (1, routerCode (ret / 6) (ret % 6) (k / 24) (k % 24))
  else if k < 744 then some (2, 192 * (12 * r.lrow + (k - 600) / 12) + 12 * (ret / 6) + (k - 600) % 12)
  else if k = 744 then some (3, ret)
  else if k < 747 && s.bridge.leader == some ret then some (k - 741, 0)
  else none

def nodeBits (s : State) (reg : Nat) (p : Nat × Nat) : BitVec 128 :=
  let n := findD (nodeKey p.1 p.2) {} (s.region reg).nodes
  n.inst ++ 0#16 ++ BitVec.ofNat 24 (membersOf s reg p.1 p.2).length ++ BitVec.ofNat 24 n.cur ++ BitVec.ofNat 24 n.nxt ++ 0#8

def TaskWhere.code : TaskWhere → BitVec 2 | .resident => 0#2 | .rebinding => 1#2 | .saved => 2#2 | .lost => 3#2
def dirBits (e : DirEntry) : BitVec 64 := 1#1 ++ e.state.code ++ e.slot ++ BitVec.ofNat 16 e.core ++ e.epoch ++ 0#25
def dirOf (b : BitVec 64) : DirEntry :=
  { core := (b.extractLsb' 41 16).toNat, slot := b.extractLsb' 57 4, epoch := b.extractLsb' 25 16
    state := match (b.extractLsb' 61 2).toNat with | 0 => .resident | 1 => .rebinding | 2 => .saved | _ => .lost }

def nodeCode (ret n : Nat) : Nat := routerCode (ret / 6) (ret % 6) (n / 24) (n % 24)

def controllerWord (s : State) (ret item reg w : Nat) : Nat :=
  match item with
  | 0 => if w / 40 < 16 then ((s.capture ret (w / 40)).item (w % 40)).toNat else 0
  | 1 => (match nodeAt s ret (w / 2) with | some p => getW (nodeBits s reg p).toNat (w % 2) | none => 0)
  | 2 => (match find? w (s.region reg).dir with | some e => (dirBits e).toNat | none => 0)
  | _ =>
    if w = 0 then (findD ret 0#32 (s.region reg).refcnt).toNat
    else if w ≤ 600 then (s.coreAt (nodeCode ret (w - 1))).delstale.toNat
    else if w ≤ 1200 then (s.router (nodeCode ret (w - 601))).mtfull.toNat
    else 0

/-- An item of a unit but CFG is set whole. -/
def Capture.setItem (i : Nat) (x : W64) (c : Capture) : Capture :=
  match i with
  | 1 => { c with min := x } | 2 => { c with max := x } | 3 => { c with count := x } | 4 => { c with sum := x }
  | 5 => { c with drops := x } | 6 => { c with start := x }
  | _ => if 8 ≤ i ∧ i < 40 then { c with bins := c.bins.set ((i - 8) % 32) (x.truncate 32) (Nat.mod_lt _ (by decide)) } else c

/-- A word of a controller's item is set. CFG acts as `MONCFG`'s word does, CLR included (13 R344). The fields of a node record that 13 R331
marks RO for the machine's registers are set too: 17 R446 performs the write, and 00 R10 would ignore it (log 22). -/
def setControllerWord (ret item reg w v : Nat) (s : State) : State :=
  match item with
  | 0 =>
    if 16 ≤ w / 40 then s
    else if w % 40 = 0 then applyCfg s ret (w / 40) (BitVec.ofNat 64 v)
    else s.setCapture ret (w / 40) ((s.capture ret (w / 40)).setItem (w % 40) (BitVec.ofNat 64 v))
  | 1 =>
    (match nodeAt s ret (w / 2) with
      | some p =>
        let b : BitVec 128 := BitVec.ofNat 128 (setW (nodeBits s reg p).toNat (w % 2) v)
        let n : Node := { inst := b.extractLsb' 96 32, cur := (b.extractLsb' 32 24).toNat, nxt := (b.extractLsb' 8 24).toNat }
        s.onRegion reg fun r => { r with nodes := insert (nodeKey p.1 p.2) n r.nodes }
      | none => s)
  | 2 =>
    let b : BitVec 64 := BitVec.ofNat 64 v
    if w < (s.region reg).tasks then
      s.onRegion reg fun r => { r with dir := if b.getLsbD 63 then insert w (dirOf b) r.dir else erase w r.dir }
    else s
  | _ =>
    let x : BitVec 32 := BitVec.ofNat 32 v
    if w = 0 then s.onRegion reg fun r => { r with refcnt := put 0#32 ret x r.refcnt }
    else if w ≤ 600 then s.setCoreAt (nodeCode ret (w - 1)) { s.coreAt (nodeCode ret (w - 1)) with delstale := x }
    else if w ≤ 1200 then s.onRouter (nodeCode ret (w - 601)) fun r => { r with mtfull := x }
    else s

/-! Hem agents: cached leaves of the die in two words, then HBM by lines of 72 bytes, poison in bit 0 of the last word. -/

def tlbBits (t : Tlb) : Nat :=
  ((BitVec.ofNat 5 t.region ++ 0#3 ++ BitVec.ofNat 56 (t.page <<< t.bits) ||| (BitVec.ofBool (t.bits == 21)).zeroExtend 64 <<< 1 ||| 1#64 : BitVec 64)).toNat
    + t.leaf.toNat * 2 ^ 64
def tlbOf (die x : Nat) : Tlb :=
  let bits := if x.testBit 1 then 21 else 16
  { die := die, region := x / 2 ^ 59 % 32, page := x % 2 ^ 56 >>> bits, bits := bits, leaf := BitVec.ofNat 64 (x >>> 64) }

def hemWord (s : State) (die item w : Nat) : Nat :=
  match item with
  | 0 => (match (s.tlb.filter fun t => t.die == die)[w / 2]? with | some t => getW (tlbBits t) (w % 2) | none => 0)
  | _ =>
    if 64 * (w / 9) / 2 ^ 37 ≠ die then 0
    else if w % 9 = 8 then (if s.lineBad (64 * (w / 9)) then 1 else 0)
    else rdN s.hbm (64 * (w / 9) + 8 * (w % 9)) 8

def setHemWord (die item w v : Nat) (s : State) : State :=
  match item with
  | 0 =>
    let mine := s.tlb.filter fun t => t.die == die
    let x := setW (match mine[w / 2]? with | some t => tlbBits t | none => 0) (w % 2) v
    { s with tlb := (s.tlb.filter fun t => t.die != die) ++ putAt mine (w / 2) (if x.testBit 0 then some (tlbOf die x) else none) }
  | _ =>
    let l := w / 9
    if 64 * l / 2 ^ 37 ≠ die then s
    else if w % 9 = 8 then
      { s with badLine := if v % 2 = 1 then (if s.badLine.contains l then s.badLine else l :: s.badLine) else s.badLine.filter (· != l) }
    else { s with hbm := wrN s.hbm (64 * l + 8 * (w % 9)) v 8 }

/-! Edge blocks (15 R388, 12 R317). -/

def edgeWord (s : State) (p item w : Nat) : Nat :=
  let b := s.block p
  match item with
  | 0 => rdN (b.plane.getD []) (8 * w) 8
  | 1 => rdN (b.shadow.getD []) (8 * w) 8
  | _ => if w = 0 then b.status.toNat else 0

/-- Of the status word, the counts; what it shows of state, queue and shadow are views. -/
def setEdgeWord (p item w v : Nat) (s : State) : State :=
  let x : W64 := BitVec.ofNat 64 v
  s.onBlock p fun b =>
    if planeBytes ≤ 8 * w then b
    else
      match item with
      | 0 => { b with plane := b.plane.map fun (m : Memory) => wrN m (8 * w) v 8 }
      | 1 => { b with shadow := b.shadow.map fun (m : Memory) => wrN m (8 * w) v 8 }
      | _ =>
        if w = 0 then { b with errs := x.extractLsb' 48 8, lenerr := x.extractLsb' 32 16, drops := x.extractLsb' 16 16, periods := x.extractLsb' 0 16 }
        else b

/-! Access. -/

def Item.word (s : State) (w : Nat) : Item → Nat
  | .core c i => coreWord s c i w
  | .router c i => routerWord s c i w
  | .controller r i g => controllerWord s r i g w
  | .hem d i => hemWord s d i w
  | .edge p i => edgeWord s p i w

def Item.setWord (w v : Nat) (s : State) : Item → State
  | .core c i => s.setCoreAt c (setCoreWord i w v (s.coreAt c))
  | .router c i => setRouterWord c i w v s
  | .controller r i g => setControllerWord r i g w v s
  | .hem d i => setHemWord d i w v s
  | .edge p i => setEdgeWord p i w v s

/-- A router is idle (20 R464): none of its queues holds a token or a response to its core (14 R350, R352), and no reduction slot is in use. -/
def routerIdle (s : State) (code : Nat) : Bool :=
  (s.net.all fun t => t.loc != code) && (s.router code).slots.isEmpty && (s.coreAt code).heldVar.isEmpty
    && decide ((s.coreAt code).faults.length ≤ 16)

/-- Every core, the one in focus among them. -/
def allCores (s : State) : List (Nat × Core) := (s.cur, s.core) :: s.parked

def OpKind.toController : OpKind → Bool
  | .timeq _ | .moncfg .. | .monrd .. | .bar .. => true
  | _ => false

/-- An operation has a line at the agents of a die still to access: one of its own, or any where it maintains every line. -/
def Op.usesDie (o : Op) (d : Nat) : Bool :=
  let at_ (ls : List Nat) : Bool := ls.any fun l => hemOf (64 * l) == d
  !o.resp && match o.kind with
    | .gload z _ | .ldacq z => at_ (linesOf o.va.toNat (sizeBytes z))
    | .gstore n | .strel n | .claim _ n => at_ (linesOf o.va.toNat n)
    | .promacq .. | .atom .. | .mredrd .. => at_ [o.va.toNat / 64]
    | .mred .. => at_ (linesOf o.va.toNat (64 * o.parts))
    | .clwb (some l) | .clinv (some l) => at_ [l]
    | .clwb none | .clinv none => true
    | .engine .. => o.engine.any fun e => at_ ((e.lines o.snap).filter fun l => !o.done.contains (partGlob l))
    | _ => false

/-- A fall-through fetch has a line of a die still to read (10 R271). -/
def Token.usesDie (s : State) (d : Nat) (t : Token) : Bool :=
  match t.msg with
  | .fetch n got bad =>
    let x := descAt s t.region t.loc n
    (linesOf ((backing x n).getD 0) (dSize x)).any fun l => hemOf (64 * l) == d && (find? l got).isNone && bad.all fun b => b.1 / 64 != l
  | _ => false

/-- The image read of the command at the head of a block's queue has a line of a die still to read (15 R391). -/
def Block.usesDie (d : Nat) (b : Block) : Bool :=
  match b.queue with
  | { cfg := some va, .. } :: _ =>
    b.shadow.isNone && !b.malformed && (List.range (planeBytes / 64)).any fun i =>
      hemOf (va.toNat + 64 * i) == d && (find? i b.load).isNone && b.loadBad.all fun x => x.1 != va.toNat + 64 * i
  | _ => false

/-- A hem agent is idle: no access, no fill of the instruction store, no fetch of a backed tile and no read of an edge image that it serves is
under way. -/
def hemIdle (s : State) (d : Nat) : Bool :=
  ((allCores s).all fun c => (c.2.ops.all fun o => !o.usesDie d) && c.2.ifill.all fun f => hemOf (64 * (f.1 % 2 ^ 50)) != d)
    && (s.net.all fun t => !t.usesDie s d) && s.blocks.all fun p => !p.2.usesDie d

/-- A write may be performed at once (R446): a halted core, an idle controller, agent or block. A router's waits (20 R464). -/
def Item.writable (s : State) : Item → Bool
  | .core c _ => match (s.coreAt c).halt with | .region _ | .report _ _ => true | _ => false
  | .router .. => true
  | .controller r _ _ =>
    (s.queues.all fun q => q.2.staged.all fun x => x.ctl != r) && (allCores s).all fun c => reticleOf c.1 != r || c.2.ops.all fun o => !o.kind.toController
  | .hem d _ => hemIdle s d
  | .edge p _ =>
    let b := s.block p
    b.queue.isEmpty && match b.state with | .idle | .configured => true | _ => false

/-- DBGSEL_WRITE: ERR is cleared, and set where the window is shut or NODE is out of range. -/
def execDbgselWrite (s : State) : Out :=
  let x : W64 := BitVec.ofNat 64 (inp s 0) &&& ~~~0xFFFFFFFF#64
  .next (
    if s.bridge.phase != 6#4 then dbgError s
    else { s with bridge := { s.bridge with dbgsel := x, dbgerr := decide (600 ≤ selNode x) } })

/-- The core selected, for DBGCTL. -/
def dbgCore (s : State) : Option Nat :=
  match selUnit s.bridge.dbgsel with
  | 0 => (dbgItem s (s.bridge.dbgsel &&& ~~~0xFF000000000#64)).map fun _ => selCode s.bridge.dbgsel
  | _ => none

/-- DBGCTL_HALT: the core stops at a bundle boundary, with report 0x11. -/
def execDbgctlHalt (s : State) : Out :=
  .next (match dbgCore s with
    | none => dbgError s
    | some c => if (s.coreAt c).halt == .no then s.setCoreAt c ((s.coreAt c).stop (.report 0x11#64 true)) else s)

/-- DBGCTL_RESUME: a core that the debugger or BREAK has halted. -/
def execDbgctlResume (s : State) : Out :=
  .next (match dbgCore s with
    | none => dbgError s
    | some c => match (s.coreAt c).halt with | .report _ true => s.setCoreAt c ((s.coreAt c).goOn) | _ => s)

/-- DBGSTAT: ERR, HALTED. -/
def dbgstat (s : State) : Nat :=
  let halted := match dbgCore s with
    | some c => match (s.coreAt c).halt with | .region _ | .report _ _ => true | _ => false
    | none => false
  (if s.bridge.dbgerr then 1 else 0) + (if halted then 2 else 0)

/-- A register of the debug window: DBGCTL is written only and reads as zero (00 R10). -/
def windowRead (s : State) (off : Nat) : Nat :=
  match off with
  | 0x00 => s.bridge.dbgsel.toNat | 0x08 => s.bridge.dbgaddr.toNat | 0x18 => dbgstat s | _ => 0

/-- A word of the PF's BAR0 (function 16), of the registers of its BAR2 (17), or of a VF's window. -/
def hostRead (s : State) (fn off : Nat) : Nat :=
  if fn < 16 then (if off < 0x10000 then pageRead s fn off else 0)
  else if fn = 17 then windowRead s off
  else if off < 0x100000 then controlRead s off
  else if off < 0x200000 then pageRead s ((off - 0x100000) / 0x10000) (off % 0x10000)
  else 0

/-- The word of the item that an offset of the aperture means. -/
def dbgWordAt (s : State) (off : Nat) : Nat := (s.bridge.dbgaddr.toNat + off) / 8

/-- DEBUG_APERTURE_READ: offset in the aperture, a multiple of 8. A running unit shows its word of this moment. -/
def execDebugApertureRead (s : State) : Out :=
  let off := inp s 0
  if 4096 ≤ off ∨ off % 8 ≠ 0 then .fault .noSuchItem
  else .next (match dbgItem s s.bridge.dbgsel with
    | none => dbgError { s with bridge := { s.bridge with dbgdata := 0#64 } }
    | some i => { s with bridge := { s.bridge with dbgdata := BitVec.ofNat 64 (i.word s (dbgWordAt s off)) } })

/-- DEBUG_APERTURE_WRITE: offset and value. One to a router waits for an idle net cycle of it (20 R464). -/
def execDebugApertureWrite (s : State) : Out :=
  let off := inp s 0
  let v := inp s 1
  if 4096 ≤ off ∨ off % 8 ≠ 0 then .fault .noSuchItem
  else .next (match dbgItem s s.bridge.dbgsel with
    | none => dbgError s
    | some i =>
      if !i.writable s then dbgError s
      else
        match i with
        | .router .. => { s with bridge := { s.bridge with dbgwrite := s.bridge.dbgwrite ++ [⟨s.bridge.dbgsel, dbgWordAt s off, v, s.clock⟩] } }
        | _ => i.setWord (dbgWordAt s off) v s)

/-- A waiting write leaves the list. -/
def dropWrite (w : DebugWrite) (s : State) : State := { s with bridge := { s.bridge with dbgwrite := s.bridge.dbgwrite.erase w } }

/-- A waiting write in a net cycle: performed where its router is idle, within 1,024 of the write; refused with ERR where the item is gone. -/
def performWrite (w : DebugWrite) (s : State) : State :=
  match dbgItem s w.sel with
  | some (.router c i) =>
    if routerIdle s c && decide (s.clock ≤ w.since + 1024) then setRouterWord c i w.word w.value (dropWrite w s) else s
  | _ => dbgError (dropWrite w s)

/-- The waiting writes, oldest first. -/
def performWrites (s : State) : State := s.bridge.dbgwrite.foldl (fun s w => performWrite w s) s

/-- DEBUG_WRITE_PERFORM: what of the waiting writes this net cycle allows; the cycle's end sees to the rest (`netTick`). -/
def execDebugWritePerform (s : State) : Out := .next (performWrites s)

/-- DEBUG_WRITE_TIMEOUT. -/
def execDebugWriteTimeout (s : State) : Out :=
  .next ((s.bridge.dbgwrite.filter fun w => w.since + 1024 < s.clock).foldl (fun s w => dbgError (dropWrite w s)) s)

end Sys2Proof.Machine
end

