-- ==== Sys2Proof/Machine/Local.lean ====
section
/-! DEFINITION. Group 0x9 on the core's own buffers and tile table, and the instruction store's two instructions
(07_core_memories R168 to R192). -/

namespace Sys2Proof.Machine

/-- Buffer code A. -/
def bufA : BitVec 2 := 1#2

/-- The effective address of form MI (R169): 64-bit wrapping. -/
def eaMI (s : State) (a : Reg) (off : BitVec 10) (scale : Nat) : Nat :=
  (sreg s a + (off.signExtend 64) * BitVec.ofNat 64 scale).toNat

/-- Checks 1 and 2 of R169. -/
def boundsAlign (b : BitVec 2) (ea n align : Nat) : List Check :=
  [{ bad := decide (bufSize b < ea + n), cause := .localBounds }, { bad := ea % align != 0, cause := .misaligned }]

/-- Check 3 of R169 for a store (R174). -/
def storeCheck (s : State) (b : BitVec 2) (ea n : Nat) : Check :=
  { bad := s.core.storeRefused b ea n, cause := .tileState }

/-- A poisoned word among those read (R170). -/
def poisonCheck (s : State) (b : BitVec 2) (ea n : Nat) : Check := { bad := s.core.bad b ea n, cause := .poison }

/-- A vector result read from a buffer: raw, scales zero. -/
def rawV (x : Nat) : VReg := { data := BitVec.ofNat 2048 x }

/-- A load of n bytes into a result made from them. -/
def loadInto (lat : Nat) (mk : Nat → Put) (b : BitVec 2) (ea n : Nat) (s : State) : State :=
  noteWords (wordsOfAccess b ea n) (launchResult { rem := lat, put := mk (s.core.load b ea n) } s)

def collides (lat : Nat) (q : Put) (s : State) : Check := collision { rem := lat, put := q } s

/-- LD (R176). -/
def execLd (d a : Reg) (off : BitVec 10) (s : State) : Out :=
  let ea := eaMI s a off 8
  .next (guarded (collides 2 (.s d 0#64) s :: boundsAlign bufA ea 8 8 ++ [poisonCheck s bufA ea 8])
    (loadInto 2 (fun x => .s d (BitVec.ofNat 64 x)) bufA ea 8) s)

/-- A store of n bytes. -/
def storeBytes (b : BitVec 2) (ea x n : Nat) (s : State) : State :=
  noteWords (wordsOfAccess b ea n) (s.onCore fun c => c.store b ea x n)

def execSt (d a : Reg) (off : BitVec 10) (s : State) : Out :=
  let ea := eaMI s a off 8
  .next (guarded (boundsAlign bufA ea 8 8 ++ [storeCheck s bufA ea 8]) (storeBytes bufA ea (sreg s d).toNat 8) s)

/-- VLD (R176). -/
def execVld (d a : Reg) (sp : BitVec 2) (off : BitVec 10) (s : State) : Out :=
  let ea := eaMI s a off 64
  .next (guarded (collides 3 (.v d {}) s :: boundsAlign sp ea 256 4 ++ [poisonCheck s sp ea 256])
    (loadInto 3 (fun x => .v d (rawV x)) sp ea 256) s)

def execVst (d a : Reg) (sp : BitVec 2) (off : BitVec 10) (s : State) : Out :=
  let ea := eaMI s a off 64
  .next (guarded (boundsAlign sp ea 256 4 ++ [storeCheck s sp ea 256]) (storeBytes sp ea (vreg s d).data.toNat 256) s)

/-- The wait-loads' tile and range checks (R176). -/
def waitTile (s : State) (b : BitVec 2) (ea n : Nat) : List Check :=
  match s.core.tileOf b ea with
  | none => [{ bad := true, cause := .tileState }]
  | some (_, t) => [{ bad := decide (ea < t.base) || decide (t.base + t.size < ea + n), cause := .localBounds }]

/-- The lines of a range are filled, or the tile is whole. -/
def filled (t : Tile) (ea n : Nat) : Bool :=
  t.state == .ready || t.state == .draining ||
    ((List.range ((ea + n + 63) / 64 - ea / 64)).all fun i => t.fill.getLsbD (ea / 64 + i - t.line.toNat))

/-- A wait-load still waits. -/
def loadWaits (s : State) (b : BitVec 2) (ea n : Nat) : Bool :=
  match s.core.tileOf b ea with
  | none => false
  | some (_, t) => !filled t ea n

def execLdw (d a : Reg) (sp : BitVec 2) (off : BitVec 10) (s : State) : Out :=
  let ea := eaMI s a off 8
  .next (guarded (collides 3 (.s d 0#64) s :: boundsAlign sp ea 8 8 ++ waitTile s sp ea 8)
    (waitFor (loadWaits s sp ea 8) 2
      (guarded [poisonCheck s sp ea 8] (loadInto 3 (fun x => .s d (BitVec.ofNat 64 x)) sp ea 8))) s)

def execVldw (d a : Reg) (sp : BitVec 2) (off : BitVec 10) (s : State) : Out :=
  let ea := eaMI s a off 64
  .next (guarded (collides 3 (.v d {}) s :: boundsAlign sp ea 256 4 ++ waitTile s sp ea 256)
    (waitFor (loadWaits s sp ea 256) 2
      (guarded [poisonCheck s sp ea 256] (loadInto 3 (fun x => .v d (rawV x)) sp ea 256))) s)

/-! MX blocks between the packed and the register layout (R178). -/

/-- Bytes of a packed block (04 R99). -/
def blockBytes (t : BitVec 4) : Nat := 1 + 32 * tagWidth t / 8

/-- Element codes of a packed block after its scale byte. -/
def unpackBlock (t : BitVec 4) (x : Nat) : List Nat := (List.range 32).map fun j => slice (x / 256) (tagWidth t) j

/-- The packed bytes of a block. -/
def packBlock (t : BitVec 4) (scale : Nat) (e : List Nat) : Nat := scale + 256 * pack (tagWidth t) e

/-- The register after VLDS. -/
def vldsValue (c : Core) (old : VReg) (t : BitVec 4) (b : BitVec 2) (ea nb : Nat) (k : W64) : VReg :=
  let bb := blockBytes t
  let one (i : Nat) : Nat × Nat :=
    if i < nb then
      if blockOn k i then
        let x := c.load b (ea + i * bb) bb
        (x % 256, pack 8 (unpackBlock t x))
      else (slice old.scale.toNat 8 i, slice old.data.toNat 256 i)
    else (0, 0)
  let bs := (List.range 8).map one
  { tag := t, scale := BitVec.ofNat 64 (pack 8 (bs.map Prod.fst)), data := unpad t (packV 256 (bs.map Prod.snd)) }

/-- VLDS (R178), with the tile as its bundle issues. -/
def execVlds (d a b : Reg) (k : KReg) (sp z : BitVec 2) (s : State) : Out :=
  let ea := (sreg s a + sreg s b).toNat
  let nb := 2 ^ z.toNat
  let col := collides 3 (.v d {}) s
  .next (match s.issued.core.tileOf sp ea with
    | none => guarded [col, { bad := true, cause := .tileState }] id s
    | some (_, t) =>
      let bb := blockBytes t.tag
      let on := (List.range nb).filter fun i => blockOn (kreg s k) i
      guarded
        ([col, { bad := !isMx t.tag, cause := .formatMismatch },
          { bad := decide (t.base + t.size < ea + nb * bb), cause := .localBounds }]
          ++ on.map fun i => poisonCheck s sp (ea + i * bb) bb)
        (fun s => noteWords (on.flatMap fun i => wordsOfAccess sp (ea + i * bb) bb)
          (launchResult { rem := 3, put := .v d (vldsValue s.core (vreg s d) t.tag sp ea nb (kreg s k)) } s)) s)

def execVsts (d a b : Reg) (k : KReg) (sp z : BitVec 2) (s : State) : Out :=
  let v := vreg s d
  let ea := (sreg s a + sreg s b).toNat
  let nb := 2 ^ z.toNat
  let bb := blockBytes v.tag
  let on := (List.range nb).filter fun i => blockOn (kreg s k) i
  .next (guarded
    ([{ bad := !isMx v.tag, cause := .formatMismatch }, { bad := decide (bufSize sp < ea + nb * bb), cause := .localBounds }]
      ++ on.map fun i => storeCheck s sp (ea + i * bb) bb)
    (fun s => (on.foldl (fun s i =>
      storeBytes sp (ea + i * bb)
        (packBlock v.tag (slice v.scale.toNat 8 i) ((List.range 32).map fun j => elemCode v v.tag (32 * i + j))) bb s) s).onCore
      fun c => c.clearBad sp (on.map fun i => (ea + i * bb, bb))) s)

/-- Lane addresses of VGATH and VSCAT (R179). -/
def laneAddr (s : State) (a b : Reg) (z : BitVec 2) (l : Nat) : Nat :=
  let sh := match z.toNat with | 0 => 0 | 1 => 2 | 2 => 3 | _ => 6
  (sreg s a + BitVec.ofNat 64 (lane (vreg s b) l * 2 ^ sh)).toNat

/-- Active lanes. -/
def lanesOf (k : W64) : List Nat := (List.range 64).filter fun l => k.getLsbD l

def execVgath (d a b : Reg) (k : KReg) (sp z : BitVec 2) (s : State) : Out :=
  let ls := lanesOf (kreg s k)
  let ad := laneAddr s a b z
  let old := vreg s d
  .next (guarded
    (collides 3 (.v d {}) s :: (ls.map fun l => boundsAlign sp (ad l) 4 4 ++ [poisonCheck s sp (ad l) 4]).flatten)
    (fun s =>
      let v : VReg := { data := packV 32 ((List.range 64).map fun l =>
        if (kreg s k).getLsbD l then s.core.load sp (ad l) 4 else lane old l) }
      noteWords (ls.map fun l => wordsOfAccess sp (ad l) 4).flatten (launchResult { rem := 3, put := .v d v } s)) s)

def execVscat (d a b : Reg) (k : KReg) (sp z : BitVec 2) (s : State) : Out :=
  let ls := lanesOf (kreg s k)
  let ad := laneAddr s a b z
  let v := vreg s d
  .next (guarded (ls.map fun l => boundsAlign sp (ad l) 4 4 ++ [storeCheck s sp (ad l) 4]).flatten
    (fun s => (ls.foldl (fun s l => storeBytes sp (ad l) (lane v l) 4 s) s).onCore fun c => c.clearBad sp (ls.map fun l => (ad l, 4))) s)

/-! Tile instructions (R184 to R188). -/

/-- Non-EMPTY tiles as TALLOC sees them: those of the start of the tick, and those that earlier slots of the bundle allocate
(R184, 02 R47). A slot that the bundle frees is not among the EMPTY ones yet. -/
def tilesSeen (s : State) : Map Tile := s.issue.alloc ++ s.issue.tiles0.getD s.core.tiles

/-- A slot is EMPTY. -/
def slotEmpty (m : Map Tile) (i : Nat) : Bool := (findD i {} m).state == .empty

/-- The tile TALLOC makes from its descriptor (R184). -/
def newTile (x : W64) (owner : BitVec 4) : Tile :=
  let t : Tile :=
    { owner := owner, fsc := x.getLsbD 54, tag := x.extractLsb' 49 4, buf := x.extractLsb' 47 2, state := .ready
      sizem1 := x.extractLsb' 28 16, line := x.extractLsb' 14 14 }
  { t with fill := fillAll t.nl }

def execTalloc (d a b : Reg) (m : BitVec 4) (s : State) : Out :=
  let seen := tilesSeen s
  let i : Option Nat :=
    if m = 0#4 then some (slotOf (sreg s b)) else (List.range 256).find? fun i => slotEmpty seen i
  .next (match i with
    | none => result { rem := 1, put := .s d (BitVec.allOnes 64) } s
    | some i =>
      let t := newTile (sreg s a) s.core.slot
      let p : Pending := { rem := 1, put := .s d (BitVec.ofNat 64 i) }
      guarded
        [collision p s, { bad := !slotEmpty seen i, cause := .tileState },
         { bad := t.buf == 3#2, cause := .localBounds }, { bad := (14#4).ule t.tag, cause := .illegalOp },
         { bad := decide (bufSize t.buf < 64 * (t.line.toNat + t.nl)), cause := .localBounds },
         { bad := seen.any fun q => q.2.touches t.buf t.base (64 * t.nl), cause := .tileState }]
        (fun s =>
          let s := launchResult p s
          { s with core := s.core.setTile i t, issue := { s.issue with alloc := s.issue.alloc ++ [(i, t)] } }) s)

/-- TFREE (R185). -/
def execTfree (a : Reg) (s : State) : Out :=
  let i := slotOf (sreg s a)
  .next (guarded [emptyCheck s i, { bad := (s.core.tile i).nb, cause := .tileState }]
    (waitFor (interlock s i true) 1 fun s => s.onCore fun c => c.setTile i {}) s)

/-- TSTAT (R186): the slot as the tick began. -/
def execTstat (d a : Reg) (s : State) : Out :=
  .next (writeS 1 d (findD (slotOf (sreg s a)) {} (s.issue.tiles0.getD s.core.tiles)).word s)

/-- TWAIT (R187). -/
def execTwait (a b : Reg) (m : BitVec 4) (s : State) : Out :=
  let i := slotOf (sreg s a)
  .next (guarded [emptyCheck s i]
    (waitRoom (decide (16 ≤ s.core.watchCount)) fun s => s.onCore fun c =>
      let w : Watch := { tile := i, thr := sreg s b, tc := m, fw := c.fwm }
      { c with watches := c.watches ++ [{ w with hit := w.met c }] }) s)

/-- TSET (R188). -/
def execTset (a b : Reg) (m : BitVec 4) (s : State) : Out :=
  let i := slotOf (sreg s a)
  let t := s.core.tile i
  let x := sreg s b
  let set (f : Tile → Tile) (s : State) : State := s.onCore fun c => c.setTile i (f (c.tile i))
  .next (match m.toNat with
    | 0 =>
      guarded [emptyCheck s i, { bad := (14#4).ule (x.extractLsb' 0 4), cause := .illegalOp }]
        (waitFor (interlock s i true) 1 (set fun t => { t with tag := x.extractLsb' 0 4 })) s
    | 1 =>
      guarded [emptyCheck s i]
        (waitFor (interlock s i true) 1 (set fun t => { t with fsc := x.getLsbD 0, owner := s.core.slot })) s
    | 2 =>
      guarded [emptyCheck s i, { bad := t.nb, cause := .tileState }]
        (waitFor (interlock s i true) 1 (set fun t => { t with state := .filling, pf := true, fill := 0#1024 })) s
    | _ => guarded [{ bad := !(t.state == .filling && t.pf), cause := .tileState }] (set Tile.toReady) s)

/-! The instruction store (R189 to R192). -/

/-- Lines leave the instruction store; fills of them in progress will not be kept (R191). -/
def Core.invalidate (c : Core) (l : Option Nat) : Core :=
  let hit (x : Nat) : Bool := match l with | some y => x % 2 ^ 50 == y | none => true
  { c with istore := c.istore.filter fun p => !hit p.1, ifill := c.ifill.map fun p => if hit p.1 then (p.1, false) else p
           ifault := c.ifault.filter fun p => !hit p.1 }

/-- A CLWB of the firing is unfinished. -/
def clwbPending (c : Core) (fid : W64) : Bool :=
  c.ops.any fun o => o.fid == fid && (match o.kind with | .clwb _ => true | _ => false)

/-- ICINV (R191): at once where no CLWB of the firing is pending, else once they have completed. -/
def execIcinv (a : Reg) (m : BitVec 4) (s : State) : Out :=
  let l : Option Nat := if m = 1#4 then none else some ((sreg s a).extractLsb' 6 50).toNat
  .next (guarded [] (fun s =>
    if clwbPending s.core s.core.regs.fireid then addOp { kind := .icinv l } s else s.onCore fun c => c.invalidate l) s)

/-- ICINV_TAKE_EFFECT: no CLWB issued before it is unfinished. -/
def execIcinvTakeEffect (s : State) : Out :=
  let j := inp s 0
  .next (match s.core.ops[j]? with
    | some { kind := .icinv l, fid := f, .. } =>
      if clwbPending { s.core with ops := s.core.ops.take j } f then s
      else s.onCore fun c => (c.dropOp j).invalidate l
    | _ => s)

/-- FETCHB (R192): the fetch buffer is emptied of what follows, and the next fetch waits for the firing's ICINVs. -/
def execFetchb (s : State) : Out :=
  .next (guarded [] (fun s => s.onCore fun c => { c with fbuf := [], fetchb := true }) s)

end Sys2Proof.Machine
end

