-- ==== Sys2Proof/Machine/Masks.lean ====
section
/-! DEFINITION. Group 0x3: masks and names (03_scalar_registers R78 to R80), latency 1. -/

namespace Sys2Proof.Machine

def execKand (d a b : KReg) (s : State) : Out := .next (writeK 1 d (kreg s a &&& kreg s b) s)
def execKor (d a b : KReg) (s : State) : Out := .next (writeK 1 d (kreg s a ||| kreg s b) s)
def execKxor (d a b : KReg) (s : State) : Out := .next (writeK 1 d (kreg s a ^^^ kreg s b) s)
def execKandn (d a b : KReg) (s : State) : Out := .next (writeK 1 d (kreg s a &&& ~~~(kreg s b)) s)
def execKnot (d a : KReg) (s : State) : Out := .next (writeK 1 d (~~~(kreg s a)) s)
def execKmov (d a : KReg) (s : State) : Out := .next (writeK 1 d (kreg s a) s)
def execKtos (d : Reg) (a : KReg) (s : State) : Out := .next (writeS 1 d (kreg s a) s)
def execKpopc (d : Reg) (a : KReg) (s : State) : Out :=
  .next (writeS 1 d (BitVec.ofNat 64 (popBits (kreg s a).toNat 64)) s)
/-- KFIRST: index of the lowest one bit, 64 where there is none. -/
def execKfirst (d : Reg) (a : KReg) (s : State) : Out :=
  .next (writeS 1 d (BitVec.ofNat 64 (ctzBits (kreg s a).toNat 64)) s)
/-- KSETN: the low min(S[a], 64) bits, or S[a] itself. -/
def execKsetn (d : KReg) (a : Reg) (m : BitVec 4) (s : State) : Out :=
  .next (writeK 1 d
    (if m = 0#4 then BitVec.ofNat 64 (2 ^ min (sreg s a).toNat 64 - 1) else sreg s a) s)

/-- NMK: a name in the region's space from a tensor and generation word and an index word. -/
def execNmk (d : NReg) (a b : Reg) (s : State) : Out :=
  .next (writeN 1 d (s.core.space ++ (sreg s a).extractLsb' 0 20 ++ (sreg s b).extractLsb' 0 40
    ++ (sreg s a).extractLsb' 24 24) s)
def execNset (d : NReg) (a : Reg) (m : BitVec 4) (s : State) : Out :=
  .next (writeN 1 d (nameSet m (nreg s d) (sreg s a).toNat) s)
def execNget (d : Reg) (a : NReg) (m : BitVec 4) (s : State) : Out :=
  .next (writeS 1 d (BitVec.ofNat 64 (nameGet m (nreg s a))) s)
def execNadd (d a : NReg) (b : Reg) (m : BitVec 4) (s : State) : Out :=
  .next (writeN 1 d (nameSet m (nreg s a) (nameGet m (nreg s a) + (sreg s b).toNat)) s)
def execNmov (d a : NReg) (s : State) : Out := .next (writeN 1 d (nreg s a) s)
/-- NCMP (R80): equal, equal but for the generation, or the signed generation difference. -/
def execNcmp (d : Reg) (a b : NReg) (m : BitVec 4) (s : State) : Out :=
  let x := nreg s a
  let y := nreg s b
  .next (writeS 1 d
    (match m.toNat with
      | 0 => bit64 (x == y)
      | 1 => bit64 (x.extractLsb' 24 72 == y.extractLsb' 24 72)
      | _ => (nGen x - nGen y).signExtend 64) s)

end Sys2Proof.Machine
end

