-- ==== Sys2Proof/Machine/Matrix.lean ====
section
/-! DEFINITION. Group 0x8 and the matrix unit's queue (06_matrix_registers R142 to R165). A command takes effect when it
completes; conflicting commands complete in issue order. -/

namespace Sys2Proof.Machine

/-- Legal (AFMT, WFMT) pairs (R144). -/
def legalPair (a w : BitVec 4) : Bool := (isMx a && isMx w) || (a == 4#4 && w == 4#4) || (a == 2#4 && w == 2#4)

/-- A format a plane can hold (R143). -/
def planeFmt (f : BitVec 4) : Bool := f == 2#4 || f == 4#4 || isMx f

/-- MATMODE and the formats of wf and ws. -/
structure MatFormats where
  mode : BitVec 10
  wf : BitVec 4
  ws : BitVec 4

/-- The formats a command leaves (R145). -/
def MatFormats.after (f : MatFormats) : MatCmd → MatFormats
  | .mlds _ w => { f with ws := w }
  | .mswap => { f with wf := f.ws, ws := f.wf }
  | .mmode x => { f with mode := x }
  | .mtrw _ t => { f with ws := t }
  | _ => f

/-- The formats every queued command will leave. -/
def Core.matFormats (c : Core) : MatFormats :=
  c.matq.foldl (fun f e => f.after e.cmd) { mode := c.matmode, wf := c.wf.fmt, ws := c.ws.fmt }

def afmt (m : BitVec 10) : BitVec 4 := m.extractLsb' 0 4
def wfmt (m : BitVec 10) : BitVec 4 := m.extractLsb' 4 4
def sparse (m : BitVec 10) : BitVec 2 := m.extractLsb' 8 2

/-- The owner check (01 R29): index 4 is the plane pair. -/
def ownerCheck (s : State) (i : Nat) : Check :=
  { bad := (s.core.owners.toList.getD i none) != some s.core.slot, cause := .windowOwner }

/-- Bytes of elements: n of the packed width. -/
def elemBytes (f : BitVec 4) (n : Nat) : Nat := n * tagWidth f / 8

/-- Row bytes of an A tile, dense or sparse (R147), and column bytes of a W tile (R148). -/
def rowBytes (f : BitVec 4) (sp : Bool) : Nat :=
  (if isMx f then 1 else 0) + (if sp then elemBytes f 16 + 8 else elemBytes f 32)

/-- Bytes per drained element. -/
def drainBytes (f : BitVec 4) : Nat := if f == 1#4 || f == 3#4 then 4 else 2

/-- Checks on a tile operand once READY (R146). -/
def tileOperand (t : Tile) (buf : BitVec 2) (fmt : Option (BitVec 4)) (least : Nat) : List Check :=
  [{ bad := t.buf != buf, cause := .tileState },
   { bad := (fmt.map fun f => t.tag != f && t.tag != 0#4).getD false, cause := .formatMismatch },
   { bad := decide (t.size < least), cause := .localBounds }]

/-- Appends a command; it holds the tiles it names (R151). -/
def Core.enqueue (c : Core) (cmd : MatCmd) : Core :=
  { c with matq := c.matq ++ [{ ser := c.nextSer, fid := c.regs.fireid, cmd := cmd, fw := c.fwm }], nextSer := c.nextSer + 1 }

def Core.holdTile (c : Core) (i : Nat) : Core := c.setTile i { c.tile i with holds := (c.tile i).holds + 1#5 }

/-- A tile that no command holds any longer does what waited for that: the freeing or the next filling that a retirement has
left to it (R151, 07 R173, 10 R266). -/
def Tile.released (t : Tile) : Tile :=
  if t.holds != 0#5 || t.state != .ready then t
  else if t.dying then {}
  else if t.rearm then { t.toFilling (.delivery none) with nb := true, rearm := false }
  else t

def Core.releaseTile (c : Core) (i : Nat) : Core :=
  let t := c.tile i
  if t.state == .empty || t.holds == 0#5 then c else c.setTile i (Tile.released { t with holds := t.holds - 1#5 })

/-- The queue's room (R150). -/
def matFull (s : State) : Bool := decide (16 ≤ s.core.matq.length)

/-- Enters a command with no tile. -/
def matSimple (checks : List Check) (cmd : MatCmd) (s : State) : State :=
  guarded checks (waitRoom (matFull s) fun s => s.onCore fun c => c.enqueue cmd) s

/-- MLDS (R156). The format is judged before the tile's state and the interlock: the spec gives no order (log 36). -/
def execMlds (a : Reg) (s : State) : Out :=
  let i := slotOf (sreg s a)
  let f := wfmt s.core.matFormats.mode
  .next (guarded [ownerCheck s 4, { bad := !planeFmt f, cause := .formatMismatch }, emptyCheck s i]
    (waitFor (interlock s i false) 1
      (guarded (tileOperand (s.core.tile i) 0#2 (some f) (64 * rowBytes f false))
        (waitRoom (matFull s) fun s => s.onCore fun c => (c.enqueue (.mlds i f)).holdTile i))) s)

def execMswap (s : State) : Out := .next (matSimple [ownerCheck s 4] .mswap s)

def MatCmd.isProduct : MatCmd → Bool
  | .mma .. => true
  | _ => false

/-- The stagger hold of the first product after an idle spell (R165): none before it stands in the queue already. -/
def staggerHeld (s : State) : Bool :=
  decide (1024 ≤ s.core.matIdle) && decide (s.core.matHold < s.core.stagger.toNat) && !(s.core.matq.any fun e => e.cmd.isProduct)

/-- MMA and MMAS at issue (R157). The window and the planes are both owned. The formats are judged before the tile's state and
the interlock (log 36). -/
def issueMma (sp : Bool) (d : WReg) (a : Reg) (k : KReg) (s : State) : State :=
  let i := slotOf (sreg s a)
  let f := s.core.matFormats
  let fa := afmt f.mode
  guarded
    [ownerCheck s d.toNat, ownerCheck s 4, { bad := !legalPair fa f.wf, cause := .formatMismatch },
     { bad := sp && sparse f.mode == 0#2, cause := .formatMismatch }, emptyCheck s i]
    (waitFor (interlock s i false) 1
      (guarded (tileOperand (s.core.tile i) 1#2 (some fa) (32 * rowBytes fa sp))
        (waitRoom (matFull s)
          (waitFor (staggerHeld s) 5 fun s =>
            s.onCore fun c =>
              { (c.enqueue (.mma d i (c.k k) sp)).holdTile i with matHold := 0 })))) s

def execMma (d : WReg) (a : Reg) (k : KReg) (s : State) : Out := .next (issueMma false d a k s)
def execMmas (d : WReg) (a : Reg) (k : KReg) (s : State) : Out := .next (issueMma true d a k s)

def execMzero (d : WReg) (k : KReg) (s : State) : Out :=
  .next (matSimple [ownerCheck s d.toNat] (.mzero d (kreg s k)) s)

/-- MDRAIN at issue (R146, R152): the C tile goes to FILLING and takes the drain format as its TAG now, not at completion: the
spec says not which (log 63). -/
def execMdrain (d : Reg) (a : WReg) (b : Reg) (k : KReg) (m : BitVec 4) (s : State) : Out :=
  let i := slotOf (sreg s d)
  .next (guarded [ownerCheck s a.toNat, emptyCheck s i]
    (waitFor (interlock s i true) 1
      (guarded (tileOperand (s.core.tile i) 2#2 none (2048 * drainBytes m))
        (waitRoom (matFull s) fun s => s.onCore fun c =>
          let ser := c.nextSer
          let c := c.enqueue (.mdrain i a (b.getLsbD 0) (b.getLsbD 1) (c.k k) m)
          c.setTile i { (c.tile i).toFilling (.cmd ser) with tag := m, holds := 1#5 }))) s)

/-- drain_int32 (R159). -/
def drainInt32 (c : WCell) : Nat × Flags :=
  if c.ns || c.iv || (c.pi && c.ni) then (0, flNV)
  else if c.pi then (0x7FFFFFFF, flNV)
  else if c.ni then (0x80000000, flNV)
  else if c.sig == 0#96 && !c.z then (0, 0#5)
  else
    let v : Int := 2 * c.sig.toInt + (if c.z then 1 else 0)
    let (y, fl) := roundInt (.fin (decide (v < 0)) v.natAbs (c.anch.toInt - 1) false) 32 0 0
    (codeOf 32 y, fl)

/-- A cell converted to a drain format. -/
def drainCell (f : BitVec 4) (c : WCell) : Nat × Flags := if f == 1#4 then drainInt32 c else drainWindow c (fmtF f)

/-- A cell of a window. -/
def Core.cell (c : Core) (w : WReg) (r n : Nat) : WCell := findD (2048 * w.toNat + 64 * r + n) {} c.windows

def Core.setCell (c : Core) (w : WReg) (r n : Nat) (x : WCell) : Core :=
  { c with windows := put {} (2048 * w.toNat + 64 * r + n) x c.windows }

/-- A queued command writes this window. -/
def MatCmd.writesWin (w : WReg) : MatCmd → Bool
  | .mma x _ _ _ => x == w
  | .mzero x _ => x == w
  | .mdrain _ x _ z _ _ => x == w && z
  | .mwrv x _ _ _ _ => x == w
  | _ => false

/-- MRDV (R160): waits for the queued writers of its window, then reads it. -/
def execMrdv (d : Reg) (a : WReg) (b : Reg) (m : BitVec 4) (s : State) : Out :=
  let r := (sreg s b).toNat % 32
  let rs := (List.range 64).map fun n => drainCell m (s.core.cell a r n)
  let p : Pending := { rem := 4, put := .v d { tag := m, data := packV 32 (rs.map Prod.fst) },
                       flags := rs.foldl (fun f x => f ||| x.2) 0#5 }
  .next (guarded [collision p s, ownerCheck s a.toNat]
    (waitFor (s.core.matq.any fun e => e.cmd.writesWin a) 4 (launchResult p)) s)

/-- MWRV (R161). -/
def execMwrv (d : WReg) (a b : Reg) (k : KReg) (m : BitVec 4) (s : State) : Out :=
  .next (matSimple [tagCheck m (vreg s a), ownerCheck s d.toNat]
    (.mwrv d ((sreg s b).toNat % 32) (kreg s k) m (vreg s a)) s)

/-- MMODE (R155). -/
def execMmode (a : Reg) (s : State) : Out :=
  let x := sreg s a
  let v := x.extractLsb' 0 10
  .next (matSimple
    [ownerCheck s 4, { bad := x.extractLsb' 10 54 != 0#54 || !legalPair (afmt v) (wfmt v), cause := .formatMismatch }]
    (.mmode v) s)

/-- MWAIT (R163). -/
def execMwait (m : BitVec 4) (s : State) : Out :=
  .next (if m = 0#4 then waitFor (!s.core.matq.isEmpty) 4 (fun s => s) s else matSimple [] (.mwait m) s)

def execMtrw (a : WReg) (m : BitVec 4) (s : State) : Out :=
  .next (matSimple [ownerCheck s a.toNat, ownerCheck s 4] (.mtrw a m) s)

/-! The queue (R150). -/

/-- What a command reads and writes: windows 0 to 3, wf 4, ws 5, MATMODE 6, tiles from 8 on. -/
def MatCmd.uses : MatCmd → List (Nat × Bool)
  | .mlds i _ => [(5, true), (6, false), (8 + i, false)]
  | .mswap => [(4, true), (5, true)]
  | .mma w i _ _ => [(w.toNat, true), (4, false), (6, false), (8 + i, false)]
  | .mzero w _ => [(w.toNat, true)]
  | .mdrain i w _ z _ _ => [(w.toNat, z), (8 + i, true)]
  | .mwrv w _ _ _ _ => [(w.toNat, true)]
  | .mmode _ => [(6, true)]
  | .mwait _ => []
  | .mtrw w _ => [(w.toNat, false), (5, true)]

/-- Two commands conflict when one writes what the other uses. -/
def conflict (a b : MatCmd) : Bool := a.uses.any fun x => b.uses.any fun y => x.1 == y.1 && (x.2 || y.2)

def MatCmd.isLoad : MatCmd → Bool
  | .mlds .. => true
  | _ => false

/-- A command may start: its engine is free and no earlier conflicting command is unfinished. -/
def Core.matCanStart (c : Core) (j : Nat) (e : MatEntry) : Bool :=
  !e.started && (c.matq.all fun x => !(x.started && x.cmd.isLoad == e.cmd.isLoad))
    && ((c.matq.take j).all fun x => !conflict x.cmd e.cmd)
    && ((c.matq.take j).all fun x => x.cmd.isLoad != e.cmd.isLoad)

/-- A matrix command starts; a product ends the idle spell (R165). -/
def execMatrixCmdStart (s : State) : Out :=
  let j := inp s 0
  .next (match s.core.matq[j]? with
    | some e =>
      if s.core.matCanStart j e then
        s.onCore fun c =>
          { c with matq := setAt c.matq j { e with started := true }, matIdle := if e.cmd.isProduct then 0 else c.matIdle }
      else s
    | none => s)

/-- Bytes of a source tile, lines already read taken from the entry. -/
def Core.srcBytes (c : Core) (e : MatEntry) (t : Tile) (off n : Nat) : Nat :=
  (List.range n).foldr (fun i acc =>
    let a := off + i
    (match find? (a / 64) e.snap with
      | some l => slice l.toNat 8 (a % 64)
      | none => (rd (c.buf t.buf) (t.base + a)).toNat) + 256 * acc) 0

/-- A block of a row or column: scale, then n elements packed, then what follows. -/
structure MatBlock where
  scale : Nat
  e : List Nat
  md : Nat

/-- A row or column of format f read from its bytes. -/
def matBlock (f : BitVec 4) (n : Nat) (x : Nat) : MatBlock :=
  let y := if isMx f then x / 256 else x
  { scale := if isMx f then x % 256 else 0, e := (List.range n).map (slice y (tagWidth f))
    md := y >>> (n * tagWidth f) }

/-- The LSB exponent of a format (04 R87, R89). -/
def lsbExp (f : BitVec 4) : Int :=
  match fmtOf f with
  | some x => 1 - (x.bias : Int) - x.mb
  | none => if f == 11#4 then -6 else 0

/-- The integer significand of a finite value at an exponent. -/
def Exact.sigOf (x : Exact) (e : Int) : Int :=
  match x with
  | .fin s m ex _ => Exact.sigAt s m ex e
  | _ => 0

/-- The special-value flags of one product (04 R103); none for a product that enters the sum. -/
def specialProd (x y : Exact) (c : WCell) : Option WCell :=
  if x.isNan || y.isNan then some { c with ns := true }
  else if x.isInf || y.isInf then
    if x.isZero || y.isZero then some { c with iv := true }
    else if x.neg? != y.neg? then some { c with ni := true } else some { c with pi := true }
  else none

/-- Adds the terms of one row and one column to a cell (R157). -/
def addTerms (fa fw : BitVec 4) (xa : Nat) (a : List Nat) (xw : Nat) (w : List Nat) (c : WCell) : WCell :=
  let ps := a.zip w
  if isMx fa then
    let r := ps.foldl (fun (acc : WCell × Int) p =>
      let x := decodeElem fa p.1
      let y := decodeElem fw p.2
      match specialProd x y acc.1 with
      | some c' => (c', acc.2)
      | none => (acc.1, acc.2 + x.sigOf (lsbExp fa) * y.sigOf (lsbExp fw))) (c, 0)
    if xa == 0xFF || xw == 0xFF then { r.1 with ns := true }
    else
      windowAdd r.1 r.2 (lsbExp fa + lsbExp fw + ((xa : Int) - 127) + ((xw : Int) - 127))
  else if fa == 2#4 then
    windowAdd c (ps.foldl (fun acc p => acc + signedOf 8 p.1 * signedOf 8 p.2) 0) 0
  else
    ps.foldl (fun c p =>
      let x := decodeFp fmtBF16 p.1
      let y := decodeFp fmtBF16 p.2
      match specialProd x y c, x, y with
      | some c', _, _ => c'
      | none, .fin s m e _, .fin t n g _ =>
        windowAdd c (if s == t then (m * n : Nat) else -((m * n : Nat) : Int)) (e + g)
      | none, _, _ => c) c

/-- K positions of the kept elements of a sparse row (R147). -/
def sparsePos (sp : BitVec 2) (md : Nat) : List Nat :=
  let b := sp.toNat + 1
  let M := 2 ^ b
  (List.range 16).map fun i => M * (i / (M / 2)) + (md >>> (b * i)) % M

/-- A plane element. -/
def Plane.at (p : Plane) (k n : Nat) : Nat := (findD (64 * k + n) 0#16 p.elem).toNat
def Plane.sc (p : Plane) (n : Nat) : Nat := (findD n 0#8 p.scale).toNat

/-- The rows a mask selects. -/
def rowsOf (k : W64) : List Nat := (List.range 32).filter fun r => k.getLsbD r

/-- MMA and MMAS. -/
def Core.runMma (c : Core) (e : MatEntry) (w : WReg) (i : Nat) (rows : W64) (sp : Bool) : Core :=
  let t := c.tile i
  let fa := afmt c.matmode
  let rb := rowBytes fa sp
  let pl := c.wf
  (rowsOf rows).foldl (fun c r =>
    let blk := matBlock fa (if sp then 16 else 32) (c.srcBytes e t (rb * r) rb)
    let ks := if sp then sparsePos (sparse c.matmode) (blk.md % 2 ^ 64) else List.range 32
    (List.range 64).foldl (fun c n =>
      c.setCell w r n (addTerms fa pl.fmt blk.scale blk.e (pl.sc n) (ks.map fun k => pl.at k n) (c.cell w r n))) c) c

/-- A plane from 64 columns of elements with scales. -/
def mkPlane (f : BitVec 4) (cols : List (Nat × List Nat)) : Plane :=
  { fmt := f
    scale := ((List.range 64).zip cols).foldr (fun p m => if p.2.1 == 0 then m else (p.1, BitVec.ofNat 8 p.2.1) :: m) []
    elem := (List.range 2048).foldr (fun i m =>
      let x := ((cols.getD (i % 64) (0, [])).2).getD (i / 64) 0
      if x == 0 then m else (i, BitVec.ofNat 16 x) :: m) [] }

/-- MLDS: the columns are copied bit for bit (R156). -/
def Core.runMlds (c : Core) (e : MatEntry) (i : Nat) (f : BitVec 4) : Core :=
  let t := c.tile i
  let cb := rowBytes f false
  { c with ws := mkPlane f ((List.range 64).map fun n =>
      let b := matBlock f 32 (c.srcBytes e t (cb * n) cb)
      (b.scale, b.e)) }

def Core.runMzero (c : Core) (w : WReg) (rows : W64) : Core :=
  (rowsOf rows).foldl (fun c r => (List.range 64).foldl (fun c n => c.setCell w r n {}) c) c

/-- One cell of MWRV (R161). -/
def cellOf (m : BitVec 4) (v : VReg) (n : Nat) : WCell :=
  if m == 1#4 then windowAdd {} (opndI v 1#4 n) 0
  else
    match decodeFp fmtFP32 (roundFmt (opndX v 3#4 n) fmtFP32 0 0).1 with
    | .nan => { ns := true }
    | .inf neg => if neg then { ni := true } else { pi := true }
    | .fin s mg e _ => windowAdd {} (if s then -(mg : Int) else mg) e

def Core.runMwrv (c : Core) (w : WReg) (r : Nat) (k : W64) (m : BitVec 4) (v : VReg) : Core :=
  ((List.range 64).filter fun n => k.getLsbD n).foldl (fun c n => c.setCell w r n (cellOf m v n)) c

/-- One column of MTRW (R162): scale, elements, flags. -/
def Core.trwCol (c : Core) (w : WReg) (f : BitVec 4) (n : Nat) : Nat × List Nat × Flags :=
  if isMx f then
    let ds := (List.range 32).map fun k => drainWindow (c.cell w k n) fmtFP32
    let q := quantizeMx f (ds.map fun d => decodeFp fmtFP32 d.1)
    (q.scale, q.e, ds.foldl (fun a d => a ||| d.2) q.fl)
  else if f == 4#4 then
    let ds := (List.range 32).map fun k => drainWindow (c.cell w k n) fmtBF16
    (0, ds.map Prod.fst, ds.foldl (fun a d => a ||| d.2) 0#5)
  else
    let ds := (List.range 32).map fun k =>
      let (x, fl) := drainInt32 (c.cell w k n)
      let i := signedOf 32 x
      (codeOf 8 (clampI i (-128) 127), fl ||| flIf (decide (i < -128) || decide (127 < i)) flNV)
    (0, ds.map Prod.fst, ds.foldl (fun a d => a ||| d.2) 0#5)

/-- Line l of a drain's C tile: its 64 bytes, old bytes kept in masked-off rows. DESIGN CHOICE (log 83): a poisoned word stays poisoned,
also where the drain writes the whole line. -/
def Core.drainLine (c : Core) (i : Nat) (w : WReg) (rows : W64) (f : BitVec 4) (l : Nat) : Core :=
  let t := c.tile i
  let eb := drainBytes f
  let per := 64 / eb
  let c := (List.range per).foldl (fun c j =>
    let x := per * l + j
    if x < 2048 && rows.getLsbD (x / 64) then c.store 2#2 (t.base + eb * x) (drainCell f (c.cell w (x / 64) (x % 64))).1 eb
    else c) c
  c.setTile i { c.tile i with fill := (c.tile i).fill ||| (1#1024 <<< l) }

/-- Results of a drain's rows. -/
def Core.drainAll (c : Core) (w : WReg) (rows : W64) (f : BitVec 4) : List (Nat × Flags) :=
  ((rowsOf rows).map fun r => (List.range 64).map fun n => drainCell f (c.cell w r n)).flatten

/-- The value a drained code stands for, for the histogram. -/
def drainValue (f : BitVec 4) (x : Nat) : Exact := if f == 1#4 then Exact.ofInt (signedOf 32 x) else decodeFp (fmtF f) x

/-- MDRAIN completes: every line written, the tile READY, flags and histogram counts, which land together (R152, R159). -/
def Core.runMdrain (c : Core) (e : MatEntry) (i : Nat) (w : WReg) (hist zero : Bool) (rows : W64) (f : BitVec 4) : Core :=
  let rs := c.drainAll w rows f
  let t := c.tile i
  let open' := (List.range t.nl).filter fun l => !t.fill.getLsbD l
  let c := open'.foldl (fun c l => c.drainLine i w rows f l) c
  let c := c.setTile i (c.tile i).toReady
  let c := if zero then c.runMzero w rows else c
  let bins := rs.filterMap fun r => expBin (drainValue f r.1)
  let inc := if hist then (List.range 32).map fun b => bins.countP (· == b) else []
  c.landHist e.fid e.fw .none (rs.foldl (fun a r => a ||| r.2) 0#5) inc 0#4

/-- The effect of a command at its completion. -/
def Core.runMat (c : Core) (e : MatEntry) : Core :=
  match e.cmd with
  | .mlds i f => (c.runMlds e i f).releaseTile i
  | .mswap => { c with wf := c.ws, ws := c.wf }
  | .mma w i rows sp => (c.runMma e w i rows sp).releaseTile i
  | .mzero w rows => c.runMzero w rows
  | .mdrain i w h z rows f => (c.releaseTile i).runMdrain e i w h z rows f
  | .mwrv w r k m v => c.runMwrv w r k m v
  | .mmode x => { c with matmode := x }
  | .mwait tc => c.landVar e.fid e.fw .none 0#5 tc
  | .mtrw w f =>
    let cols : List (Nat × List Nat × Flags) := (List.range 64).map fun n => c.trwCol w f n
    let p := mkPlane f (cols.map fun x => (x.1, x.2.1))
    Core.landVar { c with ws := p } e.fid e.fw .none (cols.foldl (fun a x => a ||| x.2.2) 0#5) 0#4

/-- A started matrix command completes (R164); MWAIT's also needs every earlier command done (R163). -/
def execMatrixCmdComplete (s : State) : Out :=
  let j := inp s 0
  .next (match s.core.matq[j]? with
    | some e =>
      let ready := e.started && (match e.cmd with | .mwait _ => j == 0 | _ => true)
      if ready then s.onCore fun c => Core.runMat { c with matq := dropAt c.matq j } e else s
    | none => s)

/-- A source line is read at some moment from the command's issue to its completion, so that a store of the firing in between
leaves it old or new (R151): the model's own turn. -/
def matReadLine (j l : Nat) (s : State) : State :=
  match s.core.matq[j]? with
  | some e =>
    let i := match e.cmd with | .mlds i _ => some i | .mma _ i _ _ => some i | _ => none
    match i with
    | some i =>
      if (find? l e.snap).isNone && decide (l < (s.core.tile i).nl) then
        let t := s.core.tile i
        let e' := { e with snap := insert l (BitVec.ofNat 512 (s.core.load t.buf (t.base + 64 * l) 64)) e.snap }
        s.onCore fun c => { c with matq := setAt c.matq j e' }
      else s
    | none => s
  | none => s

/-- A line of a running drain is written ahead of completion (R152): the model's own turn. -/
def matWriteLine (j l : Nat) (s : State) : State :=
  match s.core.matq[j]? with
  | some e =>
    match e.cmd with
    | .mdrain i w _ _ rows f =>
      if e.started && decide (l < (s.core.tile i).nl) && !(s.core.tile i).fill.getLsbD l then
        s.onCore fun c => c.drainLine i w rows f l
      else s
    | _ => s
  | none => s

end Sys2Proof.Machine
end

