-- ==== Sys2Proof/Machine/Vector.lean ====
section
/-! DEFINITION. Group 0x4: vector arithmetic and logic (05_vector_registers R120 to R126). -/

namespace Sys2Proof.Machine

/-- Latency of an instruction that takes 3 ticks in class F and 2 in class I (R120). -/
def latFI (m : BitVec 4) : Nat := if isF m then 3 else 2

/-- An element-wise operation on a and b in format m: `ff` on exact values, `fi` on signed integers. -/
def vbin (lat : Nat) (ff : Exact → Exact → Nat × Flags) (fi : Int → Int → Int) (d a b : Reg) (k : KReg) (m : BitVec 4)
    (s : State) : State :=
  let va := vreg s a
  let vb := vreg s b
  vresult lat d [tagCheck m va, tagCheck m vb] []
    (elementwise m (kreg s k) (vreg s d) fun e =>
      if isF m then ff (opndX va m e) (opndX vb m e)
      else (codeOf (regWidth m) (fi (opndI va m e) (opndI vb m e)), 0#5)) s

/-- An element-wise operation on a alone. -/
def vun (lat : Nat) (ff : Exact → Nat × Flags) (fi : Int → Int) (d a : Reg) (k : KReg) (m : BitVec 4) (s : State) : State :=
  let va := vreg s a
  vresult lat d [tagCheck m va] []
    (elementwise m (kreg s k) (vreg s d) fun e =>
      if isF m then ff (opndX va m e) else (codeOf (regWidth m) (fi (opndI va m e)), 0#5)) s

/-- An element-wise operation that also reads the old d (VFMA, VFMS). -/
def vtri (lat : Nat) (ff : Exact → Exact → Exact → Nat × Flags) (fi : Int → Int → Int → Int) (d a b : Reg) (k : KReg)
    (m : BitVec 4) (s : State) : State :=
  let va := vreg s a
  let vb := vreg s b
  let vd := vreg s d
  vresult lat d [tagCheck m va, tagCheck m vb, tagCheck m vd] []
    (elementwise m (kreg s k) vd fun e =>
      if isF m then ff (opndX va m e) (opndX vb m e) (opndX vd m e)
      else (codeOf (regWidth m) (fi (opndI va m e) (opndI vb m e) (opndI vd m e)), 0#5)) s

/-- Order of VMIN and VMAX in class F: -0 below +0 (R124). -/
def ltZ (x y : Exact) : Bool := if x.isZero && y.isZero then x.neg? && !y.neg? else x.lt y

/-- VMIN and VMAX of class F (R124). -/
def minX (x y : Exact) : Exact := if x.isNan || y.isNan then .nan else if ltZ y x then y else x
def maxX (x y : Exact) : Exact := if x.isNan || y.isNan then .nan else if ltZ x y then y else x

def minI (x y : Int) : Int := if y < x then y else x
def maxI (x y : Int) : Int := if x < y then y else x

def execVadd (d a b : Reg) (k : KReg) (m : BitVec 4) (s : State) : Out :=
  .next (vbin (latFI m) (fun x y => roundTo (rmode s) m (x.add (rmode s) y)) (· + ·) d a b k m s)
def execVsub (d a b : Reg) (k : KReg) (m : BitVec 4) (s : State) : Out :=
  .next (vbin (latFI m) (fun x y => roundTo (rmode s) m (x.add (rmode s) y.negate)) (· - ·) d a b k m s)
def execVmul (d a b : Reg) (k : KReg) (m : BitVec 4) (s : State) : Out :=
  .next (vbin (latFI m) (fun x y => roundTo (rmode s) m (x.mul y)) (· * ·) d a b k m s)
def execVfma (d a b : Reg) (k : KReg) (m : BitVec 4) (s : State) : Out :=
  .next (vtri 4 (fun x y z => roundTo (rmode s) m (Exact.fma (rmode s) x y z)) (fun x y z => x * y + z) d a b k m s)
def execVfms (d a b : Reg) (k : KReg) (m : BitVec 4) (s : State) : Out :=
  .next (vtri 4 (fun x y z => roundTo (rmode s) m (Exact.fma (rmode s) x.negate y z)) (fun x y z => z - x * y) d a b k m s)
def execVmin (d a b : Reg) (k : KReg) (m : BitVec 4) (s : State) : Out :=
  .next (vbin (latFI m) (fun x y => roundTo 0 m (minX x y, 0#5)) minI d a b k m s)
def execVmax (d a b : Reg) (k : KReg) (m : BitVec 4) (s : State) : Out :=
  .next (vbin (latFI m) (fun x y => roundTo 0 m (maxX x y, 0#5)) maxI d a b k m s)
def execVabs (d a : Reg) (k : KReg) (m : BitVec 4) (s : State) : Out :=
  .next (vun (latFI m) (fun x => roundTo 0 m (x.abs, 0#5)) (fun x => x.natAbs) d a k m s)
def execVneg (d a : Reg) (k : KReg) (m : BitVec 4) (s : State) : Out :=
  .next (vun (latFI m) (fun x => roundTo 0 m (x.negate, 0#5)) (fun x => -x) d a k m s)

/-- A bitwise operation: a's tag and scales (R126). -/
def vbits (f : VData → VData → VData) (d a b : Reg) (k : KReg) (s : State) : State :=
  let va := vreg s a
  vresult 2 d [] [] (merge (kreg s k) (vreg s d) { va with data := f va.data (vreg s b).data }, 0#5) s

def execVand (d a b : Reg) (k : KReg) (s : State) : Out := .next (vbits (· &&& ·) d a b k s)
def execVor (d a b : Reg) (k : KReg) (s : State) : Out := .next (vbits (· ||| ·) d a b k s)
def execVxor (d a b : Reg) (k : KReg) (s : State) : Out := .next (vbits (· ^^^ ·) d a b k s)

/-- The shift count: the element as an unsigned number, modulo the width (R123). -/
def shCount (m : BitVec 4) (y : Int) : Nat := codeOf (regWidth m) y % regWidth m

def noF2 (_ _ : Exact) : Nat × Flags := (0, 0#5)
def noF1 (_ : Exact) : Nat × Flags := (0, 0#5)

def execVshl (d a b : Reg) (k : KReg) (m : BitVec 4) (s : State) : Out :=
  .next (vbin 2 noF2 (fun x y => x * (2 ^ shCount m y : Nat)) d a b k m s)
def execVshr (d a b : Reg) (k : KReg) (m : BitVec 4) (s : State) : Out :=
  .next (vbin 2 noF2 (fun x y => ((codeOf (regWidth m) x >>> shCount m y : Nat) : Int)) d a b k m s)
def execVsra (d a b : Reg) (k : KReg) (m : BitVec 4) (s : State) : Out :=
  .next (vbin 2 noF2 (fun x y => x / (2 ^ shCount m y : Nat)) d a b k m s)

/-- Comparisons of VCMP (R125). -/
def vcond (m : BitVec 4) (a b : VReg) (l : Nat) : Bool :=
  let x := opndI a 1#4 l
  let y := opndI b 1#4 l
  let ux := codeOf 32 x
  let uy := codeOf 32 y
  let fx := opndX a 3#4 l
  let fy := opndX b 3#4 l
  match m.toNat with
  | 0 => x == y
  | 1 => x != y
  | 2 => decide (x < y)
  | 3 => decide (x ≤ y)
  | 4 => decide (y < x)
  | 5 => decide (y ≤ x)
  | 6 => decide (ux < uy)
  | 7 => decide (uy ≤ ux)
  | 8 => fx.eq fy
  | 9 => !fx.eq fy
  | 10 => fx.lt fy
  | 11 => fx.lt fy || fx.eq fy
  | 12 => fy.lt fx
  | 13 => fy.lt fx || fx.eq fy
  | 14 => fx.isNan || fy.isNan
  | _ => !(fx.isNan || fy.isNan)

def execVcmp (d : KReg) (a b : Reg) (k : KReg) (m : BitVec 4) (s : State) : Out :=
  let va := vreg s a
  let vb := vreg s b
  let f : BitVec 4 := if m.getLsbD 3 then 3#4 else 1#4
  let r := (List.range 64).map fun l => if (kreg s k).getLsbD l && vcond m va vb l then 1 else 0
  let p : Pending := { rem := if m.getLsbD 3 then 3 else 2, put := .k d (BitVec.ofNat 64 (pack 1 r)) }
  .next (guarded [tagCheck f va, tagCheck f vb, collision p s] (launchResult p) s)

/-- VSEL (R126): selects by lane, a's tag and scales. -/
def execVsel (d a b : Reg) (k : KReg) (s : State) : Out :=
  let va := vreg s a
  let m := laneMask (kreg s k)
  .next (vresult 2 d [] []
    ({ va with data := unpad va.tag ((va.data &&& m) ||| ((vreg s b).data &&& ~~~m)) }, 0#5) s)

def execVmov (d a : Reg) (k : KReg) (s : State) : Out :=
  .next (vresult 2 d [] [] (merge (kreg s k) (vreg s d) (vreg s a), 0#5) s)

def execVbcast (d a : Reg) (k : KReg) (m : BitVec 4) (s : State) : Out :=
  .next (vresult 2 d [] [] (elementwise m (kreg s k) (vreg s d) fun _ => ((sreg s a).toNat, 0#5)) s)

/-- VDOT4 (R126): four INT8 products added to each INT32 lane. -/
def execVdot4 (d a b : Reg) (k : KReg) (s : State) : Out :=
  let va := vreg s a
  let vb := vreg s b
  let vd := vreg s d
  let t (l i : Nat) : Int := opndI va 2#4 (4 * l + i) * opndI vb 2#4 (4 * l + i)
  .next (vresult 4 d [tagCheck 2#4 va, tagCheck 2#4 vb, tagCheck 1#4 vd] []
    (elementwise 1#4 (kreg s k) vd fun l => (codeOf 32 (opndI vd 1#4 l + t l 0 + t l 1 + t l 2 + t l 3), 0#5)) s)

/-- The exact sum of two products and d with the special cases of R124. -/
def dot2 (mode : Nat) (x0 y0 x1 y1 z : Exact) : Exact × Flags :=
  let (p, f) := x0.mul y0
  let (q, g) := x1.mul y1
  if f ||| g != 0#5 then (.nan, flNV)
  else if p.isNan || q.isNan || z.isNan then (.nan, 0#5)
  else
    let (r, h) := p.add mode q
    if h != 0#5 then (.nan, flNV) else r.add mode z

def execVdot2 (d a b : Reg) (k : KReg) (m : BitVec 4) (s : State) : Out :=
  let va := vreg s a
  let vb := vreg s b
  let vd := vreg s d
  let t : BitVec 4 := if m == 12#4 then 1#4 else 3#4
  .next (vresult 4 d [tagCheck m va, tagCheck m vb, tagCheck t vd] []
    (elementwise t (kreg s k) vd fun l =>
      if m == 12#4 then
        (codeOf 32 (opndI vd 1#4 l + opndI va m (2 * l) * opndI vb m (2 * l)
          + opndI va m (2 * l + 1) * opndI vb m (2 * l + 1)), 0#5)
      else
        roundTo (rmode s) 3#4 (dot2 (rmode s) (opndX va m (2 * l)) (opndX vb m (2 * l)) (opndX va m (2 * l + 1))
          (opndX vb m (2 * l + 1)) (opndX vd 3#4 l))) s)

/-- VSAT (R124): saturating sum. -/
def execVsat (d a b : Reg) (k : KReg) (m : BitVec 4) (s : State) : Out :=
  let w := regWidth m
  .next (vbin (latFI m) (fun x y => roundTo (rmode s) m (x.add (rmode s) y) true)
    (fun x y => clampI (x + y) (-(2 ^ (w - 1) : Nat)) ((2 ^ (w - 1) : Nat) - 1)) d a b k m s)

def execVclz (d a : Reg) (k : KReg) (m : BitVec 4) (s : State) : Out :=
  .next (vun 2 noF1 (fun x => (clzBits (codeOf (regWidth m) x) (regWidth m) : Nat)) d a k m s)
def execVpopc (d a : Reg) (k : KReg) (m : BitVec 4) (s : State) : Out :=
  .next (vun 2 noF1 (fun x => (popBits (codeOf (regWidth m) x) (regWidth m) : Nat)) d a k m s)
def execVmulh (d a b : Reg) (k : KReg) (m : BitVec 4) (s : State) : Out :=
  .next (vbin 3 noF2 (fun x y => x * y / (2 ^ regWidth m : Nat)) d a b k m s)

end Sys2Proof.Machine
end

