-- ==== Sys2Proof/Machine/Reduce.lean ====
section
/-! DEFINITION. Group 0x6: reductions, search, random numbers, histograms, the Mangle in the vector unit
(05_vector_registers R131 to R137). -/

namespace Sys2Proof.Machine

/-- A lane value of a reduction: absent, or a code with the flags its making raised. -/
abbrev LaneVal := Option (Nat × Flags)

/-- Lane l as a 32-bit code in format m, absent where inactive. -/
def laneVal (v : VReg) (m : BitVec 4) (k : W64) (l : Nat) : LaneVal :=
  if k.getLsbD l then
    some (if m == 3#4 then (roundFmt (opndX v m l) fmtFP32 0 0).1 else codeOf 32 (opndI v m l), 0#5)
  else none

/-- One addition of VREDADD and VSCAN: rounded in FP32, wrapping in INT32. -/
def laneAdd (mode : Nat) (m : BitVec 4) (x y : LaneVal) : LaneVal :=
  match x, y with
  | none, y => y
  | x, none => x
  | some (a, f), some (b, g) =>
    if m == 3#4 then
      let (c, h) := roundTo mode 3#4 ((decodeFp fmtFP32 a).add mode (decodeFp fmtFP32 b))
      some (c, f ||| g ||| h)
    else some ((a + b) % 2 ^ 32, f ||| g)

/-- One level of the tree: lane l with lane l + h. -/
def treeLevel (mode : Nat) (m : BitVec 4) (x : List LaneVal) (h : Nat) : List LaneVal :=
  (List.range h).map fun l => laneAdd mode m (x.getD l none) (x.getD (l + h) none)

/-- The tree sum of VREDADD. -/
def treeSum (mode : Nat) (m : BitVec 4) (x : List LaneVal) : LaneVal :=
  ([32, 16, 8, 4, 2, 1].foldl (treeLevel mode m) x).getD 0 none

/-- A scalar result of a lane reduction: FP32 zero-extended, INT32 sign-extended (R131). -/
def redScalar (m : BitVec 4) (c : Nat) : W64 := if m == 3#4 then BitVec.ofNat 64 c else BitVec.ofInt 64 (signedOf 32 c)

def execVredadd (d a : Reg) (k : KReg) (m : BitVec 4) (s : State) : Out :=
  let va := vreg s a
  let r := (treeSum (rmode s) m ((List.range 64).map (laneVal va m (kreg s k)))).getD (0, 0#5)
  .next (sresult 5 d [tagCheck m va] [] (redScalar m r.1) r.2 s)

/-- Minimum or maximum of the active lanes by the rules of VMIN and VMAX. -/
def redPick (big : Bool) (m : BitVec 4) (v : VReg) (k : W64) : Nat :=
  let ls := selected64 k
  if m == 3#4 then
    match ls.map (opndX v m) with
    | [] => if big then 0xFF800000 else 0x7F800000
    | x :: t => (roundFmt (t.foldl (if big then maxX else minX) x) fmtFP32 0 0).1
  else
    match ls.map (opndI v m) with
    | [] => if big then 0x80000000 else 0x7FFFFFFF
    | x :: t => codeOf 32 (t.foldl (if big then maxI else minI) x)
where
  /-- active lanes in ascending order -/
  selected64 (k : W64) : List Nat := (List.range 64).filter fun l => k.getLsbD l

def execVredmin (d a : Reg) (k : KReg) (m : BitVec 4) (s : State) : Out :=
  let va := vreg s a
  .next (sresult 5 d [tagCheck m va] [] (redScalar m (redPick false m va (kreg s k))) 0#5 s)
def execVredmax (d a : Reg) (k : KReg) (m : BitVec 4) (s : State) : Out :=
  let va := vreg s a
  .next (sresult 5 d [tagCheck m va] [] (redScalar m (redPick true m va (kreg s k))) 0#5 s)

/-- VSCAN: the running sums of the lanes from `acc` on; an inactive lane keeps its old bits. -/
def scanLanes (mode : Nat) (m : BitVec 4) (old : VReg) (acc : LaneVal) : List (Nat × LaneVal) → List (Nat × Flags)
  | [] => []
  | (l, none) :: t => (lane old l, 0#5) :: scanLanes mode m old acc t
  | (_, some x) :: t =>
    let r := laneAdd mode m acc (some x)
    r.getD (0, 0#5) :: scanLanes mode m old r t

def execVscan (d a : Reg) (k : KReg) (m : BitVec 4) (s : State) : Out :=
  let va := vreg s a
  let rs := scanLanes (rmode s) m (vreg s d) none ((List.range 64).map fun l => (l, laneVal va m (kreg s k) l))
  .next (vresult 6 d [tagCheck m va] []
    ({ tag := m, data := packV 32 (rs.map Prod.fst) }, rs.foldl (fun f p => f ||| p.2) 0#5) s)

/-! Top-k order (R132). -/

/-- A (key, index) pair by its codes. -/
abbrev KeyIdx := Nat × Nat

/-- rank x less than rank y. -/
def rankLt (m : BitVec 4) (x y : Nat) : Bool :=
  if m == 3#4 then
    let a := decodeFp fmtFP32 x
    let b := decodeFp fmtFP32 y
    if a.isNan then !b.isNan else a.lt b
  else decide (signedOf 32 x < signedOf 32 y)

/-- topk_before (R132). -/
def topkBefore (m : BitVec 4) (p q : KeyIdx) : Bool :=
  rankLt m q.1 p.1 || (!rankLt m p.1 q.1 && decide (p.2 < q.2))

/-- Insertion into a sorted list. -/
def topkInsert (m : BitVec 4) (p : KeyIdx) : List KeyIdx → List KeyIdx
  | [] => [p]
  | q :: t => if topkBefore m p q then p :: q :: t else q :: topkInsert m p t

/-- Pairs in top-k order. -/
def topkSort (m : BitVec 4) (l : List KeyIdx) : List KeyIdx := l.foldr (topkInsert m) []

/-- A key's code in format m after widening; a NaN becomes the filler key (R133). -/
def keyCode (v : VReg) (m : BitVec 4) (l : Nat) : Nat :=
  if m == 3#4 then (roundFmt (opndX v m l) fmtFP32 0 0).1 else codeOf 32 (opndI v m l)

/-- Pair lanes: key and unsigned index. -/
def pairLane (s : State) (p : Reg) (m : BitVec 4) (l : Nat) : KeyIdx :=
  (keyCode (vreg s p) m l, codeOf 32 (opndI (vreg s (p + 1#5)) 1#4 l))

/-- The filler pair (R133). -/
def fillerPair (m : BitVec 4) : KeyIdx := (if m == 3#4 then 0x7FC00000 else 0x80000000, 0xFFFFFFFF)

/-- A sorted pair of registers, filled up. -/
def pairResult (d : Reg) (m : BitVec 4) (tags : List Check) (l : List KeyIdx) (s : State) : State :=
  let l := padTo 64 (fillerPair m) l
  let p : Pending := { rem := 8, put := .vv d { tag := m, data := packV 32 (l.map Prod.fst) }
                                           { tag := 1#4, data := packV 32 (l.map Prod.snd) } }
  guarded (tags ++ [collision p s]) (launchResult p) s

/-- Tag checks of a pair. -/
def pairChecks (s : State) (p : Reg) (m : BitVec 4) : List Check :=
  [tagCheck m (vreg s p), tagCheck 1#4 (vreg s (p + 1#5))]

def execVtopk (d a b : Reg) (k : KReg) (m : BitVec 4) (s : State) : Out :=
  let act := (List.range 64).filter fun l => (kreg s k).getLsbD l
  let l := topkSort m (act.map (pairLane s a m) ++ (List.range 64).map (pairLane s b m))
  .next (pairResult d m (pairChecks s a m ++ pairChecks s b m) l s)

def execVsorts (d a : Reg) (k : KReg) (m : BitVec 4) (s : State) : Out :=
  let act := (List.range 64).filter fun l => (kreg s k).getLsbD l
  .next (pairResult d m (pairChecks s a m) (topkSort m (act.map (pairLane s a m))) s)

/-- VARGMX: the lane that is first by topk_before with its number as index; 64 where none is active. -/
def execVargmx (d a : Reg) (k : KReg) (m : BitVec 4) (s : State) : Out :=
  let va := vreg s a
  let act := (List.range 64).filter fun l => (kreg s k).getLsbD l
  let l := match topkSort m (act.map fun l => (keyCode va m l, l)) with
    | [] => 64
    | p :: _ => p.2
  .next (sresult 5 d [tagCheck m va] [] (BitVec.ofNat 64 l) 0#5 s)

/-- vrand_word (R134). -/
def vrandWord (key ctr : W64) : W64 :=
  let x := key ^^^ (ctr * 0x8F3A5C61B2D4E697#64)
  let x := (x ^^^ (x >>> 29)) * 0xC6B1E8D53A9F2E15#64
  (x ^^^ (x >>> 32)) &&& 0xFFFFFFFF#64

def execVrand (d a b : Reg) (k : KReg) (s : State) : Out :=
  .next (vresult 3 d [] []
    (elementwise 0#4 (kreg s k) (vreg s d) fun l =>
      ((vrandWord (sreg s a) (BitVec.ofNat 64 (lane (vreg s b) l))).toNat, 0#5)) s)

/-- The format VHISTX and VREDX read a source in; raw is FP32, any tag but the class F ones is refused. -/
def floatTag (v : VReg) : BitVec 4 := if v.tag == 0#4 then 3#4 else v.tag
def needFloat (v : VReg) : Check := { bad := !(isF v.tag || v.tag == 0#4), cause := .formatMismatch }

/-- Exact values of the active elements of a floating-point register. -/
def activeVals (v : VReg) (k : W64) : List Exact :=
  let t := floatTag v
  ((List.range (nelem t)).filter fun e => active k (regWidth t) e).map fun e => decodeElem t (elemCode v t e)

/-- Counts per bin of a list of bin numbers. -/
def binCounts (n : Nat) (l : List Nat) : List Nat := (List.range n).map fun i => l.countP (· == i)

/-- VHISTX (R135). -/
def execVhistx (d a : Reg) (k : KReg) (m : BitVec 4) (s : State) : Out :=
  let va := vreg s a
  if m == 0#4 then
    let p : Pending := { rem := 6, put := .none, hist := binCounts 32 ((activeVals va (kreg s k)).filterMap expBin) }
    .next (guarded [needFloat va] (launchResult p) s)
  else
    let vals := ((List.range 64).filter fun l => (kreg s k).getLsbD l).map fun l => opndI va 1#4 l
    .next (vresult 6 d [tagCheck 1#4 va] []
      ({ tag := 1#4, data := packV 32 ((List.range 64).map fun (j : Nat) => vals.countP (· == (j : Int))) }, 0#5) s)

/-- The CXP element of a register (R115). -/
def cxpOfReg (v : VReg) : M320 :=
  let d := v.data.toNat
  let hdr := BitVec.ofNat 16 (d >>> 64)
  let n := cxpWords (hdr.extractLsb' 9 3).toNat
  cxpDecode ⟨hdr, wordsOf (d >>> 96) n⟩ (BitVec.ofNat 64 d)

/-- The register image of a Mangle sum (R115). -/
def regOfCxp (m : M320) : VReg :=
  let e := cxpEncode m
  { tag := 13#4, data := BitVec.ofNat 2048 (m.count.toNat + e.hdr.toNat * 2 ^ 64 + natOfWords e.words * 2 ^ 96) }

/-- VREDX (R136). Its refusals of a's and b's tags are taken as its description's own, after WRITE_COLLISION (log 36). -/
def execVredx (d a b : Reg) (k : KReg) (m : BitVec 4) (s : State) : Out :=
  let va := vreg s a
  let vb := vreg s b
  let base := if m == 0#4 then cxpOfReg vb else M320.empty
  let vals := activeVals va (kreg s k)
  .next (vresult 6 d []
    [needFloat va, { bad := m == 0#4 && vb.tag != 13#4, cause := .formatMismatch },
     { bad := countOver base.count.toNat vals.length, cause := .mangleCount }]
    (regOfCxp (vals.foldl M320.add base), 0#5) s)

def execVrndx (d a : Reg) (m : BitVec 4) (s : State) : Out :=
  let va := vreg s a
  let r := (cxpOfReg va).round (fmtF m)
  .next (sresult 6 d [tagCheck 13#4 va] [] (BitVec.ofNat 64 r.1) r.2 s)

/-- VLUT (R137): a 128-entry table of 16-bit elements. -/
def execVlut (d a b : Reg) (k : KReg) (s : State) : Out :=
  let va := vreg s a
  let vb := vreg s b
  let ok := vb.tag == 12#4 || vb.tag == 4#4 || vb.tag == 5#4
  let r := elementwise 12#4 (kreg s k) (vreg s d) fun e =>
    (slice vb.data.toNat 16 (slice va.data.toNat 16 e % 128), 0#5)
  .next (vresult 3 d [] [{ bad := !ok, cause := .formatMismatch }] ({ r.1 with tag := vb.tag }, 0#5) s)

end Sys2Proof.Machine
end

