-- ==== Sys2Proof/Machine/Scalar.lean ====
section
/-! DEFINITION. Groups 0x0 and 0x1: the scalar ALU, immediates and literals (03_scalar_registers R68 to R74). Operands are
read at issue; the result is written with the latency of 02 R53. -/

namespace Sys2Proof.Machine

/-- A latency-1 result from two scalar operands. -/
def alu2 (f : W64 → W64 → W64) (d a b : Reg) (s : State) : State := writeS 1 d (f (sreg s a) (sreg s b)) s

/-- A latency-1 result from one scalar operand. -/
def alu1 (f : W64 → W64) (d a : Reg) (s : State) : State := writeS 1 d (f (sreg s a)) s

/-- A multiplier result, latency 3. -/
def mul3 (d : Reg) (x : W64) (s : State) : State := writeS 3 d x s

/-- The divider is taken, by an earlier bundle or an earlier slot (02 R55, 03 R69). -/
def divBusy (s : State) : Bool := s.core.divrem != 0 || s.issue.divClaim

/-- A divider result, latency 20; the divider is not pipelined. -/
def divide (f : W64 → W64 → W64) (d a b : Reg) (s : State) : State :=
  let p : Pending := { rem := 20, put := .s d (f (sreg s a) (sreg s b)) }
  guarded [{ bad := divBusy s, cause := .unitBusy }, collision p s]
    (fun s =>
      let s := launchResult p s
      { s with core := { s.core with divrem := 20 }, issue := { s.issue with divClaim := true } }) s

def minS (a b : W64) : W64 := if a.slt b then a else b
def maxS (a b : W64) : W64 := if a.slt b then b else a
def minU (a b : W64) : W64 := if a.ult b then a else b
def maxU (a b : W64) : W64 := if a.ult b then b else a

/-- Shift amounts take bits 5 to 0 (03 R68). -/
def sh6 (b : W64) : Nat := (b.extractLsb' 0 6).toNat

def execAdd (d a b : Reg) (s : State) : Out := .next (alu2 (· + ·) d a b s)
def execSub (d a b : Reg) (s : State) : Out := .next (alu2 (· - ·) d a b s)
def execMul (d a b : Reg) (s : State) : Out := .next (mul3 d (sreg s a * sreg s b) s)
def execMulh (d a b : Reg) (s : State) : Out := .next (mul3 d (mulHi (sreg s a) (sreg s b)) s)
def execMulhu (d a b : Reg) (s : State) : Out := .next (mul3 d (mulHiU (sreg s a) (sreg s b)) s)
def execDiv (d a b : Reg) (s : State) : Out := .next (divide divS d a b s)
def execDivu (d a b : Reg) (s : State) : Out := .next (divide divU d a b s)
def execRem (d a b : Reg) (s : State) : Out := .next (divide remS d a b s)
def execRemu (d a b : Reg) (s : State) : Out := .next (divide remU d a b s)
def execAnd (d a b : Reg) (s : State) : Out := .next (alu2 (· &&& ·) d a b s)
def execOr (d a b : Reg) (s : State) : Out := .next (alu2 (· ||| ·) d a b s)
def execXor (d a b : Reg) (s : State) : Out := .next (alu2 (· ^^^ ·) d a b s)
def execAndn (d a b : Reg) (s : State) : Out := .next (alu2 (fun x y => x &&& ~~~y) d a b s)
def execShl (d a b : Reg) (s : State) : Out := .next (alu2 (fun x y => x <<< sh6 y) d a b s)
def execShr (d a b : Reg) (s : State) : Out := .next (alu2 (fun x y => x >>> sh6 y) d a b s)
def execSra (d a b : Reg) (s : State) : Out := .next (alu2 (fun x y => x.sshiftRight (sh6 y)) d a b s)
def execRol (d a b : Reg) (s : State) : Out :=
  .next (alu2 (fun x y => (x <<< sh6 y) ||| (x >>> ((64 - sh6 y) % 64))) d a b s)
def execMin (d a b : Reg) (s : State) : Out := .next (alu2 minS d a b s)
def execMax (d a b : Reg) (s : State) : Out := .next (alu2 maxS d a b s)
def execMinu (d a b : Reg) (s : State) : Out := .next (alu2 minU d a b s)
def execMaxu (d a b : Reg) (s : State) : Out := .next (alu2 maxU d a b s)
/-- CMP (R70). -/
def execCmp (d a b : Reg) (m : BitVec 4) (s : State) : Out := .next (alu2 (fun x y => bit64 (cond m x y)) d a b s)
/-- SEL takes its condition from the old destination (R68). -/
def execSel (d a b : Reg) (s : State) : Out :=
  .next (writeS 1 d (if sreg s d != 0#64 then sreg s a else sreg s b) s)
def execClz (d a : Reg) (s : State) : Out := .next (alu1 (fun x => BitVec.ofNat 64 (clzBits x.toNat 64)) d a s)
def execCtz (d a : Reg) (s : State) : Out := .next (alu1 (fun x => BitVec.ofNat 64 (ctzBits x.toNat 64)) d a s)
def execPopc (d a : Reg) (s : State) : Out := .next (alu1 (fun x => BitVec.ofNat 64 (popBits x.toNat 64)) d a s)
/-- BFX (R71). -/
def execBfx (d a b : Reg) (m : BitVec 4) (s : State) : Out := .next (alu2 (bitField (m == 1#4)) d a b s)
/-- BFI (R71) reads the old destination. -/
def execBfi (d a b : Reg) (s : State) : Out := .next (alu2 (bitInsert (sreg s d)) d a b s)
/-- SEXT (R72). -/
def execSext (d a : Reg) (m : BitVec 4) (s : State) : Out :=
  .next (alu1 (fun x => BitVec.ofInt 64 (signedOf (extWidth m) (x.toNat % 2 ^ extWidth m))) d a s)
/-- ZEXT (R72). -/
def execZext (d a : Reg) (m : BitVec 4) (s : State) : Out :=
  .next (alu1 (fun x => BitVec.ofNat 64 (x.toNat % 2 ^ extWidth m)) d a s)
def execAddx (d a b : Reg) (m : BitVec 4) (s : State) : Out := .next (alu2 (fun x y => x + (y <<< m.toNat)) d a b s)
def execMov (d a : Reg) (s : State) : Out := .next (alu1 (fun x => x) d a s)

/-! Group 0x1 (R73, R74). -/

def execAddi (d a : Reg) (imm : BitVec 12) (s : State) : Out := .next (alu1 (fun x => x + imm64 imm) d a s)
def execAndi (d a : Reg) (imm : BitVec 12) (s : State) : Out := .next (alu1 (fun x => x &&& imm64 imm) d a s)
def execOri (d a : Reg) (imm : BitVec 12) (s : State) : Out := .next (alu1 (fun x => x ||| imm64 imm) d a s)
def execXori (d a : Reg) (imm : BitVec 12) (s : State) : Out := .next (alu1 (fun x => x ^^^ imm64 imm) d a s)
def execShli (d a : Reg) (sh : BitVec 6) (s : State) : Out := .next (alu1 (fun x => x <<< sh.toNat) d a s)
def execShri (d a : Reg) (sh : BitVec 6) (s : State) : Out := .next (alu1 (fun x => x >>> sh.toNat) d a s)
def execSrai (d a : Reg) (sh : BitVec 6) (s : State) : Out := .next (alu1 (fun x => x.sshiftRight sh.toNat) d a s)
/-- CMPI: -1, 0 or +1. -/
def execCmpi (d a : Reg) (imm : BitVec 12) (s : State) : Out :=
  .next (alu1 (fun x => if x = imm64 imm then 0#64 else if x.slt (imm64 imm) then BitVec.allOnes 64 else 1#64) d a s)
def execMuli (d a : Reg) (imm : BitVec 12) (s : State) : Out := .next (mul3 d (sreg s a * imm64 imm) s)

/-- A literal word of the bundle (02 R38); the index check of 02 R41 is the decoder's. -/
def lit (s : State) (i : Nat) : Word := s.issue.lits.getD i 0#32

/-- LIT (R74): sign-extended, zero-extended, or as the high half over S[a]. -/
def execLit (d a : Reg) (idx : BitVec 2) (md : BitVec 10) (s : State) : Out :=
  let w := lit s idx.toNat
  .next (writeS 1 d
    (match md.toNat with
      | 0 => w.signExtend 64
      | 1 => w.zeroExtend 64
      | _ => w ++ (sreg s a).extractLsb' 0 32) s)

/-- LIT64 (R74). -/
def execLit64 (d : Reg) (idx : BitVec 2) (s : State) : Out :=
  .next (writeS 1 d (lit s (idx.toNat + 1) ++ lit s idx.toNat) s)

end Sys2Proof.Machine
end

