-- ==== Sys2Proof/Machine/Special.lean ====
section
/-! DEFINITION. Group 0x7: special functions (05_vector_registers R138 to R140). FSQRT and FDIV are correctly rounded. The
other functions answer their exact points and special inputs as R140 gives; elsewhere the result is a free value within the
error bound that R139 states, one fixed function of the format and the input (log 8). The exact value of R139 is computed in
fixed point, more than a hundred bits finer than the distance at which any code changes sides of a bound, and held strictly
inside the open interval in which the function's value lies. -/

namespace Sys2Proof.Machine

/-- Fraction bits of the fixed-point computations. -/
def fxBits : Nat := 256
def fxOne : Nat := 2 ^ fxBits

/-- A computed value held strictly between two bounds. -/
def inside (lo hi y : Nat) : Nat := max (lo + 1) (min y (hi - 1))

/-- ln 2, the sum of 1 over k times 2 to the k. -/
def fxLn2 : Nat := (List.range 256).foldl (fun a k => a + fxOne / ((k + 1) * 2 ^ (k + 1))) 0

/-- The inverse tangent of 1 over n. -/
def fxAtanInv (n : Nat) : Nat :=
  ((List.range 120).foldl (fun (a : Int × Nat) k =>
    ((if k % 2 == 0 then a.1 + (a.2 / (2 * k + 1) : Nat) else a.1 - (a.2 / (2 * k + 1) : Nat)), a.2 / (n * n))) (0, fxOne / n)).1.toNat

/-- Pi, by Machin's formula. -/
def fxPi : Nat := 16 * fxAtanInv 5 - 4 * fxAtanInv 239

/-- e to the t, t from 0 to 1. -/
def fxExp (t : Nat) : Nat :=
  ((List.range 64).foldl (fun (a : Nat × Nat) k => let x := a.2 * t / (fxOne * (k + 1)); (a.1 + x, x)) (fxOne, fxOne)).1

/-- 2 to the f, f from 0 to 1. -/
def fxExp2 (f : Nat) : Nat := fxExp (f * fxLn2 / fxOne)

/-- e to the -t for any t; zero where the result has no fraction bit left. -/
def fxExpNeg (t : Nat) : Nat :=
  let y := t * fxOne / fxLn2
  let n := y / fxOne + 1
  if 2 * fxBits < n then 0 else fxExp2 (n * fxOne - y) / 2 ^ n

/-- log2 of z, z from 1 to 2: twice the inverse hyperbolic tangent of (z - 1) over (z + 1), over ln 2. -/
def fxLog2 (z : Nat) : Nat :=
  let u := (z - fxOne) * fxOne / (z + fxOne)
  let uu := u * u / fxOne
  let r := ((List.range 96).foldl (fun (a : Nat × Nat) k => (a.1 + a.2 / (2 * k + 1), a.2 * uu / fxOne)) (0, u)).1
  2 * r * fxOne / fxLn2

/-- The sine of a, a from 0 to pi / 2. -/
def fxSin (a : Nat) : Nat :=
  let aa := a * a / fxOne
  ((List.range 40).foldl (fun (p : Int × Nat) k =>
    ((if k % 2 == 0 then p.1 + p.2 else p.1 - p.2), p.2 * aa / fxOne / ((2 * k + 2) * (2 * k + 3)))) (0, a)).1.toNat

/-- erf x, x from 0: 2 over the root of pi, times e to the -xx, times the sum of (2xx) to the n, times x, over (2n + 1)!!.
From 7 on it lies between every code below 1, and every bound about one, and 1. -/
def fxErf (x : Nat) : Nat :=
  if 7 * fxOne ≤ x then fxOne
  else
    let xx := x * x / fxOne
    let r := ((List.range 400).foldl (fun (a : Nat × Nat) k => (a.1 + a.2, a.2 * (2 * xx) / fxOne / (2 * k + 3))) (0, x)).1
    2 * (r * fxExpNeg xx / fxOne) * fxOne / isqrt (fxPi * fxOne)

/-- A magnitude m times 2 to the e in fixed point, at most 2 to the 16. -/
def fxOf (m : Nat) (e : Int) : Nat :=
  let k := e + fxBits
  if 16 ≤ (Nat.log2 m : Int) + e then 2 ^ 16 * fxOne else if 0 ≤ k then m <<< k.toNat else m >>> (-k).toNat

/-- Codes of a format in the order of their values, -0 before +0: -mag - 1 for a negative code, mag for another. -/
def ordOfCode (f : Fmt) (c : Nat) : Int := if c < 2 ^ (f.w - 1) then c else -((c - 2 ^ (f.w - 1) : Nat) : Int) - 1
def codeOfOrd (f : Fmt) (o : Int) : Nat := if 0 ≤ o then o.toNat else (-o - 1).toNat + 2 ^ (f.w - 1)

def flagged (f : Fmt) (code : Nat) : Flags := flNX ||| flIf (decide (code % 2 ^ (f.w - 1) < 2 ^ f.mb)) flUF

/-- The bound of R139 about the value y times 2 to the e, in units of 2 to the e: `ulps` times the unit that round_fmt uses
for it, or 2 to the -(mb + 1) where the function has an absolute figure and that is larger. -/
def boundOf (f : Fmt) (ulps : Nat) (absolute : Bool) (y : Nat) (e : Int) : Nat :=
  let u : Int := max ((Nat.log2 y : Int) + e) (1 - (f.bias : Int)) - f.mb
  let at2 (n : Int) : Nat := if e ≤ n then 2 ^ (n - e).toNat else 1
  max (ulps * at2 u) (if absolute then at2 (-(f.mb : Int) - 1) else 0)

/-- A free result within the bound of R139 about y times 2 to the e. -/
def approx (minor : Nat) (m : BitVec 4) (code : Nat) (ulps : Nat) (absolute neg : Bool) (y : Nat) (e : Int) : Nat × Flags :=
  let f := fmtF m
  let b : Int := boundOf f ulps absolute y e
  let v : Int := if neg then -(y : Int) else y
  let lo := v - b
  let hi := v + b
  let loC := (roundFmt (.fin (decide (lo < 0)) lo.natAbs e false) f 3 0).1
  let hiC := (roundFmt (.fin (decide (hi < 0)) hi.natAbs e false) f 2 0).1
  let o := ordOfCode f loC
  let c := codeOfOrd f (o + (Config.special minor m.toNat 0 code % ((ordOfCode f hiC - o).toNat + 1) : Nat))
  (c, flagged f c)

/-- Whether a magnitude exceeds the largest finite value (R140). -/
def exceeds (f : Fmt) (x : Exact) : Bool :=
  let (c, g) := roundFmt x f 1 0
  g &&& flOF != 0#5 || (c == f.maxfin && g != 0#5)

/-- An exact result. -/
def exactRes (m : BitVec 4) (x : Exact) : Nat × Flags := ((roundFmt x (fmtF m) 0 0).1, 0#5)

def nanRes (m : BitVec 4) (fl : Flags) : Nat × Flags := (canonNan (fmtF m), fl)

/-- A value with magnitude m times 2 to the e as an integer, if it is one. -/
def asInteger (m : Nat) (e : Int) : Option Nat :=
  if 0 ≤ e then some (m <<< e.toNat) else if m % 2 ^ (-e).toNat == 0 then some (m >>> (-e).toNat) else none

/-- Whether a magnitude is a power of two; its exponent. -/
def asPow2 (m : Nat) (e : Int) : Option Int := if m == 2 ^ Nat.log2 m then some ((Nat.log2 m : Int) + e) else none

/-- FEXP2. -/
def exp2 (m : BitVec 4) (code : Nat) (x : Exact) : Nat × Flags :=
  let f := fmtF m
  match x with
  | .nan => nanRes m 0#5
  | .inf neg => exactRes m (if neg then .zero false else .inf false)
  | .fin s mg e _ =>
    let fl : Int := (toInteger x 2 0).1
    let least : Int := 1 - (f.bias : Int) - f.mb
    if (f.emax : Int) + 1 ≤ fl then (infCode f false, flOF ||| flNX)
    else if (asInteger mg e).isSome && decide (least ≤ fl) then exactRes m (.fin false 1 fl false)
    else
      -- below the smallest subnormal by far, the value is positive and next to nothing
      let k := e + fxBits
      let v : Int := if s then -(mg : Int) else mg
      let z : Int := if 0 ≤ k then v * 2 ^ k.toNat else v / 2 ^ (-k).toNat
      let y := inside fxOne (2 * fxOne) (fxExp2 (z - fl * fxOne).toNat)
      if fl < least - 4 then approx 0 m code 2 false false 1 (least - fxBits)
      else if exceeds f (.fin false y (fl - fxBits) true) then (infCode f false, flOF ||| flNX)
      else approx 0 m code 2 false false y (fl - fxBits)

/-- FLOG2. -/
def log2F (m : BitVec 4) (code : Nat) (x : Exact) : Nat × Flags :=
  let f := fmtF m
  match x with
  | .nan => nanRes m 0#5
  | .inf neg => if neg then nanRes m flNV else exactRes m (.inf false)
  | .fin s mg e _ =>
    if mg == 0 then (infCode f true, flDZ)
    else if s then nanRes m flNV
    else
      match asPow2 mg e with
      | some n => exactRes m (Exact.ofInt n)
      | none =>
        let l := Nat.log2 mg
        let y : Int := ((l : Int) + e) * fxOne + fxLog2 (mg * fxOne / 2 ^ l)
        approx 1 m code 2 true (decide (y < 0)) y.natAbs (-(fxBits : Int))

/-- FRCP. -/
def rcp (m : BitVec 4) (code : Nat) (x : Exact) : Nat × Flags :=
  let f := fmtF m
  match x with
  | .nan => nanRes m 0#5
  | .inf neg => exactRes m (.zero neg)
  | .fin s mg e _ =>
    if mg == 0 then (infCode f s, flDZ)
    else
      let p := Nat.log2 mg + fxBits
      let y := 2 ^ p / mg
      let q : Exact := .fin false y (-e - p) (mg * y != 2 ^ p)
      if exceeds f q then (infCode f s, flOF ||| flNX)
      else if (asPow2 mg e).isSome && (roundFmt q f 1 0).2 == 0#5 then exactRes m (.fin s y (-e - p) false)
      else approx 2 m code 1 false s y (-e - p)

/-- FRSQ. -/
def rsq (m : BitVec 4) (code : Nat) (x : Exact) : Nat × Flags :=
  let f := fmtF m
  match x with
  | .nan => nanRes m 0#5
  | .inf neg => if neg then nanRes m flNV else exactRes m (.zero false)
  | .fin s mg e _ =>
    if mg == 0 then (infCode f s, flDZ)
    else if s then nanRes m flNV
    else
      -- the exponent of k is even with e: the value is the root of 2 to the k over mg, times 2 to the -(e + k) / 2
      let k : Nat := 2 * (Nat.log2 mg + fxBits) + (e % 2).toNat
      let y := isqrt (2 ^ k / mg)
      match asPow2 mg e with
      | some n => if n % 2 == 0 then exactRes m (.fin false 1 (-(n / 2)) false) else approx 3 m code 1 false false y (-((e + k) / 2))
      | none => approx 3 m code 1 false false y (-((e + k) / 2))

/-- FTANH and FERF: odd, with limit 1; `y` gives the value at a magnitude in fixed point. -/
def oddUnit (minor : Nat) (y : Nat → Nat) (m : BitVec 4) (code : Nat) (x : Exact) : Nat × Flags :=
  match x with
  | .nan => nanRes m 0#5
  | .inf neg => exactRes m (.fin neg 1 0 false)
  | .fin s mg e _ =>
    if mg == 0 then exactRes m (.zero s) else approx minor m code 2 true s (inside 0 fxOne (y (fxOf mg e))) (-(fxBits : Int))

/-- tanh x = (1 - E) over (1 + E), E being e to the -2x. -/
def fxTanh (x : Nat) : Nat := let e := fxExpNeg (2 * x); (fxOne - e) * fxOne / (fxOne + e)

/-- FSIGM. -/
def sigm (m : BitVec 4) (code : Nat) (x : Exact) : Nat × Flags :=
  match x with
  | .nan => nanRes m 0#5
  | .inf neg => exactRes m (if neg then .zero false else .fin false 1 0 false)
  | .fin s mg e _ =>
    if mg == 0 then exactRes m (.fin false 1 (-1) false)
    else
      let t := fxExpNeg (fxOf mg e)
      let y := if s then inside 0 (fxOne / 2) (t * fxOne / (fxOne + t)) else inside (fxOne / 2) fxOne (fxOne * fxOne / (fxOne + t))
      approx 7 m code 2 true false y (-(fxBits : Int))

/-- The sine of pi times r, r from 0 to 1. -/
def fxSinPi (r : Nat) : Nat := fxSin ((if 2 * r ≤ fxOne then r else fxOne - r) * fxPi / fxOne)

/-- FSIN and FCOS take half-turns: twice the argument, if an integer, names an exact point. -/
def sinCos (cosine : Bool) (m : BitVec 4) (code : Nat) (x : Exact) : Nat × Flags :=
  match x with
  | .nan => nanRes m 0#5
  | .inf _ => nanRes m flNV
  | .fin s mg e _ =>
    match asInteger mg (e + 1) with
    | some h =>
      -- x is h halves, of sign s
      let q := (if s then (4 - h % 4) else h) % 4
      if cosine then
        if h % 2 == 1 then exactRes m (.zero false) else exactRes m (.fin (q == 2) 1 0 false)
      else
        if h % 2 == 0 then exactRes m (.zero s) else exactRes m (.fin (q == 3) 1 0 false)
    | none =>
      -- the magnitude modulo 2, a half-turn further for the cosine; the second half-turn is the first negated
      let z := ((if 0 ≤ e + fxBits then mg <<< (e + fxBits).toNat else mg >>> (-(e + fxBits)).toNat) + (if cosine then fxOne / 2 else 0))
        % (2 * fxOne)
      let neg := decide (fxOne ≤ z) != (s && !cosine)
      approx (if cosine then 9 else 8) m code 2 true neg (inside 0 fxOne (fxSinPi (z % fxOne))) (-(fxBits : Int))

/-- A one-operand function over the active elements. -/
def sfu (lat : Nat) (f : Nat → Exact → Nat × Flags) (d a : Reg) (k : KReg) (m : BitVec 4) (s : State) : State :=
  let va := vreg s a
  vresult lat d [tagCheck m va] []
    (elementwise m (kreg s k) (vreg s d) fun e => f (roundFmt (opndX va m e) (fmtF m) 0 0).1 (opndX va m e)) s

def execFexp2 (d a : Reg) (k : KReg) (m : BitVec 4) (s : State) : Out := .next (sfu 8 (exp2 m) d a k m s)
def execFlog2 (d a : Reg) (k : KReg) (m : BitVec 4) (s : State) : Out := .next (sfu 8 (log2F m) d a k m s)
def execFrcp (d a : Reg) (k : KReg) (m : BitVec 4) (s : State) : Out := .next (sfu 8 (rcp m) d a k m s)
def execFrsq (d a : Reg) (k : KReg) (m : BitVec 4) (s : State) : Out := .next (sfu 8 (rsq m) d a k m s)
/-- FSQRT: correctly rounded in RMODE. -/
def execFsqrt (d a : Reg) (k : KReg) (m : BitVec 4) (s : State) : Out :=
  .next (sfu 14 (fun _ x => roundTo (rmode s) m x.sqrt) d a k m s)
/-- FDIV: correctly rounded in RMODE. -/
def execFdiv (d a b : Reg) (k : KReg) (m : BitVec 4) (s : State) : Out :=
  let va := vreg s a
  let vb := vreg s b
  .next (vresult 14 d [tagCheck m va, tagCheck m vb] []
    (elementwise m (kreg s k) (vreg s d) fun e => roundTo (rmode s) m ((opndX va m e).div (opndX vb m e))) s)
def execFtanh (d a : Reg) (k : KReg) (m : BitVec 4) (s : State) : Out := .next (sfu 8 (oddUnit 6 fxTanh m) d a k m s)
def execFsigm (d a : Reg) (k : KReg) (m : BitVec 4) (s : State) : Out := .next (sfu 8 (sigm m) d a k m s)
def execFsin (d a : Reg) (k : KReg) (m : BitVec 4) (s : State) : Out := .next (sfu 8 (sinCos false m) d a k m s)
def execFcos (d a : Reg) (k : KReg) (m : BitVec 4) (s : State) : Out := .next (sfu 8 (sinCos true m) d a k m s)
def execFerf (d a : Reg) (k : KReg) (m : BitVec 4) (s : State) : Out := .next (sfu 8 (oddUnit 10 fxErf m) d a k m s)

end Sys2Proof.Machine
end

