-- ==== Sys2Proof/Machine/Dispatch.lean ====
section
/-! DEFINITION. The meaning of every constructor of the syntax. -/

namespace Sys2Proof.Machine

def exec (i : Instr) (s : State) : Host.Outcome State Fault Refusal :=
  match i with
  | .nop w stl => Sys2Proof.Machine.execNop w stl s
  | .waitPoint w => Sys2Proof.Machine.execWaitPoint w s
  | .add d a b => Sys2Proof.Machine.execAdd d a b s
  | .sub d a b => Sys2Proof.Machine.execSub d a b s
  | .mul d a b => Sys2Proof.Machine.execMul d a b s
  | .mulh d a b => Sys2Proof.Machine.execMulh d a b s
  | .mulhu d a b => Sys2Proof.Machine.execMulhu d a b s
  | .div d a b => Sys2Proof.Machine.execDiv d a b s
  | .divu d a b => Sys2Proof.Machine.execDivu d a b s
  | .rem d a b => Sys2Proof.Machine.execRem d a b s
  | .remu d a b => Sys2Proof.Machine.execRemu d a b s
  | .and d a b => Sys2Proof.Machine.execAnd d a b s
  | .or d a b => Sys2Proof.Machine.execOr d a b s
  | .xor d a b => Sys2Proof.Machine.execXor d a b s
  | .andn d a b => Sys2Proof.Machine.execAndn d a b s
  | .shl d a b => Sys2Proof.Machine.execShl d a b s
  | .shr d a b => Sys2Proof.Machine.execShr d a b s
  | .sra d a b => Sys2Proof.Machine.execSra d a b s
  | .rol d a b => Sys2Proof.Machine.execRol d a b s
  | .min d a b => Sys2Proof.Machine.execMin d a b s
  | .max d a b => Sys2Proof.Machine.execMax d a b s
  | .minu d a b => Sys2Proof.Machine.execMinu d a b s
  | .maxu d a b => Sys2Proof.Machine.execMaxu d a b s
  | .cmp d a b m => Sys2Proof.Machine.execCmp d a b m s
  | .sel d a b => Sys2Proof.Machine.execSel d a b s
  | .clz d a => Sys2Proof.Machine.execClz d a s
  | .ctz d a => Sys2Proof.Machine.execCtz d a s
  | .popc d a => Sys2Proof.Machine.execPopc d a s
  | .bfx d a b m => Sys2Proof.Machine.execBfx d a b m s
  | .bfi d a b => Sys2Proof.Machine.execBfi d a b s
  | .sext d a m => Sys2Proof.Machine.execSext d a m s
  | .zext d a m => Sys2Proof.Machine.execZext d a m s
  | .addx d a b m => Sys2Proof.Machine.execAddx d a b m s
  | .mov d a => Sys2Proof.Machine.execMov d a s
  | .addi d a imm => Sys2Proof.Machine.execAddi d a imm s
  | .andi d a imm => Sys2Proof.Machine.execAndi d a imm s
  | .ori d a imm => Sys2Proof.Machine.execOri d a imm s
  | .xori d a imm => Sys2Proof.Machine.execXori d a imm s
  | .shli d a sh => Sys2Proof.Machine.execShli d a sh s
  | .shri d a sh => Sys2Proof.Machine.execShri d a sh s
  | .srai d a sh => Sys2Proof.Machine.execSrai d a sh s
  | .cmpi d a imm => Sys2Proof.Machine.execCmpi d a imm s
  | .lit d a idx md => Sys2Proof.Machine.execLit d a idx md s
  | .lit64 d idx => Sys2Proof.Machine.execLit64 d idx s
  | .muli d a imm => Sys2Proof.Machine.execMuli d a imm s
  | .br off => Sys2Proof.Machine.execBr off s
  | .brz a off => Sys2Proof.Machine.execBrz a off s
  | .brnz a off => Sys2Proof.Machine.execBrnz a off s
  | .brany a off => Sys2Proof.Machine.execBrany a off s
  | .brnone a off => Sys2Proof.Machine.execBrnone a off s
  | .jal a off => Sys2Proof.Machine.execJal a off s
  | .jr a => Sys2Proof.Machine.execJr a s
  | .loop a off => Sys2Proof.Machine.execLoop a off s
  | .loopi a off => Sys2Proof.Machine.execLoopi a off s
  | .kand d a b => Sys2Proof.Machine.execKand d a b s
  | .kor d a b => Sys2Proof.Machine.execKor d a b s
  | .kxor d a b => Sys2Proof.Machine.execKxor d a b s
  | .kandn d a b => Sys2Proof.Machine.execKandn d a b s
  | .knot d a => Sys2Proof.Machine.execKnot d a s
  | .kmov d a => Sys2Proof.Machine.execKmov d a s
  | .ktos d a => Sys2Proof.Machine.execKtos d a s
  | .kpopc d a => Sys2Proof.Machine.execKpopc d a s
  | .kfirst d a => Sys2Proof.Machine.execKfirst d a s
  | .ksetn d a m => Sys2Proof.Machine.execKsetn d a m s
  | .nmk d a b => Sys2Proof.Machine.execNmk d a b s
  | .nset d a m => Sys2Proof.Machine.execNset d a m s
  | .nget d a m => Sys2Proof.Machine.execNget d a m s
  | .nadd d a b m => Sys2Proof.Machine.execNadd d a b m s
  | .nmov d a => Sys2Proof.Machine.execNmov d a s
  | .ncmp d a b m => Sys2Proof.Machine.execNcmp d a b m s
  | .vadd d a b k m => Sys2Proof.Machine.execVadd d a b k m s
  | .vsub d a b k m => Sys2Proof.Machine.execVsub d a b k m s
  | .vmul d a b k m => Sys2Proof.Machine.execVmul d a b k m s
  | .vfma d a b k m => Sys2Proof.Machine.execVfma d a b k m s
  | .vfms d a b k m => Sys2Proof.Machine.execVfms d a b k m s
  | .vmin d a b k m => Sys2Proof.Machine.execVmin d a b k m s
  | .vmax d a b k m => Sys2Proof.Machine.execVmax d a b k m s
  | .vabs d a k m => Sys2Proof.Machine.execVabs d a k m s
  | .vneg d a k m => Sys2Proof.Machine.execVneg d a k m s
  | .vand d a b k => Sys2Proof.Machine.execVand d a b k s
  | .vor d a b k => Sys2Proof.Machine.execVor d a b k s
  | .vxor d a b k => Sys2Proof.Machine.execVxor d a b k s
  | .vshl d a b k m => Sys2Proof.Machine.execVshl d a b k m s
  | .vshr d a b k m => Sys2Proof.Machine.execVshr d a b k m s
  | .vsra d a b k m => Sys2Proof.Machine.execVsra d a b k m s
  | .vcmp d a b k m => Sys2Proof.Machine.execVcmp d a b k m s
  | .vsel d a b k => Sys2Proof.Machine.execVsel d a b k s
  | .vmov d a k => Sys2Proof.Machine.execVmov d a k s
  | .vbcast d a k m => Sys2Proof.Machine.execVbcast d a k m s
  | .vdot4 d a b k => Sys2Proof.Machine.execVdot4 d a b k s
  | .vdot2 d a b k m => Sys2Proof.Machine.execVdot2 d a b k m s
  | .vsat d a b k m => Sys2Proof.Machine.execVsat d a b k m s
  | .vclz d a k m => Sys2Proof.Machine.execVclz d a k m s
  | .vpopc d a k m => Sys2Proof.Machine.execVpopc d a k m s
  | .vmulh d a b k m => Sys2Proof.Machine.execVmulh d a b k m s
  | .vcvt d a b k m => Sys2Proof.Machine.execVcvt d a b k m s
  | .vqmx d a m => Sys2Proof.Machine.execVqmx d a m s
  | .vdqmx d a k m => Sys2Proof.Machine.execVdqmx d a k m s
  | .vtag d a m => Sys2Proof.Machine.execVtag d a m s
  | .vgtag d a m => Sys2Proof.Machine.execVgtag d a m s
  | .vperm d a b k => Sys2Proof.Machine.execVperm d a b k s
  | .vshuf d a b k => Sys2Proof.Machine.execVshuf d a b k s
  | .vrot d a b k => Sys2Proof.Machine.execVrot d a b k s
  | .vslide d a b k m => Sys2Proof.Machine.execVslide d a b k m s
  | .vpack d a b m => Sys2Proof.Machine.execVpack d a b m s
  | .vunpk d a m => Sys2Proof.Machine.execVunpk d a m s
  | .vcmprs d a k => Sys2Proof.Machine.execVcmprs d a k s
  | .vexpnd d a k => Sys2Proof.Machine.execVexpnd d a k s
  | .viota d a k => Sys2Proof.Machine.execViota d a k s
  | .vextr d a b m => Sys2Proof.Machine.execVextr d a b m s
  | .vins d a b => Sys2Proof.Machine.execVins d a b s
  | .vscl d a b m => Sys2Proof.Machine.execVscl d a b m s
  | .vredadd d a k m => Sys2Proof.Machine.execVredadd d a k m s
  | .vredmin d a k m => Sys2Proof.Machine.execVredmin d a k m s
  | .vredmax d a k m => Sys2Proof.Machine.execVredmax d a k m s
  | .vscan d a k m => Sys2Proof.Machine.execVscan d a k m s
  | .vtopk d a b k m => Sys2Proof.Machine.execVtopk d a b k m s
  | .vsorts d a k m => Sys2Proof.Machine.execVsorts d a k m s
  | .vargmx d a k m => Sys2Proof.Machine.execVargmx d a k m s
  | .vrand d a b k => Sys2Proof.Machine.execVrand d a b k s
  | .vhistx d a k m => Sys2Proof.Machine.execVhistx d a k m s
  | .vredx d a b k m => Sys2Proof.Machine.execVredx d a b k m s
  | .vrndx d a m => Sys2Proof.Machine.execVrndx d a m s
  | .vlut d a b k => Sys2Proof.Machine.execVlut d a b k s
  | .fexp2 d a k m => Sys2Proof.Machine.execFexp2 d a k m s
  | .flog2 d a k m => Sys2Proof.Machine.execFlog2 d a k m s
  | .frcp d a k m => Sys2Proof.Machine.execFrcp d a k m s
  | .frsq d a k m => Sys2Proof.Machine.execFrsq d a k m s
  | .fsqrt d a k m => Sys2Proof.Machine.execFsqrt d a k m s
  | .fdiv d a b k m => Sys2Proof.Machine.execFdiv d a b k m s
  | .ftanh d a k m => Sys2Proof.Machine.execFtanh d a k m s
  | .fsigm d a k m => Sys2Proof.Machine.execFsigm d a k m s
  | .fsin d a k m => Sys2Proof.Machine.execFsin d a k m s
  | .fcos d a k m => Sys2Proof.Machine.execFcos d a k m s
  | .ferf d a k m => Sys2Proof.Machine.execFerf d a k m s
  | .mlds a => Sys2Proof.Machine.execMlds a s
  | .mma d a k => Sys2Proof.Machine.execMma d a k s
  | .mmas d a k => Sys2Proof.Machine.execMmas d a k s
  | .mzero d k => Sys2Proof.Machine.execMzero d k s
  | .mdrain d a b k m => Sys2Proof.Machine.execMdrain d a b k m s
  | .mrdv d a b m => Sys2Proof.Machine.execMrdv d a b m s
  | .mwrv d a b k m => Sys2Proof.Machine.execMwrv d a b k m s
  | .mmode a => Sys2Proof.Machine.execMmode a s
  | .mwait m => Sys2Proof.Machine.execMwait m s
  | .mtrw a m => Sys2Proof.Machine.execMtrw a m s
  | .ld d a off => Sys2Proof.Machine.execLd d a off s
  | .st d a off => Sys2Proof.Machine.execSt d a off s
  | .vld d a sp off => Sys2Proof.Machine.execVld d a sp off s
  | .vst d a sp off => Sys2Proof.Machine.execVst d a sp off s
  | .vlds d a b k sp z => Sys2Proof.Machine.execVlds d a b k sp z s
  | .vsts d a b k sp z => Sys2Proof.Machine.execVsts d a b k sp z s
  | .vgath d a b k sp z => Sys2Proof.Machine.execVgath d a b k sp z s
  | .vscat d a b k sp z => Sys2Proof.Machine.execVscat d a b k sp z s
  | .ldw d a sp off => Sys2Proof.Machine.execLdw d a sp off s
  | .vldw d a sp off => Sys2Proof.Machine.execVldw d a sp off s
  | .qld d a t x => Sys2Proof.Machine.execQld d a t x s
  | .qst d a t x => Sys2Proof.Machine.execQst d a t x s
  | .talloc d a b m => Sys2Proof.Machine.execTalloc d a b m s
  | .tfree a => Sys2Proof.Machine.execTfree a s
  | .tstat d a => Sys2Proof.Machine.execTstat d a s
  | .twait a b m => Sys2Proof.Machine.execTwait a b m s
  | .tset a b m => Sys2Proof.Machine.execTset a b m s
  | .icinv a m => Sys2Proof.Machine.execIcinv a m s
  | .gld d a sp t x => Sys2Proof.Machine.execGld d a sp t x s
  | .gst d a sp t x => Sys2Proof.Machine.execGst d a sp t x s
  | .vgld d a sp t x => Sys2Proof.Machine.execVgld d a sp t x s
  | .vgst d a sp t x => Sys2Proof.Machine.execVgst d a sp t x s
  | .ldacq d a sp t x => Sys2Proof.Machine.execLdacq d a sp t x s
  | .strel d a sp t x => Sys2Proof.Machine.execStrel d a sp t x s
  | .promacq d a sp t x => Sys2Proof.Machine.execPromacq d a sp t x s
  | .fence sp t x => Sys2Proof.Machine.execFence sp t x s
  | .atom d a sp t x => Sys2Proof.Machine.execAtom d a sp t x s
  | .atomr d a sp t x => Sys2Proof.Machine.execAtomr d a sp t x s
  | .mred d a sp t x => Sys2Proof.Machine.execMred d a sp t x s
  | .mredrd d a sp t x => Sys2Proof.Machine.execMredrd d a sp t x s
  | .clwb a sp t x => Sys2Proof.Machine.execClwb a sp t x s
  | .clinv a sp t x => Sys2Proof.Machine.execClinv a sp t x s
  | .xcopy d a b t sp => Sys2Proof.Machine.execXcopy d a b t sp s
  | .xgath d a b t sp => Sys2Proof.Machine.execXgath d a b t sp s
  | .xscat d a b t sp => Sys2Proof.Machine.execXscat d a b t sp s
  | .xfill d a b t sp => Sys2Proof.Machine.execXfill d a b t sp s
  | .subName d a => Sys2Proof.Machine.execSubName d a s
  | .unsub a => Sys2Proof.Machine.execUnsub a s
  | .pub d a m => Sys2Proof.Machine.execPub d a m s
  | .pubr d a => Sys2Proof.Machine.execPubr d a s
  | .ropen d a b m => Sys2Proof.Machine.execRopen d a b m s
  | .resub d a => Sys2Proof.Machine.execResub d a s
  | .nhold d a m => Sys2Proof.Machine.execNhold d a m s
  | .nrel d => Sys2Proof.Machine.execNrel d s
  | .nqry d a m => Sys2Proof.Machine.execNqry d a m s
  | .pubx d a b t sp => Sys2Proof.Machine.execPubx d a b t sp s
  | .spawn a => Sys2Proof.Machine.execSpawn a s
  | .launchr a b m => Sys2Proof.Machine.execLaunchr a b m s
  | .tcadd a m => Sys2Proof.Machine.execTcadd a m s
  | .tcrd d m => Sys2Proof.Machine.execTcrd d m s
  | .tcwait a m => Sys2Proof.Machine.execTcwait a m s
  | .bar a b m => Sys2Proof.Machine.execBar a b m s
  | .barrd d a => Sys2Proof.Machine.execBarrd d a s
  | .timeq d m => Sys2Proof.Machine.execTimeq d m s
  | .stamp d => Sys2Proof.Machine.execStamp d s
  | .prio a => Sys2Proof.Machine.execPrio a s
  | .ecfg a b m => Sys2Proof.Machine.execEcfg a b m s
  | .ego a b => Sys2Proof.Machine.execEgo a b s
  | .estat d a m => Sys2Proof.Machine.execEstat d a m s
  | .eabort a m => Sys2Proof.Machine.execEabort a m s
  | .trap imm => Sys2Proof.Machine.execTrap imm s
  | .tret m => Sys2Proof.Machine.execTret m s
  | .ctlrd d imm => Sys2Proof.Machine.execCtlrd d imm s
  | .ctlwr a imm => Sys2Proof.Machine.execCtlwr a imm s
  | .brk m => Sys2Proof.Machine.execBrk m s
  | .evpost a b m => Sys2Proof.Machine.execEvpost a b m s
  | .moncfg a b => Sys2Proof.Machine.execMoncfg a b s
  | .monrd d a m => Sys2Proof.Machine.execMonrd d a m s
  | .haltc a => Sys2Proof.Machine.execHaltc a s
  | .ctxsv a => Sys2Proof.Machine.execCtxsv a s
  | .ctxld d a => Sys2Proof.Machine.execCtxld d a s
  | .xadd a b d t => Sys2Proof.Machine.execXadd a b d t s
  | .xrnd a d t l => Sys2Proof.Machine.execXrnd a d t l s
  | .cvt a d t l => Sys2Proof.Machine.execCvt a d t l s
  | .qmx a d t l => Sys2Proof.Machine.execQmx a d t l s
  | .dqmx a d t => Sys2Proof.Machine.execDqmx a d t s
  | .cmpz a d t => Sys2Proof.Machine.execCmpz a d t s
  | .dcmpz a d t => Sys2Proof.Machine.execDcmpz a d t s
  | .mrr a b d t => Sys2Proof.Machine.execMrr a b d t s
  | .mtag a b d t => Sys2Proof.Machine.execMtag a b d t s
  | .splitE a d e t l => Sys2Proof.Machine.execSplitE a d e t l s
  | .dup a d e t => Sys2Proof.Machine.execDup a d e t s
  | .gate a b d t => Sys2Proof.Machine.execGate a b d t s
  | .steer a d e t l => Sys2Proof.Machine.execSteer a d e t l s
  | .cnt a d e t => Sys2Proof.Machine.execCnt a d e t s
  | .lim a d t l => Sys2Proof.Machine.execLim a d t l s
  | .fifo a d t l => Sys2Proof.Machine.execFifo a d t l s
  | .pack a b d t => Sys2Proof.Machine.execPack a b d t s
  | .unpk a d e t => Sys2Proof.Machine.execUnpk a d e t s
  | .scl a d t l => Sys2Proof.Machine.execScl a d t l s
  | .hist a d e t => Sys2Proof.Machine.execHist a d e t s
  | .eosg a d t l => Sys2Proof.Machine.execEosg a d t l s
  | .sink a l => Sys2Proof.Machine.execSink a l s
  | .srcn a d t => Sys2Proof.Machine.execSrcn a d t s
  | .pubn a d e t => Sys2Proof.Machine.execPubn a d e t s
  | .rin a d t => Sys2Proof.Machine.execRin a d t s
  | .rout a d t => Sys2Proof.Machine.execRout a d t s
  | .edgeNop a d t => Sys2Proof.Machine.execEdgeNop a d t s
  | .halte a => Sys2Proof.Machine.execHalte a s
  | .mswap => Sys2Proof.Machine.execMswap s
  | .fetchb => Sys2Proof.Machine.execFetchb s
  | .fend => Sys2Proof.Machine.execFend s
  | .yield => Sys2Proof.Machine.execYield s
  | .matrixCmdStart => Sys2Proof.Machine.execMatrixCmdStart s
  | .matrixCmdComplete => Sys2Proof.Machine.execMatrixCmdComplete s
  | .remoteQaccess => Sys2Proof.Machine.execRemoteQaccess s
  | .icinvTakeEffect => Sys2Proof.Machine.execIcinvTakeEffect s
  | .icacheFill => Sys2Proof.Machine.execIcacheFill s
  | .gcacheFill => Sys2Proof.Machine.execGcacheFill s
  | .promotionRequest => Sys2Proof.Machine.execPromotionRequest s
  | .fenceComplete => Sys2Proof.Machine.execFenceComplete s
  | .engineCmdStart => Sys2Proof.Machine.execEngineCmdStart s
  | .engineCmdComplete => Sys2Proof.Machine.execEngineCmdComplete s
  | .agentRequest => Sys2Proof.Machine.execAgentRequest s
  | .hostRequestTimeout => Sys2Proof.Machine.execHostRequestTimeout s
  | .varResultLand => Sys2Proof.Machine.execVarResultLand s
  | .resultWrite => Sys2Proof.Machine.execResultWrite s
  | .boundaryFault => Sys2Proof.Machine.execBoundaryFault s
  | .publicationRead => Sys2Proof.Machine.execPublicationRead s
  | .subscriptionToken => Sys2Proof.Machine.execSubscriptionToken s
  | .unsubscriptionToken => Sys2Proof.Machine.execUnsubscriptionToken s
  | .publicationHop => Sys2Proof.Machine.execPublicationHop s
  | .publicationAtHome => Sys2Proof.Machine.execPublicationAtHome s
  | .subscriptionAtHome => Sys2Proof.Machine.execSubscriptionAtHome s
  | .withdrawalAtHome => Sys2Proof.Machine.execWithdrawalAtHome s
  | .nholdAtHome => Sys2Proof.Machine.execNholdAtHome s
  | .nrelAtHome => Sys2Proof.Machine.execNrelAtHome s
  | .nqryAtHome => Sys2Proof.Machine.execNqryAtHome s
  | .heldTokenRetry => Sys2Proof.Machine.execHeldTokenRetry s
  | .fallThroughFetch => Sys2Proof.Machine.execFallThroughFetch s
  | .tileDelivery => Sys2Proof.Machine.execTileDelivery s
  | .handOver => Sys2Proof.Machine.execHandOver s
  | .contributionToken => Sys2Proof.Machine.execContributionToken s
  | .slotFlush => Sys2Proof.Machine.execSlotFlush s
  | .contributionAtHome => Sys2Proof.Machine.execContributionAtHome s
  | .ropenAtHome => Sys2Proof.Machine.execRopenAtHome s
  | .reductionPublish => Sys2Proof.Machine.execReductionPublish s
  | .lqtailDoorbell => Sys2Proof.Machine.execLqtailDoorbell s
  | .launch => Sys2Proof.Machine.execLaunch s
  | .abort => Sys2Proof.Machine.execAbort s
  | .regionComplete => Sys2Proof.Machine.execRegionComplete s
  | .schedulerSelect => Sys2Proof.Machine.execSchedulerSelect s
  | .firingRetire => Sys2Proof.Machine.execFiringRetire s
  | .launchrRun => Sys2Proof.Machine.execLaunchrRun s
  | .ecfgImageRead => Sys2Proof.Machine.execEcfgImageRead s
  | .shadowCommit => Sys2Proof.Machine.execShadowCommit s
  | .estatArrival => Sys2Proof.Machine.execEstatArrival s
  | .eabortArrival => Sys2Proof.Machine.execEabortArrival s
  | .periodStart => Sys2Proof.Machine.execPeriodStart s
  | .bindingArm => Sys2Proof.Machine.execBindingArm s
  | .elementTokenArrival => Sys2Proof.Machine.execElementTokenArrival s
  | .periodEnd => Sys2Proof.Machine.execPeriodEnd s
  | .inactivityTimeout => Sys2Proof.Machine.execInactivityTimeout s
  | .drainWatchdog => Sys2Proof.Machine.execDrainWatchdog s
  | .linkBeatResend => Sys2Proof.Machine.execLinkBeatResend s
  | .podFormation => Sys2Proof.Machine.execPodFormation s
  | .seamFailure => Sys2Proof.Machine.execSeamFailure s
  | .netwUpdate => Sys2Proof.Machine.execNetwUpdate s
  | .barrierArrival => Sys2Proof.Machine.execBarrierArrival s
  | .barrierCompletion => Sys2Proof.Machine.execBarrierCompletion s
  | .waferTimeBeacon => Sys2Proof.Machine.execWaferTimeBeacon s
  | .moncfgApply => Sys2Proof.Machine.execMoncfgApply s
  | .captureSample => Sys2Proof.Machine.execCaptureSample s
  | .levelSample => Sys2Proof.Machine.execLevelSample s
  | .captureGrantWrite => Sys2Proof.Machine.execCaptureGrantWrite s
  | .watchdog => Sys2Proof.Machine.execWatchdog s
  | .preemptHalt => Sys2Proof.Machine.execPreemptHalt s
  | .preemptResume => Sys2Proof.Machine.execPreemptResume s
  | .coreHalt => Sys2Proof.Machine.execCoreHalt s
  | .saveSequence => Sys2Proof.Machine.execSaveSequence s
  | .landingEntryLand => Sys2Proof.Machine.execLandingEntryLand s
  | .coreFailure => Sys2Proof.Machine.execCoreFailure s
  | .coreSave => Sys2Proof.Machine.execCoreSave s
  | .eventRecordWrite => Sys2Proof.Machine.execEventRecordWrite s
  | .eqheadWrite => Sys2Proof.Machine.execEqheadWrite s
  | .dbgselWrite => Sys2Proof.Machine.execDbgselWrite s
  | .dbgctlHalt => Sys2Proof.Machine.execDbgctlHalt s
  | .dbgctlResume => Sys2Proof.Machine.execDbgctlResume s
  | .debugApertureRead => Sys2Proof.Machine.execDebugApertureRead s
  | .debugApertureWrite => Sys2Proof.Machine.execDebugApertureWrite s
  | .debugWritePerform => Sys2Proof.Machine.execDebugWritePerform s
  | .debugWriteTimeout => Sys2Proof.Machine.execDebugWriteTimeout s
  | .bootctlRestart => Sys2Proof.Machine.execBootctlRestart s
  | .bootctlValid => Sys2Proof.Machine.execBootctlValid s
  | .wtsetWrite => Sys2Proof.Machine.execWtsetWrite s
  | .attctlGo => Sys2Proof.Machine.execAttctlGo s
  | .attestationReport => Sys2Proof.Machine.execAttestationReport s
  | .registerWrite => Sys2Proof.Machine.execRegisterWrite s
  | .powerGood => Sys2Proof.Machine.execPowerGood s
  | .romSelfTest => Sys2Proof.Machine.execRomSelfTest s
  | .romCoreTest => Sys2Proof.Machine.execRomCoreTest s
  | .phaseOverrun => Sys2Proof.Machine.execPhaseOverrun s
  | .seamTraining => Sys2Proof.Machine.execSeamTraining s
  | .seamTrainTimeout => Sys2Proof.Machine.execSeamTrainTimeout s
  | .electRoundMessage => Sys2Proof.Machine.execElectRoundMessage s
  | .claim => Sys2Proof.Machine.execClaim s
  | .claimWindowClose => Sys2Proof.Machine.execClaimWindowClose s
  | .lead => Sys2Proof.Machine.execLead s
  | .leadTimeout => Sys2Proof.Machine.execLeadTimeout s
  | .noleader => Sys2Proof.Machine.execNoleader s
  | .bootDescriptorPoll => Sys2Proof.Machine.execBootDescriptorPoll s
  | .firmwareFetch => Sys2Proof.Machine.execFirmwareFetch s
  | .firmwareReceive => Sys2Proof.Machine.execFirmwareReceive s
  | .followerReportTimeout => Sys2Proof.Machine.execFollowerReportTimeout s
  | .enumeration => Sys2Proof.Machine.execEnumeration s
  | .enumTimeout => Sys2Proof.Machine.execEnumTimeout s
  | .coolantOvertemp => Sys2Proof.Machine.execCoolantOvertemp s
  | .checkpointRestart => Sys2Proof.Machine.execCheckpointRestart s
  | .translationCacheInvalidate => Sys2Proof.Machine.execTranslationCacheInvalidate s
  | .linkTokenArrival => Sys2Proof.Machine.execLinkTokenArrival s
  | .bridgeAttachmentTraining => Sys2Proof.Machine.execBridgeAttachmentTraining s

end Sys2Proof.Machine
end

