-- ==== Sys2Proof/Machine/Cycle.lean ====
section
/-! DEFINITION. One cycle of a core: what goes before issue, the fetch, the checks and the issue of a whole bundle (02_bundles
R46 to R55, 07_core_memories R189 to R192, 14_traps_and_context R348 to R361), and the turns of the agenda (log 1). -/

namespace Sys2Proof.Machine

/-! Cycles without issue. -/

/-- A cycle in which the issue clock is frozen for a cause of 14 R360. -/
def Core.freeze (why : Nat) (c : Core) : Core := (c.countCycle (some why)).frozenCycle

/-- A counted idle tick of the issue clock (02 R52). -/
def Core.idle (c : Core) : Core := (c.countCycle none).idleTick

/-- A cycle of a core that issues nothing because it is halted; under a halt of its region no entry ages (12 R306). -/
def Core.haltedCycle (c : Core) : Core :=
  match c.halt with
  | .reset => c
  | .region _ => { c.endCycle with ready := c.ready }
  | _ => c.endCycle

/-- A held bundle stays unissued; a stagger hold counts its cycles (06 R165), a wait point its own (13 R345). -/
def Core.hold (why : Nat) (c : Core) : Core :=
  (if why = 5 then { c with matHold := c.matHold + 1 } else if why = 0 then { c with waited := c.waited + 1 } else c).freeze why

/-! The issue of a bundle. -/

/-- The latch set to a slot and its word. -/
def State.atSlot (p : Nat × Word) (s : State) : State := { s with issue := { s.issue with slot := p.1, word := p.2 } }

/-- The meaning of a slot's word. -/
def runSlot (p : Nat × Word) (s : State) : Out :=
  match decodeSlot p.2 with
  | some i => exec i (s.atSlot p)
  | none => .next s

/-- The issue checks, slot by slot on the state before the bundle (02 R51, item 4): of earlier slots only the registers they will
write, the tiles they allocate and the divider are seen. The first slot that does not go on decides. -/
def checkSlots (s0 : State) (acc : Issue) : List (Nat × Word) → Out
  | [] => .next { s0 with issue := acc }
  | p :: t =>
    match runSlot p { s0 with issue := acc } with
    | .next s1 =>
      if s1.issue.stop.isSome then .next s1
      else checkSlots s0 { acc with claims := s1.issue.claims, alloc := s1.issue.alloc, divClaim := s1.issue.divClaim } t
    | r => r

/-- The effects, slot by slot; where one closes the bundle or can not go on, no later slot acts. -/
def commitSlots (s : State) : List (Nat × Word) → Out
  | [] => .next s
  | p :: t =>
    match runSlot p s with
    | .next s1 => if s1.issue.stop.isSome then .next s1 else commitSlots s1 t
    | r => r

/-- An instruction that closes its bundle, and so acts once every other slot has. -/
def closes (p : Nat × Word) : Bool :=
  match decodeSlot p.2 with
  | some .fend | some .yield | some (.trap _) | some (.tret _) | some (.brk _) | some (.haltc _) => true
  | _ => false

/-- The order in which effects are made: slot order (02 R47), what closes the bundle last. -/
def commitOrder (l : List (Nat × Word)) : List (Nat × Word) := l.filter (fun p => !closes p) ++ l.filter closes

/-- The fetch buffer after a bundle: it goes on in sequence, or starts anew. -/
def Core.passBundle (pc nxt : Addr) (c : Core) : Core :=
  { c with fbuf := if c.regs.pc = nxt then c.fbuf.filter (fun f => f.pc != pc) else [] }

/-- A bundle that has waited at a wait point shows its frozen cycles to the capture units (13 R345). -/
def offerWait (s0 : State) (x : State) : State :=
  if s0.core.waited = 0 then x
  else (offer x (reticleOf x.cur) (regionOf s0) 4 0 s0.core.waited).onCore fun c => { c with waited := 0 }

/-- An image that a CTXSV of the bundle has saved goes on at the bundle after it (14 R367). -/
def noteSaved (x : State) : State :=
  match x.issue.savedKey with
  | some k =>
    if x.core.fwm then { x with resume := modify k ({} : Rest) (fun (r : Rest) => { r with pc := x.core.regs.pc, branch := x.core.branch }) x.resume } else x
  | none => x

/-- The end of a bundle whose CTXLD has restored the core k: the results of its later slots run one tick, then the restored registers
stand (02 R47, 14 R368). -/
def closeLoaded (k : Core) (s : State) : State :=
  let new := (s.core.pend.drop k.pend.length).filter fun p => k.fwm || !p.inBank
  let tcd := if k.fwm then s.core.tcd else []
  let pend := new.map fun (p : Pending) => { p with rem := p.rem - 1 }
  let c : Core := { s.core with regs := k.regs, bankS := k.bankS, bankTc := k.bankTc, fwm := k.fwm, tcd := tcd, pend := pend }.landDue
  { s with core := { c with pend := k.pend ++ c.pend }.endCycle, issue := { s.issue with stop := some .closed } }

/-- The end of a bundle's cycle: issued, faulted, or held with nothing done. -/
def conclude (s0 : State) (t : State) : State :=
  let nxt := nextPc s0
  let pass (x : State) : State :=
    let x := noteSaved x
    offerWait s0 { x with core := (x.core.passBundle s0.core.regs.pc nxt).countedFrom s0.core, issue := {} }
  match t.issue.stop with
  | some (.fault _ _) => { t with core := (t.core.countedFrom s0.core).endCycle, issue := {} }
  | some (.held why) => { s0 with core := s0.core.hold why, issue := {} }
  | some .closed => pass t
  | none => pass (match t.issue.loaded with | some k => closeLoaded k t | none => closeBundle t)

/-- The latch of a bundle. -/
def bundleLatch (c : Core) (ws : List Word) : Issue :=
  let h := ws.headD 0#32
  { len := 4 * ws.length, wait := hWait h, stall := hStall h, lits := (slotWords ws).2, tiles0 := some c.tiles, core0 := some c
    arr0 := some (c.slots[c.slot.toNat]'c.slot.isLt).arr }

/-- The core as its next bundle is opened: its branch target stands, the watches that are met are known. -/
def State.opened (s : State) : State := s.onCore fun c => { c.noteWatches with branch := none }

/-- Issues a bundle that has been fetched (02 R51 to R53): decode checks, the WAIT counter, issue checks, effects. -/
def issueBundle (ws : List Word) (s : State) : Out :=
  let s := s.opened
  match decodeFault s.core.fwm s.core.regs.pc ws with
  | some (slot, w, cause) => .next (conclude s (raise cause (s.atSlot (slot, w))))
  | none =>
    let h := ws.headD 0#32
    let s0 := { s with issue := bundleLatch s.core ws }
    match decodeHeaderOnly h with
    | some i =>
      match exec i s0 with
      | .next t => .next (conclude s0 t)
      | r => r
    | none =>
      if waitHeld s0 then .next (conclude s0 (hold 0 s0))
      else
        let l := (slotWords ws).1
        match checkSlots s0 s0.issue l with
        | .next s1 =>
          if s1.issue.stop.isSome then .next (conclude s0 s1)
          else
            match commitSlots { s0 with issue := { s0.issue with commit := true } } (commitOrder l) with
            | .next t => .next (conclude s0 t)
            | r => r
        | r => r

/-! Fetch. -/

/-- FETCHB waits for the ICINVs of the firing (07 R192). -/
def fetchWaits (c : Core) : Bool :=
  c.fetchb && c.ops.any fun o => o.fid == c.regs.fireid && (match o.kind with | .icinv _ => true | _ => false)

/-- BRANCH_TARGET of the branching bundle (02 R48, R51). -/
def badTarget (b : Addr) (s : State) : State :=
  s.onCore fun c => (({ c with branch := none }.takeTrap Cause.branchTarget.code b (c.regs.pc.zeroExtend 64)).countedFrom c).endCycle

/-- The fill of a line has been asked for. -/
def Core.wantLine (key : Nat) (c : Core) : Core := if c.ifill.any fun p => p.1 == key then c else { c with ifill := c.ifill ++ [(key, true)] }

/-- A FENCE without a token that was issued behind an access of its own bundle holds every later one (08 R214). -/
def fenceHolds (c : Core) : Bool :=
  c.ops.any fun o => o.fid == c.regs.fireid && o.fw == c.fwm && o.tc == 0#4 && (match o.kind with | .fence _ => true | _ => false)

/-- Fetches the bundle at the program counter, and issues it. -/
def fetchCycle (s : State) : Out :=
  let c := s.core
  if fenceHolds c then .next (s.onCore fun c => c.freeze 4)
  else if fetchWaits c then .next (s.onCore fun c => c.freeze 3)
  else if c.branch.isSome && c.regs.pc.extractLsb' 0 2 != 0#2 then .next (badTarget (c.branch.getD 0#56) s)
  else
    let s := s.onCore fun c => { c with fetchb := false }
    match fetchAt c c.regs.pc with
    | .miss key => .next (s.onCore fun c => (c.wantLine key).freeze 3)
    | .fault va cause =>
      .next (s.onCore fun c =>
        (({ c with ifault := c.ifault.filter fun p => p.1 != lineKey c va }.takeTrap cause.code c.regs.pc (BitVec.ofNat 64 va)).countedFrom
          c).endCycle)
    | .words ws => if c.branch.isSome && hSig (ws.headD 0#32) != 0xB#4 then .next (badTarget (c.branch.getD 0#56) s) else issueBundle ws s

/-- A core whose firing is ending waits for its fixed-latency results; YIELD then gives up the core, and a variable-latency result
that has come is in the frame (12 R310, R311). -/
def Core.endingCycle (c : Core) : Core :=
  if (c.pend.filter fun p => !p.var).isEmpty && c.ending == .yield then (c.pend.foldl Core.landOne { c with pend := [] }).saveYield.endCycle
  else if c.pend.isEmpty then c.freeze 4
  else c.idle

/-- One cycle of the core in focus. A halt waits while a switch is under way (01 R31), and so do boundary faults, which a yielder's
frame receives (12 R311). -/
def coreCycle (s : State) : Out :=
  let c := s.core
  let switching := c.ending == .yield
  if c.halt != .no then .next (s.onCore Core.haltedCycle)
  else if c.hreq && c.maySplit then .next ((haltNow s).onCore Core.haltedCycle)
  else if c.atBoundary && !c.faults.isEmpty && !switching then .next (s.onCore fun c => (c.takePending.countedFrom c).endCycle)
  else
    match if switching then none else c.watchdogVal with
    | some v => .next (s.onCore fun c => (c.takeWatchdog v).endCycle)
    | none =>
      if !c.running && !c.fwm then .next (s.onCore Core.endCycle)
      else if c.warm != 0 then .next (s.onCore fun c => { c.countHeld with warm := c.warm - 1 }.frozenCycle)
      else if c.frozen != 0 then .next (s.onCore fun c => { c with frozen := c.frozen - 1 }.freeze 4)
      else if c.stallrem != 0 then .next (s.onCore fun c => { c with stallrem := c.stallrem - 1 }.idle)
      else if c.ending != .none then .next (s.onCore Core.endingCycle)
      else fetchCycle s

/-! Edge elements. -/

/-- The fields of an element word. -/
def EdgeOp.ofWord (w : Word) : EdgeOp := { op := (eOp w).toNat, a := eA w, b := eB w, d := eD w, e := eE w, t := eT w, l := eL w }

/-- Handlers of an element that can run now, by channel (15 R380). -/
def runnable (s : State) (b : Block) (m : Memory) (e : Nat) : List Nat :=
  (List.range 16).filter fun c =>
    let x := planeEntry m e c
    entryRuns x && !(b.elem e).heldFor c && (edgeAct s b m (EdgeOp.ofWord (entryWord x)) e c).isSome

/-- The one with the highest PRI, then the lowest channel. -/
def choose (m : Memory) (e : Nat) : List Nat → Option Nat
  | [] => none
  | c :: t =>
    match choose m e t with
    | none => some c
    | some d => if entryPri (planeEntry m e c) < entryPri (planeEntry m e d) then some d else some c

/-- An element runs its next handler. -/
def elementTurn (p e : Nat) (s : State) : Out :=
  let b := s.block p
  match b.plane with
  | none => .next s
  | some m =>
    if 63 < e || !b.runs s || (b.elem e).halted then .next s
    else
      match choose m e (runnable s b m e) with
      | none => .next s
      | some c =>
        match decodeEdge (entryWord (planeEntry m e c)) with
        | some i => exec i { s with handler := (p, e, c) }
        | none => .next s

/-! The other turns. -/

/-- A net cycle: debug writes whose router is idle in it are performed (20 R464); reduction timers fall, and a slot whose timer runs out
flushes (11 R287); a block whose period runs counts it (15 R397); a round change due at a router takes effect (10 R281). -/
def netTick (s : State) : State :=
  let s := performWrites s
  { s with
    clock := s.clock + 1
    blocks := s.blocks.map fun (p : Nat × Block) => if p.2.runs s then (p.1, { p.2 with waited := p.2.waited + 1 }) else p
    routers := s.routers.map fun (p : Nat × Router) =>
      (p.1, { roundTurn s p.1 p.2 with slots := p.2.slots.map fun (q : Nat × RedSlot) => (q.1, if q.2.flushing then q.2 else { q.2 with timer := q.2.timer - 1, flushing := decide (q.2.timer ≤ 1) }) }) }

/-- A nanosecond at a reticle controller: its copy of wafer time, which stays within 32 ns of the leader's (13 R338). -/
def nsTick (i : Nat) (s : State) : State :=
  let t := (s.reticle i).time.toNat + 1
  let near :=
    if s.bridge.leader = some i then s.reticles.all fun p => p.2.dark || decide (t ≤ p.2.time.toNat + 32)
    else decide (t ≤ (timeAt s 48).toNat + 32)
  if i < 48 && s.bridge.phase == 6#4 && near then s.onReticle i fun r => { r with time := r.time + 1#64 } else s

/-- Wafer w has completed its part of its region's next pod instance, as the control lane of a port says: one that is UP, for nothing crosses a
port that is down, and that leads to a wafer of the mask. The word carries its sender's mask: wafers that disagree complete nothing (17
R448). -/
def podTurn (reg p w mask : Nat) (s : State) : State :=
  let m := s.bridge.podmemb.toList.getD reg 0#64
  if (s.region reg).live && (s.link p).up && m.getLsbD (s.link p).farw.toNat && m.getLsbD w && decide (mask = m.toNat) then
    testNode reg 5 0 2 (s.onRegion reg fun r => { r with podInst := modify w 0#32 (· + 1#32) r.podInst })
  else s

/-- An HBM line's uncorrectable error (08 R205). -/
def spoilLine (l : Nat) (s : State) : State := if s.badLine.contains l then s else { s with badLine := l :: s.badLine }

/-- A buffer word's uncorrectable error (07 R170). -/
def Core.spoil (buf w : Nat) (c : Core) : Core :=
  if 2 < buf || bufBytes buf ≤ 8 * w || c.badWord.contains (buf, w) then c else { c with badWord := (buf, w) :: c.badWord }

/-- A table step is an event where no encoding names it. -/
def isEvent (i : Instr) : Bool := (encode i).isNone

/-- One turn. -/
def runTurn (t : Turn) (s : State) : Out :=
  match t with
  | .core c => coreCycle (s.focus c)
  | .event c i input => if isEvent i then exec i { s.focus c with input := input } else .next s
  | .element p e => elementTurn p e s
  | .linkAck p k => .next (linkAck p k s)
  | .edgeArrive c j => .next (edgeArrive c j s)
  | .edgePub p k => .next (edgePub p k s)
  | .matRead c j i => .next (matReadLine j i (s.focus c))
  | .tileLine c i l => .next (tileLine i l (s.focus c))
  | .matWrite c j i => .next (matWriteLine j i (s.focus c))
  | .engine c j i => .next (enginePart j i (s.focus c))
  | .evict c l => .next (evictLine l (s.focus c))
  | .gserve c j => .next (serveTurn j (s.focus c))
  | .spoilLine c l w => .next (spoilLineWord l w (s.focus c))
  | .tlbDrop i => .next { s with tlb := dropAt s.tlb i }
  | .prefetch c => .next (prefetch (s.focus c))
  | .netCycle => .next (netTick s)
  | .nanosecond r => .next (nsTick r s)
  | .pokeHost a x n => .next { s with host := wrN s.host a x n }
  | .tables l => .next { s with hbm := writeLines s.hbm l }
  | .poisonHbm l => .next (spoilLine l s)
  | .poisonWord c b w => .next ((s.focus c).onCore (Core.spoil b w))
  | .podArrive r p w m => .next (podTurn r p w m s)
  | .restart c => .next ((s.focus c).onCore fun k => match k.halt with | .report _ false => k.goOn | _ => k)

/-- The next entry of the agenda, or a cycle of the core in focus. -/
def nextTurn (s : State) : Out :=
  match s.agenda with
  | [] => coreCycle s
  | t :: rest => runTurn t { s with agenda := rest }

/-! A word laid where the next step takes it. -/

/-- The core runs a firing at its program counter, nothing owed before the next bundle. -/
def Core.runsAt (w : Word) (c : Core) : Core :=
  let key := c.regs.pc.toNat % 2 ^ 56 / 64
  let at_ := 32 * (c.regs.pc.toNat / 4 % 16)
  let line : BitVec 512 := findD key 0#512 c.istore
  let cleared := line &&& ~~~((BitVec.allOnes 32).zeroExtend 512 <<< at_)
  { c with
    running := true, fwm := false, halt := .no, hreq := false, faults := [], branch := none, stallrem := 0, frozen := 0, warm := 0
    ending := .none, fbuf := [], fetchb := false, wdFrozen := 0, wdHeld := 0
    regs := { c.regs with pc := c.regs.pc &&& ~~~3#56 }
    istore := insert key (cleared ||| (w.zeroExtend 512 <<< at_)) c.istore }

/-- A header word in the core's instruction store. -/
def placeBundle (w : Word) (s : State) : State := { s with core := s.core.runsAt w, agenda := [], issue := {} }

/-- A token for each queue or stream that the word reads, and for SRCN a delivered tile. -/
def placeTokens (o : EdgeOp) (b : Block) : Block :=
  let q (r : BitVec 5) (m : Map (List ETok)) : Map (List ETok) := if r.toNat < 16 then insert r.toNat [{}] m else m
  if o.op = 0x16 then { b with armed := [{ bind := o.a.toNat, point := 0, name := 0#96, got := some ⟨0#96, 0#4, 32, 0⟩ }] }
  else if o.op = 0x18 then { b with rx := insert o.a.toNat [{}] b.rx }
  else b.setElem 0 { queues := q o.b (q o.a []) }

/-- An element word as a handler of element 0 of port 0's block, in a period of region 0, with tokens to act on; the element
runs next. -/
def placeElement (w : Word) (s : State) : State :=
  let o := EdgeOp.ofWord w
  let c := if o.op = 0x16 ∨ o.op = 0x18 ∨ 15 < o.a.toNat then 0 else o.a.toNat
  let b := placeTokens o { owner := some 0, state := .running, plane := some (wrN [] (0x400 + 8 * c) (2 ^ 63 + w.toNat) 8) }
  (({ s with agenda := [.element 0 0] }.onRegion 0 fun r => { r with phase := .running })).setBlock 0 b

end Sys2Proof.Machine
end

