-- ==== Sys2Proof/Machine/Step.lean ====
section
/-! DEFINITION. The step: one turn of the agenda, a core's cycle where it is empty (01 R15, R30; log 1). -/

namespace Sys2Proof.Machine

/-- One step of the machine. -/
def step (s : State) : Host.Outcome State Fault Refusal := nextTurn s

/-- The state with a word of the opcode table placed where the next step runs it: a header-only bundle at the program counter of
the core in focus, or an element word in an edge block (log 23). -/
def State.withFetchWord (s : State) (_nbits w : Nat) : State :=
  let x : Word := BitVec.ofNat 32 w
  if hSig x = 0xB#4 then placeBundle x s else placeElement x s

end Sys2Proof.Machine
end

