-- ==== Sys2Proof/Safety.lean ====
section
/-! DEFINITION. What counts as a safe run, the invariant of the two global memories, and the words in which the statements of
Certificates/Slice0/Obligations.lean are put. -/

namespace Sys2Proof.Safety

open Sys2Proof.Machine

/-- The state after n steps, if every one of them answers a next state. -/
def run : Nat → State → Option State
  | 0, s => some s
  | n + 1, s =>
    match step s with
    | .next t => run n t
    | _ => none

/-- A run of n steps is safe when no step ends in a fault or a refusal. -/
def safeFor (n : Nat) (s : State) : Prop := (run n s).isSome = true

/-- A core has not failed (14 R353, R354). -/
def Core.sound (c : Core) : Bool := c.halt != .failed

/-- Canonical form of the two byte memories that every agent and the host share: keys strictly rising, no zero byte listed. -/
def GlobalWf (s : State) : Prop := s.hbm.wf = true ∧ s.host.wf = true

/-- Canonical form of a core's three buffers. -/
def BuffersWf (c : Core) : Prop := c.bufW.wf = true ∧ c.bufA.wf = true ∧ c.bufC.wf = true

/-! Results on their way (02 R53, R55). -/

/-- The answer of an instruction whose whole effect is one result: it is on its way, and nothing else has changed. -/
def lands (lat : Nat) (q : Put) (s : State) : Out := .next (launchResult { rem := lat, put := q } s)

/-- The same of a result that carries flags. -/
def landsWith (lat : Nat) (q : Put) (f : Flags) (s : State) : Out := .next (launchResult { rem := lat, put := q, flags := f } s)

/-- No other fixed-latency result claims the register of q in the tick lat ticks from now (02 R55). -/
def unclaimed (lat : Nat) (q : Put) (s : State) : Prop := clashes s { rem := lat, put := q } = false

/-- n counted ticks of the issue clock. -/
def ticks : Nat → Core → Core
  | 0, c => c
  | n + 1, c => ticks n c.tick

/-- A result that writes scalar register r, or a control register. -/
def mayWriteS (r : Reg) (p : Pending) : Bool :=
  match p.put with
  | .s x _ => x == r
  | .ctl .. => true
  | _ => false

/-! Special functions (05 R139, R140). -/

/-- The code of 2 to the n where a format can represent it: normal from 1 - bias on, subnormal below. -/
def powCode (f : Fmt) (n : Int) : Nat := if 1 - (f.bias : Int) ≤ n then (n + f.bias).toNat * 2 ^ f.mb else 2 ^ (n + f.bias + f.mb - 1).toNat

/-- The format can represent 2 to the n. -/
def powFits (f : Fmt) (n : Int) : Prop := 1 - (f.bias : Int) - f.mb ≤ n ∧ n ≤ f.emax

/-- r is an answer within the bound about the value y times 2 to the e: its code lies from the least code at or above the lower end to the greatest at
or below the upper end, NX is raised, and UF beside it where the result is subnormal or zero. -/
def withinBound (f : Fmt) (ulps : Nat) (absolute neg : Bool) (y : Nat) (e : Int) (r : Nat × Flags) : Prop :=
  let b : Int := boundOf f ulps absolute y e
  let v : Int := if neg then -(y : Int) else y
  let endAt (mode : Nat) (x : Int) : Int := ordOfCode f (roundFmt (.fin (decide (x < 0)) x.natAbs e false) f mode 0).1
  endAt 3 (v - b) ≤ ordOfCode f r.1 ∧ ordOfCode f r.1 ≤ max (endAt 3 (v - b)) (endAt 2 (v + b)) ∧
    r.2 = flNX ||| flIf (decide (r.1 % 2 ^ (f.w - 1) < 2 ^ f.mb)) flUF

/-! Operands of the matrix unit and tiles. -/

/-- The task slot of the firing owns window i, or at 4 the pair of weight planes (01 R29). -/
def owned (s : State) (i : Nat) : Prop := s.core.owners.toList.getD i none = some s.core.slot

/-- A tile that a command may read or fill: READY, in buffer b, of at least n bytes (06 R146). -/
def usable (t : Tile) (b : BitVec 2) (n : Nat) : Prop := t.state = .ready ∧ t.buf = b ∧ n ≤ t.size

/-! Global accesses (08 R211). -/

/-- Nothing of the running firing is outstanding at the core: no operation, no arrival at a barrier. -/
def firingAlone (s : State) : Prop := (∀ e ∈ s.core.ops, e.fid ≠ s.core.regs.fireid) ∧ ∀ e ∈ s.core.arrivals, e.fid ≠ s.core.regs.fireid

/-- In u the G-cache holds line l with n bytes of v written from byte w on, valid, and dirty or not; every other byte of the line is as it was in
s. -/
def lineWritten (s u : State) (l w n v : Nat) (dirty : Bool) : Prop :=
  let old := (s.core.gline l).getD {}
  ∃ g, u.core.gline l = some g ∧ ∀ k, k < 64 →
    slice g.data.toNat 8 k = (if w ≤ k ∧ k < w + n then slice v 8 (k - w) else slice old.data.toNat 8 k) ∧
    g.valid.getLsbD k = (decide (w ≤ k ∧ k < w + n) || old.valid.getLsbD k) ∧
    g.dirty.getLsbD k = if w ≤ k ∧ k < w + n then dirty else old.dirty.getLsbD k

/-- The two memories stand. -/
def memorySame (s u : State) : Prop := u.hbm = s.hbm ∧ u.host = s.host

/-! Steps. -/

/-- Nothing stands between the core and the fetch of its next bundle. -/
def issuing (c : Core) : Bool :=
  c.halt == .no && !c.hreq && !(c.atBoundary && !c.faults.isEmpty) && c.watchdogVal.isNone && (c.running || c.fwm) && c.warm == 0
    && c.frozen == 0 && c.stallrem == 0 && c.ending == .none && !fenceHolds c && !fetchWaits c && c.branch.isNone && !c.fetchb

/-- The state in which the slots of a bundle are judged: its latch set. -/
def latched (ws : List Word) (s : State) : State := { s.opened with issue := bundleLatch s.opened.core ws }

/-! Edge handlers (15 R378 to R382). -/

/-- The plane's entry of the handler in focus. -/
def handlerEntry (m : Memory) (s : State) : W64 := planeEntry m s.handler.2.1 s.handler.2.2

/-- The handler in focus, of one of the block's 64 elements, is not masked, its block runs, its element neither stopped nor holding an output, the
queues behind both destinations have a credit (15 R380), and its literal is one that an image may hold (15 R384, R385). -/
def handlerReady (o : EdgeOp) (m : Memory) (s : State) : Prop :=
  let b := s.block s.handler.1
  let e := s.handler.2.1
  let x := handlerEntry m s
  e ≤ 63 ∧ litRefused o.op (planeLit m e ((fld x 46 4 + o.l.toNat) % 16)) = false ∧
    b.runs s = true ∧ entryRuns x = true ∧ (b.elem e).halted = false ∧ (b.elem e).out = [] ∧
    b.credit e o.d.toNat (fld x 54 4) = true ∧ b.credit e o.e.toNat (fld x 50 4) = true

/-- What an operation works in as the handler in focus of a region's block. -/
def handlerEnv (o : EdgeOp) (m : Memory) (reg : Nat) (s : State) : EEnv :=
  { op := o.op, elem := s.handler.2.1, lit := planeLit m s.handler.2.1 ((fld (handlerEntry m s) 46 4 + o.l.toNat) % 16)
    det := (s.region reg).det, g := (s.block s.handler.1).gen, points := planePoints m, taga := o.t.toNat, room := true }

/-- The handler in focus has left its working state, and stopped its element or not; all but its element and its block's own records
is as it was. -/
def handlerDid (act : Act) (s u : State) : Prop :=
  let p := s.handler.1
  let e := s.handler.2.1
  let x := (u.block p).elem e
  let y := (s.block p).elem e
  u = { s with blocks := u.blocks, fresh := s.fresh + 1 } ∧ (∀ k, k ≠ p → u.block k = s.block k) ∧
    (∀ k, k ≠ e → (u.block p).elem k = (s.block p).elem k) ∧ x.state s.handler.2.2 = act.hs ∧
    (∀ k, k ≠ s.handler.2.2 → x.state k = y.state k) ∧ x.halted = act.halt.isSome

/-- It has taken from its input queues the tokens that the operation consumed, and from no other. -/
def handlerTook (o : EdgeOp) (act : Act) (s u : State) : Prop :=
  ∀ k, ((u.block s.handler.1).elem s.handler.2.1).queue k = (((s.block s.handler.1).elem s.handler.2.1).queue k).drop
    ((if act.popA = true ∧ k = o.a.toNat then 1 else 0) + (if act.popB = true ∧ o.b.toNat < 16 ∧ k = o.b.toNat then 1 else 0))

/-- Its output tokens stand at the element, with their destinations and channels. -/
def handlerPut (o : EdgeOp) (m : Memory) (act : Act) (s u : State) : Prop :=
  let x := handlerEntry m s
  ((u.block s.handler.1).elem s.handler.2.1).out =
    weave (toward o.d.toNat (x.extractLsb' 54 4) act.outA) (toward o.e.toNat (x.extractLsb' 50 4) act.outB)

/-! Frames. -/

/-- Everything but the core in focus and the bundle's latch is as it was. -/
def elsewhereSame (s t : State) : Prop := t = { s with core := t.core, issue := t.issue }

/-- The registers and tables that only landing results, traps and other instructions change. -/
def coreSame (c d : Core) : Prop := d = { c with pend := d.pend }

/-- The instructions whose whole effect is the write of registers: scalar, mask and name arithmetic, vector arithmetic, permutations,
reductions and special functions (03 to 05). -/
def onlyResults : Instr → Bool
  | .add .. | .sub .. | .mul .. | .mulh .. | .mulhu .. | .div .. | .divu .. | .rem .. | .remu .. | .and .. | .or .. | .xor .. | .andn ..
  | .shl .. | .shr .. | .sra .. | .rol .. | .min .. | .max .. | .minu .. | .maxu .. | .cmp .. | .sel .. | .clz .. | .ctz .. | .popc ..
  | .bfx .. | .bfi .. | .sext .. | .zext .. | .addx .. | .mov .. | .addi .. | .andi .. | .ori .. | .xori .. | .shli .. | .shri .. | .srai ..
  | .cmpi .. | .lit .. | .lit64 .. | .muli .. | .kand .. | .kor .. | .kxor .. | .kandn .. | .knot .. | .kmov .. | .ktos .. | .kpopc ..
  | .kfirst .. | .ksetn .. | .nmk .. | .nset .. | .nget .. | .nadd .. | .nmov .. | .ncmp .. | .vadd .. | .vsub .. | .vmul .. | .vfma ..
  | .vfms .. | .vmin .. | .vmax .. | .vabs .. | .vneg .. | .vand .. | .vor .. | .vxor .. | .vshl .. | .vshr .. | .vsra .. | .vcmp ..
  | .vsel .. | .vmov .. | .vbcast .. | .vdot4 .. | .vdot2 .. | .vsat .. | .vclz .. | .vpopc .. | .vmulh .. | .vcvt .. | .vqmx .. | .vdqmx ..
  | .vtag .. | .vgtag .. | .vperm .. | .vshuf .. | .vrot .. | .vslide .. | .vpack .. | .vunpk .. | .vcmprs .. | .vexpnd .. | .viota ..
  | .vextr .. | .vins .. | .vscl .. | .vredadd .. | .vredmin .. | .vredmax .. | .vscan .. | .vtopk .. | .vsorts .. | .vargmx .. | .vrand ..
  | .vhistx .. | .vredx .. | .vrndx .. | .vlut .. | .fexp2 .. | .flog2 .. | .frcp .. | .frsq .. | .fsqrt .. | .fdiv .. | .ftanh ..
  | .fsigm .. | .fsin .. | .fcos .. | .ferf .. => true
  | _ => false

end Sys2Proof.Safety
end

