-- ==== Sys2Proof/Certificates/Slice0/Obligations.lean ====
section
/-! DEFINITION. The statements for the provers, in the order of the spec: encoding and steps, scalar, vector, local memory, operations,
events, frames and the invariant. -/

open Sys2Proof Sys2Proof.Machine Sys2Proof.Safety

/-! Encoding (02 R38 to R50, 15 R381). -/

/-- Words laid out by hand from the encoding tables stand for the instructions that the tables name: the examples of 14 R354,
a header, and one word per form. -/
def Obligations.DecodeKnownWords : Prop :=
  decodeSlot 0xE0000012#32 = some (.trap 0x12#12) ∧
  decodeSlot 0xE0400001#32 = some (.tret 1#4) ∧
  decodeSlot 0xE1000003#32 = some (.brk 3#4) ∧
  decodeSlot 0xE1403202#32 = some (.evpost 3#5 4#5 2#4) ∧
  decodeSlot (0x0#4 ++ 0x00#6 ++ 3#5 ++ 1#5 ++ 2#5 ++ 0#3 ++ 0#4) = some (.add 3#5 1#5 2#5) ∧
  decodeSlot (0x2#4 ++ 0x00#6 ++ 0#5 ++ 0x1FFFF#17) = some (.br 0x1FFFF#17) ∧
  decodeSlot (0x9#4 ++ 0x00#6 ++ 7#5 ++ 2#5 ++ 1#2 ++ 5#10) = some (.ld 7#5 2#5 5#10) ∧
  decodeHeaderOnly (0xB#4 ++ 0#9 ++ 0#2 ++ 4#4 ++ 0#4 ++ 0#9) = some (.waitPoint 4#4) ∧
  decodeEdge (0x1A#6 ++ 3#5 ++ 0x16#5 ++ 0x12#5 ++ 0x16#5 ++ 1#4 ++ 0#2) = some (.edgeNop 3#5 0x12#5 ⟨1#4, 0#2⟩)

/-- Decoding the encoding of a well-formed instruction gives it back, for every instruction that has an encoding and every
operand that the encoding admits. -/
def Obligations.DecodeEncodeRoundTrip : Prop :=
  ∀ (i : Instr) (w : Word), encode i = some w → i.wf = true → decoderOf i w = some i

/-- 02 R40: an empty slot mask is a NOP with STALL, a wait point with WAIT and no STALL, and otherwise no bundle; literals
make it illegal too. -/
def Obligations.HeaderOnlyShapes : Prop :=
  ∀ h : Word, hSig h = 0xB#4 → hMask h = 0#9 → hRes h = 0#9 →
    (hLitc h ≠ 0#2 → decodeHeaderOnly h = none) ∧
    (hLitc h = 0#2 → hStall h ≠ 0#4 → decodeHeaderOnly h = some (.nop (hWait h) (hStall h))) ∧
    (hLitc h = 0#2 → hStall h = 0#4 → hWait h ≠ 0#4 → decodeHeaderOnly h = some (.waitPoint (hWait h))) ∧
    (hLitc h = 0#2 → hStall h = 0#4 → hWait h = 0#4 → decodeHeaderOnly h = none) ∧
    (∀ (fwm : Bool) (pc : Addr) (rest : List Word), pc.extractLsb' 0 2 = 0#2 →
      (hLitc h ≠ 0#2 ∨ hStall h = 0#4 ∧ hWait h = 0#4 → decodeFault fwm pc (h :: rest) = some (15, h, .illegalBundle)) ∧
      (hLitc h = 0#2 → hStall h ≠ 0#4 ∨ hWait h ≠ 0#4 → headerBad pc h = false))

/-! Steps (01 R15; log 1). -/

/-- 01 R15, 02 R46, R51 to R53, 15 R380, log 1: a step runs the decoded instruction. An event of the table that stands first
on the agenda is run at its core with its input; an edge element whose turn it is runs the word of the handler it chooses; a
core that issues runs its header-only bundle; of a bundle of slots it first makes every check and then, where none stops it,
every slot's effect, one after the other; the cycle is then concluded. -/
def Obligations.StepRunsTheDecodedInstruction : Prop :=
  (∀ (s : State) (c : Nat) (i : Instr) (input : List Nat) (rest : List Turn), s.agenda = .event c i input :: rest →
    encode i = none → step s = exec i { ({ s with agenda := rest }).focus c with input := input }) ∧
  (∀ (s : State) (p e c : Nat) (rest : List Turn) (m : Memory) (i : Instr), s.agenda = .element p e :: rest → e ≤ 63 →
    (s.block p).plane = some m → (s.block p).runs s = true → ((s.block p).elem e).halted = false →
    choose m e (runnable { s with agenda := rest } (s.block p) m e) = some c → decodeEdge (entryWord (planeEntry m e c)) = some i →
    step s = exec i { s with agenda := rest, handler := (p, e, c) }) ∧
  (∀ (s : State) (h : Word) (i : Instr) (t : State), s.agenda = [] → issuing s.core = true →
    fetchAt s.core s.core.regs.pc = .words [h] → decodeFault s.core.fwm s.core.regs.pc [h] = none → decodeHeaderOnly h = some i →
    exec i (latched [h] s) = .next t → step s = .next (conclude (latched [h] s) t)) ∧
  (∀ (s : State) (ws : List Word) (t u : State), s.agenda = [] → issuing s.core = true →
    fetchAt s.core s.core.regs.pc = .words ws → decodeFault s.core.fwm s.core.regs.pc ws = none →
    decodeHeaderOnly (ws.headD 0#32) = none → waitHeld (latched ws s) = false →
    let l := (slotWords ws).1
    let go : State := { latched ws s with issue := { (latched ws s).issue with commit := true } }
    checkSlots (latched ws s) (latched ws s).issue l = .next t →
    (t.issue.stop.isSome = true → step s = .next (conclude (latched ws s) t)) ∧
    (t.issue.stop = none → commitSlots go (commitOrder l) = .next u → step s = .next (conclude (latched ws s) u))) ∧
  (∀ (s : State) (h w : Word) (n : Nat) (lits : List Word) (i : Instr) (t u : State), s.agenda = [] → issuing s.core = true →
    fetchAt s.core s.core.regs.pc = .words (h :: w :: lits) → decodeFault s.core.fwm s.core.regs.pc (h :: w :: lits) = none →
    decodeHeaderOnly h = none → slotsOf h = [n] → decodeSlot w = some i → waitHeld (latched (h :: w :: lits) s) = false →
    exec i ((latched (h :: w :: lits) s).atSlot (n, w)) = .next t →
    (t.issue.stop.isSome = true → step s = .next (conclude (latched (h :: w :: lits) s) t)) ∧
    (t.issue.stop = none →
      exec i (({ latched (h :: w :: lits) s with issue := { (latched (h :: w :: lits) s).issue with commit := true } } : State).atSlot (n, w))
        = .next u →
      step s = .next (conclude (latched (h :: w :: lits) s) u))) ∧
  (∀ (s t : State) (n : Nat) (w : Word) (rest : List (Nat × Word)) (i : Instr), decodeSlot w = some i → exec i (s.atSlot (n, w)) = .next t →
    commitSlots s ((n, w) :: rest) = if t.issue.stop.isSome then .next t else commitSlots t rest)

/-! Results, ticks, traps (02 R52 to R55, 03 R65, R76, 13 R326, 14 R349 to R356). -/

/-- A scalar result is written at the end of its last tick and not before: after as many ticks as its latency the register
reads the value, s0 still zero; one tick earlier it reads what it read at issue. -/
def Obligations.ResultWrittenAfterLatency : Prop :=
  ∀ (c : Core) (r : Reg) (x : W64) (p : Pending) (n : Nat), p ∈ c.pend → p.put = .s r x → p.rem = n + 1 →
    (∀ q ∈ c.pend, mayWriteS r q = true → q = p) →
    (ticks n c).s r = c.s r ∧ (ticks (n + 1) c).s r = if r = 0#5 then 0#64 else x

/-- 03 R65: s0 reads zero and k0 all ones whatever was written, and no write to them collides, at any latency; every other register
reads what was last written to it. 02 R55: two fixed-latency results for one scalar, mask, name or vector register, or for the loop's
registers, in one tick raise WRITE_COLLISION. -/
def Obligations.HardwiredRegisters : Prop :=
  ∀ (c : Core) (r q : Reg) (k j : KReg) (x : W64),
    (c.setS r x).s q = (if q = r ∧ r ≠ 0#5 then x else c.s q) ∧ c.s 0#5 = 0#64 ∧
    (c.setK k x).k j = (if j = k ∧ k ≠ 0#3 then x else c.k j) ∧ c.k 0#3 = BitVec.allOnes 64 ∧
    (c.setS 0#5 x = c ∧ c.setK 0#3 x = c) ∧
    (∀ (s : State) (n : Nat), clashes s { rem := n, put := .s 0#5 x } = false ∧ clashes s { rem := n, put := .k 0#3 x } = false ∧
      ∀ put, (∀ p ∈ s.core.pend ++ s.issue.claims, (∃ y, p.put = .s 0#5 y) ∨ ∃ y, p.put = .k 0#3 y) → clashes s { rem := n, put := put } = false) ∧
    (∀ (s : State) (p : Pending) (n : Nat), p ∈ s.core.pend ++ s.issue.claims → p.var = false → p.rem = n →
      (∀ y, r ≠ 0#5 → p.put = .s r y → clashes s { rem := n, put := .s r x } = true) ∧
      (∀ y, k ≠ 0#3 → p.put = .k k y → clashes s { rem := n, put := .k k x } = true) ∧
      (∀ d y z, p.put = .n d y → clashes s { rem := n, put := .n d z } = true) ∧
      (∀ y z, p.put = .v r y → clashes s { rem := n, put := .v r z } = true ∧ clashes s { rem := n, put := .vv r z z } = true) ∧
      (∀ y y2 z, p.put = .vv r y y2 → clashes s { rem := n, put := .v r z } = true ∧ clashes s { rem := n, put := .v (r + 1#5) z } = true) ∧
      (∀ b e m b2 e2 m2, p.put = .loop b e m → clashes s { rem := n, put := .loop b2 e2 m2 } = true)) ∧
    (∀ (s : State) (p : Pending), s.issue.commit = false → p ∈ s.core.pend ++ s.issue.claims → p.var = false → p.rem = 1 →
      (∀ y, r ≠ 0#5 → p.put = .s r y → exec (.mov r q) s = .next (raise .writeCollision s)) ∧
      (∀ y, k ≠ 0#3 → p.put = .k k y → exec (.kmov k j) s = .next (raise .writeCollision s)) ∧
      (∀ d e y, p.put = .n d y → exec (.nmov d e) s = .next (raise .writeCollision s)) ∧
      (∀ b e n, p.put = .loop b e n → ∀ off, exec (.loop r off) s = .next (raise .writeCollision s) ∧
        exec (.loopi r off) s = .next (raise .writeCollision s)))

/-- 14 R349, R362: what a trap taken outside firmware saves and where it goes. What is in flight is parked, the fixed-latency results
before the others; that what finds the landing queue full waits at the core's router is the model's reading (log 29). -/
def Obligations.TrapEntry : Prop :=
  ∀ (c : Core) (cause : BitVec 6) (pc : Addr) (val : W64), c.fwm = false →
    let d := c.takeTrap cause pc val
    let parked := c.lq ++ (c.pend.filter (fun p => !p.var) ++ c.pend.filter Pending.var).map fun p => { p with own := false }
    d.trapcause = cause ∧ d.trappc = pc ∧ d.trapval = val ∧ d.fwm = true ∧ d.lq = parked.take 64 ∧ d.heldVar = c.heldVar ++ parked.drop 64 ∧
    d.pend = [] ∧
    d.savedStall = c.stallrem ∧ d.savedDiv = c.divrem ∧ d.stallrem = 0 ∧ d.divrem = 0 ∧
    d.bankS = Vector.replicate 8 0#64 ∧ d.bankTc = Vector.replicate 16 0#16 ∧
    d.regs.pc = c.trapvec.extractLsb' 14 42 ++ cause ++ 0#8 ∧ d.halt = c.halt ∧
    d.regs.s = c.regs.s ∧ d.regs.k = c.regs.k ∧ d.regs.n = c.regs.n ∧ d.regs.v = c.regs.v ∧ d.regs.fpstat = c.regs.fpstat

/-- 14 R353: a fault raised in firmware mode is not vectored; the core has failed and nothing else of it has changed. -/
def Obligations.DoubleFaultFails : Prop :=
  ∀ (c : Core) (cause : BitVec 6) (pc : Addr) (val : W64), c.fwm = true →
    c.takeTrap cause pc val = { c with halt := .failed }

/-- 14 R356: tret leaves firmware mode and goes on at TRAPPC; what was parked is in flight again, and the STALL ticks and the
divider of the firing go on. -/
def Obligations.TretResumes : Prop :=
  ∀ c : Core,
    c.tret.fwm = false ∧ c.tret.regs.pc = c.trappc ∧ c.tret.lq = [] ∧ c.tret.stallrem = c.savedStall ∧ c.tret.divrem = c.savedDiv ∧
    c.tret.bankS = Vector.replicate 8 0#64 ∧
    (∀ p ∈ c.lq ++ c.heldVar, ({ p with rem := if p.var then 1 else p.rem, own := false } : Pending) ∈ c.tret.pend) ∧
    c.tret.regs = { c.regs with pc := c.trappc }

/-- 13 R326: the changes of one cycle are summed and the sum is held to 0 to 0xFFFF; a counter that nothing names stands. -/
def Obligations.TokenCountersClamp : Prop :=
  ∀ (t : Vector (BitVec 16) 16) (l : List (Nat × Int)) (i : Fin 16), i.val ≠ 0 →
    (((tcApply t l)[i]).toNat : Int) = max 0 (min 0xFFFF ((t[i].toNat : Int) + tcSum i.val l)) ∧
    ((∀ p ∈ l, p.1 ≠ i.val) → (tcApply t l)[i] = t[i])

/-- 03 R76: after a bundle with no taken branch, LPCNT of 2 or more at LPEXIT loops back, 1 ends the loop, and elsewhere fetch
goes on in sequence. -/
def Obligations.LoopStep : Prop :=
  ∀ (c : Core) (nxt : Addr),
    (2 ≤ c.regs.lpcnt.toNat → nxt = c.regs.lpexit →
      c.loopStep nxt = { c with regs := { c.regs with lpcnt := c.regs.lpcnt - 1#64, pc := c.regs.lpbeg } }) ∧
    (c.regs.lpcnt = 1#64 → nxt = c.regs.lpexit → c.loopStep nxt = { c with regs := { c.regs with lpcnt := 0#64, pc := nxt } }) ∧
    (c.regs.lpcnt = 0#64 ∨ nxt ≠ c.regs.lpexit → c.loopStep nxt = { c with regs := { c.regs with pc := nxt } })

/-- 02 R53: a bundle that issues with nothing in flight, no watch and no BAR.ln of an earlier cycle goes on at its branch's target, or in sequence outside a loop; it owes
its STALL ticks, its WAIT counter falls by one, and a cycle has passed. -/
def Obligations.BundleCloses : Prop :=
  ∀ s : State, s.core.pend = [] → s.core.watches = [] → s.core.tcd = [] → s.core.fwm = false → s.core.regs.lpcnt = 0#64 →
    (∀ a ∈ s.core.arrivals, a.scope = 0 → a.new = true) →
    let c := (closeBundle s).core
    c.regs.pc = s.issue.redirect.getD (s.core.regs.pc + BitVec.ofNat 56 s.issue.len) ∧
    c.stallrem = s.issue.stall.toNat ∧ c.cycle = s.core.cycle + 1#64 ∧ c.regs.s = s.core.regs.s ∧ c.regs.v = s.core.regs.v ∧
    (∀ i : BitVec 4, i ≠ 0#4 →
      (c.tc i).toNat = if s.issue.wait = i then (s.core.tc i).toNat - 1 else (s.core.tc i).toNat) ∧
    (closeBundle s).issue.stop = some .closed

/-! Scalar instructions (03). Every result waits for its latency: `lands` puts it on its way and changes nothing else. -/

/-- 03 R68: the two-operand and one-operand results of latency 1 of group 0x0. CMP uses the condition codes of R70, BFX and
BFI the descriptor of R71. -/
def Obligations.ScalarAluResults : Prop :=
  ∀ (s : State) (d a b : Reg) (m : BitVec 4), unclaimed 1 (.s d 0#64) s →
    let x := sreg s a
    let y := sreg s b
    let sh := (y.extractLsb' 0 6).toNat
    exec (.add d a b) s = lands 1 (.s d (x + y)) s ∧
    exec (.sub d a b) s = lands 1 (.s d (x - y)) s ∧
    exec (.and d a b) s = lands 1 (.s d (x &&& y)) s ∧
    exec (.or d a b) s = lands 1 (.s d (x ||| y)) s ∧
    exec (.xor d a b) s = lands 1 (.s d (x ^^^ y)) s ∧
    exec (.andn d a b) s = lands 1 (.s d (x &&& ~~~y)) s ∧
    exec (.shl d a b) s = lands 1 (.s d (x <<< sh)) s ∧
    exec (.shr d a b) s = lands 1 (.s d (x >>> sh)) s ∧
    exec (.sra d a b) s = lands 1 (.s d (x.sshiftRight sh)) s ∧
    exec (.rol d a b) s = lands 1 (.s d (x.rotateLeft sh)) s ∧
    exec (.min d a b) s = lands 1 (.s d (if x.toInt < y.toInt then x else y)) s ∧
    exec (.max d a b) s = lands 1 (.s d (if x.toInt < y.toInt then y else x)) s ∧
    exec (.minu d a b) s = lands 1 (.s d (if x.toNat < y.toNat then x else y)) s ∧
    exec (.maxu d a b) s = lands 1 (.s d (if x.toNat < y.toNat then y else x)) s ∧
    exec (.cmp d a b m) s = lands 1 (.s d (bit64 (Sys2Proof.Machine.cond m x y))) s ∧
    exec (.sel d a b) s = lands 1 (.s d (if sreg s d = 0#64 then y else x)) s ∧
    exec (.clz d a) s = lands 1 (.s d (BitVec.ofNat 64 (clzBits x.toNat 64))) s ∧
    exec (.ctz d a) s = lands 1 (.s d (BitVec.ofNat 64 (ctzBits x.toNat 64))) s ∧
    exec (.popc d a) s = lands 1 (.s d (BitVec.ofNat 64 (popBits x.toNat 64))) s ∧
    exec (.bfx d a b m) s = lands 1 (.s d (bitField (m == 1#4) x y)) s ∧
    exec (.bfi d a b) s = lands 1 (.s d (bitInsert (sreg s d) x y)) s ∧
    exec (.addx d a b m) s = lands 1 (.s d (x + (y <<< m.toNat))) s ∧
    exec (.mov d a) s = lands 1 (.s d x) s

/-- 03 R70: what the conditions of CMP say of the two operands; codes 6 to 15 raise ILLEGAL_OP. -/
def Obligations.CompareConditions : Prop :=
  ∀ a b : W64,
    (Sys2Proof.Machine.cond 0#4 a b = true ↔ a = b) ∧ (Sys2Proof.Machine.cond 1#4 a b = true ↔ a ≠ b) ∧ (Sys2Proof.Machine.cond 2#4 a b = true ↔ a.toInt < b.toInt) ∧
    (Sys2Proof.Machine.cond 3#4 a b = true ↔ b.toInt ≤ a.toInt) ∧ (Sys2Proof.Machine.cond 4#4 a b = true ↔ a.toNat < b.toNat) ∧
    (Sys2Proof.Machine.cond 5#4 a b = true ↔ b.toNat ≤ a.toNat) ∧
    (∀ (d x y : Reg) (m : BitVec 4) (fwm : Bool) (litc slot : Nat) (w : Word), 5#4 < m → slot < 2 → encode (.cmp d x y m) = some w →
      slotFault fwm litc slot w = some .illegalOp)

/-- 03 R72: SEXT and ZEXT by width code: the value is that of the low n bits, signed or unsigned; codes 5 to 15 raise
ILLEGAL_OP. -/
def Obligations.ExtensionResults : Prop :=
  ∀ (s : State) (d a : Reg) (m : BitVec 4) (n : Nat), unclaimed 1 (.s d 0#64) s →
    (m, n) ∈ [(0#4, 8), (1#4, 16), (2#4, 24), (3#4, 32), (4#4, 48)] →
    exec (.sext d a m) s = lands 1 (.s d (((sreg s a).truncate n).signExtend 64)) s ∧
    exec (.zext d a m) s = lands 1 (.s d (((sreg s a).truncate n).zeroExtend 64)) s ∧
    (∀ (k : BitVec 4) (fwm : Bool) (litc slot : Nat) (w : Word), 4#4 < k → slot < 2 →
      encode (.sext d a k) = some w ∨ encode (.zext d a k) = some w → slotFault fwm litc slot w = some .illegalOp)

/-- 03 R68, R69: multiplier results after 3 ticks, divider results after 20; the divider is then busy for 20 ticks, and a
division that finds it busy raises UNIT_BUSY. A zero divisor gives all ones, or the dividend as remainder. -/
def Obligations.MultiplyDivideResults : Prop :=
  ∀ (s : State) (d a b : Reg) (imm : BitVec 12),
    let x := sreg s a
    let y := sreg s b
    let divided (v : W64) : Out :=
      .next (let t := launchResult { rem := 20, put := .s d v } s
             { t with core := { t.core with divrem := 20 }, issue := { t.issue with divClaim := true } })
    (unclaimed 3 (.s d 0#64) s →
      exec (.mul d a b) s = lands 3 (.s d (x * y)) s ∧
      exec (.mulh d a b) s = lands 3 (.s d (BitVec.ofInt 64 (x.toInt * y.toInt / 2 ^ 64))) s ∧
      exec (.mulhu d a b) s = lands 3 (.s d (BitVec.ofNat 64 (x.toNat * y.toNat / 2 ^ 64))) s ∧
      exec (.muli d a imm) s = lands 3 (.s d (x * imm.signExtend 64)) s) ∧
    (unclaimed 20 (.s d 0#64) s → s.core.divrem = 0 → s.issue.divClaim = false →
      exec (.div d a b) s = divided (if y = 0#64 then BitVec.allOnes 64 else BitVec.ofInt 64 (x.toInt.tdiv y.toInt)) ∧
      exec (.divu d a b) s = divided (if y = 0#64 then BitVec.allOnes 64 else BitVec.ofNat 64 (x.toNat / y.toNat)) ∧
      exec (.rem d a b) s = divided (if y = 0#64 then x else BitVec.ofInt 64 (x.toInt.tmod y.toInt)) ∧
      exec (.remu d a b) s = divided (if y = 0#64 then x else BitVec.ofNat 64 (x.toNat % y.toNat))) ∧
    (s.issue.commit = false → s.core.divrem ≠ 0 ∨ s.issue.divClaim = true →
      exec (.div d a b) s = .next (raise .unitBusy s) ∧ exec (.divu d a b) s = .next (raise .unitBusy s) ∧
      exec (.rem d a b) s = .next (raise .unitBusy s) ∧ exec (.remu d a b) s = .next (raise .unitBusy s))

/-- 03 R73, R74: the immediates, sign-extended, and the literals of the bundle. -/
def Obligations.ImmediateResults : Prop :=
  ∀ (s : State) (d a : Reg) (imm : BitVec 12) (sh : BitVec 6) (i : BitVec 2), unclaimed 1 (.s d 0#64) s →
    let x := sreg s a
    let v : W64 := imm.signExtend 64
    let l := s.issue.lits.getD i.toNat 0#32
    exec (.addi d a imm) s = lands 1 (.s d (x + v)) s ∧
    exec (.andi d a imm) s = lands 1 (.s d (x &&& v)) s ∧
    exec (.ori d a imm) s = lands 1 (.s d (x ||| v)) s ∧
    exec (.xori d a imm) s = lands 1 (.s d (x ^^^ v)) s ∧
    exec (.shli d a sh) s = lands 1 (.s d (x <<< sh.toNat)) s ∧
    exec (.shri d a sh) s = lands 1 (.s d (x >>> sh.toNat)) s ∧
    exec (.srai d a sh) s = lands 1 (.s d (x.sshiftRight sh.toNat)) s ∧
    exec (.cmpi d a imm) s =
      lands 1 (.s d (if x = v then 0#64 else if x.toInt < v.toInt then BitVec.allOnes 64 else 1#64)) s ∧
    exec (.lit d a i 0#10) s = lands 1 (.s d (l.signExtend 64)) s ∧
    exec (.lit d a i 1#10) s = lands 1 (.s d (l.zeroExtend 64)) s ∧
    exec (.lit d a i 2#10) s = lands 1 (.s d (l ++ x.extractLsb' 0 32)) s ∧
    exec (.lit64 d i) s = lands 1 (.s d (s.issue.lits.getD (i.toNat + 1) 0#32 ++ l)) s

/-- 03 R75, R76, 02 R48: the branches set the address of the next bundle, at the bundle plus four times the offset, where
their condition holds, and otherwise change nothing; JAL links the address after its bundle; JR takes the low 56 bits of its
register. LOOP and LOOPI set the loop's three registers, at the end of the tick, from the address after the bundle, the exit and
the count, and branch to the exit on a count of 0; an exit that leaves the body no bundle raises ILLEGAL_OP. -/
def Obligations.BranchAndLoopResults : Prop :=
  ∀ (s : State) (a : Reg) (k : KReg) (off : BitVec 17),
    let x : Addr := s.core.regs.pc + (off.signExtend 56 <<< 2)
    let taken (t : State) (y : Addr) : State := { t with issue := { t.issue with redirect := some y } }
    exec (.br off) s = .next (taken s x) ∧
    exec (.brz a off) s = .next (if sreg s a = 0#64 then taken s x else s) ∧
    exec (.brnz a off) s = .next (if sreg s a = 0#64 then s else taken s x) ∧
    exec (.brany k off) s = .next (if kreg s k = 0#64 then s else taken s x) ∧
    exec (.brnone k off) s = .next (if kreg s k = 0#64 then taken s x else s) ∧
    exec (.jr a) s = .next (taken s ((sreg s a).extractLsb' 0 56)) ∧
    (unclaimed 1 (.s a 0#64) s →
      exec (.jal a off) s = .next (taken (launchResult
        { rem := 1, put := .s a ((s.core.regs.pc + BitVec.ofNat 56 s.issue.len).zeroExtend 64) } s) x)) ∧
    (unclaimed 1 (.loop 0#56 0#56 0#64) s →
      let nxt : Addr := s.core.regs.pc + BitVec.ofNat 56 s.issue.len
      let set (cnt : W64) : State :=
        let u := launchResult { rem := 1, put := .loop nxt x cnt } s
        if cnt = 0#64 then taken u x else u
      (nxt < x → exec (.loop a off) s = .next (set (sreg s a)) ∧
        exec (.loopi a off) s = .next (set (if a = 0#5 then 32#64 else a.zeroExtend 64))) ∧
      (x ≤ nxt → s.issue.commit = false →
        exec (.loop a off) s = .next (raise .illegalOp s) ∧ exec (.loopi a off) s = .next (raise .illegalOp s)))

/-- 02 R40, R53: a header-only bundle closes with its STALL ticks owed, unless its WAIT counter reads zero; then it is held. -/
def Obligations.HeaderOnlyBundles : Prop :=
  ∀ (s : State) (w st : BitVec 4), s.issue.commit = false →
    let s1 : State := { s with issue := { s.issue with wait := w, stall := st } }
    let s2 : State := { s with issue := { s.issue with wait := w, stall := 0#4 } }
    (w = 0#4 ∨ s.core.tc w ≠ 0#16 →
      exec (.nop w st) s = .next (closeBundle s1) ∧ exec (.waitPoint w) s = .next (closeBundle s2)) ∧
    (w ≠ 0#4 → s.core.tc w = 0#16 → exec (.nop w st) s = .next (hold 0 s1) ∧ exec (.waitPoint w) s = .next (hold 0 s2))

/-- 03 R78: the mask instructions, all of latency 1. -/
def Obligations.MaskResults : Prop :=
  ∀ (s : State) (d a b : KReg) (r q : Reg),
    (unclaimed 1 (.k d 0#64) s →
      exec (.kand d a b) s = lands 1 (.k d (kreg s a &&& kreg s b)) s ∧
      exec (.kor d a b) s = lands 1 (.k d (kreg s a ||| kreg s b)) s ∧
      exec (.kxor d a b) s = lands 1 (.k d (kreg s a ^^^ kreg s b)) s ∧
      exec (.kandn d a b) s = lands 1 (.k d (kreg s a &&& ~~~(kreg s b))) s ∧
      exec (.knot d a) s = lands 1 (.k d (~~~(kreg s a))) s ∧
      exec (.kmov d a) s = lands 1 (.k d (kreg s a)) s ∧
      exec (.ksetn d q 0#4) s = lands 1 (.k d (BitVec.ofNat 64 (2 ^ min (sreg s q).toNat 64 - 1))) s ∧
      exec (.ksetn d q 1#4) s = lands 1 (.k d (sreg s q)) s) ∧
    (unclaimed 1 (.s r 0#64) s →
      exec (.ktos r a) s = lands 1 (.s r (kreg s a)) s ∧
      exec (.kpopc r a) s = lands 1 (.s r (BitVec.ofNat 64 (popBits (kreg s a).toNat 64))) s ∧
      exec (.kfirst r a) s = lands 1 (.s r (BitVec.ofNat 64 (ctzBits (kreg s a).toNat 64))) s)

/-- 03 R79, R80: the name instructions, all of latency 1; a field of a name is read, replaced or added to alone. -/
def Obligations.NameRegisterResults : Prop :=
  ∀ (s : State) (d a b : NReg) (r q : Reg) (m : BitVec 4),
    (unclaimed 1 (.n d 0#96) s →
      exec (.nmk d r q) s = lands 1 (.n d (s.core.region.extractLsb' 0 12 ++ (sreg s r).extractLsb' 0 20
        ++ (sreg s q).extractLsb' 0 40 ++ (sreg s r).extractLsb' 24 24)) s ∧
      exec (.nset d r m) s = lands 1 (.n d (nameSet m (nreg s d) (sreg s r).toNat)) s ∧
      exec (.nadd d a r m) s = lands 1 (.n d (nameSet m (nreg s a) (nameGet m (nreg s a) + (sreg s r).toNat))) s ∧
      exec (.nmov d a) s = lands 1 (.n d (nreg s a)) s) ∧
    (unclaimed 1 (.s r 0#64) s →
      exec (.nget r a m) s = lands 1 (.s r (BitVec.ofNat 64 (nameGet m (nreg s a)))) s ∧
      exec (.ncmp r a b 0#4) s = lands 1 (.s r (bit64 (nreg s a == nreg s b))) s ∧
      exec (.ncmp r a b 1#4) s = lands 1 (.s r (bit64 ((nreg s a).extractLsb' 24 72 == (nreg s b).extractLsb' 24 72))) s ∧
      exec (.ncmp r a b 2#4) s = lands 1 (.s r (((nreg s a).extractLsb' 0 24 - (nreg s b).extractLsb' 0 24).signExtend 64)) s)

/-! Vector instructions (05). -/

/-- 05 R117, R118: an element-wise result has the format as its tag, zero scales, in each active element the computed code and
in every other element the old bits; the flags of the active elements are ORed, and no other flag is. -/
def Obligations.ElementwiseByElement : Prop :=
  ∀ (m : BitVec 4) (k : W64) (old : VReg) (f : Nat → Nat × Flags), m.toNat ≤ 12 →
    (elementwise m k old f).1.tag = m ∧ (elementwise m k old f).1.scale = 0#64 ∧
    (∀ e, e < nelem m → slice (elementwise m k old f).1.data.toNat (regWidth m) e =
      if active k (regWidth m) e then (f e).1 % 2 ^ regWidth m else slice old.data.toNat (regWidth m) e) ∧
    (∀ i, i < 5 → ((elementwise m k old f).2.getLsbD i = true ↔
      ∃ e, e < nelem m ∧ active k (regWidth m) e = true ∧ (f e).2.getLsbD i = true))

/-- 05 R114, R118: a result that is merged under a predicate takes the new lanes where the predicate's bit is set and keeps the old
ones, unless its tag is MX; then whole blocks of eight lanes, with their scales, are written where any of their bits is set. That the padding
of the blocks left unwritten is zeroed too is the model's reading of R114 (log 18). -/
def Obligations.MergeByLane : Prop :=
  ∀ (k : W64) (old new : VReg),
    (merge k old new).tag = new.tag ∧
    (isMx new.tag = false → (merge k old new).scale = new.scale ∧
      ∀ l, l < 64 → lane (merge k old new) l = if k.getLsbD l then lane new l else lane old l) ∧
    (isMx new.tag = true → ∀ i, i < 8 →
      slice (merge k old new).data.toNat 256 i = slice (unpad new.tag (if blockOn k i then new.data else old.data)).toNat 256 i ∧
      slice (merge k old new).scale.toNat 8 i = if blockOn k i then slice new.scale.toNat 8 i else slice old.scale.toNat 8 i)

/-- 05 R120, R124, R126: arithmetic on two registers whose tags the format admits: exact in class F and then rounded once in
the firing's mode, wrapping in class I; 3 ticks in class F, 2 in class I, 4 where the old destination is an operand too. -/
def Obligations.VectorArithmeticResults : Prop :=
  ∀ (s : State) (d a b : Reg) (k : KReg) (m : BitVec 4),
    let va := vreg s a
    let vb := vreg s b
    let vd := vreg s d
    let w := regWidth m
    let lat := if isF m then 3 else 2
    let res (n : Nat) (ff : Nat → Nat × Flags) (fi : Nat → Int) : Out :=
      let r := elementwise m (kreg s k) vd fun e => if isF m then ff e else (codeOf w (fi e), 0#5)
      landsWith n (.v d r.1) r.2 s
    let x (e : Nat) : Exact := opndX va m e
    let y (e : Nat) : Exact := opndX vb m e
    let z (e : Nat) : Exact := opndX vd m e
    let i (e : Nat) : Int := opndI va m e
    let j (e : Nat) : Int := opndI vb m e
    let l (e : Nat) : Int := opndI vd m e
    (tagOk m va.tag = true → unclaimed lat (.v d {}) s →
      exec (.vabs d a k m) s = res lat (fun e => roundTo 0 m ((x e).abs, 0#5)) (fun e => (i e).natAbs) ∧
      exec (.vneg d a k m) s = res lat (fun e => roundTo 0 m ((x e).negate, 0#5)) (fun e => -(i e))) ∧
    (tagOk m va.tag = true → tagOk m vb.tag = true → unclaimed lat (.v d {}) s →
      exec (.vadd d a b k m) s = res lat (fun e => roundTo (rmode s) m ((x e).add (rmode s) (y e))) (fun e => i e + j e) ∧
      exec (.vsub d a b k m) s = res lat (fun e => roundTo (rmode s) m ((x e).add (rmode s) (y e).negate)) (fun e => i e - j e) ∧
      exec (.vmul d a b k m) s = res lat (fun e => roundTo (rmode s) m ((x e).mul (y e))) (fun e => i e * j e) ∧
      exec (.vmin d a b k m) s = res lat (fun e => roundTo 0 m (minX (x e) (y e), 0#5)) (fun e => min (i e) (j e)) ∧
      exec (.vmax d a b k m) s = res lat (fun e => roundTo 0 m (maxX (x e) (y e), 0#5)) (fun e => max (i e) (j e)) ∧
      exec (.vsat d a b k m) s = res lat (fun e => roundTo (rmode s) m ((x e).add (rmode s) (y e)) true)
        (fun e => max (-(2 ^ (w - 1) : Nat) : Int) (min (i e + j e) ((2 ^ (w - 1) : Nat) - 1)))) ∧
    (tagOk m va.tag = true → tagOk m vb.tag = true → tagOk m vd.tag = true → unclaimed 4 (.v d {}) s →
      exec (.vfma d a b k m) s = res 4 (fun e => roundTo (rmode s) m (Exact.fma (rmode s) (x e) (y e) (z e)))
        (fun e => i e * j e + l e) ∧
      exec (.vfms d a b k m) s = res 4 (fun e => roundTo (rmode s) m (Exact.fma (rmode s) (x e).negate (y e) (z e)))
        (fun e => l e - i e * j e)) ∧
    (m ≠ 12#4 → tagOk m va.tag = true → tagOk m vb.tag = true → tagOk 3#4 vd.tag = true → unclaimed 4 (.v d {}) s →
      let r := elementwise 3#4 (kreg s k) vd fun e =>
        roundTo (rmode s) 3#4 (dot2 (rmode s) (x (2 * e)) (y (2 * e)) (x (2 * e + 1)) (y (2 * e + 1)) (opndX vd 3#4 e))
      exec (.vdot2 d a b k m) s = landsWith 4 (.v d r.1) r.2 s)

/-- 05 R123, R126: the integer instructions: shifts by the element modulo the width, leading zeros, ones, the high half of the
product, and the dot products into 32-bit lanes. Formats here are class I, but for VDOT2. -/
def Obligations.VectorIntegerResults : Prop :=
  ∀ (s : State) (d a b : Reg) (k : KReg) (m : BitVec 4), isF m = false →
    let va := vreg s a
    let vb := vreg s b
    let vd := vreg s d
    let w := regWidth m
    let res (n : Nat) (t : BitVec 4) (f : Nat → Int) : Out :=
      let r := elementwise t (kreg s k) vd fun e => (codeOf (regWidth t) (f e), 0#5)
      landsWith n (.v d r.1) r.2 s
    let i (e : Nat) : Int := opndI va m e
    let c (e : Nat) : Nat := codeOf w (opndI vb m e) % w
    (tagOk m va.tag = true → unclaimed 2 (.v d {}) s →
      exec (.vclz d a k m) s = res 2 m (fun e => (clzBits (codeOf w (i e)) w : Nat)) ∧
      exec (.vpopc d a k m) s = res 2 m (fun e => (popBits (codeOf w (i e)) w : Nat))) ∧
    (tagOk m va.tag = true → tagOk m vb.tag = true →
      (unclaimed 2 (.v d {}) s →
        exec (.vshl d a b k m) s = res 2 m (fun e => i e * (2 ^ c e : Nat)) ∧
        exec (.vshr d a b k m) s = res 2 m (fun e => ((codeOf w (i e) / 2 ^ c e : Nat) : Int)) ∧
        exec (.vsra d a b k m) s = res 2 m (fun e => i e / (2 ^ c e : Nat))) ∧
      (unclaimed 3 (.v d {}) s → exec (.vmulh d a b k m) s = res 3 m (fun e => i e * opndI vb m e / (2 ^ w : Nat)))) ∧
    (tagOk 2#4 va.tag = true → tagOk 2#4 vb.tag = true → tagOk 1#4 vd.tag = true → unclaimed 4 (.v d {}) s →
      exec (.vdot4 d a b k) s = res 4 1#4 (fun l => opndI vd 1#4 l + opndI va 2#4 (4 * l) * opndI vb 2#4 (4 * l)
        + opndI va 2#4 (4 * l + 1) * opndI vb 2#4 (4 * l + 1) + opndI va 2#4 (4 * l + 2) * opndI vb 2#4 (4 * l + 2)
        + opndI va 2#4 (4 * l + 3) * opndI vb 2#4 (4 * l + 3))) ∧
    (tagOk 12#4 va.tag = true → tagOk 12#4 vb.tag = true → tagOk 1#4 vd.tag = true → unclaimed 4 (.v d {}) s →
      exec (.vdot2 d a b k 12#4) s = res 4 1#4 (fun l => opndI vd 1#4 l + opndI va 12#4 (2 * l) * opndI vb 12#4 (2 * l)
        + opndI va 12#4 (2 * l + 1) * opndI vb 12#4 (2 * l + 1)))

/-- 05 R114, R125, R126, R129: the bitwise, moving, selecting, comparing and tagging instructions, which take every tag or, in a
comparison, that of their operands' class. That VSEL zeroes the padding of its whole result and that VTAG leaves padding as it stands is the
model's reading of R114 (log 18). -/
def Obligations.VectorMoveResults : Prop :=
  ∀ (s : State) (d a b : Reg) (q : KReg) (r : Reg) (k : KReg) (m : BitVec 4),
    let va := vreg s a
    let vb := vreg s b
    let kk := kreg s k
    let cls : BitVec 4 := if m.getLsbD 3 then 3#4 else 1#4
    (unclaimed 2 (.v d {}) s →
      exec (.vand d a b k) s = lands 2 (.v d (merge kk (vreg s d) { va with data := va.data &&& vb.data })) s ∧
      exec (.vor d a b k) s = lands 2 (.v d (merge kk (vreg s d) { va with data := va.data ||| vb.data })) s ∧
      exec (.vxor d a b k) s = lands 2 (.v d (merge kk (vreg s d) { va with data := va.data ^^^ vb.data })) s ∧
      exec (.vsel d a b k) s =
        lands 2 (.v d { va with data := unpad va.tag ((va.data &&& laneMask kk) ||| (vb.data &&& ~~~(laneMask kk))) }) s ∧
      exec (.vmov d a k) s = lands 2 (.v d (merge kk (vreg s d) va)) s ∧
      exec (.vbcast d a k m) s =
        landsWith 2 (.v d (elementwise m kk (vreg s d) fun _ => ((sreg s a).toNat, 0#5)).1)
          (elementwise m kk (vreg s d) fun _ => ((sreg s a).toNat, 0#5)).2 s ∧
      exec (.vtag d a m) s = lands 2 (.v d { va with tag := m }) s) ∧
    (unclaimed 2 (.s r 0#64) s →
      exec (.vgtag r a 0#4) s = lands 2 (.s r (va.tag.zeroExtend 64)) s ∧ exec (.vgtag r a 1#4) s = lands 2 (.s r va.scale) s) ∧
    (tagOk cls va.tag = true → tagOk cls vb.tag = true → unclaimed (if m.getLsbD 3 then 3 else 2) (.k q 0#64) s →
      ∃ x : W64, exec (.vcmp q a b k m) s = lands (if m.getLsbD 3 then 3 else 2) (.k q x) s ∧
        ∀ l, l < 64 → x.getLsbD l = (kk.getLsbD l && vcond m va vb l))

/-- 05 R114, R127, R128: conversions between formats, and quantization to and from MX. That a VCVT between equal float formats makes a NaN
canonical is the model's reading (log 61), and so is that VSCL zeroes padding, by R114, where R128 says that d is a (log 18). -/
def Obligations.VectorConversionResults : Prop :=
  ∀ (s : State) (d a b : Reg) (k : KReg) (m : BitVec 4), unclaimed 4 (.v d {}) s →
    let va := vreg s a
    let old := vreg s d
    let block (h : Nat) : MxBlock := quantizeMx m ((List.range 32).map fun j => opndX va 3#4 (32 * h + j))
    (isF va.tag = true ∨ va.tag = 1#4 ∨ va.tag = 2#4 ∨ va.tag = 12#4 →
      let r := first64 m (kreg s k) old fun j =>
        cvtElem va.tag m s.core.regs.fpmode.toNat (lane (vreg s b) j) (elemCode va va.tag j)
      exec (.vcvt d a b k m) s = landsWith 4 (.v d r.1) r.2 s) ∧
    (tagOk 3#4 va.tag = true →
      let q : VReg := ⟨m, BitVec.ofNat 64 ((block 0).scale + 256 * (block 1).scale), packV 8 ((block 0).e ++ (block 1).e)⟩
      exec (.vqmx d a m) s = landsWith 4 (.v d q) ((block 0).fl ||| (block 1).fl) s) ∧
    (isMx va.tag = true →
      let r := first64 3#4 (kreg s k) old fun j =>
        dequantizeMx va.tag (scaleOf va (2 * m.toNat + j / 32)) (elemCode va va.tag (64 * m.toNat + j))
      exec (.vdqmx d a k m) s = landsWith 4 (.v d r.1) r.2 s ∧
      (∃ t : BitVec 64, exec (.vscl d a b m) s = lands 4 (.v d { va with data := unpad va.tag va.data, scale := t }) s ∧
        (m = 0#4 → t = sreg s b) ∧
        ∀ i, i < 8 → m = 1#4 → slice t.toNat 8 i =
          if scaleOf va i = 0xFF then 0xFF
          else (max 0 (min 0xFE ((scaleOf va i : Int) + ((sreg s b).extractLsb' 0 8).toInt))).toNat))

/-- 05 R114, R130: the permutes, which keep the first operand's tag and scales; lanes come from `f l` under the predicate. What VPACK takes as the
elements of a CXP register is the model's choice (log 62); that VINS, VCMPRS, VEXPND, VPACK and VUNPK zero the padding of the whole register,
lanes that they do not write included, is its reading of R114 (log 18). -/
def Obligations.VectorPermuteResults : Prop :=
  ∀ (s : State) (d a b : Reg) (r : Reg) (k : KReg) (m : BitVec 4),
    let va := vreg s a
    let vb := vreg s b
    let kk := kreg s k
    let perm (f : Nat → Nat) : Out :=
      lands 2 (.v d (merge kk (vreg s d) { va with data := packV 32 ((List.range 64).map f) })) s
    let byte (v : VReg) (j : Nat) : Nat := slice v.data.toNat 8 j
    let e := 64 * m.toNat
    let w := regWidth va.tag
    (unclaimed 2 (.v d {}) s →
      exec (.vperm d a b k) s = perm (fun l => lane va (lane vb l % 64)) ∧
      exec (.vshuf d a b k) s =
        lands 2 (.v d (merge kk (vreg s d) { va with data := packV 8 ((List.range 256).map fun j => byte va (byte vb j)) })) s ∧
      exec (.vrot d a b k) s = perm (fun l => lane va ((l + (sreg s b).toNat) % 64)) ∧
      exec (.vslide d a b k m) s = perm (fun l => if l + m.toNat < 64 then lane va (l + m.toNat) else lane vb (l + m.toNat - 64)) ∧
      exec (.vcmprs d a k) s = lands 2 (.v d { va with data := unpad va.tag (packV 32 ((selected kk).map (lane va))) }) s ∧
      exec (.vexpnd d a k) s = lands 2 (.v d { va with data := unpad va.tag (packV 32 ((List.range 64).map fun l =>
        if kk.getLsbD l then lane va (popBits kk.toNat l) else 0)) }) s ∧
      exec (.viota d a k) s = lands 2 (.v d { tag := 1#4, data := packV 32 ((List.range 64).map fun l =>
        (sreg s a).toNat + popBits kk.toNat l) }) s ∧
      exec (.vins d a b) s = lands 2 (.v d { vreg s d with data := unpad (vreg s d).tag (packV 32 ((List.range 64).map fun l =>
        if l = (sreg s b).toNat % 64 then (sreg s a).toNat else lane (vreg s d) l)) }) s ∧
      (vb.tag = va.tag ∨ vb.tag = 0#4 → m.toNat < nelem va.tag / 64 →
        exec (.vpack d a b m) s = lands 2 (.v d ⟨va.tag, BitVec.ofNat 64 (pack 8 ((List.range 8).map fun i =>
            if isMx va.tag = true ∧ (i = 2 * m.toNat ∨ i = 2 * m.toNat + 1) then scaleOf vb (i - 2 * m.toNat) else scaleOf va i)),
          unpad va.tag (packV w ((List.range (nelem va.tag)).map fun x =>
            if e ≤ x ∧ x < e + 64 then slice vb.data.toNat w (x - e) else slice va.data.toNat w x))⟩) s) ∧
      (m.toNat < nelem va.tag / 64 → va.tag ≠ 13#4 →
        exec (.vunpk d a m) s =
          lands 2 (.v d ⟨va.tag, if isMx va.tag = true then BitVec.ofNat 64 (scaleOf va (2 * m.toNat) + 256 * scaleOf va (2 * m.toNat + 1))
            else va.scale, unpad va.tag (packV w ((List.range 64).map fun x => slice va.data.toNat w (e + x)))⟩) s)) ∧
    (unclaimed 2 (.s r 0#64) s →
      exec (.vextr r a b 0#4) s = lands 2 (.s r (BitVec.ofNat 64 (lane va ((sreg s b).toNat % 64)))) s ∧
      exec (.vextr r a b 1#4) s =
        lands 2 (.s r ((BitVec.ofNat 32 (lane va ((sreg s b).toNat % 64))).signExtend 64)) s)

/-- 05 R131 to R137: reductions, sorting, histograms, random words, table look-up and the Mangle in the vector unit. -/
def Obligations.VectorReductionResults : Prop :=
  ∀ (s : State) (d a b : Reg) (k : KReg) (m : BitVec 4),
    let va := vreg s a
    let vb := vreg s b
    let kk := kreg s k
    let act := (List.range 64).filter fun l => kk.getLsbD l
    let lanes := (List.range 64).map (laneVal va m kk)
    let pairs (l : List KeyIdx) : Put :=
      .vv d { tag := m, data := packV 32 ((padTo 64 (fillerPair m) l).map Prod.fst) }
        { tag := 1#4, data := packV 32 ((padTo 64 (fillerPair m) l).map Prod.snd) }
    (tagOk m va.tag = true → unclaimed 5 (.s d 0#64) s →
      exec (.vredadd d a k m) s = landsWith 5 (.s d (redScalar m ((treeSum (rmode s) m lanes).getD (0, 0#5)).1))
        ((treeSum (rmode s) m lanes).getD (0, 0#5)).2 s ∧
      exec (.vredmin d a k m) s = lands 5 (.s d (redScalar m (redPick false m va kk))) s ∧
      exec (.vredmax d a k m) s = lands 5 (.s d (redScalar m (redPick true m va kk))) s ∧
      exec (.vargmx d a k m) s = lands 5 (.s d (BitVec.ofNat 64
        (((topkSort m (act.map fun l => (keyCode va m l, l))).head?.map Prod.snd).getD 64))) s) ∧
    (tagOk m va.tag = true → unclaimed 6 (.v d {}) s →
      let rs := scanLanes (rmode s) m (vreg s d) none ((List.range 64).map fun l => (l, laneVal va m kk l))
      exec (.vscan d a k m) s =
        landsWith 6 (.v d { tag := m, data := packV 32 (rs.map Prod.fst) }) (rs.foldl (fun f p => f ||| p.2) 0#5) s) ∧
    (tagOk m va.tag = true → tagOk 1#4 (vreg s (a + 1#5)).tag = true → unclaimed 8 (.vv d {} {}) s →
      exec (.vsorts d a k m) s = lands 8 (pairs (topkSort m (act.map (pairLane s a m)))) s ∧
      (tagOk m vb.tag = true → tagOk 1#4 (vreg s (b + 1#5)).tag = true →
        exec (.vtopk d a b k m) s =
          lands 8 (pairs (topkSort m (act.map (pairLane s a m) ++ (List.range 64).map (pairLane s b m)))) s)) ∧
    (unclaimed 3 (.v d {}) s →
      (let r := elementwise 0#4 kk (vreg s d) fun l =>
        ((vrandWord (sreg s a) (BitVec.ofNat 64 (lane vb l))).toNat, 0#5)
       exec (.vrand d a b k) s = landsWith 3 (.v d r.1) r.2 s) ∧
      (vb.tag = 12#4 ∨ vb.tag = 4#4 ∨ vb.tag = 5#4 →
        let r := elementwise 12#4 kk (vreg s d) fun e =>
          (slice vb.data.toNat 16 (slice va.data.toNat 16 e % 128), 0#5)
        exec (.vlut d a b k) s = lands 3 (.v d { r.1 with tag := vb.tag }) s)) ∧
    (isF va.tag = true ∨ va.tag = 0#4 →
      exec (.vhistx d a k 0#4) s = .next (launchResult
        { rem := 6, put := .none, hist := binCounts 32 ((activeVals va kk).filterMap expBin) } s)) ∧
    (tagOk 1#4 va.tag = true → unclaimed 6 (.v d {}) s →
      exec (.vhistx d a k 1#4) s = lands 6 (.v d { tag := 1#4, data := packV 32 ((List.range 64).map fun (j : Nat) =>
        (act.map fun l => opndI va 1#4 l).countP (· == (j : Int))) }) s) ∧
    (let base := if m = 0#4 then cxpOfReg vb else M320.empty
     isF va.tag = true ∨ va.tag = 0#4 → (m = 0#4 → vb.tag = 13#4) →
      countOver base.count.toNat (activeVals va kk).length = false → unclaimed 6 (.v d {}) s →
      exec (.vredx d a b k m) s = lands 6 (.v d (regOfCxp ((activeVals va kk).foldl M320.add base))) s) ∧
    (va.tag = 13#4 → unclaimed 6 (.s d 0#64) s →
      exec (.vrndx d a m) s = landsWith 6 (.s d (BitVec.ofNat 64 ((cxpOfReg va).round (fmtF m)).1)) ((cxpOfReg va).round (fmtF m)).2 s)

/-- 05 R138 to R141: the special functions act on each active element. FSQRT and FDIV round the exact value in the firing's
mode. The others answer the special inputs and exact points of R140, with their flags, and elsewhere a code within R139's bound about the value
that the model computes in fixed point, which of them being free (log 8, the model's choice); a result that exceeds the largest finite value
is infinite with OF and NX. -/
def Obligations.SpecialFunctionResults : Prop :=
  (∀ (m : BitVec 4) (c : Nat), m = 3#4 ∨ m = 4#4 ∨ m = 5#4 →
    let f := fmtF m
    let one := f.bias * 2 ^ f.mb
    let ovf (s : Bool) : Nat × Flags := (infCode f s, flOF ||| flNX)
    let nan (fl : Flags) : Nat × Flags := (canonNan f, fl)
    let zero (s : Bool) : Nat × Flags := (signCode f s, 0#5)
    let unit (s : Bool) : Nat × Flags := (one + signCode f s, 0#5)
    let free (k ulps : Nat) (absolute neg : Bool) (y : Nat) (e : Int) : Nat × Flags := approx k m c ulps absolute neg y e
    -- NaN and infinities
    (exp2 m c .nan = nan 0#5 ∧ log2F m c .nan = nan 0#5 ∧ rcp m c .nan = nan 0#5 ∧ rsq m c .nan = nan 0#5 ∧
      oddUnit 6 fxTanh m c .nan = nan 0#5 ∧ oddUnit 10 fxErf m c .nan = nan 0#5 ∧ sigm m c .nan = nan 0#5 ∧
      sinCos false m c .nan = nan 0#5 ∧ sinCos true m c .nan = nan 0#5 ∧
      Exact.sqrt .nan = (.nan, 0#5) ∧ (∀ x, Exact.div .nan x = (.nan, 0#5) ∧ Exact.div x .nan = (.nan, 0#5))) ∧
    (exp2 m c (.inf false) = (infCode f false, 0#5) ∧ exp2 m c (.inf true) = zero false ∧
      log2F m c (.inf false) = (infCode f false, 0#5) ∧ log2F m c (.inf true) = nan flNV ∧
      (∀ s, rcp m c (.inf s) = zero s) ∧ rsq m c (.inf false) = zero false ∧ rsq m c (.inf true) = nan flNV ∧
      (∀ s, oddUnit 6 fxTanh m c (.inf s) = unit s ∧ oddUnit 10 fxErf m c (.inf s) = unit s) ∧
      sigm m c (.inf false) = unit false ∧ sigm m c (.inf true) = zero false ∧
      (∀ s, sinCos false m c (.inf s) = nan flNV ∧ sinCos true m c (.inf s) = nan flNV) ∧
      Exact.sqrt (.inf false) = (.inf false, 0#5) ∧ Exact.sqrt (.inf true) = (.nan, flNV) ∧
      (∀ s t, Exact.div (.inf s) (.inf t) = (.nan, flNV))) ∧
    -- zeros and negative arguments
    (∀ (s : Bool) (e : Int),
      exp2 m c (.fin s 0 e false) = unit false ∧ log2F m c (.fin s 0 e false) = (infCode f true, flDZ) ∧
      rcp m c (.fin s 0 e false) = (infCode f s, flDZ) ∧ rsq m c (.fin s 0 e false) = (infCode f s, flDZ) ∧
      oddUnit 6 fxTanh m c (.fin s 0 e false) = zero s ∧ oddUnit 10 fxErf m c (.fin s 0 e false) = zero s ∧
      sigm m c (.fin s 0 e false) = (powCode f (-1), 0#5) ∧ Exact.sqrt (.fin s 0 e false) = (.zero s, 0#5) ∧
      (∀ t i, Exact.div (.fin s 0 e false) (.fin t 0 i false) = (.nan, flNV) ∧
        ∀ x, x ≠ 0 → Exact.div (.fin s x e false) (.fin t 0 i false) = (.inf (s != t), flDZ)) ∧
      ∀ x, x ≠ 0 → log2F m c (.fin true x e false) = nan flNV ∧ rsq m c (.fin true x e false) = nan flNV ∧
        Exact.sqrt (.fin true x e false) = (.nan, flNV)) ∧
    -- exact points: integers, powers of two, halves
    (∀ (x i : Nat) (e : Int), asInteger x e = some i ↔ if 0 ≤ e then i = x * 2 ^ e.toNat else x = i * 2 ^ (-e).toNat) ∧
    (∀ (s : Bool) (x i : Nat) (e : Int), asInteger x e = some i →
      let n : Int := if s then -(i : Int) else i
      (powFits f n → exp2 m c (.fin s x e false) = (powCode f n, 0#5)) ∧ ((f.emax : Int) < n → exp2 m c (.fin s x e false) = ovf false)) ∧
    (∀ (s : Bool) (j : Nat) (e : Int), let n := (j : Int) + e
      log2F m c (.fin false (2 ^ j) e false) = ((roundFmt (Exact.ofInt n) f 0 0).1, 0#5) ∧
      (powFits f (-n) → rcp m c (.fin s (2 ^ j) e false) = (powCode f (-n) + signCode f s, 0#5)) ∧
      ((f.emax : Int) < -n → rcp m c (.fin s (2 ^ j) e false) = ovf s) ∧
      (∀ h, n = 2 * h → powFits f (-h) → rsq m c (.fin false (2 ^ j) e false) = (powCode f (-h), 0#5))) ∧
    (∀ (s : Bool) (x h : Nat) (e : Int), asInteger x (e + 1) = some h →
      (h % 2 = 0 → sinCos false m c (.fin s x e false) = zero s ∧ sinCos true m c (.fin s x e false) = unit (h / 2 % 2 == 1)) ∧
      (h % 2 = 1 → sinCos false m c (.fin s x e false) = unit ((if s then (h + 1) / 2 else (h - 1) / 2) % 2 == 1) ∧
        sinCos true m c (.fin s x e false) = zero false)) ∧
    -- elsewhere: within the bound of R139
    (∀ (k ulps : Nat) (absolute neg : Bool) (y : Nat) (e : Int), withinBound f ulps absolute neg y e (free k ulps absolute neg y e) ∧
      (let u : Int := max ((Nat.log2 y : Int) + e) (1 - (f.bias : Int)) - f.mb
       e ≤ u → e ≤ -(f.mb : Int) - 1 →
        boundOf f ulps absolute y e = max (ulps * 2 ^ (u - e).toNat) (if absolute then 2 ^ (-(f.mb : Int) - 1 - e).toNat else 0))) ∧
    (∀ (s : Bool) (x : Nat) (e : Int), x ≠ 0 →
      ((∀ i, asInteger x e = some i → s = true ∧ ¬powFits f (-(i : Int))) → exp2 m c (.fin s x e false) = ovf false ∨ ∃ y i, exp2 m c (.fin s x e false) = free 0 2 false false y i) ∧
      ((∀ j, x ≠ 2 ^ j) →
        (∃ neg y, log2F m c (.fin false x e false) = free 1 2 true neg y (-256)) ∧
        (let p := Nat.log2 x + 256
         rcp m c (.fin s x e false) = ovf s ∨ rcp m c (.fin s x e false) = free 2 1 false s (2 ^ p / x) (-e - p))) ∧
      ((∀ (j : Nat) (h : Int), x = 2 ^ j → (j : Int) + e ≠ 2 * h) → ∃ y i, rsq m c (.fin false x e false) = free 3 1 false false y i) ∧
      (∃ y, 0 < y ∧ y < 2 ^ 256 ∧ oddUnit 6 fxTanh m c (.fin s x e false) = free 6 2 true s y (-256)) ∧
      (∃ y, 0 < y ∧ y < 2 ^ 256 ∧ oddUnit 10 fxErf m c (.fin s x e false) = free 10 2 true s y (-256)) ∧
      (∃ y, (if s then 0 < y ∧ y < 2 ^ 255 else 2 ^ 255 < y ∧ y < 2 ^ 256) ∧ sigm m c (.fin s x e false) = free 7 2 true false y (-256)) ∧
      (asInteger x (e + 1) = none → ∀ cosine, ∃ neg y, 0 < y ∧ y < 2 ^ 256 ∧
        sinCos cosine m c (.fin s x e false) = free (if cosine then 9 else 8) 2 true neg y (-256)))) ∧
  ∀ (s : State) (d a b : Reg) (k : KReg) (m : BitVec 4), tagOk m (vreg s a).tag = true →
    let va := vreg s a
    let each (lat : Nat) (f : Nat → Nat × Flags) : Out :=
      landsWith lat (.v d (elementwise m (kreg s k) (vreg s d) f).1) (elementwise m (kreg s k) (vreg s d) f).2 s
    let x (e : Nat) : Exact := opndX va m e
    let code (e : Nat) : Nat := (roundFmt (x e) (fmtF m) 0 0).1
    (unclaimed 8 (.v d {}) s →
      exec (.fexp2 d a k m) s = each 8 (fun e => exp2 m (code e) (x e)) ∧
      exec (.flog2 d a k m) s = each 8 (fun e => log2F m (code e) (x e)) ∧
      exec (.frcp d a k m) s = each 8 (fun e => rcp m (code e) (x e)) ∧
      exec (.frsq d a k m) s = each 8 (fun e => rsq m (code e) (x e)) ∧
      exec (.ftanh d a k m) s = each 8 (fun e => oddUnit 6 fxTanh m (code e) (x e)) ∧
      exec (.fsigm d a k m) s = each 8 (fun e => sigm m (code e) (x e)) ∧
      exec (.fsin d a k m) s = each 8 (fun e => sinCos false m (code e) (x e)) ∧
      exec (.fcos d a k m) s = each 8 (fun e => sinCos true m (code e) (x e)) ∧
      exec (.ferf d a k m) s = each 8 (fun e => oddUnit 10 fxErf m (code e) (x e))) ∧
    (unclaimed 14 (.v d {}) s →
      exec (.fsqrt d a k m) s = each 14 (fun e => roundTo (rmode s) m (x e).sqrt) ∧
      (tagOk m (vreg s b).tag = true →
        exec (.fdiv d a b k m) s = each 14 (fun e => roundTo (rmode s) m ((x e).div (opndX (vreg s b) m e)))))

/-- 02 R41, R45, R48, R49, R51, R55, 04 R91: faults found before a bundle issues, in their order. BRANCH_TARGET of the branch that led to the
bundle comes first, its value the target; then the header; then slot by slot group 0xB, group 0xF, the slot's groups, the other cases of
ILLEGAL_OP, the literal index and privilege; then a second bundle-ending slot. A step takes the fault at the bundle's address, the value naming
the slot and its word, and changes no register. At issue an operand whose tag the format does not admit raises FORMAT_MISMATCH, and no register is
claimed; a result whose register another fixed-latency result of the same tick claims raises WRITE_COLLISION. That an address which firmware has
made odd is a fault of the header is the model's choice (log 13). -/
def Obligations.IssueFaultsOfResults : Prop :=
  (∀ (fwm : Bool) (litc slot : Nat) (w : Word),
    let g := (w.extractLsb' 28 4).toNat
    let minor := (w.extractLsb' 22 6).toNat
    let accepts : Prop := (slot = 0 ∧ g ∈ [0, 1, 2, 3, 0xD, 0xE]) ∨ (slot = 1 ∧ g ∈ [0, 1, 3, 0xD, 0xE]) ∨ ((slot = 2 ∨ slot = 3) ∧ g ∈ [4, 5, 6]) ∨
      (slot = 4 ∧ (g = 4 ∧ minor ∉ [0x03, 0x04, 0x13, 0x14] ∨ g ∈ [5, 6])) ∨ (slot = 5 ∧ g = 7) ∨
      ((slot = 6 ∨ slot = 7) ∧ g ∈ [9, 0xA, 0xC]) ∨ (slot = 8 ∧ g = 8)
    slot < 9 →
      (g = 0xB → slotFault fwm litc slot w = some .illegalBundle) ∧ (g = 0xF → slotFault fwm litc slot w = some .illegalOp) ∧
      (g ≠ 0xB → g ≠ 0xF → ¬accepts → slotFault fwm litc slot w = some .slotGroup) ∧
      (g ≠ 0xB → g ≠ 0xF → accepts →
        (decodeSlot w = none → slotFault fwm litc slot w = some .illegalOp) ∧
        (∀ d a i x, litc ≤ BitVec.toNat i → decodeSlot w = some (.lit d a i x) → slotFault fwm litc slot w = some .illegalBundle) ∧
        (∀ d i, litc ≤ BitVec.toNat i + 1 → decodeSlot w = some (.lit64 d i) → slotFault fwm litc slot w = some .illegalBundle) ∧
        (∀ i d a, fwm = false → decodeSlot w = some i → i = .haltc a ∨ i = .ctxsv a ∨ i = .ctxld d a →
          slotFault fwm litc slot w = some .privilege) ∧
        (∀ d a b, decodeSlot w = some (.add d a b) → slotFault fwm litc slot w = none))) ∧
  (∀ (fwm : Bool) (pc : Addr) (h : Word) (rest : List Word),
    let litc := (hLitc h).toNat
    let slots := (slotWords (h :: rest)).1
    let sound (p : Nat × Word) : Prop := slotFault fwm litc p.1 p.2 = none
    let ending (p : Nat × Word) : Prop := ∃ i, decodeSlot p.2 = some i ∧ ends i = true
    (headerBad pc h = true ↔ h.extractLsb' 28 4 ≠ 0xB#4 ∨ h.extractLsb' 0 9 ≠ 0#9 ∨ (h.extractLsb' 19 9 = 0#9 ∧ decodeHeaderOnly h = none) ∨
      pc.extractLsb' 0 2 ≠ 0#2) ∧
    (headerBad pc h = true → decodeFault fwm pc (h :: rest) = some (15, h, .illegalBundle)) ∧
    (headerBad pc h = false →
      (∀ pre p post c, slots = pre ++ p :: post → (∀ q ∈ pre, sound q) → slotFault fwm litc p.1 p.2 = some c →
        decodeFault fwm pc (h :: rest) = some (p.1, p.2, c)) ∧
      ((∀ q ∈ slots, sound q) →
        (∀ pre p mid q post, slots = pre ++ p :: mid ++ q :: post → ending p → ending q → (∀ r ∈ pre ++ mid, ¬ending r) →
          decodeFault fwm pc (h :: rest) = some (q.1, q.2, .illegalBundle)) ∧
        (∀ pre p post, slots = pre ++ p :: post → (∀ r ∈ pre ++ post, ¬ending r) → decodeFault fwm pc (h :: rest) = none) ∧
        ((∀ r ∈ slots, ¬ending r) → decodeFault fwm pc (h :: rest) = none)))) ∧
  (∀ s : State, s.agenda = [] → s.core.fwm = false →
    let c := s.core
    let traps (cause : Cause) (pc : Addr) (val : W64) : Prop := ∃ t : State, step s = .next t ∧ t.core.trapcause = cause.code ∧
      t.core.trappc = pc ∧ t.core.trapval = val ∧ t.core.fwm = true ∧ t.core.regs.pc = c.trapvec.extractLsb' 14 42 ++ cause.code ++ 0#8 ∧
      t.core.regs.s = c.regs.s ∧ t.core.regs.k = c.regs.k ∧ t.core.regs.n = c.regs.n ∧ t.core.regs.v = c.regs.v ∧ memorySame s t
    (issuing c = true → ∀ ws n w cause, fetchAt c c.regs.pc = .words ws → decodeFault false c.regs.pc ws = some (n, w, cause) →
      traps cause c.regs.pc (0#28 ++ BitVec.ofNat 4 n ++ w)) ∧
    (∀ b, c.branch = some b → issuing { c with branch := none } = true →
      c.regs.pc.extractLsb' 0 2 ≠ 0#2 ∨ (∃ h rest, fetchAt c c.regs.pc = .words (h :: rest) ∧ h.extractLsb' 28 4 ≠ 0xB#4) →
      traps .branchTarget b (c.regs.pc.zeroExtend 64))) ∧
  ∀ (s : State) (d a b : Reg) (k : KReg) (m : BitVec 4), s.issue.commit = false →
    (tagOk m (vreg s a).tag = false →
      exec (.vadd d a b k m) s = .next (raise .formatMismatch s) ∧ exec (.vmul d a b k m) s = .next (raise .formatMismatch s) ∧
      exec (.vfma d a b k m) s = .next (raise .formatMismatch s) ∧ exec (.vredadd d a k m) s = .next (raise .formatMismatch s) ∧
      exec (.fdiv d a b k m) s = .next (raise .formatMismatch s)) ∧
    (¬unclaimed 1 (.s d 0#64) s → exec (.add d a b) s = .next (raiseWith .writeCollision (slotVal s) s) ∧
      exec (.mov d a) s = .next (raiseWith .writeCollision (slotVal s) s))

/-! The matrix unit (06). -/

/-- 06 R145, R146, R150, R155 to R163: at issue a matrix command whose owner, format and tile checks pass takes the last place
of the queue with its operands, and holds the tile it names. MDRAIN's tile starts to fill, and takes its new tag then, which is the model's
reading (log 63); MRDV reads its row once no queued
command writes the window; MWAIT without a counter passes once the queue is empty. -/
def Obligations.MatrixCommandsEnter : Prop :=
  ∀ (s : State) (w : WReg) (a b d : Reg) (k : KReg) (m : BitVec 4),
    let f := s.core.matFormats
    let i := slotOf (sreg s a)
    let ti := s.core.tile i
    let j := slotOf (sreg s d)
    let r := (sreg s b).toNat % 32
    let enters (c : MatCmd) : Out := .next (s.onCore fun x => x.enqueue c)
    let row := (List.range 64).map fun n => drainCell m (s.core.cell w r n)
    (s.core.matq.length < 16 →
      (owned s 4 → exec .mswap s = enters .mswap) ∧
      (owned s 4 → (sreg s a).extractLsb' 10 54 = 0#54 →
        legalPair ((sreg s a).extractLsb' 0 4) ((sreg s a).extractLsb' 4 4) = true →
        exec (.mmode a) s = enters (.mmode ((sreg s a).extractLsb' 0 10))) ∧
      (owned s w.toNat → exec (.mzero w k) s = enters (.mzero w (kreg s k))) ∧
      (owned s w.toNat → tagOk m (vreg s a).tag = true → exec (.mwrv w a b k m) s = enters (.mwrv w r (kreg s k) m (vreg s a))) ∧
      (owned s w.toNat → owned s 4 → exec (.mtrw w m) s = enters (.mtrw w m)) ∧
      (m ≠ 0#4 → exec (.mwait m) s = enters (.mwait m)) ∧
      (owned s 4 → planeFmt (wfmt f.mode) = true → usable ti 0#2 (64 * rowBytes (wfmt f.mode) false) → ti.tag = wfmt f.mode ∨ ti.tag = 0#4 →
        exec (.mlds a) s = .next (s.onCore fun x => (x.enqueue (.mlds i (wfmt f.mode))).holdTile i)) ∧
      (owned s w.toNat → owned s 4 → legalPair (afmt f.mode) f.wf = true → ti.tag = afmt f.mode ∨ ti.tag = 0#4 → staggerHeld s = false →
        (usable ti 1#2 (32 * rowBytes (afmt f.mode) false) → exec (.mma w a k) s =
          .next (s.onCore fun x => { (x.enqueue (.mma w i (x.k k) false)).holdTile i with matHold := 0 })) ∧
        (sparse f.mode ≠ 0#2 → usable ti 1#2 (32 * rowBytes (afmt f.mode) true) → exec (.mmas w a k) s =
          .next (s.onCore fun x => { (x.enqueue (.mma w i (x.k k) true)).holdTile i with matHold := 0 }))) ∧
      (owned s w.toNat → usable (s.core.tile j) 2#2 (2048 * drainBytes m) → (s.core.tile j).holds = 0#5 →
        exec (.mdrain d w b k m) s = .next (s.onCore fun x =>
          let y := x.enqueue (.mdrain j w (b.getLsbD 0) (b.getLsbD 1) (x.k k) m)
          y.setTile j { (y.tile j).toFilling (.cmd x.nextSer) with tag := m, holds := 1#5 }))) ∧
    (s.core.matq = [] → exec (.mwait 0#4) s = .next s) ∧
    (owned s w.toNat → (s.core.matq.any fun e => e.cmd.writesWin w) = false → unclaimed 4 (.v d {}) s →
      exec (.mrdv d w b m) s =
        landsWith 4 (.v d { tag := m, data := packV 32 (row.map Prod.fst) }) (row.foldl (fun f x => f ||| x.2) 0#5) s)

/-- 06 R147, R148, R150 to R165: a command starts once its engine is free and nothing earlier conflicts, a product ending the idle spell; at its
completion it leaves the queue and takes effect. MZERO empties the cells of the selected rows and no other, MSWAP exchanges the planes,
MMODE sets MATMODE. MMA and MMAS add to every cell of the selected rows the terms of its row of the A tile and its column of the plane;
MLDS copies scales and elements bit for bit; MWRV sets the selected cells of one row; MTRW fills the shadow plane from the window in its
format; MDRAIN leaves the rows in the C tile, the tile READY, and empties them where it is told to. -/
def Obligations.MatrixCommandsComplete : Prop :=
  ∀ (s : State) (j : Nat) (e : MatEntry), inp s 0 = j → s.core.matq[j]? = some e →
    let c : Core := { s.core with matq := dropAt s.core.matq j }
    (s.core.matCanStart j e = true →
      exec .matrixCmdStart s = .next (s.onCore fun x => { x with
        matq := setAt x.matq j { e with started := true }, matIdle := match e.cmd with | .mma .. => 0 | _ => x.matIdle })) ∧
    (e.started = true →
      (j = 0 ∨ (∀ t, e.cmd ≠ .mwait t) → exec .matrixCmdComplete s = .next { s with core := c.runMat e }) ∧
      (e.cmd = .mswap → exec .matrixCmdComplete s = .next { s with core := { c with wf := c.ws, ws := c.wf } }) ∧
      (∀ x, e.cmd = .mmode x → exec .matrixCmdComplete s = .next { s with core := { c with matmode := x } }) ∧
      (∀ w rows, e.cmd = .mzero w rows → sortedFrom 0 s.core.windows = true →
        ∃ t : State, exec .matrixCmdComplete s = .next t ∧ t = { s with core := { c with windows := t.core.windows } } ∧
          ∀ (v : WReg) (r n : Nat), r < 32 → n < 64 →
            t.core.cell v r n = if v = w ∧ rows.getLsbD r = true then {} else s.core.cell v r n) ∧
      (∀ w i rows sp, e.cmd = .mma w i rows sp → sortedFrom 0 s.core.windows = true →
        let fa := afmt s.core.matmode
        let pl := s.core.wf
        let row (r : Nat) : MatBlock :=
          matBlock fa (if sp then 16 else 32) (s.core.srcBytes e (s.core.tile i) (rowBytes fa sp * r) (rowBytes fa sp))
        let ks (r : Nat) : List Nat := if sp then sparsePos (sparse s.core.matmode) ((row r).md % 2 ^ 64) else List.range 32
        ∃ ws, exec .matrixCmdComplete s = .next { s with core := ({ c with windows := ws } : Core).releaseTile i } ∧
          ∀ (v : WReg) (r n : Nat), r < 32 → n < 64 → ({ c with windows := ws } : Core).cell v r n =
            if v = w ∧ rows.getLsbD r = true then
              addTerms fa pl.fmt (row r).scale (row r).e (pl.sc n) ((ks r).map fun k => pl.at k n) (s.core.cell w r n)
            else s.core.cell v r n) ∧
      (∀ i f, e.cmd = .mlds i f → planeFmt f = true →
        let t := s.core.tile i
        let cb := rowBytes f false
        ∃ p : Plane, exec .matrixCmdComplete s = .next { s with core := ({ c with ws := p } : Core).releaseTile i } ∧ p.fmt = f ∧
          ∀ n, n < 64 →
            let x := s.core.srcBytes e t (cb * n) cb
            p.sc n = (if isMx f then x % 256 else 0) ∧
            (∀ k, k < 32 → p.at k n = slice (if isMx f then x / 256 else x) (tagWidth f) k) ∧
            (e.snap = [] → ∀ b, b < cb → slice x 8 b = (rd (s.core.buf t.buf) (t.base + (cb * n + b))).toNat)) ∧
      (∀ w q k m x, e.cmd = .mwrv w q k m x → q < 32 → sortedFrom 0 s.core.windows = true →
        ∃ ws, exec .matrixCmdComplete s = .next { s with core := { c with windows := ws } } ∧
          ∀ (v : WReg) (r n : Nat), r < 32 → n < 64 → ({ c with windows := ws } : Core).cell v r n =
            if v = w ∧ r = q ∧ k.getLsbD n = true then
              if m = 1#4 then windowAdd {} (opndI x 1#4 n) 0
              else match decodeFp fmtFP32 (roundFmt (opndX x 3#4 n) fmtFP32 0 0).1 with
                | .nan => { ns := true }
                | .inf neg => if neg then { ni := true } else { pi := true }
                | .fin neg y z _ => windowAdd {} (if neg then -(y : Int) else y) z
            else s.core.cell v r n) ∧
      (∀ w f, e.cmd = .mtrw w f →
        let dr (g : Fmt) (k n : Nat) : Nat × Flags := drainWindow (s.core.cell w k n) g
        let mx (n : Nat) : MxBlock := quantizeMx f ((List.range 32).map fun k => decodeFp fmtFP32 (dr fmtFP32 k n).1)
        let whole (k n : Nat) : Int := signedOf 32 (drainInt32 (s.core.cell w k n)).1
        ∃ (p : Plane) (fl : Flags), exec .matrixCmdComplete s = .next { s with core := Core.landVar { c with ws := p } e.fid e.fw .none fl 0#4 } ∧
          p.fmt = f ∧
          ∀ n, n < 64 → p.sc n = (if isMx f then (mx n).scale % 256 else 0) ∧
            ∀ k, k < 32 → p.at k n = (if isMx f then (mx n).e.getD k 0 else if f = 4#4 then (dr fmtBF16 k n).1
              else codeOf 8 (clampI (whole k n) (-128) 127)) % 2 ^ 16) ∧
      (∀ i w hist zero rows f, e.cmd = .mdrain i w hist zero rows f → BuffersWf s.core → sortedFrom 0 s.core.windows = true →
        let t := s.core.tile i
        let eb := drainBytes f
        let rs := s.core.drainAll w rows f
        let fl : Flags := rs.foldl (fun a r => a ||| r.2) 0#5
        let bins := rs.filterMap fun r => expBin (drainValue f r.1)
        let inc := if hist then (List.range 32).map fun b => bins.countP (· == b) else []
        t.state = .filling → t.buf = 2#2 → t.dying = false → t.holds = 1#5 → 2048 * eb ≤ t.size →
        ∃ d : Core, d = { c with bufC := d.bufC, windows := d.windows, tiles := d.tiles } ∧
          exec .matrixCmdComplete s = .next { s with core := d.landHist e.fid e.fw .none fl inc 0#4 } ∧
          d.tile i = { t with state := .ready, pf := false, fill := fillAll t.nl, filler := .none, holds := 0#5 } ∧
          (∀ k, k ≠ i → d.tile k = s.core.tile k) ∧
          (∀ x b, x < 2048 → b < eb → rd d.bufC (t.base + eb * x + b) =
            if rows.getLsbD (x / 64) = true ∧ t.fill.getLsbD (eb * x / 64) = false then
              BitVec.ofNat 8 (slice (drainCell f (s.core.cell w (x / 64) (x % 64))).1 8 b)
            else rd s.core.bufC (t.base + eb * x + b)) ∧
          (∀ a, a < t.base ∨ t.base + 2048 * eb ≤ a → rd d.bufC a = rd s.core.bufC a) ∧
          ∀ (v : WReg) (r n : Nat), r < 32 → n < 64 →
            d.cell v r n = if zero = true ∧ v = w ∧ rows.getLsbD r = true then {} else s.core.cell v r n))

/-! Core memories (07). -/

/-- 07 R167, R168: a byte written to a memory in canonical form is read back, every other byte is as it was, and the form is
kept; and every step keeps it of the three buffers of every core (log 5). -/
def Obligations.MemoryReadAfterWrite : Prop :=
  (∀ (m : Memory) (a x n b : Nat), m.wf = true →
    (wrN m a x n).wf = true ∧
    rd (wrN m a x n) b = (if a ≤ b ∧ b < a + n then BitVec.ofNat 8 (x / 256 ^ (b - a)) else rd m b) ∧
    rdN (wrN m a x n) a n = x % 256 ^ n) ∧
  (∀ (s t : State), (∀ n, BuffersWf (s.coreAt n)) → step s = .next t → ∀ n, BuffersWf (t.coreAt n))

/-- 07 R169, R176, R178, R179: loads that pass their checks put the bytes of the buffer on their way: after 2 ticks for LD, 3
for the others. A wait-load whose lines are not filled is held. -/
def Obligations.LocalLoadResults : Prop :=
  ∀ (s : State) (d a b : Reg) (k : KReg) (sp z : BitVec 2) (off : BitVec 10),
    let ea := (sreg s a + off.signExtend 64 * 8#64).toNat
    let va := (sreg s a + off.signExtend 64 * 64#64).toNat
    let read (lat n x : Nat) (p : BitVec 2) (q : Put) : Out :=
      .next (noteWords (wordsOfAccess p x n) (launchResult { rem := lat, put := q } s))
    let ad (l : Nat) := laneAddr s a b z l
    (ea + 8 ≤ 0xC0000 → ea % 8 = 0 → s.core.bad 1#2 ea 8 = false → unclaimed 2 (.s d 0#64) s →
      exec (.ld d a off) s = read 2 8 ea 1#2 (.s d (BitVec.ofNat 64 (rdN s.core.bufA ea 8)))) ∧
    (va + 256 ≤ bufSize sp → va % 4 = 0 → s.core.bad sp va 256 = false → unclaimed 3 (.v d {}) s →
      exec (.vld d a sp off) s = read 3 256 va sp (.v d { data := BitVec.ofNat 2048 (rdN (s.core.buf sp) va 256) })) ∧
    (∀ i t, s.core.tileOf sp ea = some (i, t) → t.base ≤ ea → ea + 8 ≤ t.base + t.size → ea + 8 ≤ bufSize sp → ea % 8 = 0 →
      unclaimed 3 (.s d 0#64) s →
      (filled t ea 8 = true → s.core.bad sp ea 8 = false →
        exec (.ldw d a sp off) s = read 3 8 ea sp (.s d (BitVec.ofNat 64 (rdN (s.core.buf sp) ea 8)))) ∧
      (filled t ea 8 = false → s.issue.commit = false → exec (.ldw d a sp off) s = .next (hold 2 s))) ∧
    (∀ i t, s.core.tileOf sp va = some (i, t) → t.base ≤ va → va + 256 ≤ t.base + t.size → va + 256 ≤ bufSize sp → va % 4 = 0 →
      unclaimed 3 (.v d {}) s →
      (filled t va 256 = true → s.core.bad sp va 256 = false →
        exec (.vldw d a sp off) s = read 3 256 va sp (.v d { data := BitVec.ofNat 2048 (rdN (s.core.buf sp) va 256) })) ∧
      (filled t va 256 = false → s.issue.commit = false → exec (.vldw d a sp off) s = .next (hold 2 s))) ∧
    ((∀ l, l < 64 → (kreg s k).getLsbD l = true → ad l + 4 ≤ bufSize sp ∧ ad l % 4 = 0 ∧ s.core.bad sp (ad l) 4 = false) →
      unclaimed 3 (.v d {}) s →
      exec (.vgath d a b k sp z) s = .next (noteWords ((lanesOf (kreg s k)).map fun l => wordsOfAccess sp (ad l) 4).flatten
        (launchResult { rem := 3, put := .v d { data := packV 32 ((List.range 64).map fun l =>
          if (kreg s k).getLsbD l then rdN (s.core.buf sp) (ad l) 4 else lane (vreg s d) l) } } s))) ∧
    (let x := (sreg s a + sreg s b).toNat
     ∀ i t, s.issued.core.tileOf sp x = some (i, t) → isMx t.tag = true → x + 2 ^ z.toNat * blockBytes t.tag ≤ t.base + t.size →
      let bb := blockBytes t.tag
      let on := (List.range (2 ^ z.toNat)).filter fun i => blockOn (kreg s k) i
      (∀ i ∈ on, s.core.bad sp (x + i * bb) bb = false) → unclaimed 3 (.v d {}) s →
      exec (.vlds d a b k sp z) s = .next (noteWords (on.flatMap fun i => wordsOfAccess sp (x + i * bb) bb)
        (launchResult { rem := 3, put := .v d (vldsValue s.core (vreg s d) t.tag sp x (2 ^ z.toNat) (kreg s k)) } s)))

/-- 07 R169, R170, R176, R178, R179: stores that pass their checks write their bytes to the buffer as they issue, at the address
that the form gives; a word that they write whole is poisoned no longer. -/
def Obligations.LocalStoreResults : Prop :=
  ∀ (s : State) (d a b : Reg) (k : KReg) (sp z : BitVec 2) (off : BitVec 10),
    let ea := eaMI s a off 8
    let va := eaMI s a off 64
    let ad := laneAddr s a b z
    let x := (sreg s a + sreg s b).toNat
    let v := vreg s d
    let bb := blockBytes v.tag
    let on := (List.range (2 ^ z.toNat)).filter fun i => blockOn (kreg s k) i
    (ea + 8 ≤ 0xC0000 → ea % 8 = 0 → s.core.storeRefused 1#2 ea 8 = false →
      exec (.st d a off) s = .next (noteWords (wordsOfAccess 1#2 ea 8) { s with core := s.core.store 1#2 ea (sreg s d).toNat 8 })) ∧
    (va + 256 ≤ bufSize sp → va % 4 = 0 → s.core.storeRefused sp va 256 = false →
      exec (.vst d a sp off) s = .next (noteWords (wordsOfAccess sp va 256) { s with core := s.core.store sp va v.data.toNat 256 })) ∧
    ((∀ l ∈ lanesOf (kreg s k), ad l + 4 ≤ bufSize sp ∧ ad l % 4 = 0 ∧ s.core.storeRefused sp (ad l) 4 = false) →
      exec (.vscat d a b k sp z) s = .next (((lanesOf (kreg s k)).foldl (fun s l => storeBytes sp (ad l) (lane v l) 4 s) s).onCore
        fun c => c.clearBad sp ((lanesOf (kreg s k)).map fun l => (ad l, 4)))) ∧
    (isMx v.tag = true → x + 2 ^ z.toNat * bb ≤ bufSize sp → (∀ i ∈ on, s.core.storeRefused sp (x + i * bb) bb = false) →
      exec (.vsts d a b k sp z) s = .next ((on.foldl (fun s i => storeBytes sp (x + i * bb)
        (slice v.scale.toNat 8 i + 256 * pack (tagWidth v.tag) ((List.range 32).map fun j => elemCode v v.tag (32 * i + j))) bb s) s).onCore
        fun c => c.clearBad sp (on.map fun i => (x + i * bb, bb))))

/-- 07 R176, R178, R179: the frame of the stores. Every byte of the buffers outside those stored to reads as before, no
register changes, and where no trap is taken nothing of the core but its buffers and their poison does. -/
def Obligations.LocalStoreFrame : Prop :=
  ∀ (s t : State) (d a b : Reg) (k : KReg) (sp z : BitVec 2) (off : BitVec 10),
    let quiet : Prop := elsewhereSame s t ∧ t.core.regs.s = s.core.regs.s ∧ t.core.regs.k = s.core.regs.k ∧ t.core.regs.n = s.core.regs.n ∧
      t.core.regs.v = s.core.regs.v ∧ t.core.regs.fpstat = s.core.regs.fpstat ∧
      (t.issue.stop = none →
        t.core = { s.core with bufW := t.core.bufW, bufA := t.core.bufA, bufC := t.core.bufC, badWord := t.core.badWord })
    let same (p : BitVec 2) (stored : Nat → Prop) : Prop :=
      ∀ (q : BitVec 2) (x : Nat), ¬(q = p ∧ stored x) → rd (t.core.buf q) x = rd (s.core.buf q) x
    (exec (.st d a off) s = .next t → quiet ∧ same 1#2 fun x => eaMI s a off 8 ≤ x ∧ x < eaMI s a off 8 + 8) ∧
    (exec (.vst d a sp off) s = .next t → quiet ∧ same sp fun x => eaMI s a off 64 ≤ x ∧ x < eaMI s a off 64 + 256) ∧
    (exec (.vscat d a b k sp z) s = .next t → quiet ∧ same sp fun x =>
      ∃ l, l < 64 ∧ (kreg s k).getLsbD l = true ∧ laneAddr s a b z l ≤ x ∧ x < laneAddr s a b z l + 4) ∧
    (exec (.vsts d a b k sp z) s = .next t → quiet ∧ same sp fun x =>
      let bb := blockBytes (vreg s d).tag
      ∃ i, i < 2 ^ z.toNat ∧ blockOn (kreg s k) i = true ∧ (sreg s a + sreg s b).toNat + i * bb ≤ x ∧
        x < (sreg s a + sreg s b).toNat + i * bb + bb)

/-- 07 R169, R170, R174, R176: a load or store outside its buffer raises LOCAL_BOUNDS, then one at an address of the wrong
alignment MISALIGNED, then a store that touches a tile being filled or drained TILE_STATE; a load of a poisoned word raises
POISON. -/
def Obligations.LocalAccessTraps : Prop :=
  ∀ (s : State) (d a : Reg) (off : BitVec 10) (sp : BitVec 2), s.issue.commit = false →
    let ea := eaMI s a off 8
    let va := eaMI s a off 64
    (0xC0000 < ea + 8 → exec (.st d a off) s = .next (raise .localBounds s) ∧
      (unclaimed 2 (.s d 0#64) s → exec (.ld d a off) s = .next (raise .localBounds s))) ∧
    (ea + 8 ≤ 0xC0000 → ea % 8 ≠ 0 → exec (.st d a off) s = .next (raise .misaligned s) ∧
      (unclaimed 2 (.s d 0#64) s → exec (.ld d a off) s = .next (raise .misaligned s))) ∧
    (bufSize sp < va + 256 → exec (.vst d a sp off) s = .next (raise .localBounds s) ∧
      (unclaimed 3 (.v d {}) s → exec (.vld d a sp off) s = .next (raise .localBounds s))) ∧
    (va + 256 ≤ bufSize sp → va % 4 ≠ 0 → exec (.vst d a sp off) s = .next (raise .misaligned s) ∧
      (unclaimed 3 (.v d {}) s → exec (.vld d a sp off) s = .next (raise .misaligned s))) ∧
    (ea + 8 ≤ 0xC0000 → ea % 8 = 0 →
      (s.core.storeRefused 1#2 ea 8 = true → exec (.st d a off) s = .next (raise .tileState s)) ∧
      (s.core.bad 1#2 ea 8 = true → unclaimed 2 (.s d 0#64) s → exec (.ld d a off) s = .next (raise .poison s)))

/-- 07 R174, R184 to R188: the tile instructions. TALLOC sees the slots as the tick began, with those that earlier slots of the
bundle allocate, and TSTAT reads them so; a TWAIT whose condition holds as it issues keeps it, and one that finds the core's 16 watches
taken, those of its yielded firings too, is held. A slot that is EMPTY raises TILE_STATE but for TALLOC and TSTAT; one that is
not READY, or is held by commands, holds those that change it. -/
def Obligations.TileInstructionResults : Prop :=
  ∀ (s : State) (d a b : Reg) (m : BitVec 4),
    let i := slotOf (sreg s a)
    let t := s.core.tile i
    let x := sreg s b
    let n := newTile (sreg s a) s.core.slot
    let seen := tilesSeen s
    let setTo (y : Tile) : Out := .next { s with core := s.core.setTile i y }
    let alloc (j : Nat) : Out :=
      .next (let s := launchResult { rem := 1, put := .s d (BitVec.ofNat 64 j) } s
             { s with core := s.core.setTile j n, issue := { s.issue with alloc := s.issue.alloc ++ [(j, n)] } })
    let fits : Prop := n.buf ≠ 3#2 ∧ n.tag < 14#4 ∧ 64 * (n.line.toNat + n.nl) ≤ bufSize n.buf ∧
      ∀ q ∈ seen, q.2.touches n.buf n.base (64 * n.nl) = false
    (unclaimed 1 (.s d 0#64) s → fits →
      (slotEmpty seen (slotOf x) = true → exec (.talloc d a b 0#4) s = alloc (slotOf x)) ∧
      (∀ j, m ≠ 0#4 → j < 256 → slotEmpty seen j = true → (∀ h, h < j → slotEmpty seen h = false) →
        exec (.talloc d a b m) s = alloc j)) ∧
    (unclaimed 1 (.s d 0#64) s → m ≠ 0#4 → (∀ j, j < 256 → slotEmpty seen j = false) →
      exec (.talloc d a b m) s = lands 1 (.s d (BitVec.allOnes 64)) s) ∧
    (unclaimed 1 (.s d 0#64) s → exec (.tstat d a) s = lands 1 (.s d (findD i {} (s.issue.tiles0.getD s.core.tiles)).word) s) ∧
    (t.state = .ready → t.holds = 0#5 →
      (t.nb = false → exec (.tfree a) s = setTo {}) ∧
      (x.extractLsb' 0 4 < 14#4 → exec (.tset a b 0#4) s = setTo { t with tag := x.extractLsb' 0 4 }) ∧
      exec (.tset a b 1#4) s = setTo { t with fsc := x.getLsbD 0, owner := s.core.slot } ∧
      (t.nb = false → exec (.tset a b 2#4) s = setTo { t with state := .filling, pf := true, fill := 0#1024 })) ∧
    (t.state = .filling → t.pf = true → exec (.tset a b 3#4) s = setTo t.toReady) ∧
    (t.state ≠ .empty → s.core.watchCount < 16 →
      exec (.twait a b m) s =
        .next { s with core := { s.core with watches := s.core.watches ++ [{ tile := i, thr := x, tc := m, fw := s.core.fwm, hit := t.state == .ready || t.state == .draining || (x != 0#64 && decide (x.toNat ≤ t.fillc)) }] } }) ∧
    (t.state ≠ .empty → 16 ≤ s.core.watchCount → s.issue.commit = false → exec (.twait a b m) s = .next (hold 4 s)) ∧
    (s.issue.commit = false → t.state = .empty →
      exec (.tfree a) s = .next (raise .tileState s) ∧ exec (.twait a b m) s = .next (raise .tileState s) ∧
      exec (.tset a b 0#4) s = .next (raise .tileState s) ∧ exec (.tset a b 3#4) s = .next (raise .tileState s)) ∧
    (s.issue.commit = false → t.state ≠ .empty → t.nb = false → t.state ≠ .ready ∨ t.holds ≠ 0#5 →
      exec (.tfree a) s = .next (hold 1 s) ∧ exec (.tset a b 2#4) s = .next (hold 1 s))

/-- 07 R189 to R192: ICINV invalidates at once, or stands as an operation while a CLWB of the firing is unfinished; the event
then takes it out of the list. FETCHB empties the fetch buffer and makes the next fetch wait. A fill brings its line. -/
def Obligations.InstructionStoreControl : Prop :=
  ∀ (s : State) (a : Reg) (m : BitVec 4),
    let l : Option Nat := if m = 1#4 then none else some ((sreg s a).extractLsb' 6 50).toNat
    (clwbPending s.core s.core.regs.fireid = false → exec (.icinv a m) s = .next { s with core := s.core.invalidate l }) ∧
    (clwbPending s.core s.core.regs.fireid = true → exec (.icinv a m) s = .next (addOp { kind := .icinv l } s)) ∧
    exec .fetchb s = .next { s with core := { s.core with fbuf := [], fetchb := true } } ∧
    (∀ o x, s.core.ops[inp s 0]? = some o → o.kind = .icinv x → clwbPending { s.core with ops := s.core.ops.take (inp s 0) } o.fid = false →
      exec .icinvTakeEffect s = .next { s with core := (s.core.dropOp (inp s 0)).invalidate x }) ∧
    (∀ key n, inp s 0 = key → key < 2 ^ 51 → (∀ p ∈ s.core.ifill, p.1 = key → p.2 = true) →
      agentRead s (fetchRegion s key) (64 * (key % 2 ^ 50)) 64 .fetch = .ok n →
      ∃ t : State, exec .icacheFill s = .next t ∧ find? key t.core.istore = some (BitVec.ofNat 512 n) ∧
        t.core.regs = s.core.regs ∧ t.hbm = s.hbm)

/-! Global memory (08, 09). -/

/-- 08 R207, R210 to R220: a global access whose address has bits 63 to 56 clear and the alignment of its form (and, for a
store, no present line whose page forbids writing) is issued: it stands in the core's operation list, and acts upon the G-cache
and the log at once where no earlier access of its firing comes first. With nothing of its firing outstanding, a core-scope load whose bytes the
G-cache holds has its value at once; a store leaves its bytes in the line, valid, and dirty at core scope alone; a core-scope STREL first
enters every dirty line in the log under the next number. A fence without a token holds its own bundle until what it covers is performed;
behind an access of its own bundle it stands in the list, and later bundles wait for it. That accesses act in program order at the G-cache, and
that STREL waits for a store put off, is log 71; what a link fence waits for log 17. -/
def Obligations.GlobalAccessesIssue : Prop :=
  ∀ (s : State) (d a : Reg) (sp : BitVec 2) (t : BitVec 4) (f : BitVec 6),
    let x := sreg s a
    let z := (f.extractLsb' 0 3).toNat
    let n := sizeBytes z
    let sc := (f.extractLsb' 3 3).toNat
    let o (k : OpKind) : Op := { kind := k, cls := sp.toNat, scope := sc, tc := t, va := x }
    let v := (sreg s d).toNat % 2 ^ (8 * n)
    (x.extractLsb' 56 8 = 0#8 →
      (x.toNat % n = 0 →
        exec (.gld d a sp t f) s = .next (issueLoad .gload z (.s d) x sp.toNat sc t s) ∧
        exec (.ldacq d a sp t f) s = .next (issueLoad (fun z _ => .ldacq z) z (.s d) x sp.toNat sc t s) ∧
        ((wCheck s x.toNat n).bad = false →
          exec (.gst d a sp t f) s = .next (storeAny x.toNat n v sp.toNat sc t s) ∧
          (4 ≤ sc ∨ putOff s = false → exec (.strel d a sp t f) s = .next (storeAgent .strel x.toNat n v sp.toNat sc t s)) ∧
          (sc < 4 → putOff s = true → s.issue.commit = false → exec (.strel d a sp t f) s = .next (hold 4 s))) ∧
        ((sreg s d).toNat % 2 ^ 16 < taskCount s → (sreg s d).toNat % 2 ^ 16 ≠ 0xFFFF →
          exec (.promacq d a sp t f) s =
            .next (addOp { o (.promacq z ((sreg s d).toNat % 2 ^ 16)) with scope := 4, dest := .s d } s))) ∧
      (x.toNat % 64 = 0 →
        exec (.vgld d a sp t f) s = .next (issueLoad .gload 4 (.v d) x sp.toNat sc t s) ∧
        ((wCheck s x.toNat 256).bad = false →
          exec (.vgst d a sp t f) s = .next (storeAny x.toNat 256 (vreg s d).data.toNat sp.toNat sc t s)) ∧
        (z = 0 → exec (.mred d a sp t f) s = .next (addOp (o (.mred 0 [(sreg s d).toNat % 2 ^ 32])) s)) ∧
        (z = 2 → exec (.mred d a sp t f) s = .next (addOp (o (.mred 2 [])) s)) ∧
        (z = 3 → exec (.mred d a sp t f) s = .next (addOp { o (.mred 3 []) with parts := 64 } s)) ∧
        (z = 1 → tagOk 3#4 (vreg s d).tag = true → exec (.mred d a sp t f) s = .next (addOp
          { o (.mred 1 ((List.range 64).map fun l => (roundFmt (opndX (vreg s d) 3#4 l) fmtFP32 0 0).1)) with parts := 64 } s)) ∧
        exec (.mredrd d a sp t f) s = .next (addOp { o (.mredrd (z % 4) (f.getLsbD 2)) with dest := .s d } s)) ∧
      (x.toNat % 8 = 0 →
        exec (.atom d a sp t f) s = .next (addOp (o (.atom z (sreg s d) (sreg s (d + 1#5)))) s) ∧
        exec (.atomr d a sp t f) s = .next (addOp { o (.atom z (sreg s d) (sreg s (d + 1#5))) with dest := .s d } s)) ∧
      (f.getLsbD 0 = false →
        exec (.clwb a sp t f) s = .next (addOp { o (.clwb (some (x.toNat / 64))) with scope := 1 } s) ∧
        exec (.clinv a sp t f) s = .next (addOp { o (.clinv (some (x.toNat / 64))) with scope := 1 } s))) ∧
    (f.getLsbD 0 = true →
      exec (.clwb a sp t f) s = .next (addOp { o (.clwb none) with scope := 1 } s) ∧
      exec (.clinv a sp t f) s = .next (addOp { o (.clinv none) with scope := 1 } s)) ∧
    (t ≠ 0#4 → exec (.fence sp t f) s = .next (addOp { kind := .fence (z == 0), cls := sp.toNat, scope := sc, tc := t } s)) ∧
    (fenceReady s s.core.ops s.core.regs.fireid (z == 0) sp.toNat sc = true →
      exec (.fence sp 0#4 f) s = .next (if 4 ≤ sc then (waferRelease s).onCore Core.waferAcquire else s)) ∧
    (fenceReady s s.core.ops s.core.regs.fireid (z == 0) sp.toNat sc = false →
      (s.issue.commit = false → exec (.fence sp 0#4 f) s = .next (hold 4 s)) ∧
      (s.issue.commit = true → exec (.fence sp 0#4 f) s = .next (addOp { kind := .fence (z == 0), cls := sp.toNat, scope := sc } s))) ∧
    (let l := x.toNat / 64
     let w := x.toNat % 64
     x.extractLsb' 56 8 = 0#8 → isHost x.toNat = false → firingAlone s →
      (x.toNat % n = 0 → z < 4 →
        (∀ g, sc < 4 → s.core.gline l = some g → (∀ k, w ≤ k → k < w + n → g.valid.getLsbD k = true) →
          let y := (g.data.toNat >>> (8 * w)) % 2 ^ (8 * n)
          ∃ e : Op, exec (.gld d a sp t f) s = .next (s.onCore fun c => { c with ops := c.ops ++ [e], nextSer := c.nextSer + 1 }) ∧
            e.resp = true ∧ e.fid = s.core.regs.fireid ∧
            e.answer = .s d (if z = 2 then (BitVec.ofNat 32 y).signExtend 64 else BitVec.ofNat 64 y)) ∧
        ((wCheck s x.toNat n).bad = false → (s.core.setLines l).length < 8 ∨ (s.core.gline l).isSome = true → ∀ u,
          (exec (.gst d a sp t f) s = .next u → lineWritten s u l w n v (decide (sc < 4)) ∧ memorySame s u ∧ u.core.darn = s.core.darn) ∧
          (4 ≤ sc → exec (.strel d a sp t f) s = .next u → lineWritten s u l w n v false ∧ memorySame s u ∧ u.core.darn = s.core.darn) ∧
          (sc < 4 → s.core.darn.length + s.core.dirtyLines.length ≤ 256 → exec (.strel d a sp t f) s = .next u →
            lineWritten s u l w n v false ∧ memorySame s u ∧ u.core.rseq = s.core.rseq + 1#64 ∧
            ∀ k, s.core.dirtyAt k = true → ∃ e ∈ u.core.darn, e.line = k ∧ e.seq = u.core.rseq))) ∧
      (x.toNat % 64 = 0 → (∀ i, i < 4 → isHost (64 * (l + i)) = false) →
        (sc < 4 → (∀ i, i < 4 → ∃ g, s.core.gline (l + i) = some g ∧ g.valid = BitVec.allOnes 64) → ∃ (e : Op) (y : VData),
          exec (.vgld d a sp t f) s = .next (s.onCore fun c => { c with ops := c.ops ++ [e], nextSer := c.nextSer + 1 }) ∧ e.resp = true ∧
            e.answer = .v d { data := y } ∧ ∀ i g, i < 4 → s.core.gline (l + i) = some g → y.extractLsb' (512 * i) 512 = g.data) ∧
        ((wCheck s x.toNat 256).bad = false → (∀ i, i < 4 → (s.core.gline (l + i)).isSome = true) → ∀ u, exec (.vgst d a sp t f) s = .next u →
          memorySame s u ∧ ∀ i, i < 4 → ∃ g, u.core.gline (l + i) = some g ∧ g.data = (vreg s d).data.extractLsb' (512 * i) 512 ∧
            g.valid = BitVec.allOnes 64 ∧ g.dirty = if sc < 4 then BitVec.allOnes 64 else 0#64))) ∧
    (x.extractLsb' 56 8 ≠ 0#8 → s.issue.commit = false →
      exec (.gld d a sp t f) s = .next (raiseWith .globalXlate x s) ∧ exec (.gst d a sp t f) s = .next (raiseWith .globalXlate x s) ∧
      exec (.atomr d a sp t f) s = .next (raiseWith .globalXlate x s) ∧ exec (.mredrd d a sp t f) s = .next (raiseWith .globalXlate x s))

/-- 07 R181 to R183, 08 R221, R222, 10 R277, 12 R316, R317: remote accesses, engine commands, PUBX and edge commands whose
checks pass stand in the operation list, a quad release with its core release first, the tile of an engine command draining or
filling; with 32 engine commands or 16
remote accesses outstanding the bundle is held. A quad release behind a store that is put off is held too, the model's reading (log 71). -/
def Obligations.CommandsIssue : Prop :=
  ∀ (s : State) (d a b : Reg) (nr : NReg) (t m : BitVec 4) (f : BitVec 6) (sp : BitVec 2),
    let x := sreg s a
    let i := slotOf (sreg s d)
    let ga := sreg s a
    let desc := sreg s b
    let n := if f.getLsbD 0 then 256 else 8
    let qok : Prop := ∀ c ∈ qChecks s x n, c.bad = false
    let engine (k : Nat) : Op :=
      { kind := .engine k i (if engTiled k desc then fld (sreg s d) 16 16 else 0) ga desc (sreg s d), cls := sp.toNat, tc := t, va := ga }
    let tiled (k : Nat) : State := s.onCore fun c =>
      c.setTile i (if engReads k desc then (c.tile i).toDraining (.cmd c.nextSer) else (c.tile i).toFilling (.cmd c.nextSer))
    let goes (k : Nat) : Prop := (∀ c ∈ engChecks k desc ga (s.core.tile i).size (fld (sreg s d) 16 16), c.bad = false) ∧
      (k ≠ 3 → ga.extractLsb' 56 8 = 0#8) ∧ (s.core.tile i).state = .ready ∧ (s.core.tile i).holds = 0#5
    let p := slotOf x
    let rb := fld desc 32 17
    let publishable : Prop := nSpace (nreg s nr) = s.core.space ∧ (s.core.tile p).state = .ready ∧ (s.core.tile p).holds = 0#5 ∧
      ((s.core.tile p).buf = 1#2 ∨ (s.core.tile p).buf = 2#2) ∧ fld desc 49 15 = 0 ∧ fld desc 0 6 = 0 ∧ 0 < rb ∧ rb ≤ 65536 ∧ rb % 4 = 0 ∧
      fld desc 16 16 % 4 = 0 ∧ (fld desc 6 10 + 1) * rb ≤ 65536 ∧ fld x 16 16 + fld desc 6 10 * fld desc 16 16 + rb ≤ (s.core.tile p).size
    (qok → s.core.qCount < 16 →
      exec (.qld d a t f) s = .next (addOp { kind := .qld (f.getLsbD 0) (f.getLsbD 2) (fld x 48 16) (fld x 0 20), tc := t
                                             dest := if f.getLsbD 0 then .v d else .s d, va := x, parts := if f.getLsbD 0 then 4 else 1 } s) ∧
      (let st : Op := { kind := .qst (f.getLsbD 0) (f.getLsbD 2) (fld x 48 16) (fld x 0 20), tc := t, va := x
                        parts := if f.getLsbD 0 then 4 else 1
                        data := if f.getLsbD 0 then (vreg s d).data.toNat else (sreg s d).toNat }
       (f.getLsbD 2 = false → exec (.qst d a t f) s = .next (addOp st s)) ∧
       (f.getLsbD 2 = true → putOff s = false → exec (.qst d a t f) s = .next (issueAccess st s)) ∧
       (f.getLsbD 2 = true → putOff s = true → s.issue.commit = false → exec (.qst d a t f) s = .next (hold 4 s)))) ∧
    (qok → 16 ≤ s.core.qCount → exec (.qld d a t f) s = .next (hold 4 s) ∧ exec (.qst d a t f) s = .next (hold 4 s)) ∧
    (s.core.engines < 32 →
      (goes 0 → (s.core.tile i).buf = 1#2 ∨ (s.core.tile i).buf = 0#2 ∧ engReads 0 desc = false →
        exec (.xcopy d a b t sp) s = .next (addOp (engine 0) (tiled 0))) ∧
      (goes 1 → (s.core.tile i).buf = 0#2 ∨ (s.core.tile i).buf = 1#2 → exec (.xgath d a b t sp) s = .next (addOp (engine 1) (tiled 1))) ∧
      (goes 2 → (s.core.tile i).buf = 1#2 → exec (.xscat d a b t sp) s = .next (addOp (engine 2) (tiled 2))) ∧
      (goes 3 → desc.getLsbD 31 = false → (s.core.tile i).buf = 0#2 ∨ (s.core.tile i).buf = 1#2 →
        exec (.xfill d a b t sp) s = .next (addOp (engine 3) (tiled 3))) ∧
      (desc.getLsbD 31 = true → ga.extractLsb' 56 8 = 0#8 → (∀ c ∈ engChecks 3 desc ga (s.core.tile i).size 0, c.bad = false) →
        exec (.xfill d a b t sp) s = .next (addOp (engine 3) s)) ∧
      (publishable → exec (.pubx nr a b t sp) s =
        .next (drainFor p { kind := .pubx (nreg s nr) p (fld x 16 16) desc, cls := sp.toNat, tc := t } s))) ∧
    (32 ≤ s.core.engines →
      (goes 0 → (s.core.tile i).buf = 1#2 ∨ (s.core.tile i).buf = 0#2 ∧ engReads 0 desc = false → exec (.xcopy d a b t sp) s = .next (hold 4 s)) ∧
      (goes 1 → (s.core.tile i).buf = 0#2 ∨ (s.core.tile i).buf = 1#2 → exec (.xgath d a b t sp) s = .next (hold 4 s)) ∧
      (goes 2 → (s.core.tile i).buf = 1#2 → exec (.xscat d a b t sp) s = .next (hold 4 s)) ∧
      (goes 3 → desc.getLsbD 31 = false → (s.core.tile i).buf = 0#2 ∨ (s.core.tile i).buf = 1#2 → exec (.xfill d a b t sp) s = .next (hold 4 s)) ∧
      (desc.getLsbD 31 = true → ga.extractLsb' 56 8 = 0#8 → (∀ c ∈ engChecks 3 desc ga (s.core.tile i).size 0, c.bad = false) →
        exec (.xfill d a b t sp) s = .next (hold 4 s)) ∧
      (publishable → exec (.pubx nr a b t sp) s = .next (hold 4 s))) ∧
    (∀ port, blockOf s a = some port →
      (s.core.fwm = false → desc.toNat % 64 = 0 → desc.extractLsb' 56 8 = 0#8 →
        exec (.ecfg a b m) s = .next (addOp { kind := .ecfg port desc, tc := m, va := desc } s)) ∧
      (s.core.fwm = false → exec (.ego a b) s = .next (addOp { kind := .ego port (desc.truncate 32) } s)) ∧
      exec (.estat d a m) s = .next (addOp { kind := .estat port, tc := m, dest := .s d } s) ∧
      exec (.eabort a m) s = .next (addOp { kind := .eabort port, tc := m } s))

/-- 10 R272 to R280, 11 R282, R283: the name instructions at issue. A name of another space raises NAME_SPACE; else a tile
that is READY, unheld and in an admitted buffer is bound to its name and fills, or drains for its publication, and the tokens
of the others stand at the router; the region knows a name that PUBR or ROPEN uses as a reduction's. UNSUB of a tile that drains clears its
binding at issue, which is the model's choice (log 75). -/
def Obligations.NameInstructionsIssue : Prop :=
  ∀ (s : State) (d a : NReg) (r : Reg) (b : Reg) (m : BitVec 4),
    let n := nreg s d
    let i := slotOf (sreg s r)
    let t := s.core.tile i
    let who : Asker := .tile (fidTask s.core.regs.fireid).toNat i s.core.regs.fireid
    let sends (x : Msg) (u : State) : Out := .next (u.send { region := u.core.regnum, loc := u.cur, msg := x, src := u.cur, fid := u.core.regs.fireid })
    let bound : State := { s with core := s.core.setTile i { t.toFilling (.delivery none) with nb := true, name := n } }
    let used (x : Name) : State := useReduction s.core.regnum x s
    (nSpace n = s.core.space →
      (t.state = .ready → t.holds = 0#5 →
        (t.buf = 0#2 ∨ t.buf = 1#2 → t.nb = false → exec (.subName d r) s = sends (.oneShot n who none) bound) ∧
        (t.buf = 0#2 ∨ t.buf = 1#2 → t.nb = true → s.core.standing i = false →
          exec (.resub d r) s = sends (.oneShot n who (some t.name)) bound) ∧
        (t.buf = 1#2 ∨ t.buf = 2#2 →
          exec (.pub d r m) s = .next (drainFor i { kind := .pub n i (m == 1#4) } s) ∧
          (∀ e c, redShape (descAt s s.core.regnum s.cur n) = some (e, c) → redTag t.tag = true → redWidth t.tag * e ≤ t.size →
            exec (.pubr d r) s = .next (drainFor i { kind := .pubr n i } (used n))))) ∧
      (nSpace (nreg s a) = s.core.space → sreg s r ≠ 0#64 → (sreg s r).toNat ≤ 2 ^ 40 → (redShape (descAt s s.core.regnum s.cur n)).isSome = true →
        exec (.ropen d a r m) s = sends (.ropen n (nreg s a) (sreg s r) (m.toNat - 3)) (used n)) ∧
      exec (.nhold d r m) s = sends (.nhold n (m == 1#4) (sreg s r)) s ∧
      exec (.nrel d) s = sends (.nrel n) s ∧
      exec (.nqry b d m) s = sends (.nqry n s.core.nextSer) (addOp { kind := .nqry n, tc := m, dest := .s b } s)) ∧
    (t.nb = true → s.core.standing i = false → t.buf ≠ 3#2 →
      (t.state = .filling → exec (.unsub r) s = sends (.withdraw t.name who) s) ∧
      (t.state = .ready ∨ t.state = .draining → exec (.unsub r) s = .next { s with core := s.core.setTile i { t with nb := false } })) ∧
    (nSpace n ≠ s.core.space → s.issue.commit = false →
      exec (.subName d r) s = .next (raise .nameSpace s) ∧ exec (.pub d r m) s = .next (raise .nameSpace s) ∧
      exec (.nhold d r m) s = .next (raise .nameSpace s) ∧ exec (.nqry b d m) s = .next (raise .nameSpace s))

/-! Firings, counters, system (12, 13, 14, 03). -/

/-- 12 R310 to R315, 13 R327 to R342: the instructions of group 0xD. Firmware may not issue those that make, end or rank
firings or arrive at a barrier. SPAWN and LAUNCHR are once for a firing of ordinal 0; FEND and YIELD close their bundle; a
barrier two instances ahead, or a TCWAIT above its counter, is held. What SPAWN's pool test counts is log 40, how a YIELD that switches closes
log 34. -/
def Obligations.SchedulingInstructionResults : Prop :=
  ∀ (s : State) (d a b : Reg) (m : BitVec 4),
    let x := sreg s a
    let n := x.toNat
    let made : Core := { s.core with regs := { s.core.regs with created := true } }
    let named (i : Nat) : Core := { made with nframes := insert i (s.core.regs.n.toList.extract 1 9) s.core.nframes }
    let child (n i : Nat) : Ready :=
      { kind := .spawn, slot := s.core.slot, prio := s.core.regs.prio, rdyseq := 0#32, nleft := BitVec.ofNat 24 n, nfr := BitVec.ofNat 6 i
        fid := fidTask s.core.regs.fireid ++ fidGen s.core.regs.fireid ++ 1#24 }
    let mayCreate : Prop := s.core.fwm = false ∧ fidOrd s.core.regs.fireid = 0#24 ∧ s.core.regs.created = false
    let arr := s.core.arrOf a.toNat
    let inst := s.core.instOf a.toNat
    let w := (x.extractLsb' 0 16).toNat
    let arr0 := match s.issue.arr0 with | some l => l[scopeIx a.toNat] | none => arr
    let ended : State := closeStraight { s with issue := { s.issue with stall := 0#4 } }
    let goes : State := closeStraight s
    (mayCreate →
      (n = 0 → exec (.spawn a) s = .next { s with core := made }) ∧
      (∀ i, 1 ≤ n → n ≤ 0xFFFFFF → s.core.childClash n = false → s.core.poolUsed < 192 → s.core.freeNameFrame = some i →
        exec (.spawn a) s = .next { s with core := Core.addReady (named i) (child n i) }) ∧
      (n % 32 = 0 → sreg s b ≠ 0#64 → n + 32 * (sreg s b).toNat ≤ 0xC0000 →
        exec (.launchr a b m) s = .next (addOp { kind := .launchr x (sreg s b), tc := m, data := s.core.regs.prio.toNat } { s with core := made }))) ∧
    (¬mayCreate → s.core.fwm = false → s.issue.commit = false →
      exec (.spawn a) s = .next (raise .launchRecord s) ∧ exec (.launchr a b m) s = .next (raise .launchRecord s)) ∧
    (m ≠ 0#4 → exec (.tcadd a m) s =
      .next { s with core := { s.core with tcd := s.core.tcd ++ [(m.toNat, (x.extractLsb' 0 17).toInt)] } }) ∧
    (w + (if s.issue.wait = m then 1 else 0) ≤ (s.core.tc m).toNat → m ≠ 0#4 →
      exec (.tcwait a m) s = .next { s with core := { s.core with tcd := s.core.tcd ++ [(m.toNat, -(w : Int))] } }) ∧
    (w ≠ 0 → (s.core.tc m).toNat < w → s.issue.commit = false → exec (.tcwait a m) s = .next (hold 0 s)) ∧
    (unclaimed 1 (.s d 0#64) s →
      exec (.tcrd d m) s = lands 1 (.s d ((s.core.tc m).zeroExtend 64)) s ∧
      exec (.barrd d a) s = lands 1 (.s d ((if a = 0#5 then arr0 else s.issued.core.instOf a.toNat) ++ arr0)) s ∧
      exec (.stamp d) s = lands 1 (.s d (s.issued.core.round ++ s.issued.core.stampCyc)) s) ∧
    (s.core.fwm = false → (arr - inst).toInt < 2 → ∃ t : State,
      elsewhereSame s t ∧ t.core.arrOf a.toNat = arr + 1#32 ∧ t.core = { s.core with slots := t.core.slots } ∧
        (a ≠ 0#5 ∨ b = 1#5 →
          exec (.bar a b m) s = .next (addOp { kind := .bar a.toNat (b == 1#5) (arr + 1#32), tc := m, scope := a.toNat } t)) ∧
        (a = 0#5 → b ≠ 1#5 → exec (.bar a b m) s = .next { t with core := { t.core with
          arrivals := s.core.arrivals ++ [⟨s.core.regs.fireid, 0, arr + 1#32, m, false, true, s.core.nextSer, s.core.cycle⟩] } })) ∧
    (s.core.fwm = false → 2 ≤ (arr - inst).toInt → exec (.bar a b m) s = .next (hold 4 s)) ∧
    exec (.timeq d m) s = .next (addOp { kind := .timeq s.core.cycle, tc := m, dest := .s d } s) ∧
    (s.core.fwm = false → exec (.prio a) s = lands 1 (.prio (x.extractLsb' 0 3)) s) ∧
    (s.issue.commit = true →
      exec .fend s = .next { ended with core := { ended.core with
        ending := .fend, stallrem := 0, regs := { ended.core.regs with pc := s.core.regs.pc } } } ∧
      exec .yield s = .next (if yieldSwitches s.core then
          { goes with core := { goes.core with ending := .yield, stallrem := 0 } }
        else closeStepped s)) ∧
    (s.core.fwm = true → s.issue.commit = false →
      exec (.spawn a) s = .next (raise .illegalOp s) ∧ exec (.launchr a b m) s = .next (raise .illegalOp s) ∧
      exec (.bar a b m) s = .next (raise .illegalOp s) ∧ exec (.prio a) s = .next (raise .illegalOp s) ∧
      exec .fend s = .next (raise .illegalOp s) ∧ exec .yield s = .next (raise .illegalOp s))

/-- 03 R83 to R86, 13 R342, R346, 14 R354 to R359, R364 to R366: the system instructions. TRAP and BREAK take their trap at
the next bundle, TRET and HALTC act in firmware alone, a control register is read and written by its number, EVPOST posts its
record. CTXSV saves the core as at issue, of which log 15 says how its timing fields stand; what CTXLD restores stands once its bundle's
later slots have acted. That HALTC takes the loop step is log 59, that a NETW write waits in its region's queue log 49, what CTXSV records
beside the image log 12, and that it saves with matrix commands queued log 64. -/
def Obligations.SystemInstructionResults : Prop :=
  ∀ (s : State) (d a b : Reg) (m : BitVec 4) (imm : BitVec 12),
    let x := sreg s a
    let y := sreg s b
    let c1 := (closeStepped s).core
    let read : State := (cacheLoad (regionOf s) x.toNat s.core s).onCore fun c => { c with imageErr := false }
    let c2 := (closeStraight s).core
    let stepped (k : Core) : Out := .next { closeStepped s with core := k }
    let straight (k : Core) : Out := .next { closeStraight s with core := k }
    let u := fld x 0 4
    let mine : Prop := s.core.fwm = true ∨ (grantOf s (reticleOf s.cur) u).getLsbD 4 = true ∧
      ((grantOf s (reticleOf s.cur) u).extractLsb' 0 4).toNat = s.core.regnum
    let q := (evTarget s x).1
    (s.issue.commit = true →
      (s.issue.loaded = none →
      exec (.trap imm) s = stepped (c1.takeTrap 0x12#6 c1.regs.pc (imm.zeroExtend 64)) ∧
      (s.core.dbgen = 0#1 ∨ s.core.fwm = true → exec (.brk m) s = stepped (c1.takeTrap 0x11#6 c1.regs.pc (slotVal s))) ∧
      (s.core.dbgen = 1#1 → s.core.fwm = false → exec (.brk m) s =
        stepped (Core.stop (.report 0x11#64 true) { c1 with trapcause := 0x11#6, trappc := c1.regs.pc, trapval := slotVal s })) ∧
      (m ≠ 1#4 → exec (.tret m) s = straight c2.tret) ∧
      (∃ k : Core, exec (.tret 1#4) s = straight k ∧ k.ending = .trapEnd ∧ k.faults = [] ∧ k.lq = []) ∧
      exec (.haltc a) s = stepped (c1.stop (.report x false))) ∧
      ((s.queue q).stagedBy (reticleOf s.cur) < 64 →
        exec (.evpost a b m) s = .next (post s q ⟨0, (fidTask s.core.regs.fireid).toNat, reticleOf s.cur⟩ (evTarget s x).2 y
          (BitVec.ofNat 64 (fld x 0 16 + if s.core.fwm then 65536 else 0)) false
          (if m = 0#4 then none else some (s.cur, s.core.regs.fireid, s.core.fwm, m)) none)) ∧
      (∀ t, saveAt (regionOf s) x.toNat s.atIssue s = (t, none) →
        exec (.ctxsv a) s = .next { t with issue := { t.issue with savedKey := some (restKey (regionOf s) x.toNat) } }) ∧
      (∀ t e, saveAt (regionOf s) x.toNat s.atIssue s = (t, some e) → exec (.ctxsv a) s = .next (raise e t)) ∧
      (∀ st, loadAt (regionOf s) x.toNat s.core s = .inl st → exec (.ctxld d a) s = lands 1 (.s d (BitVec.ofNat 64 st)) read) ∧
      (∀ k, loadAt (regionOf s) x.toNat s.core s = .inr k →
        exec (.ctxld d a) s = .next { read with
          core := { k with regs := read.core.regs, bankS := read.core.bankS, bankTc := read.core.bankTc, fwm := read.core.fwm }
          fresh := read.fresh + 1, issue := { read.issue with loaded := some k } } ∧
        ∀ u, exec (.ctxld d a) s = .next u → let l := (closeLoaded k u).core
          l.regs.s = k.regs.s ∧ l.regs.v = k.regs.v ∧ l.regs.k = k.regs.k ∧ l.regs.n = k.regs.n ∧ l.regs.pc = k.regs.pc ∧ l.fwm = k.fwm)) ∧
    (∀ v, ctlValue s.issued imm.toNat = some v → ctlFault s.core.fwm false imm.toNat = none → unclaimed 1 (.s d 0#64) s →
      exec (.ctlrd d imm) s = lands 1 (.s d v) s) ∧
    (ctlFault s.core.fwm true imm.toNat = none → ctlAssigned imm.toNat = true → unclaimed 1 (.ctl imm 0#64) s →
      (imm ≠ 0x00B#12 → exec (.ctlwr a imm) s = lands 1 (.ctl imm x) s) ∧
      (imm = 0x00B#12 → exec (.ctlwr a imm) s =
        .next (s.onRegion (regionOf s) fun r => { r with netwq := r.netwq ++ [(s.cur, x.truncate 32)] }))) ∧
    (mine → exec (.monrd d a m) s = .next (addOp { kind := .monrd u (fld x 8 6), tc := m, dest := .s d } s) ∧
      (fld y 44 17 = 0 → srcOk y = true → exec (.moncfg a b) s = .next (addOp { kind := .moncfg u y } s))) ∧
    (s.issue.commit = false → s.core.fwm = false →
      exec (.tret m) s = .next (raise .illegalOp s) ∧ exec (.haltc a) s = .next (raise .privilege s) ∧
      exec (.ctxsv a) s = .next (raise .privilege s) ∧ exec (.ctxld d a) s = .next (raise .privilege s) ∧
      (0x100 ≤ imm.toNat → imm.toNat ≤ 0x106 →
        exec (.ctlrd d imm) s = .next (raise .privilege s) ∧ exec (.ctlwr a imm) s = .next (raise .privilege s)) ∧
      (¬mine → exec (.monrd d a m) s = .next (raise .privilege s) ∧ exec (.moncfg a b) s = .next (raise .privilege s)))

/-- 03 R81 to R85: a control-register write at the end of its tick. FPMODE takes a rounding mode of 0 to 4, FPSTAT clears the
bits written as one, TRAPVEC drops its low 14 bits, and what is read back is what was written; a read-only register stays. -/
def Obligations.ControlRegisterWrites : Prop :=
  ∀ (s : State) (x : W64),
    let after (n : BitVec 12) : Option W64 := ctlValue { s with core := s.core.ctlWrite n x } n.toNat
    after 0x009#12 = some (if (x.extractLsb' 0 3).toNat ≤ 4 then (x.extractLsb' 0 3).zeroExtend 64 else s.core.regs.fpmode.zeroExtend 64) ∧
    after 0x00A#12 = some ((s.core.regs.fpstat &&& ~~~(x.extractLsb' 0 5)).zeroExtend 64) ∧
    after 0x010#12 = some ((x.extractLsb' 0 6).zeroExtend 64) ∧
    after 0x011#12 = some ((x.extractLsb' 0 56).zeroExtend 64) ∧
    after 0x012#12 = some x ∧
    after 0x013#12 = some ((x.extractLsb' 14 42 ++ 0#14).zeroExtend 64) ∧
    after 0x01C#12 = some x ∧
    (∀ n : BitVec 12, 0x020 ≤ n.toNat → n.toNat < 0x040 → after n = some ((x.extractLsb' 0 32).zeroExtend 64)) ∧
    (∀ n : BitVec 12, n.toNat ≤ 0x008 → s.core.ctlWrite n x = s.core)

/-- 15 R380 to R386: an element word runs as the handler in focus. A handler that may run, of an element that is neither
stopped nor held, pops what its operation consumed and leaves its working state and its outputs at the element; one that may
not, leaves all as it was. With a token at its source, no output held at its element and a credit behind each destination, every
operation completes: one of one input takes its token, a two-input one its pair or the half that it collects, or it passes an error token
of source A and discards one of a queue at source B, RIN and ROUT a token of their stream, SRCN the next token of its binding's tile, PUBN a
token of the stream that it publishes; what is left at the element is given. That several outputs held at the element let run the handler whose
full queue they wait for is the model's reading (log 19); the GENs of an XADD pair and the order of error tokens beside a literal are log 46. A
handler whose literal an image may not hold does nothing (log 70). -/
def Obligations.EdgeOperationsRun : Prop :=
  ∀ (s : State) (a b d e : BitVec 5) (t : BitVec 4) (l : BitVec 2) (o : EdgeOp) (i : Instr),
    (i, o) ∈ [((.xadd a b d ⟨t, l⟩ : Instr), ({ op := 0x00, a := a, b := b, d := d, t := t, l := l } : EdgeOp)),
      (.xrnd a d t l, { op := 0x01, a := a, d := d, t := t, l := l }), (.cvt a d t l, { op := 0x02, a := a, d := d, t := t, l := l }),
      (.qmx a d t l, { op := 0x03, a := a, d := d, t := t, l := l }), (.dqmx a d ⟨t, l⟩, { op := 0x04, a := a, d := d, t := t, l := l }),
      (.cmpz a d ⟨t, l⟩, { op := 0x05, a := a, d := d, t := t, l := l }), (.dcmpz a d ⟨t, l⟩, { op := 0x06, a := a, d := d, t := t, l := l }),
      (.mrr a b d ⟨t, l⟩, { op := 0x07, a := a, b := b, d := d, t := t, l := l }), (.mtag a b d ⟨t, l⟩, { op := 0x08, a := a, b := b, d := d, t := t, l := l }),
      (.splitE a d e t l, { op := 0x09, a := a, d := d, e := e, t := t, l := l }), (.dup a d e ⟨t, l⟩, { op := 0x0A, a := a, d := d, e := e, t := t, l := l }),
      (.gate a b d ⟨t, l⟩, { op := 0x0B, a := a, b := b, d := d, t := t, l := l }), (.steer a d e t l, { op := 0x0C, a := a, d := d, e := e, t := t, l := l }),
      (.cnt a d e ⟨t, l⟩, { op := 0x0D, a := a, d := d, e := e, t := t, l := l }), (.lim a d t l, { op := 0x0E, a := a, d := d, t := t, l := l }),
      (.fifo a d t l, { op := 0x0F, a := a, d := d, t := t, l := l }), (.pack a b d ⟨t, l⟩, { op := 0x10, a := a, b := b, d := d, t := t, l := l }),
      (.unpk a d e ⟨t, l⟩, { op := 0x11, a := a, d := d, e := e, t := t, l := l }), (.scl a d t l, { op := 0x12, a := a, d := d, t := t, l := l }),
      (.hist a d e ⟨t, l⟩, { op := 0x13, a := a, d := d, e := e, t := t, l := l }), (.eosg a d t l, { op := 0x14, a := a, d := d, t := t, l := l }),
      (.sink a l, { op := 0x15, a := a, l := l }), (.srcn a d ⟨t, l⟩, { op := 0x16, a := a, d := d, t := t, l := l }),
      (.pubn a d e ⟨t, l⟩, { op := 0x17, a := a, d := d, e := e, t := t, l := l }), (.rin a d ⟨t, l⟩, { op := 0x18, a := a, d := d, t := t, l := l }),
      (.rout a d ⟨t, l⟩, { op := 0x19, a := a, d := d, t := t, l := l }), (.edgeNop a d ⟨t, l⟩, { op := 0x1A, a := a, d := d, t := t, l := l }),
      (.halte a, { op := 0x1B, a := a })] →
    let p := s.handler.1
    let el := s.handler.2.1
    let c := s.handler.2.2
    let bl := s.block p
    ∀ (m : Memory) (reg : Nat), bl.plane = some m → bl.owner = some reg →
      let may : Bool := decide (el ≤ 63) && bl.runs s && !(bl.elem el).halted && entryRuns (planeEntry m el c) && !(bl.elem el).heldFor c
      (may = false ∨ edgeAct s bl m o el c = none → exec i s = .next s) ∧
      (litRefused o.op (planeLit m el ((fld (planeEntry m el c) 46 4 + o.l.toNat) % 16)) = true → exec i s = .next s) ∧
      (∀ act, may = true → edgeAct s bl m o el c = some act →
        ∃ u : State, exec i s = .next u ∧ ((u.block p).elem el).state c = act.hs ∧ u.fresh = s.fresh + 1 ∧
          u = { s with blocks := u.blocks, fresh := u.fresh } ∧ (∀ k, k ≠ p → u.block k = s.block k) ∧
          ((u.block p).elem el).halted = act.halt.isSome ∧ (u.block p).queue = bl.queue) ∧
      (handlerReady o m s →
        let env := handlerEnv o m reg s
        let hs := (bl.elem el).state c
        let qa := ((bl.elem el).queue o.a.toNat).head?
        let qb := if o.b.toNat < 16 then ((bl.elem el).queue o.b.toNat).head?
          else if o.b = 0x10#5 then (((hs.held[hs.heldB.length]?).or hs.held.getLast?).or qa).map fun x =>
            ({ fmt := x.fmt, gen := x.gen, data := env.lit } : ETok)
          else none
        let plain (x : ETok) : Prop := x.eos = false ∧ x.isErr = false ∧ o.t = 0#4
        let does (act : Act) : Prop := ∃ u : State, exec i s = .next u ∧ handlerDid act s u ∧ handlerTook o act s u ∧ handlerPut o m act s u
        -- one input
        (∀ x, qa = some x → o.op ∉ [0x00, 0x07, 0x08, 0x0B, 0x0F, 0x10, 0x16, 0x17, 0x18, 0x19] → does (env.one hs x)) ∧
        (∀ x, plain x →
          let moved : Act := { popA := true, hs := { hs with last := some x.gen }, outA := [x] }
          (o.op = 0x1A → env.one hs x = moved) ∧ (o.op = 0x0A → env.one hs x = { moved with outB := [x] }) ∧
          (o.op = 0x0C → env.one hs x = if x.gen.getLsbD (env.lit.extractLsb' 0 5).toNat then { moved with outA := [], outB := [x] } else moved) ∧
          (o.op = 0x0D → env.one hs x = { moved with hs := { moved.hs with n := hs.n + 1 } }) ∧
          (o.op = 0x0E → env.one hs x = if hs.n < (env.lit.extractLsb' 0 24).toNat then { moved with hs := { moved.hs with n := hs.n + 1 } }
            else { popA := true, hs := { hs with n := hs.n + 1 } }) ∧
          (o.op = 0x11 → env.one hs x = { moved with
            outA := [{ x with data := (x.data.extractLsb' 0 128).zeroExtend 256 }], outB := [{ x with data := x.data >>> 128 }] }) ∧
          (o.op = 0x15 → env.one hs x = { popA := true, hs := hs })) ∧
        (∀ x, x.eos = true →
          let ended : HState := { hs.clear with last := some x.gen, streams := hs.streams + 1 }
          let done : ETok := { eos := true, fmt := x.fmt, gen := x.gen }
          (o.op = 0x15 → env.one hs x = { popA := true, hs := { hs with n := hs.n + 1, streams := hs.streams + 1 } }) ∧
          (o.t = 0#4 → o.op = 0x1A → env.one hs x = { popA := true, hs := ended, outA := [done] }) ∧
          (o.t = 0#4 → o.op = 0x0A → env.one hs x = { popA := true, hs := ended, outA := [done], outB := [done] })) ∧
        (∀ x, o.op = 0x1B →
          env.one hs x = if x.isErr then { popA := true, hs := hs, outA := [x] } else { popA := true, hs := hs, halt := some x }) ∧
        -- FIFO
        (o.op = 0x0F →
          (∀ x, qa = some x → hs.held = [] → does { popA := true, hs := { hs with held := [x] } }) ∧
          (∀ x q, hs.held = x :: q → plain x → does { hs := { hs with held := q, last := some x.gen }, outA := [x] })) ∧
        -- two inputs, element by element
        (o.op = 0x00 ∨ o.op = 0x0B ∨ o.op = 0x10 → hs.bad = false →
          (o.b ≠ 0x10#5 → ∀ y, qb = some y → y.isErr = true → does { popB := true, hs := hs }) ∧
          (∀ x, qa = some x → x.isErr = true → (o.b = 0x10#5 ∨ ∀ y, qb = some y → y.isErr = false) →
            does { popA := true, hs := hs, outA := [x] }) ∧
          (∀ x y, qa = some x → qb = some y → plain x → plain y →
            (o.op = 0x0B → y.data.getLsbD 0 = true →
              does { popA := true, popB := o.b != 0x10#5, hs := { hs with last := some x.gen }, outA := [x] }) ∧
            (o.op = 0x0B → y.data.getLsbD 0 = false → does { popA := true, popB := o.b != 0x10#5, hs := hs }) ∧
            (o.op = 0x10 → x.fmt = y.fmt → let z := y.data.extractLsb' 0 128 ++ x.data.extractLsb' 0 128
              does { popA := true, popB := o.b != 0x10#5, hs := { hs with last := some x.gen }, outA := [{ x with data := z }] }) ∧
            (o.op = 0x00 → chunkFull hs.held = false →
              does (if x.fmt = 0xD#4 then { popA := true, hs := { hs with held := hs.held ++ [x] } }
                else { popA := true, hs := hs, outA := [errTok el 0x00 2 x.gen] }))) ∧
          (∀ y, o.op = 0x00 → (∀ x, qa = some x → x.isErr = false) → qb = some y → plain y → chunkFull hs.held = true →
            chunkFull hs.heldB = false →
            does (if y.fmt = 0xD#4 then { popB := o.b != 0x10#5, hs := { hs with heldB := hs.heldB ++ [y] } }
              else { popB := o.b != 0x10#5, hs := hs, outA := [errTok el 0x00 2 y.gen] })) ∧
          (o.op = 0x00 → (∀ x, qa = some x → x.isErr = false) → (o.b = 0x10#5 ∨ ∀ y, qb = some y → y.isErr = false) →
            chunkFull hs.held = true → chunkFull hs.heldB = true → ∀ x y, hs.held.getLast? = some x → hs.heldB.getLast? = some y →
            does (env.emit false (allToks 0xD#4 ((mergeChunks (chunkFrom hs.held) (chunkFrom hs.heldB)).bytes.map BitVec.toNat)) x.gen y.gen
              { hs := { hs with held := [], heldB := [] } }))) ∧
        -- merges
        (o.op = 0x07 ∨ o.op = 0x08 →
          let inOrder : Bool := o.op == 0x08 || env.det
          let fromA (x : ETok) : Act := { popA := true, hs := { hs with flip := true, last := some x.gen }, outA := [x] }
          let fromB (x : ETok) : Act := { popB := true, hs := { hs with flip := false, last := some x.gen }, outA := [x] }
          (o.b ≠ 0x10#5 → ∀ y, qb = some y → y.isErr = true → does { popB := true, hs := hs }) ∧
          (hs.eosA = false → ∀ x, qa = some x → x.isErr = true → (o.b = 0x10#5 ∨ ∀ y, qb = some y → y.isErr = false) →
            does { popA := true, hs := hs, outA := [x] }) ∧
          (hs.eosA = false → hs.eosB = false → ∀ x y, qa = some x → qb = some y → plain x → plain y →
            (inOrder = false → does (if hs.flip then fromB y else fromA x)) ∧
            (inOrder = true → does (if x.gen.toNat ≤ y.gen.toNat then fromA x else fromB y))) ∧
          (hs.eosA = false → inOrder = false → ∀ x, qa = some x → qb = none → plain x → does (fromA x)) ∧
          (hs.eosB = false → inOrder = false → ∀ y, qb = some y → qa = none → plain y → does (fromB y))) ∧
        -- links and bindings
        (o.op = 0x18 → ∀ x, (findD o.a.toNat [] bl.rx).head? = some x → ∃ u : State, exec i s = .next u ∧ handlerDid (env.one hs x) s u ∧
          handlerPut o m (env.one hs x) s u ∧ findD o.a.toNat [] (u.block p).rx = (findD o.a.toNat [] bl.rx).tail) ∧
        (o.op = 0x19 → ∀ x, qa = some x → (findD o.d.toNat [] bl.tx).length < 64 → ∃ u : State, exec i s = .next u ∧
          handlerDid (env.one hs x) s u ∧ handlerTook o (env.one hs x) s u ∧ ((u.block p).elem el).out = [] ∧
          findD o.d.toNat [] (u.block p).tx =
            findD o.d.toNat [] bl.tx ++ (if linkOwned s p reg then (env.one hs x).outA else [])) ∧
        (o.op = 0x16 → ∀ k (ar : Armed) (pc : Parcel) x, bl.armed.findIdx? (fun y => y.bind == o.a.toNat) = some k → bl.armed[k]? = some ar →
          ar.failed = false → ar.got = some pc →
          (tileToks pc.tag ((List.range (Nat.min (bindSize (planeBind m o.a.toNat)) pc.size)).map (slice pc.data 8)))[ar.sent]? = some x →
          let y : ETok := { x with gen := nGen pc.name }
          ∃ u : State, exec i s = .next u ∧ handlerDid (env.one hs y) s u ∧ handlerPut o m (env.one hs y) s u ∧
            (u.block p).armed = bl.armed.set k { ar with sent := ar.sent + 1 }) ∧
        (o.op = 0x17 → ∀ x, qa = some x →
          (x.eos = false → does { popA := true, hs := { hs with held := hs.held ++ [x] } }) ∧
          (x.eos = true → hs.held = [] → (env.tag hs x.gen x.gen).2 ≠ 0 →
            does { popA := true, hs := { hs.clear with streams := hs.streams + 1 }, outB := [errTok el 0x17 (env.tag hs x.gen x.gen).2 x.gen] }) ∧
          (x.eos = true → o.t = 0#4 →
            let ended : HState := { hs.clear with last := some x.gen, streams := hs.streams + 1 }
            (hs.held = [] → does { popA := true, hs := ended, outB := [x] }) ∧
            (∀ w, hs.held ≠ [] → pubTile s reg p m o.d.toNat el c hs.streams hs.held x = some w →
              ∃ u : State, exec i s = .next u ∧ handlerDid { hs := ended } s u ∧ handlerTook o { popA := true, hs := ended } s u ∧
                ((u.block p).elem el).out = [] ∧ (u.block p).tiles = bl.tiles ++ [w]))))

/-! Operations of a core carried out (07 R181, 08 R206 to R222, 09 R235 to R241, 02 R54). -/

/-- 08 R206, R211, R213 to R222, 07 R182, R183, 02 R54, 17 R435: an operation that stands in the list is carried out when
what must precede it has been. A part is performed at its agent or fills its line: a load takes the agent's bytes under the core's dirty ones, a
store, a write-back, an atomic and a cell operation leave their bytes in memory. A timed-out host access counts as poisoned,
a fence acts and its token lands, a promotion writes back the target's log, an engine reads its list, moves its rows byte by byte, the higher
row remaining where two meet, and later readies its
tile, a remote access reads or writes the other core's A buffer, and an answer lands. What a link fence waits for is the model's reading
(log 17), as are the address that a QLD of a poisoned word gives (log 67), the stall that a promotion's sample shows (log 76) and what a host
request's time-out strikes (log 50). -/
def Obligations.OperationEventResults : Prop :=
  ∀ (s : State) (o : Op), s.core.ops[inp s 0]? = some o →
    let j := inp s 0
    let i := inp s 1
    let va := o.va.toNat + 64 * i
    let may : Prop := o.wait = false ∧ o.resp = false ∧ i < o.parts ∧ o.done.contains i = false ∧ mayPerform s.core j o = true
    let with_ (t : State) (c : Core) : Out := .next { t with core := c }
    (may → o.agentPart i = true → podReady s o.scope o.fid = true →
      exec .agentRequest s = with_ (performPart o i s).2 ((performPart o i s).2.core.setOp j ((performPart o i s).1.finish i))) ∧
    (may → o.hostPart i = true → podReady s o.scope o.fid = true →
      exec .hostRequestTimeout s = with_ s (s.core.setOp j ((o.fail va .poison).finish i))) ∧
    (∀ line, may → o.bytes ≠ 0 → o.agentPart i = false → agentRead s (regionOf s) (64 * (va / 64)) 64 .read = .ok line →
      ∃ t : State, exec .gcacheFill s = .next t ∧ t.core.regs = s.core.regs ∧
        t.core.ops = s.core.ops.set j ((o.take i (cachedBytes t.core o i)).finish i) ∧
        ∃ g, t.core.gline (va / 64) = some g ∧ g.valid = BitVec.allOnes 64 ∧
          ((s.core.setLines (va / 64)).length < 8 → let old := (s.core.gline (va / 64)).getD {}
            memorySame s t ∧ g.dirty = old.dirty ∧
              ∀ k, k < 64 → slice g.data.toNat 8 k = if old.valid.getLsbD k then slice old.data.toNat 8 k else slice line 8 k)) ∧
    -- what the agents do: loads, stores, claims, write-backs, atomics and cells
    (let reg := regionOf s
     let done (t : State) (o : Op) : Prop := exec .agentRequest s = .next t ∧ t.core.ops = s.core.ops.set j (o.finish i)
     may → podReady s o.scope o.fid = true →
      (∀ z b line, o.kind = .gload z b ∨ o.kind = .ldacq z → o.agentPart i = true → isHost va = false →
        agentRead s reg (64 * (va / 64)) 64 .read = .ok line →
        let len := min (sizeBytes z) 64
        ∃ t y, done t { o with got := o.got ||| (((y >>> (8 * (va % 64))) % 2 ^ (8 * len)) <<< (8 * len * i)) } ∧ memorySame s t ∧
          ∀ k, k < 64 → slice y 8 k = match s.core.gline (va / 64) with
            | some g => if g.dirty.getLsbD k then slice g.data.toNat 8 k else slice line 8 k
            | none => slice line 8 k) ∧
      (∀ n, o.kind = .gstore n ∨ o.kind = .strel n → GlobalWf s →
        let u := if o.kind = .strel n ∧ 4 ≤ o.scope then waferRelease s else s
        let len := min n 64
        ∀ p, xlate u reg va .write = .ok p → ∃ t, done t o ∧
          let byte (h : Bool) (b : Nat) (old : Byte) : Byte :=
            if p.host = h ∧ p.addr ≤ b ∧ b < p.addr + len then BitVec.ofNat 8 (slice (slice o.data (8 * len) i) 8 (b - p.addr)) else old
          ∀ b, rd t.hbm b = byte false b (rd u.hbm b) ∧ rd t.host b = byte true b (rd u.host b)) ∧
      (∀ ls n p, let l := ls.getD i 0
        o.kind = .claim ls n → isHost (64 * l) = false → xlate s reg (max o.va.toNat (64 * l)) .write = .ok p → ∃ t, done t o ∧ memorySame s t ∧
          ∀ g, s.core.gline l = some g → g.valid ≠ 0#64 → t.core.gline l = some { g with w := some p.writable }) ∧
      (∀ l g p, o.kind = .clwb (some l) ∨ o.kind = .clinv (some l) → GlobalWf s → s.core.gline l = some g → xlate s reg (64 * l) .write = .ok p →
        ∃ t, done t o ∧
          (p.host = false → ∀ k, k < 64 → rd t.hbm (p.addr + k) =
            if g.dirty.getLsbD k then BitVec.ofNat 8 (slice g.data.toNat 8 k) else rd s.hbm (p.addr + k)) ∧
          (o.kind = .clwb (some l) → g.valid ≠ 0#64 → t.core.gline l = some { g with dirty := 0#64 }) ∧
          (o.kind = .clinv (some l) → sortedFrom 0 s.core.gcache = true → t.core.gline l = none)) ∧
      (∀ op x y p, let u := flushLine (o.va.toNat / 64) (releaseBefore o s)
        o.kind = .atom op x y → xlate u reg o.va.toNat .both = .ok p → u.lineBad p.addr = false →
        let w := rdN u.hbm p.addr 8
        let old : W64 := BitVec.ofNat 64 w
        ∃ t new, done t { o with got := w } ∧ t.hbm = wrN u.hbm p.addr (BitVec.toNat new) 8 ∧
          (op = 0 → new = old + x) ∧ (op = 1 → new = old &&& x) ∧ (op = 2 → new = old ||| x) ∧ (op = 3 → new = old ^^^ x) ∧
          (op = 4 → new = if old.toInt < x.toInt then old else x) ∧ (op = 5 → new = if old.toInt < x.toInt then x else old) ∧
          (op = 6 → new = x) ∧ (op = 7 → new = if old = x then y else old)) ∧
      (∀ z lanes p, let u := flushLine (va / 64) (releaseBefore o s)
        o.kind = .mred z lanes → va < 2 ^ 56 → xlate u reg va .both = .ok p → u.lineBad p.addr = false →
        let cell := cellOfLine (rdN u.hbm p.addr 64)
        (2 ≤ z → ∃ t, done t o ∧ t.hbm = wrN u.hbm p.addr 0 64) ∧
        (z < 2 → countOver cell.count.toNat 1 = false → ∃ t, done t o ∧
          t.hbm = wrN u.hbm p.addr (lineOfCell (cell.add (decodeFp fmtFP32 (lanes.getD i 0)))) 64)) ∧
      (∀ fmt clr p, let u := flushLine (o.va.toNat / 64) (releaseBefore o s)
        o.kind = .mredrd fmt clr → xlate u reg o.va.toNat .both = .ok p → u.lineBad p.addr = false →
        let cell := cellOfLine (rdN u.hbm p.addr 64)
        let r := cell.round (fmtF (BitVec.ofNat 4 (3 + fmt)))
        ∃ t, done t { o with got := r.1, flags := r.2 } ∧ t.hbm = wrN u.hbm p.addr (if clr then 0 else lineOfCell cell) 64)) ∧
    (∀ x, x < 2 ^ 365 → let m := cellOfLine x
      m.v = BitVec.ofNat 320 x ∧ m.count = BitVec.ofNat 41 (x >>> 320) ∧ m.ns = x.testBit 361 ∧ m.ps = x.testBit 362 ∧ m.ngs = x.testBit 363 ∧
        m.az = !x.testBit 364 ∧ lineOfCell m = x) ∧
    (∀ all, o.kind = .fence all → o.resp = false → fenceReady s (s.core.ops.take j) o.fid all o.cls o.scope = true →
      let t := if 4 ≤ o.scope then (waferRelease s).onCore Core.waferAcquire else s
      exec .fenceComplete s = with_ t ((t.core.dropOp j).landVar o.fid o.fw .none 0#5 o.tc)) ∧
    (∀ z task e, o.kind = .promacq z task → o.resp = false → o.started = false → mayPerform s.core j o = true →
      find? task (s.region (regionOf s)).dir = some e →
      let n := ((s.focus e.core).core.darn.filter fun d => d.seq.ule (s.focus e.core).core.rseq).length
      let u := offer ((promote (s.focus e.core).core.rseq (s.focus e.core)).focus s.cur) (reticleOf e.core) (regionOf s) 3 0
        (min (inp s 1) (min 640 (128 + 2 * n)))
      let read (t : State) : Op × State := if isHost o.va.toNat then performHostLoad o 0 (sizeBytes z) t else performLoad o 0 (sizeBytes z) t
      (e.state = .lost → exec .promotionRequest s = with_ s (s.core.setOp j ((o.fail o.va.toNat .taskLost).finish 0))) ∧
      (e.state = .saved → exec .promotionRequest s = with_ (read s).2 ((read s).2.core.setOp j ((read s).1.finish 0)) ∧
        (isHost o.va.toNat = true → exec .hostRequestTimeout s = with_ s (s.core.setOp j ((o.fail o.va.toNat .poison).finish 0)))) ∧
      (e.state = .resident → s.within (regionOf s) e.core = true → (s.coreAt e.core).halt = .no →
        exec .promotionRequest s = with_ (read u).2 ((read u).2.core.setOp j ((read u).1.finish 0)))) ∧
    (∀ e, o.engine = some e →
      (o.started = false → engMayStart s.core j o = true →
        let t : State := { s with core := s.core.setOp j { o with started := true } }
        (e.listLines ≠ [] → exec .engineCmdStart s = .next t) ∧
        (e.listLines = [] → (∀ row, row < e.rows → ∃ a, e.rowAddr o.snap row = some a ∧ e.inSpace a = true) →
          exec .engineCmdStart s =
            .next ((t.core.dirtyLines.filter fun l => (e.lines o.snap).contains l).foldl (fun s l => wbLine l s) t))) ∧
      (o.started = true → e.whole o = true → o.bad = none →
        let c1 := if e.stores then ((e.lines o.snap).filter fun l => (s.core.gline l).isSome).foldl Core.invClean s.core else s.core
        let c2 := if e.tiled then c1.setTile e.tile (c1.tile e.tile).toReady else c1
        exec .engineCmdComplete s = with_ s ((c2.dropOp j).landVar o.fid o.fw .none 0#5 o.tc)) ∧
      -- the bytes that an engine command moves, a line a turn: row by row between the tile and global space
      (∀ k, step { s with agenda := .engine s.cur j k :: s.agenda } = .next (enginePart j k s)) ∧
      (∀ row z, (e.minor = 0 → e.rowAddr o.snap row = some (e.ga.toInt + (row : Int) * ((e.desc.extractLsb' 32 32).toInt))) ∧
        (e.minor = 3 → e.rowAddr o.snap row = some e.ga.toInt) ∧
        (e.minor = 1 ∨ e.minor = 2 → e.index o.snap row = some z → e.rowAddr o.snap row = some (e.ga.toInt + ((z * e.rb : Nat) : Int)))) ∧
      (∀ l x, o.started = true → e.listed o = true → e.stores = false → l ∈ e.lines o.snap → o.done.contains (partGlob l) = false →
        agentRead s (regionOf s) (64 * l) 64 .read = .ok x →
        (enginePart j (partGlob l) s).core.ops = s.core.ops.set j
          { o with snap := insert (globKey l) (some (BitVec.ofNat 512 x)) o.snap, done := partGlob l :: o.done }) ∧
      (let t := s.core.tile e.tile
       let rows := e.goodRows o.snap
       let at_ (row q : Nat) : Nat := e.off + row * e.rb + q
       o.started = true → e.listed o = true → BuffersWf s.core → t.buf ≠ 3#2 →
       (∀ l p, l < 2 ^ 50 → e.stores = true → l ∈ e.lines o.snap → o.done.contains (partGlob l) = false → GlobalWf s →
          (e.minor = 3 ∧ e.ga.extractLsb' 56 8 = 0#8 ∨ e.minor ≠ 3 ∧ ∀ y ∈ e.inLine o.snap l, s.core.bad t.buf (t.base + y.lo) y.n = false) →
          xlate s (regionOf s) (64 * l) .write = .ok p → p.host = false →
          let u := enginePart j (partGlob l) s
          (∀ row a q, (row, a) ∈ rows → q < e.rb → (a + q) / 64 = l →
            (∀ r b, (r, b) ∈ rows → row < r → a + q < b ∨ b + e.rb ≤ a + q) →
            rd u.hbm (p.addr + (a + q) % 64) =
              if e.minor = 3 then BitVec.ofNat 8 (slice e.fillv.toNat 8 (q % 8)) else rd (s.core.buf t.buf) (t.base + at_ row q)) ∧
          (∀ b, (∀ row a q, (row, a) ∈ rows → q < e.rb → (a + q) / 64 = l → b ≠ p.addr + (a + q) % 64) → rd u.hbm b = rd s.hbm b)) ∧
       (∀ k, k ∈ e.tileLines → o.done.contains (partTile k) = false →
          (e.glob = true → ∀ y ∈ e.inTileLine o.snap k, o.done.contains (partGlob (y.va / 64)) = true) →
          let u := enginePart j (partTile k) s
          memorySame s u ∧
          (e.minor = 3 → ∀ q, q < e.rb → (e.off + q) / 64 = k →
            rd (u.core.buf t.buf) (t.base + e.off + q) = BitVec.ofNat 8 (slice e.ga.toNat 8 (q % 8))) ∧
          (e.minor ≠ 3 → ∀ row a q w, (row, a) ∈ rows → q < e.rb → at_ row q / 64 = k → findD (globKey ((a + q) / 64)) none o.snap = some w →
            rd (u.core.buf t.buf) (t.base + at_ row q) = BitVec.ofNat 8 (slice (BitVec.toNat w) 8 ((a + q) % 64)))))) ∧
    (∀ task e, o.resp = false → o.started = false → i < o.parts → o.done.contains i = false → qMayPerform s.core j o = true →
      find? task (s.region (regionOf s)).dir = some e →
      let n := if o.parts = 4 then 64 else 8
      let k := s.coreAt e.core
      let meets : Prop := e.state = .resident ∧ s.within (regionOf s) e.core = true ∧ (k.moving = false ∨ k.halt = .no)
      let at_ (k : Core) (o : Op) : Out := with_ (s.setCoreAt e.core k) ((s.setCoreAt e.core k).core.setOp j (o.finish i))
      (∀ v ra adr, o.kind = .qld v ra task adr → meets →
        exec .remoteQaccess s = at_ k (if k.bad 1#2 (adr + n * i) n then { o with bad := some (o.va.toNat, .poison) }
          else { o with got := o.got ||| (k.load 1#2 (adr + n * i) n <<< (8 * n * i)) })) ∧
      (∀ v ra adr, o.kind = .qst v ra task adr → meets →
        exec .remoteQaccess s = at_ (k.store 1#2 (adr + n * i) (slice o.data (8 * n) i) n) o) ∧
      (∀ v ra adr, o.kind = .qld v ra task adr ∨ o.kind = .qst v ra task adr → e.state = .lost →
        exec .remoteQaccess s = with_ s (s.core.setOp j { o with bad := some (o.va.toNat, .taskLost), resp := true }))) ∧
    (let p := o.served s j
     p.resp = true → p.bad = none ∨ s.core.faultRoom o.fid = true → s.core.fwm = false ∨ o.fw = true ∨ s.core.ending = .trapEnd ∨ s.core.lq.length < 64 →
      exec .varResultLand s = .next (landOp j p (if o.kind.isLoad then
        offer s (reticleOf s.cur) (regionOf s) 2 0 (s.core.cycle - o.born).toNat else s))) ∧
    (∀ u x, o.kind = .moncfg u x → (∀ e ∈ s.core.ops.take j, ∀ v y, e.kind ≠ .moncfg v y) →
      ∃ t : State, exec .moncfgApply s = .next t ∧ (t.capture (reticleOf s.cur) u).cfg = x &&& cfgBits ∧ t.core = s.core.dropOp j)

/-- 10 R261 to R281, 11 R283 to R291: tokens at routers and at their homes. A token that no earlier one of its path precedes
is counted, copied, merged or passed on; at its home it is served, stored, merged or answered, and leaves the network or is
held there. A publication is copied to the tree, serves the one-shots that wait for it and the direct subscribers, and is stored as an
aired entry where its descriptor gives a hold; a one-shot is served from such an entry or recorded; a contribution is merged into its
reduction entry or opens one; ROPEN declares it. Which home an unsubscription goes to, that it ends where its subscription's path turned, and
that a table's counting is done with a token's turn is log 45; that a token held for want of room is tried again at any time is log 33;
which free lines an entry takes is log 82. -/
def Obligations.NetworkEventResults : Prop :=
  ∀ (s : State) (t : Token), s.net[inp s 0]? = some t →
    let j := inp s 0
    let picks := s.input.drop 1
    (∀ u, behind s j t = false → t.resolved s = some u →
      let noted (f : Map (List Nat) → Map (List Nat)) : State :=
        if t.dest.isSome then s else s.onRegion u.region fun r => { r with subPath := f r.subPath }
      (∀ task num n m direct, t.msg = .sub task num n m direct → t.here = false →
        let v := noted (insert (subKey u.src task num) u.dest.toList)
        (direct = true ∨ u.dest = some u.loc → exec .subscriptionToken s = .next (hopOn v j u)) ∧
        (direct = false → u.dest ≠ some u.loc →
          (∀ r, (s.router u.loc).count n m u.port = some r →
            exec .subscriptionToken s = .next (hopOn (v.setRouter u.loc r) j { u with counted := false })) ∧
          ((s.router u.loc).count n m u.port = none → exec .subscriptionToken s =
            .next (hopOn ((offer v (reticleOf u.loc) u.region 9 0 1).onRouter u.loc fun r =>
              { r with mtfull := satInc r.mtfull, turned := r.turned ++ [(task, num)] }) j
              { u with msg := .sub task num n m true, counted := false })))) ∧
      (t.here = false → (∃ n w old, t.msg = .oneShot n w old) ∨ (∃ n w, t.msg = .withdraw n w) ∨ (∃ n b x, t.msg = .nhold n b x) ∨
          (∃ n, t.msg = .nrel n) ∨ (∃ n k, t.msg = .nqry n k) ∨ (∃ n m x f, t.msg = .ropen n m x f) →
        exec .subscriptionToken s = .next (hopOn s j u)) ∧
      (∀ task num n m direct, t.msg = .unsub task num n m direct →
        let v := noted (erase (subKey u.src task num))
        let turns := direct || (s.router u.loc).turned.contains (task, num)
        let mine (d : Nat × Nat × Name × Name) : Bool := d.1 == task && d.2.1 == num && d.2.2.1 == n
        let did := v.onRouter u.loc fun r =>
          if direct then r else if turns then { r with turned := r.turned.erase (task, num) } else r.uncount n m u.port
        (u.dest = some u.loc → u.here = false → exec .unsubscriptionToken s = .next (hopOn v j u)) ∧
        (u.dest ≠ some u.loc → u.here = false →
          exec .unsubscriptionToken s = .next (hopOn did j { u with msg := .unsub task num n m turns })) ∧
        (homeTurn s t = true →
          exec .unsubscriptionToken s = .next (unsubTurns did j { u with msg := .unsub task num n m turns } task num n turns) ∧
          (turns = true → ((did.router u.loc).directs.any mine) = true → exec .unsubscriptionToken s =
            .next ((did.onRouter u.loc fun r => { r with directs := r.directs.filter fun d => !mine d }).dropTok j)) ∧
          (turns = false → u.path.dropLast.all (· == u.loc) = true → exec .unsubscriptionToken s = .next (did.dropTok j))))) ∧
    (t.here = false → behind s j t = false →
      let ports (n : Name) : List Nat := ((s.router t.loc).portsFor n).filter fun q => q != t.port || q == 0
      (∀ p, t.msg = .copy p → exec .publicationHop s =
        .next ((copyTo s t p (if leftFrom s t p.name = [] then ports p.name else nub (ports p.name ++ [0]))).dropTok j)) ∧
      (∀ p d, t.msg = .pub p → t.dest = some d →
        (t.loc = d → exec .publicationHop s = .next (hopOn s j t)) ∧
        (t.loc ≠ d → exec .publicationHop s = .next (hopOn (copyTo s t p ((ports p.name).filter fun q => q != portTo s t.loc d)) j t)))) ∧
    (homeTurn s t = true →
      let r := s.router t.loc
      -- publications
      (∀ p, t.msg = .pub p → exec .publicationAtHome s = .next ((treatAtHome s t p picks).dropTok j)) ∧
      (∀ p u, t.msg = .pub p → exec .publicationAtHome s = .next u →
        let d := descAt s t.region t.loc p.name
        let others := r.airDir.filter fun a => a.name != p.name
        let nl := (p.size + 63) / 64
        (∀ q ∈ copyPorts s t p.name, (q = 0 → ∃ e ∈ u.net, e.loc = t.loc ∧ e.msg = .arrive p none) ∧
          ∀ n, q ≠ 0 → neighbour s (s.region t.region) t.loc q = some n → ∃ e ∈ u.net, e.loc = n ∧ e.msg = .copy p) ∧
        (∀ w ∈ r.shots, w.name = p.name → ∃ e ∈ u.net, e.loc = t.loc ∧ e.msg = .giveTo p w.who) ∧
        (u.router t.loc).shots = (r.shots.filter fun w => w.name != p.name) ∧
        (∀ x ∈ r.directs, matchesPat p.name x.2.2.1 x.2.2.2 = true → t.given.contains (x.1, x.2.1) = false →
          ∃ e ∈ u.net, e.loc = t.loc ∧ e.msg = .give p x.1 x.2.1) ∧
        (t.fetched = false →
          (holds d = false ∨ reduces s t p.name = true → (u.router t.loc).airDir = r.airDir ∧ (u.router t.loc).air = r.air) ∧
          (∀ l, holds d = true → reduces s t p.name = false → others.length < 256 → ({ r with airDir := others } : Router).freeRun nl = some l →
            r.air.wf = true →
            (u.router t.loc).airDir = others ++ [{ name := p.name, state := .held, hkind := dHkind d
                                                   hcnt := if dHkind d = 1 then dHval d else 0#8, round0 := r.round
                                                   hrnd := if dHkind d = 2 then (dHval d).extractLsb' 0 4 else 0#4
                                                   tag := p.tag, size := p.size, line0 := l, born := t.born }] ∧
            (∀ b, b < p.size → rd (u.router t.loc).air (64 * l + b) = BitVec.ofNat 8 (slice p.data 8 b)) ∧
            (∀ b, b < 64 * l ∨ 64 * (l + nl) ≤ b → rd (u.router t.loc).air b = rd r.air b)))) ∧
      -- one-shots
      (∀ n w old, t.msg = .oneShot n w old → t.held = false → exec .subscriptionAtHome s = .next (serveAtHome s j t) ∧
        let v := match old, t.path with
          | some o, h :: _ => s.onRouter h fun r => { r with shots := r.shots.filter fun p => !(p.name == o && p.who.same w) }
          | _, _ => s
        let q := v.router t.loc
        let served (a : Aired) : Token := { region := t.region, loc := t.loc, gone := true, born := a.born
                                            msg := .giveTo ⟨a.name, a.tag, a.size, rdN q.air (64 * a.line0) a.size⟩ w }
        let asks : Token := { region := t.region, loc := t.loc, msg := .fetch n [] [], gone := true, born := t.born }
        let counted (a : Aired) : Aired :=
          if a.state = .held ∧ a.hkind = 1 then { a with hcnt := a.hcnt - 1#8, state := if a.hcnt = 1#8 then .aired else .held } else a
        let joined (r : Router) : Router := { r with shots := r.shots ++ [{ name := n, who := w, epoch := askerEpoch s t.region w }] }
        (∀ a, q.airDir.find? (fun a => a.name == n && a.state != .pending) = some a → exec .subscriptionAtHome s =
          .next (((v.onRouter t.loc fun r => r.putAired n counted).dropTok j).send
            (served a))) ∧
        (q.airDir.find? (fun a => a.name == n && a.state != .pending) = none →
          (64 ≤ q.shots.length → exec .subscriptionAtHome s = .next (v.setTok j { t with held := true })) ∧
          (q.shots.length < 64 →
            (q.airDir.any fun a => a.name == n) = true ∨ backing (descAt s t.region t.loc n) n = none ∨ reduces s t n = true →
            exec .subscriptionAtHome s = .next ((v.onRouter t.loc joined).dropTok j)) ∧
          (q.shots.length < 64 → (q.airDir.any fun a => a.name == n) = false → (backing (descAt s t.region t.loc n) n).isSome = true →
            reduces s t n = false →
            (256 ≤ q.airDir.length → exec .subscriptionAtHome s = .next (v.setTok j { t with held := true })) ∧
            (q.airDir.length < 256 → exec .subscriptionAtHome s =
              .next (((v.onRouter t.loc fun r => joined { r with airDir := r.airDir ++ [{ name := n, state := .pending }] }).dropTok j).send asks))))) ∧
      -- standing subscriptions
      (∀ task num n m u, t.msg = .sub task num n m true → t.held = false → r.directs.length < 256 → exec .subscriptionAtHome s = .next u →
        (u.router t.loc).shots = r.shots ∧
        (∀ a ∈ r.airDir, a.state ≠ .pending → matchesPat a.name n m = true →
          ∃ e ∈ u.net, e.loc = t.loc ∧ e.msg = .give (a.parcel r) task num) ∧
        (m ≠ BitVec.allOnes 96 ∨ backing (descAt s t.region t.loc n) n = none ∨ reduces s t n = true →
          (u.router t.loc).directs = r.directs ++ [(task, num, n, m)])) ∧
      -- holds, releases and queries
      (∀ n rnd x, t.msg = .nhold n rnd x → exec .nholdAtHome s = .next ((s.onRouter t.loc fun r => r.putAired n fun a =>
        if a.state = .pending then a
        else if rnd then { a with state := if x.extractLsb' 0 4 = 0#4 then .aired else .held, hkind := 2, hrnd := x.extractLsb' 0 4, round0 := r.round }
        else { a with state := if x.extractLsb' 0 8 = 0#8 then .aired else .held, hkind := 1, hcnt := x.extractLsb' 0 8 }).dropTok j)) ∧
      (∀ n, t.msg = .nrel n → exec .nrelAtHome s =
        .next ((s.onRouter t.loc fun r => r.putAired n fun a => if a.state = .pending then a else { a with state := .aired }).dropTok j)) ∧
      (∀ n ser k o, t.msg = .nqry n ser → (s.coreAt t.src).opIdx ser = some k → (s.coreAt t.src).ops[k]? = some o →
        exec .nqryAtHome s =
          .next ((s.setCoreAt t.src ((s.coreAt t.src).setOp k { o with got := (queryWord s t n).toNat, resp := true })).dropTok j)) ∧
      (∀ n task i fid, t.msg = .withdraw n (.tile task i fid) →
        let asked (e : Token) : Bool := match e.msg with | .oneShot m w _ => m == n && w.same (.tile task i fid) | _ => false
        (∀ e ∈ s.net.take j, asked e = true → e.held = true) →
        let coming := s.net.any fun e => match e.msg with | .giveTo p w => p.name == n && w.same (.tile task i fid) | _ => false
        ∃ u : State, exec .withdrawalAtHome s = .next u ∧ u.net = (dropAt s.net j).filter (fun e => !(asked e && e.held)) ++
            [{ region := t.region, loc := t.loc, msg := .withdrawn n task i coming, fid := fid, gone := true, born := t.born }] ∧
          ∀ p ∈ (u.router t.loc).shots, p.name ≠ n ∨ p.who.same (.tile task i fid) = false) ∧
      -- reductions
      (∀ n k bytes len, t.msg = .contrib n k bytes len → t.held = false →
        let ch := chunkOf bytes len
        let took (old : M320) (x : Nat) : M320 := old.merge (ch.decoded.getD x .empty)
        exec .contributionAtHome s = .next (contributeAtHome s j t n k ch) ∧
        (∀ i e, redIdx r n = some i → r.reds[i]? = some e → e.spill = false → r.air.wf = true →
          let cell (a : Memory) (x : Nat) : Nat := rdN a (64 * (e.place + (64 * k + x))) 64
          ∃ u : State, exec .contributionAtHome s = .next u ∧ u.net = dropAt s.net j ∧
            (countOver (e.counts.getD k 0) ch.count = false →
              (u.router t.loc).reds = setAt r.reds i { e with counts := setAt e.counts k (e.counts.getD k 0 + ch.count) }.recount ∧
              ∀ x, x < min 64 (e.nelem - 64 * k) → cell (u.router t.loc).air x = lineOfCell (took (cellOfLine (cell r.air x)) x)) ∧
            (countOver (e.counts.getD k 0) ch.count = true →
              (u.router t.loc).reds = setAt r.reds i { e with ovr := k :: e.ovr }.recount ∧
              ∀ x, x < min 64 (e.nelem - 64 * k) → cell (u.router t.loc).air x = lineOfCell { cellOfLine (cell r.air x) with ns := true }) ∧
            ∀ b, b < 64 * (e.place + 64 * k) ∨ 64 * (e.place + 64 * k + min 64 (e.nelem - 64 * k)) ≤ b →
              rd (u.router t.loc).air b = rd r.air b) ∧
        (∀ ne c l, redIdx r n = none → redShape (descAt s t.region t.loc n) = some (ne, c) → r.table.length + r.reds.length < 1024 →
          r.freeRun ne = some l → r.air.wf = true → countOver 0 ch.count = false →
          ∃ u : State, exec .contributionAtHome s = .next u ∧ u.net = dropAt s.net j ∧
            (u.router t.loc).reds =
              r.reds ++ [RedEntry.recount { name := n, nelem := ne, place := l, counts := setAt (List.replicate c 0) k ch.count }] ∧
            ∀ x, x < ne → rdN (u.router t.loc).air (64 * (l + x)) 64 =
              if 64 * k ≤ x ∧ x < 64 * k + 64 then lineOfCell (took (cellOfLine 0) (x - 64 * k)) else 0) ∧
        (redIdx r n = none → redAlloc s t.region t.loc n = none → exec .contributionAtHome s = .next (s.setTok j { t with held := true }))) ∧
      (∀ n res cnt fmt, t.msg = .ropen n res cnt fmt → t.held = false →
        let declared (e : RedEntry) : RedEntry :=
          RedEntry.recount { e with opened := true, dcount := cnt.toNat, rfmt := fmt, rname := nSpace n ++ res.extractLsb' 0 84 }
        exec .ropenAtHome s = .next (openAtHome s j t n res cnt fmt) ∧
        (∀ i e, r.reds.findIdx? (fun e => e.name == n && !e.opened) = some i → r.reds[i]? = some e →
          exec .ropenAtHome s = .next ((s.onRouter t.loc fun r => { r with reds := setAt r.reds i (declared e) }).dropTok j)) ∧
        ((∀ e ∈ r.reds, e.name = n → e.opened = true) → (∃ e ∈ r.reds, e.name = n) → exec .ropenAtHome s = .next (s.dropTok j)) ∧
        (∀ ne c l, (∀ e ∈ r.reds, e.name ≠ n) → redShape (descAt s t.region t.loc n) = some (ne, c) → r.table.length + r.reds.length < 1024 →
          r.freeRun ne = some l →
          ∃ u : State, exec .ropenAtHome s = .next u ∧ u.net = dropAt s.net j ∧ (u.router t.loc).reds =
            r.reds ++ [declared { name := n, nelem := ne, place := l, counts := List.replicate c 0 }]) ∧
        ((∀ e ∈ r.reds, e.name ≠ n) → redAlloc s t.region t.loc n = none → exec .ropenAtHome s = .next (s.setTok j { t with held := true })))) ∧
    (t.atHome = true → t.held = true →
      let u := { t with held := false }
      (∀ n k bytes len, t.msg = .contrib n k bytes len →
        exec .heldTokenRetry s = .next (contributeAtHome s j u n k (chunkOf bytes len))) ∧
      (∀ n res cnt fmt, t.msg = .ropen n res cnt fmt → exec .heldTokenRetry s = .next (openAtHome s j u n res cnt fmt)) ∧
      ((∃ n w old, t.msg = .oneShot n w old) ∨ (∃ a b n m d, t.msg = .sub a b n m d) → exec .heldTokenRetry s = .next (serveAtHome s j u))) ∧
    (∀ n k bytes len d, t.msg = .contrib n k bytes len → t.dest = some d → t.loc ≠ d → t.here = false → behind s j t = false →
      let r := s.router t.loc
      let ch := chunkOf bytes len
      (∀ i sl, r.slots.find? (fun p => p.2.name == n && p.2.chunk == k && !p.2.flushing) = some (i, sl) →
        (countOver sl.count ch.count = true → exec .contributionToken s = .next (hopOn s j t)) ∧
        let merged : RedSlot := { sl with count := sl.count + ch.count, acc := (sl.acc.zip ch.decoded).map fun p => p.1.merge p.2 }
        (countOver sl.count ch.count = false → exec .contributionToken s =
          .next ((s.onRouter t.loc fun r => { r with slots := insert i merged r.slots }).dropTok j))) ∧
      ((∀ p ∈ r.slots, p.2.name ≠ n ∨ p.2.chunk ≠ k ∨ p.2.flushing = true) →
        ((∀ i, i < 16 → (find? i r.slots).isSome = true) → exec .contributionToken s = .next (hopOn s j t)) ∧
        ∀ i, i < 16 → find? i r.slots = none → (∀ h, h < i → (find? h r.slots).isSome = true) →
          ∃ u : State, exec .contributionToken s = .next u ∧ u.net = dropAt s.net j ∧
            ∃ sl, find? i (u.router t.loc).slots = some sl ∧ sl.name = n ∧ sl.chunk = k ∧ sl.count = ch.count ∧ sl.acc = ch.decoded)) ∧
    (∀ n got bad, t.msg = .fetch n got bad →
      let d := descAt s t.region t.loc n
      let va := (backing d n).getD 0
      let ls := linesOf va (dSize d)
      ∀ l x, inp s 1 < 2 ^ 32 → ls[inp s 1]? = some l → find? l got = none → (∀ y ∈ bad, y.1 / 64 ≠ l) →
        agentRead s t.region (64 * l) 64 .read = .ok x →
        let read := insert l (BitVec.ofNat 512 x) got
        let v := cacheLeaf s t.region (64 * l)
        let p : Parcel := ⟨n, dFmt d, dSize d, tileOf read va (dSize d)⟩
        let pub : Token := { region := t.region, loc := t.loc, dest := some t.loc, msg := .pub p, src := t.loc, fid := BitVec.allOnes 64
                             gone := true, here := true, since := s.clock, born := some s.clock, pub := v.newPub, fetched := true }
        (read.length + bad.length < ls.length →
          exec .fallThroughFetch s = .next (v.setTok j { t with msg := .fetch n read bad })) ∧
        (ls.length ≤ read.length → bad = [] → exec .fallThroughFetch s = .next (v.setTok j pub))) ∧
    (∀ n, t.entry s = none → t.targetCore s = some n →
      let c := s.coreAt n
      (s.within t.region n = false → exec .tileDelivery s = .next (refuseAtBorder (s.dropTok j) t.region t.loc n t.msg.name t.msg.cls)) ∧
      (s.within t.region n = true → t.loc ≠ n → exec .tileDelivery s = .next (s.setTok j { t with loc := n })) ∧
      (s.within t.region n = true → t.loc = n → c.takesNone = false →
        ((∀ e ∈ s.net.take j, e.msg.cls = 1 → e.targetCore s ≠ some n) →
          (∀ p task num slot, t.msg = .give p task num → holderOf s t.region task = some (n, slot) →
            let d := c.deliverStanding slot num p t.born
            (d.2 = true → exec .tileDelivery s = .next (((offerStale t n c d.1 s).dropTok j).setCoreAt n d.1)) ∧
            (d.2 = false → exec .tileDelivery s = .next s) ∧
            ∀ pat i, ((c.slots[slot.toNat]'slot.isLt).subs[num]?) = some pat →
              c.verdict (c.slots[slot.toNat]'slot.isLt) pat p.name = .take i → p.size ≤ (c.tile i).size →
              d = (c.setTile i { c.tile i with tag := p.tag, name := p.name, filler := .delivery (some (p, t.born)) }, true)) ∧
          (∀ p task i fid slot, t.msg = .giveTo p (.tile task i fid) → holderOf s t.region task = some (n, slot) → c.faultRoom fid = true →
            (c.tile i).holds = 0#5 → exec .tileDelivery s = .next ((s.dropTok j).setCoreAt n (c.deliverOneShot slot i fid p t.born)) ∧
              ((c.tile i).state = .filling → (c.tile i).filler = .delivery none → (c.tile i).name = p.name → p.size ≤ (c.tile i).size →
                c.deliverOneShot slot i fid p t.born =
                  c.setTile i { c.tile i with tag := p.tag, name := p.name, filler := .delivery (some (p, t.born)) }))) ∧
        (∀ name task i coming, t.msg = .withdrawn name task i coming → exec .tileDelivery s =
          .next ((s.dropTok j).setCoreAt n (c.setTile i ((c.tile i).withdrawn coming))))))

/-- 10 R276, R278, 11 R284, R287, R291, 10 R256, 12 R301: the router reads a published tile and its publication, or its contribution's
tokens, one a chunk, stand at it with the home resolved; a slot whose timer has run out is sent on; a completing reduction is published
and freed; a home moves to another router with its state, which stands there as `moveHome` lays it. A hand-over whose old holder lies
outside the region is refused at the border and moves nothing. That a hand-over is two events, the first of which marks the entry and the
second of which moves, is the model's choice (log 45). -/
def Obligations.PublicationEventResults : Prop :=
  ∀ (s : State),
    (∀ o n i rel, s.core.ops[inp s 0]? = some o → o.kind = .pub n i rel →
      let u := if rel then waferRelease s else s
      let t := s.core.tile i
      (rel = true → allPerformed (s.core.ops.take (inp s 0)) o.fid = true) →
      let p : Parcel := ⟨n, t.tag, t.size, u.core.load t.buf t.base t.size⟩
      (resolve u (regionOf s) s.cur n = none → exec .publicationRead s = .next s) ∧
      ∀ d, resolve u (regionOf s) s.cur n = some d →
        let v := countSink u (regionOf s) n
        let tok : Token := { region := regionOf s, loc := s.cur, dest := some d, msg := .pub p, src := s.cur, fid := o.fid
                             born := some u.clock, pub := u.newPub }
        exec .publicationRead s = .next { v.send tok with core := (u.core.setTile i (u.core.tile i).toReady).dropOp (inp s 0) }) ∧
    (∀ o n i e c ch, s.core.ops[inp s 0]? = some o → o.kind = .pubr n i → redShape (descAt s (regionOf s) s.cur n) = some (e, c) →
      redChunks (s.core.tile i).tag e c (s.core.tile i).size (s.core.load (s.core.tile i).buf (s.core.tile i).base (s.core.tile i).size) = some ch →
      (resolve s (regionOf s) s.cur n = none → exec .publicationRead s = .next s) ∧
      ∀ d, resolve s (regionOf s) s.cur n = some d →
        let tok (x : (Nat × Nat) × Nat) : Token := { region := regionOf s, loc := s.cur, dest := some d, msg := .contrib n x.2 x.1.1 x.1.2
                                                     src := s.cur, fid := o.fid }
        let v := useReduction (regionOf s) n { s with net := s.net ++ (ch.zip (List.range 32)).map tok }
        exec .publicationRead s = .next { v with core := (s.core.setTile i (s.core.tile i).toReady).dropOp (inp s 0) }) ∧
    (∀ sl d, find? (inp s 1) (s.router (inp s 0)).slots = some sl → sl.flushing = true →
      resolve s (regionOfName s sl.name) (inp s 0) sl.name = some d →
      let ch : CxpChunk := ⟨BitVec.ofNat 64 sl.count, sl.acc.map cxpEncode⟩
      let t : Token := { region := regionOfName s sl.name, loc := inp s 0, dest := some d, msg := .contrib sl.name sl.chunk ch.nat ch.size
                         src := inp s 0, gone := true }
      exec .slotFlush s =
        .next (hopOn ((s.onRouter (inp s 0) fun r => { r with slots := erase (inp s 1) r.slots }).send t) s.net.length t)) ∧
    (∀ e, (s.router (inp s 0)).reds[inp s 1]? = some e → e.completing = true →
      let reg := regionOfName s e.name
      let v := redCache s reg (inp s 0) e
      (resolve v reg (inp s 0) e.rname = none → exec .reductionPublish s = .next s) ∧
      ∀ d, resolve v reg (inp s 0) e.rname = some d →
        let tok : Token := { region := reg, loc := inp s 0, dest := some d, msg := .pub (redResult s reg (inp s 0) e), src := inp s 0
                             fid := BitVec.allOnes 64, born := some v.clock, pub := v.newPub }
        exec .reductionPublish s = .next (((countSink v reg e.rname).send tok).onRouter (inp s 0) fun r =>
          { r with reds := dropAt r.reds (inp s 1) })) ∧
    (let reg := inp s 0
     let r := s.region reg
     reg < 16 → r.live = true → inp s 3 ∈ r.cores s →
      (inp s 1 = 1 → ∀ e, find? (inp s 2) r.home = some e →
        (e.ho = false →
          (s.within reg e.router = true → exec .handOver s = .next (beginHome reg (inp s 2) e s)) ∧
          (s.within reg e.router = false → exec .handOver s =
            .next (refuseAtBorder (beginHome reg (inp s 2) e s) reg (inp s 3) e.router 0#96 0))) ∧
        (e.ho = true → s.within reg e.router = false → exec .handOver s = .next s) ∧
        (e.ho = true → s.within reg e.router = true → ∀ v, moveHome s reg (inp s 2) (inp s 3) e = some v →
          let u := endHome reg (inp s 2) { e with ho := false, router := inp s 3, epoch := e.epoch + 1#12 } v
          exec .handOver s = .next (post u reg (fromLeader v) 0x05 (0#40 ++ (e.epoch + 1#12) ++ BitVec.ofNat 12 (inp s 2))
            (0#32 ++ BitVec.ofNat 16 (inp s 3) ++ BitVec.ofNat 16 e.router) true none none) ∧
          find? (inp s 2) (u.region reg).home = some { e with ho := false, router := inp s 3, epoch := e.epoch + 1#12 } ∧
          u.net = v.net ∧ (inp s 3 = e.router → v = s))) ∧
      (inp s 1 ≠ 1 → ∀ e, find? (inp s 2) r.dir = some e →
        let u := s.onRegion reg fun r => { r with dir := insert (inp s 2) { e with state := .rebinding } r.dir }
        (e.state = .resident → (s.within reg e.core = true → exec .handOver s = .next u) ∧
          (s.within reg e.core = false → exec .handOver s = .next (refuseAtBorder u reg (inp s 3) e.core 0#96 0))) ∧
        (e.state = .rebinding → s.within reg e.core = false → exec .handOver s = .next s) ∧
        (e.state = .rebinding → s.within reg e.core = true → ∀ v, moveTask s reg (inp s 2) (inp s 3) (BitVec.ofNat 4 (inp s 4)) e = some v →
          exec .handOver s = .next v)))

/-- 01 R27, 12 R296, R299 to R310, R314: a doorbell within the ring is taken; a launch whose checks pass loads its region, which then
runs; an abort ends it and discards its tokens; a region that is done ends with its record; the first ready entry starts, a new firing
with the registers that R27 lists, a yielded one with its own; a firing that has ended and has nothing outstanding retires; a LAUNCHR whose records are all good reserves and commits. Placement hints are the launch's
input (log 10); that a LAUNCHR goes on record by record and commits in one act is log 30, what its pool test counts log 40, and that all
that completes a region is seen at one instant log 74. -/
def Obligations.LaunchAndFiringEvents : Prop :=
  ∀ (s : State),
    let q := inp s 0
    let p := s.page q
    let v : BitVec 16 := BitVec.ofNat 16 (inp s 1)
    (q < 16 → s.bridge.phase = 6#4 → (v - p.head).toNat ≤ 16 → (v - p.tail).toNat ≤ 16 →
      exec .lqtailDoorbell s = .next { s.setPage q { p with tail := v } with
        doorbells := s.doorbells ++ (List.range (v - p.tail).toNat).map fun i => (q, p.tail + BitVec.ofNat 16 i) }) ∧
    (q < 16 → s.bridge.phase = 6#4 → 16 < (v - p.head).toNat → exec .lqtailDoorbell s = .next (s.setPage q { p with ovf := true })) ∧
    (q < 16 → (s.region q).phase ≠ .loading → ∀ j, nextLaunch s = some (q, j) →
      let r := recordAt s q j
      let u : State := { s with doorbells := s.doorbells.erase (q, j), roots := insert q (rf r 256 64) s.roots
                                tlb := s.tlb.filter fun t => t.region != q }
      (∀ plan, checkLaunch u q r (inp s 1 == 1) (s.input.drop 2) = .ok plan → exec .launch s = .next (loadRegion q r plan u)) ∧
      (∀ st d, checkLaunch u q r (inp s 1 == 1) (s.input.drop 2) = .error (st, d) →
        let w := completionWord (rLtag r) st d
        exec .launch s = .next (launchDone q w (rCompl r) none (finishRecord q j (rLtag r) st (storeCompletion q (rCompl r) w u))))) ∧
    (q < 16 → (s.region q).phase = .loading → (∀ t ∈ s.net, t.region = q → ∀ a b c d e, t.msg ≠ .sub a b c d e) →
      exec .launch s = .next (startRegion q s) ∧ ((startRegion q s).region q).phase = .running ∧ (startRegion q s).net = s.net) ∧
    (q < 16 → ∀ d, s.doorbells.find? (fun d => d.1 == q && isAbort s d) = some d →
      let r := recordAt s q d.2
      let u : State := { s with doorbells := s.doorbells.erase (q, d.2) }
      exec .abort s = .next (if (s.region q).live = true ∧ (s.region q).phase ≠ .ending then finishRecord q d.2 (rLtag r) 0x01 (endRegion q 0x02 u)
        else finishRecord q d.2 (rLtag r) 0x89 u) ∧
      ((endRegion q 0x02 u).region q).phase = .ending ∧ (endRegion q 0x02 u).net = s.net.filter fun t => t.region != q) ∧
    (q < 16 → mayComplete s q = true →
      let u := endRecord q 0x01 0 ((((s.region q).cores s).foldl (fun s n => waferRelease (s.focus n)) s).focus s.cur)
      exec .regionComplete s = .next u ∧ (u.region q).phase = .ending) ∧
    (q < 16 → mayComplete s q = false → endedFree s q = true → exec .regionComplete s = .next (freeRegion q s)) ∧
    (∀ e, s.core.running = false → s.core.fwm = false → s.core.halt = .no → s.core.hreq = false → begun s = true →
      bestReady s.core.detmode s.core.ready = some e → exec .schedulerSelect s = .next { s with core := s.core.startEntry e } ∧
        (∀ f ∈ s.core.ready, f.eff ≤ e.eff) ∧
        let d := s.core.startEntry e
        let x := d.regs
        let ts := s.core.slots[e.slot.toNat]'e.slot.isLt
        d.running = true ∧ d.slot = e.slot ∧ d.pend = [] ∧ d.windows = s.core.windows ∧ d.wf = s.core.wf ∧ d.ws = s.core.ws ∧
        d.tiles = s.core.tiles ∧ d.bufW = s.core.bufW ∧ d.bufA = s.core.bufA ∧ d.bufC = s.core.bufC ∧ d.gcache = s.core.gcache ∧
        (e.kind = .yielded → x = (findD e.yfr.toNat {} s.core.yframes).regs ∧ d.watches = (findD e.yfr.toNat {} s.core.yframes).watches) ∧
        (e.kind ≠ .yielded → x.fireid = e.fid ∧ x.pc = ts.kernel ∧ x.prio = e.prio ∧ x.fpmode = ts.fpmode ∧ x.fpstat = 0#5 ∧
          x.tc = Vector.replicate 16 0#16 ∧ x.v = Vector.replicate 32 {} ∧ x.lpcnt = 0#64 ∧
          x.s[0] = 0#64 ∧ x.s[1] = e.fid ∧ x.s[2] = (fidTask e.fid).zeroExtend 64 ∧ x.s[3] = (fidGen e.fid).zeroExtend 64 ∧
          (∀ i : Fin 32, 6 ≤ i.val → x.s[i] = 0#64) ∧ (∀ i : Fin 8, i.val ≠ 1 → x.k[i] = 0#64) ∧
          (∀ i : Fin 16, i.val = 0 ∨ 8 < i.val → x.n[i] = 0#96) ∧ d.watches = []) ∧
        (e.kind = .subscription → x.s[4] = 0#64 ∧ x.s[5] = 0#64 ∧ x.k[1] = 0#64 ∧ d.faults = e.faults ++ ts.due ∧
          ∀ i : Fin 16, 1 ≤ i.val → i.val ≤ 8 → x.n[i] = e.names.getD (i.val - 1) 0#96) ∧
        (e.kind = .spawn → x.s[4] = (fidOrd e.fid).zeroExtend 64 - 1#64 ∧ x.s[5] = 0#64 ∧ x.k[1] = 0#64 ∧
          ∀ i : Fin 16, 1 ≤ i.val → i.val ≤ 8 → x.n[i] = (findD e.nfr.toNat [] s.core.nframes).getD (i.val - 1) 0#96) ∧
        (e.kind = .record → x.s[4] = e.param ∧ x.s[5] = e.rows.zeroExtend 64 ∧ x.k[1] = (1#64 <<< e.rows.toNat) - 1#64 ∧
          ∀ i : Fin 16, 1 ≤ i.val → i.val ≤ 8 → x.n[i] = 0#96)) ∧
    (s.core.halt = .no ∨ s.core.halt = .region false → mayRetire s = true →
      (s.core.ending = .fend → s.core.fwm = false → s.core.faults = [] → exec .firingRetire s = .next { s with core := s.core.retire }) ∧
      (s.core.ending = .trapEnd → exec .firingRetire s = .next { s with core := s.core.retire })) ∧
    (∀ o ra nr, s.core.ops[inp s 0]? = some o → o.kind = .launchr ra nr → s.core.halt = .no → s.core.hreq = false →
      o.started = false → inp s 1 ≠ 1 →
      let j := inp s 0
      (o.next < nr.toNat →
        let at_ := ra.toNat + 32 * o.next
        let p := readLaunchLine s.core (at_ / 64) o
        let x := readRecord p at_
        x.clean = true → x.task ≠ 0xFFFF → x.task < taskCount s →
        (x.rows = 0 → exec .launchrRun s = .next { s with core := s.core.setOp j { p with got := p.got + 1, next := o.next + 1 } }) ∧
        (∀ e, 1 ≤ x.rows → x.rows ≤ 32 → find? x.task (s.region (regionOf s)).dir = some e → e.state = .resident →
          s.within (regionOf s) e.core = true → (s.coreAt e.core).hreq = false → (s.coreAt e.core).halt = .no →
          let c := s.coreAt e.core
          let fid := BitVec.ofNat 16 x.task ++ fidGen o.fid ++ BitVec.ofNat 24 (o.next + 1)
          let q : Ready := { kind := .record, slot := e.slot, prio := BitVec.ofNat 3 o.data, rdyseq := 0#32, rows := BitVec.ofNat 6 x.rows
                             param := x.param, fid := fid }
          let t := s.setCoreAt e.core { c with resv := c.resv ++ [⟨s.cur, o.ser, q⟩] }
          c.holdsFid fid = false → c.poolUsed < 192 →
            exec .launchrRun s = .next { t with core := t.core.setOp j { p with next := o.next + 1 } })) ∧
      (nr.toNat ≤ o.next → o.bad = none →
        let u := commitResv s.cur o.ser s
        let c : Core := { u.core with lrskip := BitVec.ofNat 32 (min (u.core.lrskip.toNat + o.got) 0xFFFFFFFF) }
        exec .launchrRun s = .next { u with core := (c.dropOp j).landVar o.fid o.fw .none 0#5 o.tc }))

/-- 02 R53, 14 R348 to R372, 08 R203: results and landing entries that are due are written, a pending fault or the watchdog
traps, a region halts, begins to resume and goes on, a core is saved, lost or restarted. The two events of a resumption, the order
of the steps of a save and of a checkpoint restart are the model's reading (log 16). -/
def Obligations.TrapAndContextEvents : Prop :=
  ∀ (s : State),
    let j := inp s 0
    let q := inp s 0
    let reg := regionOf s
    let r := s.region reg
    let here : Prop := r.live = true ∧ s.cur ∈ r.cores s
    (∀ p, s.core.pend[j]? = some p → p.rem = 0 → s.core.halt = .no → exec .resultWrite s =
      .next { s with core := (Core.landOne { s.core with pend := dropAt s.core.pend j } p).applyTc }) ∧
    (∀ p, s.core.lq[j]? = some p → p.rem = 0 → s.core.halt = .no → s.core.fwm = false → exec .landingEntryLand s =
      .next { s with core := (Core.landOne { s.core with lq := dropAt s.core.lq j } p).applyTc }) ∧
    (∀ d rest, s.core.running = true → s.core.fwm = false → s.core.halt = .no → s.core.faults = d :: rest → exec .boundaryFault s =
      .next { s with core := Core.takeTrap d.cause.code s.core.regs.pc d.val { s.core with faults := rest } }) ∧
    (∀ v, s.core.watchdogVal = some v → exec .watchdog s =
      .next { s with core := { s.core.takeTrap 0x13#6 s.core.regs.pc v with wdFrozen := 0, wdHeld := 0 } }) ∧
    (q < 16 → (s.region q).phase = .running → ∃ t : State, exec .preemptHalt s = .next t ∧ (t.region q).phase = .halting ∧ t.core = s.core) ∧
    (q < 16 → inp s 1 ≠ 1 → (s.region q).phase = .saved →
      exec .preemptResume s = .next (s.onRegion q fun x => { x with phase := .resuming })) ∧
    (q < 16 → (s.region q).phase = .resuming → saveOpen s q = false → ∀ t,
      (savedCores q s).foldlM
        (fun u n => resumeCore q ((s.region q).saveArea u n) n u) s = some t →
      exec .preemptResume s = .next (t.onRegion q fun x => { x with phase := .running })) ∧
    (r.phase = .halting → s.core.halt = .no → s.cur ∈ r.cores s →
      (s.core.hreq = false → exec .coreHalt s = .next { s with core := { s.core with hreq := true } }) ∧
      (s.core.hreq = true → s.core.maySplit = false → exec .coreHalt s = .next s) ∧
      (s.core.hreq = true → s.core.maySplit = true →
        let c := if mayEnd s then s.core.retire else s.core
        exec .coreHalt s = .next { s with core := c.stop (.region false) })) ∧
    (s.core.halt = .region false → collected s = true → mayEnd s = false → here → ∀ u,
      (saveAt reg (r.saveArea s s.cur) s.core.applyTc s = (u, none) →
        ∃ t : State, exec .saveSequence s = .next t ∧ t.core.halt = .region true ∧ t.core.regs = u.core.regs ∧ t.hbm = u.hbm) ∧
      (∀ e, saveAt reg (r.saveArea s s.cur) s.core.applyTc s = (u, some e) → exec .saveSequence s = .next (endRegion reg 0x03 u))) ∧
    (here → ∃ t : State, exec .coreFailure s = .next t ∧ t.core.halt = .failed ∧ t.core.gcache = [] ∧ t.core.tiles = [] ∧
      ∀ p ∈ (t.region reg).dir, p.2.core = s.cur → p.2.state = .lost) ∧
    (r.phase = .running → s.cur ∈ r.cores s →
      (s.core.halt = .no → exec .coreSave s = .next { s with core := { s.core with hreq := true, moving := true } }) ∧
      (s.core.halt = .region true → inp s 0 = s.cur → ∀ t, restoreHere reg (r.saveArea s s.cur) s.cur s = some t →
        exec .coreSave s = .next t)) ∧
    (let cs := (s.region q).cores s
     let dead := cs.filter fun n => (s.coreAt n).halt == .failed && (s.region q).dir.any fun e => e.2.core == n
     let target : Nat → Nat := fun n => match dead.findIdx? (· == n) with | some i => inp s (2 + i) | none => n
     let s0 : State := { s with net := s.net.filter (fun t => t.region != q), notices := s.notices.filter fun n => n.region != q }
     q < 16 → (s.region q).live = true → (s.region q).lost = true →
     (∀ n ∈ dead, target n ∈ cs ∧ (s.coreAt (target n)).vacant = true ∧ (s.coreAt (target n)).halt ≠ .failed) →
     ∀ u, (cs.filter fun n => (s.region q).dir.any fun e => e.2.core == n).foldlM (restoreCore q (inp s 1) target)
        ((cs.foldl (fun s n => s.onRouter n fun r => { r.cleared with homeCopy := r.homeCopy, tensCopy := r.tensCopy }) s0).onRegion q fun r => { r with subPath := [], left := [] }) = some u →
      ∃ t : State, exec .checkpointRestart s = .next t ∧ (t.region q).phase = .running ∧ (t.region q).lost = false ∧
        ∀ e ∈ (t.region q).dir, e.2.state = .resident) ∧
    (q ≤ 16 → exec .translationCacheInvalidate s =
      .next { s with tlb := s.tlb.filter fun t => !(t.region == q && t.page == inp s 1 >>> t.bits) })

/-! Edge blocks, counters and time, the host, bring-up; invariants and frames. -/

/-- 12 R316, R317, 15 R391 to R400: what the events of an edge block do in a running region. An image is read line by line,
checked into the shadow with its last line, and committed at quiescence; a period starts, arms bindings, moves tokens, drains and ends with its completion tile and
faults; a running block in which nothing can start or move drains after the time of its drain watchdog, which a draining block then has too; a
query reads the status word; an abort empties the block; links receive, count resends and form. The count of lost tokens that a resend's third
input gives is log 56, the counts of the status word log 25, and the identifier of a block's one-shot, which no firing has, log 19. -/
def Obligations.EdgeEventResults : Prop :=
  ∀ (s : State) (reg : Nat),
    let p := inp s 0
    let b := s.block p
    (p ≤ 31 → b.owner = some reg → (s.region reg).phase = .running →
      (∀ k rest va, b.queue = k :: rest → k.cfg = some va → b.shadow = none → b.malformed = false →
        let x := (planeLines s).foldl (readPlaneLine reg va.toNat) (s, b)
        let m := x.2.image
        let l := { x.2 with load := [], loadBad := [] }
        (x.2.loaded = false → exec .ecfgImageRead s = .next (x.1.setBlock p x.2)) ∧
        (x.2.loaded = true → x.2.loadBad = [] → exec .ecfgImageRead s =
          .next (x.1.setBlock p (if planeMalformed (x.1.region reg).space m then { l with malformed := true } else { l with shadow := some m })))) ∧
      (∀ k rest, b.queue = k :: rest → k.cfg.isSome = true → b.state = .idle ∨ b.state = .configured → b.quiet = true →
        (∀ m, b.malformed = false → b.shadow = some m → exec .shadowCommit s =
          .next (cmdDone (s.setBlock p { b with queue := rest, shadow := none, plane := some m, state := .configured, elems := [] }) reg p k)) ∧
        (b.malformed = true → exec .shadowCommit s =
          .next (cmdDone (s.setBlock p { b with queue := rest, malformed := false, plane := none, state := .idle, elems := [] }) reg p k))) ∧
      (∀ k rest m, b.queue = k :: rest → k.cfg = none → b.plane = some m →
        (b.state = .configured → k.par.extractLsb' 24 8 = 0#8 → ∃ c : Block, exec .periodStart s = .next (s.setBlock p (c.settle m)) ∧
          c.state = .running ∧ c.gen = k.par.extractLsb' 0 24 ∧ c.ownerFid = k.fid ∧ c.queue = rest ∧ c.plane = some m ∧ c.elems = [] ∧
          c.armed = [] ∧ c.perErr = 0#32 ∧ c.perDrop = 0#32) ∧
        (b.state = .configured → k.par.extractLsb' 24 8 ≠ 0#8 → exec .periodStart s =
          .next (s.setBlock p { b with queue := rest, errs := if b.errs = 0xFF#8 then b.errs else b.errs + 1#8 }))) ∧
      (∀ m bind point, b.plane = some m → b.state = .running ∨ b.state = .draining → b.nextArm m = some (bind, point) →
        let n := pointName m (planeBind m bind) point b.gen
        let loc := entryRouter s reg p
        let (v, ok) := listPoint reg p n s
        exec .bindingArm s = .next ((v.setBlock p
            { b with armedTo := b.armedTo + 1, armed := b.armed ++ [{ bind := bind, point := point, name := n, listed := ok }] }).send
          { region := reg, loc := loc, src := loc, fid := BitVec.allOnes 64, gone := true, msg := .oneShot n (.block p bind point) none })) ∧
      (∀ code t d, let e := inp s 1
        let k := inp s 2
        let b1 := b.setElem e { b.elem e with out := dropAt (b.elem e).out k }
        let x := b1.elem d
        let c := t.chan.toNat
        e ≤ 63 → b.state = .running ∨ b.state = .draining → (b.elem e).out[k]? = some (code, t) → (b.elem e).firstOut k code t.chan = true →
        destElem e code = some d →
        (x.halted = true → exec .elementTokenArrival s = .next (s.setBlock p (b1.drop 1))) ∧
        (x.halted = false → (x.queue c).length < 2 → exec .elementTokenArrival s = .next (s.setBlock p
          (b1.setElem d { x with queues := insert c (x.queue c ++ [t]) x.queues, hs := insert c { x.state c with armed := true } x.hs })))) ∧
      (∀ m u, let loc := entryRouter s reg p
        let owner := cmdCore s reg b.ownerCore b.ownerFid
        let fs := b.periodFaults s reg p
        let w := (unlistAll p u).setBlock p { b with state := .configured, periods := b.periods + 1#16, drained := false, armed := [], elems := [] }
        b.plane = some m → b.state = .draining → b.quiet = true → ((s.coreAt owner.1).faultsOf b.ownerFid).length + fs.length ≤ 16 →
        acceptTile s reg loc loc (BitVec.allOnes 64) (b.completion m) = some u →
        (fs = [] → exec .periodEnd s = .next w) ∧
        (fs ≠ [] → w.within reg owner.1 = true → exec .periodEnd s =
          .next (w.setCoreAt owner.1 (fs.foldl (fun (c : Core) f => c.faultTask b.ownerFid owner.2 f) (w.coreAt owner.1))))) ∧
      (∀ m, b.plane = some m → b.state = .running → planeDwd m ≤ b.waited → b.canStart s m = false → b.canMove = false → b.nextArm m = none →
        (∀ k, k < b.tiles.length → edgePubTry p k s = none) →
        exec .inactivityTimeout s = .next (s.setBlock p { b with state := .draining, drained := true, waited := 0 })) ∧
      (∀ m, b.plane = some m → b.state = .running → b.waited < planeDwd m → exec .inactivityTimeout s = .next s) ∧
      (∀ m, b.plane = some m → b.state = .draining → b.quiet = false → planeDwd m ≤ b.waited →
        exec .drainWatchdog s = .next ((unlistAll p s).setBlock p { b.discard with drained := true })) ∧
      (∀ m, b.plane = some m → b.waited < planeDwd m → exec .drainWatchdog s = .next s) ∧
      (let k := inp s 1
       k ≤ 15 → (s.link p).up = true → linkOwned s p reg = true → (findD k [] b.rx).length < 64 → (ETok.ofBits (inp s 2)).fmt ≠ 0xE#4 →
        exec .linkTokenArrival s = .next (s.setBlock p
          { b with rx := insert k (findD k [] b.rx ++ [ETok.ofBits (inp s 2)]) b.rx, waited := if b.state == .running then 0 else b.waited }))) ∧
    (∀ o q, let j := inp s 0
      s.core.ops[j]? = some o → o.resp = false → (∀ e ∈ s.core.ops.take j, e.fid ≠ o.fid ∨ e.kind.edgePort ≠ some q) →
      (o.kind = .estat q → exec .estatArrival s =
        .next { s with core := s.core.setOp j { o with got := (s.block q).status.toNat, resp := true } }) ∧
      (o.kind = .eabort q →
        (o.started = false → ∃ t : State, exec .eabortArrival s = .next t ∧ (t.block q).state = .aborting ∧ (t.block q).queue = [] ∧
          (t.block q).plane = none ∧ (t.block q).shadow = none ∧ (t.block q).elems = [] ∧ (t.block q).tiles = [] ∧ (t.block q).tx = [] ∧
          t.hbm = s.hbm) ∧
        (o.started = true → (s.block q).state = .aborting → exec .eabortArrival s =
          .next { s.setBlock q { s.block q with state := .idle } with core := s.core.setOp j { o with resp := true } }))) ∧
    (∀ n, n = inp s 1 → p ≤ 31 →
      (s.link p).up = true ∨ ((s.link p).absent = false ∧ (s.link p).down = false ∧ s.bridge.podcfg.getLsbD 31 = true) →
      let l : Link := { s.link p with retry := BitVec.ofNat 32 (Nat.min ((s.link p).retry.toNat + n) 0xFFFFFFFF) }
      (n < 16 → exec .linkBeatResend s = .next { s with links := insert p l s.links }) ∧
      (16 ≤ n → ∃ t : State, exec .linkBeatResend s = .next t ∧ t.links = insert p { l with up := false, down := true } s.links ∧
        (b.owner.isSome = true → t.block p = { b.drop (Nat.min (inp s 2) 1024) with tx := [] }))) ∧
    (p ≤ 31 → (s.link p).absent = false → (s.link p).down = false → s.bridge.podcfg.getLsbD 31 = true → ∃ t : State, exec .podFormation s = .next t ∧
      ∃ l, find? p t.links = some l ∧ l.farw = BitVec.ofNat 6 (inp s 1) ∧ l.farp = BitVec.ofNat 5 (inp s 2) ∧
        (l.up = true → inp s 4 = 1 ∧ l.farw ≠ s.bridge.podcfg.extractLsb' 0 6))

/-- 13 R331 to R347, 03 R86: an arrival counts at its node, and the instance completes when the last member has arrived; a
notice sets the task's instance; wafer time follows the leader's forward and within 32 ns; a capture unit records; a grant
clears its unit; a NETW write is applied
at its leader and then reaches every core. When and to whom a notice goes is the model's reading (log 48), as are that an arrival for an instance
already completed notifies again, and that one of a task from a unit further ahead waits for its instance (log 45), the two stages of a NETW
write (log 49) and the list of the samples offered in the running cycle (log 72). -/
def Obligations.CounterEventResults : Prop :=
  ∀ (s : State),
    let j := inp s 0
    let r := inp s 0
    let u := inp s 1
    (∀ o x ra inst, s.core.ops[j]? = some o → o.kind = .bar x ra inst → (ra = true → barReady s j o x = true) →
      let v := if !ra then s else if x < 4 then coreRelease s else waferRelease s
      let w := v.core.dropOp j
      let a : Arrival := { fid := o.fid, scope := x, inst := inst, tc := o.tc, ra := ra, ser := o.ser, born := w.cycle }
      let v1 : State := { v with core := { w with arrivals := w.arrivals ++ [a] } }
      exec .barrierArrival s = .next (if x = 0 then v1 else arriveAt v1 (regionOf v1) x (unitOf v1 x v1.cur) inst)) ∧
    (∀ reg x unit inst, let n := findD (nodeKey x unit) {} (s.region reg).nodes
      let ms := membersOf s reg x unit
      let now : Prop := inst = n.inst + 1#32 ∧ x < 5 ∧ (s.region reg).lost = false
      (x < 4 → (inst - n.inst).toInt ≤ 0 → arriveAt s reg x unit inst = notify reg x unit n.inst s) ∧
      (now → n.cur + 1 < ms.length → arriveAt s reg x unit inst =
        s.onRegion reg fun q => { q with nodes := insert (nodeKey x unit) { n with cur := n.cur + 1 } q.nodes }) ∧
      (let waits : Node := if inst = n.inst + 2#32 then { n with nxt := n.nxt + 1 } else { n with later := n.later ++ [inst] }
       0 < (inst - n.inst).toInt → inst ≠ n.inst + 1#32 → n.cur < ms.length →
        arriveAt s reg x unit inst = s.onRegion reg fun q => { q with nodes := insert (nodeKey x unit) waits q.nodes }) ∧
      (now → n.cur + 1 = ms.length → n.nxt < ms.length →
        ∃ t : State, arriveAt s reg x unit inst = t ∧
          findD (nodeKey x unit) {} (t.region reg).nodes = { inst := inst, cur := n.nxt, nxt := n.later.countP fun a => a == inst + 2#32
                                                             later := n.later.filter fun a => decide (3 ≤ (a - inst).toInt) } ∧
          t.notices = s.notices ++ (noticed s reg x unit).map fun c => ⟨reg, c, x, inst⟩)) ∧
    (∀ n, s.notices[j]? = some n → (s.coreAt n.core).halt = .no → (s.coreAt n.core).hreq = false →
      (∀ e ∈ s.notices.take j, e.core ≠ n.core ∨ e.scope ≠ n.scope) →
      exec .barrierCompletion s = .next (takeNotice j n s)) ∧
    (let t := inp s 1
     let l := (timeAt s 48).toNat
     r ≤ 47 → s.bridge.leader ≠ some r → l ≤ t + 32 → t ≤ l + 32 → (s.reticle r).time.toNat ≤ t → t < 2 ^ 64 →
      exec .waferTimeBeacon s = .next (s.setReticle r { s.reticle r with time := BitVec.ofNat 64 t })) ∧
    (s.bridge.leader = some r → r ≤ 47 → exec .waferTimeBeacon s = .next s) ∧
    (r ≤ 47 → ∃ t : State, exec .captureSample s = .next t ∧ t.core = s.core ∧ t.offeredNow r = s.offeredNow r ++ [(inp s 1, 12, 0, 1)] ∧
      ∀ k, k ≤ 15 → t.capture r k =
        if records s r k (inp s 1) 12 0 then (s.capture r k).sample s.cycles 1 else s.capture r k) ∧
    (r ≤ 47 → u ≤ 15 →
      (let c := s.capture r u
       let src := fld c.cfg 0 16
       let g := grantOf s r u
       6 ≤ src → src ≤ 8 → records s r u (g.extractLsb' 0 4).toNat src (fld c.cfg 16 16) = true →
        exec .levelSample s =
          .next (s.setCapture r u { c.sample s.cycles (levelOf s r src c.turn (inp s 2) g) with turn := c.turn + 1 })) ∧
      ∃ t : State, exec .captureGrantWrite s = .next t ∧ t.capture r u = {} ∧ grantOf t r u = BitVec.ofNat 5 (inp s 2) ∧ t.core = s.core) ∧
    (∀ (c : Capture) now v, c.last ≠ some now → (c.sample now v).count = satAdd c.count 1 ∧ (c.sample now v).sum = satAdd c.sum v ∧
      (c.sample now v).drops = c.drops) ∧
    (let q := s.region r
     (inp s 2 ≠ 1 → ∀ c x, q.netwq[u]? = some (c, x) → (∀ e ∈ q.netwq.take u, e.1 ≠ c) → exec .netwUpdate s =
      .next (s.setRegion r { q with netw := x, netwq := dropAt q.netwq u, netwOut := q.netwOut ++ (q.cores s).map fun n => (n, x) })) ∧
     (inp s 2 = 1 → ∀ c x, q.netwOut[u]? = some (c, x) → (∀ e ∈ q.netwOut.take u, e.1 ≠ c) → exec .netwUpdate s =
      .next ((s.setRegion r { q with netwOut := dropAt q.netwOut u }).setCoreAt c { s.coreAt c with netw := x })))

/-- 17 R434 to R446, 16 R427, R430 to R432, 20 R463, R464: an event record is written to its ring; the host's register writes,
attestation, wafer time; the debug window selects, halts, resumes, reads and writes. The width of host accesses and the layout
of debug items are the model's (log 22), as is what RESTART leaves (log 21). -/
def Obligations.HostEventResults : Prop :=
  ∀ (s : State),
    let b := s.bridge
    let off := inp s 0
    (∀ x, let e := s.queue (inp s 0)
      inp s 0 ≤ 16 → e.staged[inp s 1]? = some x → e.full = false → (∀ y ∈ e.staged.take (inp s 1), sourceBits y ≠ sourceBits x) →
      ∃ t : State, exec .eventRecordWrite s = .next t ∧
        t.host = wrN s.host (e.base.toNat + 32 * (e.tail.toNat % 2 ^ e.size.toNat)) x.bits.toNat 32 ∧
        (t.queue (inp s 0)).tail = e.tail + 1#32 ∧ t.hbm = s.hbm) ∧
    (inp s 0 ≤ 16 → exec .eqheadWrite s = .next (s.onQueue (inp s 0) fun e => { e with head := BitVec.ofNat 32 (inp s 1) })) ∧
    (exec .bootctlValid s = .next { s with
      bridge := { b with valid := inp s 0 % 2 == 1, fetchLost := b.fetchLost || (b.fetching && !(inp s 0 % 2 == 1)) } }) ∧
    (∃ t : State, exec .bootctlRestart s = .next t ∧ t.hbm = s.hbm ∧ t.host = s.host ∧ t.regions = [] ∧ t.net = [] ∧
      t.bridge.epoch = b.epoch + 1#32 ∧ t.bridge.phase = 1#4 ∧ t.bridge.leader = none ∧ t.bridge.dbgwrite = [] ∧
      t.bridge.dbgerr = (b.dbgerr || !b.dbgwrite.isEmpty)) ∧
    (b.phase = 6#4 → b.wtset = false → (timeAt s 48).toNat ≤ inp s 0 → inp s 0 < 2 ^ 64 → exec .wtsetWrite s =
      .next { s with bridge := { b with wtset := true }
                     reticles := s.reticles.map fun (p : Nat × Reticle) => (p.1, { p.2 with time := BitVec.ofNat 64 (inp s 0) }) }) ∧
    (b.phase = 6#4 → b.fetched = true → b.attBusy = false → exec .attctlGo s =
      .next { s with bridge := { b with attBusy := true, attDone := false, attRefused := false, attNonce := b.nonce } }) ∧
    (b.attBusy = true → exec .attestationReport s = .next { s with bridge := { b with
      attBusy := false, attDone := true,
      report := wrBytes (reportBody b) 0x860 ((Config.falconSign (Config.shake256 (rdBytes (reportBody b) 0 0x860) 64)).take 1280) } }) ∧
    (∀ x off, inp s 0 = 16 → inp s 1 = off → inp s 2 = x →
      (off = 0x18 → exec .registerWrite s = .next { s with bridge := { b with img := BitVec.ofNat 64 x } }) ∧
      (off = 0x20 → exec .registerWrite s = .next { s with bridge := { b with len := BitVec.ofNat 32 x } }) ∧
      (∀ q o, q < 16 → o < 0x400 → o % 8 = 0 → off = 0x100000 + 0x10000 * q + o →
        exec .registerWrite s = .next (s.setPage q { s.page q with ring := wrN (s.page q).ring o x 8 })) ∧
      (off = 0x100 → (∀ p ∈ s.regions, p.2.runs = false) → ∃ t : State, exec .registerWrite s = .next t ∧
        t.bridge.podcfg = BitVec.ofNat 32 x &&& 0x80003F3F#32 ∧ (t.bridge.podcfg.getLsbD 31 = false → ∀ p ∈ t.links, p.2.up = false))) ∧
    (∀ q, q < 16 → inp s 0 = q → 0x10000 ≤ inp s 1 → exec .registerWrite s = .next s) ∧
    (inp s 0 = 17 → inp s 1 = 8 →
      (b.phase = 6#4 → exec .registerWrite s = .next { s with bridge := { b with dbgaddr := BitVec.ofNat 64 (inp s 2) &&& ~~~7#64 } }) ∧
      (b.phase ≠ 6#4 → exec .registerWrite s = .next { s with bridge := { b with dbgerr := true } })) ∧
    (let x : W64 := BitVec.ofNat 64 (inp s 0) &&& ~~~0xFFFFFFFF#64
     b.phase = 6#4 → exec .dbgselWrite s = .next { s with bridge := { b with dbgsel := x, dbgerr := decide (600 ≤ selNode x) } }) ∧
    (b.phase ≠ 6#4 → exec .dbgselWrite s = .next { s with bridge := { b with dbgerr := true } }) ∧
    (∀ c, dbgCore s = some c →
      ((s.coreAt c).halt = .no → exec .dbgctlHalt s = .next (s.setCoreAt c ((s.coreAt c).stop (.report 0x11#64 true)))) ∧
      (∀ r, (s.coreAt c).halt = .report r true → exec .dbgctlResume s = .next (s.setCoreAt c (s.coreAt c).goOn))) ∧
    (off < 4096 → off % 8 = 0 →
      (dbgItem s b.dbgsel = none →
        exec .debugApertureRead s = .next { s with bridge := { b with dbgdata := 0#64, dbgerr := true } } ∧
        exec .debugApertureWrite s = .next { s with bridge := { b with dbgerr := true } }) ∧
      (∀ i, dbgItem s b.dbgsel = some i →
        exec .debugApertureRead s = .next { s with bridge := { b with dbgdata := BitVec.ofNat 64 (i.word s (dbgWordAt s off)) } } ∧
        (i.writable s = false → exec .debugApertureWrite s = .next { s with bridge := { b with dbgerr := true } }) ∧
        (i.writable s = true → (∀ c k, i ≠ .router c k) → exec .debugApertureWrite s = .next (i.setWord (dbgWordAt s off) (inp s 1) s)) ∧
        (∀ c k, i = .router c k → exec .debugApertureWrite s =
          .next { s with bridge := { b with dbgwrite := b.dbgwrite ++ [⟨b.dbgsel, dbgWordAt s off, inp s 1, s.clock⟩] } }))) ∧
    (∀ w c k, b.dbgwrite = [w] → dbgItem s w.sel = some (.router c k) → s.clock ≤ w.since + 1024 →
      exec .debugWritePerform s = .next (if routerIdle s c then
        setRouterWord c k w.word w.value { s with bridge := { b with dbgwrite := [] } } else s)) ∧
    ((∃ w ∈ b.dbgwrite, w.since + 1024 < s.clock) → exec .debugWriteTimeout s =
      .next { s with bridge := { b with dbgwrite := b.dbgwrite.filter fun w => s.clock ≤ w.since + 1024, dbgerr := true } })

/-- 16 R403 to R430, 17 R449, 12 R322: bring-up. Power, self-test, cores, seams, ballots in fourteen rounds, claims and LEAD, the
firmware, of the descriptor as it was polled, to every follower, each of which verifies its copy, one that reports a failure during enumeration fenced, enumeration, and what takes
a reticle, a seam or the module down. What the board, the ROM and the loader hand over comes as the event's input (log 11); that PHASE reads
stopped after NOLEADER and after a third failed fetch is the model's choice (log 21). -/
def Obligations.BringUpEventResults : Prop :=
  ∀ (s : State),
    let i := inp s 0
    let r := s.reticle i
    let b := s.bridge
    (i ≤ 47 →
      (r.phase = .off → (∀ j, j < i → (s.reticle j).phase ≠ .off) → ∃ t : State, exec .powerGood s = .next t ∧
        t.reticle i = { phase := .self, fenced := inp s 1 == 1 } ∧ t.bridge.phase ≠ 0#4) ∧
      (r.phase = .self →
        (inp s 1 = 1 → exec .romSelfTest s = .next (s.setReticle i { r with phase := .cores })) ∧
        (inp s 1 ≠ 1 → exec .romSelfTest s = .next (goDark i 2 s))) ∧
      (r.phase = .cores →
        (inp s 1 = 1 → exec .romCoreTest s =
          .next (s.setReticle i { r.enterSeams i with defects := if r.fenced then [] else ((s.input.drop 2).filter (· < 600)).eraseDups })) ∧
        (inp s 1 ≠ 1 → exec .romCoreTest s = .next (goDark i 2 s))) ∧
      (r.phase = .self → exec .phaseOverrun s = .next (goDark i 2 s)) ∧
      (r.phase = .cores → exec .phaseOverrun s = .next (if inp s 1 = 1 ∧ r.fenced = false then
        s.setReticle i { r.enterSeams i with defects := ((s.input.drop 2).filter (· < 600)).eraseDups } else goDark i 2 s)) ∧
      (r.phase = .seams → exec .phaseOverrun s = .next (seamTimeout i s) ∧ exec .seamTrainTimeout s = .next (seamTimeout i s) ∧
        (bridgeSite i = true → exec .bridgeAttachmentTraining s = .next (s.setReticle i { r with attached := inp s 1 == 1 }))) ∧
      (∀ j, let d := inp s 1
        across i d = some j → r.phase = .seams → r.seam d = .untrained → (s.reticle j).phase = .seams → (s.reticle j).seam (facing d) = .untrained →
        let x : Seam := if inp s 2 = 1 then .up else .down
        exec .seamTraining s =
          .next (settleSeams j (settleSeams i ((s.setReticle i (r.setSeam d x)).setReticle j ((s.reticle j).setSeam (facing d) x))))) ∧
      (∀ k v, let d := inp s 1
        r.phase = .elect k → (r.votes.find? fun v => v.2.1 == d) = some v → r.seam d = .up → exec .electRoundMessage s =
          .next (advance i 16 (s.setReticle i { r with votes := r.votes.erase v, heard := (v.1, d) :: r.heard, best := better r.best v.2.2 }))) ∧
      (r.phase = .claim → b.leader = none → ∃ t : State, exec .claim s = .next t ∧ ∃ w, t.bridge.window = some w ∧ r.ballot i ∈ w) ∧
      (∀ l, r.phase = .claim → b.leader = some l → exec .claim s = .next (s.setReticle i { r with phase := .await })) ∧
      (∀ d j, d < 4 → d ∈ s.input.drop 1 → across i d = some j → r.phase = .await → r.seam d = .up → (s.reticle j).leads = true →
        (∀ e, e < d → e ∈ s.input.drop 1 → leadOver s i e = false) →
        exec .lead s = .next (s.setReticle i { r with phase := .follower, parent := some d })) ∧
      (r.phase = .await → (∀ j ∈ component s 48 [i], (s.reticle j).leads = false ∧ (s.reticle j).phase ≠ .claim ∧ ∀ k, (s.reticle j).phase ≠ .elect k) →
        exec .leadTimeout s = .next (((List.range 4).filterMap (across i)).foldl (fun u k => seamLost k u) (goDark i 3 s))) ∧
      (b.phase = 4#4 → sendTurn s i = true →
        (copyVerified s = true → exec .firmwareReceive s = .next (distributed (s.setReticle i { r with loaded := true }))) ∧
        (copyVerified s = false → exec .firmwareReceive s = .next (failReceipt i s)) ∧
        exec .followerReportTimeout s = .next (failReceipt i s)) ∧
      (b.phase = 5#4 → r.phase = .follower → copyVerified s = false →
        exec .firmwareReceive s = .next (s.setReticle i { r with phase := .fwFenced, code := 4 })) ∧
      (∀ j, across i (inp s 1) = some j → r.seam (inp s 1) = .up → ∃ t : State, exec .seamFailure s = .next t ∧
        (b.phase.ult 6#4 = true → t.hbm = s.hbm ∧ t.host = s.host) ∧
        (b.phase.ult 6#4 = false → (t.reticle i).seam (inp s 1) = .down ∧ (t.reticle j).seam (facing (inp s 1)) = .down))) ∧
    (∀ x, b.window = some [x] → ∃ t : State, exec .claimWindowClose s = .next t ∧ t.bridge.window = none ∧
      t.bridge.leader = some (6 * (x.extractLsb' 15 3).toNat + (x.extractLsb' 18 3).toNat)) ∧
    (b.leader = none → b.window = none → b.phase.ult 3#4 = true → (∀ j, j < 48 → electing (s.reticle j) = false) →
      exec .noleader s = .next { s with bridge := { b with err := 1#4, phase := 7#4 } }) ∧
    (b.phase = 3#4 → b.valid = true → b.leader.isSome = true → b.fetching = false → exec .bootDescriptorPoll s =
      .next { s with bridge := { b with fetching := true, polledImg := b.img, polledLen := b.len } }) ∧
    (b.fetching = true ∨ b.valid = false → exec .bootDescriptorPoll s = .next s) ∧
    (∀ l, b.leader = some l → b.fetching = true → b.phase = 3#4 →
      (∀ h v, inp s 0 = 1 → b.valid = true → b.fetchLost = false →
        verifyImage b.leastSvn s.host b.polledImg.toNat b.polledLen.toNat = some (h, v) →
        ∃ t : State, exec .firmwareFetch s = .next t ∧ t.bridge.image = cutMem b.polledImg.toNat b.polledLen.toNat s.host ∧
          t.bridge.fwhash = h ∧ t.bridge.svn = v ∧ t.bridge.fetched = true ∧ (t.reticle l).loaded = true) ∧
      (inp s 0 ≠ 1 ∨ b.valid = false ∨ b.fetchLost = true ∨ verifyImage b.leastSvn s.host b.polledImg.toNat b.polledLen.toNat = none →
        (b.fetches < 2 → exec .firmwareFetch s =
          .next { s with bridge := { b with fetches := b.fetches + 1, fetching := b.valid && !b.fetchLost, fetchLost := false } }) ∧
        (b.fetches = 2 → exec .firmwareFetch s = .next { s with bridge := { b with fetches := 3, fetching := false, err := 2#4, phase := 7#4 } }))) ∧
    (b.phase = 5#4 → exec .enumTimeout s = .next { s with bridge := { b with err := 3#4, phase := 7#4 } }) ∧
    (let s1 := (List.range 48).foldl (fun s i => s.onReticle i fun r => { r with lrow := logicalRow s i, code := r.state }) s
     b.phase = 5#4 →
      (gridForms s1 = true → (∃ i, i < 48 ∧ (s1.reticle i).state = 0) → ∃ t : State, exec .enumeration s = .next t ∧ t.bridge.phase = 6#4 ∧
        find? 16 t.roots = some (inp s 2) ∧ ∀ i, i < 48 → (t.reticle i).time = 0#64) ∧
      (gridForms s1 = false → ∃ t : State, exec .enumeration s = .next t ∧ t.bridge.phase = 7#4 ∧ t.bridge.err = 3#4)) ∧
    exec .coolantOvertemp s = .next { State.reset with
      agenda := s.agenda, input := s.input, fresh := s.fresh, host := s.host, bridge := { svnMin := b.svnMin } }

/-! Frames and the invariant. -/

/-- 02 R53, R55, 03, 04, 05: an instruction whose whole effect is the write of registers puts a result on its way or traps;
memory, every buffer, every tile, every other core and every register stay as they are until the result lands. -/
def Obligations.RegisterResultFrame : Prop :=
  ∀ (i : Instr) (s t : State), onlyResults i = true → exec i s = .next t →
    elsewhereSame s t ∧
    (t.core = { s.core with pend := t.core.pend, divrem := t.core.divrem } ∨ ∃ c v, t = raiseWith c v s)

/-- 02 R53, 03 R65, 04 R97, 05 R134: a result that lands, other than a control register's, PRIO's or a loop's, writes its own register,
which then reads the value (s0 zero and k0 all ones; of a pair, d the first and d + 1 the second), ORs its flags into
FPSTAT and adds its histogram and token; no other register, and nothing else of the core, changes. -/
def Obligations.LandingWritesOnlyItsRegister : Prop :=
  ∀ (c : Core) (p : Pending), (∀ num x, p.put ≠ .ctl num x) → (∀ x, p.put ≠ .prio x) → (∀ b e n, p.put ≠ .loop b e n) →
    let d := c.landOne p
    (∀ q x, p.put = .s q x → d.s q = if q = 0#5 then 0#64 else x) ∧
    (∀ q x, p.put = .k q x → d.k q = if q = 0#3 then BitVec.allOnes 64 else x) ∧
    (∀ q x, p.put = .n q x → d.n q = x) ∧ (∀ q x, p.put = .v q x → d.v q = x) ∧
    (∀ r x y, p.put = .vv r x y → d.v r = x ∧ d.v (r + 1#5) = y) ∧
    (∀ q, (∀ x, p.put ≠ .s q x) → d.s q = c.s q) ∧
    (∀ q, (∀ x, p.put ≠ .k q x) → d.k q = c.k q) ∧
    (∀ q, (∀ x, p.put ≠ .n q x) → d.n q = c.n q) ∧
    (∀ q, (∀ x, p.put ≠ .v q x) → (∀ r x y, p.put = .vv r x y → q ≠ r ∧ q ≠ r + 1#5) → d.v q = c.v q) ∧
    d.regs.fpstat = c.regs.fpstat ||| p.flags ∧ d.exphist = histAdd c.exphist p.hist ∧
    d.tcd = (if p.tcn = 0#4 then c.tcd else c.tcd ++ [(p.tcn.toNat, 1)]) ∧
    d = { c with regs := { c.regs with s := d.regs.s, k := d.regs.k, n := d.regs.n, v := d.regs.v, fpstat := d.regs.fpstat }
                 bankS := d.bankS, exphist := d.exphist, tcd := d.tcd }

/-- 03 R81, 07 R171, R189, R193, 09 R232, 14 R351, R352, R363, 16 R403, 17 R436: what reset leaves. No reticle has power; a
core is in firmware mode and issues nothing, its trap registers, cycle counter, watchdog limit and debug enable zero, its
landing queue, logs, stores and caches empty, its tiles EMPTY; the host reads the control window's reset values. HBM and host
memory are in canonical form and list nothing (log 5, the model's choice). -/
def Obligations.ResetState : Prop :=
  let c := State.reset.core
  GlobalWf State.reset ∧ BuffersWf c ∧ State.reset.hbm = [] ∧ State.reset.host = [] ∧ State.reset.net = [] ∧ State.reset.regions = [] ∧
  (∀ i, (State.reset.reticle i).phase = .off) ∧ (∀ n, State.reset.coreAt n = c) ∧
  c.fwm = true ∧ c.halt = .reset ∧ c.running = false ∧ c.hreq = false ∧ c.trapcause = 0#6 ∧ c.trappc = 0#56 ∧ c.trapval = 0#64 ∧
  c.cycle = 0#64 ∧ c.wdlim = 0#32 ∧ c.dbgen = 0#1 ∧ c.rseq = 0#64 ∧ c.darn = [] ∧ c.lq = [] ∧ c.faults = [] ∧ c.istore = [] ∧ c.gcache = [] ∧
  c.matq = [] ∧ c.matmode = 0#10 ∧ c.ops = [] ∧ c.ready = [] ∧ (∀ i, (c.tile i).state = .empty) ∧ (∀ i : Fin 16, c.slots[i] = {}) ∧
  (∀ off, off ∈ [0x08, 0x18, 0x20, 0x80, 0x100] → controlRead State.reset off = 0) ∧ controlRead State.reset 0x10 = 0x00FF0000 ∧
  (∀ i, i < 16 → controlRead State.reset (0x180 + 8 * i) = 0) ∧ (∀ i, i < 32 → controlRead State.reset (0x200 + 8 * i) = 0) ∧
  (∀ q off, q < 16 → pageRead State.reset q off = 0)

/-- 07 R167, 08 R197, log 5: every step, of a core, an agent, a network token, an engine, the host or the bring-up, keeps the
canonical form of HBM and of host memory: addresses strictly rising, no zero byte listed. -/
def Obligations.GlobalMemoryStaysCanonical : Prop :=
  ∀ (s t : State), GlobalWf s → step s = .next t → GlobalWf t
end

