-- ==== Sys2Proof/Laws/Memory.lean ====
section
/-! SUPPORT. Tables by number and byte memory: what a read gives after a write, and that every write keeps the canonical form
(07 R167, 08 R197). -/

namespace Sys2Proof.Laws

open Sys2Proof.Machine

variable {α : Type}

/-! Tables. -/

@[simp] theorem find_nil (k : Nat) : find? k ([] : Map α) = none := rfl

@[simp] theorem find_insert_self (k : Nat) (x : α) (m : Map α) : find? k (Machine.insert k x m) = some x := by
  induction m with
  | nil => simp [Machine.insert, find?]
  | cons p t ih =>
    simp only [Machine.insert]
    split
    · simp [find?]
    · split
      · simp [find?]
      · rename_i h
        simp [find?, Ne.symm h, ih]

theorem find_insert_of_ne {k j : Nat} (h : j ≠ k) (x : α) (m : Map α) : find? j (Machine.insert k x m) = find? j m := by
  induction m with
  | nil => simp [Machine.insert, find?, Ne.symm h]
  | cons p t ih =>
    simp only [Machine.insert]
    split
    · simp [find?, Ne.symm h]
    · split
      · subst_vars; simp [find?, Ne.symm h]
      · simp [find?, ih]

theorem find_insert (k j : Nat) (x : α) (m : Map α) : find? j (Machine.insert k x m) = if j = k then some x else find? j m := by
  split
  · subst_vars; exact find_insert_self ..
  · exact find_insert_of_ne ‹_› ..

@[simp] theorem findD_insert_self (k : Nat) (d x : α) (m : Map α) : findD k d (Machine.insert k x m) = x := by simp [findD]

theorem findD_insert_of_ne {k j : Nat} (h : j ≠ k) (d x : α) (m : Map α) : findD j d (Machine.insert k x m) = findD j d m := by
  simp [findD, find_insert_of_ne h]

theorem find_erase_of_ne {k j : Nat} (h : j ≠ k) (m : Map α) : find? j (erase k m) = find? j m := by
  induction m with
  | nil => rfl
  | cons p t ih =>
    simp only [erase]
    split
    · subst_vars; simp [find?, Ne.symm h]
    · simp [find?, ih]

/-- Below its bound a table with rising keys has no entry. -/
theorem find_of_sortedFrom {lo k : Nat} {m : Map α} (h : sortedFrom lo m = true) (hk : k < lo) : find? k m = none := by
  induction m generalizing lo with
  | nil => rfl
  | cons p t ih =>
    simp only [sortedFrom, Bool.and_eq_true, decide_eq_true_eq] at h
    have : p.1 ≠ k := by omega
    simp [find?, this, ih h.2 (by omega)]

theorem find_erase_self {lo k : Nat} {m : Map α} (h : sortedFrom lo m = true) : find? k (erase k m) = none := by
  induction m generalizing lo with
  | nil => rfl
  | cons p t ih =>
    simp only [sortedFrom, Bool.and_eq_true, decide_eq_true_eq] at h
    simp only [erase]
    split
    · subst_vars; exact find_of_sortedFrom h.2 (by omega)
    · rename_i hne
      simp [find?, hne, ih h.2]

theorem sortedFrom_mono {lo hi : Nat} {m : Map α} (h : sortedFrom hi m = true) (hl : lo ≤ hi) : sortedFrom lo m = true := by
  cases m with
  | nil => rfl
  | cons p t => simp only [sortedFrom, Bool.and_eq_true, decide_eq_true_eq] at *; exact ⟨by omega, h.2⟩

theorem sortedFrom_insert {lo k : Nat} {x : α} {m : Map α} (h : sortedFrom lo m = true) (hk : lo ≤ k) :
    sortedFrom lo (Machine.insert k x m) = true := by
  induction m generalizing lo with
  | nil => simp [Machine.insert, sortedFrom, hk]
  | cons p t ih =>
    simp only [sortedFrom, Bool.and_eq_true, decide_eq_true_eq] at h
    simp only [Machine.insert]
    split
    · simp [sortedFrom, hk, h.2]; omega
    · split
      · subst_vars; simp [sortedFrom, hk, h.2]
      · simp only [sortedFrom, Bool.and_eq_true, decide_eq_true_eq]
        exact ⟨h.1, ih h.2 (by omega)⟩

theorem sortedFrom_erase {lo k : Nat} {m : Map α} (h : sortedFrom lo m = true) : sortedFrom lo (erase k m) = true := by
  induction m generalizing lo with
  | nil => rfl
  | cons p t ih =>
    simp only [sortedFrom, Bool.and_eq_true, decide_eq_true_eq] at h
    simp only [erase]
    split
    · exact sortedFrom_mono h.2 (by omega)
    · simp only [sortedFrom, Bool.and_eq_true, decide_eq_true_eq]; exact ⟨h.1, ih h.2⟩

theorem all_erase {f : Nat × α → Bool} {k : Nat} {m : Map α} (h : m.all f = true) : (erase k m).all f = true := by
  induction m with
  | nil => rfl
  | cons p t ih =>
    simp only [List.all_cons, Bool.and_eq_true] at h
    simp only [erase]
    split
    · exact h.2
    · simp [h.1, ih h.2]

theorem all_insert {f : Nat × α → Bool} {k : Nat} {x : α} {m : Map α} (h : m.all f = true) (hx : f (k, x) = true) :
    (Machine.insert k x m).all f = true := by
  induction m with
  | nil => simp [Machine.insert, hx]
  | cons p t ih =>
    simp only [List.all_cons, Bool.and_eq_true] at h
    simp only [Machine.insert]
    split
    · simp [hx, h.1, h.2]
    · split
      · simp [hx, h.2]
      · simp [h.1, ih h.2]

/-! Bytes. -/

@[simp] theorem wf_nil : Memory.wf [] = true := rfl

/-- A byte written keeps the canonical form. -/
theorem wr_wf {m : Memory} (h : m.wf = true) (a : Nat) (b : Byte) : (wr m a b).wf = true := by
  simp only [Memory.wf, Bool.and_eq_true] at *
  unfold wr put
  split
  · exact ⟨sortedFrom_erase h.1, all_erase h.2⟩
  · exact ⟨sortedFrom_insert h.1 (Nat.zero_le _), all_insert h.2 (by simpa using ‹_›)⟩

theorem wrN_wf {m : Memory} (h : m.wf = true) (a x n : Nat) : (wrN m a x n).wf = true := by
  induction n generalizing m a x with
  | zero => exact h
  | succ n ih => exact ih (wr_wf h ..) ..

theorem wrBytes_wf {m : Memory} (h : m.wf = true) (a : Nat) (l : List Byte) : (wrBytes m a l).wf = true := by
  induction l generalizing m a with
  | nil => exact h
  | cons b t ih => exact ih (wr_wf h ..) ..

theorem wrMask_wf {m : Memory} (h : m.wf = true) (a mask x n : Nat) : (wrMask m a mask x n).wf = true := by
  induction n generalizing m a mask x with
  | zero => exact h
  | succ n ih =>
    simp only [wrMask]
    split
    · exact ih (wr_wf h ..) ..
    · exact ih h ..

theorem writeLines_wf {m : Memory} (h : m.wf = true) : (l : List Nat) → (writeLines m l).wf = true
  | [] => h
  | [_] => h
  | a :: x :: t => by
    refine writeLines_wf ?_ t
    split
    · exact wrN_wf h ..
    · exact h

/-- A byte reads as it was written. -/
theorem rd_wr_self {m : Memory} (h : m.wf = true) (a : Nat) (b : Byte) : rd (wr m a b) a = b := by
  simp only [Memory.wf, Bool.and_eq_true] at h
  unfold rd wr put findD
  split
  · subst_vars; simp [find_erase_self h.1]
  · simp

/-- Every other byte stays. -/
theorem rd_wr_of_ne {a c : Nat} (h : c ≠ a) (m : Memory) (b : Byte) : rd (wr m a b) c = rd m c := by
  unfold rd wr put findD
  split
  · rw [find_erase_of_ne h]
  · rw [find_insert_of_ne h]

/-- Outside the n bytes written, memory stays. -/
theorem rd_wrN_outside {a c n : Nat} (h : c < a ∨ a + n ≤ c) (m : Memory) (x : Nat) : rd (wrN m a x n) c = rd m c := by
  induction n generalizing m a x with
  | zero => rfl
  | succ n ih => rw [wrN, ih (by omega), rd_wr_of_ne (by omega)]

theorem rd_wrBytes_outside {a c : Nat} {l : List Byte} (h : c < a ∨ a + l.length ≤ c) (m : Memory) :
    rd (wrBytes m a l) c = rd m c := by
  induction l generalizing m a with
  | nil => rfl
  | cons b t ih =>
    simp only [List.length_cons] at h
    rw [wrBytes, ih (by omega), rd_wr_of_ne (by omega)]

theorem rd_wrMask_outside {a c n : Nat} (h : c < a ∨ a + n ≤ c) (m : Memory) (mask x : Nat) : rd (wrMask m a mask x n) c = rd m c := by
  induction n generalizing m a mask x with
  | zero => rfl
  | succ n ih =>
    rw [wrMask, ih (by omega)]
    split
    · exact rd_wr_of_ne (by omega) ..
    · rfl

/-- Bytes below the bound of a later write read alike, so a number of bytes does. -/
theorem rdN_congr {m m' : Memory} {a n : Nat} (h : ∀ i, a ≤ i → i < a + n → rd m i = rd m' i) : rdN m a n = rdN m' a n := by
  induction n generalizing a with
  | zero => rfl
  | succ n ih => rw [rdN, rdN, h a (by omega) (by omega), ih fun i h1 h2 => h i (by omega) (by omega)]

/-- n bytes read as they were written. -/
theorem rdN_wrN {m : Memory} (h : m.wf = true) (a x n : Nat) : rdN (wrN m a x n) a n = x % 256 ^ n := by
  induction n generalizing m a x with
  | zero => simp [rdN, Nat.mod_one]
  | succ n ih =>
    have e : x % 256 ^ (n + 1) = x % 256 + 256 * (x / 256 % 256 ^ n) := by rw [Nat.pow_succ', Nat.mod_mul]
    rw [rdN, wrN, ih (wr_wf h ..), rd_wrN_outside (by omega), rd_wr_self h, BitVec.toNat_ofNat, e]

/-- Canonical memories that read alike at every address are equal. -/
theorem memory_ext {m m' : Memory} (h : m.wf = true) (h' : m'.wf = true) (he : ∀ a, rd m a = rd m' a) : m = m' := by
  simp only [Memory.wf, Bool.and_eq_true] at h h'
  have main : ∀ (m m' : Memory) (lo : Nat), sortedFrom lo m = true → sortedFrom lo m' = true → (m.all fun p => p.2 != 0#8) = true →
      (m'.all fun p => p.2 != 0#8) = true → (∀ a, rd m a = rd m' a) → m = m' := by
    intro m
    induction m with
    | nil =>
      intro m' lo _ _ _ n' e
      cases m' with
      | nil => rfl
      | cons q t' =>
        have := e q.1
        simp only [List.all_cons, Bool.and_eq_true, bne_iff_ne, ne_eq] at n'
        simp [rd, findD, find?] at this
        exact absurd this.symm n'.1
    | cons p t ih =>
      intro m' lo s s' n n' e
      cases m' with
      | nil =>
        have := e p.1
        simp only [List.all_cons, Bool.and_eq_true, bne_iff_ne, ne_eq] at n
        simp [rd, findD, find?] at this
        exact absurd this n.1
      | cons q t' =>
        simp only [sortedFrom, Bool.and_eq_true, decide_eq_true_eq, List.all_cons, bne_iff_ne, ne_eq] at s s' n n'
        have hk : p.1 = q.1 := by
          rcases Nat.lt_trichotomy p.1 q.1 with hlt | heq | hgt
          · have := e p.1
            have hq : find? p.1 t' = none := find_of_sortedFrom s'.2 (by omega)
            have hne : q.1 ≠ p.1 := by omega
            simp [rd, findD, find?, hq, hne] at this
            exact absurd this n.1
          · exact heq
          · have := e q.1
            have hp : find? q.1 t = none := find_of_sortedFrom s.2 (by omega)
            have hne : p.1 ≠ q.1 := by omega
            simp [rd, findD, find?, hp, hne] at this
            exact absurd this.symm n'.1
        have hv : p.2 = q.2 := by
          have := e p.1
          simpa [rd, findD, find?, hk] using this
        have hpq : p = q := Prod.ext hk hv
        subst hpq
        congr 1
        refine ih t' _ s.2 s'.2 n.2 n'.2 fun a => ?_
        have := e a
        by_cases ha : p.1 = a
        · subst ha
          simp [rd, findD, find_of_sortedFrom s.2 (Nat.lt_succ_self _), find_of_sortedFrom s'.2 (Nat.lt_succ_self _)]
        · simpa [rd, findD, find?, ha] using this
  exact main m m' 0 h.1 h'.1 h.2 h'.2 he

end Sys2Proof.Laws
end

