-- ==== Sys2Proof/Laws/State.lean ====
section
/-! SUPPORT. Every update of the state, of a core and of its registers, field by field. -/

namespace Sys2Proof.Laws

open Sys2Proof.Machine

/-! State.onCore -/

@[simp] theorem onCore_cur (s : State) (f : Core → Core) : (s.onCore f).cur = s.cur := rfl
@[simp] theorem onCore_parked (s : State) (f : Core → Core) : (s.onCore f).parked = s.parked := rfl
@[simp] theorem onCore_issue (s : State) (f : Core → Core) : (s.onCore f).issue = s.issue := rfl
@[simp] theorem onCore_agenda (s : State) (f : Core → Core) : (s.onCore f).agenda = s.agenda := rfl
@[simp] theorem onCore_input (s : State) (f : Core → Core) : (s.onCore f).input = s.input := rfl
@[simp] theorem onCore_handler (s : State) (f : Core → Core) : (s.onCore f).handler = s.handler := rfl
@[simp] theorem onCore_fresh (s : State) (f : Core → Core) : (s.onCore f).fresh = s.fresh := rfl
@[simp] theorem onCore_hbm (s : State) (f : Core → Core) : (s.onCore f).hbm = s.hbm := rfl
@[simp] theorem onCore_badLine (s : State) (f : Core → Core) : (s.onCore f).badLine = s.badLine := rfl
@[simp] theorem onCore_host (s : State) (f : Core → Core) : (s.onCore f).host = s.host := rfl
@[simp] theorem onCore_roots (s : State) (f : Core → Core) : (s.onCore f).roots = s.roots := rfl
@[simp] theorem onCore_tlb (s : State) (f : Core → Core) : (s.onCore f).tlb = s.tlb := rfl
@[simp] theorem onCore_ports (s : State) (f : Core → Core) : (s.onCore f).ports = s.ports := rfl
@[simp] theorem onCore_regions (s : State) (f : Core → Core) : (s.onCore f).regions = s.regions := rfl
@[simp] theorem onCore_net (s : State) (f : Core → Core) : (s.onCore f).net = s.net := rfl
@[simp] theorem onCore_routers (s : State) (f : Core → Core) : (s.onCore f).routers = s.routers := rfl
@[simp] theorem onCore_notices (s : State) (f : Core → Core) : (s.onCore f).notices = s.notices := rfl
@[simp] theorem onCore_blocks (s : State) (f : Core → Core) : (s.onCore f).blocks = s.blocks := rfl
@[simp] theorem onCore_links (s : State) (f : Core → Core) : (s.onCore f).links = s.links := rfl
@[simp] theorem onCore_reticles (s : State) (f : Core → Core) : (s.onCore f).reticles = s.reticles := rfl
@[simp] theorem onCore_bridge (s : State) (f : Core → Core) : (s.onCore f).bridge = s.bridge := rfl
@[simp] theorem onCore_queues (s : State) (f : Core → Core) : (s.onCore f).queues = s.queues := rfl
@[simp] theorem onCore_pages (s : State) (f : Core → Core) : (s.onCore f).pages = s.pages := rfl
@[simp] theorem onCore_doorbells (s : State) (f : Core → Core) : (s.onCore f).doorbells = s.doorbells := rfl
@[simp] theorem onCore_clock (s : State) (f : Core → Core) : (s.onCore f).clock = s.clock := rfl
@[simp] theorem onCore_resume (s : State) (f : Core → Core) : (s.onCore f).resume = s.resume := rfl

@[simp] theorem onCore_core (s : State) (f : Core → Core) : (s.onCore f).core = f s.core := rfl

/-! State.atSlot -/

@[simp] theorem atSlot_core (s : State) (p : Nat × Word) : (s.atSlot p).core = s.core := rfl
@[simp] theorem atSlot_cur (s : State) (p : Nat × Word) : (s.atSlot p).cur = s.cur := rfl
@[simp] theorem atSlot_parked (s : State) (p : Nat × Word) : (s.atSlot p).parked = s.parked := rfl
@[simp] theorem atSlot_agenda (s : State) (p : Nat × Word) : (s.atSlot p).agenda = s.agenda := rfl
@[simp] theorem atSlot_input (s : State) (p : Nat × Word) : (s.atSlot p).input = s.input := rfl
@[simp] theorem atSlot_handler (s : State) (p : Nat × Word) : (s.atSlot p).handler = s.handler := rfl
@[simp] theorem atSlot_fresh (s : State) (p : Nat × Word) : (s.atSlot p).fresh = s.fresh := rfl
@[simp] theorem atSlot_hbm (s : State) (p : Nat × Word) : (s.atSlot p).hbm = s.hbm := rfl
@[simp] theorem atSlot_badLine (s : State) (p : Nat × Word) : (s.atSlot p).badLine = s.badLine := rfl
@[simp] theorem atSlot_host (s : State) (p : Nat × Word) : (s.atSlot p).host = s.host := rfl
@[simp] theorem atSlot_roots (s : State) (p : Nat × Word) : (s.atSlot p).roots = s.roots := rfl
@[simp] theorem atSlot_tlb (s : State) (p : Nat × Word) : (s.atSlot p).tlb = s.tlb := rfl
@[simp] theorem atSlot_ports (s : State) (p : Nat × Word) : (s.atSlot p).ports = s.ports := rfl
@[simp] theorem atSlot_regions (s : State) (p : Nat × Word) : (s.atSlot p).regions = s.regions := rfl
@[simp] theorem atSlot_net (s : State) (p : Nat × Word) : (s.atSlot p).net = s.net := rfl
@[simp] theorem atSlot_routers (s : State) (p : Nat × Word) : (s.atSlot p).routers = s.routers := rfl
@[simp] theorem atSlot_notices (s : State) (p : Nat × Word) : (s.atSlot p).notices = s.notices := rfl
@[simp] theorem atSlot_blocks (s : State) (p : Nat × Word) : (s.atSlot p).blocks = s.blocks := rfl
@[simp] theorem atSlot_links (s : State) (p : Nat × Word) : (s.atSlot p).links = s.links := rfl
@[simp] theorem atSlot_reticles (s : State) (p : Nat × Word) : (s.atSlot p).reticles = s.reticles := rfl
@[simp] theorem atSlot_bridge (s : State) (p : Nat × Word) : (s.atSlot p).bridge = s.bridge := rfl
@[simp] theorem atSlot_queues (s : State) (p : Nat × Word) : (s.atSlot p).queues = s.queues := rfl
@[simp] theorem atSlot_pages (s : State) (p : Nat × Word) : (s.atSlot p).pages = s.pages := rfl
@[simp] theorem atSlot_doorbells (s : State) (p : Nat × Word) : (s.atSlot p).doorbells = s.doorbells := rfl
@[simp] theorem atSlot_clock (s : State) (p : Nat × Word) : (s.atSlot p).clock = s.clock := rfl
@[simp] theorem atSlot_resume (s : State) (p : Nat × Word) : (s.atSlot p).resume = s.resume := rfl

/-! hold -/

@[simp] theorem hold_core (s : State) (why : Nat) : (hold why s).core = s.core := rfl
@[simp] theorem hold_cur (s : State) (why : Nat) : (hold why s).cur = s.cur := rfl
@[simp] theorem hold_parked (s : State) (why : Nat) : (hold why s).parked = s.parked := rfl
@[simp] theorem hold_agenda (s : State) (why : Nat) : (hold why s).agenda = s.agenda := rfl
@[simp] theorem hold_input (s : State) (why : Nat) : (hold why s).input = s.input := rfl
@[simp] theorem hold_handler (s : State) (why : Nat) : (hold why s).handler = s.handler := rfl
@[simp] theorem hold_fresh (s : State) (why : Nat) : (hold why s).fresh = s.fresh := rfl
@[simp] theorem hold_hbm (s : State) (why : Nat) : (hold why s).hbm = s.hbm := rfl
@[simp] theorem hold_badLine (s : State) (why : Nat) : (hold why s).badLine = s.badLine := rfl
@[simp] theorem hold_host (s : State) (why : Nat) : (hold why s).host = s.host := rfl
@[simp] theorem hold_roots (s : State) (why : Nat) : (hold why s).roots = s.roots := rfl
@[simp] theorem hold_tlb (s : State) (why : Nat) : (hold why s).tlb = s.tlb := rfl
@[simp] theorem hold_ports (s : State) (why : Nat) : (hold why s).ports = s.ports := rfl
@[simp] theorem hold_regions (s : State) (why : Nat) : (hold why s).regions = s.regions := rfl
@[simp] theorem hold_net (s : State) (why : Nat) : (hold why s).net = s.net := rfl
@[simp] theorem hold_routers (s : State) (why : Nat) : (hold why s).routers = s.routers := rfl
@[simp] theorem hold_notices (s : State) (why : Nat) : (hold why s).notices = s.notices := rfl
@[simp] theorem hold_blocks (s : State) (why : Nat) : (hold why s).blocks = s.blocks := rfl
@[simp] theorem hold_links (s : State) (why : Nat) : (hold why s).links = s.links := rfl
@[simp] theorem hold_reticles (s : State) (why : Nat) : (hold why s).reticles = s.reticles := rfl
@[simp] theorem hold_bridge (s : State) (why : Nat) : (hold why s).bridge = s.bridge := rfl
@[simp] theorem hold_queues (s : State) (why : Nat) : (hold why s).queues = s.queues := rfl
@[simp] theorem hold_pages (s : State) (why : Nat) : (hold why s).pages = s.pages := rfl
@[simp] theorem hold_doorbells (s : State) (why : Nat) : (hold why s).doorbells = s.doorbells := rfl
@[simp] theorem hold_clock (s : State) (why : Nat) : (hold why s).clock = s.clock := rfl
@[simp] theorem hold_resume (s : State) (why : Nat) : (hold why s).resume = s.resume := rfl

@[simp] theorem hold_stop (s : State) (why : Nat) : (hold why s).issue.stop = some (.held why) := rfl

/-! launchResult -/

@[simp] theorem launchResult_cur (s : State) (p : Pending) : (launchResult p s).cur = s.cur := rfl
@[simp] theorem launchResult_parked (s : State) (p : Pending) : (launchResult p s).parked = s.parked := rfl
@[simp] theorem launchResult_agenda (s : State) (p : Pending) : (launchResult p s).agenda = s.agenda := rfl
@[simp] theorem launchResult_input (s : State) (p : Pending) : (launchResult p s).input = s.input := rfl
@[simp] theorem launchResult_handler (s : State) (p : Pending) : (launchResult p s).handler = s.handler := rfl
@[simp] theorem launchResult_fresh (s : State) (p : Pending) : (launchResult p s).fresh = s.fresh := rfl
@[simp] theorem launchResult_hbm (s : State) (p : Pending) : (launchResult p s).hbm = s.hbm := rfl
@[simp] theorem launchResult_badLine (s : State) (p : Pending) : (launchResult p s).badLine = s.badLine := rfl
@[simp] theorem launchResult_host (s : State) (p : Pending) : (launchResult p s).host = s.host := rfl
@[simp] theorem launchResult_roots (s : State) (p : Pending) : (launchResult p s).roots = s.roots := rfl
@[simp] theorem launchResult_tlb (s : State) (p : Pending) : (launchResult p s).tlb = s.tlb := rfl
@[simp] theorem launchResult_ports (s : State) (p : Pending) : (launchResult p s).ports = s.ports := rfl
@[simp] theorem launchResult_regions (s : State) (p : Pending) : (launchResult p s).regions = s.regions := rfl
@[simp] theorem launchResult_net (s : State) (p : Pending) : (launchResult p s).net = s.net := rfl
@[simp] theorem launchResult_routers (s : State) (p : Pending) : (launchResult p s).routers = s.routers := rfl
@[simp] theorem launchResult_notices (s : State) (p : Pending) : (launchResult p s).notices = s.notices := rfl
@[simp] theorem launchResult_blocks (s : State) (p : Pending) : (launchResult p s).blocks = s.blocks := rfl
@[simp] theorem launchResult_links (s : State) (p : Pending) : (launchResult p s).links = s.links := rfl
@[simp] theorem launchResult_reticles (s : State) (p : Pending) : (launchResult p s).reticles = s.reticles := rfl
@[simp] theorem launchResult_bridge (s : State) (p : Pending) : (launchResult p s).bridge = s.bridge := rfl
@[simp] theorem launchResult_queues (s : State) (p : Pending) : (launchResult p s).queues = s.queues := rfl
@[simp] theorem launchResult_pages (s : State) (p : Pending) : (launchResult p s).pages = s.pages := rfl
@[simp] theorem launchResult_doorbells (s : State) (p : Pending) : (launchResult p s).doorbells = s.doorbells := rfl
@[simp] theorem launchResult_clock (s : State) (p : Pending) : (launchResult p s).clock = s.clock := rfl
@[simp] theorem launchResult_resume (s : State) (p : Pending) : (launchResult p s).resume = s.resume := rfl

@[simp] theorem launchResult_pend (s : State) (p : Pending) : (launchResult p s).core.pend = s.core.pend ++ [p] := rfl
@[simp] theorem launchResult_regs (s : State) (p : Pending) : (launchResult p s).core.regs = s.core.regs := rfl
@[simp] theorem launchResult_stop (s : State) (p : Pending) : (launchResult p s).issue.stop = s.issue.stop := rfl
@[simp] theorem launchResult_commit (s : State) (p : Pending) : (launchResult p s).issue.commit = s.issue.commit := rfl
@[simp] theorem launchResult_claims (s : State) (p : Pending) : (launchResult p s).issue.claims = s.issue.claims ++ [p] := rfl

/-! raiseWith -/

@[simp] theorem raiseWith_cur (s : State) (c : Cause) (v : W64) : (raiseWith c v s).cur = s.cur := rfl
@[simp] theorem raiseWith_parked (s : State) (c : Cause) (v : W64) : (raiseWith c v s).parked = s.parked := rfl
@[simp] theorem raiseWith_agenda (s : State) (c : Cause) (v : W64) : (raiseWith c v s).agenda = s.agenda := rfl
@[simp] theorem raiseWith_input (s : State) (c : Cause) (v : W64) : (raiseWith c v s).input = s.input := rfl
@[simp] theorem raiseWith_handler (s : State) (c : Cause) (v : W64) : (raiseWith c v s).handler = s.handler := rfl
@[simp] theorem raiseWith_fresh (s : State) (c : Cause) (v : W64) : (raiseWith c v s).fresh = s.fresh := rfl
@[simp] theorem raiseWith_hbm (s : State) (c : Cause) (v : W64) : (raiseWith c v s).hbm = s.hbm := rfl
@[simp] theorem raiseWith_badLine (s : State) (c : Cause) (v : W64) : (raiseWith c v s).badLine = s.badLine := rfl
@[simp] theorem raiseWith_host (s : State) (c : Cause) (v : W64) : (raiseWith c v s).host = s.host := rfl
@[simp] theorem raiseWith_roots (s : State) (c : Cause) (v : W64) : (raiseWith c v s).roots = s.roots := rfl
@[simp] theorem raiseWith_tlb (s : State) (c : Cause) (v : W64) : (raiseWith c v s).tlb = s.tlb := rfl
@[simp] theorem raiseWith_ports (s : State) (c : Cause) (v : W64) : (raiseWith c v s).ports = s.ports := rfl
@[simp] theorem raiseWith_regions (s : State) (c : Cause) (v : W64) : (raiseWith c v s).regions = s.regions := rfl
@[simp] theorem raiseWith_net (s : State) (c : Cause) (v : W64) : (raiseWith c v s).net = s.net := rfl
@[simp] theorem raiseWith_routers (s : State) (c : Cause) (v : W64) : (raiseWith c v s).routers = s.routers := rfl
@[simp] theorem raiseWith_notices (s : State) (c : Cause) (v : W64) : (raiseWith c v s).notices = s.notices := rfl
@[simp] theorem raiseWith_blocks (s : State) (c : Cause) (v : W64) : (raiseWith c v s).blocks = s.blocks := rfl
@[simp] theorem raiseWith_links (s : State) (c : Cause) (v : W64) : (raiseWith c v s).links = s.links := rfl
@[simp] theorem raiseWith_reticles (s : State) (c : Cause) (v : W64) : (raiseWith c v s).reticles = s.reticles := rfl
@[simp] theorem raiseWith_bridge (s : State) (c : Cause) (v : W64) : (raiseWith c v s).bridge = s.bridge := rfl
@[simp] theorem raiseWith_queues (s : State) (c : Cause) (v : W64) : (raiseWith c v s).queues = s.queues := rfl
@[simp] theorem raiseWith_pages (s : State) (c : Cause) (v : W64) : (raiseWith c v s).pages = s.pages := rfl
@[simp] theorem raiseWith_doorbells (s : State) (c : Cause) (v : W64) : (raiseWith c v s).doorbells = s.doorbells := rfl
@[simp] theorem raiseWith_clock (s : State) (c : Cause) (v : W64) : (raiseWith c v s).clock = s.clock := rfl
@[simp] theorem raiseWith_resume (s : State) (c : Cause) (v : W64) : (raiseWith c v s).resume = s.resume := rfl

@[simp] theorem raiseWith_core (s : State) (c : Cause) (v : W64) : (raiseWith c v s).core = s.core.takeTrap c.code s.core.regs.pc v := rfl
@[simp] theorem raiseWith_stop (s : State) (c : Cause) (v : W64) : (raiseWith c v s).issue.stop = some (.fault c v) := rfl

/-! addOp -/

@[simp] theorem addOp_cur (s : State) (x : Op) : (addOp x s).cur = s.cur := rfl
@[simp] theorem addOp_parked (s : State) (x : Op) : (addOp x s).parked = s.parked := rfl
@[simp] theorem addOp_issue (s : State) (x : Op) : (addOp x s).issue = s.issue := rfl
@[simp] theorem addOp_agenda (s : State) (x : Op) : (addOp x s).agenda = s.agenda := rfl
@[simp] theorem addOp_input (s : State) (x : Op) : (addOp x s).input = s.input := rfl
@[simp] theorem addOp_handler (s : State) (x : Op) : (addOp x s).handler = s.handler := rfl
@[simp] theorem addOp_fresh (s : State) (x : Op) : (addOp x s).fresh = s.fresh := rfl
@[simp] theorem addOp_hbm (s : State) (x : Op) : (addOp x s).hbm = s.hbm := rfl
@[simp] theorem addOp_badLine (s : State) (x : Op) : (addOp x s).badLine = s.badLine := rfl
@[simp] theorem addOp_host (s : State) (x : Op) : (addOp x s).host = s.host := rfl
@[simp] theorem addOp_roots (s : State) (x : Op) : (addOp x s).roots = s.roots := rfl
@[simp] theorem addOp_tlb (s : State) (x : Op) : (addOp x s).tlb = s.tlb := rfl
@[simp] theorem addOp_ports (s : State) (x : Op) : (addOp x s).ports = s.ports := rfl
@[simp] theorem addOp_regions (s : State) (x : Op) : (addOp x s).regions = s.regions := rfl
@[simp] theorem addOp_net (s : State) (x : Op) : (addOp x s).net = s.net := rfl
@[simp] theorem addOp_routers (s : State) (x : Op) : (addOp x s).routers = s.routers := rfl
@[simp] theorem addOp_notices (s : State) (x : Op) : (addOp x s).notices = s.notices := rfl
@[simp] theorem addOp_blocks (s : State) (x : Op) : (addOp x s).blocks = s.blocks := rfl
@[simp] theorem addOp_links (s : State) (x : Op) : (addOp x s).links = s.links := rfl
@[simp] theorem addOp_reticles (s : State) (x : Op) : (addOp x s).reticles = s.reticles := rfl
@[simp] theorem addOp_bridge (s : State) (x : Op) : (addOp x s).bridge = s.bridge := rfl
@[simp] theorem addOp_queues (s : State) (x : Op) : (addOp x s).queues = s.queues := rfl
@[simp] theorem addOp_pages (s : State) (x : Op) : (addOp x s).pages = s.pages := rfl
@[simp] theorem addOp_doorbells (s : State) (x : Op) : (addOp x s).doorbells = s.doorbells := rfl
@[simp] theorem addOp_clock (s : State) (x : Op) : (addOp x s).clock = s.clock := rfl
@[simp] theorem addOp_resume (s : State) (x : Op) : (addOp x s).resume = s.resume := rfl

/-! noteWords -/

@[simp] theorem noteWords_core (s : State) (ws : List (Nat × Nat)) : (noteWords ws s).core = s.core := rfl
@[simp] theorem noteWords_cur (s : State) (ws : List (Nat × Nat)) : (noteWords ws s).cur = s.cur := rfl
@[simp] theorem noteWords_parked (s : State) (ws : List (Nat × Nat)) : (noteWords ws s).parked = s.parked := rfl
@[simp] theorem noteWords_agenda (s : State) (ws : List (Nat × Nat)) : (noteWords ws s).agenda = s.agenda := rfl
@[simp] theorem noteWords_input (s : State) (ws : List (Nat × Nat)) : (noteWords ws s).input = s.input := rfl
@[simp] theorem noteWords_handler (s : State) (ws : List (Nat × Nat)) : (noteWords ws s).handler = s.handler := rfl
@[simp] theorem noteWords_fresh (s : State) (ws : List (Nat × Nat)) : (noteWords ws s).fresh = s.fresh := rfl
@[simp] theorem noteWords_hbm (s : State) (ws : List (Nat × Nat)) : (noteWords ws s).hbm = s.hbm := rfl
@[simp] theorem noteWords_badLine (s : State) (ws : List (Nat × Nat)) : (noteWords ws s).badLine = s.badLine := rfl
@[simp] theorem noteWords_host (s : State) (ws : List (Nat × Nat)) : (noteWords ws s).host = s.host := rfl
@[simp] theorem noteWords_roots (s : State) (ws : List (Nat × Nat)) : (noteWords ws s).roots = s.roots := rfl
@[simp] theorem noteWords_tlb (s : State) (ws : List (Nat × Nat)) : (noteWords ws s).tlb = s.tlb := rfl
@[simp] theorem noteWords_ports (s : State) (ws : List (Nat × Nat)) : (noteWords ws s).ports = s.ports := rfl
@[simp] theorem noteWords_regions (s : State) (ws : List (Nat × Nat)) : (noteWords ws s).regions = s.regions := rfl
@[simp] theorem noteWords_net (s : State) (ws : List (Nat × Nat)) : (noteWords ws s).net = s.net := rfl
@[simp] theorem noteWords_routers (s : State) (ws : List (Nat × Nat)) : (noteWords ws s).routers = s.routers := rfl
@[simp] theorem noteWords_notices (s : State) (ws : List (Nat × Nat)) : (noteWords ws s).notices = s.notices := rfl
@[simp] theorem noteWords_blocks (s : State) (ws : List (Nat × Nat)) : (noteWords ws s).blocks = s.blocks := rfl
@[simp] theorem noteWords_links (s : State) (ws : List (Nat × Nat)) : (noteWords ws s).links = s.links := rfl
@[simp] theorem noteWords_reticles (s : State) (ws : List (Nat × Nat)) : (noteWords ws s).reticles = s.reticles := rfl
@[simp] theorem noteWords_bridge (s : State) (ws : List (Nat × Nat)) : (noteWords ws s).bridge = s.bridge := rfl
@[simp] theorem noteWords_queues (s : State) (ws : List (Nat × Nat)) : (noteWords ws s).queues = s.queues := rfl
@[simp] theorem noteWords_pages (s : State) (ws : List (Nat × Nat)) : (noteWords ws s).pages = s.pages := rfl
@[simp] theorem noteWords_doorbells (s : State) (ws : List (Nat × Nat)) : (noteWords ws s).doorbells = s.doorbells := rfl
@[simp] theorem noteWords_clock (s : State) (ws : List (Nat × Nat)) : (noteWords ws s).clock = s.clock := rfl
@[simp] theorem noteWords_resume (s : State) (ws : List (Nat × Nat)) : (noteWords ws s).resume = s.resume := rfl

/-! State.setBlock -/

@[simp] theorem setBlock_core (s : State) (i : Nat) (x : Block) : (s.setBlock i x).core = s.core := rfl
@[simp] theorem setBlock_cur (s : State) (i : Nat) (x : Block) : (s.setBlock i x).cur = s.cur := rfl
@[simp] theorem setBlock_parked (s : State) (i : Nat) (x : Block) : (s.setBlock i x).parked = s.parked := rfl
@[simp] theorem setBlock_issue (s : State) (i : Nat) (x : Block) : (s.setBlock i x).issue = s.issue := rfl
@[simp] theorem setBlock_agenda (s : State) (i : Nat) (x : Block) : (s.setBlock i x).agenda = s.agenda := rfl
@[simp] theorem setBlock_input (s : State) (i : Nat) (x : Block) : (s.setBlock i x).input = s.input := rfl
@[simp] theorem setBlock_handler (s : State) (i : Nat) (x : Block) : (s.setBlock i x).handler = s.handler := rfl
@[simp] theorem setBlock_fresh (s : State) (i : Nat) (x : Block) : (s.setBlock i x).fresh = s.fresh := rfl
@[simp] theorem setBlock_hbm (s : State) (i : Nat) (x : Block) : (s.setBlock i x).hbm = s.hbm := rfl
@[simp] theorem setBlock_badLine (s : State) (i : Nat) (x : Block) : (s.setBlock i x).badLine = s.badLine := rfl
@[simp] theorem setBlock_host (s : State) (i : Nat) (x : Block) : (s.setBlock i x).host = s.host := rfl
@[simp] theorem setBlock_roots (s : State) (i : Nat) (x : Block) : (s.setBlock i x).roots = s.roots := rfl
@[simp] theorem setBlock_tlb (s : State) (i : Nat) (x : Block) : (s.setBlock i x).tlb = s.tlb := rfl
@[simp] theorem setBlock_ports (s : State) (i : Nat) (x : Block) : (s.setBlock i x).ports = s.ports := rfl
@[simp] theorem setBlock_regions (s : State) (i : Nat) (x : Block) : (s.setBlock i x).regions = s.regions := rfl
@[simp] theorem setBlock_net (s : State) (i : Nat) (x : Block) : (s.setBlock i x).net = s.net := rfl
@[simp] theorem setBlock_routers (s : State) (i : Nat) (x : Block) : (s.setBlock i x).routers = s.routers := rfl
@[simp] theorem setBlock_notices (s : State) (i : Nat) (x : Block) : (s.setBlock i x).notices = s.notices := rfl
@[simp] theorem setBlock_links (s : State) (i : Nat) (x : Block) : (s.setBlock i x).links = s.links := rfl
@[simp] theorem setBlock_reticles (s : State) (i : Nat) (x : Block) : (s.setBlock i x).reticles = s.reticles := rfl
@[simp] theorem setBlock_bridge (s : State) (i : Nat) (x : Block) : (s.setBlock i x).bridge = s.bridge := rfl
@[simp] theorem setBlock_queues (s : State) (i : Nat) (x : Block) : (s.setBlock i x).queues = s.queues := rfl
@[simp] theorem setBlock_pages (s : State) (i : Nat) (x : Block) : (s.setBlock i x).pages = s.pages := rfl
@[simp] theorem setBlock_doorbells (s : State) (i : Nat) (x : Block) : (s.setBlock i x).doorbells = s.doorbells := rfl
@[simp] theorem setBlock_clock (s : State) (i : Nat) (x : Block) : (s.setBlock i x).clock = s.clock := rfl
@[simp] theorem setBlock_resume (s : State) (i : Nat) (x : Block) : (s.setBlock i x).resume = s.resume := rfl

@[simp] theorem block_setBlock_self (s : State) (i : Nat) (x : Block) : (s.setBlock i x).block i = x := by simp [State.block, State.setBlock]
theorem block_setBlock_of_ne {i j : Nat} (h : j ≠ i) (s : State) (x : Block) : (s.setBlock i x).block j = s.block j := by
  simp [State.block, State.setBlock, findD_insert_of_ne h]

/-! State.onBlock -/

@[simp] theorem onBlock_core (s : State) (i : Nat) (f : Block → Block) : (s.onBlock i f).core = s.core := rfl
@[simp] theorem onBlock_cur (s : State) (i : Nat) (f : Block → Block) : (s.onBlock i f).cur = s.cur := rfl
@[simp] theorem onBlock_parked (s : State) (i : Nat) (f : Block → Block) : (s.onBlock i f).parked = s.parked := rfl
@[simp] theorem onBlock_issue (s : State) (i : Nat) (f : Block → Block) : (s.onBlock i f).issue = s.issue := rfl
@[simp] theorem onBlock_agenda (s : State) (i : Nat) (f : Block → Block) : (s.onBlock i f).agenda = s.agenda := rfl
@[simp] theorem onBlock_input (s : State) (i : Nat) (f : Block → Block) : (s.onBlock i f).input = s.input := rfl
@[simp] theorem onBlock_handler (s : State) (i : Nat) (f : Block → Block) : (s.onBlock i f).handler = s.handler := rfl
@[simp] theorem onBlock_fresh (s : State) (i : Nat) (f : Block → Block) : (s.onBlock i f).fresh = s.fresh := rfl
@[simp] theorem onBlock_hbm (s : State) (i : Nat) (f : Block → Block) : (s.onBlock i f).hbm = s.hbm := rfl
@[simp] theorem onBlock_badLine (s : State) (i : Nat) (f : Block → Block) : (s.onBlock i f).badLine = s.badLine := rfl
@[simp] theorem onBlock_host (s : State) (i : Nat) (f : Block → Block) : (s.onBlock i f).host = s.host := rfl
@[simp] theorem onBlock_roots (s : State) (i : Nat) (f : Block → Block) : (s.onBlock i f).roots = s.roots := rfl
@[simp] theorem onBlock_tlb (s : State) (i : Nat) (f : Block → Block) : (s.onBlock i f).tlb = s.tlb := rfl
@[simp] theorem onBlock_ports (s : State) (i : Nat) (f : Block → Block) : (s.onBlock i f).ports = s.ports := rfl
@[simp] theorem onBlock_regions (s : State) (i : Nat) (f : Block → Block) : (s.onBlock i f).regions = s.regions := rfl
@[simp] theorem onBlock_net (s : State) (i : Nat) (f : Block → Block) : (s.onBlock i f).net = s.net := rfl
@[simp] theorem onBlock_routers (s : State) (i : Nat) (f : Block → Block) : (s.onBlock i f).routers = s.routers := rfl
@[simp] theorem onBlock_notices (s : State) (i : Nat) (f : Block → Block) : (s.onBlock i f).notices = s.notices := rfl
@[simp] theorem onBlock_links (s : State) (i : Nat) (f : Block → Block) : (s.onBlock i f).links = s.links := rfl
@[simp] theorem onBlock_reticles (s : State) (i : Nat) (f : Block → Block) : (s.onBlock i f).reticles = s.reticles := rfl
@[simp] theorem onBlock_bridge (s : State) (i : Nat) (f : Block → Block) : (s.onBlock i f).bridge = s.bridge := rfl
@[simp] theorem onBlock_queues (s : State) (i : Nat) (f : Block → Block) : (s.onBlock i f).queues = s.queues := rfl
@[simp] theorem onBlock_pages (s : State) (i : Nat) (f : Block → Block) : (s.onBlock i f).pages = s.pages := rfl
@[simp] theorem onBlock_doorbells (s : State) (i : Nat) (f : Block → Block) : (s.onBlock i f).doorbells = s.doorbells := rfl
@[simp] theorem onBlock_clock (s : State) (i : Nat) (f : Block → Block) : (s.onBlock i f).clock = s.clock := rfl
@[simp] theorem onBlock_resume (s : State) (i : Nat) (f : Block → Block) : (s.onBlock i f).resume = s.resume := rfl

@[simp] theorem block_onBlock_self (s : State) (i : Nat) (f : Block → Block) : (s.onBlock i f).block i = f (s.block i) := by simp [State.onBlock]
theorem block_onBlock_of_ne {i j : Nat} (h : j ≠ i) (s : State) (f : Block → Block) : (s.onBlock i f).block j = s.block j := block_setBlock_of_ne h s _

/-! State.setRegion -/

@[simp] theorem setRegion_core (s : State) (i : Nat) (x : Region) : (s.setRegion i x).core = s.core := rfl
@[simp] theorem setRegion_cur (s : State) (i : Nat) (x : Region) : (s.setRegion i x).cur = s.cur := rfl
@[simp] theorem setRegion_parked (s : State) (i : Nat) (x : Region) : (s.setRegion i x).parked = s.parked := rfl
@[simp] theorem setRegion_issue (s : State) (i : Nat) (x : Region) : (s.setRegion i x).issue = s.issue := rfl
@[simp] theorem setRegion_agenda (s : State) (i : Nat) (x : Region) : (s.setRegion i x).agenda = s.agenda := rfl
@[simp] theorem setRegion_input (s : State) (i : Nat) (x : Region) : (s.setRegion i x).input = s.input := rfl
@[simp] theorem setRegion_handler (s : State) (i : Nat) (x : Region) : (s.setRegion i x).handler = s.handler := rfl
@[simp] theorem setRegion_fresh (s : State) (i : Nat) (x : Region) : (s.setRegion i x).fresh = s.fresh := rfl
@[simp] theorem setRegion_hbm (s : State) (i : Nat) (x : Region) : (s.setRegion i x).hbm = s.hbm := rfl
@[simp] theorem setRegion_badLine (s : State) (i : Nat) (x : Region) : (s.setRegion i x).badLine = s.badLine := rfl
@[simp] theorem setRegion_host (s : State) (i : Nat) (x : Region) : (s.setRegion i x).host = s.host := rfl
@[simp] theorem setRegion_roots (s : State) (i : Nat) (x : Region) : (s.setRegion i x).roots = s.roots := rfl
@[simp] theorem setRegion_tlb (s : State) (i : Nat) (x : Region) : (s.setRegion i x).tlb = s.tlb := rfl
@[simp] theorem setRegion_ports (s : State) (i : Nat) (x : Region) : (s.setRegion i x).ports = s.ports := rfl
@[simp] theorem setRegion_net (s : State) (i : Nat) (x : Region) : (s.setRegion i x).net = s.net := rfl
@[simp] theorem setRegion_routers (s : State) (i : Nat) (x : Region) : (s.setRegion i x).routers = s.routers := rfl
@[simp] theorem setRegion_notices (s : State) (i : Nat) (x : Region) : (s.setRegion i x).notices = s.notices := rfl
@[simp] theorem setRegion_blocks (s : State) (i : Nat) (x : Region) : (s.setRegion i x).blocks = s.blocks := rfl
@[simp] theorem setRegion_links (s : State) (i : Nat) (x : Region) : (s.setRegion i x).links = s.links := rfl
@[simp] theorem setRegion_reticles (s : State) (i : Nat) (x : Region) : (s.setRegion i x).reticles = s.reticles := rfl
@[simp] theorem setRegion_bridge (s : State) (i : Nat) (x : Region) : (s.setRegion i x).bridge = s.bridge := rfl
@[simp] theorem setRegion_queues (s : State) (i : Nat) (x : Region) : (s.setRegion i x).queues = s.queues := rfl
@[simp] theorem setRegion_pages (s : State) (i : Nat) (x : Region) : (s.setRegion i x).pages = s.pages := rfl
@[simp] theorem setRegion_doorbells (s : State) (i : Nat) (x : Region) : (s.setRegion i x).doorbells = s.doorbells := rfl
@[simp] theorem setRegion_clock (s : State) (i : Nat) (x : Region) : (s.setRegion i x).clock = s.clock := rfl
@[simp] theorem setRegion_resume (s : State) (i : Nat) (x : Region) : (s.setRegion i x).resume = s.resume := rfl

@[simp] theorem region_setRegion_self (s : State) (i : Nat) (x : Region) : (s.setRegion i x).region i = x := by simp [State.region, State.setRegion]
theorem region_setRegion_of_ne {i j : Nat} (h : j ≠ i) (s : State) (x : Region) : (s.setRegion i x).region j = s.region j := by
  simp [State.region, State.setRegion, findD_insert_of_ne h]

/-! State.onRegion -/

@[simp] theorem onRegion_core (s : State) (i : Nat) (f : Region → Region) : (s.onRegion i f).core = s.core := rfl
@[simp] theorem onRegion_cur (s : State) (i : Nat) (f : Region → Region) : (s.onRegion i f).cur = s.cur := rfl
@[simp] theorem onRegion_parked (s : State) (i : Nat) (f : Region → Region) : (s.onRegion i f).parked = s.parked := rfl
@[simp] theorem onRegion_issue (s : State) (i : Nat) (f : Region → Region) : (s.onRegion i f).issue = s.issue := rfl
@[simp] theorem onRegion_agenda (s : State) (i : Nat) (f : Region → Region) : (s.onRegion i f).agenda = s.agenda := rfl
@[simp] theorem onRegion_input (s : State) (i : Nat) (f : Region → Region) : (s.onRegion i f).input = s.input := rfl
@[simp] theorem onRegion_handler (s : State) (i : Nat) (f : Region → Region) : (s.onRegion i f).handler = s.handler := rfl
@[simp] theorem onRegion_fresh (s : State) (i : Nat) (f : Region → Region) : (s.onRegion i f).fresh = s.fresh := rfl
@[simp] theorem onRegion_hbm (s : State) (i : Nat) (f : Region → Region) : (s.onRegion i f).hbm = s.hbm := rfl
@[simp] theorem onRegion_badLine (s : State) (i : Nat) (f : Region → Region) : (s.onRegion i f).badLine = s.badLine := rfl
@[simp] theorem onRegion_host (s : State) (i : Nat) (f : Region → Region) : (s.onRegion i f).host = s.host := rfl
@[simp] theorem onRegion_roots (s : State) (i : Nat) (f : Region → Region) : (s.onRegion i f).roots = s.roots := rfl
@[simp] theorem onRegion_tlb (s : State) (i : Nat) (f : Region → Region) : (s.onRegion i f).tlb = s.tlb := rfl
@[simp] theorem onRegion_ports (s : State) (i : Nat) (f : Region → Region) : (s.onRegion i f).ports = s.ports := rfl
@[simp] theorem onRegion_net (s : State) (i : Nat) (f : Region → Region) : (s.onRegion i f).net = s.net := rfl
@[simp] theorem onRegion_routers (s : State) (i : Nat) (f : Region → Region) : (s.onRegion i f).routers = s.routers := rfl
@[simp] theorem onRegion_notices (s : State) (i : Nat) (f : Region → Region) : (s.onRegion i f).notices = s.notices := rfl
@[simp] theorem onRegion_blocks (s : State) (i : Nat) (f : Region → Region) : (s.onRegion i f).blocks = s.blocks := rfl
@[simp] theorem onRegion_links (s : State) (i : Nat) (f : Region → Region) : (s.onRegion i f).links = s.links := rfl
@[simp] theorem onRegion_reticles (s : State) (i : Nat) (f : Region → Region) : (s.onRegion i f).reticles = s.reticles := rfl
@[simp] theorem onRegion_bridge (s : State) (i : Nat) (f : Region → Region) : (s.onRegion i f).bridge = s.bridge := rfl
@[simp] theorem onRegion_queues (s : State) (i : Nat) (f : Region → Region) : (s.onRegion i f).queues = s.queues := rfl
@[simp] theorem onRegion_pages (s : State) (i : Nat) (f : Region → Region) : (s.onRegion i f).pages = s.pages := rfl
@[simp] theorem onRegion_doorbells (s : State) (i : Nat) (f : Region → Region) : (s.onRegion i f).doorbells = s.doorbells := rfl
@[simp] theorem onRegion_clock (s : State) (i : Nat) (f : Region → Region) : (s.onRegion i f).clock = s.clock := rfl
@[simp] theorem onRegion_resume (s : State) (i : Nat) (f : Region → Region) : (s.onRegion i f).resume = s.resume := rfl

@[simp] theorem region_onRegion_self (s : State) (i : Nat) (f : Region → Region) : (s.onRegion i f).region i = f (s.region i) := by simp [State.onRegion]
theorem region_onRegion_of_ne {i j : Nat} (h : j ≠ i) (s : State) (f : Region → Region) : (s.onRegion i f).region j = s.region j := region_setRegion_of_ne h s _

/-! State.setRouter -/

@[simp] theorem setRouter_core (s : State) (i : Nat) (x : Router) : (s.setRouter i x).core = s.core := rfl
@[simp] theorem setRouter_cur (s : State) (i : Nat) (x : Router) : (s.setRouter i x).cur = s.cur := rfl
@[simp] theorem setRouter_parked (s : State) (i : Nat) (x : Router) : (s.setRouter i x).parked = s.parked := rfl
@[simp] theorem setRouter_issue (s : State) (i : Nat) (x : Router) : (s.setRouter i x).issue = s.issue := rfl
@[simp] theorem setRouter_agenda (s : State) (i : Nat) (x : Router) : (s.setRouter i x).agenda = s.agenda := rfl
@[simp] theorem setRouter_input (s : State) (i : Nat) (x : Router) : (s.setRouter i x).input = s.input := rfl
@[simp] theorem setRouter_handler (s : State) (i : Nat) (x : Router) : (s.setRouter i x).handler = s.handler := rfl
@[simp] theorem setRouter_fresh (s : State) (i : Nat) (x : Router) : (s.setRouter i x).fresh = s.fresh := rfl
@[simp] theorem setRouter_hbm (s : State) (i : Nat) (x : Router) : (s.setRouter i x).hbm = s.hbm := rfl
@[simp] theorem setRouter_badLine (s : State) (i : Nat) (x : Router) : (s.setRouter i x).badLine = s.badLine := rfl
@[simp] theorem setRouter_host (s : State) (i : Nat) (x : Router) : (s.setRouter i x).host = s.host := rfl
@[simp] theorem setRouter_roots (s : State) (i : Nat) (x : Router) : (s.setRouter i x).roots = s.roots := rfl
@[simp] theorem setRouter_tlb (s : State) (i : Nat) (x : Router) : (s.setRouter i x).tlb = s.tlb := rfl
@[simp] theorem setRouter_ports (s : State) (i : Nat) (x : Router) : (s.setRouter i x).ports = s.ports := rfl
@[simp] theorem setRouter_regions (s : State) (i : Nat) (x : Router) : (s.setRouter i x).regions = s.regions := rfl
@[simp] theorem setRouter_net (s : State) (i : Nat) (x : Router) : (s.setRouter i x).net = s.net := rfl
@[simp] theorem setRouter_notices (s : State) (i : Nat) (x : Router) : (s.setRouter i x).notices = s.notices := rfl
@[simp] theorem setRouter_blocks (s : State) (i : Nat) (x : Router) : (s.setRouter i x).blocks = s.blocks := rfl
@[simp] theorem setRouter_links (s : State) (i : Nat) (x : Router) : (s.setRouter i x).links = s.links := rfl
@[simp] theorem setRouter_reticles (s : State) (i : Nat) (x : Router) : (s.setRouter i x).reticles = s.reticles := rfl
@[simp] theorem setRouter_bridge (s : State) (i : Nat) (x : Router) : (s.setRouter i x).bridge = s.bridge := rfl
@[simp] theorem setRouter_queues (s : State) (i : Nat) (x : Router) : (s.setRouter i x).queues = s.queues := rfl
@[simp] theorem setRouter_pages (s : State) (i : Nat) (x : Router) : (s.setRouter i x).pages = s.pages := rfl
@[simp] theorem setRouter_doorbells (s : State) (i : Nat) (x : Router) : (s.setRouter i x).doorbells = s.doorbells := rfl
@[simp] theorem setRouter_clock (s : State) (i : Nat) (x : Router) : (s.setRouter i x).clock = s.clock := rfl
@[simp] theorem setRouter_resume (s : State) (i : Nat) (x : Router) : (s.setRouter i x).resume = s.resume := rfl

@[simp] theorem router_setRouter_self (s : State) (i : Nat) (x : Router) : (s.setRouter i x).router i = x := by simp [State.router, State.setRouter]
theorem router_setRouter_of_ne {i j : Nat} (h : j ≠ i) (s : State) (x : Router) : (s.setRouter i x).router j = s.router j := by
  simp [State.router, State.setRouter, findD_insert_of_ne h]

/-! State.onRouter -/

@[simp] theorem onRouter_core (s : State) (i : Nat) (f : Router → Router) : (s.onRouter i f).core = s.core := rfl
@[simp] theorem onRouter_cur (s : State) (i : Nat) (f : Router → Router) : (s.onRouter i f).cur = s.cur := rfl
@[simp] theorem onRouter_parked (s : State) (i : Nat) (f : Router → Router) : (s.onRouter i f).parked = s.parked := rfl
@[simp] theorem onRouter_issue (s : State) (i : Nat) (f : Router → Router) : (s.onRouter i f).issue = s.issue := rfl
@[simp] theorem onRouter_agenda (s : State) (i : Nat) (f : Router → Router) : (s.onRouter i f).agenda = s.agenda := rfl
@[simp] theorem onRouter_input (s : State) (i : Nat) (f : Router → Router) : (s.onRouter i f).input = s.input := rfl
@[simp] theorem onRouter_handler (s : State) (i : Nat) (f : Router → Router) : (s.onRouter i f).handler = s.handler := rfl
@[simp] theorem onRouter_fresh (s : State) (i : Nat) (f : Router → Router) : (s.onRouter i f).fresh = s.fresh := rfl
@[simp] theorem onRouter_hbm (s : State) (i : Nat) (f : Router → Router) : (s.onRouter i f).hbm = s.hbm := rfl
@[simp] theorem onRouter_badLine (s : State) (i : Nat) (f : Router → Router) : (s.onRouter i f).badLine = s.badLine := rfl
@[simp] theorem onRouter_host (s : State) (i : Nat) (f : Router → Router) : (s.onRouter i f).host = s.host := rfl
@[simp] theorem onRouter_roots (s : State) (i : Nat) (f : Router → Router) : (s.onRouter i f).roots = s.roots := rfl
@[simp] theorem onRouter_tlb (s : State) (i : Nat) (f : Router → Router) : (s.onRouter i f).tlb = s.tlb := rfl
@[simp] theorem onRouter_ports (s : State) (i : Nat) (f : Router → Router) : (s.onRouter i f).ports = s.ports := rfl
@[simp] theorem onRouter_regions (s : State) (i : Nat) (f : Router → Router) : (s.onRouter i f).regions = s.regions := rfl
@[simp] theorem onRouter_net (s : State) (i : Nat) (f : Router → Router) : (s.onRouter i f).net = s.net := rfl
@[simp] theorem onRouter_notices (s : State) (i : Nat) (f : Router → Router) : (s.onRouter i f).notices = s.notices := rfl
@[simp] theorem onRouter_blocks (s : State) (i : Nat) (f : Router → Router) : (s.onRouter i f).blocks = s.blocks := rfl
@[simp] theorem onRouter_links (s : State) (i : Nat) (f : Router → Router) : (s.onRouter i f).links = s.links := rfl
@[simp] theorem onRouter_reticles (s : State) (i : Nat) (f : Router → Router) : (s.onRouter i f).reticles = s.reticles := rfl
@[simp] theorem onRouter_bridge (s : State) (i : Nat) (f : Router → Router) : (s.onRouter i f).bridge = s.bridge := rfl
@[simp] theorem onRouter_queues (s : State) (i : Nat) (f : Router → Router) : (s.onRouter i f).queues = s.queues := rfl
@[simp] theorem onRouter_pages (s : State) (i : Nat) (f : Router → Router) : (s.onRouter i f).pages = s.pages := rfl
@[simp] theorem onRouter_doorbells (s : State) (i : Nat) (f : Router → Router) : (s.onRouter i f).doorbells = s.doorbells := rfl
@[simp] theorem onRouter_clock (s : State) (i : Nat) (f : Router → Router) : (s.onRouter i f).clock = s.clock := rfl
@[simp] theorem onRouter_resume (s : State) (i : Nat) (f : Router → Router) : (s.onRouter i f).resume = s.resume := rfl

@[simp] theorem router_onRouter_self (s : State) (i : Nat) (f : Router → Router) : (s.onRouter i f).router i = f (s.router i) := by simp [State.onRouter]
theorem router_onRouter_of_ne {i j : Nat} (h : j ≠ i) (s : State) (f : Router → Router) : (s.onRouter i f).router j = s.router j := router_setRouter_of_ne h s _

/-! State.setReticle -/

@[simp] theorem setReticle_core (s : State) (i : Nat) (x : Reticle) : (s.setReticle i x).core = s.core := rfl
@[simp] theorem setReticle_cur (s : State) (i : Nat) (x : Reticle) : (s.setReticle i x).cur = s.cur := rfl
@[simp] theorem setReticle_parked (s : State) (i : Nat) (x : Reticle) : (s.setReticle i x).parked = s.parked := rfl
@[simp] theorem setReticle_issue (s : State) (i : Nat) (x : Reticle) : (s.setReticle i x).issue = s.issue := rfl
@[simp] theorem setReticle_agenda (s : State) (i : Nat) (x : Reticle) : (s.setReticle i x).agenda = s.agenda := rfl
@[simp] theorem setReticle_input (s : State) (i : Nat) (x : Reticle) : (s.setReticle i x).input = s.input := rfl
@[simp] theorem setReticle_handler (s : State) (i : Nat) (x : Reticle) : (s.setReticle i x).handler = s.handler := rfl
@[simp] theorem setReticle_fresh (s : State) (i : Nat) (x : Reticle) : (s.setReticle i x).fresh = s.fresh := rfl
@[simp] theorem setReticle_hbm (s : State) (i : Nat) (x : Reticle) : (s.setReticle i x).hbm = s.hbm := rfl
@[simp] theorem setReticle_badLine (s : State) (i : Nat) (x : Reticle) : (s.setReticle i x).badLine = s.badLine := rfl
@[simp] theorem setReticle_host (s : State) (i : Nat) (x : Reticle) : (s.setReticle i x).host = s.host := rfl
@[simp] theorem setReticle_roots (s : State) (i : Nat) (x : Reticle) : (s.setReticle i x).roots = s.roots := rfl
@[simp] theorem setReticle_tlb (s : State) (i : Nat) (x : Reticle) : (s.setReticle i x).tlb = s.tlb := rfl
@[simp] theorem setReticle_ports (s : State) (i : Nat) (x : Reticle) : (s.setReticle i x).ports = s.ports := rfl
@[simp] theorem setReticle_regions (s : State) (i : Nat) (x : Reticle) : (s.setReticle i x).regions = s.regions := rfl
@[simp] theorem setReticle_net (s : State) (i : Nat) (x : Reticle) : (s.setReticle i x).net = s.net := rfl
@[simp] theorem setReticle_routers (s : State) (i : Nat) (x : Reticle) : (s.setReticle i x).routers = s.routers := rfl
@[simp] theorem setReticle_notices (s : State) (i : Nat) (x : Reticle) : (s.setReticle i x).notices = s.notices := rfl
@[simp] theorem setReticle_blocks (s : State) (i : Nat) (x : Reticle) : (s.setReticle i x).blocks = s.blocks := rfl
@[simp] theorem setReticle_links (s : State) (i : Nat) (x : Reticle) : (s.setReticle i x).links = s.links := rfl
@[simp] theorem setReticle_bridge (s : State) (i : Nat) (x : Reticle) : (s.setReticle i x).bridge = s.bridge := rfl
@[simp] theorem setReticle_queues (s : State) (i : Nat) (x : Reticle) : (s.setReticle i x).queues = s.queues := rfl
@[simp] theorem setReticle_pages (s : State) (i : Nat) (x : Reticle) : (s.setReticle i x).pages = s.pages := rfl
@[simp] theorem setReticle_doorbells (s : State) (i : Nat) (x : Reticle) : (s.setReticle i x).doorbells = s.doorbells := rfl
@[simp] theorem setReticle_clock (s : State) (i : Nat) (x : Reticle) : (s.setReticle i x).clock = s.clock := rfl
@[simp] theorem setReticle_resume (s : State) (i : Nat) (x : Reticle) : (s.setReticle i x).resume = s.resume := rfl

@[simp] theorem reticle_setReticle_self (s : State) (i : Nat) (x : Reticle) : (s.setReticle i x).reticle i = x := by simp [State.reticle, State.setReticle]
theorem reticle_setReticle_of_ne {i j : Nat} (h : j ≠ i) (s : State) (x : Reticle) : (s.setReticle i x).reticle j = s.reticle j := by
  simp [State.reticle, State.setReticle, findD_insert_of_ne h]

/-! State.onReticle -/

@[simp] theorem onReticle_core (s : State) (i : Nat) (f : Reticle → Reticle) : (s.onReticle i f).core = s.core := rfl
@[simp] theorem onReticle_cur (s : State) (i : Nat) (f : Reticle → Reticle) : (s.onReticle i f).cur = s.cur := rfl
@[simp] theorem onReticle_parked (s : State) (i : Nat) (f : Reticle → Reticle) : (s.onReticle i f).parked = s.parked := rfl
@[simp] theorem onReticle_issue (s : State) (i : Nat) (f : Reticle → Reticle) : (s.onReticle i f).issue = s.issue := rfl
@[simp] theorem onReticle_agenda (s : State) (i : Nat) (f : Reticle → Reticle) : (s.onReticle i f).agenda = s.agenda := rfl
@[simp] theorem onReticle_input (s : State) (i : Nat) (f : Reticle → Reticle) : (s.onReticle i f).input = s.input := rfl
@[simp] theorem onReticle_handler (s : State) (i : Nat) (f : Reticle → Reticle) : (s.onReticle i f).handler = s.handler := rfl
@[simp] theorem onReticle_fresh (s : State) (i : Nat) (f : Reticle → Reticle) : (s.onReticle i f).fresh = s.fresh := rfl
@[simp] theorem onReticle_hbm (s : State) (i : Nat) (f : Reticle → Reticle) : (s.onReticle i f).hbm = s.hbm := rfl
@[simp] theorem onReticle_badLine (s : State) (i : Nat) (f : Reticle → Reticle) : (s.onReticle i f).badLine = s.badLine := rfl
@[simp] theorem onReticle_host (s : State) (i : Nat) (f : Reticle → Reticle) : (s.onReticle i f).host = s.host := rfl
@[simp] theorem onReticle_roots (s : State) (i : Nat) (f : Reticle → Reticle) : (s.onReticle i f).roots = s.roots := rfl
@[simp] theorem onReticle_tlb (s : State) (i : Nat) (f : Reticle → Reticle) : (s.onReticle i f).tlb = s.tlb := rfl
@[simp] theorem onReticle_ports (s : State) (i : Nat) (f : Reticle → Reticle) : (s.onReticle i f).ports = s.ports := rfl
@[simp] theorem onReticle_regions (s : State) (i : Nat) (f : Reticle → Reticle) : (s.onReticle i f).regions = s.regions := rfl
@[simp] theorem onReticle_net (s : State) (i : Nat) (f : Reticle → Reticle) : (s.onReticle i f).net = s.net := rfl
@[simp] theorem onReticle_routers (s : State) (i : Nat) (f : Reticle → Reticle) : (s.onReticle i f).routers = s.routers := rfl
@[simp] theorem onReticle_notices (s : State) (i : Nat) (f : Reticle → Reticle) : (s.onReticle i f).notices = s.notices := rfl
@[simp] theorem onReticle_blocks (s : State) (i : Nat) (f : Reticle → Reticle) : (s.onReticle i f).blocks = s.blocks := rfl
@[simp] theorem onReticle_links (s : State) (i : Nat) (f : Reticle → Reticle) : (s.onReticle i f).links = s.links := rfl
@[simp] theorem onReticle_bridge (s : State) (i : Nat) (f : Reticle → Reticle) : (s.onReticle i f).bridge = s.bridge := rfl
@[simp] theorem onReticle_queues (s : State) (i : Nat) (f : Reticle → Reticle) : (s.onReticle i f).queues = s.queues := rfl
@[simp] theorem onReticle_pages (s : State) (i : Nat) (f : Reticle → Reticle) : (s.onReticle i f).pages = s.pages := rfl
@[simp] theorem onReticle_doorbells (s : State) (i : Nat) (f : Reticle → Reticle) : (s.onReticle i f).doorbells = s.doorbells := rfl
@[simp] theorem onReticle_clock (s : State) (i : Nat) (f : Reticle → Reticle) : (s.onReticle i f).clock = s.clock := rfl
@[simp] theorem onReticle_resume (s : State) (i : Nat) (f : Reticle → Reticle) : (s.onReticle i f).resume = s.resume := rfl

@[simp] theorem reticle_onReticle_self (s : State) (i : Nat) (f : Reticle → Reticle) : (s.onReticle i f).reticle i = f (s.reticle i) := by simp [State.onReticle]
theorem reticle_onReticle_of_ne {i j : Nat} (h : j ≠ i) (s : State) (f : Reticle → Reticle) : (s.onReticle i f).reticle j = s.reticle j := reticle_setReticle_of_ne h s _

/-! State.setPage -/

@[simp] theorem setPage_core (s : State) (i : Nat) (x : Page) : (s.setPage i x).core = s.core := rfl
@[simp] theorem setPage_cur (s : State) (i : Nat) (x : Page) : (s.setPage i x).cur = s.cur := rfl
@[simp] theorem setPage_parked (s : State) (i : Nat) (x : Page) : (s.setPage i x).parked = s.parked := rfl
@[simp] theorem setPage_issue (s : State) (i : Nat) (x : Page) : (s.setPage i x).issue = s.issue := rfl
@[simp] theorem setPage_agenda (s : State) (i : Nat) (x : Page) : (s.setPage i x).agenda = s.agenda := rfl
@[simp] theorem setPage_input (s : State) (i : Nat) (x : Page) : (s.setPage i x).input = s.input := rfl
@[simp] theorem setPage_handler (s : State) (i : Nat) (x : Page) : (s.setPage i x).handler = s.handler := rfl
@[simp] theorem setPage_fresh (s : State) (i : Nat) (x : Page) : (s.setPage i x).fresh = s.fresh := rfl
@[simp] theorem setPage_hbm (s : State) (i : Nat) (x : Page) : (s.setPage i x).hbm = s.hbm := rfl
@[simp] theorem setPage_badLine (s : State) (i : Nat) (x : Page) : (s.setPage i x).badLine = s.badLine := rfl
@[simp] theorem setPage_host (s : State) (i : Nat) (x : Page) : (s.setPage i x).host = s.host := rfl
@[simp] theorem setPage_roots (s : State) (i : Nat) (x : Page) : (s.setPage i x).roots = s.roots := rfl
@[simp] theorem setPage_tlb (s : State) (i : Nat) (x : Page) : (s.setPage i x).tlb = s.tlb := rfl
@[simp] theorem setPage_ports (s : State) (i : Nat) (x : Page) : (s.setPage i x).ports = s.ports := rfl
@[simp] theorem setPage_regions (s : State) (i : Nat) (x : Page) : (s.setPage i x).regions = s.regions := rfl
@[simp] theorem setPage_net (s : State) (i : Nat) (x : Page) : (s.setPage i x).net = s.net := rfl
@[simp] theorem setPage_routers (s : State) (i : Nat) (x : Page) : (s.setPage i x).routers = s.routers := rfl
@[simp] theorem setPage_notices (s : State) (i : Nat) (x : Page) : (s.setPage i x).notices = s.notices := rfl
@[simp] theorem setPage_blocks (s : State) (i : Nat) (x : Page) : (s.setPage i x).blocks = s.blocks := rfl
@[simp] theorem setPage_links (s : State) (i : Nat) (x : Page) : (s.setPage i x).links = s.links := rfl
@[simp] theorem setPage_reticles (s : State) (i : Nat) (x : Page) : (s.setPage i x).reticles = s.reticles := rfl
@[simp] theorem setPage_bridge (s : State) (i : Nat) (x : Page) : (s.setPage i x).bridge = s.bridge := rfl
@[simp] theorem setPage_queues (s : State) (i : Nat) (x : Page) : (s.setPage i x).queues = s.queues := rfl
@[simp] theorem setPage_doorbells (s : State) (i : Nat) (x : Page) : (s.setPage i x).doorbells = s.doorbells := rfl
@[simp] theorem setPage_clock (s : State) (i : Nat) (x : Page) : (s.setPage i x).clock = s.clock := rfl
@[simp] theorem setPage_resume (s : State) (i : Nat) (x : Page) : (s.setPage i x).resume = s.resume := rfl

@[simp] theorem page_setPage_self (s : State) (i : Nat) (x : Page) : (s.setPage i x).page i = x := by simp [State.page, State.setPage]
theorem page_setPage_of_ne {i j : Nat} (h : j ≠ i) (s : State) (x : Page) : (s.setPage i x).page j = s.page j := by
  simp [State.page, State.setPage, findD_insert_of_ne h]

/-! State.onQueue -/

@[simp] theorem onQueue_core (s : State) (i : Nat) (f : EventQueue → EventQueue) : (s.onQueue i f).core = s.core := rfl
@[simp] theorem onQueue_cur (s : State) (i : Nat) (f : EventQueue → EventQueue) : (s.onQueue i f).cur = s.cur := rfl
@[simp] theorem onQueue_parked (s : State) (i : Nat) (f : EventQueue → EventQueue) : (s.onQueue i f).parked = s.parked := rfl
@[simp] theorem onQueue_issue (s : State) (i : Nat) (f : EventQueue → EventQueue) : (s.onQueue i f).issue = s.issue := rfl
@[simp] theorem onQueue_agenda (s : State) (i : Nat) (f : EventQueue → EventQueue) : (s.onQueue i f).agenda = s.agenda := rfl
@[simp] theorem onQueue_input (s : State) (i : Nat) (f : EventQueue → EventQueue) : (s.onQueue i f).input = s.input := rfl
@[simp] theorem onQueue_handler (s : State) (i : Nat) (f : EventQueue → EventQueue) : (s.onQueue i f).handler = s.handler := rfl
@[simp] theorem onQueue_fresh (s : State) (i : Nat) (f : EventQueue → EventQueue) : (s.onQueue i f).fresh = s.fresh := rfl
@[simp] theorem onQueue_hbm (s : State) (i : Nat) (f : EventQueue → EventQueue) : (s.onQueue i f).hbm = s.hbm := rfl
@[simp] theorem onQueue_badLine (s : State) (i : Nat) (f : EventQueue → EventQueue) : (s.onQueue i f).badLine = s.badLine := rfl
@[simp] theorem onQueue_host (s : State) (i : Nat) (f : EventQueue → EventQueue) : (s.onQueue i f).host = s.host := rfl
@[simp] theorem onQueue_roots (s : State) (i : Nat) (f : EventQueue → EventQueue) : (s.onQueue i f).roots = s.roots := rfl
@[simp] theorem onQueue_tlb (s : State) (i : Nat) (f : EventQueue → EventQueue) : (s.onQueue i f).tlb = s.tlb := rfl
@[simp] theorem onQueue_ports (s : State) (i : Nat) (f : EventQueue → EventQueue) : (s.onQueue i f).ports = s.ports := rfl
@[simp] theorem onQueue_regions (s : State) (i : Nat) (f : EventQueue → EventQueue) : (s.onQueue i f).regions = s.regions := rfl
@[simp] theorem onQueue_net (s : State) (i : Nat) (f : EventQueue → EventQueue) : (s.onQueue i f).net = s.net := rfl
@[simp] theorem onQueue_routers (s : State) (i : Nat) (f : EventQueue → EventQueue) : (s.onQueue i f).routers = s.routers := rfl
@[simp] theorem onQueue_notices (s : State) (i : Nat) (f : EventQueue → EventQueue) : (s.onQueue i f).notices = s.notices := rfl
@[simp] theorem onQueue_blocks (s : State) (i : Nat) (f : EventQueue → EventQueue) : (s.onQueue i f).blocks = s.blocks := rfl
@[simp] theorem onQueue_links (s : State) (i : Nat) (f : EventQueue → EventQueue) : (s.onQueue i f).links = s.links := rfl
@[simp] theorem onQueue_reticles (s : State) (i : Nat) (f : EventQueue → EventQueue) : (s.onQueue i f).reticles = s.reticles := rfl
@[simp] theorem onQueue_bridge (s : State) (i : Nat) (f : EventQueue → EventQueue) : (s.onQueue i f).bridge = s.bridge := rfl
@[simp] theorem onQueue_pages (s : State) (i : Nat) (f : EventQueue → EventQueue) : (s.onQueue i f).pages = s.pages := rfl
@[simp] theorem onQueue_doorbells (s : State) (i : Nat) (f : EventQueue → EventQueue) : (s.onQueue i f).doorbells = s.doorbells := rfl
@[simp] theorem onQueue_clock (s : State) (i : Nat) (f : EventQueue → EventQueue) : (s.onQueue i f).clock = s.clock := rfl
@[simp] theorem onQueue_resume (s : State) (i : Nat) (f : EventQueue → EventQueue) : (s.onQueue i f).resume = s.resume := rfl

@[simp] theorem queue_onQueue_self (s : State) (i : Nat) (f : EventQueue → EventQueue) : (s.onQueue i f).queue i = f (s.queue i) := by
  simp [State.queue, State.onQueue]
theorem queue_onQueue_of_ne {i j : Nat} (h : j ≠ i) (s : State) (f : EventQueue → EventQueue) : (s.onQueue i f).queue j = s.queue j := by
  simp [State.queue, State.onQueue, findD_insert_of_ne h]

/-! State.setTok -/

@[simp] theorem setTok_core (s : State) (j : Nat) (t : Token) : (s.setTok j t).core = s.core := rfl
@[simp] theorem setTok_cur (s : State) (j : Nat) (t : Token) : (s.setTok j t).cur = s.cur := rfl
@[simp] theorem setTok_parked (s : State) (j : Nat) (t : Token) : (s.setTok j t).parked = s.parked := rfl
@[simp] theorem setTok_issue (s : State) (j : Nat) (t : Token) : (s.setTok j t).issue = s.issue := rfl
@[simp] theorem setTok_agenda (s : State) (j : Nat) (t : Token) : (s.setTok j t).agenda = s.agenda := rfl
@[simp] theorem setTok_input (s : State) (j : Nat) (t : Token) : (s.setTok j t).input = s.input := rfl
@[simp] theorem setTok_handler (s : State) (j : Nat) (t : Token) : (s.setTok j t).handler = s.handler := rfl
@[simp] theorem setTok_fresh (s : State) (j : Nat) (t : Token) : (s.setTok j t).fresh = s.fresh := rfl
@[simp] theorem setTok_hbm (s : State) (j : Nat) (t : Token) : (s.setTok j t).hbm = s.hbm := rfl
@[simp] theorem setTok_badLine (s : State) (j : Nat) (t : Token) : (s.setTok j t).badLine = s.badLine := rfl
@[simp] theorem setTok_host (s : State) (j : Nat) (t : Token) : (s.setTok j t).host = s.host := rfl
@[simp] theorem setTok_roots (s : State) (j : Nat) (t : Token) : (s.setTok j t).roots = s.roots := rfl
@[simp] theorem setTok_tlb (s : State) (j : Nat) (t : Token) : (s.setTok j t).tlb = s.tlb := rfl
@[simp] theorem setTok_ports (s : State) (j : Nat) (t : Token) : (s.setTok j t).ports = s.ports := rfl
@[simp] theorem setTok_regions (s : State) (j : Nat) (t : Token) : (s.setTok j t).regions = s.regions := rfl
@[simp] theorem setTok_routers (s : State) (j : Nat) (t : Token) : (s.setTok j t).routers = s.routers := rfl
@[simp] theorem setTok_notices (s : State) (j : Nat) (t : Token) : (s.setTok j t).notices = s.notices := rfl
@[simp] theorem setTok_blocks (s : State) (j : Nat) (t : Token) : (s.setTok j t).blocks = s.blocks := rfl
@[simp] theorem setTok_links (s : State) (j : Nat) (t : Token) : (s.setTok j t).links = s.links := rfl
@[simp] theorem setTok_reticles (s : State) (j : Nat) (t : Token) : (s.setTok j t).reticles = s.reticles := rfl
@[simp] theorem setTok_bridge (s : State) (j : Nat) (t : Token) : (s.setTok j t).bridge = s.bridge := rfl
@[simp] theorem setTok_queues (s : State) (j : Nat) (t : Token) : (s.setTok j t).queues = s.queues := rfl
@[simp] theorem setTok_pages (s : State) (j : Nat) (t : Token) : (s.setTok j t).pages = s.pages := rfl
@[simp] theorem setTok_doorbells (s : State) (j : Nat) (t : Token) : (s.setTok j t).doorbells = s.doorbells := rfl
@[simp] theorem setTok_clock (s : State) (j : Nat) (t : Token) : (s.setTok j t).clock = s.clock := rfl
@[simp] theorem setTok_resume (s : State) (j : Nat) (t : Token) : (s.setTok j t).resume = s.resume := rfl

/-! State.dropTok -/

@[simp] theorem dropTok_core (s : State) (j : Nat) : (s.dropTok j).core = s.core := rfl
@[simp] theorem dropTok_cur (s : State) (j : Nat) : (s.dropTok j).cur = s.cur := rfl
@[simp] theorem dropTok_parked (s : State) (j : Nat) : (s.dropTok j).parked = s.parked := rfl
@[simp] theorem dropTok_issue (s : State) (j : Nat) : (s.dropTok j).issue = s.issue := rfl
@[simp] theorem dropTok_agenda (s : State) (j : Nat) : (s.dropTok j).agenda = s.agenda := rfl
@[simp] theorem dropTok_input (s : State) (j : Nat) : (s.dropTok j).input = s.input := rfl
@[simp] theorem dropTok_handler (s : State) (j : Nat) : (s.dropTok j).handler = s.handler := rfl
@[simp] theorem dropTok_fresh (s : State) (j : Nat) : (s.dropTok j).fresh = s.fresh := rfl
@[simp] theorem dropTok_hbm (s : State) (j : Nat) : (s.dropTok j).hbm = s.hbm := rfl
@[simp] theorem dropTok_badLine (s : State) (j : Nat) : (s.dropTok j).badLine = s.badLine := rfl
@[simp] theorem dropTok_host (s : State) (j : Nat) : (s.dropTok j).host = s.host := rfl
@[simp] theorem dropTok_roots (s : State) (j : Nat) : (s.dropTok j).roots = s.roots := rfl
@[simp] theorem dropTok_tlb (s : State) (j : Nat) : (s.dropTok j).tlb = s.tlb := rfl
@[simp] theorem dropTok_ports (s : State) (j : Nat) : (s.dropTok j).ports = s.ports := rfl
@[simp] theorem dropTok_regions (s : State) (j : Nat) : (s.dropTok j).regions = s.regions := rfl
@[simp] theorem dropTok_routers (s : State) (j : Nat) : (s.dropTok j).routers = s.routers := rfl
@[simp] theorem dropTok_notices (s : State) (j : Nat) : (s.dropTok j).notices = s.notices := rfl
@[simp] theorem dropTok_blocks (s : State) (j : Nat) : (s.dropTok j).blocks = s.blocks := rfl
@[simp] theorem dropTok_links (s : State) (j : Nat) : (s.dropTok j).links = s.links := rfl
@[simp] theorem dropTok_reticles (s : State) (j : Nat) : (s.dropTok j).reticles = s.reticles := rfl
@[simp] theorem dropTok_bridge (s : State) (j : Nat) : (s.dropTok j).bridge = s.bridge := rfl
@[simp] theorem dropTok_queues (s : State) (j : Nat) : (s.dropTok j).queues = s.queues := rfl
@[simp] theorem dropTok_pages (s : State) (j : Nat) : (s.dropTok j).pages = s.pages := rfl
@[simp] theorem dropTok_doorbells (s : State) (j : Nat) : (s.dropTok j).doorbells = s.doorbells := rfl
@[simp] theorem dropTok_clock (s : State) (j : Nat) : (s.dropTok j).clock = s.clock := rfl
@[simp] theorem dropTok_resume (s : State) (j : Nat) : (s.dropTok j).resume = s.resume := rfl

/-! State.send -/

@[simp] theorem send_core (s : State) (t : Token) : (s.send t).core = s.core := rfl
@[simp] theorem send_cur (s : State) (t : Token) : (s.send t).cur = s.cur := rfl
@[simp] theorem send_parked (s : State) (t : Token) : (s.send t).parked = s.parked := rfl
@[simp] theorem send_issue (s : State) (t : Token) : (s.send t).issue = s.issue := rfl
@[simp] theorem send_agenda (s : State) (t : Token) : (s.send t).agenda = s.agenda := rfl
@[simp] theorem send_input (s : State) (t : Token) : (s.send t).input = s.input := rfl
@[simp] theorem send_handler (s : State) (t : Token) : (s.send t).handler = s.handler := rfl
@[simp] theorem send_fresh (s : State) (t : Token) : (s.send t).fresh = s.fresh := rfl
@[simp] theorem send_hbm (s : State) (t : Token) : (s.send t).hbm = s.hbm := rfl
@[simp] theorem send_badLine (s : State) (t : Token) : (s.send t).badLine = s.badLine := rfl
@[simp] theorem send_host (s : State) (t : Token) : (s.send t).host = s.host := rfl
@[simp] theorem send_roots (s : State) (t : Token) : (s.send t).roots = s.roots := rfl
@[simp] theorem send_tlb (s : State) (t : Token) : (s.send t).tlb = s.tlb := rfl
@[simp] theorem send_ports (s : State) (t : Token) : (s.send t).ports = s.ports := rfl
@[simp] theorem send_regions (s : State) (t : Token) : (s.send t).regions = s.regions := rfl
@[simp] theorem send_routers (s : State) (t : Token) : (s.send t).routers = s.routers := rfl
@[simp] theorem send_notices (s : State) (t : Token) : (s.send t).notices = s.notices := rfl
@[simp] theorem send_blocks (s : State) (t : Token) : (s.send t).blocks = s.blocks := rfl
@[simp] theorem send_links (s : State) (t : Token) : (s.send t).links = s.links := rfl
@[simp] theorem send_reticles (s : State) (t : Token) : (s.send t).reticles = s.reticles := rfl
@[simp] theorem send_bridge (s : State) (t : Token) : (s.send t).bridge = s.bridge := rfl
@[simp] theorem send_queues (s : State) (t : Token) : (s.send t).queues = s.queues := rfl
@[simp] theorem send_pages (s : State) (t : Token) : (s.send t).pages = s.pages := rfl
@[simp] theorem send_doorbells (s : State) (t : Token) : (s.send t).doorbells = s.doorbells := rfl
@[simp] theorem send_clock (s : State) (t : Token) : (s.send t).clock = s.clock := rfl
@[simp] theorem send_resume (s : State) (t : Token) : (s.send t).resume = s.resume := rfl

/-! State.setCapture -/

@[simp] theorem setCapture_core (s : State) (r u : Nat) (x : Capture) : (s.setCapture r u x).core = s.core := rfl
@[simp] theorem setCapture_cur (s : State) (r u : Nat) (x : Capture) : (s.setCapture r u x).cur = s.cur := rfl
@[simp] theorem setCapture_parked (s : State) (r u : Nat) (x : Capture) : (s.setCapture r u x).parked = s.parked := rfl
@[simp] theorem setCapture_issue (s : State) (r u : Nat) (x : Capture) : (s.setCapture r u x).issue = s.issue := rfl
@[simp] theorem setCapture_agenda (s : State) (r u : Nat) (x : Capture) : (s.setCapture r u x).agenda = s.agenda := rfl
@[simp] theorem setCapture_input (s : State) (r u : Nat) (x : Capture) : (s.setCapture r u x).input = s.input := rfl
@[simp] theorem setCapture_handler (s : State) (r u : Nat) (x : Capture) : (s.setCapture r u x).handler = s.handler := rfl
@[simp] theorem setCapture_fresh (s : State) (r u : Nat) (x : Capture) : (s.setCapture r u x).fresh = s.fresh := rfl
@[simp] theorem setCapture_hbm (s : State) (r u : Nat) (x : Capture) : (s.setCapture r u x).hbm = s.hbm := rfl
@[simp] theorem setCapture_badLine (s : State) (r u : Nat) (x : Capture) : (s.setCapture r u x).badLine = s.badLine := rfl
@[simp] theorem setCapture_host (s : State) (r u : Nat) (x : Capture) : (s.setCapture r u x).host = s.host := rfl
@[simp] theorem setCapture_roots (s : State) (r u : Nat) (x : Capture) : (s.setCapture r u x).roots = s.roots := rfl
@[simp] theorem setCapture_tlb (s : State) (r u : Nat) (x : Capture) : (s.setCapture r u x).tlb = s.tlb := rfl
@[simp] theorem setCapture_ports (s : State) (r u : Nat) (x : Capture) : (s.setCapture r u x).ports = s.ports := rfl
@[simp] theorem setCapture_regions (s : State) (r u : Nat) (x : Capture) : (s.setCapture r u x).regions = s.regions := rfl
@[simp] theorem setCapture_net (s : State) (r u : Nat) (x : Capture) : (s.setCapture r u x).net = s.net := rfl
@[simp] theorem setCapture_routers (s : State) (r u : Nat) (x : Capture) : (s.setCapture r u x).routers = s.routers := rfl
@[simp] theorem setCapture_notices (s : State) (r u : Nat) (x : Capture) : (s.setCapture r u x).notices = s.notices := rfl
@[simp] theorem setCapture_blocks (s : State) (r u : Nat) (x : Capture) : (s.setCapture r u x).blocks = s.blocks := rfl
@[simp] theorem setCapture_links (s : State) (r u : Nat) (x : Capture) : (s.setCapture r u x).links = s.links := rfl
@[simp] theorem setCapture_bridge (s : State) (r u : Nat) (x : Capture) : (s.setCapture r u x).bridge = s.bridge := rfl
@[simp] theorem setCapture_queues (s : State) (r u : Nat) (x : Capture) : (s.setCapture r u x).queues = s.queues := rfl
@[simp] theorem setCapture_pages (s : State) (r u : Nat) (x : Capture) : (s.setCapture r u x).pages = s.pages := rfl
@[simp] theorem setCapture_doorbells (s : State) (r u : Nat) (x : Capture) : (s.setCapture r u x).doorbells = s.doorbells := rfl
@[simp] theorem setCapture_clock (s : State) (r u : Nat) (x : Capture) : (s.setCapture r u x).clock = s.clock := rfl
@[simp] theorem setCapture_resume (s : State) (r u : Nat) (x : Capture) : (s.setCapture r u x).resume = s.resume := rfl

/-! dbgError -/

@[simp] theorem dbgError_core (s : State) : (dbgError s).core = s.core := rfl
@[simp] theorem dbgError_cur (s : State) : (dbgError s).cur = s.cur := rfl
@[simp] theorem dbgError_parked (s : State) : (dbgError s).parked = s.parked := rfl
@[simp] theorem dbgError_issue (s : State) : (dbgError s).issue = s.issue := rfl
@[simp] theorem dbgError_agenda (s : State) : (dbgError s).agenda = s.agenda := rfl
@[simp] theorem dbgError_input (s : State) : (dbgError s).input = s.input := rfl
@[simp] theorem dbgError_handler (s : State) : (dbgError s).handler = s.handler := rfl
@[simp] theorem dbgError_fresh (s : State) : (dbgError s).fresh = s.fresh := rfl
@[simp] theorem dbgError_hbm (s : State) : (dbgError s).hbm = s.hbm := rfl
@[simp] theorem dbgError_badLine (s : State) : (dbgError s).badLine = s.badLine := rfl
@[simp] theorem dbgError_host (s : State) : (dbgError s).host = s.host := rfl
@[simp] theorem dbgError_roots (s : State) : (dbgError s).roots = s.roots := rfl
@[simp] theorem dbgError_tlb (s : State) : (dbgError s).tlb = s.tlb := rfl
@[simp] theorem dbgError_ports (s : State) : (dbgError s).ports = s.ports := rfl
@[simp] theorem dbgError_regions (s : State) : (dbgError s).regions = s.regions := rfl
@[simp] theorem dbgError_net (s : State) : (dbgError s).net = s.net := rfl
@[simp] theorem dbgError_routers (s : State) : (dbgError s).routers = s.routers := rfl
@[simp] theorem dbgError_notices (s : State) : (dbgError s).notices = s.notices := rfl
@[simp] theorem dbgError_blocks (s : State) : (dbgError s).blocks = s.blocks := rfl
@[simp] theorem dbgError_links (s : State) : (dbgError s).links = s.links := rfl
@[simp] theorem dbgError_reticles (s : State) : (dbgError s).reticles = s.reticles := rfl
@[simp] theorem dbgError_queues (s : State) : (dbgError s).queues = s.queues := rfl
@[simp] theorem dbgError_pages (s : State) : (dbgError s).pages = s.pages := rfl
@[simp] theorem dbgError_doorbells (s : State) : (dbgError s).doorbells = s.doorbells := rfl
@[simp] theorem dbgError_clock (s : State) : (dbgError s).clock = s.clock := rfl
@[simp] theorem dbgError_resume (s : State) : (dbgError s).resume = s.resume := rfl

/-! State.setCoreAt -/

@[simp] theorem setCoreAt_cur (s : State) (n : Nat) (c : Core) : (s.setCoreAt n c).cur = s.cur := by unfold State.setCoreAt; split <;> rfl
@[simp] theorem setCoreAt_issue (s : State) (n : Nat) (c : Core) : (s.setCoreAt n c).issue = s.issue := by unfold State.setCoreAt; split <;> rfl
@[simp] theorem setCoreAt_agenda (s : State) (n : Nat) (c : Core) : (s.setCoreAt n c).agenda = s.agenda := by unfold State.setCoreAt; split <;> rfl
@[simp] theorem setCoreAt_input (s : State) (n : Nat) (c : Core) : (s.setCoreAt n c).input = s.input := by unfold State.setCoreAt; split <;> rfl
@[simp] theorem setCoreAt_handler (s : State) (n : Nat) (c : Core) : (s.setCoreAt n c).handler = s.handler := by unfold State.setCoreAt; split <;> rfl
@[simp] theorem setCoreAt_fresh (s : State) (n : Nat) (c : Core) : (s.setCoreAt n c).fresh = s.fresh := by unfold State.setCoreAt; split <;> rfl
@[simp] theorem setCoreAt_hbm (s : State) (n : Nat) (c : Core) : (s.setCoreAt n c).hbm = s.hbm := by unfold State.setCoreAt; split <;> rfl
@[simp] theorem setCoreAt_badLine (s : State) (n : Nat) (c : Core) : (s.setCoreAt n c).badLine = s.badLine := by unfold State.setCoreAt; split <;> rfl
@[simp] theorem setCoreAt_host (s : State) (n : Nat) (c : Core) : (s.setCoreAt n c).host = s.host := by unfold State.setCoreAt; split <;> rfl
@[simp] theorem setCoreAt_roots (s : State) (n : Nat) (c : Core) : (s.setCoreAt n c).roots = s.roots := by unfold State.setCoreAt; split <;> rfl
@[simp] theorem setCoreAt_tlb (s : State) (n : Nat) (c : Core) : (s.setCoreAt n c).tlb = s.tlb := by unfold State.setCoreAt; split <;> rfl
@[simp] theorem setCoreAt_ports (s : State) (n : Nat) (c : Core) : (s.setCoreAt n c).ports = s.ports := by unfold State.setCoreAt; split <;> rfl
@[simp] theorem setCoreAt_regions (s : State) (n : Nat) (c : Core) : (s.setCoreAt n c).regions = s.regions := by unfold State.setCoreAt; split <;> rfl
@[simp] theorem setCoreAt_net (s : State) (n : Nat) (c : Core) : (s.setCoreAt n c).net = s.net := by unfold State.setCoreAt; split <;> rfl
@[simp] theorem setCoreAt_routers (s : State) (n : Nat) (c : Core) : (s.setCoreAt n c).routers = s.routers := by unfold State.setCoreAt; split <;> rfl
@[simp] theorem setCoreAt_notices (s : State) (n : Nat) (c : Core) : (s.setCoreAt n c).notices = s.notices := by unfold State.setCoreAt; split <;> rfl
@[simp] theorem setCoreAt_blocks (s : State) (n : Nat) (c : Core) : (s.setCoreAt n c).blocks = s.blocks := by unfold State.setCoreAt; split <;> rfl
@[simp] theorem setCoreAt_links (s : State) (n : Nat) (c : Core) : (s.setCoreAt n c).links = s.links := by unfold State.setCoreAt; split <;> rfl
@[simp] theorem setCoreAt_reticles (s : State) (n : Nat) (c : Core) : (s.setCoreAt n c).reticles = s.reticles := by unfold State.setCoreAt; split <;> rfl
@[simp] theorem setCoreAt_bridge (s : State) (n : Nat) (c : Core) : (s.setCoreAt n c).bridge = s.bridge := by unfold State.setCoreAt; split <;> rfl
@[simp] theorem setCoreAt_queues (s : State) (n : Nat) (c : Core) : (s.setCoreAt n c).queues = s.queues := by unfold State.setCoreAt; split <;> rfl
@[simp] theorem setCoreAt_pages (s : State) (n : Nat) (c : Core) : (s.setCoreAt n c).pages = s.pages := by unfold State.setCoreAt; split <;> rfl
@[simp] theorem setCoreAt_doorbells (s : State) (n : Nat) (c : Core) : (s.setCoreAt n c).doorbells = s.doorbells := by unfold State.setCoreAt; split <;> rfl
@[simp] theorem setCoreAt_clock (s : State) (n : Nat) (c : Core) : (s.setCoreAt n c).clock = s.clock := by unfold State.setCoreAt; split <;> rfl
@[simp] theorem setCoreAt_resume (s : State) (n : Nat) (c : Core) : (s.setCoreAt n c).resume = s.resume := by unfold State.setCoreAt; split <;> rfl

@[simp] theorem coreAt_setCoreAt_self (s : State) (n : Nat) (c : Core) : (s.setCoreAt n c).coreAt n = c := by
  by_cases h : n = s.cur <;> simp [State.coreAt, State.setCoreAt, h]
theorem coreAt_setCoreAt_of_ne {n m : Nat} (h : m ≠ n) (s : State) (c : Core) : (s.setCoreAt n c).coreAt m = s.coreAt m := by
  by_cases hn : n = s.cur <;> simp [State.coreAt, State.setCoreAt, hn, findD_insert_of_ne h] <;> simp_all

/-! State.focus -/

@[simp] theorem focus_issue (s : State) (n : Nat) : (s.focus n).issue = s.issue := by unfold State.focus; split <;> rfl
@[simp] theorem focus_agenda (s : State) (n : Nat) : (s.focus n).agenda = s.agenda := by unfold State.focus; split <;> rfl
@[simp] theorem focus_input (s : State) (n : Nat) : (s.focus n).input = s.input := by unfold State.focus; split <;> rfl
@[simp] theorem focus_handler (s : State) (n : Nat) : (s.focus n).handler = s.handler := by unfold State.focus; split <;> rfl
@[simp] theorem focus_fresh (s : State) (n : Nat) : (s.focus n).fresh = s.fresh := by unfold State.focus; split <;> rfl
@[simp] theorem focus_hbm (s : State) (n : Nat) : (s.focus n).hbm = s.hbm := by unfold State.focus; split <;> rfl
@[simp] theorem focus_badLine (s : State) (n : Nat) : (s.focus n).badLine = s.badLine := by unfold State.focus; split <;> rfl
@[simp] theorem focus_host (s : State) (n : Nat) : (s.focus n).host = s.host := by unfold State.focus; split <;> rfl
@[simp] theorem focus_roots (s : State) (n : Nat) : (s.focus n).roots = s.roots := by unfold State.focus; split <;> rfl
@[simp] theorem focus_tlb (s : State) (n : Nat) : (s.focus n).tlb = s.tlb := by unfold State.focus; split <;> rfl
@[simp] theorem focus_ports (s : State) (n : Nat) : (s.focus n).ports = s.ports := by unfold State.focus; split <;> rfl
@[simp] theorem focus_regions (s : State) (n : Nat) : (s.focus n).regions = s.regions := by unfold State.focus; split <;> rfl
@[simp] theorem focus_net (s : State) (n : Nat) : (s.focus n).net = s.net := by unfold State.focus; split <;> rfl
@[simp] theorem focus_routers (s : State) (n : Nat) : (s.focus n).routers = s.routers := by unfold State.focus; split <;> rfl
@[simp] theorem focus_notices (s : State) (n : Nat) : (s.focus n).notices = s.notices := by unfold State.focus; split <;> rfl
@[simp] theorem focus_blocks (s : State) (n : Nat) : (s.focus n).blocks = s.blocks := by unfold State.focus; split <;> rfl
@[simp] theorem focus_links (s : State) (n : Nat) : (s.focus n).links = s.links := by unfold State.focus; split <;> rfl
@[simp] theorem focus_reticles (s : State) (n : Nat) : (s.focus n).reticles = s.reticles := by unfold State.focus; split <;> rfl
@[simp] theorem focus_bridge (s : State) (n : Nat) : (s.focus n).bridge = s.bridge := by unfold State.focus; split <;> rfl
@[simp] theorem focus_queues (s : State) (n : Nat) : (s.focus n).queues = s.queues := by unfold State.focus; split <;> rfl
@[simp] theorem focus_pages (s : State) (n : Nat) : (s.focus n).pages = s.pages := by unfold State.focus; split <;> rfl
@[simp] theorem focus_doorbells (s : State) (n : Nat) : (s.focus n).doorbells = s.doorbells := by unfold State.focus; split <;> rfl
@[simp] theorem focus_clock (s : State) (n : Nat) : (s.focus n).clock = s.clock := by unfold State.focus; split <;> rfl
@[simp] theorem focus_resume (s : State) (n : Nat) : (s.focus n).resume = s.resume := by unfold State.focus; split <;> rfl

@[simp] theorem focus_cur (s : State) (n : Nat) : (s.focus n).cur = n := by
  unfold State.focus; split <;> simp_all
@[simp] theorem focus_core (s : State) (n : Nat) : (s.focus n).core = s.coreAt n := by
  unfold State.focus State.coreAt; split <;> rfl

/-! Core.setTile -/

@[simp] theorem setTile_regs (c : Core) (i : Nat) (t : Tile) : (c.setTile i t).regs = c.regs := rfl
@[simp] theorem setTile_running (c : Core) (i : Nat) (t : Tile) : (c.setTile i t).running = c.running := rfl
@[simp] theorem setTile_slot (c : Core) (i : Nat) (t : Tile) : (c.setTile i t).slot = c.slot := rfl
@[simp] theorem setTile_branch (c : Core) (i : Nat) (t : Tile) : (c.setTile i t).branch = c.branch := rfl
@[simp] theorem setTile_stallrem (c : Core) (i : Nat) (t : Tile) : (c.setTile i t).stallrem = c.stallrem := rfl
@[simp] theorem setTile_divrem (c : Core) (i : Nat) (t : Tile) : (c.setTile i t).divrem = c.divrem := rfl
@[simp] theorem setTile_frozen (c : Core) (i : Nat) (t : Tile) : (c.setTile i t).frozen = c.frozen := rfl
@[simp] theorem setTile_pend (c : Core) (i : Nat) (t : Tile) : (c.setTile i t).pend = c.pend := rfl
@[simp] theorem setTile_tcd (c : Core) (i : Nat) (t : Tile) : (c.setTile i t).tcd = c.tcd := rfl
@[simp] theorem setTile_ending (c : Core) (i : Nat) (t : Tile) : (c.setTile i t).ending = c.ending := rfl
@[simp] theorem setTile_fbuf (c : Core) (i : Nat) (t : Tile) : (c.setTile i t).fbuf = c.fbuf := rfl
@[simp] theorem setTile_fetchb (c : Core) (i : Nat) (t : Tile) : (c.setTile i t).fetchb = c.fetchb := rfl
@[simp] theorem setTile_fwm (c : Core) (i : Nat) (t : Tile) : (c.setTile i t).fwm = c.fwm := rfl
@[simp] theorem setTile_bankS (c : Core) (i : Nat) (t : Tile) : (c.setTile i t).bankS = c.bankS := rfl
@[simp] theorem setTile_bankTc (c : Core) (i : Nat) (t : Tile) : (c.setTile i t).bankTc = c.bankTc := rfl
@[simp] theorem setTile_savedStall (c : Core) (i : Nat) (t : Tile) : (c.setTile i t).savedStall = c.savedStall := rfl
@[simp] theorem setTile_savedDiv (c : Core) (i : Nat) (t : Tile) : (c.setTile i t).savedDiv = c.savedDiv := rfl
@[simp] theorem setTile_savedBranch (c : Core) (i : Nat) (t : Tile) : (c.setTile i t).savedBranch = c.savedBranch := rfl
@[simp] theorem setTile_savedFetchb (c : Core) (i : Nat) (t : Tile) : (c.setTile i t).savedFetchb = c.savedFetchb := rfl
@[simp] theorem setTile_lq (c : Core) (i : Nat) (t : Tile) : (c.setTile i t).lq = c.lq := rfl
@[simp] theorem setTile_heldVar (c : Core) (i : Nat) (t : Tile) : (c.setTile i t).heldVar = c.heldVar := rfl
@[simp] theorem setTile_faults (c : Core) (i : Nat) (t : Tile) : (c.setTile i t).faults = c.faults := rfl
@[simp] theorem setTile_hreq (c : Core) (i : Nat) (t : Tile) : (c.setTile i t).hreq = c.hreq := rfl
@[simp] theorem setTile_halt (c : Core) (i : Nat) (t : Tile) : (c.setTile i t).halt = c.halt := rfl
@[simp] theorem setTile_trapcause (c : Core) (i : Nat) (t : Tile) : (c.setTile i t).trapcause = c.trapcause := rfl
@[simp] theorem setTile_trappc (c : Core) (i : Nat) (t : Tile) : (c.setTile i t).trappc = c.trappc := rfl
@[simp] theorem setTile_trapval (c : Core) (i : Nat) (t : Tile) : (c.setTile i t).trapval = c.trapval := rfl
@[simp] theorem setTile_trapvec (c : Core) (i : Nat) (t : Tile) : (c.setTile i t).trapvec = c.trapvec := rfl
@[simp] theorem setTile_wdlim (c : Core) (i : Nat) (t : Tile) : (c.setTile i t).wdlim = c.wdlim := rfl
@[simp] theorem setTile_dbgen (c : Core) (i : Nat) (t : Tile) : (c.setTile i t).dbgen = c.dbgen := rfl
@[simp] theorem setTile_stagger (c : Core) (i : Nat) (t : Tile) : (c.setTile i t).stagger = c.stagger := rfl
@[simp] theorem setTile_wdFrozen (c : Core) (i : Nat) (t : Tile) : (c.setTile i t).wdFrozen = c.wdFrozen := rfl
@[simp] theorem setTile_wdHeld (c : Core) (i : Nat) (t : Tile) : (c.setTile i t).wdHeld = c.wdHeld := rfl
@[simp] theorem setTile_wdWhy (c : Core) (i : Nat) (t : Tile) : (c.setTile i t).wdWhy = c.wdWhy := rfl
@[simp] theorem setTile_cycle (c : Core) (i : Nat) (t : Tile) : (c.setTile i t).cycle = c.cycle := rfl
@[simp] theorem setTile_region (c : Core) (i : Nat) (t : Tile) : (c.setTile i t).region = c.region := rfl
@[simp] theorem setTile_ncore (c : Core) (i : Nat) (t : Tile) : (c.setTile i t).ncore = c.ncore := rfl
@[simp] theorem setTile_regw (c : Core) (i : Nat) (t : Tile) : (c.setTile i t).regw = c.regw := rfl
@[simp] theorem setTile_regh (c : Core) (i : Nat) (t : Tile) : (c.setTile i t).regh = c.regh := rfl
@[simp] theorem setTile_detmode (c : Core) (i : Nat) (t : Tile) : (c.setTile i t).detmode = c.detmode := rfl
@[simp] theorem setTile_netw (c : Core) (i : Nat) (t : Tile) : (c.setTile i t).netw = c.netw := rfl
@[simp] theorem setTile_round (c : Core) (i : Nat) (t : Tile) : (c.setTile i t).round = c.round := rfl
@[simp] theorem setTile_lrskip (c : Core) (i : Nat) (t : Tile) : (c.setTile i t).lrskip = c.lrskip := rfl
@[simp] theorem setTile_exphist (c : Core) (i : Nat) (t : Tile) : (c.setTile i t).exphist = c.exphist := rfl
@[simp] theorem setTile_stampCyc (c : Core) (i : Nat) (t : Tile) : (c.setTile i t).stampCyc = c.stampCyc := rfl
@[simp] theorem setTile_delstale (c : Core) (i : Nat) (t : Tile) : (c.setTile i t).delstale = c.delstale := rfl
@[simp] theorem setTile_owed (c : Core) (i : Nat) (t : Tile) : (c.setTile i t).owed = c.owed := rfl
@[simp] theorem setTile_bufW (c : Core) (i : Nat) (t : Tile) : (c.setTile i t).bufW = c.bufW := rfl
@[simp] theorem setTile_bufA (c : Core) (i : Nat) (t : Tile) : (c.setTile i t).bufA = c.bufA := rfl
@[simp] theorem setTile_bufC (c : Core) (i : Nat) (t : Tile) : (c.setTile i t).bufC = c.bufC := rfl
@[simp] theorem setTile_badWord (c : Core) (i : Nat) (t : Tile) : (c.setTile i t).badWord = c.badWord := rfl
@[simp] theorem setTile_watches (c : Core) (i : Nat) (t : Tile) : (c.setTile i t).watches = c.watches := rfl
@[simp] theorem setTile_istore (c : Core) (i : Nat) (t : Tile) : (c.setTile i t).istore = c.istore := rfl
@[simp] theorem setTile_ifill (c : Core) (i : Nat) (t : Tile) : (c.setTile i t).ifill = c.ifill := rfl
@[simp] theorem setTile_ifault (c : Core) (i : Nat) (t : Tile) : (c.setTile i t).ifault = c.ifault := rfl
@[simp] theorem setTile_gcache (c : Core) (i : Nat) (t : Tile) : (c.setTile i t).gcache = c.gcache := rfl
@[simp] theorem setTile_darn (c : Core) (i : Nat) (t : Tile) : (c.setTile i t).darn = c.darn := rfl
@[simp] theorem setTile_rseq (c : Core) (i : Nat) (t : Tile) : (c.setTile i t).rseq = c.rseq := rfl
@[simp] theorem setTile_windows (c : Core) (i : Nat) (t : Tile) : (c.setTile i t).windows = c.windows := rfl
@[simp] theorem setTile_wf (c : Core) (i : Nat) (t : Tile) : (c.setTile i t).wf = c.wf := rfl
@[simp] theorem setTile_ws (c : Core) (i : Nat) (t : Tile) : (c.setTile i t).ws = c.ws := rfl
@[simp] theorem setTile_matmode (c : Core) (i : Nat) (t : Tile) : (c.setTile i t).matmode = c.matmode := rfl
@[simp] theorem setTile_matq (c : Core) (i : Nat) (t : Tile) : (c.setTile i t).matq = c.matq := rfl
@[simp] theorem setTile_matIdle (c : Core) (i : Nat) (t : Tile) : (c.setTile i t).matIdle = c.matIdle := rfl
@[simp] theorem setTile_matHold (c : Core) (i : Nat) (t : Tile) : (c.setTile i t).matHold = c.matHold := rfl
@[simp] theorem setTile_owners (c : Core) (i : Nat) (t : Tile) : (c.setTile i t).owners = c.owners := rfl
@[simp] theorem setTile_ops (c : Core) (i : Nat) (t : Tile) : (c.setTile i t).ops = c.ops := rfl
@[simp] theorem setTile_nextSer (c : Core) (i : Nat) (t : Tile) : (c.setTile i t).nextSer = c.nextSer := rfl
@[simp] theorem setTile_slots (c : Core) (i : Nat) (t : Tile) : (c.setTile i t).slots = c.slots := rfl
@[simp] theorem setTile_ready (c : Core) (i : Nat) (t : Tile) : (c.setTile i t).ready = c.ready := rfl
@[simp] theorem setTile_rdyseq (c : Core) (i : Nat) (t : Tile) : (c.setTile i t).rdyseq = c.rdyseq := rfl
@[simp] theorem setTile_resv (c : Core) (i : Nat) (t : Tile) : (c.setTile i t).resv = c.resv := rfl
@[simp] theorem setTile_nframes (c : Core) (i : Nat) (t : Tile) : (c.setTile i t).nframes = c.nframes := rfl
@[simp] theorem setTile_yframes (c : Core) (i : Nat) (t : Tile) : (c.setTile i t).yframes = c.yframes := rfl
@[simp] theorem setTile_arrivals (c : Core) (i : Nat) (t : Tile) : (c.setTile i t).arrivals = c.arrivals := rfl
@[simp] theorem setTile_waited (c : Core) (i : Nat) (t : Tile) : (c.setTile i t).waited = c.waited := rfl
@[simp] theorem setTile_warm (c : Core) (i : Nat) (t : Tile) : (c.setTile i t).warm = c.warm := rfl

/-! Core.setOp -/

@[simp] theorem setOp_regs (c : Core) (j : Nat) (x : Op) : (c.setOp j x).regs = c.regs := rfl
@[simp] theorem setOp_running (c : Core) (j : Nat) (x : Op) : (c.setOp j x).running = c.running := rfl
@[simp] theorem setOp_slot (c : Core) (j : Nat) (x : Op) : (c.setOp j x).slot = c.slot := rfl
@[simp] theorem setOp_branch (c : Core) (j : Nat) (x : Op) : (c.setOp j x).branch = c.branch := rfl
@[simp] theorem setOp_stallrem (c : Core) (j : Nat) (x : Op) : (c.setOp j x).stallrem = c.stallrem := rfl
@[simp] theorem setOp_divrem (c : Core) (j : Nat) (x : Op) : (c.setOp j x).divrem = c.divrem := rfl
@[simp] theorem setOp_frozen (c : Core) (j : Nat) (x : Op) : (c.setOp j x).frozen = c.frozen := rfl
@[simp] theorem setOp_pend (c : Core) (j : Nat) (x : Op) : (c.setOp j x).pend = c.pend := rfl
@[simp] theorem setOp_tcd (c : Core) (j : Nat) (x : Op) : (c.setOp j x).tcd = c.tcd := rfl
@[simp] theorem setOp_ending (c : Core) (j : Nat) (x : Op) : (c.setOp j x).ending = c.ending := rfl
@[simp] theorem setOp_fbuf (c : Core) (j : Nat) (x : Op) : (c.setOp j x).fbuf = c.fbuf := rfl
@[simp] theorem setOp_fetchb (c : Core) (j : Nat) (x : Op) : (c.setOp j x).fetchb = c.fetchb := rfl
@[simp] theorem setOp_fwm (c : Core) (j : Nat) (x : Op) : (c.setOp j x).fwm = c.fwm := rfl
@[simp] theorem setOp_bankS (c : Core) (j : Nat) (x : Op) : (c.setOp j x).bankS = c.bankS := rfl
@[simp] theorem setOp_bankTc (c : Core) (j : Nat) (x : Op) : (c.setOp j x).bankTc = c.bankTc := rfl
@[simp] theorem setOp_savedStall (c : Core) (j : Nat) (x : Op) : (c.setOp j x).savedStall = c.savedStall := rfl
@[simp] theorem setOp_savedDiv (c : Core) (j : Nat) (x : Op) : (c.setOp j x).savedDiv = c.savedDiv := rfl
@[simp] theorem setOp_savedBranch (c : Core) (j : Nat) (x : Op) : (c.setOp j x).savedBranch = c.savedBranch := rfl
@[simp] theorem setOp_savedFetchb (c : Core) (j : Nat) (x : Op) : (c.setOp j x).savedFetchb = c.savedFetchb := rfl
@[simp] theorem setOp_lq (c : Core) (j : Nat) (x : Op) : (c.setOp j x).lq = c.lq := rfl
@[simp] theorem setOp_heldVar (c : Core) (j : Nat) (x : Op) : (c.setOp j x).heldVar = c.heldVar := rfl
@[simp] theorem setOp_faults (c : Core) (j : Nat) (x : Op) : (c.setOp j x).faults = c.faults := rfl
@[simp] theorem setOp_hreq (c : Core) (j : Nat) (x : Op) : (c.setOp j x).hreq = c.hreq := rfl
@[simp] theorem setOp_halt (c : Core) (j : Nat) (x : Op) : (c.setOp j x).halt = c.halt := rfl
@[simp] theorem setOp_trapcause (c : Core) (j : Nat) (x : Op) : (c.setOp j x).trapcause = c.trapcause := rfl
@[simp] theorem setOp_trappc (c : Core) (j : Nat) (x : Op) : (c.setOp j x).trappc = c.trappc := rfl
@[simp] theorem setOp_trapval (c : Core) (j : Nat) (x : Op) : (c.setOp j x).trapval = c.trapval := rfl
@[simp] theorem setOp_trapvec (c : Core) (j : Nat) (x : Op) : (c.setOp j x).trapvec = c.trapvec := rfl
@[simp] theorem setOp_wdlim (c : Core) (j : Nat) (x : Op) : (c.setOp j x).wdlim = c.wdlim := rfl
@[simp] theorem setOp_dbgen (c : Core) (j : Nat) (x : Op) : (c.setOp j x).dbgen = c.dbgen := rfl
@[simp] theorem setOp_stagger (c : Core) (j : Nat) (x : Op) : (c.setOp j x).stagger = c.stagger := rfl
@[simp] theorem setOp_wdFrozen (c : Core) (j : Nat) (x : Op) : (c.setOp j x).wdFrozen = c.wdFrozen := rfl
@[simp] theorem setOp_wdHeld (c : Core) (j : Nat) (x : Op) : (c.setOp j x).wdHeld = c.wdHeld := rfl
@[simp] theorem setOp_wdWhy (c : Core) (j : Nat) (x : Op) : (c.setOp j x).wdWhy = c.wdWhy := rfl
@[simp] theorem setOp_cycle (c : Core) (j : Nat) (x : Op) : (c.setOp j x).cycle = c.cycle := rfl
@[simp] theorem setOp_region (c : Core) (j : Nat) (x : Op) : (c.setOp j x).region = c.region := rfl
@[simp] theorem setOp_ncore (c : Core) (j : Nat) (x : Op) : (c.setOp j x).ncore = c.ncore := rfl
@[simp] theorem setOp_regw (c : Core) (j : Nat) (x : Op) : (c.setOp j x).regw = c.regw := rfl
@[simp] theorem setOp_regh (c : Core) (j : Nat) (x : Op) : (c.setOp j x).regh = c.regh := rfl
@[simp] theorem setOp_detmode (c : Core) (j : Nat) (x : Op) : (c.setOp j x).detmode = c.detmode := rfl
@[simp] theorem setOp_netw (c : Core) (j : Nat) (x : Op) : (c.setOp j x).netw = c.netw := rfl
@[simp] theorem setOp_round (c : Core) (j : Nat) (x : Op) : (c.setOp j x).round = c.round := rfl
@[simp] theorem setOp_lrskip (c : Core) (j : Nat) (x : Op) : (c.setOp j x).lrskip = c.lrskip := rfl
@[simp] theorem setOp_exphist (c : Core) (j : Nat) (x : Op) : (c.setOp j x).exphist = c.exphist := rfl
@[simp] theorem setOp_stampCyc (c : Core) (j : Nat) (x : Op) : (c.setOp j x).stampCyc = c.stampCyc := rfl
@[simp] theorem setOp_delstale (c : Core) (j : Nat) (x : Op) : (c.setOp j x).delstale = c.delstale := rfl
@[simp] theorem setOp_owed (c : Core) (j : Nat) (x : Op) : (c.setOp j x).owed = c.owed := rfl
@[simp] theorem setOp_bufW (c : Core) (j : Nat) (x : Op) : (c.setOp j x).bufW = c.bufW := rfl
@[simp] theorem setOp_bufA (c : Core) (j : Nat) (x : Op) : (c.setOp j x).bufA = c.bufA := rfl
@[simp] theorem setOp_bufC (c : Core) (j : Nat) (x : Op) : (c.setOp j x).bufC = c.bufC := rfl
@[simp] theorem setOp_badWord (c : Core) (j : Nat) (x : Op) : (c.setOp j x).badWord = c.badWord := rfl
@[simp] theorem setOp_tiles (c : Core) (j : Nat) (x : Op) : (c.setOp j x).tiles = c.tiles := rfl
@[simp] theorem setOp_watches (c : Core) (j : Nat) (x : Op) : (c.setOp j x).watches = c.watches := rfl
@[simp] theorem setOp_istore (c : Core) (j : Nat) (x : Op) : (c.setOp j x).istore = c.istore := rfl
@[simp] theorem setOp_ifill (c : Core) (j : Nat) (x : Op) : (c.setOp j x).ifill = c.ifill := rfl
@[simp] theorem setOp_ifault (c : Core) (j : Nat) (x : Op) : (c.setOp j x).ifault = c.ifault := rfl
@[simp] theorem setOp_gcache (c : Core) (j : Nat) (x : Op) : (c.setOp j x).gcache = c.gcache := rfl
@[simp] theorem setOp_darn (c : Core) (j : Nat) (x : Op) : (c.setOp j x).darn = c.darn := rfl
@[simp] theorem setOp_rseq (c : Core) (j : Nat) (x : Op) : (c.setOp j x).rseq = c.rseq := rfl
@[simp] theorem setOp_windows (c : Core) (j : Nat) (x : Op) : (c.setOp j x).windows = c.windows := rfl
@[simp] theorem setOp_wf (c : Core) (j : Nat) (x : Op) : (c.setOp j x).wf = c.wf := rfl
@[simp] theorem setOp_ws (c : Core) (j : Nat) (x : Op) : (c.setOp j x).ws = c.ws := rfl
@[simp] theorem setOp_matmode (c : Core) (j : Nat) (x : Op) : (c.setOp j x).matmode = c.matmode := rfl
@[simp] theorem setOp_matq (c : Core) (j : Nat) (x : Op) : (c.setOp j x).matq = c.matq := rfl
@[simp] theorem setOp_matIdle (c : Core) (j : Nat) (x : Op) : (c.setOp j x).matIdle = c.matIdle := rfl
@[simp] theorem setOp_matHold (c : Core) (j : Nat) (x : Op) : (c.setOp j x).matHold = c.matHold := rfl
@[simp] theorem setOp_owners (c : Core) (j : Nat) (x : Op) : (c.setOp j x).owners = c.owners := rfl
@[simp] theorem setOp_nextSer (c : Core) (j : Nat) (x : Op) : (c.setOp j x).nextSer = c.nextSer := rfl
@[simp] theorem setOp_slots (c : Core) (j : Nat) (x : Op) : (c.setOp j x).slots = c.slots := rfl
@[simp] theorem setOp_ready (c : Core) (j : Nat) (x : Op) : (c.setOp j x).ready = c.ready := rfl
@[simp] theorem setOp_rdyseq (c : Core) (j : Nat) (x : Op) : (c.setOp j x).rdyseq = c.rdyseq := rfl
@[simp] theorem setOp_resv (c : Core) (j : Nat) (x : Op) : (c.setOp j x).resv = c.resv := rfl
@[simp] theorem setOp_nframes (c : Core) (j : Nat) (x : Op) : (c.setOp j x).nframes = c.nframes := rfl
@[simp] theorem setOp_yframes (c : Core) (j : Nat) (x : Op) : (c.setOp j x).yframes = c.yframes := rfl
@[simp] theorem setOp_arrivals (c : Core) (j : Nat) (x : Op) : (c.setOp j x).arrivals = c.arrivals := rfl
@[simp] theorem setOp_waited (c : Core) (j : Nat) (x : Op) : (c.setOp j x).waited = c.waited := rfl
@[simp] theorem setOp_warm (c : Core) (j : Nat) (x : Op) : (c.setOp j x).warm = c.warm := rfl

/-! Core.dropOp -/

@[simp] theorem dropOp_regs (c : Core) (j : Nat) : (c.dropOp j).regs = c.regs := rfl
@[simp] theorem dropOp_running (c : Core) (j : Nat) : (c.dropOp j).running = c.running := rfl
@[simp] theorem dropOp_slot (c : Core) (j : Nat) : (c.dropOp j).slot = c.slot := rfl
@[simp] theorem dropOp_branch (c : Core) (j : Nat) : (c.dropOp j).branch = c.branch := rfl
@[simp] theorem dropOp_stallrem (c : Core) (j : Nat) : (c.dropOp j).stallrem = c.stallrem := rfl
@[simp] theorem dropOp_divrem (c : Core) (j : Nat) : (c.dropOp j).divrem = c.divrem := rfl
@[simp] theorem dropOp_frozen (c : Core) (j : Nat) : (c.dropOp j).frozen = c.frozen := rfl
@[simp] theorem dropOp_pend (c : Core) (j : Nat) : (c.dropOp j).pend = c.pend := rfl
@[simp] theorem dropOp_tcd (c : Core) (j : Nat) : (c.dropOp j).tcd = c.tcd := rfl
@[simp] theorem dropOp_ending (c : Core) (j : Nat) : (c.dropOp j).ending = c.ending := rfl
@[simp] theorem dropOp_fbuf (c : Core) (j : Nat) : (c.dropOp j).fbuf = c.fbuf := rfl
@[simp] theorem dropOp_fetchb (c : Core) (j : Nat) : (c.dropOp j).fetchb = c.fetchb := rfl
@[simp] theorem dropOp_fwm (c : Core) (j : Nat) : (c.dropOp j).fwm = c.fwm := rfl
@[simp] theorem dropOp_bankS (c : Core) (j : Nat) : (c.dropOp j).bankS = c.bankS := rfl
@[simp] theorem dropOp_bankTc (c : Core) (j : Nat) : (c.dropOp j).bankTc = c.bankTc := rfl
@[simp] theorem dropOp_savedStall (c : Core) (j : Nat) : (c.dropOp j).savedStall = c.savedStall := rfl
@[simp] theorem dropOp_savedDiv (c : Core) (j : Nat) : (c.dropOp j).savedDiv = c.savedDiv := rfl
@[simp] theorem dropOp_savedBranch (c : Core) (j : Nat) : (c.dropOp j).savedBranch = c.savedBranch := rfl
@[simp] theorem dropOp_savedFetchb (c : Core) (j : Nat) : (c.dropOp j).savedFetchb = c.savedFetchb := rfl
@[simp] theorem dropOp_lq (c : Core) (j : Nat) : (c.dropOp j).lq = c.lq := rfl
@[simp] theorem dropOp_heldVar (c : Core) (j : Nat) : (c.dropOp j).heldVar = c.heldVar := rfl
@[simp] theorem dropOp_faults (c : Core) (j : Nat) : (c.dropOp j).faults = c.faults := rfl
@[simp] theorem dropOp_hreq (c : Core) (j : Nat) : (c.dropOp j).hreq = c.hreq := rfl
@[simp] theorem dropOp_halt (c : Core) (j : Nat) : (c.dropOp j).halt = c.halt := rfl
@[simp] theorem dropOp_trapcause (c : Core) (j : Nat) : (c.dropOp j).trapcause = c.trapcause := rfl
@[simp] theorem dropOp_trappc (c : Core) (j : Nat) : (c.dropOp j).trappc = c.trappc := rfl
@[simp] theorem dropOp_trapval (c : Core) (j : Nat) : (c.dropOp j).trapval = c.trapval := rfl
@[simp] theorem dropOp_trapvec (c : Core) (j : Nat) : (c.dropOp j).trapvec = c.trapvec := rfl
@[simp] theorem dropOp_wdlim (c : Core) (j : Nat) : (c.dropOp j).wdlim = c.wdlim := rfl
@[simp] theorem dropOp_dbgen (c : Core) (j : Nat) : (c.dropOp j).dbgen = c.dbgen := rfl
@[simp] theorem dropOp_stagger (c : Core) (j : Nat) : (c.dropOp j).stagger = c.stagger := rfl
@[simp] theorem dropOp_wdFrozen (c : Core) (j : Nat) : (c.dropOp j).wdFrozen = c.wdFrozen := rfl
@[simp] theorem dropOp_wdHeld (c : Core) (j : Nat) : (c.dropOp j).wdHeld = c.wdHeld := rfl
@[simp] theorem dropOp_wdWhy (c : Core) (j : Nat) : (c.dropOp j).wdWhy = c.wdWhy := rfl
@[simp] theorem dropOp_cycle (c : Core) (j : Nat) : (c.dropOp j).cycle = c.cycle := rfl
@[simp] theorem dropOp_region (c : Core) (j : Nat) : (c.dropOp j).region = c.region := rfl
@[simp] theorem dropOp_ncore (c : Core) (j : Nat) : (c.dropOp j).ncore = c.ncore := rfl
@[simp] theorem dropOp_regw (c : Core) (j : Nat) : (c.dropOp j).regw = c.regw := rfl
@[simp] theorem dropOp_regh (c : Core) (j : Nat) : (c.dropOp j).regh = c.regh := rfl
@[simp] theorem dropOp_detmode (c : Core) (j : Nat) : (c.dropOp j).detmode = c.detmode := rfl
@[simp] theorem dropOp_netw (c : Core) (j : Nat) : (c.dropOp j).netw = c.netw := rfl
@[simp] theorem dropOp_round (c : Core) (j : Nat) : (c.dropOp j).round = c.round := rfl
@[simp] theorem dropOp_lrskip (c : Core) (j : Nat) : (c.dropOp j).lrskip = c.lrskip := rfl
@[simp] theorem dropOp_exphist (c : Core) (j : Nat) : (c.dropOp j).exphist = c.exphist := rfl
@[simp] theorem dropOp_stampCyc (c : Core) (j : Nat) : (c.dropOp j).stampCyc = c.stampCyc := rfl
@[simp] theorem dropOp_delstale (c : Core) (j : Nat) : (c.dropOp j).delstale = c.delstale := rfl
@[simp] theorem dropOp_owed (c : Core) (j : Nat) : (c.dropOp j).owed = c.owed := rfl
@[simp] theorem dropOp_bufW (c : Core) (j : Nat) : (c.dropOp j).bufW = c.bufW := rfl
@[simp] theorem dropOp_bufA (c : Core) (j : Nat) : (c.dropOp j).bufA = c.bufA := rfl
@[simp] theorem dropOp_bufC (c : Core) (j : Nat) : (c.dropOp j).bufC = c.bufC := rfl
@[simp] theorem dropOp_badWord (c : Core) (j : Nat) : (c.dropOp j).badWord = c.badWord := rfl
@[simp] theorem dropOp_tiles (c : Core) (j : Nat) : (c.dropOp j).tiles = c.tiles := rfl
@[simp] theorem dropOp_watches (c : Core) (j : Nat) : (c.dropOp j).watches = c.watches := rfl
@[simp] theorem dropOp_istore (c : Core) (j : Nat) : (c.dropOp j).istore = c.istore := rfl
@[simp] theorem dropOp_ifill (c : Core) (j : Nat) : (c.dropOp j).ifill = c.ifill := rfl
@[simp] theorem dropOp_ifault (c : Core) (j : Nat) : (c.dropOp j).ifault = c.ifault := rfl
@[simp] theorem dropOp_gcache (c : Core) (j : Nat) : (c.dropOp j).gcache = c.gcache := rfl
@[simp] theorem dropOp_darn (c : Core) (j : Nat) : (c.dropOp j).darn = c.darn := rfl
@[simp] theorem dropOp_rseq (c : Core) (j : Nat) : (c.dropOp j).rseq = c.rseq := rfl
@[simp] theorem dropOp_windows (c : Core) (j : Nat) : (c.dropOp j).windows = c.windows := rfl
@[simp] theorem dropOp_wf (c : Core) (j : Nat) : (c.dropOp j).wf = c.wf := rfl
@[simp] theorem dropOp_ws (c : Core) (j : Nat) : (c.dropOp j).ws = c.ws := rfl
@[simp] theorem dropOp_matmode (c : Core) (j : Nat) : (c.dropOp j).matmode = c.matmode := rfl
@[simp] theorem dropOp_matq (c : Core) (j : Nat) : (c.dropOp j).matq = c.matq := rfl
@[simp] theorem dropOp_matIdle (c : Core) (j : Nat) : (c.dropOp j).matIdle = c.matIdle := rfl
@[simp] theorem dropOp_matHold (c : Core) (j : Nat) : (c.dropOp j).matHold = c.matHold := rfl
@[simp] theorem dropOp_owners (c : Core) (j : Nat) : (c.dropOp j).owners = c.owners := rfl
@[simp] theorem dropOp_nextSer (c : Core) (j : Nat) : (c.dropOp j).nextSer = c.nextSer := rfl
@[simp] theorem dropOp_slots (c : Core) (j : Nat) : (c.dropOp j).slots = c.slots := rfl
@[simp] theorem dropOp_ready (c : Core) (j : Nat) : (c.dropOp j).ready = c.ready := rfl
@[simp] theorem dropOp_rdyseq (c : Core) (j : Nat) : (c.dropOp j).rdyseq = c.rdyseq := rfl
@[simp] theorem dropOp_resv (c : Core) (j : Nat) : (c.dropOp j).resv = c.resv := rfl
@[simp] theorem dropOp_nframes (c : Core) (j : Nat) : (c.dropOp j).nframes = c.nframes := rfl
@[simp] theorem dropOp_yframes (c : Core) (j : Nat) : (c.dropOp j).yframes = c.yframes := rfl
@[simp] theorem dropOp_arrivals (c : Core) (j : Nat) : (c.dropOp j).arrivals = c.arrivals := rfl
@[simp] theorem dropOp_waited (c : Core) (j : Nat) : (c.dropOp j).waited = c.waited := rfl
@[simp] theorem dropOp_warm (c : Core) (j : Nat) : (c.dropOp j).warm = c.warm := rfl

/-! Core.addOp -/

@[simp] theorem coreAddOp_regs (c : Core) (x : Op) : (c.addOp x).regs = c.regs := rfl
@[simp] theorem coreAddOp_running (c : Core) (x : Op) : (c.addOp x).running = c.running := rfl
@[simp] theorem coreAddOp_slot (c : Core) (x : Op) : (c.addOp x).slot = c.slot := rfl
@[simp] theorem coreAddOp_branch (c : Core) (x : Op) : (c.addOp x).branch = c.branch := rfl
@[simp] theorem coreAddOp_stallrem (c : Core) (x : Op) : (c.addOp x).stallrem = c.stallrem := rfl
@[simp] theorem coreAddOp_divrem (c : Core) (x : Op) : (c.addOp x).divrem = c.divrem := rfl
@[simp] theorem coreAddOp_frozen (c : Core) (x : Op) : (c.addOp x).frozen = c.frozen := rfl
@[simp] theorem coreAddOp_pend (c : Core) (x : Op) : (c.addOp x).pend = c.pend := rfl
@[simp] theorem coreAddOp_tcd (c : Core) (x : Op) : (c.addOp x).tcd = c.tcd := rfl
@[simp] theorem coreAddOp_ending (c : Core) (x : Op) : (c.addOp x).ending = c.ending := rfl
@[simp] theorem coreAddOp_fbuf (c : Core) (x : Op) : (c.addOp x).fbuf = c.fbuf := rfl
@[simp] theorem coreAddOp_fetchb (c : Core) (x : Op) : (c.addOp x).fetchb = c.fetchb := rfl
@[simp] theorem coreAddOp_fwm (c : Core) (x : Op) : (c.addOp x).fwm = c.fwm := rfl
@[simp] theorem coreAddOp_bankS (c : Core) (x : Op) : (c.addOp x).bankS = c.bankS := rfl
@[simp] theorem coreAddOp_bankTc (c : Core) (x : Op) : (c.addOp x).bankTc = c.bankTc := rfl
@[simp] theorem coreAddOp_savedStall (c : Core) (x : Op) : (c.addOp x).savedStall = c.savedStall := rfl
@[simp] theorem coreAddOp_savedDiv (c : Core) (x : Op) : (c.addOp x).savedDiv = c.savedDiv := rfl
@[simp] theorem coreAddOp_savedBranch (c : Core) (x : Op) : (c.addOp x).savedBranch = c.savedBranch := rfl
@[simp] theorem coreAddOp_savedFetchb (c : Core) (x : Op) : (c.addOp x).savedFetchb = c.savedFetchb := rfl
@[simp] theorem coreAddOp_lq (c : Core) (x : Op) : (c.addOp x).lq = c.lq := rfl
@[simp] theorem coreAddOp_heldVar (c : Core) (x : Op) : (c.addOp x).heldVar = c.heldVar := rfl
@[simp] theorem coreAddOp_faults (c : Core) (x : Op) : (c.addOp x).faults = c.faults := rfl
@[simp] theorem coreAddOp_hreq (c : Core) (x : Op) : (c.addOp x).hreq = c.hreq := rfl
@[simp] theorem coreAddOp_halt (c : Core) (x : Op) : (c.addOp x).halt = c.halt := rfl
@[simp] theorem coreAddOp_trapcause (c : Core) (x : Op) : (c.addOp x).trapcause = c.trapcause := rfl
@[simp] theorem coreAddOp_trappc (c : Core) (x : Op) : (c.addOp x).trappc = c.trappc := rfl
@[simp] theorem coreAddOp_trapval (c : Core) (x : Op) : (c.addOp x).trapval = c.trapval := rfl
@[simp] theorem coreAddOp_trapvec (c : Core) (x : Op) : (c.addOp x).trapvec = c.trapvec := rfl
@[simp] theorem coreAddOp_wdlim (c : Core) (x : Op) : (c.addOp x).wdlim = c.wdlim := rfl
@[simp] theorem coreAddOp_dbgen (c : Core) (x : Op) : (c.addOp x).dbgen = c.dbgen := rfl
@[simp] theorem coreAddOp_stagger (c : Core) (x : Op) : (c.addOp x).stagger = c.stagger := rfl
@[simp] theorem coreAddOp_wdFrozen (c : Core) (x : Op) : (c.addOp x).wdFrozen = c.wdFrozen := rfl
@[simp] theorem coreAddOp_wdHeld (c : Core) (x : Op) : (c.addOp x).wdHeld = c.wdHeld := rfl
@[simp] theorem coreAddOp_wdWhy (c : Core) (x : Op) : (c.addOp x).wdWhy = c.wdWhy := rfl
@[simp] theorem coreAddOp_cycle (c : Core) (x : Op) : (c.addOp x).cycle = c.cycle := rfl
@[simp] theorem coreAddOp_region (c : Core) (x : Op) : (c.addOp x).region = c.region := rfl
@[simp] theorem coreAddOp_ncore (c : Core) (x : Op) : (c.addOp x).ncore = c.ncore := rfl
@[simp] theorem coreAddOp_regw (c : Core) (x : Op) : (c.addOp x).regw = c.regw := rfl
@[simp] theorem coreAddOp_regh (c : Core) (x : Op) : (c.addOp x).regh = c.regh := rfl
@[simp] theorem coreAddOp_detmode (c : Core) (x : Op) : (c.addOp x).detmode = c.detmode := rfl
@[simp] theorem coreAddOp_netw (c : Core) (x : Op) : (c.addOp x).netw = c.netw := rfl
@[simp] theorem coreAddOp_round (c : Core) (x : Op) : (c.addOp x).round = c.round := rfl
@[simp] theorem coreAddOp_lrskip (c : Core) (x : Op) : (c.addOp x).lrskip = c.lrskip := rfl
@[simp] theorem coreAddOp_exphist (c : Core) (x : Op) : (c.addOp x).exphist = c.exphist := rfl
@[simp] theorem coreAddOp_stampCyc (c : Core) (x : Op) : (c.addOp x).stampCyc = c.stampCyc := rfl
@[simp] theorem coreAddOp_delstale (c : Core) (x : Op) : (c.addOp x).delstale = c.delstale := rfl
@[simp] theorem coreAddOp_owed (c : Core) (x : Op) : (c.addOp x).owed = c.owed := rfl
@[simp] theorem coreAddOp_bufW (c : Core) (x : Op) : (c.addOp x).bufW = c.bufW := rfl
@[simp] theorem coreAddOp_bufA (c : Core) (x : Op) : (c.addOp x).bufA = c.bufA := rfl
@[simp] theorem coreAddOp_bufC (c : Core) (x : Op) : (c.addOp x).bufC = c.bufC := rfl
@[simp] theorem coreAddOp_badWord (c : Core) (x : Op) : (c.addOp x).badWord = c.badWord := rfl
@[simp] theorem coreAddOp_tiles (c : Core) (x : Op) : (c.addOp x).tiles = c.tiles := rfl
@[simp] theorem coreAddOp_watches (c : Core) (x : Op) : (c.addOp x).watches = c.watches := rfl
@[simp] theorem coreAddOp_istore (c : Core) (x : Op) : (c.addOp x).istore = c.istore := rfl
@[simp] theorem coreAddOp_ifill (c : Core) (x : Op) : (c.addOp x).ifill = c.ifill := rfl
@[simp] theorem coreAddOp_ifault (c : Core) (x : Op) : (c.addOp x).ifault = c.ifault := rfl
@[simp] theorem coreAddOp_gcache (c : Core) (x : Op) : (c.addOp x).gcache = c.gcache := rfl
@[simp] theorem coreAddOp_darn (c : Core) (x : Op) : (c.addOp x).darn = c.darn := rfl
@[simp] theorem coreAddOp_rseq (c : Core) (x : Op) : (c.addOp x).rseq = c.rseq := rfl
@[simp] theorem coreAddOp_windows (c : Core) (x : Op) : (c.addOp x).windows = c.windows := rfl
@[simp] theorem coreAddOp_wf (c : Core) (x : Op) : (c.addOp x).wf = c.wf := rfl
@[simp] theorem coreAddOp_ws (c : Core) (x : Op) : (c.addOp x).ws = c.ws := rfl
@[simp] theorem coreAddOp_matmode (c : Core) (x : Op) : (c.addOp x).matmode = c.matmode := rfl
@[simp] theorem coreAddOp_matq (c : Core) (x : Op) : (c.addOp x).matq = c.matq := rfl
@[simp] theorem coreAddOp_matIdle (c : Core) (x : Op) : (c.addOp x).matIdle = c.matIdle := rfl
@[simp] theorem coreAddOp_matHold (c : Core) (x : Op) : (c.addOp x).matHold = c.matHold := rfl
@[simp] theorem coreAddOp_owners (c : Core) (x : Op) : (c.addOp x).owners = c.owners := rfl
@[simp] theorem coreAddOp_slots (c : Core) (x : Op) : (c.addOp x).slots = c.slots := rfl
@[simp] theorem coreAddOp_ready (c : Core) (x : Op) : (c.addOp x).ready = c.ready := rfl
@[simp] theorem coreAddOp_rdyseq (c : Core) (x : Op) : (c.addOp x).rdyseq = c.rdyseq := rfl
@[simp] theorem coreAddOp_resv (c : Core) (x : Op) : (c.addOp x).resv = c.resv := rfl
@[simp] theorem coreAddOp_nframes (c : Core) (x : Op) : (c.addOp x).nframes = c.nframes := rfl
@[simp] theorem coreAddOp_yframes (c : Core) (x : Op) : (c.addOp x).yframes = c.yframes := rfl
@[simp] theorem coreAddOp_arrivals (c : Core) (x : Op) : (c.addOp x).arrivals = c.arrivals := rfl
@[simp] theorem coreAddOp_waited (c : Core) (x : Op) : (c.addOp x).waited = c.waited := rfl
@[simp] theorem coreAddOp_warm (c : Core) (x : Op) : (c.addOp x).warm = c.warm := rfl

/-! Core.setGline -/

@[simp] theorem setGline_regs (c : Core) (l : Nat) (g : GLine) : (c.setGline l g).regs = c.regs := rfl
@[simp] theorem setGline_running (c : Core) (l : Nat) (g : GLine) : (c.setGline l g).running = c.running := rfl
@[simp] theorem setGline_slot (c : Core) (l : Nat) (g : GLine) : (c.setGline l g).slot = c.slot := rfl
@[simp] theorem setGline_branch (c : Core) (l : Nat) (g : GLine) : (c.setGline l g).branch = c.branch := rfl
@[simp] theorem setGline_stallrem (c : Core) (l : Nat) (g : GLine) : (c.setGline l g).stallrem = c.stallrem := rfl
@[simp] theorem setGline_divrem (c : Core) (l : Nat) (g : GLine) : (c.setGline l g).divrem = c.divrem := rfl
@[simp] theorem setGline_frozen (c : Core) (l : Nat) (g : GLine) : (c.setGline l g).frozen = c.frozen := rfl
@[simp] theorem setGline_pend (c : Core) (l : Nat) (g : GLine) : (c.setGline l g).pend = c.pend := rfl
@[simp] theorem setGline_tcd (c : Core) (l : Nat) (g : GLine) : (c.setGline l g).tcd = c.tcd := rfl
@[simp] theorem setGline_ending (c : Core) (l : Nat) (g : GLine) : (c.setGline l g).ending = c.ending := rfl
@[simp] theorem setGline_fbuf (c : Core) (l : Nat) (g : GLine) : (c.setGline l g).fbuf = c.fbuf := rfl
@[simp] theorem setGline_fetchb (c : Core) (l : Nat) (g : GLine) : (c.setGline l g).fetchb = c.fetchb := rfl
@[simp] theorem setGline_fwm (c : Core) (l : Nat) (g : GLine) : (c.setGline l g).fwm = c.fwm := rfl
@[simp] theorem setGline_bankS (c : Core) (l : Nat) (g : GLine) : (c.setGline l g).bankS = c.bankS := rfl
@[simp] theorem setGline_bankTc (c : Core) (l : Nat) (g : GLine) : (c.setGline l g).bankTc = c.bankTc := rfl
@[simp] theorem setGline_savedStall (c : Core) (l : Nat) (g : GLine) : (c.setGline l g).savedStall = c.savedStall := rfl
@[simp] theorem setGline_savedDiv (c : Core) (l : Nat) (g : GLine) : (c.setGline l g).savedDiv = c.savedDiv := rfl
@[simp] theorem setGline_savedBranch (c : Core) (l : Nat) (g : GLine) : (c.setGline l g).savedBranch = c.savedBranch := rfl
@[simp] theorem setGline_savedFetchb (c : Core) (l : Nat) (g : GLine) : (c.setGline l g).savedFetchb = c.savedFetchb := rfl
@[simp] theorem setGline_lq (c : Core) (l : Nat) (g : GLine) : (c.setGline l g).lq = c.lq := rfl
@[simp] theorem setGline_heldVar (c : Core) (l : Nat) (g : GLine) : (c.setGline l g).heldVar = c.heldVar := rfl
@[simp] theorem setGline_faults (c : Core) (l : Nat) (g : GLine) : (c.setGline l g).faults = c.faults := rfl
@[simp] theorem setGline_hreq (c : Core) (l : Nat) (g : GLine) : (c.setGline l g).hreq = c.hreq := rfl
@[simp] theorem setGline_halt (c : Core) (l : Nat) (g : GLine) : (c.setGline l g).halt = c.halt := rfl
@[simp] theorem setGline_trapcause (c : Core) (l : Nat) (g : GLine) : (c.setGline l g).trapcause = c.trapcause := rfl
@[simp] theorem setGline_trappc (c : Core) (l : Nat) (g : GLine) : (c.setGline l g).trappc = c.trappc := rfl
@[simp] theorem setGline_trapval (c : Core) (l : Nat) (g : GLine) : (c.setGline l g).trapval = c.trapval := rfl
@[simp] theorem setGline_trapvec (c : Core) (l : Nat) (g : GLine) : (c.setGline l g).trapvec = c.trapvec := rfl
@[simp] theorem setGline_wdlim (c : Core) (l : Nat) (g : GLine) : (c.setGline l g).wdlim = c.wdlim := rfl
@[simp] theorem setGline_dbgen (c : Core) (l : Nat) (g : GLine) : (c.setGline l g).dbgen = c.dbgen := rfl
@[simp] theorem setGline_stagger (c : Core) (l : Nat) (g : GLine) : (c.setGline l g).stagger = c.stagger := rfl
@[simp] theorem setGline_wdFrozen (c : Core) (l : Nat) (g : GLine) : (c.setGline l g).wdFrozen = c.wdFrozen := rfl
@[simp] theorem setGline_wdHeld (c : Core) (l : Nat) (g : GLine) : (c.setGline l g).wdHeld = c.wdHeld := rfl
@[simp] theorem setGline_wdWhy (c : Core) (l : Nat) (g : GLine) : (c.setGline l g).wdWhy = c.wdWhy := rfl
@[simp] theorem setGline_cycle (c : Core) (l : Nat) (g : GLine) : (c.setGline l g).cycle = c.cycle := rfl
@[simp] theorem setGline_region (c : Core) (l : Nat) (g : GLine) : (c.setGline l g).region = c.region := rfl
@[simp] theorem setGline_ncore (c : Core) (l : Nat) (g : GLine) : (c.setGline l g).ncore = c.ncore := rfl
@[simp] theorem setGline_regw (c : Core) (l : Nat) (g : GLine) : (c.setGline l g).regw = c.regw := rfl
@[simp] theorem setGline_regh (c : Core) (l : Nat) (g : GLine) : (c.setGline l g).regh = c.regh := rfl
@[simp] theorem setGline_detmode (c : Core) (l : Nat) (g : GLine) : (c.setGline l g).detmode = c.detmode := rfl
@[simp] theorem setGline_netw (c : Core) (l : Nat) (g : GLine) : (c.setGline l g).netw = c.netw := rfl
@[simp] theorem setGline_round (c : Core) (l : Nat) (g : GLine) : (c.setGline l g).round = c.round := rfl
@[simp] theorem setGline_lrskip (c : Core) (l : Nat) (g : GLine) : (c.setGline l g).lrskip = c.lrskip := rfl
@[simp] theorem setGline_exphist (c : Core) (l : Nat) (g : GLine) : (c.setGline l g).exphist = c.exphist := rfl
@[simp] theorem setGline_stampCyc (c : Core) (l : Nat) (g : GLine) : (c.setGline l g).stampCyc = c.stampCyc := rfl
@[simp] theorem setGline_delstale (c : Core) (l : Nat) (g : GLine) : (c.setGline l g).delstale = c.delstale := rfl
@[simp] theorem setGline_owed (c : Core) (l : Nat) (g : GLine) : (c.setGline l g).owed = c.owed := rfl
@[simp] theorem setGline_bufW (c : Core) (l : Nat) (g : GLine) : (c.setGline l g).bufW = c.bufW := rfl
@[simp] theorem setGline_bufA (c : Core) (l : Nat) (g : GLine) : (c.setGline l g).bufA = c.bufA := rfl
@[simp] theorem setGline_bufC (c : Core) (l : Nat) (g : GLine) : (c.setGline l g).bufC = c.bufC := rfl
@[simp] theorem setGline_badWord (c : Core) (l : Nat) (g : GLine) : (c.setGline l g).badWord = c.badWord := rfl
@[simp] theorem setGline_tiles (c : Core) (l : Nat) (g : GLine) : (c.setGline l g).tiles = c.tiles := rfl
@[simp] theorem setGline_watches (c : Core) (l : Nat) (g : GLine) : (c.setGline l g).watches = c.watches := rfl
@[simp] theorem setGline_istore (c : Core) (l : Nat) (g : GLine) : (c.setGline l g).istore = c.istore := rfl
@[simp] theorem setGline_ifill (c : Core) (l : Nat) (g : GLine) : (c.setGline l g).ifill = c.ifill := rfl
@[simp] theorem setGline_ifault (c : Core) (l : Nat) (g : GLine) : (c.setGline l g).ifault = c.ifault := rfl
@[simp] theorem setGline_darn (c : Core) (l : Nat) (g : GLine) : (c.setGline l g).darn = c.darn := rfl
@[simp] theorem setGline_rseq (c : Core) (l : Nat) (g : GLine) : (c.setGline l g).rseq = c.rseq := rfl
@[simp] theorem setGline_windows (c : Core) (l : Nat) (g : GLine) : (c.setGline l g).windows = c.windows := rfl
@[simp] theorem setGline_wf (c : Core) (l : Nat) (g : GLine) : (c.setGline l g).wf = c.wf := rfl
@[simp] theorem setGline_ws (c : Core) (l : Nat) (g : GLine) : (c.setGline l g).ws = c.ws := rfl
@[simp] theorem setGline_matmode (c : Core) (l : Nat) (g : GLine) : (c.setGline l g).matmode = c.matmode := rfl
@[simp] theorem setGline_matq (c : Core) (l : Nat) (g : GLine) : (c.setGline l g).matq = c.matq := rfl
@[simp] theorem setGline_matIdle (c : Core) (l : Nat) (g : GLine) : (c.setGline l g).matIdle = c.matIdle := rfl
@[simp] theorem setGline_matHold (c : Core) (l : Nat) (g : GLine) : (c.setGline l g).matHold = c.matHold := rfl
@[simp] theorem setGline_owners (c : Core) (l : Nat) (g : GLine) : (c.setGline l g).owners = c.owners := rfl
@[simp] theorem setGline_ops (c : Core) (l : Nat) (g : GLine) : (c.setGline l g).ops = c.ops := rfl
@[simp] theorem setGline_nextSer (c : Core) (l : Nat) (g : GLine) : (c.setGline l g).nextSer = c.nextSer := rfl
@[simp] theorem setGline_slots (c : Core) (l : Nat) (g : GLine) : (c.setGline l g).slots = c.slots := rfl
@[simp] theorem setGline_ready (c : Core) (l : Nat) (g : GLine) : (c.setGline l g).ready = c.ready := rfl
@[simp] theorem setGline_rdyseq (c : Core) (l : Nat) (g : GLine) : (c.setGline l g).rdyseq = c.rdyseq := rfl
@[simp] theorem setGline_resv (c : Core) (l : Nat) (g : GLine) : (c.setGline l g).resv = c.resv := rfl
@[simp] theorem setGline_nframes (c : Core) (l : Nat) (g : GLine) : (c.setGline l g).nframes = c.nframes := rfl
@[simp] theorem setGline_yframes (c : Core) (l : Nat) (g : GLine) : (c.setGline l g).yframes = c.yframes := rfl
@[simp] theorem setGline_arrivals (c : Core) (l : Nat) (g : GLine) : (c.setGline l g).arrivals = c.arrivals := rfl
@[simp] theorem setGline_waited (c : Core) (l : Nat) (g : GLine) : (c.setGline l g).waited = c.waited := rfl
@[simp] theorem setGline_warm (c : Core) (l : Nat) (g : GLine) : (c.setGline l g).warm = c.warm := rfl

/-! Core.orFlags -/

@[simp] theorem orFlags_running (c : Core) (f : Flags) : (c.orFlags f).running = c.running := rfl
@[simp] theorem orFlags_slot (c : Core) (f : Flags) : (c.orFlags f).slot = c.slot := rfl
@[simp] theorem orFlags_branch (c : Core) (f : Flags) : (c.orFlags f).branch = c.branch := rfl
@[simp] theorem orFlags_stallrem (c : Core) (f : Flags) : (c.orFlags f).stallrem = c.stallrem := rfl
@[simp] theorem orFlags_divrem (c : Core) (f : Flags) : (c.orFlags f).divrem = c.divrem := rfl
@[simp] theorem orFlags_frozen (c : Core) (f : Flags) : (c.orFlags f).frozen = c.frozen := rfl
@[simp] theorem orFlags_pend (c : Core) (f : Flags) : (c.orFlags f).pend = c.pend := rfl
@[simp] theorem orFlags_tcd (c : Core) (f : Flags) : (c.orFlags f).tcd = c.tcd := rfl
@[simp] theorem orFlags_ending (c : Core) (f : Flags) : (c.orFlags f).ending = c.ending := rfl
@[simp] theorem orFlags_fbuf (c : Core) (f : Flags) : (c.orFlags f).fbuf = c.fbuf := rfl
@[simp] theorem orFlags_fetchb (c : Core) (f : Flags) : (c.orFlags f).fetchb = c.fetchb := rfl
@[simp] theorem orFlags_fwm (c : Core) (f : Flags) : (c.orFlags f).fwm = c.fwm := rfl
@[simp] theorem orFlags_bankS (c : Core) (f : Flags) : (c.orFlags f).bankS = c.bankS := rfl
@[simp] theorem orFlags_bankTc (c : Core) (f : Flags) : (c.orFlags f).bankTc = c.bankTc := rfl
@[simp] theorem orFlags_savedStall (c : Core) (f : Flags) : (c.orFlags f).savedStall = c.savedStall := rfl
@[simp] theorem orFlags_savedDiv (c : Core) (f : Flags) : (c.orFlags f).savedDiv = c.savedDiv := rfl
@[simp] theorem orFlags_savedBranch (c : Core) (f : Flags) : (c.orFlags f).savedBranch = c.savedBranch := rfl
@[simp] theorem orFlags_savedFetchb (c : Core) (f : Flags) : (c.orFlags f).savedFetchb = c.savedFetchb := rfl
@[simp] theorem orFlags_lq (c : Core) (f : Flags) : (c.orFlags f).lq = c.lq := rfl
@[simp] theorem orFlags_heldVar (c : Core) (f : Flags) : (c.orFlags f).heldVar = c.heldVar := rfl
@[simp] theorem orFlags_faults (c : Core) (f : Flags) : (c.orFlags f).faults = c.faults := rfl
@[simp] theorem orFlags_hreq (c : Core) (f : Flags) : (c.orFlags f).hreq = c.hreq := rfl
@[simp] theorem orFlags_halt (c : Core) (f : Flags) : (c.orFlags f).halt = c.halt := rfl
@[simp] theorem orFlags_trapcause (c : Core) (f : Flags) : (c.orFlags f).trapcause = c.trapcause := rfl
@[simp] theorem orFlags_trappc (c : Core) (f : Flags) : (c.orFlags f).trappc = c.trappc := rfl
@[simp] theorem orFlags_trapval (c : Core) (f : Flags) : (c.orFlags f).trapval = c.trapval := rfl
@[simp] theorem orFlags_trapvec (c : Core) (f : Flags) : (c.orFlags f).trapvec = c.trapvec := rfl
@[simp] theorem orFlags_wdlim (c : Core) (f : Flags) : (c.orFlags f).wdlim = c.wdlim := rfl
@[simp] theorem orFlags_dbgen (c : Core) (f : Flags) : (c.orFlags f).dbgen = c.dbgen := rfl
@[simp] theorem orFlags_stagger (c : Core) (f : Flags) : (c.orFlags f).stagger = c.stagger := rfl
@[simp] theorem orFlags_wdFrozen (c : Core) (f : Flags) : (c.orFlags f).wdFrozen = c.wdFrozen := rfl
@[simp] theorem orFlags_wdHeld (c : Core) (f : Flags) : (c.orFlags f).wdHeld = c.wdHeld := rfl
@[simp] theorem orFlags_wdWhy (c : Core) (f : Flags) : (c.orFlags f).wdWhy = c.wdWhy := rfl
@[simp] theorem orFlags_cycle (c : Core) (f : Flags) : (c.orFlags f).cycle = c.cycle := rfl
@[simp] theorem orFlags_region (c : Core) (f : Flags) : (c.orFlags f).region = c.region := rfl
@[simp] theorem orFlags_ncore (c : Core) (f : Flags) : (c.orFlags f).ncore = c.ncore := rfl
@[simp] theorem orFlags_regw (c : Core) (f : Flags) : (c.orFlags f).regw = c.regw := rfl
@[simp] theorem orFlags_regh (c : Core) (f : Flags) : (c.orFlags f).regh = c.regh := rfl
@[simp] theorem orFlags_detmode (c : Core) (f : Flags) : (c.orFlags f).detmode = c.detmode := rfl
@[simp] theorem orFlags_netw (c : Core) (f : Flags) : (c.orFlags f).netw = c.netw := rfl
@[simp] theorem orFlags_round (c : Core) (f : Flags) : (c.orFlags f).round = c.round := rfl
@[simp] theorem orFlags_lrskip (c : Core) (f : Flags) : (c.orFlags f).lrskip = c.lrskip := rfl
@[simp] theorem orFlags_exphist (c : Core) (f : Flags) : (c.orFlags f).exphist = c.exphist := rfl
@[simp] theorem orFlags_stampCyc (c : Core) (f : Flags) : (c.orFlags f).stampCyc = c.stampCyc := rfl
@[simp] theorem orFlags_delstale (c : Core) (f : Flags) : (c.orFlags f).delstale = c.delstale := rfl
@[simp] theorem orFlags_owed (c : Core) (f : Flags) : (c.orFlags f).owed = c.owed := rfl
@[simp] theorem orFlags_bufW (c : Core) (f : Flags) : (c.orFlags f).bufW = c.bufW := rfl
@[simp] theorem orFlags_bufA (c : Core) (f : Flags) : (c.orFlags f).bufA = c.bufA := rfl
@[simp] theorem orFlags_bufC (c : Core) (f : Flags) : (c.orFlags f).bufC = c.bufC := rfl
@[simp] theorem orFlags_badWord (c : Core) (f : Flags) : (c.orFlags f).badWord = c.badWord := rfl
@[simp] theorem orFlags_tiles (c : Core) (f : Flags) : (c.orFlags f).tiles = c.tiles := rfl
@[simp] theorem orFlags_watches (c : Core) (f : Flags) : (c.orFlags f).watches = c.watches := rfl
@[simp] theorem orFlags_istore (c : Core) (f : Flags) : (c.orFlags f).istore = c.istore := rfl
@[simp] theorem orFlags_ifill (c : Core) (f : Flags) : (c.orFlags f).ifill = c.ifill := rfl
@[simp] theorem orFlags_ifault (c : Core) (f : Flags) : (c.orFlags f).ifault = c.ifault := rfl
@[simp] theorem orFlags_gcache (c : Core) (f : Flags) : (c.orFlags f).gcache = c.gcache := rfl
@[simp] theorem orFlags_darn (c : Core) (f : Flags) : (c.orFlags f).darn = c.darn := rfl
@[simp] theorem orFlags_rseq (c : Core) (f : Flags) : (c.orFlags f).rseq = c.rseq := rfl
@[simp] theorem orFlags_windows (c : Core) (f : Flags) : (c.orFlags f).windows = c.windows := rfl
@[simp] theorem orFlags_wf (c : Core) (f : Flags) : (c.orFlags f).wf = c.wf := rfl
@[simp] theorem orFlags_ws (c : Core) (f : Flags) : (c.orFlags f).ws = c.ws := rfl
@[simp] theorem orFlags_matmode (c : Core) (f : Flags) : (c.orFlags f).matmode = c.matmode := rfl
@[simp] theorem orFlags_matq (c : Core) (f : Flags) : (c.orFlags f).matq = c.matq := rfl
@[simp] theorem orFlags_matIdle (c : Core) (f : Flags) : (c.orFlags f).matIdle = c.matIdle := rfl
@[simp] theorem orFlags_matHold (c : Core) (f : Flags) : (c.orFlags f).matHold = c.matHold := rfl
@[simp] theorem orFlags_owners (c : Core) (f : Flags) : (c.orFlags f).owners = c.owners := rfl
@[simp] theorem orFlags_ops (c : Core) (f : Flags) : (c.orFlags f).ops = c.ops := rfl
@[simp] theorem orFlags_nextSer (c : Core) (f : Flags) : (c.orFlags f).nextSer = c.nextSer := rfl
@[simp] theorem orFlags_slots (c : Core) (f : Flags) : (c.orFlags f).slots = c.slots := rfl
@[simp] theorem orFlags_ready (c : Core) (f : Flags) : (c.orFlags f).ready = c.ready := rfl
@[simp] theorem orFlags_rdyseq (c : Core) (f : Flags) : (c.orFlags f).rdyseq = c.rdyseq := rfl
@[simp] theorem orFlags_resv (c : Core) (f : Flags) : (c.orFlags f).resv = c.resv := rfl
@[simp] theorem orFlags_nframes (c : Core) (f : Flags) : (c.orFlags f).nframes = c.nframes := rfl
@[simp] theorem orFlags_yframes (c : Core) (f : Flags) : (c.orFlags f).yframes = c.yframes := rfl
@[simp] theorem orFlags_arrivals (c : Core) (f : Flags) : (c.orFlags f).arrivals = c.arrivals := rfl
@[simp] theorem orFlags_waited (c : Core) (f : Flags) : (c.orFlags f).waited = c.waited := rfl
@[simp] theorem orFlags_warm (c : Core) (f : Flags) : (c.orFlags f).warm = c.warm := rfl

/-! Core.addTc -/

@[simp] theorem addTc_regs (c : Core) (i : BitVec 4) (d : Int) : (c.addTc i d).regs = c.regs := by unfold Core.addTc; split <;> rfl
@[simp] theorem addTc_running (c : Core) (i : BitVec 4) (d : Int) : (c.addTc i d).running = c.running := by unfold Core.addTc; split <;> rfl
@[simp] theorem addTc_slot (c : Core) (i : BitVec 4) (d : Int) : (c.addTc i d).slot = c.slot := by unfold Core.addTc; split <;> rfl
@[simp] theorem addTc_branch (c : Core) (i : BitVec 4) (d : Int) : (c.addTc i d).branch = c.branch := by unfold Core.addTc; split <;> rfl
@[simp] theorem addTc_stallrem (c : Core) (i : BitVec 4) (d : Int) : (c.addTc i d).stallrem = c.stallrem := by unfold Core.addTc; split <;> rfl
@[simp] theorem addTc_divrem (c : Core) (i : BitVec 4) (d : Int) : (c.addTc i d).divrem = c.divrem := by unfold Core.addTc; split <;> rfl
@[simp] theorem addTc_frozen (c : Core) (i : BitVec 4) (d : Int) : (c.addTc i d).frozen = c.frozen := by unfold Core.addTc; split <;> rfl
@[simp] theorem addTc_pend (c : Core) (i : BitVec 4) (d : Int) : (c.addTc i d).pend = c.pend := by unfold Core.addTc; split <;> rfl
@[simp] theorem addTc_ending (c : Core) (i : BitVec 4) (d : Int) : (c.addTc i d).ending = c.ending := by unfold Core.addTc; split <;> rfl
@[simp] theorem addTc_fbuf (c : Core) (i : BitVec 4) (d : Int) : (c.addTc i d).fbuf = c.fbuf := by unfold Core.addTc; split <;> rfl
@[simp] theorem addTc_fetchb (c : Core) (i : BitVec 4) (d : Int) : (c.addTc i d).fetchb = c.fetchb := by unfold Core.addTc; split <;> rfl
@[simp] theorem addTc_fwm (c : Core) (i : BitVec 4) (d : Int) : (c.addTc i d).fwm = c.fwm := by unfold Core.addTc; split <;> rfl
@[simp] theorem addTc_bankS (c : Core) (i : BitVec 4) (d : Int) : (c.addTc i d).bankS = c.bankS := by unfold Core.addTc; split <;> rfl
@[simp] theorem addTc_bankTc (c : Core) (i : BitVec 4) (d : Int) : (c.addTc i d).bankTc = c.bankTc := by unfold Core.addTc; split <;> rfl
@[simp] theorem addTc_savedStall (c : Core) (i : BitVec 4) (d : Int) : (c.addTc i d).savedStall = c.savedStall := by unfold Core.addTc; split <;> rfl
@[simp] theorem addTc_savedDiv (c : Core) (i : BitVec 4) (d : Int) : (c.addTc i d).savedDiv = c.savedDiv := by unfold Core.addTc; split <;> rfl
@[simp] theorem addTc_savedBranch (c : Core) (i : BitVec 4) (d : Int) : (c.addTc i d).savedBranch = c.savedBranch := by unfold Core.addTc; split <;> rfl
@[simp] theorem addTc_savedFetchb (c : Core) (i : BitVec 4) (d : Int) : (c.addTc i d).savedFetchb = c.savedFetchb := by unfold Core.addTc; split <;> rfl
@[simp] theorem addTc_lq (c : Core) (i : BitVec 4) (d : Int) : (c.addTc i d).lq = c.lq := by unfold Core.addTc; split <;> rfl
@[simp] theorem addTc_heldVar (c : Core) (i : BitVec 4) (d : Int) : (c.addTc i d).heldVar = c.heldVar := by unfold Core.addTc; split <;> rfl
@[simp] theorem addTc_faults (c : Core) (i : BitVec 4) (d : Int) : (c.addTc i d).faults = c.faults := by unfold Core.addTc; split <;> rfl
@[simp] theorem addTc_hreq (c : Core) (i : BitVec 4) (d : Int) : (c.addTc i d).hreq = c.hreq := by unfold Core.addTc; split <;> rfl
@[simp] theorem addTc_halt (c : Core) (i : BitVec 4) (d : Int) : (c.addTc i d).halt = c.halt := by unfold Core.addTc; split <;> rfl
@[simp] theorem addTc_trapcause (c : Core) (i : BitVec 4) (d : Int) : (c.addTc i d).trapcause = c.trapcause := by unfold Core.addTc; split <;> rfl
@[simp] theorem addTc_trappc (c : Core) (i : BitVec 4) (d : Int) : (c.addTc i d).trappc = c.trappc := by unfold Core.addTc; split <;> rfl
@[simp] theorem addTc_trapval (c : Core) (i : BitVec 4) (d : Int) : (c.addTc i d).trapval = c.trapval := by unfold Core.addTc; split <;> rfl
@[simp] theorem addTc_trapvec (c : Core) (i : BitVec 4) (d : Int) : (c.addTc i d).trapvec = c.trapvec := by unfold Core.addTc; split <;> rfl
@[simp] theorem addTc_wdlim (c : Core) (i : BitVec 4) (d : Int) : (c.addTc i d).wdlim = c.wdlim := by unfold Core.addTc; split <;> rfl
@[simp] theorem addTc_dbgen (c : Core) (i : BitVec 4) (d : Int) : (c.addTc i d).dbgen = c.dbgen := by unfold Core.addTc; split <;> rfl
@[simp] theorem addTc_stagger (c : Core) (i : BitVec 4) (d : Int) : (c.addTc i d).stagger = c.stagger := by unfold Core.addTc; split <;> rfl
@[simp] theorem addTc_wdFrozen (c : Core) (i : BitVec 4) (d : Int) : (c.addTc i d).wdFrozen = c.wdFrozen := by unfold Core.addTc; split <;> rfl
@[simp] theorem addTc_wdHeld (c : Core) (i : BitVec 4) (d : Int) : (c.addTc i d).wdHeld = c.wdHeld := by unfold Core.addTc; split <;> rfl
@[simp] theorem addTc_wdWhy (c : Core) (i : BitVec 4) (d : Int) : (c.addTc i d).wdWhy = c.wdWhy := by unfold Core.addTc; split <;> rfl
@[simp] theorem addTc_cycle (c : Core) (i : BitVec 4) (d : Int) : (c.addTc i d).cycle = c.cycle := by unfold Core.addTc; split <;> rfl
@[simp] theorem addTc_region (c : Core) (i : BitVec 4) (d : Int) : (c.addTc i d).region = c.region := by unfold Core.addTc; split <;> rfl
@[simp] theorem addTc_ncore (c : Core) (i : BitVec 4) (d : Int) : (c.addTc i d).ncore = c.ncore := by unfold Core.addTc; split <;> rfl
@[simp] theorem addTc_regw (c : Core) (i : BitVec 4) (d : Int) : (c.addTc i d).regw = c.regw := by unfold Core.addTc; split <;> rfl
@[simp] theorem addTc_regh (c : Core) (i : BitVec 4) (d : Int) : (c.addTc i d).regh = c.regh := by unfold Core.addTc; split <;> rfl
@[simp] theorem addTc_detmode (c : Core) (i : BitVec 4) (d : Int) : (c.addTc i d).detmode = c.detmode := by unfold Core.addTc; split <;> rfl
@[simp] theorem addTc_netw (c : Core) (i : BitVec 4) (d : Int) : (c.addTc i d).netw = c.netw := by unfold Core.addTc; split <;> rfl
@[simp] theorem addTc_round (c : Core) (i : BitVec 4) (d : Int) : (c.addTc i d).round = c.round := by unfold Core.addTc; split <;> rfl
@[simp] theorem addTc_lrskip (c : Core) (i : BitVec 4) (d : Int) : (c.addTc i d).lrskip = c.lrskip := by unfold Core.addTc; split <;> rfl
@[simp] theorem addTc_exphist (c : Core) (i : BitVec 4) (d : Int) : (c.addTc i d).exphist = c.exphist := by unfold Core.addTc; split <;> rfl
@[simp] theorem addTc_stampCyc (c : Core) (i : BitVec 4) (d : Int) : (c.addTc i d).stampCyc = c.stampCyc := by unfold Core.addTc; split <;> rfl
@[simp] theorem addTc_delstale (c : Core) (i : BitVec 4) (d : Int) : (c.addTc i d).delstale = c.delstale := by unfold Core.addTc; split <;> rfl
@[simp] theorem addTc_owed (c : Core) (i : BitVec 4) (d : Int) : (c.addTc i d).owed = c.owed := by unfold Core.addTc; split <;> rfl
@[simp] theorem addTc_bufW (c : Core) (i : BitVec 4) (d : Int) : (c.addTc i d).bufW = c.bufW := by unfold Core.addTc; split <;> rfl
@[simp] theorem addTc_bufA (c : Core) (i : BitVec 4) (d : Int) : (c.addTc i d).bufA = c.bufA := by unfold Core.addTc; split <;> rfl
@[simp] theorem addTc_bufC (c : Core) (i : BitVec 4) (d : Int) : (c.addTc i d).bufC = c.bufC := by unfold Core.addTc; split <;> rfl
@[simp] theorem addTc_badWord (c : Core) (i : BitVec 4) (d : Int) : (c.addTc i d).badWord = c.badWord := by unfold Core.addTc; split <;> rfl
@[simp] theorem addTc_tiles (c : Core) (i : BitVec 4) (d : Int) : (c.addTc i d).tiles = c.tiles := by unfold Core.addTc; split <;> rfl
@[simp] theorem addTc_watches (c : Core) (i : BitVec 4) (d : Int) : (c.addTc i d).watches = c.watches := by unfold Core.addTc; split <;> rfl
@[simp] theorem addTc_istore (c : Core) (i : BitVec 4) (d : Int) : (c.addTc i d).istore = c.istore := by unfold Core.addTc; split <;> rfl
@[simp] theorem addTc_ifill (c : Core) (i : BitVec 4) (d : Int) : (c.addTc i d).ifill = c.ifill := by unfold Core.addTc; split <;> rfl
@[simp] theorem addTc_ifault (c : Core) (i : BitVec 4) (d : Int) : (c.addTc i d).ifault = c.ifault := by unfold Core.addTc; split <;> rfl
@[simp] theorem addTc_gcache (c : Core) (i : BitVec 4) (d : Int) : (c.addTc i d).gcache = c.gcache := by unfold Core.addTc; split <;> rfl
@[simp] theorem addTc_darn (c : Core) (i : BitVec 4) (d : Int) : (c.addTc i d).darn = c.darn := by unfold Core.addTc; split <;> rfl
@[simp] theorem addTc_rseq (c : Core) (i : BitVec 4) (d : Int) : (c.addTc i d).rseq = c.rseq := by unfold Core.addTc; split <;> rfl
@[simp] theorem addTc_windows (c : Core) (i : BitVec 4) (d : Int) : (c.addTc i d).windows = c.windows := by unfold Core.addTc; split <;> rfl
@[simp] theorem addTc_wf (c : Core) (i : BitVec 4) (d : Int) : (c.addTc i d).wf = c.wf := by unfold Core.addTc; split <;> rfl
@[simp] theorem addTc_ws (c : Core) (i : BitVec 4) (d : Int) : (c.addTc i d).ws = c.ws := by unfold Core.addTc; split <;> rfl
@[simp] theorem addTc_matmode (c : Core) (i : BitVec 4) (d : Int) : (c.addTc i d).matmode = c.matmode := by unfold Core.addTc; split <;> rfl
@[simp] theorem addTc_matq (c : Core) (i : BitVec 4) (d : Int) : (c.addTc i d).matq = c.matq := by unfold Core.addTc; split <;> rfl
@[simp] theorem addTc_matIdle (c : Core) (i : BitVec 4) (d : Int) : (c.addTc i d).matIdle = c.matIdle := by unfold Core.addTc; split <;> rfl
@[simp] theorem addTc_matHold (c : Core) (i : BitVec 4) (d : Int) : (c.addTc i d).matHold = c.matHold := by unfold Core.addTc; split <;> rfl
@[simp] theorem addTc_owners (c : Core) (i : BitVec 4) (d : Int) : (c.addTc i d).owners = c.owners := by unfold Core.addTc; split <;> rfl
@[simp] theorem addTc_ops (c : Core) (i : BitVec 4) (d : Int) : (c.addTc i d).ops = c.ops := by unfold Core.addTc; split <;> rfl
@[simp] theorem addTc_nextSer (c : Core) (i : BitVec 4) (d : Int) : (c.addTc i d).nextSer = c.nextSer := by unfold Core.addTc; split <;> rfl
@[simp] theorem addTc_slots (c : Core) (i : BitVec 4) (d : Int) : (c.addTc i d).slots = c.slots := by unfold Core.addTc; split <;> rfl
@[simp] theorem addTc_ready (c : Core) (i : BitVec 4) (d : Int) : (c.addTc i d).ready = c.ready := by unfold Core.addTc; split <;> rfl
@[simp] theorem addTc_rdyseq (c : Core) (i : BitVec 4) (d : Int) : (c.addTc i d).rdyseq = c.rdyseq := by unfold Core.addTc; split <;> rfl
@[simp] theorem addTc_resv (c : Core) (i : BitVec 4) (d : Int) : (c.addTc i d).resv = c.resv := by unfold Core.addTc; split <;> rfl
@[simp] theorem addTc_nframes (c : Core) (i : BitVec 4) (d : Int) : (c.addTc i d).nframes = c.nframes := by unfold Core.addTc; split <;> rfl
@[simp] theorem addTc_yframes (c : Core) (i : BitVec 4) (d : Int) : (c.addTc i d).yframes = c.yframes := by unfold Core.addTc; split <;> rfl
@[simp] theorem addTc_arrivals (c : Core) (i : BitVec 4) (d : Int) : (c.addTc i d).arrivals = c.arrivals := by unfold Core.addTc; split <;> rfl
@[simp] theorem addTc_waited (c : Core) (i : BitVec 4) (d : Int) : (c.addTc i d).waited = c.waited := by unfold Core.addTc; split <;> rfl
@[simp] theorem addTc_warm (c : Core) (i : BitVec 4) (d : Int) : (c.addTc i d).warm = c.warm := by unfold Core.addTc; split <;> rfl

/-! Core.setN -/

@[simp] theorem setN_running (c : Core) (r : NReg) (x : Name) : (c.setN r x).running = c.running := rfl
@[simp] theorem setN_slot (c : Core) (r : NReg) (x : Name) : (c.setN r x).slot = c.slot := rfl
@[simp] theorem setN_branch (c : Core) (r : NReg) (x : Name) : (c.setN r x).branch = c.branch := rfl
@[simp] theorem setN_stallrem (c : Core) (r : NReg) (x : Name) : (c.setN r x).stallrem = c.stallrem := rfl
@[simp] theorem setN_divrem (c : Core) (r : NReg) (x : Name) : (c.setN r x).divrem = c.divrem := rfl
@[simp] theorem setN_frozen (c : Core) (r : NReg) (x : Name) : (c.setN r x).frozen = c.frozen := rfl
@[simp] theorem setN_pend (c : Core) (r : NReg) (x : Name) : (c.setN r x).pend = c.pend := rfl
@[simp] theorem setN_tcd (c : Core) (r : NReg) (x : Name) : (c.setN r x).tcd = c.tcd := rfl
@[simp] theorem setN_ending (c : Core) (r : NReg) (x : Name) : (c.setN r x).ending = c.ending := rfl
@[simp] theorem setN_fbuf (c : Core) (r : NReg) (x : Name) : (c.setN r x).fbuf = c.fbuf := rfl
@[simp] theorem setN_fetchb (c : Core) (r : NReg) (x : Name) : (c.setN r x).fetchb = c.fetchb := rfl
@[simp] theorem setN_fwm (c : Core) (r : NReg) (x : Name) : (c.setN r x).fwm = c.fwm := rfl
@[simp] theorem setN_bankS (c : Core) (r : NReg) (x : Name) : (c.setN r x).bankS = c.bankS := rfl
@[simp] theorem setN_bankTc (c : Core) (r : NReg) (x : Name) : (c.setN r x).bankTc = c.bankTc := rfl
@[simp] theorem setN_savedStall (c : Core) (r : NReg) (x : Name) : (c.setN r x).savedStall = c.savedStall := rfl
@[simp] theorem setN_savedDiv (c : Core) (r : NReg) (x : Name) : (c.setN r x).savedDiv = c.savedDiv := rfl
@[simp] theorem setN_savedBranch (c : Core) (r : NReg) (x : Name) : (c.setN r x).savedBranch = c.savedBranch := rfl
@[simp] theorem setN_savedFetchb (c : Core) (r : NReg) (x : Name) : (c.setN r x).savedFetchb = c.savedFetchb := rfl
@[simp] theorem setN_lq (c : Core) (r : NReg) (x : Name) : (c.setN r x).lq = c.lq := rfl
@[simp] theorem setN_heldVar (c : Core) (r : NReg) (x : Name) : (c.setN r x).heldVar = c.heldVar := rfl
@[simp] theorem setN_faults (c : Core) (r : NReg) (x : Name) : (c.setN r x).faults = c.faults := rfl
@[simp] theorem setN_hreq (c : Core) (r : NReg) (x : Name) : (c.setN r x).hreq = c.hreq := rfl
@[simp] theorem setN_halt (c : Core) (r : NReg) (x : Name) : (c.setN r x).halt = c.halt := rfl
@[simp] theorem setN_trapcause (c : Core) (r : NReg) (x : Name) : (c.setN r x).trapcause = c.trapcause := rfl
@[simp] theorem setN_trappc (c : Core) (r : NReg) (x : Name) : (c.setN r x).trappc = c.trappc := rfl
@[simp] theorem setN_trapval (c : Core) (r : NReg) (x : Name) : (c.setN r x).trapval = c.trapval := rfl
@[simp] theorem setN_trapvec (c : Core) (r : NReg) (x : Name) : (c.setN r x).trapvec = c.trapvec := rfl
@[simp] theorem setN_wdlim (c : Core) (r : NReg) (x : Name) : (c.setN r x).wdlim = c.wdlim := rfl
@[simp] theorem setN_dbgen (c : Core) (r : NReg) (x : Name) : (c.setN r x).dbgen = c.dbgen := rfl
@[simp] theorem setN_stagger (c : Core) (r : NReg) (x : Name) : (c.setN r x).stagger = c.stagger := rfl
@[simp] theorem setN_wdFrozen (c : Core) (r : NReg) (x : Name) : (c.setN r x).wdFrozen = c.wdFrozen := rfl
@[simp] theorem setN_wdHeld (c : Core) (r : NReg) (x : Name) : (c.setN r x).wdHeld = c.wdHeld := rfl
@[simp] theorem setN_wdWhy (c : Core) (r : NReg) (x : Name) : (c.setN r x).wdWhy = c.wdWhy := rfl
@[simp] theorem setN_cycle (c : Core) (r : NReg) (x : Name) : (c.setN r x).cycle = c.cycle := rfl
@[simp] theorem setN_region (c : Core) (r : NReg) (x : Name) : (c.setN r x).region = c.region := rfl
@[simp] theorem setN_ncore (c : Core) (r : NReg) (x : Name) : (c.setN r x).ncore = c.ncore := rfl
@[simp] theorem setN_regw (c : Core) (r : NReg) (x : Name) : (c.setN r x).regw = c.regw := rfl
@[simp] theorem setN_regh (c : Core) (r : NReg) (x : Name) : (c.setN r x).regh = c.regh := rfl
@[simp] theorem setN_detmode (c : Core) (r : NReg) (x : Name) : (c.setN r x).detmode = c.detmode := rfl
@[simp] theorem setN_netw (c : Core) (r : NReg) (x : Name) : (c.setN r x).netw = c.netw := rfl
@[simp] theorem setN_round (c : Core) (r : NReg) (x : Name) : (c.setN r x).round = c.round := rfl
@[simp] theorem setN_lrskip (c : Core) (r : NReg) (x : Name) : (c.setN r x).lrskip = c.lrskip := rfl
@[simp] theorem setN_exphist (c : Core) (r : NReg) (x : Name) : (c.setN r x).exphist = c.exphist := rfl
@[simp] theorem setN_stampCyc (c : Core) (r : NReg) (x : Name) : (c.setN r x).stampCyc = c.stampCyc := rfl
@[simp] theorem setN_delstale (c : Core) (r : NReg) (x : Name) : (c.setN r x).delstale = c.delstale := rfl
@[simp] theorem setN_owed (c : Core) (r : NReg) (x : Name) : (c.setN r x).owed = c.owed := rfl
@[simp] theorem setN_bufW (c : Core) (r : NReg) (x : Name) : (c.setN r x).bufW = c.bufW := rfl
@[simp] theorem setN_bufA (c : Core) (r : NReg) (x : Name) : (c.setN r x).bufA = c.bufA := rfl
@[simp] theorem setN_bufC (c : Core) (r : NReg) (x : Name) : (c.setN r x).bufC = c.bufC := rfl
@[simp] theorem setN_badWord (c : Core) (r : NReg) (x : Name) : (c.setN r x).badWord = c.badWord := rfl
@[simp] theorem setN_tiles (c : Core) (r : NReg) (x : Name) : (c.setN r x).tiles = c.tiles := rfl
@[simp] theorem setN_watches (c : Core) (r : NReg) (x : Name) : (c.setN r x).watches = c.watches := rfl
@[simp] theorem setN_istore (c : Core) (r : NReg) (x : Name) : (c.setN r x).istore = c.istore := rfl
@[simp] theorem setN_ifill (c : Core) (r : NReg) (x : Name) : (c.setN r x).ifill = c.ifill := rfl
@[simp] theorem setN_ifault (c : Core) (r : NReg) (x : Name) : (c.setN r x).ifault = c.ifault := rfl
@[simp] theorem setN_gcache (c : Core) (r : NReg) (x : Name) : (c.setN r x).gcache = c.gcache := rfl
@[simp] theorem setN_darn (c : Core) (r : NReg) (x : Name) : (c.setN r x).darn = c.darn := rfl
@[simp] theorem setN_rseq (c : Core) (r : NReg) (x : Name) : (c.setN r x).rseq = c.rseq := rfl
@[simp] theorem setN_windows (c : Core) (r : NReg) (x : Name) : (c.setN r x).windows = c.windows := rfl
@[simp] theorem setN_wf (c : Core) (r : NReg) (x : Name) : (c.setN r x).wf = c.wf := rfl
@[simp] theorem setN_ws (c : Core) (r : NReg) (x : Name) : (c.setN r x).ws = c.ws := rfl
@[simp] theorem setN_matmode (c : Core) (r : NReg) (x : Name) : (c.setN r x).matmode = c.matmode := rfl
@[simp] theorem setN_matq (c : Core) (r : NReg) (x : Name) : (c.setN r x).matq = c.matq := rfl
@[simp] theorem setN_matIdle (c : Core) (r : NReg) (x : Name) : (c.setN r x).matIdle = c.matIdle := rfl
@[simp] theorem setN_matHold (c : Core) (r : NReg) (x : Name) : (c.setN r x).matHold = c.matHold := rfl
@[simp] theorem setN_owners (c : Core) (r : NReg) (x : Name) : (c.setN r x).owners = c.owners := rfl
@[simp] theorem setN_ops (c : Core) (r : NReg) (x : Name) : (c.setN r x).ops = c.ops := rfl
@[simp] theorem setN_nextSer (c : Core) (r : NReg) (x : Name) : (c.setN r x).nextSer = c.nextSer := rfl
@[simp] theorem setN_slots (c : Core) (r : NReg) (x : Name) : (c.setN r x).slots = c.slots := rfl
@[simp] theorem setN_ready (c : Core) (r : NReg) (x : Name) : (c.setN r x).ready = c.ready := rfl
@[simp] theorem setN_rdyseq (c : Core) (r : NReg) (x : Name) : (c.setN r x).rdyseq = c.rdyseq := rfl
@[simp] theorem setN_resv (c : Core) (r : NReg) (x : Name) : (c.setN r x).resv = c.resv := rfl
@[simp] theorem setN_nframes (c : Core) (r : NReg) (x : Name) : (c.setN r x).nframes = c.nframes := rfl
@[simp] theorem setN_yframes (c : Core) (r : NReg) (x : Name) : (c.setN r x).yframes = c.yframes := rfl
@[simp] theorem setN_arrivals (c : Core) (r : NReg) (x : Name) : (c.setN r x).arrivals = c.arrivals := rfl
@[simp] theorem setN_waited (c : Core) (r : NReg) (x : Name) : (c.setN r x).waited = c.waited := rfl
@[simp] theorem setN_warm (c : Core) (r : NReg) (x : Name) : (c.setN r x).warm = c.warm := rfl

/-! Core.setV -/

@[simp] theorem setV_running (c : Core) (r : Reg) (x : VReg) : (c.setV r x).running = c.running := rfl
@[simp] theorem setV_slot (c : Core) (r : Reg) (x : VReg) : (c.setV r x).slot = c.slot := rfl
@[simp] theorem setV_branch (c : Core) (r : Reg) (x : VReg) : (c.setV r x).branch = c.branch := rfl
@[simp] theorem setV_stallrem (c : Core) (r : Reg) (x : VReg) : (c.setV r x).stallrem = c.stallrem := rfl
@[simp] theorem setV_divrem (c : Core) (r : Reg) (x : VReg) : (c.setV r x).divrem = c.divrem := rfl
@[simp] theorem setV_frozen (c : Core) (r : Reg) (x : VReg) : (c.setV r x).frozen = c.frozen := rfl
@[simp] theorem setV_pend (c : Core) (r : Reg) (x : VReg) : (c.setV r x).pend = c.pend := rfl
@[simp] theorem setV_tcd (c : Core) (r : Reg) (x : VReg) : (c.setV r x).tcd = c.tcd := rfl
@[simp] theorem setV_ending (c : Core) (r : Reg) (x : VReg) : (c.setV r x).ending = c.ending := rfl
@[simp] theorem setV_fbuf (c : Core) (r : Reg) (x : VReg) : (c.setV r x).fbuf = c.fbuf := rfl
@[simp] theorem setV_fetchb (c : Core) (r : Reg) (x : VReg) : (c.setV r x).fetchb = c.fetchb := rfl
@[simp] theorem setV_fwm (c : Core) (r : Reg) (x : VReg) : (c.setV r x).fwm = c.fwm := rfl
@[simp] theorem setV_bankS (c : Core) (r : Reg) (x : VReg) : (c.setV r x).bankS = c.bankS := rfl
@[simp] theorem setV_bankTc (c : Core) (r : Reg) (x : VReg) : (c.setV r x).bankTc = c.bankTc := rfl
@[simp] theorem setV_savedStall (c : Core) (r : Reg) (x : VReg) : (c.setV r x).savedStall = c.savedStall := rfl
@[simp] theorem setV_savedDiv (c : Core) (r : Reg) (x : VReg) : (c.setV r x).savedDiv = c.savedDiv := rfl
@[simp] theorem setV_savedBranch (c : Core) (r : Reg) (x : VReg) : (c.setV r x).savedBranch = c.savedBranch := rfl
@[simp] theorem setV_savedFetchb (c : Core) (r : Reg) (x : VReg) : (c.setV r x).savedFetchb = c.savedFetchb := rfl
@[simp] theorem setV_lq (c : Core) (r : Reg) (x : VReg) : (c.setV r x).lq = c.lq := rfl
@[simp] theorem setV_heldVar (c : Core) (r : Reg) (x : VReg) : (c.setV r x).heldVar = c.heldVar := rfl
@[simp] theorem setV_faults (c : Core) (r : Reg) (x : VReg) : (c.setV r x).faults = c.faults := rfl
@[simp] theorem setV_hreq (c : Core) (r : Reg) (x : VReg) : (c.setV r x).hreq = c.hreq := rfl
@[simp] theorem setV_halt (c : Core) (r : Reg) (x : VReg) : (c.setV r x).halt = c.halt := rfl
@[simp] theorem setV_trapcause (c : Core) (r : Reg) (x : VReg) : (c.setV r x).trapcause = c.trapcause := rfl
@[simp] theorem setV_trappc (c : Core) (r : Reg) (x : VReg) : (c.setV r x).trappc = c.trappc := rfl
@[simp] theorem setV_trapval (c : Core) (r : Reg) (x : VReg) : (c.setV r x).trapval = c.trapval := rfl
@[simp] theorem setV_trapvec (c : Core) (r : Reg) (x : VReg) : (c.setV r x).trapvec = c.trapvec := rfl
@[simp] theorem setV_wdlim (c : Core) (r : Reg) (x : VReg) : (c.setV r x).wdlim = c.wdlim := rfl
@[simp] theorem setV_dbgen (c : Core) (r : Reg) (x : VReg) : (c.setV r x).dbgen = c.dbgen := rfl
@[simp] theorem setV_stagger (c : Core) (r : Reg) (x : VReg) : (c.setV r x).stagger = c.stagger := rfl
@[simp] theorem setV_wdFrozen (c : Core) (r : Reg) (x : VReg) : (c.setV r x).wdFrozen = c.wdFrozen := rfl
@[simp] theorem setV_wdHeld (c : Core) (r : Reg) (x : VReg) : (c.setV r x).wdHeld = c.wdHeld := rfl
@[simp] theorem setV_wdWhy (c : Core) (r : Reg) (x : VReg) : (c.setV r x).wdWhy = c.wdWhy := rfl
@[simp] theorem setV_cycle (c : Core) (r : Reg) (x : VReg) : (c.setV r x).cycle = c.cycle := rfl
@[simp] theorem setV_region (c : Core) (r : Reg) (x : VReg) : (c.setV r x).region = c.region := rfl
@[simp] theorem setV_ncore (c : Core) (r : Reg) (x : VReg) : (c.setV r x).ncore = c.ncore := rfl
@[simp] theorem setV_regw (c : Core) (r : Reg) (x : VReg) : (c.setV r x).regw = c.regw := rfl
@[simp] theorem setV_regh (c : Core) (r : Reg) (x : VReg) : (c.setV r x).regh = c.regh := rfl
@[simp] theorem setV_detmode (c : Core) (r : Reg) (x : VReg) : (c.setV r x).detmode = c.detmode := rfl
@[simp] theorem setV_netw (c : Core) (r : Reg) (x : VReg) : (c.setV r x).netw = c.netw := rfl
@[simp] theorem setV_round (c : Core) (r : Reg) (x : VReg) : (c.setV r x).round = c.round := rfl
@[simp] theorem setV_lrskip (c : Core) (r : Reg) (x : VReg) : (c.setV r x).lrskip = c.lrskip := rfl
@[simp] theorem setV_exphist (c : Core) (r : Reg) (x : VReg) : (c.setV r x).exphist = c.exphist := rfl
@[simp] theorem setV_stampCyc (c : Core) (r : Reg) (x : VReg) : (c.setV r x).stampCyc = c.stampCyc := rfl
@[simp] theorem setV_delstale (c : Core) (r : Reg) (x : VReg) : (c.setV r x).delstale = c.delstale := rfl
@[simp] theorem setV_owed (c : Core) (r : Reg) (x : VReg) : (c.setV r x).owed = c.owed := rfl
@[simp] theorem setV_bufW (c : Core) (r : Reg) (x : VReg) : (c.setV r x).bufW = c.bufW := rfl
@[simp] theorem setV_bufA (c : Core) (r : Reg) (x : VReg) : (c.setV r x).bufA = c.bufA := rfl
@[simp] theorem setV_bufC (c : Core) (r : Reg) (x : VReg) : (c.setV r x).bufC = c.bufC := rfl
@[simp] theorem setV_badWord (c : Core) (r : Reg) (x : VReg) : (c.setV r x).badWord = c.badWord := rfl
@[simp] theorem setV_tiles (c : Core) (r : Reg) (x : VReg) : (c.setV r x).tiles = c.tiles := rfl
@[simp] theorem setV_watches (c : Core) (r : Reg) (x : VReg) : (c.setV r x).watches = c.watches := rfl
@[simp] theorem setV_istore (c : Core) (r : Reg) (x : VReg) : (c.setV r x).istore = c.istore := rfl
@[simp] theorem setV_ifill (c : Core) (r : Reg) (x : VReg) : (c.setV r x).ifill = c.ifill := rfl
@[simp] theorem setV_ifault (c : Core) (r : Reg) (x : VReg) : (c.setV r x).ifault = c.ifault := rfl
@[simp] theorem setV_gcache (c : Core) (r : Reg) (x : VReg) : (c.setV r x).gcache = c.gcache := rfl
@[simp] theorem setV_darn (c : Core) (r : Reg) (x : VReg) : (c.setV r x).darn = c.darn := rfl
@[simp] theorem setV_rseq (c : Core) (r : Reg) (x : VReg) : (c.setV r x).rseq = c.rseq := rfl
@[simp] theorem setV_windows (c : Core) (r : Reg) (x : VReg) : (c.setV r x).windows = c.windows := rfl
@[simp] theorem setV_wf (c : Core) (r : Reg) (x : VReg) : (c.setV r x).wf = c.wf := rfl
@[simp] theorem setV_ws (c : Core) (r : Reg) (x : VReg) : (c.setV r x).ws = c.ws := rfl
@[simp] theorem setV_matmode (c : Core) (r : Reg) (x : VReg) : (c.setV r x).matmode = c.matmode := rfl
@[simp] theorem setV_matq (c : Core) (r : Reg) (x : VReg) : (c.setV r x).matq = c.matq := rfl
@[simp] theorem setV_matIdle (c : Core) (r : Reg) (x : VReg) : (c.setV r x).matIdle = c.matIdle := rfl
@[simp] theorem setV_matHold (c : Core) (r : Reg) (x : VReg) : (c.setV r x).matHold = c.matHold := rfl
@[simp] theorem setV_owners (c : Core) (r : Reg) (x : VReg) : (c.setV r x).owners = c.owners := rfl
@[simp] theorem setV_ops (c : Core) (r : Reg) (x : VReg) : (c.setV r x).ops = c.ops := rfl
@[simp] theorem setV_nextSer (c : Core) (r : Reg) (x : VReg) : (c.setV r x).nextSer = c.nextSer := rfl
@[simp] theorem setV_slots (c : Core) (r : Reg) (x : VReg) : (c.setV r x).slots = c.slots := rfl
@[simp] theorem setV_ready (c : Core) (r : Reg) (x : VReg) : (c.setV r x).ready = c.ready := rfl
@[simp] theorem setV_rdyseq (c : Core) (r : Reg) (x : VReg) : (c.setV r x).rdyseq = c.rdyseq := rfl
@[simp] theorem setV_resv (c : Core) (r : Reg) (x : VReg) : (c.setV r x).resv = c.resv := rfl
@[simp] theorem setV_nframes (c : Core) (r : Reg) (x : VReg) : (c.setV r x).nframes = c.nframes := rfl
@[simp] theorem setV_yframes (c : Core) (r : Reg) (x : VReg) : (c.setV r x).yframes = c.yframes := rfl
@[simp] theorem setV_arrivals (c : Core) (r : Reg) (x : VReg) : (c.setV r x).arrivals = c.arrivals := rfl
@[simp] theorem setV_waited (c : Core) (r : Reg) (x : VReg) : (c.setV r x).waited = c.waited := rfl
@[simp] theorem setV_warm (c : Core) (r : Reg) (x : VReg) : (c.setV r x).warm = c.warm := rfl

/-! Core.setK -/

@[simp] theorem setK_running (c : Core) (r : KReg) (x : W64) : (c.setK r x).running = c.running := by unfold Core.setK; split <;> rfl
@[simp] theorem setK_slot (c : Core) (r : KReg) (x : W64) : (c.setK r x).slot = c.slot := by unfold Core.setK; split <;> rfl
@[simp] theorem setK_branch (c : Core) (r : KReg) (x : W64) : (c.setK r x).branch = c.branch := by unfold Core.setK; split <;> rfl
@[simp] theorem setK_stallrem (c : Core) (r : KReg) (x : W64) : (c.setK r x).stallrem = c.stallrem := by unfold Core.setK; split <;> rfl
@[simp] theorem setK_divrem (c : Core) (r : KReg) (x : W64) : (c.setK r x).divrem = c.divrem := by unfold Core.setK; split <;> rfl
@[simp] theorem setK_frozen (c : Core) (r : KReg) (x : W64) : (c.setK r x).frozen = c.frozen := by unfold Core.setK; split <;> rfl
@[simp] theorem setK_pend (c : Core) (r : KReg) (x : W64) : (c.setK r x).pend = c.pend := by unfold Core.setK; split <;> rfl
@[simp] theorem setK_tcd (c : Core) (r : KReg) (x : W64) : (c.setK r x).tcd = c.tcd := by unfold Core.setK; split <;> rfl
@[simp] theorem setK_ending (c : Core) (r : KReg) (x : W64) : (c.setK r x).ending = c.ending := by unfold Core.setK; split <;> rfl
@[simp] theorem setK_fbuf (c : Core) (r : KReg) (x : W64) : (c.setK r x).fbuf = c.fbuf := by unfold Core.setK; split <;> rfl
@[simp] theorem setK_fetchb (c : Core) (r : KReg) (x : W64) : (c.setK r x).fetchb = c.fetchb := by unfold Core.setK; split <;> rfl
@[simp] theorem setK_fwm (c : Core) (r : KReg) (x : W64) : (c.setK r x).fwm = c.fwm := by unfold Core.setK; split <;> rfl
@[simp] theorem setK_bankS (c : Core) (r : KReg) (x : W64) : (c.setK r x).bankS = c.bankS := by unfold Core.setK; split <;> rfl
@[simp] theorem setK_bankTc (c : Core) (r : KReg) (x : W64) : (c.setK r x).bankTc = c.bankTc := by unfold Core.setK; split <;> rfl
@[simp] theorem setK_savedStall (c : Core) (r : KReg) (x : W64) : (c.setK r x).savedStall = c.savedStall := by unfold Core.setK; split <;> rfl
@[simp] theorem setK_savedDiv (c : Core) (r : KReg) (x : W64) : (c.setK r x).savedDiv = c.savedDiv := by unfold Core.setK; split <;> rfl
@[simp] theorem setK_savedBranch (c : Core) (r : KReg) (x : W64) : (c.setK r x).savedBranch = c.savedBranch := by unfold Core.setK; split <;> rfl
@[simp] theorem setK_savedFetchb (c : Core) (r : KReg) (x : W64) : (c.setK r x).savedFetchb = c.savedFetchb := by unfold Core.setK; split <;> rfl
@[simp] theorem setK_lq (c : Core) (r : KReg) (x : W64) : (c.setK r x).lq = c.lq := by unfold Core.setK; split <;> rfl
@[simp] theorem setK_heldVar (c : Core) (r : KReg) (x : W64) : (c.setK r x).heldVar = c.heldVar := by unfold Core.setK; split <;> rfl
@[simp] theorem setK_faults (c : Core) (r : KReg) (x : W64) : (c.setK r x).faults = c.faults := by unfold Core.setK; split <;> rfl
@[simp] theorem setK_hreq (c : Core) (r : KReg) (x : W64) : (c.setK r x).hreq = c.hreq := by unfold Core.setK; split <;> rfl
@[simp] theorem setK_halt (c : Core) (r : KReg) (x : W64) : (c.setK r x).halt = c.halt := by unfold Core.setK; split <;> rfl
@[simp] theorem setK_trapcause (c : Core) (r : KReg) (x : W64) : (c.setK r x).trapcause = c.trapcause := by unfold Core.setK; split <;> rfl
@[simp] theorem setK_trappc (c : Core) (r : KReg) (x : W64) : (c.setK r x).trappc = c.trappc := by unfold Core.setK; split <;> rfl
@[simp] theorem setK_trapval (c : Core) (r : KReg) (x : W64) : (c.setK r x).trapval = c.trapval := by unfold Core.setK; split <;> rfl
@[simp] theorem setK_trapvec (c : Core) (r : KReg) (x : W64) : (c.setK r x).trapvec = c.trapvec := by unfold Core.setK; split <;> rfl
@[simp] theorem setK_wdlim (c : Core) (r : KReg) (x : W64) : (c.setK r x).wdlim = c.wdlim := by unfold Core.setK; split <;> rfl
@[simp] theorem setK_dbgen (c : Core) (r : KReg) (x : W64) : (c.setK r x).dbgen = c.dbgen := by unfold Core.setK; split <;> rfl
@[simp] theorem setK_stagger (c : Core) (r : KReg) (x : W64) : (c.setK r x).stagger = c.stagger := by unfold Core.setK; split <;> rfl
@[simp] theorem setK_wdFrozen (c : Core) (r : KReg) (x : W64) : (c.setK r x).wdFrozen = c.wdFrozen := by unfold Core.setK; split <;> rfl
@[simp] theorem setK_wdHeld (c : Core) (r : KReg) (x : W64) : (c.setK r x).wdHeld = c.wdHeld := by unfold Core.setK; split <;> rfl
@[simp] theorem setK_wdWhy (c : Core) (r : KReg) (x : W64) : (c.setK r x).wdWhy = c.wdWhy := by unfold Core.setK; split <;> rfl
@[simp] theorem setK_cycle (c : Core) (r : KReg) (x : W64) : (c.setK r x).cycle = c.cycle := by unfold Core.setK; split <;> rfl
@[simp] theorem setK_region (c : Core) (r : KReg) (x : W64) : (c.setK r x).region = c.region := by unfold Core.setK; split <;> rfl
@[simp] theorem setK_ncore (c : Core) (r : KReg) (x : W64) : (c.setK r x).ncore = c.ncore := by unfold Core.setK; split <;> rfl
@[simp] theorem setK_regw (c : Core) (r : KReg) (x : W64) : (c.setK r x).regw = c.regw := by unfold Core.setK; split <;> rfl
@[simp] theorem setK_regh (c : Core) (r : KReg) (x : W64) : (c.setK r x).regh = c.regh := by unfold Core.setK; split <;> rfl
@[simp] theorem setK_detmode (c : Core) (r : KReg) (x : W64) : (c.setK r x).detmode = c.detmode := by unfold Core.setK; split <;> rfl
@[simp] theorem setK_netw (c : Core) (r : KReg) (x : W64) : (c.setK r x).netw = c.netw := by unfold Core.setK; split <;> rfl
@[simp] theorem setK_round (c : Core) (r : KReg) (x : W64) : (c.setK r x).round = c.round := by unfold Core.setK; split <;> rfl
@[simp] theorem setK_lrskip (c : Core) (r : KReg) (x : W64) : (c.setK r x).lrskip = c.lrskip := by unfold Core.setK; split <;> rfl
@[simp] theorem setK_exphist (c : Core) (r : KReg) (x : W64) : (c.setK r x).exphist = c.exphist := by unfold Core.setK; split <;> rfl
@[simp] theorem setK_stampCyc (c : Core) (r : KReg) (x : W64) : (c.setK r x).stampCyc = c.stampCyc := by unfold Core.setK; split <;> rfl
@[simp] theorem setK_delstale (c : Core) (r : KReg) (x : W64) : (c.setK r x).delstale = c.delstale := by unfold Core.setK; split <;> rfl
@[simp] theorem setK_owed (c : Core) (r : KReg) (x : W64) : (c.setK r x).owed = c.owed := by unfold Core.setK; split <;> rfl
@[simp] theorem setK_bufW (c : Core) (r : KReg) (x : W64) : (c.setK r x).bufW = c.bufW := by unfold Core.setK; split <;> rfl
@[simp] theorem setK_bufA (c : Core) (r : KReg) (x : W64) : (c.setK r x).bufA = c.bufA := by unfold Core.setK; split <;> rfl
@[simp] theorem setK_bufC (c : Core) (r : KReg) (x : W64) : (c.setK r x).bufC = c.bufC := by unfold Core.setK; split <;> rfl
@[simp] theorem setK_badWord (c : Core) (r : KReg) (x : W64) : (c.setK r x).badWord = c.badWord := by unfold Core.setK; split <;> rfl
@[simp] theorem setK_tiles (c : Core) (r : KReg) (x : W64) : (c.setK r x).tiles = c.tiles := by unfold Core.setK; split <;> rfl
@[simp] theorem setK_watches (c : Core) (r : KReg) (x : W64) : (c.setK r x).watches = c.watches := by unfold Core.setK; split <;> rfl
@[simp] theorem setK_istore (c : Core) (r : KReg) (x : W64) : (c.setK r x).istore = c.istore := by unfold Core.setK; split <;> rfl
@[simp] theorem setK_ifill (c : Core) (r : KReg) (x : W64) : (c.setK r x).ifill = c.ifill := by unfold Core.setK; split <;> rfl
@[simp] theorem setK_ifault (c : Core) (r : KReg) (x : W64) : (c.setK r x).ifault = c.ifault := by unfold Core.setK; split <;> rfl
@[simp] theorem setK_gcache (c : Core) (r : KReg) (x : W64) : (c.setK r x).gcache = c.gcache := by unfold Core.setK; split <;> rfl
@[simp] theorem setK_darn (c : Core) (r : KReg) (x : W64) : (c.setK r x).darn = c.darn := by unfold Core.setK; split <;> rfl
@[simp] theorem setK_rseq (c : Core) (r : KReg) (x : W64) : (c.setK r x).rseq = c.rseq := by unfold Core.setK; split <;> rfl
@[simp] theorem setK_windows (c : Core) (r : KReg) (x : W64) : (c.setK r x).windows = c.windows := by unfold Core.setK; split <;> rfl
@[simp] theorem setK_wf (c : Core) (r : KReg) (x : W64) : (c.setK r x).wf = c.wf := by unfold Core.setK; split <;> rfl
@[simp] theorem setK_ws (c : Core) (r : KReg) (x : W64) : (c.setK r x).ws = c.ws := by unfold Core.setK; split <;> rfl
@[simp] theorem setK_matmode (c : Core) (r : KReg) (x : W64) : (c.setK r x).matmode = c.matmode := by unfold Core.setK; split <;> rfl
@[simp] theorem setK_matq (c : Core) (r : KReg) (x : W64) : (c.setK r x).matq = c.matq := by unfold Core.setK; split <;> rfl
@[simp] theorem setK_matIdle (c : Core) (r : KReg) (x : W64) : (c.setK r x).matIdle = c.matIdle := by unfold Core.setK; split <;> rfl
@[simp] theorem setK_matHold (c : Core) (r : KReg) (x : W64) : (c.setK r x).matHold = c.matHold := by unfold Core.setK; split <;> rfl
@[simp] theorem setK_owners (c : Core) (r : KReg) (x : W64) : (c.setK r x).owners = c.owners := by unfold Core.setK; split <;> rfl
@[simp] theorem setK_ops (c : Core) (r : KReg) (x : W64) : (c.setK r x).ops = c.ops := by unfold Core.setK; split <;> rfl
@[simp] theorem setK_nextSer (c : Core) (r : KReg) (x : W64) : (c.setK r x).nextSer = c.nextSer := by unfold Core.setK; split <;> rfl
@[simp] theorem setK_slots (c : Core) (r : KReg) (x : W64) : (c.setK r x).slots = c.slots := by unfold Core.setK; split <;> rfl
@[simp] theorem setK_ready (c : Core) (r : KReg) (x : W64) : (c.setK r x).ready = c.ready := by unfold Core.setK; split <;> rfl
@[simp] theorem setK_rdyseq (c : Core) (r : KReg) (x : W64) : (c.setK r x).rdyseq = c.rdyseq := by unfold Core.setK; split <;> rfl
@[simp] theorem setK_resv (c : Core) (r : KReg) (x : W64) : (c.setK r x).resv = c.resv := by unfold Core.setK; split <;> rfl
@[simp] theorem setK_nframes (c : Core) (r : KReg) (x : W64) : (c.setK r x).nframes = c.nframes := by unfold Core.setK; split <;> rfl
@[simp] theorem setK_yframes (c : Core) (r : KReg) (x : W64) : (c.setK r x).yframes = c.yframes := by unfold Core.setK; split <;> rfl
@[simp] theorem setK_arrivals (c : Core) (r : KReg) (x : W64) : (c.setK r x).arrivals = c.arrivals := by unfold Core.setK; split <;> rfl
@[simp] theorem setK_waited (c : Core) (r : KReg) (x : W64) : (c.setK r x).waited = c.waited := by unfold Core.setK; split <;> rfl
@[simp] theorem setK_warm (c : Core) (r : KReg) (x : W64) : (c.setK r x).warm = c.warm := by unfold Core.setK; split <;> rfl

/-! Core.setS -/

@[simp] theorem setS_running (c : Core) (r : Reg) (x : W64) : (c.setS r x).running = c.running := by unfold Core.setS; split; rfl; split <;> rfl
@[simp] theorem setS_slot (c : Core) (r : Reg) (x : W64) : (c.setS r x).slot = c.slot := by unfold Core.setS; split; rfl; split <;> rfl
@[simp] theorem setS_branch (c : Core) (r : Reg) (x : W64) : (c.setS r x).branch = c.branch := by unfold Core.setS; split; rfl; split <;> rfl
@[simp] theorem setS_stallrem (c : Core) (r : Reg) (x : W64) : (c.setS r x).stallrem = c.stallrem := by unfold Core.setS; split; rfl; split <;> rfl
@[simp] theorem setS_divrem (c : Core) (r : Reg) (x : W64) : (c.setS r x).divrem = c.divrem := by unfold Core.setS; split; rfl; split <;> rfl
@[simp] theorem setS_frozen (c : Core) (r : Reg) (x : W64) : (c.setS r x).frozen = c.frozen := by unfold Core.setS; split; rfl; split <;> rfl
@[simp] theorem setS_pend (c : Core) (r : Reg) (x : W64) : (c.setS r x).pend = c.pend := by unfold Core.setS; split; rfl; split <;> rfl
@[simp] theorem setS_tcd (c : Core) (r : Reg) (x : W64) : (c.setS r x).tcd = c.tcd := by unfold Core.setS; split; rfl; split <;> rfl
@[simp] theorem setS_ending (c : Core) (r : Reg) (x : W64) : (c.setS r x).ending = c.ending := by unfold Core.setS; split; rfl; split <;> rfl
@[simp] theorem setS_fbuf (c : Core) (r : Reg) (x : W64) : (c.setS r x).fbuf = c.fbuf := by unfold Core.setS; split; rfl; split <;> rfl
@[simp] theorem setS_fetchb (c : Core) (r : Reg) (x : W64) : (c.setS r x).fetchb = c.fetchb := by unfold Core.setS; split; rfl; split <;> rfl
@[simp] theorem setS_fwm (c : Core) (r : Reg) (x : W64) : (c.setS r x).fwm = c.fwm := by unfold Core.setS; split; rfl; split <;> rfl
@[simp] theorem setS_bankTc (c : Core) (r : Reg) (x : W64) : (c.setS r x).bankTc = c.bankTc := by unfold Core.setS; split; rfl; split <;> rfl
@[simp] theorem setS_savedStall (c : Core) (r : Reg) (x : W64) : (c.setS r x).savedStall = c.savedStall := by unfold Core.setS; split; rfl; split <;> rfl
@[simp] theorem setS_savedDiv (c : Core) (r : Reg) (x : W64) : (c.setS r x).savedDiv = c.savedDiv := by unfold Core.setS; split; rfl; split <;> rfl
@[simp] theorem setS_savedBranch (c : Core) (r : Reg) (x : W64) : (c.setS r x).savedBranch = c.savedBranch := by unfold Core.setS; split; rfl; split <;> rfl
@[simp] theorem setS_savedFetchb (c : Core) (r : Reg) (x : W64) : (c.setS r x).savedFetchb = c.savedFetchb := by unfold Core.setS; split; rfl; split <;> rfl
@[simp] theorem setS_lq (c : Core) (r : Reg) (x : W64) : (c.setS r x).lq = c.lq := by unfold Core.setS; split; rfl; split <;> rfl
@[simp] theorem setS_heldVar (c : Core) (r : Reg) (x : W64) : (c.setS r x).heldVar = c.heldVar := by unfold Core.setS; split; rfl; split <;> rfl
@[simp] theorem setS_faults (c : Core) (r : Reg) (x : W64) : (c.setS r x).faults = c.faults := by unfold Core.setS; split; rfl; split <;> rfl
@[simp] theorem setS_hreq (c : Core) (r : Reg) (x : W64) : (c.setS r x).hreq = c.hreq := by unfold Core.setS; split; rfl; split <;> rfl
@[simp] theorem setS_halt (c : Core) (r : Reg) (x : W64) : (c.setS r x).halt = c.halt := by unfold Core.setS; split; rfl; split <;> rfl
@[simp] theorem setS_trapcause (c : Core) (r : Reg) (x : W64) : (c.setS r x).trapcause = c.trapcause := by unfold Core.setS; split; rfl; split <;> rfl
@[simp] theorem setS_trappc (c : Core) (r : Reg) (x : W64) : (c.setS r x).trappc = c.trappc := by unfold Core.setS; split; rfl; split <;> rfl
@[simp] theorem setS_trapval (c : Core) (r : Reg) (x : W64) : (c.setS r x).trapval = c.trapval := by unfold Core.setS; split; rfl; split <;> rfl
@[simp] theorem setS_trapvec (c : Core) (r : Reg) (x : W64) : (c.setS r x).trapvec = c.trapvec := by unfold Core.setS; split; rfl; split <;> rfl
@[simp] theorem setS_wdlim (c : Core) (r : Reg) (x : W64) : (c.setS r x).wdlim = c.wdlim := by unfold Core.setS; split; rfl; split <;> rfl
@[simp] theorem setS_dbgen (c : Core) (r : Reg) (x : W64) : (c.setS r x).dbgen = c.dbgen := by unfold Core.setS; split; rfl; split <;> rfl
@[simp] theorem setS_stagger (c : Core) (r : Reg) (x : W64) : (c.setS r x).stagger = c.stagger := by unfold Core.setS; split; rfl; split <;> rfl
@[simp] theorem setS_wdFrozen (c : Core) (r : Reg) (x : W64) : (c.setS r x).wdFrozen = c.wdFrozen := by unfold Core.setS; split; rfl; split <;> rfl
@[simp] theorem setS_wdHeld (c : Core) (r : Reg) (x : W64) : (c.setS r x).wdHeld = c.wdHeld := by unfold Core.setS; split; rfl; split <;> rfl
@[simp] theorem setS_wdWhy (c : Core) (r : Reg) (x : W64) : (c.setS r x).wdWhy = c.wdWhy := by unfold Core.setS; split; rfl; split <;> rfl
@[simp] theorem setS_cycle (c : Core) (r : Reg) (x : W64) : (c.setS r x).cycle = c.cycle := by unfold Core.setS; split; rfl; split <;> rfl
@[simp] theorem setS_region (c : Core) (r : Reg) (x : W64) : (c.setS r x).region = c.region := by unfold Core.setS; split; rfl; split <;> rfl
@[simp] theorem setS_ncore (c : Core) (r : Reg) (x : W64) : (c.setS r x).ncore = c.ncore := by unfold Core.setS; split; rfl; split <;> rfl
@[simp] theorem setS_regw (c : Core) (r : Reg) (x : W64) : (c.setS r x).regw = c.regw := by unfold Core.setS; split; rfl; split <;> rfl
@[simp] theorem setS_regh (c : Core) (r : Reg) (x : W64) : (c.setS r x).regh = c.regh := by unfold Core.setS; split; rfl; split <;> rfl
@[simp] theorem setS_detmode (c : Core) (r : Reg) (x : W64) : (c.setS r x).detmode = c.detmode := by unfold Core.setS; split; rfl; split <;> rfl
@[simp] theorem setS_netw (c : Core) (r : Reg) (x : W64) : (c.setS r x).netw = c.netw := by unfold Core.setS; split; rfl; split <;> rfl
@[simp] theorem setS_round (c : Core) (r : Reg) (x : W64) : (c.setS r x).round = c.round := by unfold Core.setS; split; rfl; split <;> rfl
@[simp] theorem setS_lrskip (c : Core) (r : Reg) (x : W64) : (c.setS r x).lrskip = c.lrskip := by unfold Core.setS; split; rfl; split <;> rfl
@[simp] theorem setS_exphist (c : Core) (r : Reg) (x : W64) : (c.setS r x).exphist = c.exphist := by unfold Core.setS; split; rfl; split <;> rfl
@[simp] theorem setS_stampCyc (c : Core) (r : Reg) (x : W64) : (c.setS r x).stampCyc = c.stampCyc := by unfold Core.setS; split; rfl; split <;> rfl
@[simp] theorem setS_delstale (c : Core) (r : Reg) (x : W64) : (c.setS r x).delstale = c.delstale := by unfold Core.setS; split; rfl; split <;> rfl
@[simp] theorem setS_owed (c : Core) (r : Reg) (x : W64) : (c.setS r x).owed = c.owed := by unfold Core.setS; split; rfl; split <;> rfl
@[simp] theorem setS_bufW (c : Core) (r : Reg) (x : W64) : (c.setS r x).bufW = c.bufW := by unfold Core.setS; split; rfl; split <;> rfl
@[simp] theorem setS_bufA (c : Core) (r : Reg) (x : W64) : (c.setS r x).bufA = c.bufA := by unfold Core.setS; split; rfl; split <;> rfl
@[simp] theorem setS_bufC (c : Core) (r : Reg) (x : W64) : (c.setS r x).bufC = c.bufC := by unfold Core.setS; split; rfl; split <;> rfl
@[simp] theorem setS_badWord (c : Core) (r : Reg) (x : W64) : (c.setS r x).badWord = c.badWord := by unfold Core.setS; split; rfl; split <;> rfl
@[simp] theorem setS_tiles (c : Core) (r : Reg) (x : W64) : (c.setS r x).tiles = c.tiles := by unfold Core.setS; split; rfl; split <;> rfl
@[simp] theorem setS_watches (c : Core) (r : Reg) (x : W64) : (c.setS r x).watches = c.watches := by unfold Core.setS; split; rfl; split <;> rfl
@[simp] theorem setS_istore (c : Core) (r : Reg) (x : W64) : (c.setS r x).istore = c.istore := by unfold Core.setS; split; rfl; split <;> rfl
@[simp] theorem setS_ifill (c : Core) (r : Reg) (x : W64) : (c.setS r x).ifill = c.ifill := by unfold Core.setS; split; rfl; split <;> rfl
@[simp] theorem setS_ifault (c : Core) (r : Reg) (x : W64) : (c.setS r x).ifault = c.ifault := by unfold Core.setS; split; rfl; split <;> rfl
@[simp] theorem setS_gcache (c : Core) (r : Reg) (x : W64) : (c.setS r x).gcache = c.gcache := by unfold Core.setS; split; rfl; split <;> rfl
@[simp] theorem setS_darn (c : Core) (r : Reg) (x : W64) : (c.setS r x).darn = c.darn := by unfold Core.setS; split; rfl; split <;> rfl
@[simp] theorem setS_rseq (c : Core) (r : Reg) (x : W64) : (c.setS r x).rseq = c.rseq := by unfold Core.setS; split; rfl; split <;> rfl
@[simp] theorem setS_windows (c : Core) (r : Reg) (x : W64) : (c.setS r x).windows = c.windows := by unfold Core.setS; split; rfl; split <;> rfl
@[simp] theorem setS_wf (c : Core) (r : Reg) (x : W64) : (c.setS r x).wf = c.wf := by unfold Core.setS; split; rfl; split <;> rfl
@[simp] theorem setS_ws (c : Core) (r : Reg) (x : W64) : (c.setS r x).ws = c.ws := by unfold Core.setS; split; rfl; split <;> rfl
@[simp] theorem setS_matmode (c : Core) (r : Reg) (x : W64) : (c.setS r x).matmode = c.matmode := by unfold Core.setS; split; rfl; split <;> rfl
@[simp] theorem setS_matq (c : Core) (r : Reg) (x : W64) : (c.setS r x).matq = c.matq := by unfold Core.setS; split; rfl; split <;> rfl
@[simp] theorem setS_matIdle (c : Core) (r : Reg) (x : W64) : (c.setS r x).matIdle = c.matIdle := by unfold Core.setS; split; rfl; split <;> rfl
@[simp] theorem setS_matHold (c : Core) (r : Reg) (x : W64) : (c.setS r x).matHold = c.matHold := by unfold Core.setS; split; rfl; split <;> rfl
@[simp] theorem setS_owners (c : Core) (r : Reg) (x : W64) : (c.setS r x).owners = c.owners := by unfold Core.setS; split; rfl; split <;> rfl
@[simp] theorem setS_ops (c : Core) (r : Reg) (x : W64) : (c.setS r x).ops = c.ops := by unfold Core.setS; split; rfl; split <;> rfl
@[simp] theorem setS_nextSer (c : Core) (r : Reg) (x : W64) : (c.setS r x).nextSer = c.nextSer := by unfold Core.setS; split; rfl; split <;> rfl
@[simp] theorem setS_slots (c : Core) (r : Reg) (x : W64) : (c.setS r x).slots = c.slots := by unfold Core.setS; split; rfl; split <;> rfl
@[simp] theorem setS_ready (c : Core) (r : Reg) (x : W64) : (c.setS r x).ready = c.ready := by unfold Core.setS; split; rfl; split <;> rfl
@[simp] theorem setS_rdyseq (c : Core) (r : Reg) (x : W64) : (c.setS r x).rdyseq = c.rdyseq := by unfold Core.setS; split; rfl; split <;> rfl
@[simp] theorem setS_resv (c : Core) (r : Reg) (x : W64) : (c.setS r x).resv = c.resv := by unfold Core.setS; split; rfl; split <;> rfl
@[simp] theorem setS_nframes (c : Core) (r : Reg) (x : W64) : (c.setS r x).nframes = c.nframes := by unfold Core.setS; split; rfl; split <;> rfl
@[simp] theorem setS_yframes (c : Core) (r : Reg) (x : W64) : (c.setS r x).yframes = c.yframes := by unfold Core.setS; split; rfl; split <;> rfl
@[simp] theorem setS_arrivals (c : Core) (r : Reg) (x : W64) : (c.setS r x).arrivals = c.arrivals := by unfold Core.setS; split; rfl; split <;> rfl
@[simp] theorem setS_waited (c : Core) (r : Reg) (x : W64) : (c.setS r x).waited = c.waited := by unfold Core.setS; split; rfl; split <;> rfl
@[simp] theorem setS_warm (c : Core) (r : Reg) (x : W64) : (c.setS r x).warm = c.warm := by unfold Core.setS; split; rfl; split <;> rfl

/-! The registers of a core after a register write. -/

@[simp] theorem orFlags_regs_s (c : Core) (f : Flags) : (c.orFlags f).regs.s = c.regs.s := rfl
@[simp] theorem orFlags_regs_k (c : Core) (f : Flags) : (c.orFlags f).regs.k = c.regs.k := rfl
@[simp] theorem orFlags_regs_n (c : Core) (f : Flags) : (c.orFlags f).regs.n = c.regs.n := rfl
@[simp] theorem orFlags_regs_v (c : Core) (f : Flags) : (c.orFlags f).regs.v = c.regs.v := rfl
@[simp] theorem orFlags_regs_tc (c : Core) (f : Flags) : (c.orFlags f).regs.tc = c.regs.tc := rfl
@[simp] theorem orFlags_regs_lpcnt (c : Core) (f : Flags) : (c.orFlags f).regs.lpcnt = c.regs.lpcnt := rfl
@[simp] theorem orFlags_regs_lpbeg (c : Core) (f : Flags) : (c.orFlags f).regs.lpbeg = c.regs.lpbeg := rfl
@[simp] theorem orFlags_regs_lpexit (c : Core) (f : Flags) : (c.orFlags f).regs.lpexit = c.regs.lpexit := rfl
@[simp] theorem orFlags_regs_fireid (c : Core) (f : Flags) : (c.orFlags f).regs.fireid = c.regs.fireid := rfl
@[simp] theorem orFlags_regs_prio (c : Core) (f : Flags) : (c.orFlags f).regs.prio = c.regs.prio := rfl
@[simp] theorem orFlags_regs_fpmode (c : Core) (f : Flags) : (c.orFlags f).regs.fpmode = c.regs.fpmode := rfl
@[simp] theorem orFlags_regs_created (c : Core) (f : Flags) : (c.orFlags f).regs.created = c.regs.created := rfl
@[simp] theorem orFlags_regs_pc (c : Core) (f : Flags) : (c.orFlags f).regs.pc = c.regs.pc := rfl

@[simp] theorem setN_regs_s (c : Core) (r : NReg) (x : Name) : (c.setN r x).regs.s = c.regs.s := rfl
@[simp] theorem setN_regs_k (c : Core) (r : NReg) (x : Name) : (c.setN r x).regs.k = c.regs.k := rfl
@[simp] theorem setN_regs_v (c : Core) (r : NReg) (x : Name) : (c.setN r x).regs.v = c.regs.v := rfl
@[simp] theorem setN_regs_tc (c : Core) (r : NReg) (x : Name) : (c.setN r x).regs.tc = c.regs.tc := rfl
@[simp] theorem setN_regs_lpcnt (c : Core) (r : NReg) (x : Name) : (c.setN r x).regs.lpcnt = c.regs.lpcnt := rfl
@[simp] theorem setN_regs_lpbeg (c : Core) (r : NReg) (x : Name) : (c.setN r x).regs.lpbeg = c.regs.lpbeg := rfl
@[simp] theorem setN_regs_lpexit (c : Core) (r : NReg) (x : Name) : (c.setN r x).regs.lpexit = c.regs.lpexit := rfl
@[simp] theorem setN_regs_fireid (c : Core) (r : NReg) (x : Name) : (c.setN r x).regs.fireid = c.regs.fireid := rfl
@[simp] theorem setN_regs_prio (c : Core) (r : NReg) (x : Name) : (c.setN r x).regs.prio = c.regs.prio := rfl
@[simp] theorem setN_regs_fpmode (c : Core) (r : NReg) (x : Name) : (c.setN r x).regs.fpmode = c.regs.fpmode := rfl
@[simp] theorem setN_regs_fpstat (c : Core) (r : NReg) (x : Name) : (c.setN r x).regs.fpstat = c.regs.fpstat := rfl
@[simp] theorem setN_regs_created (c : Core) (r : NReg) (x : Name) : (c.setN r x).regs.created = c.regs.created := rfl
@[simp] theorem setN_regs_pc (c : Core) (r : NReg) (x : Name) : (c.setN r x).regs.pc = c.regs.pc := rfl

@[simp] theorem setV_regs_s (c : Core) (r : Reg) (x : VReg) : (c.setV r x).regs.s = c.regs.s := rfl
@[simp] theorem setV_regs_k (c : Core) (r : Reg) (x : VReg) : (c.setV r x).regs.k = c.regs.k := rfl
@[simp] theorem setV_regs_n (c : Core) (r : Reg) (x : VReg) : (c.setV r x).regs.n = c.regs.n := rfl
@[simp] theorem setV_regs_tc (c : Core) (r : Reg) (x : VReg) : (c.setV r x).regs.tc = c.regs.tc := rfl
@[simp] theorem setV_regs_lpcnt (c : Core) (r : Reg) (x : VReg) : (c.setV r x).regs.lpcnt = c.regs.lpcnt := rfl
@[simp] theorem setV_regs_lpbeg (c : Core) (r : Reg) (x : VReg) : (c.setV r x).regs.lpbeg = c.regs.lpbeg := rfl
@[simp] theorem setV_regs_lpexit (c : Core) (r : Reg) (x : VReg) : (c.setV r x).regs.lpexit = c.regs.lpexit := rfl
@[simp] theorem setV_regs_fireid (c : Core) (r : Reg) (x : VReg) : (c.setV r x).regs.fireid = c.regs.fireid := rfl
@[simp] theorem setV_regs_prio (c : Core) (r : Reg) (x : VReg) : (c.setV r x).regs.prio = c.regs.prio := rfl
@[simp] theorem setV_regs_fpmode (c : Core) (r : Reg) (x : VReg) : (c.setV r x).regs.fpmode = c.regs.fpmode := rfl
@[simp] theorem setV_regs_fpstat (c : Core) (r : Reg) (x : VReg) : (c.setV r x).regs.fpstat = c.regs.fpstat := rfl
@[simp] theorem setV_regs_created (c : Core) (r : Reg) (x : VReg) : (c.setV r x).regs.created = c.regs.created := rfl
@[simp] theorem setV_regs_pc (c : Core) (r : Reg) (x : VReg) : (c.setV r x).regs.pc = c.regs.pc := rfl

@[simp] theorem setK_regs_s (c : Core) (r : KReg) (x : W64) : (c.setK r x).regs.s = c.regs.s := by unfold Core.setK; split <;> rfl
@[simp] theorem setK_regs_n (c : Core) (r : KReg) (x : W64) : (c.setK r x).regs.n = c.regs.n := by unfold Core.setK; split <;> rfl
@[simp] theorem setK_regs_v (c : Core) (r : KReg) (x : W64) : (c.setK r x).regs.v = c.regs.v := by unfold Core.setK; split <;> rfl
@[simp] theorem setK_regs_tc (c : Core) (r : KReg) (x : W64) : (c.setK r x).regs.tc = c.regs.tc := by unfold Core.setK; split <;> rfl
@[simp] theorem setK_regs_lpcnt (c : Core) (r : KReg) (x : W64) : (c.setK r x).regs.lpcnt = c.regs.lpcnt := by unfold Core.setK; split <;> rfl
@[simp] theorem setK_regs_lpbeg (c : Core) (r : KReg) (x : W64) : (c.setK r x).regs.lpbeg = c.regs.lpbeg := by unfold Core.setK; split <;> rfl
@[simp] theorem setK_regs_lpexit (c : Core) (r : KReg) (x : W64) : (c.setK r x).regs.lpexit = c.regs.lpexit := by unfold Core.setK; split <;> rfl
@[simp] theorem setK_regs_fireid (c : Core) (r : KReg) (x : W64) : (c.setK r x).regs.fireid = c.regs.fireid := by unfold Core.setK; split <;> rfl
@[simp] theorem setK_regs_prio (c : Core) (r : KReg) (x : W64) : (c.setK r x).regs.prio = c.regs.prio := by unfold Core.setK; split <;> rfl
@[simp] theorem setK_regs_fpmode (c : Core) (r : KReg) (x : W64) : (c.setK r x).regs.fpmode = c.regs.fpmode := by unfold Core.setK; split <;> rfl
@[simp] theorem setK_regs_fpstat (c : Core) (r : KReg) (x : W64) : (c.setK r x).regs.fpstat = c.regs.fpstat := by unfold Core.setK; split <;> rfl
@[simp] theorem setK_regs_created (c : Core) (r : KReg) (x : W64) : (c.setK r x).regs.created = c.regs.created := by unfold Core.setK; split <;> rfl
@[simp] theorem setK_regs_pc (c : Core) (r : KReg) (x : W64) : (c.setK r x).regs.pc = c.regs.pc := by unfold Core.setK; split <;> rfl

@[simp] theorem setS_regs_k (c : Core) (r : Reg) (x : W64) : (c.setS r x).regs.k = c.regs.k := by unfold Core.setS; split; rfl; split <;> rfl
@[simp] theorem setS_regs_n (c : Core) (r : Reg) (x : W64) : (c.setS r x).regs.n = c.regs.n := by unfold Core.setS; split; rfl; split <;> rfl
@[simp] theorem setS_regs_v (c : Core) (r : Reg) (x : W64) : (c.setS r x).regs.v = c.regs.v := by unfold Core.setS; split; rfl; split <;> rfl
@[simp] theorem setS_regs_tc (c : Core) (r : Reg) (x : W64) : (c.setS r x).regs.tc = c.regs.tc := by unfold Core.setS; split; rfl; split <;> rfl
@[simp] theorem setS_regs_lpcnt (c : Core) (r : Reg) (x : W64) : (c.setS r x).regs.lpcnt = c.regs.lpcnt := by unfold Core.setS; split; rfl; split <;> rfl
@[simp] theorem setS_regs_lpbeg (c : Core) (r : Reg) (x : W64) : (c.setS r x).regs.lpbeg = c.regs.lpbeg := by unfold Core.setS; split; rfl; split <;> rfl
@[simp] theorem setS_regs_lpexit (c : Core) (r : Reg) (x : W64) : (c.setS r x).regs.lpexit = c.regs.lpexit := by unfold Core.setS; split; rfl; split <;> rfl
@[simp] theorem setS_regs_fireid (c : Core) (r : Reg) (x : W64) : (c.setS r x).regs.fireid = c.regs.fireid := by unfold Core.setS; split; rfl; split <;> rfl
@[simp] theorem setS_regs_prio (c : Core) (r : Reg) (x : W64) : (c.setS r x).regs.prio = c.regs.prio := by unfold Core.setS; split; rfl; split <;> rfl
@[simp] theorem setS_regs_fpmode (c : Core) (r : Reg) (x : W64) : (c.setS r x).regs.fpmode = c.regs.fpmode := by unfold Core.setS; split; rfl; split <;> rfl
@[simp] theorem setS_regs_fpstat (c : Core) (r : Reg) (x : W64) : (c.setS r x).regs.fpstat = c.regs.fpstat := by unfold Core.setS; split; rfl; split <;> rfl
@[simp] theorem setS_regs_created (c : Core) (r : Reg) (x : W64) : (c.setS r x).regs.created = c.regs.created := by unfold Core.setS; split; rfl; split <;> rfl
@[simp] theorem setS_regs_pc (c : Core) (r : Reg) (x : W64) : (c.setS r x).regs.pc = c.regs.pc := by unfold Core.setS; split; rfl; split <;> rfl

end Sys2Proof.Laws
end

