-- ==== Sys2Proof/Laws/Agent.lean ====
section
/-! SUPPORT. Bytes at the agents and in the G-cache: masked lines byte by byte, what a masked write leaves, translation beside the agent's
cache of leaves (07 R194, 08 R202 to R206). -/

namespace Sys2Proof.Laws

open Sys2Proof.Machine Sys2Proof.Safety

/-! Bytes of a number. -/

theorem slice_eq {x y w k : Nat} (h : ∀ i, i < w → x.testBit (w * k + i) = y.testBit (w * k + i)) : slice x w k = slice y w k := by
  apply Nat.eq_of_testBit_eq
  intro i
  by_cases hi : i < w
  · simp [slice, Nat.testBit_mod_two_pow, Nat.testBit_shiftRight, hi, h i hi]
  · simp [slice, Nat.testBit_mod_two_pow, hi]

theorem testBit_slice {x w k i : Nat} (h : i < w) : (slice x w k).testBit i = x.testBit (w * k + i) := by
  simp [slice, Nat.testBit_mod_two_pow, Nat.testBit_shiftRight, h]

theorem slice_mod {x w k m : Nat} (h : w * k + w ≤ m) : slice (x % 2 ^ m) w k = slice x w k :=
  slice_eq fun i hi => by rw [Nat.testBit_mod_two_pow]; simp; omega

/-- Packed elements by bits. -/
theorem testBit_pack8 (l : List Nat) (i : Nat) : (pack 8 l).testBit i = (l.getD (i / 8) 0).testBit (i % 8) := by
  induction l generalizing i with
  | nil => simp [pack]
  | cons x t ih =>
    rw [pack, Nat.add_comm, Nat.testBit_two_pow_mul_add _ (Nat.mod_lt _ (by decide))]
    by_cases h : i < 8
    · have h0 : i / 8 = 0 := by omega
      have h1 : i % 8 = i := by omega
      rw [if_pos h, Nat.testBit_mod_two_pow, h0, h1]
      simp [h]
    · have h0 : i / 8 = (i - 8) / 8 + 1 := by omega
      have h1 : i % 8 = (i - 8) % 8 := by omega
      rw [if_neg h, ih, h0, h1]
      simp

theorem testBit_byteMask (m n i : Nat) : (byteMask m n).testBit i = (decide (i < 8 * n) && m.testBit (i / 8)) := by
  rw [byteMask, testBit_pack8]
  by_cases h : i < 8 * n
  · have hl : i / 8 < n := by omega
    have h8 : i % 8 < 8 := Nat.mod_lt _ (by decide)
    simp only [List.getD_eq_getElem?_getD, List.getElem?_map, List.getElem?_range hl, Option.map_some, Option.getD_some, h, decide_true, Bool.true_and]
    cases m.testBit (i / 8)
    · simp
    · have : (255 : Nat) = 2 ^ 8 - 1 := rfl
      simp only [if_true, this, Nat.testBit_two_pow_sub_one, h8, decide_true]
  · have hl : ¬ i / 8 < n := by omega
    simp [h, hl]

theorem byteMask_lt (m n : Nat) : byteMask m n < 2 ^ (8 * n) := by
  apply Nat.lt_pow_two_of_testBit
  intro i hi
  rw [testBit_byteMask]
  have : ¬ i < 8 * n := by omega
  simp [this]

theorem testBit_mixBytes (n m x y i : Nat) :
    (mixBytes n m x y).testBit i = (decide (i < 8 * n) && if m.testBit (i / 8) then y.testBit i else x.testBit i) := by
  have e : 2 ^ (8 * n) - 1 - byteMask m n = 2 ^ (8 * n) - (byteMask m n + 1) := by omega
  simp only [mixBytes]
  rw [Nat.testBit_or, Nat.testBit_and, Nat.testBit_and, e, Nat.testBit_two_pow_sub_succ (byteMask_lt m n), testBit_byteMask]
  by_cases h : i < 8 * n <;> cases m.testBit (i / 8) <;> simp [h]

/-- A masked line, byte by byte. -/
theorem slice_mixBytes {n k : Nat} (h : k < n) (m x y : Nat) : slice (mixBytes n m x y) 8 k = if m.testBit k then slice y 8 k else slice x 8 k := by
  have main : ∀ i, i < 8 → (mixBytes n m x y).testBit (8 * k + i) = if m.testBit k then y.testBit (8 * k + i) else x.testBit (8 * k + i) := by
    intro i hi
    have h1 : 8 * k + i < 8 * n := by omega
    have h2 : (8 * k + i) / 8 = k := by omega
    rw [testBit_mixBytes]
    simp [h1, h2]
  split <;> exact slice_eq fun i hi => by rw [main i hi]; simp [*]

theorem mixBytes_lt (n m x y : Nat) : mixBytes n m x y < 2 ^ (8 * n) := by
  apply Nat.lt_pow_two_of_testBit
  intro i hi
  rw [testBit_mixBytes]
  have : ¬ i < 8 * n := by omega
  simp [this]

theorem toNat_mixBytes (m x y : Nat) : (BitVec.ofNat 512 (mixBytes 64 m x y)).toNat = mixBytes 64 m x y := by
  rw [BitVec.toNat_ofNat, Nat.mod_eq_of_lt (mixBytes_lt 64 m x y)]

theorem slice_shiftLeft {x w j k : Nat} (h : j ≤ k) : slice (x <<< (w * j)) w k = slice x w (k - j) := by
  apply Nat.eq_of_testBit_eq
  intro i
  by_cases hi : i < w
  · have e : w * k = w * (k - j) + w * j := by rw [← Nat.mul_add, Nat.sub_add_cancel h]
    have e1 : w * k + i - w * j = w * (k - j) + i := by omega
    have e2 : w * j ≤ w * k + i := by omega
    rw [testBit_slice hi, testBit_slice hi, Nat.testBit_shiftLeft, e1]
    simp [e2]
  · simp [slice, Nat.testBit_mod_two_pow, hi]

/-! Lines of the G-cache (07 R194). -/

/-- A masked write to a line, byte by byte: data, valid and dirty. -/
theorem write_byte (g : GLine) (mask x : Nat) (dirty : Bool) {k : Nat} (h : k < 64) :
    slice (g.write mask x dirty).data.toNat 8 k = (if mask.testBit k then slice x 8 k else slice g.data.toNat 8 k) ∧
    (g.write mask x dirty).valid.getLsbD k = (mask.testBit k || g.valid.getLsbD k) ∧
    (g.write mask x dirty).dirty.getLsbD k = if mask.testBit k then dirty else g.dirty.getLsbD k := by
  have hm : (BitVec.ofNat 64 mask).getLsbD k = mask.testBit k := by rw [BitVec.getLsbD_ofNat]; simp [h]
  refine ⟨?_, ?_, ?_⟩
  · rw [GLine.write, toNat_mixBytes, slice_mixBytes h]
  · simp only [GLine.write, BitVec.getLsbD_or, hm, Bool.or_comm]
  · cases dirty <;> simp only [GLine.write, if_true, if_false, Bool.false_eq_true, BitVec.getLsbD_or, BitVec.getLsbD_and, BitVec.getLsbD_not, hm] <;>
      cases mask.testBit k <;> simp [h]

/-- A filled line keeps its valid bytes and takes the others. -/
theorem fillFrom_byte (g : GLine) (x : Nat) (w : Bool) {k : Nat} (h : k < 64) :
    slice (g.fillFrom x w).data.toNat 8 k = if g.valid.getLsbD k then slice g.data.toNat 8 k else slice x 8 k := by
  rw [GLine.fillFrom, toNat_mixBytes, slice_mixBytes h]
  have : (~~~g.valid).toNat.testBit k = !g.valid.getLsbD k := by
    rw [← BitVec.getLsbD, BitVec.getLsbD_not]; simp [h]
  rw [this]
  cases g.valid.getLsbD k <;> simp

@[simp] theorem gline_setGline (c : Core) (l : Nat) (g : GLine) (h : g.valid ≠ 0#64) : (c.setGline l g).gline l = some g := by
  simp [Core.gline, Core.setGline, h]

theorem gline_setGline_of_ne {j l : Nat} (h : j ≠ l) (c : Core) (g : GLine) : (c.setGline l g).gline j = c.gline j := by
  unfold Core.gline Core.setGline
  simp only
  split
  · rw [find_erase_of_ne h]
  · rw [find_insert_of_ne h]

/-! Masked writes at the agent (08 R206). -/

/-- Inside a masked write each byte is the new one where its mask bit is set, and the old one elsewhere. -/
theorem rd_wrMask_inside {m : Memory} (h : m.wf = true) (a mask x n : Nat) {k : Nat} (hk : k < n) :
    rd (wrMask m a mask x n) (a + k) = if mask.testBit k then BitVec.ofNat 8 (slice x 8 k) else rd m (a + k) := by
  induction n generalizing m a mask x k with
  | zero => omega
  | succ n ih =>
    rw [wrMask]
    cases k with
    | zero =>
      rw [rd_wrMask_outside (by omega)]
      split
      · simp only [Nat.add_zero, rd_wr_self h]
        apply BitVec.eq_of_toNat_eq
        simp [slice]
      · rfl
    | succ k =>
      have e : a + (k + 1) = a + 1 + k := by omega
      have hw : (if mask.testBit 0 then wr m a (BitVec.ofNat 8 x) else m).wf = true := by split; exact wr_wf h ..; exact h
      rw [e, ih hw (a + 1) (mask / 2) (x / 256) (by omega), Nat.testBit_div_two]
      have hs : slice (x / 256) 8 k = slice x 8 (k + 1) := by
        have : x / 256 = x >>> 8 := by rw [Nat.shiftRight_eq_div_pow]
        simp only [slice, this, ← Nat.shiftRight_add]
        congr 2
        omega
      rw [hs]
      split
      · rfl
      · split
        · rw [rd_wr_of_ne (by omega)]
        · rfl

/-! Translation beside the agent's cache of leaves (08 R203). -/

@[simp] theorem cacheLeaf_core (s : State) (r va : Nat) : (cacheLeaf s r va).core = s.core := by
  unfold cacheLeaf; simp only; repeat' split
  all_goals rfl

@[simp] theorem cacheLeaf_hbm (s : State) (r va : Nat) : (cacheLeaf s r va).hbm = s.hbm := by
  unfold cacheLeaf; simp only; repeat' split
  all_goals rfl

@[simp] theorem cacheLeaf_host (s : State) (r va : Nat) : (cacheLeaf s r va).host = s.host := by
  unfold cacheLeaf; simp only; repeat' split
  all_goals rfl

@[simp] theorem cacheLeaf_badLine (s : State) (r va : Nat) : (cacheLeaf s r va).badLine = s.badLine := by
  unfold cacheLeaf; simp only; repeat' split
  all_goals rfl

/-- Caching the leaf of an address leaves its translation as it was. -/
@[simp] theorem xlate_cacheLeaf (s : State) (r va : Nat) (need : Need) : xlate (cacheLeaf s r va) r va need = xlate s r va need := by
  have : (if 2 ^ 56 ≤ va then none else leafFor (cacheLeaf s r va) r va) = if 2 ^ 56 ≤ va then none else leafFor s r va := by
    by_cases hv : 2 ^ 56 ≤ va
    · rw [if_pos hv, if_pos hv]
    rw [if_neg hv, if_neg hv]
    unfold cacheLeaf
    simp only
    split
    · rfl
    · rename_i hn
      rw [if_neg hv]
      split
      · rename_i e bits hl
        rw [hl]
        split <;> simp [leafFor]
      · rfl
  unfold xlate
  rw [this]

@[simp] theorem agentRead_cacheLeaf (s : State) (r va n : Nat) (need : Need) : agentRead (cacheLeaf s r va) r va n need = agentRead s r va n need := by
  simp [agentRead, State.lineBad]

/-! Accesses that meet the G-cache (09 R226, R228). -/

/-- An operation as the core enters it in its list. -/
def entered (s : State) (o : Op) : Op := { o with ser := s.core.nextSer, fid := s.core.regs.fireid, fw := s.core.fwm, born := s.core.cycle }

/-- Nothing of the running firing is outstanding, no arrival either: an access that meets the G-cache is served at once. -/
theorem issueAccess_alone {s : State} {o : Op} (h1 : ∀ e ∈ s.core.ops, e.fid ≠ s.core.regs.fireid)
    (h2 : ∀ e ∈ s.core.arrivals, e.fid ≠ s.core.regs.fireid) :
    issueAccess o s = serve s.core.ops.length (entered s { o with wait := true }) (addOp { o with wait := true } s) := by
  have hat : (addOp { o with wait := true } s).core.ops[s.core.ops.length]? = some (entered s { o with wait := true }) := by
    simp [addOp, Core.addOp, State.onCore, entered]
  have hall : ((addOp { o with wait := true } s).core.ops.take s.core.ops.length).all
      (fun e => !servedBefore e (entered s { o with wait := true })) = true := by
    simp only [addOp, Core.addOp, State.onCore, List.take_left', List.all_eq_true]
    intro e he
    have := h1 e he
    have hf : (entered s { o with wait := true }).fid = s.core.regs.fireid := rfl
    simp only [servedBefore, cacheFirst, hf]
    simp [this]
  have hb : (addOp { o with wait := true } s).core.barBefore 0 (entered s { o with wait := true }) = false := by
    simp only [Core.barBefore, addOp, Core.addOp, State.onCore, entered, List.any_append, List.any_cons, List.any_nil, Bool.or_false, Bool.or_eq_false_iff,
      List.any_eq_false]
    refine ⟨⟨fun e he => ?_, ?_⟩, fun e he => ?_⟩
    · simp [h1 e he]
    · simp
    · simp [h2 e he]
  unfold issueAccess serveTurn
  rw [hat]
  have : mayServe (addOp { o with wait := true } s).core s.core.ops.length (entered s { o with wait := true }) = true := by
    simp only [mayServe, hall, hb, Bool.true_and]
    split <;> rfl
  simp only [this, Bool.and_true]
  rfl

/-- Lines within one: an access aligned to its power-of-two size of at most 64 bytes meets one line. -/
theorem linesOf_one {ea n : Nat} (h0 : 0 < n) (h : ea % 64 + n ≤ 64) : linesOf ea n = [ea / 64] := by
  have : (ea + n + 63) / 64 - ea / 64 = 1 := by omega
  simp [linesOf, this]

theorem makeWay_room {s : State} {l : Nat} (h : (s.core.setLines l).length < 8 ∨ (s.core.gline l).isSome = true) : makeWay l s = s := by
  unfold makeWay
  simp only
  rw [if_pos]
  rcases h with h | h
  · simp [h]
  · have : (s.core.setLines l).contains l = true := by
      simp only [Core.gline] at h
      obtain ⟨g, hg⟩ := Option.isSome_iff_exists.mp h
      have hm : ∀ (m : Map GLine), find? l m = some g → (l, g) ∈ m := by
        intro m
        induction m with
        | nil => simp [find?]
        | cons p t ih =>
          simp only [find?]
          split
          · rintro e; cases e; subst_vars; simp
          · intro e; simp [ih e]
      simp only [Core.setLines, List.contains_iff_mem, List.mem_map, List.mem_filter]
      exact ⟨(l, g), ⟨hm _ hg, by simp⟩, rfl⟩
    rw [this, Bool.true_or]

/-- Bytes written to a line that the cache has room for. -/
theorem gWrite_one {s : State} {ea n x : Nat} (dirty : Bool) (h0 : 0 < n) (h : ea % 64 + n ≤ 64) (hh : isHost (64 * (ea / 64)) = false)
    (hr : (s.core.setLines (ea / 64)).length < 8 ∨ (s.core.gline (ea / 64)).isSome = true) :
    gWrite ea n x dirty s = s.onCore fun c => c.setGline (ea / 64)
      (((c.gline (ea / 64)).getD {}).write ((2 ^ n - 1) <<< (ea % 64)) (slice x (8 * n) 0 <<< (8 * (ea % 64))) dirty) := by
  have hn : min n 64 = n := by omega
  simp only [gWrite, linesOf_one h0 h, hn]
  have : ([ea / 64].zip (List.range 4)) = [(ea / 64, 0)] := rfl
  rw [this]
  simp only [List.foldl_cons, List.foldl_nil, hh, Bool.false_eq_true, if_false, makeWay_room hr]

/-- The mask of n bytes from w on. -/
theorem testBit_bytes (w n k : Nat) : ((2 ^ n - 1) <<< w).testBit k = decide (w ≤ k ∧ k < w + n) := by
  rw [Nat.testBit_shiftLeft, Nat.testBit_two_pow_sub_one]
  by_cases h1 : w ≤ k <;> by_cases h2 : k < w + n <;> simp [h1, h2] <;> omega

theorem isHost_line (x : Nat) : isHost (64 * (x / 64)) = isHost x := by
  simp only [isHost, Nat.shiftRight_eq_div_pow]
  have : 64 * (x / 64) / 2 ^ 52 = x / 2 ^ 52 := by omega
  rw [this]

end Sys2Proof.Laws
end

