-- ==== Sys2Proof/Laws/Local.lean ====
section
/-! SUPPORT. Core buffers and the tile table: reads after writes, and the canonical form of the buffers (07 R166 to R173). -/

namespace Sys2Proof.Laws

open Sys2Proof.Machine Sys2Proof.Safety

/-- Buffer codes 0 to 2 name a buffer. -/
theorem buf_setBuf {b : BitVec 2} (h : b ≠ 3#2) (c : Core) (m : Memory) : (c.setBuf b m).buf b = m := by
  have : b = 0#2 ∨ b = 1#2 ∨ b = 2#2 := by revert b; decide
  rcases this with rfl | rfl | rfl <;> rfl

theorem buf_setBuf_of_ne {b d : BitVec 2} (h : d ≠ b) (c : Core) (m : Memory) : (c.setBuf b m).buf d = c.buf d := by
  have hb : b = 0#2 ∨ b = 1#2 ∨ b = 2#2 ∨ b = 3#2 := by revert b d; decide
  have hd : d = 0#2 ∨ d = 1#2 ∨ d = 2#2 ∨ d = 3#2 := by revert b d; decide
  rcases hb with rfl | rfl | rfl | rfl <;> rcases hd with rfl | rfl | rfl | rfl <;> first | rfl | exact absurd rfl h

theorem buf_wf {c : Core} (h : BuffersWf c) (b : BitVec 2) : (c.buf b).wf = true := by
  unfold Core.buf
  split
  · exact h.1
  · exact h.2.1
  · exact h.2.2
  · rfl

theorem setBuf_wf {c : Core} (h : BuffersWf c) {m : Memory} (hm : m.wf = true) (b : BitVec 2) : BuffersWf (c.setBuf b m) := by
  unfold Core.setBuf
  split
  · exact ⟨hm, h.2.1, h.2.2⟩
  · exact ⟨h.1, hm, h.2.2⟩
  · exact ⟨h.1, h.2.1, hm⟩
  · exact h

/-- A store keeps the canonical form of the buffers. -/
theorem store_wf {c : Core} (h : BuffersWf c) (b : BitVec 2) (a x n : Nat) : BuffersWf (c.store b a x n) :=
  setBuf_wf (c := c) h (wrN_wf (buf_wf h b) ..) b

theorem buf_store (c : Core) (b d : BitVec 2) (a x n : Nat) : (c.store b a x n).buf d = (c.setBuf b (wrN (c.buf b) a x n)).buf d := rfl

/-- Bytes stored are the bytes loaded. -/
theorem load_store_self {c : Core} (h : BuffersWf c) {b : BitVec 2} (hb : b ≠ 3#2) (a x n : Nat) : (c.store b a x n).load b a n = x % 256 ^ n := by
  rw [Core.load, buf_store, buf_setBuf hb, rdN_wrN (buf_wf h b)]

/-- Outside the stored bytes every buffer reads as before. -/
theorem rd_store_outside {c : Core} {b d : BitVec 2} {a n i : Nat} (h : d ≠ b ∨ i < a ∨ a + n ≤ i) (x : Nat) :
    rd ((c.store b a x n).buf d) i = rd (c.buf d) i := by
  by_cases hd : d = b
  · subst hd
    by_cases h3 : d = 3#2
    · subst h3; rfl
    · rw [buf_store, buf_setBuf h3, rd_wrN_outside (by simpa using h)]
  · rw [buf_store, buf_setBuf_of_ne hd]

/-! The tile table. -/

/-- A tile set to a value other than EMPTY's reads as that value. -/
theorem tile_setTile_self {c : Core} {t : Tile} (h : t ≠ {}) (i : Nat) : (c.setTile i t).tile i = t := by
  simp [Core.tile, Core.setTile, put, h]

theorem tile_setTile_of_ne {i j : Nat} (h : j ≠ i) (c : Core) (t : Tile) : (c.setTile i t).tile j = c.tile j := by
  simp only [Core.tile, Core.setTile, put, findD]
  split
  · rw [find_erase_of_ne h]
  · rw [find_insert_of_ne h]

/-- A tile freed reads EMPTY. -/
theorem tile_setTile_empty {c : Core} (h : sortedFrom 0 c.tiles = true) (i : Nat) : (c.setTile i {}).tile i = {} := by
  simp [Core.tile, Core.setTile, put, findD, find_erase_self h]

end Sys2Proof.Laws
end

