-- ==== Sys2Proof/Laws/Ops.lean ====
section
/-! SUPPORT. What the shared operations of a core can do: reads after writes in the register files, results on their way and
landing, the checks and holds of an instruction, traps, the closing of a bundle, the cycle that fetches. -/

namespace Sys2Proof.Laws

open Sys2Proof.Machine Sys2Proof.Safety

/-! Register files (03 R64, R65). -/

theorem toNat_ne {n : Nat} {a b : BitVec n} (h : a ≠ b) : a.toNat ≠ b.toNat := fun e => h (BitVec.eq_of_toNat_eq e)

theorem inBank_setS (c : Core) (r q : Reg) (x : W64) : inBank (c.setS r x) q = inBank c q := by simp [inBank, Core.banked]

/-- A scalar register reads what was last written to it; the others stay, and s0 is zero. -/
theorem s_setS (c : Core) (r q : Reg) (x : W64) : (c.setS r x).s q = if q = r ∧ r ≠ 0#5 then x else c.s q := by
  by_cases hr : r = 0#5
  · simp [Core.setS, hr]
  by_cases hq : q = 0#5
  · have : ¬ 0#5 = r := fun e => hr e.symm
    simp [Core.s, hq, this]
  have hb := inBank_setS c r q x
  simp only [Core.s, hq, if_false, hb]
  by_cases e : q = r
  · subst e
    by_cases h : inBank c q <;> simp [h, hq, Core.setS]
  · have hne := toNat_ne e
    by_cases h : inBank c q
    · by_cases hc : inBank c r
      · have h1 : 24 ≤ q.toNat := by simp [inBank, BitVec.ule] at h; omega
        have h2 : 24 ≤ r.toNat := by simp [inBank, BitVec.ule] at hc; omega
        have l1 := q.isLt
        have l2 := r.isLt
        have : r.toNat % 8 ≠ q.toNat % 8 := by omega
        simp [h, hr, hc, e, Core.setS, this]
      · simp [h, hr, hc, e, Core.setS]
    · by_cases hc : inBank c r
      · simp [h, hr, hc, e, Core.setS]
      · simp [h, hr, hc, e, Core.setS, Ne.symm hne]

theorem k_setK (c : Core) (r q : KReg) (x : W64) : (c.setK r x).k q = if q = r ∧ r ≠ 0#3 then x else c.k q := by
  by_cases hr : r = 0#3
  · simp [Core.setK, hr]
  by_cases e : q = r
  · subst e; simp [Core.setK, Core.k, hr]
  · simp [Core.setK, Core.k, hr, e, toNat_ne (Ne.symm e)]

theorem n_setN (c : Core) (r q : NReg) (x : Name) : (c.setN r x).n q = if q = r then x else c.n q := by
  by_cases e : q = r
  · subst e; simp [Core.setN, Core.n]
  · simp [Core.setN, Core.n, e, toNat_ne (Ne.symm e)]

theorem v_setV (c : Core) (r q : Reg) (x : VReg) : (c.setV r x).v q = if q = r then x else c.v q := by
  by_cases e : q = r
  · subst e; simp [Core.setV, Core.v]
  · simp [Core.setV, Core.v, e, toNat_ne (Ne.symm e)]

@[simp] theorem s_setK (c : Core) (r : KReg) (x : W64) (q : Reg) : (c.setK r x).s q = c.s q := by simp [Core.s, inBank, Core.banked]
@[simp] theorem s_setN (c : Core) (r : NReg) (x : Name) (q : Reg) : (c.setN r x).s q = c.s q := rfl
@[simp] theorem s_setV (c : Core) (r : Reg) (x : VReg) (q : Reg) : (c.setV r x).s q = c.s q := rfl
@[simp] theorem s_addTc (c : Core) (i : BitVec 4) (d : Int) (q : Reg) : (c.addTc i d).s q = c.s q := by simp [Core.s, inBank, Core.banked]
@[simp] theorem s_orFlags (c : Core) (f : Flags) (q : Reg) : (c.orFlags f).s q = c.s q := rfl
@[simp] theorem k_setS (c : Core) (r : Reg) (x : W64) (q : KReg) : (c.setS r x).k q = c.k q := by simp [Core.k]
@[simp] theorem k_setN (c : Core) (r : NReg) (x : Name) (q : KReg) : (c.setN r x).k q = c.k q := rfl
@[simp] theorem k_setV (c : Core) (r : Reg) (x : VReg) (q : KReg) : (c.setV r x).k q = c.k q := rfl
@[simp] theorem n_setS (c : Core) (r : Reg) (x : W64) (q : NReg) : (c.setS r x).n q = c.n q := by simp [Core.n]
@[simp] theorem n_setK (c : Core) (r : KReg) (x : W64) (q : NReg) : (c.setK r x).n q = c.n q := by simp [Core.n]
@[simp] theorem n_setV (c : Core) (r : Reg) (x : VReg) (q : NReg) : (c.setV r x).n q = c.n q := rfl
@[simp] theorem v_setS (c : Core) (r : Reg) (x : W64) (q : Reg) : (c.setS r x).v q = c.v q := by simp [Core.v]
@[simp] theorem v_setK (c : Core) (r : KReg) (x : W64) (q : Reg) : (c.setK r x).v q = c.v q := by simp [Core.v]
@[simp] theorem v_setN (c : Core) (r : NReg) (x : Name) (q : Reg) : (c.setN r x).v q = c.v q := rfl

/-! Landing (02 R53). -/

/-- A write touches registers, the bank and the control registers: nothing in flight, no memory, no table. -/
theorem apply_frame (c : Core) (p : Put) :
    (c.apply p).pend = c.pend ∧ (c.apply p).fwm = c.fwm ∧ (c.apply p).tcd = c.tcd ∧ (c.apply p).tiles = c.tiles ∧ (c.apply p).ops = c.ops ∧
      (c.apply p).bufW = c.bufW ∧ (c.apply p).bufA = c.bufA ∧ (c.apply p).bufC = c.bufC := by
  cases p with
  | ctl n x => unfold Core.apply Core.ctlWrite; (repeat' split) <;> simp
  | _ => simp [Core.apply]

/-- Landing a result touches registers, flags, histogram and token changes only. -/
theorem landOne_frame (c : Core) (p : Pending) :
    (c.landOne p).pend = c.pend ∧ (c.landOne p).fwm = c.fwm ∧ (c.landOne p).tiles = c.tiles ∧ (c.landOne p).ops = c.ops ∧
      (c.landOne p).bufW = c.bufW ∧ (c.landOne p).bufA = c.bufA ∧ (c.landOne p).bufC = c.bufC := by
  have := apply_frame c p.put
  simp [Core.landOne, this]

theorem foldl_landOne_frame (l : List Pending) (c : Core) :
    (l.foldl Core.landOne c).pend = c.pend ∧ (l.foldl Core.landOne c).fwm = c.fwm ∧ (l.foldl Core.landOne c).tiles = c.tiles ∧
      (l.foldl Core.landOne c).ops = c.ops ∧ (l.foldl Core.landOne c).bufW = c.bufW ∧ (l.foldl Core.landOne c).bufA = c.bufA ∧
      (l.foldl Core.landOne c).bufC = c.bufC := by
  induction l generalizing c with
  | nil => simp
  | cons p t ih =>
    have h := landOne_frame c p
    have := ih (c.landOne p)
    simp only [List.foldl_cons]
    simp only [h] at this
    exact this

/-- A result that neither names a scalar register nor is a control register's leaves it. -/
theorem landOne_s (c : Core) (p : Pending) (r : Reg) (h : mayWriteS r p = false) : (c.landOne p).s r = c.s r := by
  have e : (c.landOne p).s r = (c.apply p.put).s r := by simp only [Core.landOne, s_addTc]; rfl
  rw [e]
  rcases p with ⟨rem, put, fl, hist, var, tcn⟩
  cases put with
  | s q x =>
    have hq : r ≠ q := by rintro rfl; simp [mayWriteS] at h
    simp [Core.apply, s_setS, hq]
  | ctl n x => simp [mayWriteS] at h
  | _ => simp [Core.apply] <;> rfl

theorem foldl_landOne_s (l : List Pending) (c : Core) (r : Reg) (h : ∀ p ∈ l, mayWriteS r p = false) :
    (l.foldl Core.landOne c).s r = c.s r := by
  induction l generalizing c with
  | nil => rfl
  | cons p t ih =>
    rw [List.foldl_cons, ih _ fun q hq => h q (by simp [hq]), landOne_s c p r (h p (by simp))]

/-- A scalar result that lands. -/
theorem landOne_s_self (c : Core) (p : Pending) (r : Reg) (x : W64) (h : p.put = .s r x) :
    (c.landOne p).s r = if r = 0#5 then 0#64 else x := by
  have e : (c.landOne p).s r = (c.apply p.put).s r := by simp only [Core.landOne, s_addTc]; rfl
  rw [e, h, Core.apply, s_setS]
  by_cases hr : r = 0#5 <;> simp [hr, Core.s]

/-- A counted tick lands a list of results made of those in flight: exactly the entries whose last tick it was, but for
those put off. -/
theorem tick_lands (c : Core) : ∃ l : List Pending, c.tick = l.foldl Core.landOne { c.count with pend := c.count.staying } ∧
    ∀ q, q ∈ l ↔ q ∈ c.count.pend ∧ q.rem = 0 ∧ c.count.late q = false := by
  refine ⟨_, rfl, ?_⟩
  intro q
  simp only [List.mem_append, List.mem_filter]
  by_cases h : q.isCtl <;> simp [h]

@[simp] theorem tick_pend (c : Core) : c.tick.pend = c.count.staying := by
  obtain ⟨l, e, -⟩ := tick_lands c
  rw [e, (foldl_landOne_frame l _).1]

@[simp] theorem tick_fwm (c : Core) : c.tick.fwm = c.fwm := by
  obtain ⟨l, e, -⟩ := tick_lands c
  rw [e, (foldl_landOne_frame l _).2.1]
  rfl

/-- Fixed-latency results alone in flight: none is put off. -/
theorem staying_of_fixed {c : Core} (h : ∀ p ∈ c.pend, p.var = false) : c.staying = c.pend.filter fun p => p.rem != 0 := by
  have : (c.pend.filter fun p => p.rem == 0 && c.late p) = [] := by
    rw [List.filter_eq_nil_iff]
    intro p hp
    simp [Core.late, h p hp]
  simp [Core.staying, this]

/-- With nothing in flight a tick only runs the divider. -/
theorem tick_of_empty {c : Core} (h : c.pend = []) : c.tick = { c with divrem := c.divrem - 1 } := by
  simp [Core.tick, Core.landDue, Core.count, Core.staying, h]

/-! Checks, holds and results. -/

theorem firstBad_none {l : List Check} (h : ∀ c ∈ l, c.bad = false) : firstBad l = none := by
  simp only [firstBad, List.find?_eq_none]
  intro c hc
  simp [h c hc]

/-- What the checks of an instruction can end in: its effect, or a trap for one of them. -/
theorem guarded_cases (cs : List Check) (eff : State → State) (s : State) :
    guarded cs eff s = eff s ∨ ∃ c ∈ cs, c.bad = true ∧ s.issue.commit = false ∧ guarded cs eff s = raiseWith c.cause (c.val.getD (slotVal s)) s := by
  unfold guarded
  split
  · exact .inl rfl
  · rename_i hc
    split
    · rename_i c h
      exact .inr ⟨c, List.mem_of_find?_eq_some h, List.find?_some h, by simpa using hc, rfl⟩
    · exact .inl rfl

@[simp] theorem guarded_commit {s : State} (h : s.issue.commit = true) (cs : List Check) (eff : State → State) : guarded cs eff s = eff s := by
  simp [guarded, h]

theorem guarded_of_ok {cs : List Check} (h : ∀ c ∈ cs, c.bad = false) (eff : State → State) (s : State) : guarded cs eff s = eff s := by
  simp [guarded, firstBad_none h]

theorem guarded_of_bad {cs : List Check} {c : Check} {s : State} (hc : s.issue.commit = false) (h : firstBad cs = some c) (eff : State → State) :
    guarded cs eff s = raiseWith c.cause (c.val.getD (slotVal s)) s := by simp [guarded, hc, h]

/-- A property that the effect gives and every trap gives holds of a guarded instruction. -/
theorem guarded_induct {P : State → Prop} {cs : List Check} {eff : State → State} {s : State} (h1 : P (eff s))
    (h2 : ∀ c v, P (raiseWith c v s)) : P (guarded cs eff s) := by
  rcases guarded_cases cs eff s with h | ⟨c, -, -, -, h⟩
  · rw [h]; exact h1
  · rw [h]; exact h2 _ _

theorem waitFor_cases (b : Bool) (why : Nat) (eff : State → State) (s : State) :
    waitFor b why eff s = eff s ∨ (b = true ∧ s.issue.commit = false ∧ waitFor b why eff s = hold why s) := by
  unfold waitFor
  split
  · rename_i h; simp at h; exact .inr ⟨h.1, h.2, rfl⟩
  · exact .inl rfl

@[simp] theorem waitFor_false (why : Nat) (eff : State → State) (s : State) : waitFor false why eff s = eff s := rfl
@[simp] theorem waitRoom_false (eff : State → State) (s : State) : waitRoom false eff s = eff s := rfl
@[simp] theorem waitRoom_true (eff : State → State) (s : State) : waitRoom true eff s = hold 4 s := rfl

/-- The register of a write decides whether it clashes, not the value. -/
theorem clashes_congr (s : State) {p q : Pending} (h1 : p.rem = q.rem) (h2 : p.put.keys s.core = q.put.keys s.core) : clashes s p = clashes s q := by
  simp [clashes, Put.meets, h1, h2]

theorem writeS_eq {lat : Nat} {d : Reg} {s : State} (h : unclaimed lat (.s d 0#64) s) (x : W64) :
    writeS lat d x s = launchResult { rem := lat, put := .s d x } s := by
  have : clashes s { rem := lat, put := .s d x } = false := h
  simp [writeS, result, guarded, firstBad, collision, this]

theorem writeK_eq {lat : Nat} {d : KReg} {s : State} (h : unclaimed lat (.k d 0#64) s) (x : W64) :
    writeK lat d x s = launchResult { rem := lat, put := .k d x } s := by
  have : clashes s { rem := lat, put := .k d x } = false := h
  simp [writeK, result, guarded, firstBad, collision, this]

theorem writeN_eq {lat : Nat} {d : NReg} {s : State} (h : unclaimed lat (.n d 0#96) s) (x : Name) :
    writeN lat d x s = launchResult { rem := lat, put := .n d x } s := by
  have : clashes s { rem := lat, put := .n d x } = false := h
  simp [writeN, result, guarded, firstBad, collision, this]

theorem vresult_eq {lat : Nat} {d : Reg} {s : State} (h : unclaimed lat (.v d {}) s) {tags own : List Check}
    (h1 : ∀ c ∈ tags, c.bad = false) (h2 : ∀ c ∈ own, c.bad = false) (r : VReg × Flags) :
    vresult lat d tags own r s = launchResult { rem := lat, put := .v d r.1, flags := r.2 } s := by
  have hc : clashes s { rem := lat, put := .v d r.1, flags := r.2 } = false := h
  refine guarded_of_ok ?_ _ _
  intro c hm
  simp only [List.mem_append, List.mem_cons] at hm
  rcases hm with hm | rfl | hm
  · exact h1 c hm
  · exact hc
  · exact h2 c hm

theorem sresult_eq {lat : Nat} {d : Reg} {s : State} (h : unclaimed lat (.s d 0#64) s) {tags own : List Check}
    (h1 : ∀ c ∈ tags, c.bad = false) (h2 : ∀ c ∈ own, c.bad = false) (x : W64) (f : Flags) :
    sresult lat d tags own x f s = launchResult { rem := lat, put := .s d x, flags := f } s := by
  have hc : clashes s { rem := lat, put := .s d x, flags := f } = false := h
  refine guarded_of_ok ?_ _ _
  intro c hm
  simp only [List.mem_append, List.mem_cons] at hm
  rcases hm with hm | rfl | hm
  · exact h1 c hm
  · exact hc
  · exact h2 c hm

/-- What an instruction that only writes registers leaves alone, on every path. -/
def resultFrame (s t : State) : Prop := elsewhereSame s t ∧
  (t.core = { s.core with pend := t.core.pend, divrem := t.core.divrem } ∨ ∃ c v, t = raiseWith c v s)

theorem resultFrame_launch (p : Pending) (s : State) : resultFrame s (launchResult p s) := ⟨rfl, .inl rfl⟩
theorem resultFrame_raise (c : Cause) (v : W64) (s : State) : resultFrame s (raiseWith c v s) := ⟨rfl, .inr ⟨c, v, rfl⟩⟩

theorem resultFrame_guarded (cs : List Check) (p : Pending) (s : State) : resultFrame s (guarded cs (launchResult p) s) :=
  guarded_induct (P := resultFrame s) (resultFrame_launch p s) fun c v => resultFrame_raise c v s

theorem resultFrame_divide (f : W64 → W64 → W64) (d a b : Reg) (s : State) : resultFrame s (divide f d a b s) := by
  unfold divide
  exact guarded_induct (P := resultFrame s) ⟨rfl, .inl rfl⟩ fun c v => resultFrame_raise c v s

theorem resultFrame_vresult (lat : Nat) (d : Reg) (tags own : List Check) (r : VReg × Flags) (s : State) :
    resultFrame s (vresult lat d tags own r s) := resultFrame_guarded ..
theorem resultFrame_sresult (lat : Nat) (d : Reg) (tags own : List Check) (x : W64) (f : Flags) (s : State) :
    resultFrame s (sresult lat d tags own x f s) := resultFrame_guarded ..

/-! Traps (14 R349 to R356). -/

/-- A trap taken outside firmware. -/
theorem takeTrap_of_user {c : Core} (h : c.fwm = false) (cause : BitVec 6) (pc : Addr) (val : W64) :
    (c.takeTrap cause pc val).fwm = true ∧ (c.takeTrap cause pc val).trapcause = cause ∧ (c.takeTrap cause pc val).trappc = pc ∧
      (c.takeTrap cause pc val).trapval = val ∧ (c.takeTrap cause pc val).halt = c.halt := by
  simp [Core.takeTrap, h, Core.applyTc, Core.banked, Core.park]

/-- A fault in firmware mode fails the core. -/
theorem takeTrap_of_firmware {c : Core} (h : c.fwm = true) (cause : BitVec 6) (pc : Addr) (val : W64) :
    c.takeTrap cause pc val = { c with halt := .failed } := by simp [Core.takeTrap, h]

/-- A trap writes no general register, mask, name or vector of the firing, no memory and no table. -/
theorem takeTrap_frame (c : Core) (cause : BitVec 6) (pc : Addr) (val : W64) :
    (c.takeTrap cause pc val).regs.s = c.regs.s ∧ (c.takeTrap cause pc val).regs.k = c.regs.k ∧ (c.takeTrap cause pc val).regs.n = c.regs.n ∧
      (c.takeTrap cause pc val).regs.v = c.regs.v ∧ (c.takeTrap cause pc val).regs.fpstat = c.regs.fpstat ∧
      (c.takeTrap cause pc val).bufW = c.bufW ∧ (c.takeTrap cause pc val).bufA = c.bufA ∧ (c.takeTrap cause pc val).bufC = c.bufC ∧
      (c.takeTrap cause pc val).tiles = c.tiles ∧ (c.takeTrap cause pc val).ops = c.ops ∧ (c.takeTrap cause pc val).trapvec = c.trapvec := by
  by_cases h : c.fwm <;> simp [Core.takeTrap, h, Core.applyTc, Core.banked, Core.park]

/-! Bundles and cycles. -/

/-- Closing a bundle changes the core and the latch. -/
theorem closeWith_elsewhere (go : Core → Core) (s : State) : elsewhereSame s (closeWith go s) := rfl

theorem closeBundle_elsewhere (s : State) : elsewhereSame s (closeBundle s) := by unfold closeBundle; split <;> rfl

@[simp] theorem closeWith_stop (go : Core → Core) (s : State) : (closeWith go s).issue.stop = some .closed := rfl

@[simp] theorem closeBundle_stop (s : State) : (closeBundle s).issue.stop = some .closed := by unfold closeBundle; split <;> rfl

/-- The cycle of an issuing core is the fetch of its next bundle. -/
theorem step_of_issuing {s : State} (hi : issuing s.core = true) (ha : s.agenda = []) :
    step s = fetchCycle s ∧ s.core.branch = none ∧ fenceHolds s.core = false ∧ fetchWaits s.core = false ∧ s.core.fetchb = false := by
  simp only [issuing, Bool.and_eq_true, Bool.not_eq_true', beq_iff_eq] at hi
  obtain ⟨⟨⟨⟨⟨⟨⟨⟨⟨⟨⟨⟨h1, h2⟩, h3⟩, h4⟩, h5⟩, h6⟩, h7⟩, h8⟩, h9⟩, h13⟩, h10⟩, h11⟩, h12⟩ := hi
  have hw : s.core.watchdogVal = none := by simpa using h4
  have hrun : (!s.core.running && !s.core.fwm) = false := by cases h : s.core.running <;> simp_all
  exact ⟨by simp [step, nextTurn, ha, coreCycle, h1, h2, h3, hw, hrun, h6, h7, h8, h9], by simpa using h11, h13, h10, h12⟩

/-- An update that changes nothing. -/
theorem onCore_id {f : Core → Core} {s : State} (h : f s.core = s.core) : s.onCore f = s := by simp only [State.onCore, h]

/-- The fetch of an issuing core whose words are at hand issues their bundle. -/
theorem fetchCycle_words {s : State} {ws : List Word} (hb : s.core.branch = none) (hn : fenceHolds s.core = false) (hw : fetchWaits s.core = false) (hf : s.core.fetchb = false)
    (h : fetchAt s.core s.core.regs.pc = .words ws) : fetchCycle s = issueBundle ws s := by
  have e : s.onCore (fun c => { c with fetchb := false }) = s := onCore_id (by cases hc : s.core; simp_all)
  simp only [fetchCycle, hn, hw, hb, e, h]
  rfl

/-- A fetched bundle without decode faults goes on with its latch set. -/
theorem issueBundle_latched {s : State} {ws : List Word} (hd : decodeFault s.core.fwm s.core.regs.pc ws = none) :
    issueBundle ws s =
      match decodeHeaderOnly (ws.headD 0#32) with
      | some i => match exec i (latched ws s) with | .next t => .next (conclude (latched ws s) t) | r => r
      | none =>
        if waitHeld (latched ws s) then .next (conclude (latched ws s) (hold 0 (latched ws s)))
        else
          match checkSlots (latched ws s) (latched ws s).issue (slotWords ws).1 with
          | .next s1 =>
            if s1.issue.stop.isSome then .next (conclude (latched ws s) s1)
            else
              match commitSlots { latched ws s with issue := { (latched ws s).issue with commit := true } } (commitOrder (slotWords ws).1) with
              | .next t => .next (conclude (latched ws s) t)
              | r => r
          | r => r := by
  have e : decodeFault s.opened.core.fwm s.opened.core.regs.pc ws = none := hd
  simp only [issueBundle, e, latched]
  rfl

end Sys2Proof.Laws
end

