-- ==== Sys2Proof/Laws/Buffers.lean ====
section
/-! SUPPORT. The three buffers of a core under the shared operations: which leave them alone, and that those which write them keep
the canonical form (07 R167; log 5). -/

namespace Sys2Proof.Laws

open Sys2Proof.Machine Sys2Proof.Safety

/-- The three buffers of a core. -/
def bufs (c : Core) : Memory × Memory × Memory := (c.bufW, c.bufA, c.bufC)

/-- The canonical form is a matter of the buffers alone. -/
theorem wf_of_bufs {c d : Core} (e : bufs d = bufs c) (h : BuffersWf c) : BuffersWf d := by
  simp only [bufs, Prod.mk.injEq] at e
  unfold BuffersWf
  rw [e.1, e.2.1, e.2.2]
  exact h

/-! Operations on a core that leave its buffers alone. -/

theorem foldl_bufs {α : Type} {f : Core → α → Core} (h : ∀ c x, bufs (f c x) = bufs c) (l : List α) (c : Core) : bufs (l.foldl f c) = bufs c := by
  induction l generalizing c with
  | nil => rfl
  | cons x t ih => rw [List.foldl_cons, ih, h]

@[simp] theorem onRegs_bufs (f : Regs → Regs) (c : Core) :
    bufs (Core.onRegs f c) = bufs c := rfl

@[simp] theorem setS_bufs (c : Core) (r : Reg) (x : W64) :
    bufs (Core.setS c r x) = bufs c := by
  unfold Core.setS; dsimp only; (repeat' split) <;> first | rfl | simp

@[simp] theorem setK_bufs (c : Core) (r : KReg) (x : W64) :
    bufs (Core.setK c r x) = bufs c := by
  unfold Core.setK; split <;> rfl

@[simp] theorem setN_bufs (c : Core) (r : NReg) (x : Name) :
    bufs (Core.setN c r x) = bufs c := rfl

@[simp] theorem setV_bufs (c : Core) (r : Reg) (x : VReg) :
    bufs (Core.setV c r x) = bufs c := rfl

@[simp] theorem applyTc_bufs (c : Core) :
    bufs (Core.applyTc c) = bufs c := by
  unfold Core.applyTc; split <;> rfl

@[simp] theorem addTc_bufs (c : Core) (i : BitVec 4) (d : Int) :
    bufs (Core.addTc c i d) = bufs c := by
  unfold Core.addTc; split <;> rfl

@[simp] theorem ctlWrite_bufs (c : Core) (num : BitVec 12) (x : W64) :
    bufs (Core.ctlWrite c num x) = bufs c := by
  unfold Core.ctlWrite; dsimp only; (repeat' split) <;> first | rfl | simp

@[simp] theorem orFlags_bufs (c : Core) (f : Flags) :
    bufs (Core.orFlags c f) = bufs c := rfl

@[simp] theorem apply_bufs (c : Core) (p : Put) : bufs (c.apply p) = bufs c := by
  unfold Core.apply; split <;> first | rfl | simp

@[simp] theorem landOne_bufs (c : Core) (p : Pending) :
    bufs (Core.landOne c p) = bufs c := by
  exact (addTc_bufs ..).trans (apply_bufs ..)

@[simp] theorem landDue_bufs (c : Core) :
    bufs (Core.landDue c) = bufs c := by
  unfold Core.landDue; exact foldl_bufs (fun _ _ => by simp) ..

@[simp] theorem count_bufs (c : Core) :
    bufs (Core.count c) = bufs c := rfl

@[simp] theorem tick_bufs (c : Core) :
    bufs (Core.tick c) = bufs c := by
  simp [Core.tick]

@[simp] theorem park_bufs (c : Core) :
    bufs (Core.park c) = bufs c := rfl

@[simp] theorem parkVar_bufs (c : Core) (p : Pending) :
    bufs (Core.parkVar c p) = bufs c := by
  unfold Core.parkVar; split <;> rfl

@[simp] theorem onFrame_bufs (c : Core) (fid : W64) (f : Frame → Frame) :
    bufs (Core.onFrame c fid f) = bufs c := by
  unfold Core.onFrame; split <;> rfl

@[simp] theorem landNow_bufs (c : Core) (p : Put) (fl : Flags) (h : List Nat) (tc : BitVec 4) :
    bufs (Core.landNow c p fl h tc) = bufs c := by
  unfold Core.landNow; dsimp only; (repeat' split) <;> first | rfl | simp

@[simp] theorem landHist_bufs (c : Core) (fid : W64) (fw : Bool) (p : Put) (fl : Flags) (h : List Nat) (tc : BitVec 4) :
    bufs (Core.landHist c fid fw p fl h tc) = bufs c := by
  unfold Core.landHist; split
  · (repeat' split) <;> simp
  · exact onFrame_bufs ..

@[simp] theorem landVar_bufs (c : Core) (fid : W64) (fw : Bool) (p : Put) (fl : Flags) (tc : BitVec 4) :
    bufs (Core.landVar c fid fw p fl tc) = bufs c := by
  simp [Core.landVar]

@[simp] theorem tokenFor_bufs (c : Core) (fw : Bool) (tc : BitVec 4) :
    bufs (Core.tokenFor c fw tc) = bufs c := by
  unfold Core.tokenFor; (repeat' split) <;> simp

@[simp] theorem runWatch_bufs (c : Core) (w : Watch) :
    bufs (Core.runWatch c w) = bufs c := by
  unfold Core.runWatch; dsimp only; (repeat' split) <;> first | rfl | simp

@[simp] theorem runWatches_bufs (c : Core) :
    bufs (Core.runWatches c) = bufs c := by
  unfold Core.runWatches; exact foldl_bufs (fun _ _ => by simp) ..

@[simp] theorem noteWatches_bufs (c : Core) :
    bufs (Core.noteWatches c) = bufs c := rfl

@[simp] theorem onTaskSlot_bufs (c : Core) (fid : W64) (f : TaskSlot → TaskSlot) :
    bufs (Core.onTaskSlot c fid f) = bufs c := rfl

@[simp] theorem completeLn_bufs (c : Core) (a : Arrival) :
    bufs (Core.completeLn c a) = bufs c := by
  simp [Core.completeLn]

@[simp] theorem runLn_bufs (c : Core) :
    bufs (Core.runLn c) = bufs c := by
  unfold Core.runLn; exact foldl_bufs (fun _ _ => by simp) ..

@[simp] theorem endCycle_bufs (c : Core) :
    bufs (Core.endCycle c) = bufs c := by
  exact (by simp : bufs c.runWatches.runLn.applyTc = bufs c)

@[simp] theorem landVars_bufs (c : Core) :
    bufs (Core.landVars c) = bufs c := by
  unfold Core.landVars; exact foldl_bufs (fun _ _ => by simp) ..

@[simp] theorem frozenCycle_bufs (c : Core) :
    bufs (Core.frozenCycle c) = bufs c := by
  simp [Core.frozenCycle]

@[simp] theorem idleTick_bufs (c : Core) :
    bufs (Core.idleTick c) = bufs c := by
  simp [Core.idleTick]

@[simp] theorem takeTrap_bufs (cause : BitVec 6) (pc : Addr) (val : W64) (c : Core) :
    bufs (Core.takeTrap cause pc val c) = bufs c := by
  unfold Core.takeTrap; split
  · rfl
  · exact (by simp : bufs c.applyTc.park = bufs c)

@[simp] theorem tret_bufs (c : Core) :
    bufs (Core.tret c) = bufs c := rfl

@[simp] theorem loopStep_bufs (c : Core) (nxt : Addr) :
    bufs (Core.loopStep c nxt) = bufs c := by
  unfold Core.loopStep; dsimp only; (repeat' split) <;> first | rfl | simp

@[simp] theorem branchFrom_bufs (b t : Addr) (c : Core) :
    bufs (Core.branchFrom b t c) = bufs c := rfl

@[simp] theorem clearBad_bufs (c : Core) (b : BitVec 2) (l : List (Nat × Nat)) :
    bufs (Core.clearBad c b l) = bufs c := rfl

@[simp] theorem setTile_bufs (c : Core) (i : Nat) (t : Tile) :
    bufs (Core.setTile c i t) = bufs c := rfl

@[simp] theorem defer_bufs (c : Core) (fid : W64) (d : Deferred) :
    bufs (Core.defer c fid d) = bufs c := by
  unfold Core.defer; split
  · split <;> rfl
  · simp

@[simp] theorem addOp_bufs (c : Core) (o : Op) :
    bufs (Core.addOp c o) = bufs c := rfl

@[simp] theorem setOp_bufs (c : Core) (j : Nat) (o : Op) :
    bufs (Core.setOp c j o) = bufs c := rfl

@[simp] theorem dropOp_bufs (c : Core) (j : Nat) :
    bufs (Core.dropOp c j) = bufs c := rfl

@[simp] theorem stop_bufs (h : Halt) (c : Core) :
    bufs (Core.stop h c) = bufs c := by
  unfold Core.stop; exact foldl_bufs (fun _ _ => by simp) ..

@[simp] theorem goOn_bufs (c : Core) :
    bufs (Core.goOn c) = bufs c := rfl

@[simp] theorem takePending_bufs (c : Core) :
    bufs (Core.takePending c) = bufs c := by
  unfold Core.takePending; split
  · exact takeTrap_bufs ..
  · rfl

@[simp] theorem countHeld_bufs (c : Core) :
    bufs (Core.countHeld c) = bufs c := by
  unfold Core.countHeld; (repeat' split) <;> rfl

@[simp] theorem countCycle_bufs (why : Option Nat) (c : Core) :
    bufs (Core.countCycle why c) = bufs c := by
  unfold Core.countCycle; split
  · simp
  · split <;> exact countHeld_bufs ..

@[simp] theorem takeWatchdog_bufs (v : W64) (c : Core) :
    bufs (Core.takeWatchdog v c) = bufs c := by
  exact takeTrap_bufs ..

@[simp] theorem haltHere_bufs (c : Core) :
    bufs (Core.haltHere c) = bufs c := by
  simp [Core.haltHere]

@[simp] theorem faultTask_bufs (c : Core) (fid : W64) (slot : BitVec 4) (d : Deferred) :
    bufs (Core.faultTask c fid slot d) = bufs c := by
  unfold Core.faultTask; dsimp only; (repeat' split) <;> first | rfl | simp

@[simp] theorem acceptFill_bufs (c : Core) (i : Nat) (p : Parcel) (born : Option Nat) : bufs (c.acceptFill i p born) = bufs c := rfl

@[simp] theorem deliverOneShot_bufs (c : Core) (slot : BitVec 4) (i : Nat) (fid : W64) (p : Parcel) (born : Option Nat) :
    bufs (c.deliverOneShot slot i fid p born) = bufs c := by
  unfold Core.deliverOneShot; dsimp only
  split
  · rfl
  · split <;> simp

@[simp] theorem deliverStanding_bufs (c : Core) (slot : BitVec 4) (k : Nat) (p : Parcel) (born : Option Nat) :
    bufs (c.deliverStanding slot k p born).1 = bufs c := by
  unfold Core.deliverStanding; dsimp only
  (repeat' split) <;> rfl

@[simp] theorem setGline_bufs (c : Core) (l : Nat) (g : GLine) :
    bufs (Core.setGline c l g) = bufs c := rfl

@[simp] theorem invClean_bufs (c : Core) (l : Nat) :
    bufs (Core.invClean c l) = bufs c := by
  unfold Core.invClean; split <;> rfl

@[simp] theorem waferAcquire_bufs (c : Core) :
    bufs (Core.waferAcquire c) = bufs c := by
  unfold Core.waferAcquire; exact foldl_bufs (fun _ _ => by simp) ..

@[simp] theorem invalidate_bufs (c : Core) (l : Option Nat) :
    bufs (Core.invalidate c l) = bufs c := rfl

@[simp] theorem enqueue_bufs (c : Core) (cmd : MatCmd) :
    bufs (Core.enqueue c cmd) = bufs c := rfl

@[simp] theorem holdTile_bufs (c : Core) (i : Nat) :
    bufs (Core.holdTile c i) = bufs c := rfl

@[simp] theorem releaseTile_bufs (c : Core) (i : Nat) :
    bufs (Core.releaseTile c i) = bufs c := by
  unfold Core.releaseTile; dsimp only; (repeat' split) <;> first | rfl | simp

@[simp] theorem setCell_bufs (c : Core) (w : WReg) (r n : Nat) (x : WCell) :
    bufs (Core.setCell c w r n x) = bufs c := rfl

@[simp] theorem runMma_bufs (c : Core) (e : MatEntry) (w : WReg) (i : Nat) (rows : W64) (sp : Bool) :
    bufs (Core.runMma c e w i rows sp) = bufs c := by
  exact foldl_bufs (fun _ _ => foldl_bufs (fun _ _ => by simp) ..) ..

@[simp] theorem runMlds_bufs (c : Core) (e : MatEntry) (i : Nat) (f : BitVec 4) :
    bufs (Core.runMlds c e i f) = bufs c := rfl

@[simp] theorem runMzero_bufs (c : Core) (w : WReg) (rows : W64) :
    bufs (Core.runMzero c w rows) = bufs c := by
  exact foldl_bufs (fun _ _ => foldl_bufs (fun _ _ => by simp) ..) ..

@[simp] theorem runMwrv_bufs (c : Core) (w : WReg) (r : Nat) (k : W64) (m : BitVec 4) (v : VReg) :
    bufs (Core.runMwrv c w r k m v) = bufs c := by
  unfold Core.runMwrv; exact foldl_bufs (fun _ _ => by simp) ..

@[simp] theorem trySatisfy_bufs (c : Core) (slot : BitVec 4) :
    bufs (Core.trySatisfy c slot) = bufs c := by
  unfold Core.trySatisfy; dsimp only; split
  · rfl
  · exact foldl_bufs (fun _ _ => by split <;> simp) ..

@[simp] theorem satisfyAll_bufs (c : Core) :
    bufs (Core.satisfyAll c) = bufs c := by
  exact foldl_bufs (fun _ _ => foldl_bufs (fun _ _ => by simp) ..) ..

@[simp] theorem addReady_bufs (c : Core) (e : Ready) :
    bufs (Core.addReady c e) = bufs c := rfl

@[simp] theorem saveYield_bufs (c : Core) : bufs c.saveYield = bufs c := by
  unfold Core.saveYield; split
  · rfl
  · exact (addReady_bufs ..).trans (applyTc_bufs ..)

@[simp] theorem begin_bufs (c : Core) (slot : BitVec 4) (r : Regs) (ws : List Watch) (fs : List Deferred) (fetchb : Bool) (warm : Nat) :
    bufs (Core.begin c slot r ws fs fetchb warm) = bufs c := rfl

@[simp] theorem takeDue_bufs (c : Core) (fs : List Deferred) :
    bufs (Core.takeDue c fs) = bufs c := rfl

@[simp] theorem startEntry_bufs (c : Core) (e : Ready) :
    bufs (Core.startEntry c e) = bufs c := by
  unfold Core.startEntry; dsimp only; (repeat' split) <;> first | rfl | simp

@[simp] theorem freeTiles_bufs (c : Core) :
    bufs (Core.freeTiles c) = bufs c := by
  unfold Core.freeTiles; dsimp only; split
  · rfl
  · exact foldl_bufs (fun _ _ => by simp) ..

@[simp] theorem retire_bufs (c : Core) :
    bufs (Core.retire c) = bufs c := by
  exact (satisfyAll_bufs ..).trans (freeTiles_bufs ..)

@[simp] theorem commitResv_bufs (core ser : Nat) (c : Core) :
    bufs (Core.commitResv core ser c) = bufs c := by
  unfold Core.commitResv; exact foldl_bufs (fun _ _ => by simp) ..

@[simp] theorem keepLine_bufs (c : Core) (key pick : Nat) (x : BitVec 512) :
    bufs (Core.keepLine c key pick x) = bufs c := by
  unfold Core.keepLine; dsimp only; (repeat' split) <;> first | rfl | simp

@[simp] theorem settle_bufs (scope : Nat) (inst : BitVec 32) (c : Core) :
    bufs (Core.settle scope inst c) = bufs c := by
  unfold Core.settle; dsimp only
  refine (foldl_bufs (fun _ _ => by simp) ..).trans ?_
  split <;> simp

@[simp] theorem noticed_bufs (n : Notice) (c : Core) :
    bufs (Core.noticed n c) = bufs c := by
  unfold Core.noticed; dsimp only
  refine (settle_bufs ..).trans ?_
  split <;> rfl

@[simp] theorem freeze_bufs (why : Nat) (c : Core) :
    bufs (Core.freeze why c) = bufs c := by
  simp [Core.freeze]

@[simp] theorem idle_bufs (c : Core) :
    bufs (Core.idle c) = bufs c := by
  simp [Core.idle]

@[simp] theorem haltedCycle_bufs (c : Core) :
    bufs (Core.haltedCycle c) = bufs c := by
  unfold Core.haltedCycle; split
  · rfl
  · exact endCycle_bufs ..
  · simp

@[simp] theorem hold_bufs (why : Nat) (c : Core) :
    bufs (Core.hold why c) = bufs c := by
  unfold Core.hold
  refine (freeze_bufs ..).trans ?_
  (repeat' split) <;> rfl

@[simp] theorem passBundle_bufs (pc nxt : Addr) (c : Core) :
    bufs (Core.passBundle pc nxt c) = bufs c := rfl

@[simp] theorem wantLine_bufs (key : Nat) (c : Core) :
    bufs (Core.wantLine key c) = bufs c := by
  unfold Core.wantLine; split <;> rfl

@[simp] theorem endingCycle_bufs (c : Core) :
    bufs (Core.endingCycle c) = bufs c := by
  unfold Core.endingCycle; split
  · exact (endCycle_bufs ..).trans ((saveYield_bufs ..).trans (foldl_bufs (fun _ _ => by simp) ..))
  · split <;> simp

@[simp] theorem spoil_bufs (buf w : Nat) (c : Core) :
    bufs (Core.spoil buf w c) = bufs c := by
  unfold Core.spoil; split <;> rfl

@[simp] theorem runsAt_bufs (w : Word) (c : Core) :
    bufs (Core.runsAt w c) = bufs c := rfl

@[simp] theorem dropLines_bufs (ia n : Nat) (c : Core) :
    bufs (dropLines ia n c) = bufs c := rfl

@[simp] theorem payOwed_bufs (c : Core) :
    bufs (Core.payOwed c) = bufs c := by
  unfold Core.payOwed; exact foldl_bufs (fun _ _ => by simp) ..

@[simp] theorem setInst_bufs (x : Nat) (inst : BitVec 32) (mine : Nat → Bool) (c : Core) :
    bufs (Core.setInst x inst mine c) = bufs c := rfl

@[simp] theorem vacate_bufs (c : Core) :
    bufs (Core.vacate c) = bufs c := rfl

@[simp] theorem setGEntry_bufs (k x : Nat) (c : Core) :
    bufs (setGEntry k x c) = bufs c := by
  unfold setGEntry; split <;> rfl

@[simp] theorem setIEntry_bufs (k x : Nat) (c : Core) :
    bufs (setIEntry k x c) = bufs c := by
  unfold setIEntry; dsimp only; (repeat' split) <;> first | rfl | simp

@[simp] theorem setDarnWord_bufs (w v : Nat) (c : Core) :
    bufs (setDarnWord w v c) = bufs c := by
  unfold setDarnWord; split <;> rfl

@[simp] theorem debugCtl_bufs (num : Nat) (x : W64) (c : Core) :
    bufs (Core.debugCtl num x c) = bufs c := by
  unfold Core.debugCtl; dsimp only; (repeat' split) <;> first | rfl | simp

@[simp] theorem addTiles_bufs (c : Core) (sp : BitVec 12) (slot : BitVec 4) (ts : List (BitVec 256)) (t : Replica) :
    bufs (c.addTiles sp slot ts t) = bufs c := foldl_bufs (fun _ _ => foldl_bufs (fun _ _ => by simp) ..) ..

@[simp] theorem countedFrom_bufs (c k : Core) : bufs (c.countedFrom k) = bufs c := rfl

@[simp] theorem inPlaceOf_bufs (k old : Core) : bufs (k.inPlaceOf old) = bufs old := rfl

/-! Operations on a core that write its buffers. -/

theorem foldl_core_wf {α : Type} {f : Core → α → Core} (hf : ∀ c x, BuffersWf c → BuffersWf (f c x)) (l : List α) {c : Core} (h : BuffersWf c) :
    BuffersWf (l.foldl f c) := by
  induction l generalizing c with
  | nil => exact h
  | cons x t ih => exact ih (hf c x h)

theorem drainLine_wf {c : Core} (h : BuffersWf c) (i : Nat) (w : WReg) (rows : W64) (f : BitVec 4) (l : Nat) :
    BuffersWf (c.drainLine i w rows f l) :=
  wf_of_bufs (setTile_bufs ..) (foldl_core_wf (fun c x h => by
    dsimp only; split
    · exact store_wf h ..
    · exact h) _ h)

theorem runMdrain_wf {c : Core} (h : BuffersWf c) (e : MatEntry) (i : Nat) (w : WReg) (hist zero : Bool) (rows : W64) (f : BitVec 4) :
    BuffersWf (c.runMdrain e i w hist zero rows f) := by
  have hd : ∀ x, BuffersWf ((((List.range (c.tile i).nl).filter fun l => !(c.tile i).fill.getLsbD l).foldl
      (fun c l => c.drainLine i w rows f l) c).setTile i x) := fun x =>
    wf_of_bufs (setTile_bufs ..) (foldl_core_wf (fun c x h => drainLine_wf h i w rows f x) _ h)
  unfold Core.runMdrain
  refine wf_of_bufs (landHist_bufs ..) ?_
  split
  · exact wf_of_bufs (runMzero_bufs ..) (hd _)
  · exact hd _

/-- A matrix command keeps the form: only MDRAIN writes a buffer. -/
theorem runMat_wf {c : Core} (h : BuffersWf c) (e : MatEntry) : BuffersWf (c.runMat e) := by
  unfold Core.runMat
  split
  case h_5 => exact runMdrain_wf (wf_of_bufs (releaseTile_bufs ..) h) ..
  case h_9 => exact wf_of_bufs (landVar_bufs ..) h
  all_goals exact wf_of_bufs (by first | rfl | simp) h

theorem prepared_wf (r : Region) (q : Nat) (c : Core) : BuffersWf (c.prepared r q) := ⟨rfl, rfl, rfl⟩

theorem sortedFrom_cut {off n lo : Nat} {m : Memory} (h : sortedFrom lo m = true) : sortedFrom (lo - off) (cutMem off n m) = true := by
  induction m generalizing lo with
  | nil => rfl
  | cons p t ih =>
    simp only [sortedFrom, Bool.and_eq_true, decide_eq_true_eq] at h
    have h2 := ih h.2
    unfold cutMem at h2 ⊢
    rw [List.filter_cons]
    split
    · rename_i hp
      simp only [Bool.and_eq_true, decide_eq_true_eq] at hp
      simp only [List.map_cons, sortedFrom, Bool.and_eq_true, decide_eq_true_eq]
      exact ⟨by omega, sortedFrom_mono h2 (by omega)⟩
    · exact sortedFrom_mono h2 (by omega)

/-- A part of an image in canonical form is in canonical form. -/
theorem cutMem_wf {m : Memory} (h : m.wf = true) (off n : Nat) : (cutMem off n m).wf = true := by
  simp only [Memory.wf, Bool.and_eq_true] at h ⊢
  refine ⟨by simpa using sortedFrom_cut (off := off) (n := n) h.1, ?_⟩
  rw [List.all_eq_true] at *
  intro p hp
  simp only [cutMem, List.mem_map, List.mem_filter] at hp
  obtain ⟨q, hq, rfl⟩ := hp
  exact h.2 q hq.1

theorem restored_wf {m : Memory} (h : m.wf = true) (rest : Rest) (c : Core) : BuffersWf (c.restored m rest) :=
  ⟨cutMem_wf h .., cutMem_wf h .., cutMem_wf h ..⟩

/-- What an image restores is in canonical form. -/
theorem restore_wf {m : Memory} (h : m.wf = true) (rest : Rest) (c : Core) : BuffersWf (c.restore m rest) := by
  unfold Core.restore
  dsimp only
  split
  · exact wf_of_bufs (landDue_bufs ..) (restored_wf h ..)
  · exact restored_wf h ..

theorem editImage_wf {c : Core} (h : BuffersWf c) (w v : Nat) : BuffersWf (c.editImage w v) := by
  refine ⟨?_, ?_, ?_⟩ <;> simp only [Core.editImage] <;> split <;>
    first | exact h.1 | exact h.2.1 | exact h.2.2 | exact wrN_wf h.1 .. | exact wrN_wf h.2.1 .. | exact wrN_wf h.2.2 ..

theorem setCoreWord_wf {c : Core} (h : BuffersWf c) (item w v : Nat) : BuffersWf (setCoreWord item w v c) := by
  unfold setCoreWord
  split
  · split
    · exact editImage_wf h ..
    · exact h
  all_goals
    split
    · exact wf_of_bufs (by simp) h
    · exact h

/-! Images as read line by line. -/

theorem sortedFrom_append {lo mid : Nat} {a b : Memory} (ha : sortedFrom lo a = true) (hm : ∀ p ∈ a, p.1 < mid) (hl : lo ≤ mid)
    (hb : sortedFrom mid b = true) : sortedFrom lo (a ++ b) = true := by
  induction a generalizing lo with
  | nil => exact sortedFrom_mono hb hl
  | cons p t ih =>
    simp only [sortedFrom, List.cons_append, Bool.and_eq_true, decide_eq_true_eq] at ha ⊢
    exact ⟨ha.1, ih ha.2 (fun q hq => hm q (.tail _ hq)) (hm p (.head _))⟩

theorem sortedFrom_ge {lo k : Nat} {m : Memory} (h : sortedFrom lo m = true) (hk : ∀ p ∈ m, k ≤ p.1) : sortedFrom k m = true := by
  cases m with
  | nil => rfl
  | cons p t =>
    simp only [sortedFrom, Bool.and_eq_true, decide_eq_true_eq] at h ⊢
    exact ⟨hk p (.head _), h.2⟩

theorem wrN_range {lo hi a n : Nat} {m : Memory} (h : ∀ p ∈ m, lo ≤ p.1 ∧ p.1 < hi) (hl : lo ≤ a) (hh : a + n ≤ hi) (x : Nat) :
    ∀ p ∈ wrN m a x n, lo ≤ p.1 ∧ p.1 < hi := by
  have he : ∀ (k : Nat) (m : Memory), (∀ p ∈ m, lo ≤ p.1 ∧ p.1 < hi) → ∀ p ∈ erase k m, lo ≤ p.1 ∧ p.1 < hi := by
    intro k m h
    induction m with
    | nil => exact h
    | cons q t ih =>
      simp only [erase]
      split
      · exact fun p hp => h p (.tail _ hp)
      · exact List.forall_mem_cons.2 ⟨h q (.head _), ih fun p hp => h p (.tail _ hp)⟩
  have hi' : ∀ (k : Nat) (b : Byte) (m : Memory), lo ≤ k → k < hi → (∀ p ∈ m, lo ≤ p.1 ∧ p.1 < hi) →
      ∀ p ∈ Machine.insert k b m, lo ≤ p.1 ∧ p.1 < hi := by
    intro k b m h1 h2 h
    induction m with
    | nil => exact List.forall_mem_cons.2 ⟨⟨h1, h2⟩, h⟩
    | cons q t ih =>
      have ht := fun p hp => h p (.tail q hp)
      simp only [Machine.insert]
      (repeat' split)
      · exact List.forall_mem_cons.2 ⟨⟨h1, h2⟩, h⟩
      · exact List.forall_mem_cons.2 ⟨⟨h1, h2⟩, ht⟩
      · exact List.forall_mem_cons.2 ⟨h q (.head _), ih ht⟩
  induction n generalizing m a x with
  | zero => exact h
  | succ n ih =>
    refine ih ?_ (by omega) (by omega) _
    unfold wr put
    split
    · exact he _ _ h
    · exact hi' _ _ _ hl (by omega) h

/-- An image that is read whole is in canonical form. -/
theorem readImage_wf {s : State} {reg ia : Nat} {m : Memory} (h : readImage s reg ia = some m) : m.wf = true := by
  simp only [readImage, Option.map_eq_some_iff] at h
  obtain ⟨ls, hl, rfl⟩ := h
  have key : ∀ (n k : Nat) (ls : List Memory), (List.range' k n).mapM (imageLine s reg ia) = some ls →
      sortedFrom (64 * k) ls.flatten = true ∧ ls.flatten.all (fun p => p.2 != 0#8) = true := by
    intro n
    induction n with
    | zero => intro k ls h; simp at h; subst h; exact ⟨rfl, rfl⟩
    | succ n ih =>
      intro k ls h
      simp only [List.range'_succ, List.mapM_cons, Option.bind_eq_bind, Option.bind_eq_some_iff] at h
      obtain ⟨a, ha, b, hb, h⟩ := h
      simp only [Option.pure_def, Option.some.injEq] at h
      subst h
      obtain ⟨h1, h2⟩ := ih _ _ hb
      obtain ⟨x, rfl⟩ : ∃ x, a = wrN [] (64 * k) x 64 := by
        unfold imageLine at ha
        dsimp only at ha
        split at ha
        · simp at ha
        · split at ha
          · exact ⟨_, (Option.some.inj ha).symm⟩
          · simp at ha
      have hw : (wrN [] (64 * k) x 64).wf = true := wrN_wf (by decide) ..
      have hr := wrN_range (lo := 64 * k) (hi := 64 * (k + 1)) (m := []) (by simp) (Nat.le_refl (64 * k)) (by omega) (n := 64) x
      simp only [Memory.wf, Bool.and_eq_true] at hw
      rw [List.flatten_cons]
      refine ⟨sortedFrom_append (sortedFrom_ge hw.1 fun p hp => (hr p hp).1) (fun p hp => (hr p hp).2) (by omega) h1, ?_⟩
      rw [List.all_append, hw.2, h2]
      rfl
  obtain ⟨h1, h2⟩ := key _ 0 ls (by rwa [← List.range_eq_range'])
  exact Bool.and_eq_true _ _ ▸ ⟨h1, h2⟩

/-! All cores. -/

/-- Every core's buffers are in canonical form. -/
def CoresWf (s : State) : Prop := ∀ n, BuffersWf (s.coreAt n)

theorem CoresWf.core {s : State} (h : CoresWf s) : BuffersWf s.core := by simpa [State.coreAt] using h s.cur

/-- It is a matter of the cores alone. -/
theorem CoresWf.of {s t : State} (h : CoresWf s) (hc : t.cur = s.cur) (hp : t.parked = s.parked) (hb : BuffersWf t.core) : CoresWf t := by
  intro n
  have hn := h n
  unfold State.coreAt at *
  rw [hc, hp]
  split
  · exact hb
  · rwa [if_neg ‹_›] at hn

/-- A change of the core in focus that keeps the form of its buffers. -/
theorem CoresWf.onCore {s : State} (h : CoresWf s) {f : Core → Core} (hf : BuffersWf s.core → BuffersWf (f s.core)) : CoresWf (s.onCore f) :=
  h.of rfl rfl (hf h.core)

theorem CoresWf.setCoreAt {s : State} (h : CoresWf s) {c : Core} (hc : BuffersWf c) (n : Nat) : CoresWf (s.setCoreAt n c) := by
  unfold State.setCoreAt
  split
  · exact h.of rfl rfl hc
  · intro k
    have hk := h k
    unfold State.coreAt at *
    dsimp only
    split
    · rwa [if_pos ‹_›] at hk
    · rw [if_neg ‹_›] at hk
      unfold findD at *
      rw [find_insert]
      split
      · exact hc
      · exact hk

/-- Moving the focus changes no core. -/
theorem CoresWf.focus {s : State} (h : CoresWf s) (n : Nat) : CoresWf (s.focus n) := by
  unfold State.focus
  split
  · exact h
  · intro k
    have hk := h k
    have hn := h n
    unfold State.coreAt at *
    dsimp only at *
    split
    · subst_vars; rwa [if_neg ‹_›] at hn
    · unfold findD at *
      rw [find_insert]
      split
      · subst_vars; simpa using hk
      · rwa [if_neg ‹_›, ← find_erase_of_ne ‹k ≠ n›] at hk

/-- The same change of every core. -/
theorem CoresWf.all {s : State} (h : CoresWf s) {f : Core → Core} (hf : ∀ c, BuffersWf c → BuffersWf (f c)) :
    CoresWf { s with core := f s.core, parked := s.parked.map fun (p : Nat × Core) => (p.1, f p.2) } := by
  have hmap : ∀ (m : Map Core) (k : Nat), find? k (m.map fun p => (p.1, f p.2)) = (find? k m).map f := by
    intro m k
    induction m with
    | nil => rfl
    | cons p t ih => simp only [List.map_cons, find?]; split <;> simp [ih]
  intro k
  have hk := h k
  unfold State.coreAt findD at *
  dsimp only
  split
  · rw [if_pos ‹_›] at hk; exact hf _ hk
  · rw [if_neg ‹_›] at hk
    rw [hmap]
    cases e : find? k s.parked with
    | none => exact ⟨rfl, rfl, rfl⟩
    | some c => rw [e] at hk; exact hf _ hk

theorem foldl_cores {α : Type} {f : State → α → State} (hf : ∀ s x, CoresWf s → CoresWf (f s x)) (l : List α) {s : State} (h : CoresWf s) :
    CoresWf (l.foldl f s) := by
  induction l generalizing s with
  | nil => exact h
  | cons x t ih => exact ih (hf s x h)

theorem guarded_cores {cs : List Check} {eff : State → State} {s : State} (h : CoresWf s) (he : CoresWf (eff s)) : CoresWf (guarded cs eff s) := by
  rcases guarded_cases cs eff s with e | ⟨c, -, -, -, e⟩ <;> rw [e]
  · exact he
  · exact h.of rfl rfl (wf_of_bufs (takeTrap_bufs ..) h.core)

theorem waitFor_cores {b : Bool} {w : Nat} {eff : State → State} {s : State} (h : CoresWf s) (he : CoresWf (eff s)) : CoresWf (waitFor b w eff s) := by
  rcases waitFor_cases b w eff s with e | ⟨-, -, e⟩ <;> rw [e]
  · exact he
  · exact h.of rfl rfl h.core

theorem waitRoom_cores {b : Bool} {eff : State → State} {s : State} (h : CoresWf s) (he : CoresWf (eff s)) : CoresWf (waitRoom b eff s) := by
  cases b
  · exact he
  · exact h.of rfl rfl h.core

theorem ending_cores {cs : List Check} {eff : State → State} {s : State} (h : CoresWf s) (he : CoresWf (eff s)) : CoresWf (ending cs eff s) := by
  unfold ending
  refine guarded_cores h ?_
  split
  · exact he
  · exact h

theorem launchResult_cores {s : State} (h : CoresWf s) (p : Pending) : CoresWf (launchResult p s) := h.of rfl rfl h.core

theorem result_cores {s : State} (h : CoresWf s) (p : Pending) : CoresWf (result p s) := by
  unfold result
  exact guarded_cores h (launchResult_cores h p)

theorem raise_cores {s : State} (h : CoresWf s) (c : Cause) : CoresWf (raise c s) := h.of rfl rfl (wf_of_bufs (takeTrap_bufs ..) h.core)

theorem vresult_cores {s : State} (h : CoresWf s) (lat : Nat) (d : Reg) (tags own : List Check) (r : VReg × Flags) :
    CoresWf (vresult lat d tags own r s) := guarded_cores h (launchResult_cores h _)

theorem closeWith_cores {go : Core → Core} (hg : ∀ c, bufs (go c) = bufs c) {s : State} (h : CoresWf s) : CoresWf (closeWith go s) :=
  h.of rfl rfl (wf_of_bufs ((endCycle_bufs _).trans (by exact (hg _).trans ((tick_bufs _).trans (addTc_bufs ..)))) h.core)

theorem closeBundle_cores {s : State} (h : CoresWf s) : CoresWf (closeBundle s) := by
  unfold closeBundle
  split <;> exact closeWith_cores (fun _ => by simp) h

/-- CTXLD's image gives a core whose buffers are in canonical form. -/
theorem loadAt_wf {reg ia : Nat} {c k : Core} {s : State} (h : loadAt reg ia c s = .inr k) : BuffersWf k := by
  unfold loadAt at h
  split at h
  · simp at h
  · dsimp only at h
    split at h
    · simp at h
    · split at h
      · simp at h
      · split at h
        · simp at h
        · injection h with h
          subst h
          exact restore_wf (readImage_wf ‹_›) ..

theorem closeLoaded_cores {s : State} (h : CoresWf s) (k : Core) : CoresWf (closeLoaded k s) :=
  h.of rfl rfl (wf_of_bufs ((endCycle_bufs _).trans (by exact landDue_bufs ..)) h.core)

theorem noteSaved_cores {s : State} (h : CoresWf s) : CoresWf (noteSaved s) := by
  unfold noteSaved
  (repeat' split) <;> exact h.of rfl rfl h.core

theorem offer_cores {s : State} (h : CoresWf s) (ret region src sel v : Nat) : CoresWf (offer s ret region src sel v) := by
  unfold offer
  refine foldl_cores (fun s u h => ?_) _ (h.of rfl rfl h.core)
  split
  · exact h.of rfl rfl h.core
  · exact h

theorem offerWait_cores {s0 s : State} (h : CoresWf s) : CoresWf (offerWait s0 s) := by
  unfold offerWait
  split
  · exact h
  · exact CoresWf.onCore (offer_cores h _ _ _ _ _) fun hc => wf_of_bufs (by rfl) hc

/-- The end of a bundle's issue keeps the form that its slots have kept. -/
theorem conclude_cores {s0 t : State} (h0 : CoresWf s0) (h : CoresWf t) : CoresWf (conclude s0 t) := by
  have pass : ∀ x, CoresWf x → CoresWf (offerWait s0 { noteSaved x with
      core := ((noteSaved x).core.passBundle s0.core.regs.pc (nextPc s0)).countedFrom s0.core, issue := {} }) := fun x hx =>
    offerWait_cores ((noteSaved_cores hx).of rfl rfl (wf_of_bufs (by simp) (noteSaved_cores hx).core))
  unfold conclude
  dsimp only
  split
  · exact h.of rfl rfl (wf_of_bufs (by simp) h.core)
  · exact h0.of rfl rfl (wf_of_bufs (by simp) h0.core)
  · exact pass _ h
  · refine pass _ ?_
    split
    · exact closeLoaded_cores h _
    · exact closeBundle_cores h

end Sys2Proof.Laws
end

