-- ==== Sys2Proof/Laws/Encoding.lean ====
section
/-! SUPPORT. Every field of an encoded word reads back what was encoded (02 R42, R39, 15 R381). -/

namespace Sys2Proof.Laws

/-- The low part of a concatenation. -/
theorem low_append {n m : Nat} (x : BitVec n) (y : BitVec m) : (x ++ y).extractLsb' 0 m = y := by
  apply BitVec.eq_of_getLsbD_eq
  intro i hi
  simp [hi, BitVec.getLsbD_append]

/-- A field that lies above the low part. -/
theorem high_append {n m : Nat} (s l : Nat) (x : BitVec n) (y : BitVec m) :
    (x ++ y).extractLsb' (m + s) l = x.extractLsb' s l := by
  apply BitVec.eq_of_getLsbD_eq
  intro i hi
  simp [hi, BitVec.getLsbD_append, Nat.add_assoc, Nat.add_sub_cancel_left]

/-- A vector taken whole. -/
theorem whole {n : Nat} (x : BitVec n) : x.extractLsb' 0 n = x := by
  apply BitVec.eq_of_getLsbD_eq
  intro i hi
  simp [hi]

/-! A register of a small file, widened into its field and read back. -/

@[simp] theorem toK_zeroExtend (k : KReg) : toK (k.zeroExtend 5) = k := by simp [toK]
@[simp] theorem toN_zeroExtend (n : NReg) : toN (n.zeroExtend 5) = n := by simp [toN]
@[simp] theorem toW_zeroExtend (w : WReg) : toW (w.zeroExtend 5) = w := by simp [toW]
@[simp] theorem inK_zeroExtend (k : KReg) : inK (k.zeroExtend 5) = true := by revert k; decide
@[simp] theorem inN_zeroExtend (n : NReg) : inN (n.zeroExtend 5) = true := by revert n; decide
@[simp] theorem inW_zeroExtend (w : WReg) : inW (w.zeroExtend 5) = true := by revert w; decide

section

variable (g : BitVec 4) (mi : BitVec 6) (d : Reg) (a : Reg) (b : Reg) (k : KReg) (m : BitVec 4)

@[simp] theorem fGroup_encR : fGroup (encR g mi d a b k m) = g :=
  (high_append 24 4 (n := 28) (m := 4) _ _).trans ((high_append 21 4 (n := 25) (m := 3) _ _).trans ((high_append 16 4 (n := 20) (m := 5) _ _).trans ((high_append 11 4 (n := 15) (m := 5) _ _).trans ((high_append 6 4 (n := 10) (m := 5) _ _).trans ((high_append 0 4 (n := 4) (m := 6) _ _).trans (whole _))))))

@[simp] theorem fMinor_encR : fMinor (encR g mi d a b k m) = mi :=
  (high_append 18 6 (n := 28) (m := 4) _ _).trans ((high_append 15 6 (n := 25) (m := 3) _ _).trans ((high_append 10 6 (n := 20) (m := 5) _ _).trans ((high_append 5 6 (n := 15) (m := 5) _ _).trans ((high_append 0 6 (n := 10) (m := 5) _ _).trans (low_append (n := 4) _ _)))))

@[simp] theorem fD_encR : fD (encR g mi d a b k m) = d :=
  (high_append 13 5 (n := 28) (m := 4) _ _).trans ((high_append 10 5 (n := 25) (m := 3) _ _).trans ((high_append 5 5 (n := 20) (m := 5) _ _).trans ((high_append 0 5 (n := 15) (m := 5) _ _).trans (low_append (n := 10) _ _))))

@[simp] theorem fA_encR : fA (encR g mi d a b k m) = a :=
  (high_append 8 5 (n := 28) (m := 4) _ _).trans ((high_append 5 5 (n := 25) (m := 3) _ _).trans ((high_append 0 5 (n := 20) (m := 5) _ _).trans (low_append (n := 15) _ _)))

@[simp] theorem fB_encR : fB (encR g mi d a b k m) = b :=
  (high_append 3 5 (n := 28) (m := 4) _ _).trans ((high_append 0 5 (n := 25) (m := 3) _ _).trans (low_append (n := 20) _ _))

@[simp] theorem fK_encR : fK (encR g mi d a b k m) = k :=
  (high_append 0 3 (n := 28) (m := 4) _ _).trans (low_append (n := 25) _ _)

@[simp] theorem fM_encR : fM (encR g mi d a b k m) = m :=
  low_append (n := 28) _ _

end

section

variable (g : BitVec 4) (mi : BitVec 6) (d : Reg) (a : Reg) (imm : BitVec 12)

@[simp] theorem fGroup_encI : fGroup (encI g mi d a imm) = g :=
  (high_append 16 4 (n := 20) (m := 12) _ _).trans ((high_append 11 4 (n := 15) (m := 5) _ _).trans ((high_append 6 4 (n := 10) (m := 5) _ _).trans ((high_append 0 4 (n := 4) (m := 6) _ _).trans (whole _))))

@[simp] theorem fMinor_encI : fMinor (encI g mi d a imm) = mi :=
  (high_append 10 6 (n := 20) (m := 12) _ _).trans ((high_append 5 6 (n := 15) (m := 5) _ _).trans ((high_append 0 6 (n := 10) (m := 5) _ _).trans (low_append (n := 4) _ _)))

@[simp] theorem fD_encI : fD (encI g mi d a imm) = d :=
  (high_append 5 5 (n := 20) (m := 12) _ _).trans ((high_append 0 5 (n := 15) (m := 5) _ _).trans (low_append (n := 10) _ _))

@[simp] theorem fA_encI : fA (encI g mi d a imm) = a :=
  (high_append 0 5 (n := 20) (m := 12) _ _).trans (low_append (n := 15) _ _)

@[simp] theorem fImm_encI : fImm (encI g mi d a imm) = imm :=
  low_append (n := 20) _ _

end

section

variable (g : BitVec 4) (mi : BitVec 6) (d : Reg) (a : Reg) (idx : BitVec 2) (md : BitVec 10)

@[simp] theorem fGroup_encL : fGroup (encL g mi d a idx md) = g :=
  (high_append 18 4 (n := 22) (m := 10) _ _).trans ((high_append 16 4 (n := 20) (m := 2) _ _).trans ((high_append 11 4 (n := 15) (m := 5) _ _).trans ((high_append 6 4 (n := 10) (m := 5) _ _).trans ((high_append 0 4 (n := 4) (m := 6) _ _).trans (whole _)))))

@[simp] theorem fMinor_encL : fMinor (encL g mi d a idx md) = mi :=
  (high_append 12 6 (n := 22) (m := 10) _ _).trans ((high_append 10 6 (n := 20) (m := 2) _ _).trans ((high_append 5 6 (n := 15) (m := 5) _ _).trans ((high_append 0 6 (n := 10) (m := 5) _ _).trans (low_append (n := 4) _ _))))

@[simp] theorem fD_encL : fD (encL g mi d a idx md) = d :=
  (high_append 7 5 (n := 22) (m := 10) _ _).trans ((high_append 5 5 (n := 20) (m := 2) _ _).trans ((high_append 0 5 (n := 15) (m := 5) _ _).trans (low_append (n := 10) _ _)))

@[simp] theorem fA_encL : fA (encL g mi d a idx md) = a :=
  (high_append 2 5 (n := 22) (m := 10) _ _).trans ((high_append 0 5 (n := 20) (m := 2) _ _).trans (low_append (n := 15) _ _))

@[simp] theorem fIdx_encL : fIdx (encL g mi d a idx md) = idx :=
  (high_append 0 2 (n := 22) (m := 10) _ _).trans (low_append (n := 20) _ _)

@[simp] theorem fSp_encL : fSp (encL g mi d a idx md) = idx :=
  (high_append 0 2 (n := 22) (m := 10) _ _).trans (low_append (n := 20) _ _)

@[simp] theorem fMod_encL : fMod (encL g mi d a idx md) = md :=
  low_append (n := 22) _ _

@[simp] theorem fOff_encL : fOff (encL g mi d a idx md) = md :=
  low_append (n := 22) _ _

end

section

variable (g : BitVec 4) (mi : BitVec 6) (a : Reg) (off : BitVec 17)

@[simp] theorem fGroup_encJ : fGroup (encJ g mi a off) = g :=
  (high_append 11 4 (n := 15) (m := 17) _ _).trans ((high_append 6 4 (n := 10) (m := 5) _ _).trans ((high_append 0 4 (n := 4) (m := 6) _ _).trans (whole _)))

@[simp] theorem fMinor_encJ : fMinor (encJ g mi a off) = mi :=
  (high_append 5 6 (n := 15) (m := 17) _ _).trans ((high_append 0 6 (n := 10) (m := 5) _ _).trans (low_append (n := 4) _ _))

@[simp] theorem fD_encJ : fD (encJ g mi a off) = a :=
  (high_append 0 5 (n := 15) (m := 17) _ _).trans (low_append (n := 10) _ _)

@[simp] theorem fOffJ_encJ : fOffJ (encJ g mi a off) = off :=
  low_append (n := 15) _ _

end

section

variable (g : BitVec 4) (mi : BitVec 6) (d : Reg) (a : Reg) (sp : BitVec 2) (off : BitVec 10)

@[simp] theorem fGroup_encMI : fGroup (encMI g mi d a sp off) = g :=
  (high_append 18 4 (n := 22) (m := 10) _ _).trans ((high_append 16 4 (n := 20) (m := 2) _ _).trans ((high_append 11 4 (n := 15) (m := 5) _ _).trans ((high_append 6 4 (n := 10) (m := 5) _ _).trans ((high_append 0 4 (n := 4) (m := 6) _ _).trans (whole _)))))

@[simp] theorem fMinor_encMI : fMinor (encMI g mi d a sp off) = mi :=
  (high_append 12 6 (n := 22) (m := 10) _ _).trans ((high_append 10 6 (n := 20) (m := 2) _ _).trans ((high_append 5 6 (n := 15) (m := 5) _ _).trans ((high_append 0 6 (n := 10) (m := 5) _ _).trans (low_append (n := 4) _ _))))

@[simp] theorem fD_encMI : fD (encMI g mi d a sp off) = d :=
  (high_append 7 5 (n := 22) (m := 10) _ _).trans ((high_append 5 5 (n := 20) (m := 2) _ _).trans ((high_append 0 5 (n := 15) (m := 5) _ _).trans (low_append (n := 10) _ _)))

@[simp] theorem fA_encMI : fA (encMI g mi d a sp off) = a :=
  (high_append 2 5 (n := 22) (m := 10) _ _).trans ((high_append 0 5 (n := 20) (m := 2) _ _).trans (low_append (n := 15) _ _))

@[simp] theorem fIdx_encMI : fIdx (encMI g mi d a sp off) = sp :=
  (high_append 0 2 (n := 22) (m := 10) _ _).trans (low_append (n := 20) _ _)

@[simp] theorem fSp_encMI : fSp (encMI g mi d a sp off) = sp :=
  (high_append 0 2 (n := 22) (m := 10) _ _).trans (low_append (n := 20) _ _)

@[simp] theorem fMod_encMI : fMod (encMI g mi d a sp off) = off :=
  low_append (n := 22) _ _

@[simp] theorem fOff_encMI : fOff (encMI g mi d a sp off) = off :=
  low_append (n := 22) _ _

end

section

variable (g : BitVec 4) (mi : BitVec 6) (d : Reg) (a : Reg) (b : Reg) (k : KReg) (sp : BitVec 2) (z : BitVec 2)

@[simp] theorem fGroup_encMR : fGroup (encMR g mi d a b k sp z) = g :=
  (high_append 26 4 (n := 30) (m := 2) _ _).trans ((high_append 24 4 (n := 28) (m := 2) _ _).trans ((high_append 21 4 (n := 25) (m := 3) _ _).trans ((high_append 16 4 (n := 20) (m := 5) _ _).trans ((high_append 11 4 (n := 15) (m := 5) _ _).trans ((high_append 6 4 (n := 10) (m := 5) _ _).trans ((high_append 0 4 (n := 4) (m := 6) _ _).trans (whole _)))))))

@[simp] theorem fMinor_encMR : fMinor (encMR g mi d a b k sp z) = mi :=
  (high_append 20 6 (n := 30) (m := 2) _ _).trans ((high_append 18 6 (n := 28) (m := 2) _ _).trans ((high_append 15 6 (n := 25) (m := 3) _ _).trans ((high_append 10 6 (n := 20) (m := 5) _ _).trans ((high_append 5 6 (n := 15) (m := 5) _ _).trans ((high_append 0 6 (n := 10) (m := 5) _ _).trans (low_append (n := 4) _ _))))))

@[simp] theorem fD_encMR : fD (encMR g mi d a b k sp z) = d :=
  (high_append 15 5 (n := 30) (m := 2) _ _).trans ((high_append 13 5 (n := 28) (m := 2) _ _).trans ((high_append 10 5 (n := 25) (m := 3) _ _).trans ((high_append 5 5 (n := 20) (m := 5) _ _).trans ((high_append 0 5 (n := 15) (m := 5) _ _).trans (low_append (n := 10) _ _)))))

@[simp] theorem fA_encMR : fA (encMR g mi d a b k sp z) = a :=
  (high_append 10 5 (n := 30) (m := 2) _ _).trans ((high_append 8 5 (n := 28) (m := 2) _ _).trans ((high_append 5 5 (n := 25) (m := 3) _ _).trans ((high_append 0 5 (n := 20) (m := 5) _ _).trans (low_append (n := 15) _ _))))

@[simp] theorem fB_encMR : fB (encMR g mi d a b k sp z) = b :=
  (high_append 5 5 (n := 30) (m := 2) _ _).trans ((high_append 3 5 (n := 28) (m := 2) _ _).trans ((high_append 0 5 (n := 25) (m := 3) _ _).trans (low_append (n := 20) _ _)))

@[simp] theorem fK_encMR : fK (encMR g mi d a b k sp z) = k :=
  (high_append 2 3 (n := 30) (m := 2) _ _).trans ((high_append 0 3 (n := 28) (m := 2) _ _).trans (low_append (n := 25) _ _))

@[simp] theorem fSpR_encMR : fSpR (encMR g mi d a b k sp z) = sp :=
  (high_append 0 2 (n := 30) (m := 2) _ _).trans (low_append (n := 28) _ _)

@[simp] theorem fZ_encMR : fZ (encMR g mi d a b k sp z) = z :=
  low_append (n := 30) _ _

end

section

variable (g : BitVec 4) (mi : BitVec 6) (d : Reg) (a : Reg) (sp : BitVec 2) (t : BitVec 4) (s : BitVec 6)

@[simp] theorem fGroup_encMT : fGroup (encMT g mi d a sp t s) = g :=
  (high_append 22 4 (n := 26) (m := 6) _ _).trans ((high_append 18 4 (n := 22) (m := 4) _ _).trans ((high_append 16 4 (n := 20) (m := 2) _ _).trans ((high_append 11 4 (n := 15) (m := 5) _ _).trans ((high_append 6 4 (n := 10) (m := 5) _ _).trans ((high_append 0 4 (n := 4) (m := 6) _ _).trans (whole _))))))

@[simp] theorem fMinor_encMT : fMinor (encMT g mi d a sp t s) = mi :=
  (high_append 16 6 (n := 26) (m := 6) _ _).trans ((high_append 12 6 (n := 22) (m := 4) _ _).trans ((high_append 10 6 (n := 20) (m := 2) _ _).trans ((high_append 5 6 (n := 15) (m := 5) _ _).trans ((high_append 0 6 (n := 10) (m := 5) _ _).trans (low_append (n := 4) _ _)))))

@[simp] theorem fD_encMT : fD (encMT g mi d a sp t s) = d :=
  (high_append 11 5 (n := 26) (m := 6) _ _).trans ((high_append 7 5 (n := 22) (m := 4) _ _).trans ((high_append 5 5 (n := 20) (m := 2) _ _).trans ((high_append 0 5 (n := 15) (m := 5) _ _).trans (low_append (n := 10) _ _))))

@[simp] theorem fA_encMT : fA (encMT g mi d a sp t s) = a :=
  (high_append 6 5 (n := 26) (m := 6) _ _).trans ((high_append 2 5 (n := 22) (m := 4) _ _).trans ((high_append 0 5 (n := 20) (m := 2) _ _).trans (low_append (n := 15) _ _)))

@[simp] theorem fIdx_encMT : fIdx (encMT g mi d a sp t s) = sp :=
  (high_append 4 2 (n := 26) (m := 6) _ _).trans ((high_append 0 2 (n := 22) (m := 4) _ _).trans (low_append (n := 20) _ _))

@[simp] theorem fSp_encMT : fSp (encMT g mi d a sp t s) = sp :=
  (high_append 4 2 (n := 26) (m := 6) _ _).trans ((high_append 0 2 (n := 22) (m := 4) _ _).trans (low_append (n := 20) _ _))

@[simp] theorem fT_encMT : fT (encMT g mi d a sp t s) = t :=
  (high_append 0 4 (n := 26) (m := 6) _ _).trans (low_append (n := 22) _ _)

@[simp] theorem fS_encMT : fS (encMT g mi d a sp t s) = s :=
  low_append (n := 26) _ _

end

section

variable (g : BitVec 4) (mi : BitVec 6) (d : Reg) (a : Reg) (b : Reg) (t : BitVec 4) (sp : BitVec 2)

@[simp] theorem fGroup_encMX : fGroup (encMX g mi d a b t sp) = g :=
  (high_append 27 4 (n := 31) (m := 1) _ _).trans ((high_append 25 4 (n := 29) (m := 2) _ _).trans ((high_append 21 4 (n := 25) (m := 4) _ _).trans ((high_append 16 4 (n := 20) (m := 5) _ _).trans ((high_append 11 4 (n := 15) (m := 5) _ _).trans ((high_append 6 4 (n := 10) (m := 5) _ _).trans ((high_append 0 4 (n := 4) (m := 6) _ _).trans (whole _)))))))

@[simp] theorem fMinor_encMX : fMinor (encMX g mi d a b t sp) = mi :=
  (high_append 21 6 (n := 31) (m := 1) _ _).trans ((high_append 19 6 (n := 29) (m := 2) _ _).trans ((high_append 15 6 (n := 25) (m := 4) _ _).trans ((high_append 10 6 (n := 20) (m := 5) _ _).trans ((high_append 5 6 (n := 15) (m := 5) _ _).trans ((high_append 0 6 (n := 10) (m := 5) _ _).trans (low_append (n := 4) _ _))))))

@[simp] theorem fD_encMX : fD (encMX g mi d a b t sp) = d :=
  (high_append 16 5 (n := 31) (m := 1) _ _).trans ((high_append 14 5 (n := 29) (m := 2) _ _).trans ((high_append 10 5 (n := 25) (m := 4) _ _).trans ((high_append 5 5 (n := 20) (m := 5) _ _).trans ((high_append 0 5 (n := 15) (m := 5) _ _).trans (low_append (n := 10) _ _)))))

@[simp] theorem fA_encMX : fA (encMX g mi d a b t sp) = a :=
  (high_append 11 5 (n := 31) (m := 1) _ _).trans ((high_append 9 5 (n := 29) (m := 2) _ _).trans ((high_append 5 5 (n := 25) (m := 4) _ _).trans ((high_append 0 5 (n := 20) (m := 5) _ _).trans (low_append (n := 15) _ _))))

@[simp] theorem fB_encMX : fB (encMX g mi d a b t sp) = b :=
  (high_append 6 5 (n := 31) (m := 1) _ _).trans ((high_append 4 5 (n := 29) (m := 2) _ _).trans ((high_append 0 5 (n := 25) (m := 4) _ _).trans (low_append (n := 20) _ _)))

@[simp] theorem fTX_encMX : fTX (encMX g mi d a b t sp) = t :=
  (high_append 2 4 (n := 31) (m := 1) _ _).trans ((high_append 0 4 (n := 29) (m := 2) _ _).trans (low_append (n := 25) _ _))

@[simp] theorem fSpX_encMX : fSpX (encMX g mi d a b t sp) = sp :=
  (high_append 0 2 (n := 31) (m := 1) _ _).trans (low_append (n := 29) _ _)

end

section

variable (op : BitVec 6) (a : Reg) (b : Reg) (d : Reg) (e : BitVec 5) (t : BitVec 4) (l : BitVec 2)

@[simp] theorem eOp_encE : eOp (encE op a b d e t l) = op :=
  (high_append 24 6 (n := 30) (m := 2) _ _).trans ((high_append 20 6 (n := 26) (m := 4) _ _).trans ((high_append 15 6 (n := 21) (m := 5) _ _).trans ((high_append 10 6 (n := 16) (m := 5) _ _).trans ((high_append 5 6 (n := 11) (m := 5) _ _).trans ((high_append 0 6 (n := 6) (m := 5) _ _).trans (whole _))))))

@[simp] theorem eA_encE : eA (encE op a b d e t l) = a :=
  (high_append 19 5 (n := 30) (m := 2) _ _).trans ((high_append 15 5 (n := 26) (m := 4) _ _).trans ((high_append 10 5 (n := 21) (m := 5) _ _).trans ((high_append 5 5 (n := 16) (m := 5) _ _).trans ((high_append 0 5 (n := 11) (m := 5) _ _).trans (low_append (n := 6) _ _)))))

@[simp] theorem eB_encE : eB (encE op a b d e t l) = b :=
  (high_append 14 5 (n := 30) (m := 2) _ _).trans ((high_append 10 5 (n := 26) (m := 4) _ _).trans ((high_append 5 5 (n := 21) (m := 5) _ _).trans ((high_append 0 5 (n := 16) (m := 5) _ _).trans (low_append (n := 11) _ _))))

@[simp] theorem eD_encE : eD (encE op a b d e t l) = d :=
  (high_append 9 5 (n := 30) (m := 2) _ _).trans ((high_append 5 5 (n := 26) (m := 4) _ _).trans ((high_append 0 5 (n := 21) (m := 5) _ _).trans (low_append (n := 16) _ _)))

@[simp] theorem eE_encE : eE (encE op a b d e t l) = e :=
  (high_append 4 5 (n := 30) (m := 2) _ _).trans ((high_append 0 5 (n := 26) (m := 4) _ _).trans (low_append (n := 21) _ _))

@[simp] theorem eT_encE : eT (encE op a b d e t l) = t :=
  (high_append 0 4 (n := 30) (m := 2) _ _).trans (low_append (n := 26) _ _)

@[simp] theorem eL_encE : eL (encE op a b d e t l) = l :=
  low_append (n := 30) _ _

end

section

variable (w : BitVec 4) (st : BitVec 4)

@[simp] theorem hSig_encH : hSig (encH w st) = 0xB#4 :=
  (high_append 19 4 (n := 23) (m := 9) _ _).trans ((high_append 15 4 (n := 19) (m := 4) _ _).trans ((high_append 11 4 (n := 15) (m := 4) _ _).trans ((high_append 9 4 (n := 13) (m := 2) _ _).trans ((high_append 0 4 (n := 4) (m := 9) _ _).trans (whole _)))))

@[simp] theorem hMask_encH : hMask (encH w st) = 0#9 :=
  (high_append 10 9 (n := 23) (m := 9) _ _).trans ((high_append 6 9 (n := 19) (m := 4) _ _).trans ((high_append 2 9 (n := 15) (m := 4) _ _).trans ((high_append 0 9 (n := 13) (m := 2) _ _).trans (low_append (n := 4) _ _))))

@[simp] theorem hLitc_encH : hLitc (encH w st) = 0#2 :=
  (high_append 8 2 (n := 23) (m := 9) _ _).trans ((high_append 4 2 (n := 19) (m := 4) _ _).trans ((high_append 0 2 (n := 15) (m := 4) _ _).trans (low_append (n := 13) _ _)))

@[simp] theorem hWait_encH : hWait (encH w st) = w :=
  (high_append 4 4 (n := 23) (m := 9) _ _).trans ((high_append 0 4 (n := 19) (m := 4) _ _).trans (low_append (n := 15) _ _))

@[simp] theorem hStall_encH : hStall (encH w st) = st :=
  (high_append 0 4 (n := 23) (m := 9) _ _).trans (low_append (n := 19) _ _)

@[simp] theorem hRes_encH : hRes (encH w st) = 0#9 :=
  low_append (n := 23) _ _

end


/-- The shift amount of an immediate shift, and the bits above it (03 R73). -/
@[simp] theorem shift_encI (g : BitVec 4) (mi : BitVec 6) (d a : Reg) (sh : BitVec 6) :
    (encI g mi d a (0#6 ++ sh)).extractLsb' 0 6 = sh := by
  have h : (encI g mi d a (0#6 ++ sh)).extractLsb' 0 6 = (fImm (encI g mi d a (0#6 ++ sh))).extractLsb' 0 6 := by
    apply BitVec.eq_of_getLsbD_eq
    intro i hi
    simp [fImm, hi]
  rw [h, fImm_encI]
  exact low_append (n := 6) _ _
@[simp] theorem shiftTop_encI (g : BitVec 4) (mi : BitVec 6) (d a : Reg) (sh : BitVec 6) :
    (encI g mi d a (0#6 ++ sh)).extractLsb' 6 6 = 0#6 := by
  have h : (encI g mi d a (0#6 ++ sh)).extractLsb' 6 6 = (fImm (encI g mi d a (0#6 ++ sh))).extractLsb' 6 6 := by
    apply BitVec.eq_of_getLsbD_eq
    intro i hi
    simp [fImm, hi]
  rw [h, fImm_encI]
  exact (high_append 0 6 (n := 6) (m := 6) _ _).trans (whole _)

/-- Bit 0 of form MX is zero. -/
@[simp] theorem bit0_encMX (g : BitVec 4) (mi : BitVec 6) (d a b : Reg) (t : BitVec 4) (sp : BitVec 2) :
    (encMX g mi d a b t sp).getLsbD 0 = false := by
  have h : (encMX g mi d a b t sp).extractLsb' 0 1 = 0#1 := low_append (n := 31) _ _
  have h0 : ((encMX g mi d a b t sp).extractLsb' 0 1).getLsbD 0 = (0#1).getLsbD 0 := by rw [h]
  simpa using h0
@[simp] theorem bit0_encMX_get (g : BitVec 4) (mi : BitVec 6) (d a b : Reg) (t : BitVec 4) (sp : BitVec 2) :
    (encMX g mi d a b t sp)[0] = false := bit0_encMX g mi d a b t sp

end Sys2Proof.Laws
end

