-- ==== Sys2Proof/Laws/Engines.lean ====
section
/-! SUPPORT. What the asynchronous engines move: rows in global space and in the tile, line by line and byte by byte (08 R221, R222). -/

namespace Sys2Proof.Laws

open Sys2Proof.Machine Sys2Proof.Safety

/-- The rows that take effect lie at their addresses, in the address space. -/
theorem mem_goodRows {e : Engine} {got : Map (Option (BitVec 512))} {row a : Nat} :
    (row, a) ∈ e.goodRows got ↔ row < e.rows ∧ ∃ z, e.rowAddr got row = some z ∧ e.inSpace z = true ∧ a = z.toNat := by
  simp only [Engine.goodRows, List.mem_filterMap, List.mem_range]
  constructor
  · rintro ⟨r, hr, h⟩
    cases hz : e.rowAddr got r with
    | none => simp [hz] at h
    | some z =>
      simp only [hz, Option.bind_some] at h
      split at h
      · cases h; exact ⟨hr, z, hz, ‹_›, rfl⟩
      · cases h
  · rintro ⟨hr, z, hz, hs, rfl⟩
    exact ⟨row, hr, by simp [hz, hs]⟩

/-- The parts of a global line, each of one row, by ascending row. -/
theorem mem_inLine {e : Engine} {got : Map (Option (BitVec 512))} {l : Nat} {p : Piece} (h : p ∈ e.inLine got l) :
    ∃ row a, (row, a) ∈ e.goodRows got ∧ p.va = max a (64 * l) ∧ p.va + p.n = min (a + e.rb) (64 * l + 64) ∧ 0 < p.n ∧
      p.lo = e.off + row * e.rb + (p.va - a) := by
  simp only [Engine.inLine, List.mem_filterMap] at h
  obtain ⟨⟨row, a⟩, hm, h⟩ := h
  simp only at h
  split at h
  · cases h
    exact ⟨row, a, hm, rfl, by simp; omega, by simp; omega, by simp⟩
  · cases h

/-- A part covers byte b of its line. -/
def Covers (base : Piece → Nat) (p : Piece) (b : Nat) : Prop := base p ≤ b ∧ b < base p + p.n

theorem overlay_fold (base src : Piece → Nat) (ps : List Piece) (acc : Nat × Nat) (b : Nat) (hb : b < 64) :
    let r := ps.foldl (fun a p =>
      let m := (2 ^ p.n - 1) <<< base p
      (a.1 ||| m, mixBytes 64 m a.2 (src p <<< (8 * base p)))) acc
    (r.1.testBit b = true ↔ acc.1.testBit b = true ∨ ∃ p ∈ ps, Covers base p b) ∧
    ((∀ p ∈ ps, ¬Covers base p b) → slice r.2 8 b = slice acc.2 8 b) := by
  induction ps generalizing acc with
  | nil => simp
  | cons p t ih =>
    obtain ⟨h1, h2⟩ := ih ((acc.1 ||| (2 ^ p.n - 1) <<< base p), mixBytes 64 ((2 ^ p.n - 1) <<< base p) acc.2 (src p <<< (8 * base p)))
    refine ⟨?_, ?_⟩
    · simp only [List.foldl_cons]
      rw [h1]
      simp only [Nat.testBit_or, testBit_bytes, Bool.or_eq_true, decide_eq_true_eq, List.mem_cons, exists_eq_or_imp, Covers]
      exact or_assoc
    · intro hn
      simp only [List.foldl_cons]
      rw [h2 fun q hq => hn q (by simp [hq]), slice_mixBytes hb, testBit_bytes]
      have := hn p (by simp)
      simp only [Covers] at this
      simp [this]

/-- Parts laid over a line: the mask holds the covered bytes, and a byte is that of the last part that covers it. -/
theorem overlay_byte (base src : Piece → Nat) (ps : List Piece) {b : Nat} (hb : b < 64) :
    ((overlay base src ps).1.testBit b = true ↔ ∃ p ∈ ps, Covers base p b) ∧
    ∀ pre p post, ps = pre ++ p :: post → Covers base p b → (∀ q ∈ post, ¬Covers base q b) →
      slice (overlay base src ps).2 8 b = slice (src p) 8 (b - base p) := by
  refine ⟨?_, ?_⟩
  · have := (overlay_fold base src ps (0, 0) b hb).1
    simpa [overlay] using this
  · rintro pre p post rfl hc hn
    simp only [overlay, List.foldl_append, List.foldl_cons]
    rw [(overlay_fold base src post _ b hb).2 hn, slice_mixBytes hb, testBit_bytes]
    simp only [Covers] at hc
    simp only [hc, and_self, decide_true, if_true]
    exact slice_shiftLeft hc.1

end Sys2Proof.Laws
end

