-- ==== Sys2Proof/Laws/Global.lean ====
section
/-! SUPPORT. HBM and host memory under the shared operations: which leave the two memories alone, and that those which write
them keep the canonical form (07 R167, 08 R197; log 5). -/

namespace Sys2Proof.Laws

open Sys2Proof.Machine Sys2Proof.Safety

/-! Operations that leave both memories alone. -/

theorem foldl_global {α : Type} {f : State → α → State} (h : ∀ s x, (f s x).hbm = s.hbm ∧ (f s x).host = s.host) (l : List α) (s : State) :
    (l.foldl f s).hbm = s.hbm ∧ (l.foldl f s).host = s.host := by
  induction l generalizing s with
  | nil => simp
  | cons x t ih => simp only [List.foldl_cons]; rw [(ih _).1, (ih _).2]; exact h s x

theorem foldl_global_of {α : Type} {f : State → α → State} {l : List α} {s u : State} (h : ∀ s x, (f s x).hbm = s.hbm ∧ (f s x).host = s.host)
    (hu : u.hbm = s.hbm ∧ u.host = s.host) : (l.foldl f u).hbm = s.hbm ∧ (l.foldl f u).host = s.host := by
  rw [(foldl_global h l u).1, (foldl_global h l u).2]; exact hu

theorem map_getD_global {o : Option State} {f : State → State} {s : State} (h : ∀ u, o = some u → u.hbm = s.hbm ∧ u.host = s.host)
    (hf : ∀ u, (f u).hbm = u.hbm ∧ (f u).host = u.host) : ((o.map f).getD s).hbm = s.hbm ∧ ((o.map f).getD s).host = s.host := by
  cases o with
  | none => simp
  | some u => simp [hf, h u rfl]

@[simp] theorem ite_hbm (p : Prop) [Decidable p] (s t : State) : (if p then s else t).hbm = if p then s.hbm else t.hbm := by split <;> rfl
@[simp] theorem ite_host (p : Prop) [Decidable p] (s t : State) : (if p then s else t).host = if p then s.host else t.host := by split <;> rfl

@[simp] theorem guarded_global {cs : List Check} {eff : State → State} {s : State} (h : (eff s).hbm = s.hbm ∧ (eff s).host = s.host) :
    (guarded cs eff s).hbm = s.hbm ∧ (guarded cs eff s).host = s.host := by
  rcases guarded_cases cs eff s with e | ⟨c, -, -, -, e⟩ <;> rw [e]
  · exact h
  · simp

@[simp] theorem waitFor_global {b : Bool} {w : Nat} {eff : State → State} {s : State} (h : (eff s).hbm = s.hbm ∧ (eff s).host = s.host) :
    (waitFor b w eff s).hbm = s.hbm ∧ (waitFor b w eff s).host = s.host := by
  rcases waitFor_cases b w eff s with e | ⟨-, -, e⟩ <;> rw [e]
  · exact h
  · simp

@[simp] theorem waitRoom_global {b : Bool} {eff : State → State} {s : State} (h : (eff s).hbm = s.hbm ∧ (eff s).host = s.host) :
    (waitRoom b eff s).hbm = s.hbm ∧ (waitRoom b eff s).host = s.host := by
  cases b <;> simp [h]

@[simp] theorem ending_global {cs : List Check} {eff : State → State} {s : State} (h : (eff s).hbm = s.hbm ∧ (eff s).host = s.host) :
    (ending cs eff s).hbm = s.hbm ∧ (ending cs eff s).host = s.host := by
  unfold ending
  refine guarded_global ?_
  split <;> simp [h]

@[simp] theorem raise_global (c : Cause) (s : State) :
    (raise c s).hbm = s.hbm ∧ (raise c s).host = s.host := by
  exact ⟨rfl, rfl⟩

@[simp] theorem result_global (p : Pending) (s : State) :
    (result p s).hbm = s.hbm ∧ (result p s).host = s.host := by
  unfold result; simp

@[simp] theorem writeS_global (lat : Nat) (d : Reg) (x : W64) (s : State) :
    (writeS lat d x s).hbm = s.hbm ∧ (writeS lat d x s).host = s.host := by
  simp [writeS]

@[simp] theorem writeK_global (lat : Nat) (d : KReg) (x : W64) (s : State) :
    (writeK lat d x s).hbm = s.hbm ∧ (writeK lat d x s).host = s.host := by
  simp [writeK]

@[simp] theorem writeN_global (lat : Nat) (d : NReg) (x : Name) (s : State) :
    (writeN lat d x s).hbm = s.hbm ∧ (writeN lat d x s).host = s.host := by
  simp [writeN]

@[simp] theorem closeBundle_global (s : State) :
    (closeBundle s).hbm = s.hbm ∧ (closeBundle s).host = s.host := by
  unfold closeBundle; split <;> exact ⟨rfl, rfl⟩

@[simp] theorem vresult_global (lat : Nat) (d : Reg) (tags : List Check) (own : List Check) (r : VReg × Flags) (s : State) :
    (vresult lat d tags own r s).hbm = s.hbm ∧ (vresult lat d tags own r s).host = s.host := by
  unfold vresult; simp

@[simp] theorem sresult_global (lat : Nat) (d : Reg) (tags : List Check) (own : List Check) (x : W64) (fl : Flags) (s : State) :
    (sresult lat d tags own x fl s).hbm = s.hbm ∧ (sresult lat d tags own x fl s).host = s.host := by
  unfold sresult; simp

@[simp] theorem cacheLeaf_global (s : State) (r : Nat) (va : Nat) :
    (cacheLeaf s r va).hbm = s.hbm ∧ (cacheLeaf s r va).host = s.host := by
  unfold cacheLeaf
  dsimp only
  (repeat' split) <;> simp

@[simp] theorem issueAtom_global (ret : Bool) (d : Reg) (a : Reg) (sp : BitVec 2) (t : BitVec 4) (f : BitVec 6) (s : State) :
    (issueAtom ret d a sp t f s).hbm = s.hbm ∧ (issueAtom ret d a sp t f s).host = s.host := by
  unfold issueAtom; dsimp only; split <;> simp

@[simp] theorem issueMaint_global (k : Option Nat → OpKind) (a : Reg) (sp : BitVec 2) (t : BitVec 4) (f : BitVec 6) (s : State) :
    (issueMaint k a sp t f s).hbm = s.hbm ∧ (issueMaint k a sp t f s).host = s.host := by
  unfold issueMaint; dsimp only; simp

@[simp] theorem post_global (s : State) (q : Nat) (src : Source) (code : Nat) (p0 : W64) (p1 : W64) (held : Bool) (tok : Option (Nat × W64 × Bool × BitVec 4)) (done : Option Nat) :
    (post s q src code p0 p1 held tok done).hbm = s.hbm ∧ (post s q src code p0 p1 held tok done).host = s.host := by
  exact ⟨rfl, rfl⟩

@[simp] theorem offer_global (s : State) (ret : Nat) (region : Nat) (src : Nat) (sel : Nat) (v : Nat) :
    (offer s ret region src sel v).hbm = s.hbm ∧ (offer s ret region src sel v).host = s.host := by
  refine foldl_global (fun s u => ?_) ..
  split <;> simp [State.setCapture]

@[simp] theorem borderRefused_global (s : State) (reg : Nat) (n : Name) (cls : Nat) (port : Nat) (code : Nat) :
    (borderRefused s reg n cls port code).hbm = s.hbm ∧ (borderRefused s reg n cls port code).host = s.host := by
  simp [borderRefused]

@[simp] theorem refuseAtBorder_global (s : State) (reg : Nat) (a : Nat) (d : Nat) (n : Name) (cls : Nat) :
    (refuseAtBorder s reg a d n cls).hbm = s.hbm ∧ (refuseAtBorder s reg a d n cls).host = s.host := borderRefused_global ..

@[simp] theorem landAt_global (s : State) (core : Nat) (fid : W64) (fw : Bool) (tc : BitVec 4) :
    (landAt s core fid fw tc).hbm = s.hbm ∧ (landAt s core fid fw tc).host = s.host := by
  simp [landAt]

@[simp] theorem moveBy_global (s : State) (j : Nat) (t : Token) (port : Nat) :
    (moveBy s j t port).hbm = s.hbm ∧ (moveBy s j t port).host = s.host := by
  unfold moveBy
  split <;> simp

@[simp] theorem hopOn_global (s : State) (j : Nat) (t : Token) :
    (hopOn s j t).hbm = s.hbm ∧ (hopOn s j t).host = s.host := by
  unfold hopOn
  split <;> simp

@[simp] theorem countSink_global (s : State) (reg : Nat) (n : Name) :
    (countSink s reg n).hbm = s.hbm ∧ (countSink s reg n).host = s.host := by
  exact ⟨rfl, rfl⟩

theorem acceptTile_global {z : State} {s : State} {reg : Nat} {loc : Nat} {src : Nat} {fid : W64} {p : Parcel} (h : acceptTile s reg loc src fid p = some z) : z.hbm = s.hbm ∧ z.host = s.host := by
  unfold acceptTile at h
  simp only [Option.map_eq_some_iff] at h
  obtain ⟨a, -, rfl⟩ := h
  simp

theorem acceptPub_global {z : State} {s : State} {reg : Nat} {loc : Nat} {src : Nat} {fid : W64} {p : Parcel} (h : acceptPub s reg loc src fid p = some z) : z.hbm = s.hbm ∧ z.host = s.host := by
  have := acceptTile_global h
  simpa using this

theorem acceptContrib_global {z : State} {s : State} {reg : Nat} {loc : Nat} {src : Nat} {fid : W64} {name : Name} {chunks : List (Nat × Nat)} (h : acceptContrib s reg loc src fid name chunks = some z) : z.hbm = s.hbm ∧ z.host = s.host := by
  unfold acceptContrib at h
  simp only [Option.map_eq_some_iff] at h
  obtain ⟨a, -, rfl⟩ := h
  exact foldl_global (fun _ _ => by simp) ..

@[simp] theorem sendName_global (m : Msg) (s : State) :
    (sendName m s).hbm = s.hbm ∧ (sendName m s).host = s.host := by
  exact ⟨rfl, rfl⟩

@[simp] theorem bindTile_global (n : Name) (i : Nat) (old : Option Name) (s : State) :
    (bindTile n i old s).hbm = s.hbm ∧ (bindTile n i old s).host = s.host := by
  exact ⟨rfl, rfl⟩

@[simp] theorem drainFor_global (i : Nat) (o : Op) (s : State) :
    (drainFor i o s).hbm = s.hbm ∧ (drainFor i o s).host = s.host := by
  exact ⟨rfl, rfl⟩

@[simp] theorem copyTo_global (s : State) (t : Token) (p : Parcel) (ports : List Nat) :
    (copyTo s t p ports).hbm = s.hbm ∧ (copyTo s t p ports).host = s.host := by
  refine foldl_global (fun s x => ?_) ..
  split
  · simp
  · split
    · simp
    · split
      · simp
      · exact foldl_global (fun _ _ => by simp) ..

@[simp] theorem giveMark_global (pub : Nat) (l : List (Nat × Nat)) (s : State) :
    (s.giveMark pub l).hbm = s.hbm ∧ (s.giveMark pub l).host = s.host := by
  unfold State.giveMark
  split <;> simp

theorem fallThrough_global {z : State} {s : State} {t : Token} {n : Name} {subs : List (Nat × Nat)} (h : fallThrough s t n subs = some z) : z.hbm = s.hbm ∧ z.host = s.host := by
  unfold fallThrough at h
  dsimp only at h
  split at h
  · simp at h
  · injection h with h; subst h; simp

@[simp] theorem serveStanding_global (s : State) (j : Nat) (t : Token) (task : Nat) (num : Nat) (n : Name) (m : Name) (direct : Bool) :
    (serveStanding s j t task num n m direct).hbm = s.hbm ∧ (serveStanding s j t task num n m direct).host = s.host := by
  unfold serveStanding
  dsimp only
  split
  · simp
  split
  · have h := foldl_global (f := fun s (a : Aired) =>
      (s.send (t.serve a (.give (a.parcel (s.router t.loc)) task num))).onRouter t.loc fun r => r.putAired a.name Aired.serve) (fun _ _ => by simp)
      ((s.router t.loc).storedFor n m) s
    split <;> simp [h]
  split
  · split <;> simp
  split
  · split
    · have h := fallThrough_global ‹_›
      split <;> simp [h]
    · simp
  · split <;> simp

@[simp] theorem serveOneShot_global (s : State) (j : Nat) (t : Token) (n : Name) (who : Asker) :
    (serveOneShot s j t n who).hbm = s.hbm ∧ (serveOneShot s j t n who).host = s.host := by
  unfold serveOneShot
  dsimp only
  split
  · simp
  split
  · simp
  split
  · simp
  split
  · simp [fallThrough_global ‹_›]
  · simp

@[simp] theorem countSub_global (s : State) (t : Token) (task num : Nat) (n m : Name) :
    (countSub s t task num n m).1.hbm = s.hbm ∧ (countSub s t task num n m).1.host = s.host := by
  unfold countSub
  split <;> simp

@[simp] theorem serveAtHome_global (s : State) (j : Nat) (t : Token) :
    (serveAtHome s j t).hbm = s.hbm ∧ (serveAtHome s j t).host = s.host := by
  unfold serveAtHome
  dsimp only
  (repeat' split) <;> simp

@[simp] theorem treatAtHome_global (s : State) (t : Token) (p : Parcel) (picks : List Nat) :
    (treatAtHome s t p picks).hbm = s.hbm ∧ (treatAtHome s t p picks).host = s.host := by
  unfold treatAtHome
  dsimp only
  have h1 : ∀ (l : List Shot) (u : State),
      (l.foldl (fun s w => s.send (t.from (.giveTo p w.who))) u).hbm = u.hbm ∧ (l.foldl (fun s w => s.send (t.from (.giveTo p w.who))) u).host = u.host :=
    fun l u => foldl_global (fun _ _ => by simp) ..
  have h2 : ∀ (l : List (Nat × Nat × Name × Name)) (u : State),
      (l.foldl (fun s d => s.send (t.from (.give p d.1 d.2.1))) u).hbm = u.hbm ∧ (l.foldl (fun s d => s.send (t.from (.give p d.1 d.2.1))) u).host = u.host :=
    fun l u => foldl_global (fun _ _ => by simp) ..
  (repeat' split) <;> simp [h1, h2]

@[simp] theorem flushRegion_global (s : State) (reg : Nat) :
    (flushRegion s reg).hbm = s.hbm ∧ (flushRegion s reg).host = s.host := by
  exact ⟨rfl, rfl⟩

@[simp] theorem flushNames_global (f : Name → Bool) (s : State) :
    (flushNames f s).hbm = s.hbm ∧ (flushNames f s).host = s.host := by
  exact ⟨rfl, rfl⟩

@[simp] theorem notify_global (reg : Nat) (scope : Nat) (unit : Nat) (inst : BitVec 32) (s : State) :
    (notify reg scope unit inst s).hbm = s.hbm ∧ (notify reg scope unit inst s).host = s.host := by
  exact ⟨rfl, rfl⟩

@[simp] theorem issueEngine_global (minor : Nat) (d : Reg) (a : Reg) (b : Reg) (t : BitVec 4) (sp : BitVec 2) (s : State) :
    (issueEngine minor d a b t sp s).hbm = s.hbm ∧ (issueEngine minor d a b t sp s).host = s.host := by
  unfold issueEngine
  refine guarded_global (waitFor_global (waitRoom_global ?_))
  split <;> simp

@[simp] theorem testNode_global (reg : Nat) (scope : Nat) (unit : Nat) (fuel : Nat) (u : State) :
    (testNode reg scope unit fuel u).hbm = u.hbm ∧ (testNode reg scope unit fuel u).host = u.host := by
  induction fuel generalizing u with
  | zero => exact ⟨rfl, rfl⟩
  | succ n ih =>
    simp only [testNode]
    split
    · simp
    · simp [ih]

@[simp] theorem arriveAt_global (s : State) (reg : Nat) (scope : Nat) (unit : Nat) (inst : BitVec 32) :
    (arriveAt s reg scope unit inst).hbm = s.hbm ∧ (arriveAt s reg scope unit inst).host = s.host := by
  unfold arriveAt
  dsimp only
  split <;> simp

@[simp] theorem offerBarrier_global (n : Notice) (s : State) :
    (offerBarrier n s).hbm = s.hbm ∧ (offerBarrier n s).host = s.host := by
  exact foldl_global (fun _ _ => by simp) ..

@[simp] theorem takeNotice_global (j : Nat) (n : Notice) (s : State) :
    (takeNotice j n s).hbm = s.hbm ∧ (takeNotice j n s).host = s.host := by
  unfold takeNotice
  dsimp only
  split <;> simp

@[simp] theorem icFill_global (key : Nat) (pick : Nat) (s : State) :
    (icFill key pick s).hbm = s.hbm ∧ (icFill key pick s).host = s.host := by
  unfold icFill
  dsimp only
  split
  · simp
  · split <;> simp

@[simp] theorem prefetch_global (s : State) :
    (prefetch s).hbm = s.hbm ∧ (prefetch s).host = s.host := by
  exact ⟨rfl, rfl⟩

@[simp] theorem issueThenTrap_global (c : Cause) (v : W64) (s : State) :
    (issueThenTrap c v s).hbm = s.hbm ∧ (issueThenTrap c v s).host = s.host := by
  exact ⟨rfl, rfl⟩

@[simp] theorem finishRecord_global (q : Nat) (j : BitVec 16) (ltag : BitVec 32) (status : Nat) (s : State) :
    (finishRecord q j ltag status s).hbm = s.hbm ∧ (finishRecord q j ltag status s).host = s.host := by
  exact ⟨rfl, rfl⟩

@[simp] theorem launchDone_global (q : Nat) (w : W64) (compl : W64) (done : Option Nat) (s : State) :
    (launchDone q w compl done s).hbm = s.hbm ∧ (launchDone q w compl done s).host = s.host := by
  exact ⟨rfl, rfl⟩

@[simp] theorem discardFirings_global (reg : Nat) (s : State) :
    (discardFirings reg s).hbm = s.hbm ∧ (discardFirings reg s).host = s.host := by
  exact foldl_global (fun _ _ => by simp) ..

@[simp] theorem freeRegion_global (reg : Nat) (s : State) :
    (freeRegion reg s).hbm = s.hbm ∧ (freeRegion reg s).host = s.host := by
  exact foldl_global (fun _ _ => by simp) ..

@[simp] theorem setTasks_global (reg : Nat) (code : Nat) (w : TaskWhere) (s : State) :
    (setTasks reg code w s).hbm = s.hbm ∧ (setTasks reg code w s).host = s.host := by
  exact ⟨rfl, rfl⟩

@[simp] theorem takeNotices_global (code : Nat) (s : State) :
    (takeNotices code s).hbm = s.hbm ∧ (takeNotices code s).host = s.host := by
  refine foldl_global (fun s x => ?_) ..
  split
  · split <;> simp
  · simp

@[simp] theorem cacheImage_global (reg ia n : Nat) (s : State) :
    (cacheImage reg ia n s).hbm = s.hbm ∧ (cacheImage reg ia n s).host = s.host := foldl_global (fun _ _ => by simp) ..

@[simp] theorem cacheLoad_global (reg ia : Nat) (c : Core) (s : State) :
    (cacheLoad reg ia c s).hbm = s.hbm ∧ (cacheLoad reg ia c s).host = s.host := cacheImage_global ..

theorem resumeCore_global {z : State} {reg : Nat} {ia : Nat} {code : Nat} {s : State} (h : resumeCore reg ia code s = some z) : z.hbm = s.hbm ∧ z.host = s.host := by
  unfold resumeCore at h
  split at h
  · simp at h
  · injection h with h; subst h; simp

@[simp] theorem installSubs_global (reg : Nat) (code : Nat) (ts : TaskSlot) (s : State) :
    (installSubs reg code ts s).hbm = s.hbm ∧ (installSubs reg code ts s).host = s.host := by
  exact foldl_global (fun _ _ => by simp) ..

@[simp] theorem removeSubs_global (reg : Nat) (code : Nat) (ts : TaskSlot) (s : State) :
    (removeSubs reg code ts s).hbm = s.hbm ∧ (removeSubs reg code ts s).host = s.host := by
  exact foldl_global (fun _ _ => by simp) ..

@[simp] theorem moveBarriers_global (reg a b : Nat) (mine : Nat → Bool) (s : State) :
    (moveBarriers reg a b mine s).hbm = s.hbm ∧ (moveBarriers reg a b mine s).host = s.host := by
  unfold moveBarriers
  split
  · simp
  · refine foldl_global (fun s x => ?_) ..
    dsimp only
    split
    · simp
    · rw [setCoreAt_hbm, setCoreAt_host]
      exact foldl_global (fun _ _ => by simp) ..

@[simp] theorem retarget_global (reg : Nat) (place : Nat → W64 → Nat) (s : State) :
    (retarget reg place s).hbm = s.hbm ∧ (retarget reg place s).host = s.host := ⟨rfl, rfl⟩

@[simp] theorem tellHolder_global (reg dest old : Nat) (s : State) :
    (tellHolder reg dest old s).hbm = s.hbm ∧ (tellHolder reg dest old s).host = s.host := by
  unfold tellHolder
  split <;> simp

@[simp] theorem noteLeft_global (reg from_ dst : Nat) (ts : TaskSlot) (s : State) :
    (noteLeft reg from_ dst ts s).hbm = s.hbm ∧ (noteLeft reg from_ dst ts s).host = s.host := by
  simp [noteLeft]

theorem moveCore_global {z : State} {reg : Nat} {from_ : Nat} {dst : Nat} {ia : Nat} {s : State} (h : moveCore reg from_ dst ia s = some z) : z.hbm = s.hbm ∧ z.host = s.host := by
  unfold moveCore at h
  dsimp only at h
  split at h
  · simp at h
  · injection h with h
    subst h
    have h2 : ∀ (l : List TaskSlot) (u : State),
        (l.foldl (fun s t => noteLeft reg from_ dst t (installSubs reg dst t (removeSubs reg from_ t s))) u).hbm = u.hbm ∧
        (l.foldl (fun s t => noteLeft reg from_ dst t (installSubs reg dst t (removeSubs reg from_ t s))) u).host = u.host :=
      fun l u => foldl_global (fun _ _ => by simp) ..
    simp [h2]

theorem moveHome_global {z : State} {s : State} {reg : Nat} {index : Nat} {dst : Nat} {e : HomeEntry} (h : moveHome s reg index dst e = some z) : z.hbm = s.hbm ∧ z.host = s.host := by
  unfold moveHome at h
  dsimp only at h
  split at h
  · simp at h
  split at h
  · injection h with h; subst h; simp
  split at h
  · simp at h
  · simp only [Option.bind_eq_bind, Option.bind_eq_some_iff] at h
    obtain ⟨b, -, b', -, h⟩ := h
    injection h with h; subst h; simp

@[simp] theorem beginHome_global (reg : Nat) (index : Nat) (e : HomeEntry) (s : State) :
    (beginHome reg index e s).hbm = s.hbm ∧ (beginHome reg index e s).host = s.host := by
  simp only [beginHome, flushNames_global]
  exact foldl_global (fun _ _ => by simp) ..

@[simp] theorem endHome_global (reg : Nat) (index : Nat) (e : HomeEntry) (s : State) :
    (endHome reg index e s).hbm = s.hbm ∧ (endHome reg index e s).host = s.host := foldl_global (fun _ _ => by simp) ..

@[simp] theorem redirectCopies_global (reg : Nat) (task : Nat) (a : Nat) (slot : Nat) (s : State) :
    (redirectCopies reg task a slot s).hbm = s.hbm ∧ (redirectCopies reg task a slot s).host = s.host := by
  unfold redirectCopies
  exact foldl_global_of (fun _ _ => by simp) ⟨rfl, rfl⟩

@[simp] theorem poisonLine_global (reg : Nat) (s : State) (l : Nat) :
    (poisonLine reg s l).hbm = s.hbm ∧ (poisonLine reg s l).host = s.host := by
  unfold poisonLine
  split <;> simp

@[simp] theorem resetNodes_global (reg : Nat) (s : State) :
    (resetNodes reg s).hbm = s.hbm ∧ (resetNodes reg s).host = s.host := by
  exact foldl_global (fun _ _ => by simp) ..

theorem restoreCore_global {z : State} {reg : Nat} {base : Nat} {target : Nat → Nat} {s : State} {n : Nat} (h : restoreCore reg base target s n = some z) : z.hbm = s.hbm ∧ z.host = s.host := by
  unfold restoreCore at h
  dsimp only at h
  split at h
  · simp at h
  · injection h with h; subst h; simp

@[simp] theorem permLanes_global (d : Reg) (a : Reg) (k : KReg) (f : Nat → Nat) (s : State) :
    (permLanes d a k f s).hbm = s.hbm ∧ (permLanes d a k f s).host = s.host := by
  simp [permLanes]

@[simp] theorem runHandler_global (o : EdgeOp) (s : State) :
    (runHandler o s).hbm = s.hbm ∧ (runHandler o s).host = s.host := by
  unfold runHandler
  dsimp only
  split
  · split
    · simp
    · split <;> simp
  · simp

@[simp] theorem edgeArrive_global (c : Nat) (j : Nat) (s : State) :
    (edgeArrive c j s).hbm = s.hbm ∧ (edgeArrive c j s).host = s.host := by
  unfold edgeArrive
  dsimp only
  split
  · simp
  · split <;> (try split) <;> simp

theorem answerCore_global {f : State → State} (hf : ∀ s, (f s).hbm = s.hbm ∧ (f s).host = s.host) (reg p n : Nat) (s : State) :
    (answerCore reg p n f s).hbm = s.hbm ∧ (answerCore reg p n f s).host = s.host := by
  unfold answerCore
  split
  · exact hf s
  · simp

@[simp] theorem cmdDone_global (s : State) (reg p : Nat) (k : EdgeCmd) :
    (cmdDone s reg p k).hbm = s.hbm ∧ (cmdDone s reg p k).host = s.host := by
  unfold cmdDone
  split
  · simp
  · exact answerCore_global (fun _ => by simp) ..

theorem edgePubTry_global {p k : Nat} {s z : State} (h : edgePubTry p k s = some z) : z.hbm = s.hbm ∧ z.host = s.host := by
  have e (s : State) (f : Block → Block) : (s.onBlock p f).hbm = s.hbm ∧ (s.onBlock p f).host = s.host := by simp
  unfold edgePubTry at h
  dsimp only at h
  repeat' (split at h)
  all_goals first | cases h | obtain ⟨y, hy, rfl⟩ := Option.map_eq_some_iff.mp h
  · rw [(e _ _).1, (e _ _).2]; exact acceptContrib_global hy
  · rw [(e _ _).1, (e _ _).2]; exact acceptPub_global hy

@[simp] theorem edgePub_global (p : Nat) (k : Nat) (s : State) :
    (edgePub p k s).hbm = s.hbm ∧ (edgePub p k s).host = s.host := by
  unfold edgePub
  cases h : edgePubTry p k s with
  | none => simp
  | some z => exact edgePubTry_global h

@[simp] theorem linkAck_global (p : Nat) (k : Nat) (s : State) :
    (linkAck p k s).hbm = s.hbm ∧ (linkAck p k s).host = s.host := by
  exact ⟨rfl, rfl⟩

@[simp] theorem bindTask_global (m : Img) (r : Region) (l : Loaded) (task : Nat) (t : Replica) (n : Nat) (slot : Nat) (s : State) :
    (bindTask m r l task t n slot s).hbm = s.hbm ∧ (bindTask m r l task t n slot s).host = s.host := by
  simp [bindTask]

@[simp] theorem distributed_global (s : State) :
    (distributed s).hbm = s.hbm ∧ (distributed s).host = s.host := by
  simp [distributed]

@[simp] theorem goDark_global (i : Nat) (code : Nat) (s : State) :
    (goDark i code s).hbm = s.hbm ∧ (goDark i code s).host = s.host := by
  unfold goDark
  dsimp only
  rw [(distributed_global _).1, (distributed_global _).2]
  refine foldl_global_of (fun _ _ => ?_) (by simp)
  split <;> simp

@[simp] theorem sendRound_global (i : Nat) (k : Nat) (s : State) :
    (sendRound i k s).hbm = s.hbm ∧ (sendRound i k s).host = s.host := by
  refine foldl_global (fun s x => ?_) ..
  split
  · split <;> simp
  · simp

@[simp] theorem advance_global (i : Nat) (fuel : Nat) (u : State) :
    (advance i fuel u).hbm = u.hbm ∧ (advance i fuel u).host = u.host := by
  induction fuel generalizing u with
  | zero => exact ⟨rfl, rfl⟩
  | succ n ih =>
    simp only [advance]
    split
    · split
      · split
        · rw [(ih _).1, (ih _).2]; simp
        · simp
      · simp
    · simp

@[simp] theorem seamLost_global (k : Nat) (s : State) : (seamLost k s).hbm = s.hbm ∧ (seamLost k s).host = s.host := by
  unfold seamLost
  dsimp only
  split <;> (try split) <;> simp

@[simp] theorem setPhase_global (n : BitVec 4) (s : State) :
    (setPhase n s).hbm = s.hbm ∧ (setPhase n s).host = s.host := by
  exact ⟨rfl, rfl⟩

@[simp] theorem settleSeams_global (i : Nat) (s : State) :
    (settleSeams i s).hbm = s.hbm ∧ (settleSeams i s).host = s.host := by
  unfold settleSeams
  dsimp only
  split
  · simp
  · split <;> simp

@[simp] theorem seamTimeout_global (i : Nat) (s : State) :
    (seamTimeout i s).hbm = s.hbm ∧ (seamTimeout i s).host = s.host := by
  simp [seamTimeout]

@[simp] theorem failReceipt_global (i : Nat) (s : State) :
    (failReceipt i s).hbm = s.hbm ∧ (failReceipt i s).host = s.host := by
  simp [failReceipt]

@[simp] theorem bootRecords_global (s : State) :
    (bootRecords s).hbm = s.hbm ∧ (bootRecords s).host = s.host := by
  refine foldl_global (fun s x => ?_) ..
  refine foldl_global_of (fun _ _ => ?_) (by split <;> simp)
  split
  · split <;> simp
  · simp

@[simp] theorem enumFail_global (s : State) :
    (enumFail s).hbm = s.hbm ∧ (enumFail s).host = s.host := by
  exact ⟨rfl, rfl⟩

@[simp] theorem takeBranch_global (t : Addr) (s : State) :
    (takeBranch t s).hbm = s.hbm ∧ (takeBranch t s).host = s.host := by
  exact ⟨rfl, rfl⟩

@[simp] theorem branchIf_global (c : Bool) (off : BitVec 17) (s : State) :
    (branchIf c off s).hbm = s.hbm ∧ (branchIf c off s).host = s.host := by
  simp [branchIf]

@[simp] theorem setLoop_global (cnt : W64) (off : BitVec 17) (s : State) :
    (setLoop cnt off s).hbm = s.hbm ∧ (setLoop cnt off s).host = s.host := by
  unfold setLoop
  refine guarded_global ?_
  split <;> simp

@[simp] theorem headerOnly_global (w : BitVec 4) (stl : BitVec 4) (s : State) :
    (headerOnly w stl s).hbm = s.hbm ∧ (headerOnly w stl s).host = s.host := by
  unfold headerOnly
  simp

@[simp] theorem pageWrite_global (q : Nat) (off : Nat) (x : Nat) (s : State) :
    (pageWrite q off x s).hbm = s.hbm ∧ (pageWrite q off x s).host = s.host := by
  simp [pageWrite]

@[simp] theorem setPodcfg_global (x : Nat) (s : State) :
    (setPodcfg x s).hbm = s.hbm ∧ (setPodcfg x s).host = s.host := by
  unfold setPodcfg
  dsimp only
  split <;> simp

@[simp] theorem controlWrite_global (off : Nat) (x : Nat) (s : State) :
    (controlWrite off x s).hbm = s.hbm ∧ (controlWrite off x s).host = s.host := by
  simp [controlWrite]

@[simp] theorem setRouterWord_global (code : Nat) (item : Nat) (w : Nat) (v : Nat) (s : State) :
    (setRouterWord code item w v s).hbm = s.hbm ∧ (setRouterWord code item w v s).host = s.host := by
  exact ⟨rfl, rfl⟩

@[simp] theorem applyCfg_global (s : State) (ret i : Nat) (x : W64) :
    (applyCfg s ret i x).hbm = s.hbm ∧ (applyCfg s ret i x).host = s.host := by
  simp [applyCfg, State.setCapture]

@[simp] theorem setControllerWord_global (ret : Nat) (item : Nat) (reg : Nat) (w : Nat) (v : Nat) (s : State) :
    (setControllerWord ret item reg w v s).hbm = s.hbm ∧ (setControllerWord ret item reg w v s).host = s.host := by
  unfold setControllerWord
  (repeat' split) <;> simp

@[simp] theorem setEdgeWord_global (p : Nat) (item : Nat) (w : Nat) (v : Nat) (s : State) :
    (setEdgeWord p item w v s).hbm = s.hbm ∧ (setEdgeWord p item w v s).host = s.host := by
  exact ⟨rfl, rfl⟩

@[simp] theorem alu2_global (f : W64 → W64 → W64) (d : Reg) (a : Reg) (b : Reg) (s : State) :
    (alu2 f d a b s).hbm = s.hbm ∧ (alu2 f d a b s).host = s.host := by
  simp [alu2]

@[simp] theorem alu1_global (f : W64 → W64) (d : Reg) (a : Reg) (s : State) :
    (alu1 f d a s).hbm = s.hbm ∧ (alu1 f d a s).host = s.host := by
  simp [alu1]

@[simp] theorem mul3_global (d : Reg) (x : W64) (s : State) :
    (mul3 d x s).hbm = s.hbm ∧ (mul3 d x s).host = s.host := by
  simp [mul3]

@[simp] theorem divide_global (f : W64 → W64 → W64) (d : Reg) (a : Reg) (b : Reg) (s : State) :
    (divide f d a b s).hbm = s.hbm ∧ (divide f d a b s).host = s.host := by
  unfold divide
  simp

@[simp] theorem vbin_global (lat : Nat) (ff : Exact → Exact → Nat × Flags) (fi : Int → Int → Int) (d : Reg) (a : Reg) (b : Reg) (k : KReg) (m : BitVec 4) (s : State) :
    (vbin lat ff fi d a b k m s).hbm = s.hbm ∧ (vbin lat ff fi d a b k m s).host = s.host := by
  simp [vbin]

@[simp] theorem vun_global (lat : Nat) (ff : Exact → Nat × Flags) (fi : Int → Int) (d : Reg) (a : Reg) (k : KReg) (m : BitVec 4) (s : State) :
    (vun lat ff fi d a k m s).hbm = s.hbm ∧ (vun lat ff fi d a k m s).host = s.host := by
  simp [vun]

@[simp] theorem vtri_global (lat : Nat) (ff : Exact → Exact → Exact → Nat × Flags) (fi : Int → Int → Int → Int) (d : Reg) (a : Reg) (b : Reg) (k : KReg) (m : BitVec 4) (s : State) :
    (vtri lat ff fi d a b k m s).hbm = s.hbm ∧ (vtri lat ff fi d a b k m s).host = s.host := by
  simp [vtri]

@[simp] theorem vbits_global (f : VData → VData → VData) (d : Reg) (a : Reg) (b : Reg) (k : KReg) (s : State) :
    (vbits f d a b k s).hbm = s.hbm ∧ (vbits f d a b k s).host = s.host := by
  simp [vbits]

@[simp] theorem pairResult_global (d : Reg) (m : BitVec 4) (tags : List Check) (l : List KeyIdx) (s : State) :
    (pairResult d m tags l s).hbm = s.hbm ∧ (pairResult d m tags l s).host = s.host := by
  unfold pairResult
  simp

@[simp] theorem sfu_global (lat : Nat) (f : Nat → Exact → Nat × Flags) (d : Reg) (a : Reg) (k : KReg) (m : BitVec 4) (s : State) :
    (sfu lat f d a k m s).hbm = s.hbm ∧ (sfu lat f d a k m s).host = s.host := by
  simp [sfu]

@[simp] theorem matSimple_global (checks : List Check) (cmd : MatCmd) (s : State) :
    (matSimple checks cmd s).hbm = s.hbm ∧ (matSimple checks cmd s).host = s.host := by
  unfold matSimple
  simp

@[simp] theorem issueMma_global (sp : Bool) (d : WReg) (a : Reg) (k : KReg) (s : State) :
    (issueMma sp d a k s).hbm = s.hbm ∧ (issueMma sp d a k s).host = s.host := by
  unfold issueMma
  refine guarded_global (waitFor_global (guarded_global (waitRoom_global (waitFor_global ?_))))
  simp

@[simp] theorem matReadLine_global (j : Nat) (l : Nat) (s : State) :
    (matReadLine j l s).hbm = s.hbm ∧ (matReadLine j l s).host = s.host := by
  unfold matReadLine
  (repeat' split) <;> simp

@[simp] theorem matWriteLine_global (j : Nat) (l : Nat) (s : State) :
    (matWriteLine j l s).hbm = s.hbm ∧ (matWriteLine j l s).host = s.host := by
  unfold matWriteLine
  (repeat' split) <;> simp

@[simp] theorem loadInto_global (lat : Nat) (mk : Nat → Put) (b : BitVec 2) (ea : Nat) (n : Nat) (s : State) :
    (loadInto lat mk b ea n s).hbm = s.hbm ∧ (loadInto lat mk b ea n s).host = s.host := by
  exact ⟨rfl, rfl⟩

@[simp] theorem storeBytes_global (b : BitVec 2) (ea : Nat) (x : Nat) (n : Nat) (s : State) :
    (storeBytes b ea x n s).hbm = s.hbm ∧ (storeBytes b ea x n s).host = s.host := by
  exact ⟨rfl, rfl⟩

@[simp] theorem badTarget_global (b : Addr) (s : State) :
    (badTarget b s).hbm = s.hbm ∧ (badTarget b s).host = s.host := by
  exact ⟨rfl, rfl⟩

@[simp] theorem performWrites_global (s : State) :
    (performWrites s).hbm = s.hbm ∧ (performWrites s).host = s.host := by
  refine foldl_global (fun s w => ?_) ..
  unfold performWrite
  (repeat' split) <;> simp [dropWrite]

@[simp] theorem netTick_global (s : State) :
    (netTick s).hbm = s.hbm ∧ (netTick s).host = s.host := performWrites_global s

@[simp] theorem nsTick_global (i : Nat) (s : State) :
    (nsTick i s).hbm = s.hbm ∧ (nsTick i s).host = s.host := by
  simp [nsTick]

@[simp] theorem podTurn_global (reg p w mask : Nat) (s : State) :
    (podTurn reg p w mask s).hbm = s.hbm ∧ (podTurn reg p w mask s).host = s.host := by
  simp [podTurn]

@[simp] theorem spoilLine_global (l : Nat) (s : State) :
    (spoilLine l s).hbm = s.hbm ∧ (spoilLine l s).host = s.host := by
  simp [spoilLine]

@[simp] theorem placeBundle_global (w : Word) (s : State) :
    (placeBundle w s).hbm = s.hbm ∧ (placeBundle w s).host = s.host := by
  exact ⟨rfl, rfl⟩

@[simp] theorem placeElement_global (w : Word) (s : State) :
    (placeElement w s).hbm = s.hbm ∧ (placeElement w s).host = s.host := by
  exact ⟨rfl, rfl⟩

@[simp] theorem State_withFetchWord_global (s : State) (nbits : Nat) (w : Nat) :
    (State.withFetchWord s nbits w).hbm = s.hbm ∧ (State.withFetchWord s nbits w).host = s.host := by
  unfold State.withFetchWord
  dsimp only
  split <;> simp

theorem onCore_global (s : State) (f : Core → Core) : (s.onCore f).hbm = s.hbm ∧ (s.onCore f).host = s.host := ⟨rfl, rfl⟩
theorem onQueue_global (s : State) (i : Nat) (f : EventQueue → EventQueue) : (s.onQueue i f).hbm = s.hbm ∧ (s.onQueue i f).host = s.host := ⟨rfl, rfl⟩
theorem focus_global (s : State) (n : Nat) : (s.focus n).hbm = s.hbm ∧ (s.focus n).host = s.host := by simp

/-! The canonical form. -/

/-- It is a matter of the two memories alone. -/
theorem wf_congr {s t : State} (h : GlobalWf s) (e : t.hbm = s.hbm ∧ t.host = s.host) : GlobalWf t := by
  rw [GlobalWf, e.1, e.2]; exact h

theorem foldl_wf {α : Type} {f : State → α → State} (hf : ∀ s x, GlobalWf s → GlobalWf (f s x)) (l : List α) {s : State} (h : GlobalWf s) :
    GlobalWf (l.foldl f s) := by
  induction l generalizing s with
  | nil => exact h
  | cons x t ih => exact ih (hf s x h)

theorem foldlM_wf {α : Type} {f : State → α → Except Cause State} (hf : ∀ s x t, GlobalWf s → f s x = .ok t → GlobalWf t) (l : List α)
    {s t : State} (h : GlobalWf s) (e : l.foldlM f s = .ok t) : GlobalWf t := by
  induction l generalizing s with
  | nil =>
    have : s = t := by simpa [pure, Except.pure] using e
    exact this ▸ h
  | cons x l ih =>
    simp only [List.foldlM_cons, bind, Except.bind] at e
    split at e
    · simp at e
    · exact ih (hf _ _ _ h ‹_›) e

theorem guarded_wf {cs : List Check} {eff : State → State} {s : State} (h : GlobalWf s) (he : GlobalWf (eff s)) : GlobalWf (guarded cs eff s) := by
  rcases guarded_cases cs eff s with e | ⟨c, -, -, -, e⟩ <;> rw [e]
  · exact he
  · exact wf_congr h (by simp)

theorem waitFor_wf {b : Bool} {w : Nat} {eff : State → State} {s : State} (h : GlobalWf s) (he : GlobalWf (eff s)) :
    GlobalWf (waitFor b w eff s) := by
  rcases waitFor_cases b w eff s with e | ⟨-, -, e⟩ <;> rw [e]
  · exact he
  · exact wf_congr h (by simp)

theorem waitRoom_wf {b : Bool} {eff : State → State} {s : State} (h : GlobalWf s) (he : GlobalWf (eff s)) : GlobalWf (waitRoom b eff s) := by
  cases b
  · exact he
  · exact wf_congr h (by simp)

theorem ending_wf {cs : List Check} {eff : State → State} {s : State} (h : GlobalWf s) (he : GlobalWf (eff s)) : GlobalWf (ending cs eff s) := by
  unfold ending
  refine guarded_wf h ?_
  split
  · exact he
  · exact h

theorem agentWrite_wf {s t : State} {r va n mask x : Nat} (h : GlobalWf s) (e : agentWrite s r va n mask x = .ok t) : GlobalWf t := by
  simp only [agentWrite, bind, Except.bind] at e
  split at e
  · simp at e
  · split at e <;> (injection e with e; subst e)
    · exact ⟨h.1, wrMask_wf h.2 ..⟩
    · exact ⟨wrMask_wf h.1 .., h.2⟩

theorem agentUpdate_wf {s t : State} {r va n o : Nat} {f : Nat → Except Cause Nat} (h : GlobalWf s) (e : agentUpdate s r va n f = .ok (t, o)) :
    GlobalWf t := by
  simp only [agentUpdate, bind, Except.bind] at e
  (repeat' split at e) <;> try (simp at e; done)
  injection e with e
  injection e with e
  subst e
  exact ⟨wrN_wf h.1 .., h.2⟩

theorem wbLine_wf {s : State} (h : GlobalWf s) (l : Nat) : GlobalWf (wbLine l s) := by
  unfold wbLine
  split
  · exact h
  · split
    · exact h
    · dsimp only
      have h := wf_congr h (cacheLeaf_global s (regionOf s) (64 * l))
      refine wf_congr ?_ (onCore_global ..)
      split
      · exact agentWrite_wf h ‹_›
      · exact h

theorem wbAll_wf {s : State} (h : GlobalWf s) : GlobalWf (wbAll s) := foldl_wf (fun _ _ h => wbLine_wf h _) _ h
theorem waferRelease_wf {s : State} (h : GlobalWf s) : GlobalWf (waferRelease s) := wf_congr (wbAll_wf h) (onCore_global ..)
theorem evictLine_wf {s : State} (h : GlobalWf s) (l : Nat) : GlobalWf (evictLine l s) := wf_congr (wbLine_wf h l) (onCore_global ..)
theorem flushLine_wf {s : State} (h : GlobalWf s) (l : Nat) : GlobalWf (flushLine l s) := wf_congr (wbLine_wf h l) (onCore_global ..)

theorem logLine_wf {s : State} (h : GlobalWf s) (l : Nat) : GlobalWf (logLine l s) := by
  unfold logLine
  split
  · exact wf_congr h (onCore_global ..)
  split
  · exact h
  · have h2 : GlobalWf (if 256 ≤ s.core.darn.length then
        ((darnSort s.core.darn).take 128).foldl (fun s d => (wbLine d.line s).onCore fun c =>
          { c with darn := c.darn.filter fun e => e.line != d.line }) s else s) := by
      split
      · exact foldl_wf (fun _ _ h => wf_congr (wbLine_wf h _) (onCore_global ..)) _ h
      · exact h
    have h3 (u : State) (hu : GlobalWf u) :
        GlobalWf (if u.core.dirtyAt l then u.onCore fun c => { c with darn := c.darn ++ [⟨c.rseq, l⟩] } else u) := by
      split
      · exact wf_congr hu (onCore_global ..)
      · exact hu
    exact h3 _ h2

theorem makeWay_wf {s : State} (h : GlobalWf s) (l : Nat) : GlobalWf (makeWay l s) := by
  unfold makeWay
  dsimp only
  split
  · exact h
  · exact wf_congr (evictLine_wf h _) ⟨rfl, rfl⟩

theorem spoilLineWord_wf {s : State} (h : GlobalWf s) (l w : Nat) : GlobalWf (spoilLineWord l w s) := by
  unfold spoilLineWord
  split
  · exact h
  · split
    · exact wf_congr h (onCore_global ..)
    · exact wf_congr (wbLine_wf h l) (by simp)

theorem coreRelease_wf {s : State} (h : GlobalWf s) : GlobalWf (coreRelease s) :=
  foldl_wf (fun _ _ h => logLine_wf h _) _ (wf_congr h (onCore_global ..))

theorem promote_wf {s : State} (h : GlobalWf s) (v : W64) : GlobalWf (promote v s) :=
  foldl_wf (fun _ _ h => wf_congr (wbLine_wf h _) (onCore_global ..)) _ h

theorem salvage_wf {s : State} (h : GlobalWf s) : GlobalWf (salvage s) :=
  wf_congr (foldl_wf (fun s l h => wbLine_wf (s := s) h l) _ h) ⟨rfl, rfl⟩

theorem gWrite_wf {s : State} (h : GlobalWf s) (ea n x : Nat) (dirty : Bool) : GlobalWf (gWrite ea n x dirty s) := by
  refine foldl_wf (fun s p h => ?_) _ h
  split
  · exact h
  · exact wf_congr (makeWay_wf h _) (onCore_global ..)

/-- Serving a put-off access writes back at most what its lines and its release push out. -/
theorem serve_wf {s : State} (h : GlobalWf s) (j : Nat) (o : Op) : GlobalWf (serve j o s) := by
  unfold serve
  dsimp only
  split
  · exact wf_congr h (onCore_global ..)
  · exact wf_congr h (onCore_global ..)
  · split <;> exact wf_congr (gWrite_wf h ..) (onCore_global ..)
  · exact wf_congr (gWrite_wf h ..) (onCore_global ..)
  · refine wf_congr (gWrite_wf ?_ ..) (onCore_global ..)
    split
    · exact coreRelease_wf h
    · exact h
  · exact wf_congr (coreRelease_wf h) (onCore_global ..)
  · exact h

theorem serveTurn_wf {s : State} (h : GlobalWf s) (j : Nat) : GlobalWf (serveTurn j s) := by
  unfold serveTurn
  split
  · split
    · exact serve_wf h ..
    · exact h
  · exact h

theorem issueAccess_wf {s : State} (h : GlobalWf s) (o : Op) : GlobalWf (issueAccess o s) := serveTurn_wf (wf_congr h (by simp)) _

theorem issueLoad_wf {s : State} (h : GlobalWf s) (kind : Nat → Bool → OpKind) (z : Nat) (dest : Dest) (x : W64) (cls scope : Nat) (tc : BitVec 4) :
    GlobalWf (issueLoad kind z dest x cls scope tc s) := by
  unfold issueLoad
  dsimp only
  split
  · exact wf_congr h (by simp)
  · exact issueAccess_wf h _

theorem storeCore_wf {s : State} (h : GlobalWf s) (ea n x cls scope : Nat) (tc : BitVec 4) : GlobalWf (storeCore ea n x cls scope tc s) :=
  issueAccess_wf h _

theorem storeAgent_wf {s : State} (h : GlobalWf s) (kind : Nat → OpKind) (ea n x cls scope : Nat) (tc : BitVec 4) :
    GlobalWf (storeAgent kind ea n x cls scope tc s) := issueAccess_wf h _

theorem storeAny_wf {s : State} (h : GlobalWf s) (ea n x cls scope : Nat) (tc : BitVec 4) : GlobalWf (storeAny ea n x cls scope tc s) := by
  unfold storeAny
  split
  · exact storeAgent_wf h ..
  · exact storeCore_wf h ..

theorem issueQ_wf {s : State} (h : GlobalWf s) (st : Bool) (d a : Reg) (t : BitVec 4) (f : BitVec 6) : GlobalWf (issueQ st d a t f s) := by
  unfold issueQ
  refine guarded_wf h (waitRoom_wf h (waitFor_wf h ?_))
  dsimp only
  split
  · exact issueAccess_wf h _
  · exact wf_congr h (by simp)

@[simp] theorem landOp_global (j : Nat) (o : Op) (s : State) : (landOp j o s).hbm = s.hbm ∧ (landOp j o s).host = s.host := onCore_global ..

theorem fenceEffect_wf {s : State} (h : GlobalWf s) (k : Nat) : GlobalWf (fenceEffect k s) := by
  unfold fenceEffect
  split
  · exact wf_congr (waferRelease_wf h) (onCore_global ..)
  · exact h

theorem releaseBefore_wf {s : State} (h : GlobalWf s) (o : Op) : GlobalWf (releaseBefore o s) := by
  unfold releaseBefore
  split
  · exact waferRelease_wf h
  · exact h

theorem performLoad_wf {s : State} (h : GlobalWf s) (o : Op) (i n : Nat) : GlobalWf (performLoad o i n s).2 := by
  unfold performLoad
  dsimp only
  split <;> exact wf_congr h (by simp)

theorem performHostLoad_wf {s : State} (h : GlobalWf s) (o : Op) (i n : Nat) : GlobalWf (performHostLoad o i n s).2 := by
  unfold performHostLoad
  dsimp only
  split <;> exact wf_congr h (by simp)

theorem performStore_wf {s : State} (h : GlobalWf s) (o : Op) (i n : Nat) : GlobalWf (performStore o i n s).2 := by
  unfold performStore
  have h := wf_congr h (cacheLeaf_global s (regionOf s) (o.va.toNat + 64 * i))
  dsimp only
  split
  · exact wf_congr h (onCore_global ..)
  · exact wf_congr (agentWrite_wf h ‹_›) (onCore_global ..)

theorem performClaim_wf {s : State} (h : GlobalWf s) (o : Op) (l : Nat) : GlobalWf (performClaim o l s).2 := by
  unfold performClaim
  dsimp only
  split <;> exact wf_congr h (by simp)

theorem performMred_wf {s : State} (h : GlobalWf s) (o : Op) (z : Nat) (lanes : List Nat) (i : Nat) : GlobalWf (performMred o z lanes i s).2 := by
  unfold performMred
  dsimp only
  split
  · exact h
  · have h (r va : Nat) := wf_congr (flushLine_wf h ((o.va.toNat + 64 * i) / 64)) (cacheLeaf_global _ r va)
    split
    · exact h ..
    · exact agentUpdate_wf (h ..) ‹_›

theorem performPart_wf {s : State} (h : GlobalWf s) (o : Op) (i : Nat) : GlobalWf (performPart o i s).2 := by
  unfold performPart
  have hf (l r va : Nat) := wf_congr (flushLine_wf (releaseBefore_wf h o) l) (cacheLeaf_global _ r va)
  dsimp only
  split
  · split
    · exact performHostLoad_wf h ..
    · exact performLoad_wf h ..
  · split
    · exact performHostLoad_wf h ..
    · exact performLoad_wf h ..
  · exact performStore_wf h ..
  · exact performStore_wf (releaseBefore_wf h _) ..
  · split
    · exact performStore_wf h ..
    · exact performClaim_wf h ..
  · split
    · exact hf ..
    · exact agentUpdate_wf (hf ..) ‹_›
  · exact performMred_wf (releaseBefore_wf h _) ..
  · split
    · exact hf ..
    · exact agentUpdate_wf (hf ..) ‹_›
  · split
    · exact wbLine_wf h _
    · exact wbAll_wf h
  · split
    · exact flushLine_wf h _
    · exact wf_congr (wbAll_wf h) (onCore_global ..)
  · exact h

/-! Engine commands. -/

theorem engBegin_wf {s : State} (h : GlobalWf s) (j : Nat) (o : Op) (e : Engine) : GlobalWf (engBegin j o e s) :=
  foldl_wf (fun _ _ h => wbLine_wf h _) _ (wf_congr h (onCore_global ..))

theorem engReadList_wf {s : State} (h : GlobalWf s) (j : Nat) (o : Op) (e : Engine) (l : Nat) : GlobalWf (engReadList j o e l s) := by
  have hk (o : Op) : GlobalWf (if e.listed o then engBegin j o e s else s.onCore fun c => c.setOp j o) := by
    split
    · exact engBegin_wf h ..
    · exact wf_congr h (onCore_global ..)
  exact hk _

theorem engReadLine_wf {s : State} (h : GlobalWf s) (o : Op) (e : Engine) (l : Nat) : GlobalWf (engReadLine o e l s).2 := by
  unfold engReadLine
  split <;> exact wf_congr h (by simp)

theorem engWriteLine_wf {s : State} (h : GlobalWf s) (o : Op) (e : Engine) (l : Nat) : GlobalWf (engWriteLine o e l s).2 := by
  unfold engWriteLine
  have h2 := wf_congr h (cacheLeaf_global s (regionOf s) (64 * l))
  dsimp only
  (repeat' split) <;> first
    | exact h
    | exact agentWrite_wf h2 ‹_›
    | exact h2

theorem enginePart_wf {s : State} (h : GlobalWf s) (j i : Nat) : GlobalWf (enginePart j i s) := by
  unfold enginePart
  dsimp only
  split
  · split
    · split
      · exact h
      split
      · split
        · exact engReadList_wf h ..
        · exact h
      split
      · exact h
      split
      · split
        · exact h
        · refine wf_congr ?_ (onCore_global ..)
          split
          · exact engWriteLine_wf h ..
          · exact engReadLine_wf h ..
      · split
        · exact h
        · exact wf_congr h (by simp [engWriteTile])
    · exact h
  · exact h

/-! Reductions. -/

theorem redUpd_wf {s : State} (h : GlobalWf s) (reg code : Nat) (e : RedEntry) (k : Nat) (f : M320 → M320) : GlobalWf (redUpd s reg code e k f) := by
  unfold redUpd
  split
  · have h := wf_congr h (cacheLeaf_global s reg (spillAddr s reg code e k))
    dsimp only
    split
    · exact agentUpdate_wf h ‹_›
    · exact h
  · exact wf_congr h (by simp)

theorem redClear_wf {s : State} (h : GlobalWf s) (reg code : Nat) (e : RedEntry) (k : Nat) : GlobalWf (redClear s reg code e k) := by
  unfold redClear
  split
  · have h2 := wf_congr h (cacheLeaf_global s reg (spillAddr s reg code e k))
    dsimp only
    split
    · exact agentWrite_wf h2 ‹_›
    · exact h2
  · exact wf_congr h (by simp)

@[simp] theorem redSet_global (s : State) (code i : Nat) (e : RedEntry) : (redSet s code i e).hbm = s.hbm ∧ (redSet s code i e).host = s.host := by
  simp [redSet]

theorem redMerge_wf {s : State} (h : GlobalWf s) (reg code i k : Nat) (ch : CxpChunk) : GlobalWf (redMerge s reg code i k ch) := by
  unfold redMerge
  split
  · exact h
  · dsimp only
    split <;> exact wf_congr (foldl_wf (fun _ _ h => redUpd_wf h ..) _ h) (redSet_global ..)

theorem redAlloc_wf {s t : State} {e : RedEntry} {reg code : Nat} {n : Name} (h : GlobalWf s) (he : redAlloc s reg code n = some (t, e)) :
    GlobalWf t := by
  simp only [redAlloc] at he
  split at he
  · simp at he
  · simp only [Option.map_eq_some_iff, Prod.mk.injEq] at he
    obtain ⟨a, -, rfl, -⟩ := he
    exact foldl_wf (fun _ _ h => redClear_wf h ..) _ (wf_congr h (by simp))

theorem contributeAtHome_wf {s : State} (h : GlobalWf s) (j : Nat) (t : Token) (n : Name) (k : Nat) (ch : CxpChunk) :
    GlobalWf (contributeAtHome s j t n k ch) := by
  unfold contributeAtHome
  split
  · exact wf_congr (redMerge_wf h ..) ⟨rfl, rfl⟩
  · split
    · exact wf_congr (redMerge_wf (redAlloc_wf h ‹_›) ..) ⟨rfl, rfl⟩
    · exact wf_congr h (by simp)

theorem openAtHome_wf {s : State} (h : GlobalWf s) (j : Nat) (t : Token) (n res : Name) (count : W64) (fmt : Nat) :
    GlobalWf (openAtHome s j t n res count fmt) := by
  unfold openAtHome
  dsimp only
  split
  · exact wf_congr h (by simp)
  · split
    · exact wf_congr h (by simp)
    · split
      · exact wf_congr (redAlloc_wf h ‹_›) (by simp)
      · exact wf_congr h (by simp)

/-! Regions, images, loading. -/

theorem storeCompletion_wf {s : State} (h : GlobalWf s) (reg : Nat) (va w : W64) : GlobalWf (storeCompletion reg va w s) := by
  unfold storeCompletion
  split
  · exact h
  · have h2 := wf_congr h (cacheLeaf_global s reg va.toNat)
    dsimp only
    split
    · exact agentWrite_wf h2 ‹_›
    · exact h2

theorem endRecord_wf {s : State} (h : GlobalWf s) (reg status detail : Nat) : GlobalWf (endRecord reg status detail s) := by
  unfold endRecord
  exact wf_congr (storeCompletion_wf (wf_congr h (flushRegion_global s reg)) reg ((flushRegion s reg).region reg).compl
    (completionWord ((flushRegion s reg).region reg).ltag status detail)) (by simp)

theorem endRegion_wf {s : State} (h : GlobalWf s) (reg status : Nat) : GlobalWf (endRegion reg status s) :=
  endRecord_wf (wf_congr h (by simp)) ..

theorem writeLine_wf {reg ia : Nat} {m : Memory} {x : State × Nat × Option Cause} (h : GlobalWf x.1) (i : Nat) :
    GlobalWf (writeLine reg ia m x i).1 := by
  unfold writeLine
  have h2 := wf_congr h (cacheLeaf_global x.1 reg (ia + 64 * i))
  dsimp only
  (repeat' split) <;> first
    | exact h
    | exact agentWrite_wf h2 ‹_›
    | exact h2

theorem writeImage_wf {s : State} (h : GlobalWf s) (reg ia : Nat) (m : Memory) : GlobalWf (writeImage reg ia m s).1 := by
  have key (l : List Nat) (x : State × Nat × Option Cause) (hx : GlobalWf x.1) : GlobalWf (l.foldl (writeLine reg ia m) x).1 := by
    induction l generalizing x with
    | nil => exact hx
    | cons i l ih => exact ih _ (writeLine_wf hx i)
  exact key _ _ h

theorem saveAt_wf {s : State} (h : GlobalWf s) (reg ia : Nat) (k : Core) : GlobalWf (saveAt reg ia k s).1 := by
  have hw := writeImage_wf h reg ia k.image
  unfold saveAt
  split
  · exact wf_congr h (onCore_global ..)
  · generalize writeImage reg ia k.image s = x at hw
    obtain ⟨u, n, c⟩ := x
    cases c with
    | some c => exact wf_congr hw (onCore_global ..)
    | none => exact waferRelease_wf (wf_congr (s := u) hw ⟨rfl, rfl⟩)

theorem moveTask_wf {s t : State} {reg task dst : Nat} {slot : BitVec 4} {e : DirEntry} (h : GlobalWf s)
    (he : moveTask s reg task dst slot e = some t) : GlobalWf t := by
  unfold moveTask at he
  dsimp only at he
  split at he
  · simp at he
  · injection he with he
    subst he
    refine wf_congr (waferRelease_wf (wf_congr h (focus_global s e.core))) ?_
    simp only [retarget_global, moveBarriers_global, installSubs_global, removeSubs_global, onRegion_hbm, onRegion_host, setCoreAt_hbm, setCoreAt_host,
      redirectCopies_global, noteLeft_global, focus_hbm, focus_host, and_self]

theorem writeRange_wf {s : State} (h : GlobalWf s) (q va : Nat) (src : Memory) (n : Nat) : GlobalWf (writeRange q va src n s) := by
  refine foldl_wf (fun s i h => ?_) _ h
  dsimp only
  have h2 (a : Nat) := wf_congr h (cacheLeaf_global s q a)
  split
  · exact agentWrite_wf (h2 _) ‹_›
  · exact h2 _

theorem loadRegion_wf {s : State} (h : GlobalWf s) (q : Nat) (w : BitVec 512) (p : Plan) : GlobalWf (loadRegion q w p s) := by
  unfold loadRegion
  dsimp only
  refine wf_congr ?_ (onQueue_global ..)
  refine foldl_wf (fun _ _ h => wf_congr h (by simp)) _ ?_
  refine foldl_wf (fun _ _ h => wf_congr h (by split <;> simp)) _ ?_
  refine foldl_wf (fun _ _ h => wf_congr h (by simp)) _ ?_
  refine foldl_wf (fun _ _ h => wf_congr h (by simp)) _ ?_
  refine foldl_wf (fun _ _ h => writeRange_wf h ..) _ ?_
  exact writeRange_wf (wf_congr h (by simp)) ..

@[simp] theorem startRegion_global (q : Nat) (s : State) : (startRegion q s).hbm = s.hbm ∧ (startRegion q s).host = s.host := by
  unfold startRegion
  dsimp only
  rw [onRegion_hbm, onRegion_host]
  exact foldl_global (fun _ _ => by simp) ..

@[simp] theorem restart_global (s : State) : (restart s).hbm = s.hbm ∧ (restart s).host = s.host := ⟨rfl, rfl⟩

theorem setHemWord_wf {s : State} (h : GlobalWf s) (die item w v : Nat) : GlobalWf (setHemWord die item w v s) := by
  unfold setHemWord
  dsimp only
  (repeat' split) <;> first
    | exact h
    | exact ⟨wrN_wf h.1 .., h.2⟩

theorem itemSetWord_wf {s : State} (h : GlobalWf s) (w v : Nat) (i : Item) : GlobalWf (i.setWord w v s) := by
  unfold Item.setWord
  split
  · exact wf_congr h (by simp)
  · exact wf_congr h (setRouterWord_global ..)
  · exact wf_congr h (setControllerWord_global ..)
  · exact setHemWord_wf h ..
  · exact wf_congr h (setEdgeWord_global ..)

/-! Deliveries, reservations, lost cores, moved regions. -/

@[simp] theorem refuseAtEdge_global (s : State) (reg p : Nat) (n : Name) (cls : Nat) :
    (refuseAtEdge s reg p n cls).hbm = s.hbm ∧ (refuseAtEdge s reg p n cls).host = s.host := borderRefused_global ..

@[simp] theorem offerStale_global (t : Token) (n : Nat) (c d : Core) (s : State) :
    (offerStale t n c d s).hbm = s.hbm ∧ (offerStale t n c d s).host = s.host := foldl_global (fun _ _ => offer_global ..) ..

@[simp] theorem cancelResv_global (core ser : Nat) (s : State) :
    (cancelResv core ser s).hbm = s.hbm ∧ (cancelResv core ser s).host = s.host := ⟨rfl, rfl⟩

@[simp] theorem commitResv_global (core ser : Nat) (s : State) :
    (commitResv core ser s).hbm = s.hbm ∧ (commitResv core ser s).host = s.host := ⟨rfl, rfl⟩

@[simp] theorem reserve_global (j : Nat) (o : Op) (ra : Nat) (s : State) :
    (reserve j o ra s).hbm = s.hbm ∧ (reserve j o ra s).host = s.host := by
  unfold reserve
  dsimp only
  (repeat' split) <;> simp

@[simp] theorem finishLaunchr_global (j : Nat) (o : Op) (ra : W64) (s : State) :
    (finishLaunchr j o ra s).hbm = s.hbm ∧ (finishLaunchr j o ra s).host = s.host := by
  unfold finishLaunchr
  dsimp only
  (repeat' split) <;> simp

theorem failCore_wf {s : State} (h : GlobalWf s) (logOk cacheOk pf : Bool) : GlobalWf (failCore logOk cacheOk pf s) := by
  unfold failCore
  dsimp only
  split
  · exact wf_congr h (onCore_global ..)
  · refine foldl_wf (fun s x h => foldl_wf (fun s x h => wf_congr h (post_global ..)) _ h) _ ?_
    refine wf_congr (s := List.foldl (fun s (o : Op) => cancelResv s.cur o.ser s) _ _) ?_ ⟨rfl, rfl⟩
    refine foldl_wf (fun s x h => wf_congr h (cancelResv_global ..)) _ ?_
    refine wf_congr (s := List.foldl (poisonLine _) _ _) ?_ ⟨rfl, rfl⟩
    refine foldl_wf (fun s x h => wf_congr h (poisonLine_global ..)) _ ?_
    split
    · exact salvage_wf (wf_congr h (setTasks_global ..))
    · exact wf_congr h (setTasks_global ..)

@[simp] theorem unlistAll_global (p : Nat) (s : State) : (unlistAll p s).hbm = s.hbm ∧ (unlistAll p s).host = s.host := by
  unfold unlistAll
  dsimp only
  split
  · exact foldl_global (fun _ _ => by simp) ..
  · simp

theorem listPoint_global (reg p : Nat) (n : Name) (s : State) :
    (listPoint reg p n s).1.hbm = s.hbm ∧ (listPoint reg p n s).1.host = s.host := by
  unfold listPoint
  dsimp only
  split <;> simp

@[simp] theorem unlistBlocks_global (reg : Nat) (s : State) :
    (unlistBlocks reg s).hbm = s.hbm ∧ (unlistBlocks reg s).host = s.host :=
  foldl_global (fun _ _ => by split <;> simp) ..

theorem relistFold_global (reg p : Nat) (l : List Armed) (x : State × List Armed) :
    let r := l.foldl (fun (x : State × List Armed) a =>
      if a.listed then let y := listPoint reg p a.name x.1; (y.1, x.2 ++ [{ a with listed := y.2 }]) else (x.1, x.2 ++ [a])) x
    r.1.hbm = x.1.hbm ∧ r.1.host = x.1.host := by
  induction l generalizing x with
  | nil => simp
  | cons a l ih =>
    simp only [List.foldl_cons]
    rw [(ih _).1, (ih _).2]
    split
    · exact listPoint_global ..
    · simp

@[simp] theorem relistBlocks_global (reg : Nat) (s : State) :
    (relistBlocks reg s).hbm = s.hbm ∧ (relistBlocks reg s).host = s.host := by
  refine foldl_global (fun s p => ?_) ..
  split
  · exact relistFold_global reg p.1 p.2.armed (s, [])
  · simp

@[simp] theorem moveRegion_global (reg orgc orgr : Nat) (s : State) :
    (moveRegion reg orgc orgr s).hbm = s.hbm ∧ (moveRegion reg orgc orgr s).host = s.host := by
  unfold moveRegion
  dsimp only
  refine foldl_global_of (fun s x => post_global ..) ?_
  simp only [relistBlocks_global, setRegion_hbm, setRegion_host, retarget_global]
  refine foldl_global_of (fun _ _ => by simp only [setRouter_hbm, setRouter_host, setCoreAt_hbm, setCoreAt_host, and_self]) ?_
  exact foldl_global_of (fun _ _ => by simp only [onRouter_hbm, onRouter_host, setCoreAt_hbm, setCoreAt_host, and_self]) (by simp)

@[simp] theorem recountUnits_global (reg : Nat) (s : State) :
    (recountUnits reg s).hbm = s.hbm ∧ (recountUnits reg s).host = s.host :=
  foldl_global (fun _ _ => foldl_global (fun _ _ => by simp) ..) ..

theorem foldlM_global {α : Type} {f : State → α → Option State} (hf : ∀ s x t, f s x = some t → t.hbm = s.hbm ∧ t.host = s.host) (l : List α)
    {s t : State} (e : l.foldlM f s = some t) : t.hbm = s.hbm ∧ t.host = s.host := by
  induction l generalizing s with
  | nil => cases e; exact ⟨rfl, rfl⟩
  | cons x l ih =>
    simp only [List.foldlM_cons, Option.bind_eq_bind, Option.bind_eq_some_iff] at e
    obtain ⟨u, hu, e⟩ := e
    rw [(ih e).1, (ih e).2]
    exact hf _ _ _ hu

theorem resumeRegion_global {q : Nat} {s z : State} (h : resumeRegion q s = some z) : z.hbm = s.hbm ∧ z.host = s.host := by
  unfold resumeRegion at h
  dsimp only at h
  simp only [Option.map_eq_some_iff] at h
  obtain ⟨u, hu, rfl⟩ := h
  have h := foldlM_global (fun _ _ _ h => resumeCore_global h) _ hu
  simpa using h

/-! Cycles. -/

@[simp] theorem offerWait_global (s x : State) : (offerWait s x).hbm = x.hbm ∧ (offerWait s x).host = x.host := by
  unfold offerWait
  split <;> simp

@[simp] theorem noteSaved_global (s : State) : (noteSaved s).hbm = s.hbm ∧ (noteSaved s).host = s.host := by
  unfold noteSaved
  (repeat' split) <;> exact ⟨rfl, rfl⟩

@[simp] theorem closeLoaded_global (k : Core) (s : State) : (closeLoaded k s).hbm = s.hbm ∧ (closeLoaded k s).host = s.host := ⟨rfl, rfl⟩

theorem conclude_wf {s0 t : State} (h0 : GlobalWf s0) (h : GlobalWf t) : GlobalWf (conclude s0 t) := by
  unfold conclude
  dsimp only
  split
  · exact wf_congr h ⟨rfl, rfl⟩
  · exact wf_congr h0 ⟨rfl, rfl⟩
  · exact wf_congr h (by simp)
  · exact wf_congr h (by split <;> simp)

end Sys2Proof.Laws
end

