-- ==== Sys2Proof/Laws/PerInstr.lean ====
section
/-! SUPPORT. Encode and decode agree, instruction by instruction. -/

namespace Sys2Proof.Laws.RoundTrip

set_option Elab.async false

/-- The word of a well-formed instruction decodes to it. -/
def Statement (i : Instr) : Prop := ∀ w, encode i = some w → i.wf = true → decoderOf i w = some i

/-- An instruction with a word has the law if its word decodes to it. -/
theorem of_word {i : Instr} {w : Word} (h : encode i = some w) (hd : i.wf = true → decoderOf i w = some i) : Statement i := by
  intro w' h' hw
  rw [h] at h'
  cases h'
  exact hd hw

/-- An event has no word. -/
theorem of_none {i : Instr} (h : encode i = none) : Statement i := by
  intro w hw
  rw [h] at hw
  cases hw

theorem nop (w) (stl) : Statement (.nop w stl) :=
  of_word rfl fun h => by simp_all [Instr.wf, decoderOf, decodeHeaderOnly, keep]
theorem waitPoint (w) : Statement (.waitPoint w) :=
  of_word rfl fun h => by simp_all [decoderOf, decodeHeaderOnly, keep]
theorem add (d) (a) (b) : Statement (.add d a b) :=
  of_word rfl fun h => by simp_all [decoderOf, decodeSlot, decodeG0, keep]
theorem sub (d) (a) (b) : Statement (.sub d a b) :=
  of_word rfl fun h => by simp_all [decoderOf, decodeSlot, decodeG0, keep]
theorem mul (d) (a) (b) : Statement (.mul d a b) :=
  of_word rfl fun h => by simp_all [decoderOf, decodeSlot, decodeG0, keep]
theorem mulh (d) (a) (b) : Statement (.mulh d a b) :=
  of_word rfl fun h => by simp_all [decoderOf, decodeSlot, decodeG0, keep]
theorem mulhu (d) (a) (b) : Statement (.mulhu d a b) :=
  of_word rfl fun h => by simp_all [decoderOf, decodeSlot, decodeG0, keep]
theorem div (d) (a) (b) : Statement (.div d a b) :=
  of_word rfl fun h => by simp_all [decoderOf, decodeSlot, decodeG0, keep]
theorem divu (d) (a) (b) : Statement (.divu d a b) :=
  of_word rfl fun h => by simp_all [decoderOf, decodeSlot, decodeG0, keep]
theorem rem (d) (a) (b) : Statement (.rem d a b) :=
  of_word rfl fun h => by simp_all [decoderOf, decodeSlot, decodeG0, keep]
theorem remu (d) (a) (b) : Statement (.remu d a b) :=
  of_word rfl fun h => by simp_all [decoderOf, decodeSlot, decodeG0, keep]
theorem and (d) (a) (b) : Statement (.and d a b) :=
  of_word rfl fun h => by simp_all [decoderOf, decodeSlot, decodeG0, keep]
theorem or (d) (a) (b) : Statement (.or d a b) :=
  of_word rfl fun h => by simp_all [decoderOf, decodeSlot, decodeG0, keep]
theorem xor (d) (a) (b) : Statement (.xor d a b) :=
  of_word rfl fun h => by simp_all [decoderOf, decodeSlot, decodeG0, keep]
theorem andn (d) (a) (b) : Statement (.andn d a b) :=
  of_word rfl fun h => by simp_all [decoderOf, decodeSlot, decodeG0, keep]
theorem shl (d) (a) (b) : Statement (.shl d a b) :=
  of_word rfl fun h => by simp_all [decoderOf, decodeSlot, decodeG0, keep]
theorem shr (d) (a) (b) : Statement (.shr d a b) :=
  of_word rfl fun h => by simp_all [decoderOf, decodeSlot, decodeG0, keep]
theorem sra (d) (a) (b) : Statement (.sra d a b) :=
  of_word rfl fun h => by simp_all [decoderOf, decodeSlot, decodeG0, keep]
theorem rol (d) (a) (b) : Statement (.rol d a b) :=
  of_word rfl fun h => by simp_all [decoderOf, decodeSlot, decodeG0, keep]
theorem min (d) (a) (b) : Statement (.min d a b) :=
  of_word rfl fun h => by simp_all [decoderOf, decodeSlot, decodeG0, keep]
theorem max (d) (a) (b) : Statement (.max d a b) :=
  of_word rfl fun h => by simp_all [decoderOf, decodeSlot, decodeG0, keep]
theorem minu (d) (a) (b) : Statement (.minu d a b) :=
  of_word rfl fun h => by simp_all [decoderOf, decodeSlot, decodeG0, keep]
theorem maxu (d) (a) (b) : Statement (.maxu d a b) :=
  of_word rfl fun h => by simp_all [decoderOf, decodeSlot, decodeG0, keep]
theorem cmp (d) (a) (b) (m) : Statement (.cmp d a b m) :=
  of_word rfl fun h => by simp_all [decoderOf, decodeSlot, decodeG0, keep]
theorem sel (d) (a) (b) : Statement (.sel d a b) :=
  of_word rfl fun h => by simp_all [decoderOf, decodeSlot, decodeG0, keep]
theorem clz (d) (a) : Statement (.clz d a) :=
  of_word rfl fun h => by simp_all [decoderOf, decodeSlot, decodeG0, keep]
theorem ctz (d) (a) : Statement (.ctz d a) :=
  of_word rfl fun h => by simp_all [decoderOf, decodeSlot, decodeG0, keep]
theorem popc (d) (a) : Statement (.popc d a) :=
  of_word rfl fun h => by simp_all [decoderOf, decodeSlot, decodeG0, keep]
theorem bfx (d) (a) (b) (m) : Statement (.bfx d a b m) :=
  of_word rfl fun h => by simp_all [decoderOf, decodeSlot, decodeG0, keep]
theorem bfi (d) (a) (b) : Statement (.bfi d a b) :=
  of_word rfl fun h => by simp_all [decoderOf, decodeSlot, decodeG0, keep]
theorem sext (d) (a) (m) : Statement (.sext d a m) :=
  of_word rfl fun h => by simp_all [decoderOf, decodeSlot, decodeG0, keep]
theorem zext (d) (a) (m) : Statement (.zext d a m) :=
  of_word rfl fun h => by simp_all [decoderOf, decodeSlot, decodeG0, keep]
theorem addx (d) (a) (b) (m) : Statement (.addx d a b m) :=
  of_word rfl fun h => by simp_all [decoderOf, decodeSlot, decodeG0, keep]
theorem mov (d) (a) : Statement (.mov d a) :=
  of_word rfl fun h => by simp_all [decoderOf, decodeSlot, decodeG0, keep]
theorem addi (d) (a) (imm) : Statement (.addi d a imm) :=
  of_word rfl fun h => by simp_all [decoderOf, decodeSlot, decodeG1, keep]
theorem andi (d) (a) (imm) : Statement (.andi d a imm) :=
  of_word rfl fun h => by simp_all [decoderOf, decodeSlot, decodeG1, keep]
theorem ori (d) (a) (imm) : Statement (.ori d a imm) :=
  of_word rfl fun h => by simp_all [decoderOf, decodeSlot, decodeG1, keep]
theorem xori (d) (a) (imm) : Statement (.xori d a imm) :=
  of_word rfl fun h => by simp_all [decoderOf, decodeSlot, decodeG1, keep]
theorem shli (d) (a) (sh) : Statement (.shli d a sh) :=
  of_word rfl fun h => by simp_all [decoderOf, decodeSlot, decodeG1, keep]
theorem shri (d) (a) (sh) : Statement (.shri d a sh) :=
  of_word rfl fun h => by simp_all [decoderOf, decodeSlot, decodeG1, keep]
theorem srai (d) (a) (sh) : Statement (.srai d a sh) :=
  of_word rfl fun h => by simp_all [decoderOf, decodeSlot, decodeG1, keep]
theorem cmpi (d) (a) (imm) : Statement (.cmpi d a imm) :=
  of_word rfl fun h => by simp_all [decoderOf, decodeSlot, decodeG1, keep]
theorem lit (d) (a) (idx) (md) : Statement (.lit d a idx md) :=
  of_word rfl fun h => by simp_all [decoderOf, decodeSlot, decodeG1, keep]
theorem lit64 (d) (idx) : Statement (.lit64 d idx) :=
  of_word rfl fun h => by simp_all [decoderOf, decodeSlot, decodeG1, keep]
theorem muli (d) (a) (imm) : Statement (.muli d a imm) :=
  of_word rfl fun h => by simp_all [decoderOf, decodeSlot, decodeG1, keep]
theorem br (off) : Statement (.br off) :=
  of_word rfl fun h => by simp_all [decoderOf, decodeSlot, decodeG2, keep]
theorem brz (a) (off) : Statement (.brz a off) :=
  of_word rfl fun h => by simp_all [decoderOf, decodeSlot, decodeG2, keep]
theorem brnz (a) (off) : Statement (.brnz a off) :=
  of_word rfl fun h => by simp_all [decoderOf, decodeSlot, decodeG2, keep]
theorem brany (a) (off) : Statement (.brany a off) :=
  of_word rfl fun h => by simp_all [decoderOf, decodeSlot, decodeG2, keep]
theorem brnone (a) (off) : Statement (.brnone a off) :=
  of_word rfl fun h => by simp_all [decoderOf, decodeSlot, decodeG2, keep]
theorem jal (a) (off) : Statement (.jal a off) :=
  of_word rfl fun h => by simp_all [decoderOf, decodeSlot, decodeG2, keep]
theorem jr (a) : Statement (.jr a) :=
  of_word rfl fun h => by simp_all [decoderOf, decodeSlot, decodeG2, keep]
theorem loop (a) (off) : Statement (.loop a off) :=
  of_word rfl fun h => by simp_all [decoderOf, decodeSlot, decodeG2, keep]
theorem loopi (a) (off) : Statement (.loopi a off) :=
  of_word rfl fun h => by simp_all [decoderOf, decodeSlot, decodeG2, keep]
theorem kand (d) (a) (b) : Statement (.kand d a b) :=
  of_word rfl fun h => by simp_all [decoderOf, decodeSlot, decodeG3, keep]
theorem kor (d) (a) (b) : Statement (.kor d a b) :=
  of_word rfl fun h => by simp_all [decoderOf, decodeSlot, decodeG3, keep]
theorem kxor (d) (a) (b) : Statement (.kxor d a b) :=
  of_word rfl fun h => by simp_all [decoderOf, decodeSlot, decodeG3, keep]
theorem kandn (d) (a) (b) : Statement (.kandn d a b) :=
  of_word rfl fun h => by simp_all [decoderOf, decodeSlot, decodeG3, keep]
theorem knot (d) (a) : Statement (.knot d a) :=
  of_word rfl fun h => by simp_all [decoderOf, decodeSlot, decodeG3, keep]
theorem kmov (d) (a) : Statement (.kmov d a) :=
  of_word rfl fun h => by simp_all [decoderOf, decodeSlot, decodeG3, keep]
theorem ktos (d) (a) : Statement (.ktos d a) :=
  of_word rfl fun h => by simp_all [decoderOf, decodeSlot, decodeG3, keep]
theorem kpopc (d) (a) : Statement (.kpopc d a) :=
  of_word rfl fun h => by simp_all [decoderOf, decodeSlot, decodeG3, keep]
theorem kfirst (d) (a) : Statement (.kfirst d a) :=
  of_word rfl fun h => by simp_all [decoderOf, decodeSlot, decodeG3, keep]
theorem ksetn (d) (a) (m) : Statement (.ksetn d a m) :=
  of_word rfl fun h => by simp_all [decoderOf, decodeSlot, decodeG3, keep]
theorem nmk (d) (a) (b) : Statement (.nmk d a b) :=
  of_word rfl fun h => by simp_all [decoderOf, decodeSlot, decodeG3, keep]
theorem nset (d) (a) (m) : Statement (.nset d a m) :=
  of_word rfl fun h => by simp_all [decoderOf, decodeSlot, decodeG3, keep]
theorem nget (d) (a) (m) : Statement (.nget d a m) :=
  of_word rfl fun h => by simp_all [decoderOf, decodeSlot, decodeG3, keep]
theorem nadd (d) (a) (b) (m) : Statement (.nadd d a b m) :=
  of_word rfl fun h => by simp_all [decoderOf, decodeSlot, decodeG3, keep]
theorem nmov (d) (a) : Statement (.nmov d a) :=
  of_word rfl fun h => by simp_all [decoderOf, decodeSlot, decodeG3, keep]
theorem ncmp (d) (a) (b) (m) : Statement (.ncmp d a b m) :=
  of_word rfl fun h => by simp_all [decoderOf, decodeSlot, decodeG3, keep]
theorem vadd (d) (a) (b) (k) (m) : Statement (.vadd d a b k m) :=
  of_word rfl fun h => by simp_all [decoderOf, decodeSlot, decodeG4, keep]
theorem vsub (d) (a) (b) (k) (m) : Statement (.vsub d a b k m) :=
  of_word rfl fun h => by simp_all [decoderOf, decodeSlot, decodeG4, keep]
theorem vmul (d) (a) (b) (k) (m) : Statement (.vmul d a b k m) :=
  of_word rfl fun h => by simp_all [decoderOf, decodeSlot, decodeG4, keep]
theorem vfma (d) (a) (b) (k) (m) : Statement (.vfma d a b k m) :=
  of_word rfl fun h => by simp_all [decoderOf, decodeSlot, decodeG4, keep]
theorem vfms (d) (a) (b) (k) (m) : Statement (.vfms d a b k m) :=
  of_word rfl fun h => by simp_all [decoderOf, decodeSlot, decodeG4, keep]
theorem vmin (d) (a) (b) (k) (m) : Statement (.vmin d a b k m) :=
  of_word rfl fun h => by simp_all [decoderOf, decodeSlot, decodeG4, keep]
theorem vmax (d) (a) (b) (k) (m) : Statement (.vmax d a b k m) :=
  of_word rfl fun h => by simp_all [decoderOf, decodeSlot, decodeG4, keep]
theorem vabs (d) (a) (k) (m) : Statement (.vabs d a k m) :=
  of_word rfl fun h => by simp_all [decoderOf, decodeSlot, decodeG4, keep]
theorem vneg (d) (a) (k) (m) : Statement (.vneg d a k m) :=
  of_word rfl fun h => by simp_all [decoderOf, decodeSlot, decodeG4, keep]
theorem vand (d) (a) (b) (k) : Statement (.vand d a b k) :=
  of_word rfl fun h => by simp_all [decoderOf, decodeSlot, decodeG4, keep]
theorem vor (d) (a) (b) (k) : Statement (.vor d a b k) :=
  of_word rfl fun h => by simp_all [decoderOf, decodeSlot, decodeG4, keep]
theorem vxor (d) (a) (b) (k) : Statement (.vxor d a b k) :=
  of_word rfl fun h => by simp_all [decoderOf, decodeSlot, decodeG4, keep]
theorem vshl (d) (a) (b) (k) (m) : Statement (.vshl d a b k m) :=
  of_word rfl fun h => by simp_all [decoderOf, decodeSlot, decodeG4, keep]
theorem vshr (d) (a) (b) (k) (m) : Statement (.vshr d a b k m) :=
  of_word rfl fun h => by simp_all [decoderOf, decodeSlot, decodeG4, keep]
theorem vsra (d) (a) (b) (k) (m) : Statement (.vsra d a b k m) :=
  of_word rfl fun h => by simp_all [decoderOf, decodeSlot, decodeG4, keep]
theorem vcmp (d) (a) (b) (k) (m) : Statement (.vcmp d a b k m) :=
  of_word rfl fun h => by simp_all [decoderOf, decodeSlot, decodeG4, keep]
theorem vsel (d) (a) (b) (k) : Statement (.vsel d a b k) :=
  of_word rfl fun h => by simp_all [decoderOf, decodeSlot, decodeG4, keep]
theorem vmov (d) (a) (k) : Statement (.vmov d a k) :=
  of_word rfl fun h => by simp_all [decoderOf, decodeSlot, decodeG4, keep]
theorem vbcast (d) (a) (k) (m) : Statement (.vbcast d a k m) :=
  of_word rfl fun h => by simp_all [decoderOf, decodeSlot, decodeG4, keep]
theorem vdot4 (d) (a) (b) (k) : Statement (.vdot4 d a b k) :=
  of_word rfl fun h => by simp_all [decoderOf, decodeSlot, decodeG4, keep]
theorem vdot2 (d) (a) (b) (k) (m) : Statement (.vdot2 d a b k m) :=
  of_word rfl fun h => by simp_all [decoderOf, decodeSlot, decodeG4, keep]
theorem vsat (d) (a) (b) (k) (m) : Statement (.vsat d a b k m) :=
  of_word rfl fun h => by simp_all [decoderOf, decodeSlot, decodeG4, keep]
theorem vclz (d) (a) (k) (m) : Statement (.vclz d a k m) :=
  of_word rfl fun h => by simp_all [decoderOf, decodeSlot, decodeG4, keep]
theorem vpopc (d) (a) (k) (m) : Statement (.vpopc d a k m) :=
  of_word rfl fun h => by simp_all [decoderOf, decodeSlot, decodeG4, keep]
theorem vmulh (d) (a) (b) (k) (m) : Statement (.vmulh d a b k m) :=
  of_word rfl fun h => by simp_all [decoderOf, decodeSlot, decodeG4, keep]
theorem vcvt (d) (a) (b) (k) (m) : Statement (.vcvt d a b k m) :=
  of_word rfl fun h => by simp_all [decoderOf, decodeSlot, decodeG5, keep]
theorem vqmx (d) (a) (m) : Statement (.vqmx d a m) :=
  of_word rfl fun h => by simp_all [decoderOf, decodeSlot, decodeG5, keep]
theorem vdqmx (d) (a) (k) (m) : Statement (.vdqmx d a k m) :=
  of_word rfl fun h => by simp_all [decoderOf, decodeSlot, decodeG5, keep]
theorem vtag (d) (a) (m) : Statement (.vtag d a m) :=
  of_word rfl fun h => by simp_all [decoderOf, decodeSlot, decodeG5, keep]
theorem vgtag (d) (a) (m) : Statement (.vgtag d a m) :=
  of_word rfl fun h => by simp_all [decoderOf, decodeSlot, decodeG5, keep]
theorem vperm (d) (a) (b) (k) : Statement (.vperm d a b k) :=
  of_word rfl fun h => by simp_all [decoderOf, decodeSlot, decodeG5, keep]
theorem vshuf (d) (a) (b) (k) : Statement (.vshuf d a b k) :=
  of_word rfl fun h => by simp_all [decoderOf, decodeSlot, decodeG5, keep]
theorem vrot (d) (a) (b) (k) : Statement (.vrot d a b k) :=
  of_word rfl fun h => by simp_all [decoderOf, decodeSlot, decodeG5, keep]
theorem vslide (d) (a) (b) (k) (m) : Statement (.vslide d a b k m) :=
  of_word rfl fun h => by simp_all [decoderOf, decodeSlot, decodeG5, keep]
theorem vpack (d) (a) (b) (m) : Statement (.vpack d a b m) :=
  of_word rfl fun h => by simp_all [decoderOf, decodeSlot, decodeG5, keep]
theorem vunpk (d) (a) (m) : Statement (.vunpk d a m) :=
  of_word rfl fun h => by simp_all [decoderOf, decodeSlot, decodeG5, keep]
theorem vcmprs (d) (a) (k) : Statement (.vcmprs d a k) :=
  of_word rfl fun h => by simp_all [decoderOf, decodeSlot, decodeG5, keep]
theorem vexpnd (d) (a) (k) : Statement (.vexpnd d a k) :=
  of_word rfl fun h => by simp_all [decoderOf, decodeSlot, decodeG5, keep]
theorem viota (d) (a) (k) : Statement (.viota d a k) :=
  of_word rfl fun h => by simp_all [decoderOf, decodeSlot, decodeG5, keep]
theorem vextr (d) (a) (b) (m) : Statement (.vextr d a b m) :=
  of_word rfl fun h => by simp_all [decoderOf, decodeSlot, decodeG5, keep]
theorem vins (d) (a) (b) : Statement (.vins d a b) :=
  of_word rfl fun h => by simp_all [decoderOf, decodeSlot, decodeG5, keep]
theorem vscl (d) (a) (b) (m) : Statement (.vscl d a b m) :=
  of_word rfl fun h => by simp_all [decoderOf, decodeSlot, decodeG5, keep]
theorem vredadd (d) (a) (k) (m) : Statement (.vredadd d a k m) :=
  of_word rfl fun h => by simp_all [decoderOf, decodeSlot, decodeG6, keep]
theorem vredmin (d) (a) (k) (m) : Statement (.vredmin d a k m) :=
  of_word rfl fun h => by simp_all [decoderOf, decodeSlot, decodeG6, keep]
theorem vredmax (d) (a) (k) (m) : Statement (.vredmax d a k m) :=
  of_word rfl fun h => by simp_all [decoderOf, decodeSlot, decodeG6, keep]
theorem vscan (d) (a) (k) (m) : Statement (.vscan d a k m) :=
  of_word rfl fun h => by simp_all [decoderOf, decodeSlot, decodeG6, keep]
theorem vtopk (d) (a) (b) (k) (m) : Statement (.vtopk d a b k m) :=
  of_word rfl fun h => by simp_all [decoderOf, decodeSlot, decodeG6, keep]
theorem vsorts (d) (a) (k) (m) : Statement (.vsorts d a k m) :=
  of_word rfl fun h => by simp_all [decoderOf, decodeSlot, decodeG6, keep]
theorem vargmx (d) (a) (k) (m) : Statement (.vargmx d a k m) :=
  of_word rfl fun h => by simp_all [decoderOf, decodeSlot, decodeG6, keep]
theorem vrand (d) (a) (b) (k) : Statement (.vrand d a b k) :=
  of_word rfl fun h => by simp_all [decoderOf, decodeSlot, decodeG6, keep]
theorem vhistx (d) (a) (k) (m) : Statement (.vhistx d a k m) :=
  of_word rfl fun h => by simp_all [decoderOf, decodeSlot, decodeG6, keep]
theorem vredx (d) (a) (b) (k) (m) : Statement (.vredx d a b k m) :=
  of_word rfl fun h => by simp_all [decoderOf, decodeSlot, decodeG6, keep]
theorem vrndx (d) (a) (m) : Statement (.vrndx d a m) :=
  of_word rfl fun h => by simp_all [decoderOf, decodeSlot, decodeG6, keep]
theorem vlut (d) (a) (b) (k) : Statement (.vlut d a b k) :=
  of_word rfl fun h => by simp_all [decoderOf, decodeSlot, decodeG6, keep]
theorem fexp2 (d) (a) (k) (m) : Statement (.fexp2 d a k m) :=
  of_word rfl fun h => by simp_all [decoderOf, decodeSlot, decodeG7, keep]
theorem flog2 (d) (a) (k) (m) : Statement (.flog2 d a k m) :=
  of_word rfl fun h => by simp_all [decoderOf, decodeSlot, decodeG7, keep]
theorem frcp (d) (a) (k) (m) : Statement (.frcp d a k m) :=
  of_word rfl fun h => by simp_all [decoderOf, decodeSlot, decodeG7, keep]
theorem frsq (d) (a) (k) (m) : Statement (.frsq d a k m) :=
  of_word rfl fun h => by simp_all [decoderOf, decodeSlot, decodeG7, keep]
theorem fsqrt (d) (a) (k) (m) : Statement (.fsqrt d a k m) :=
  of_word rfl fun h => by simp_all [decoderOf, decodeSlot, decodeG7, keep]
theorem fdiv (d) (a) (b) (k) (m) : Statement (.fdiv d a b k m) :=
  of_word rfl fun h => by simp_all [decoderOf, decodeSlot, decodeG7, keep]
theorem ftanh (d) (a) (k) (m) : Statement (.ftanh d a k m) :=
  of_word rfl fun h => by simp_all [decoderOf, decodeSlot, decodeG7, keep]
theorem fsigm (d) (a) (k) (m) : Statement (.fsigm d a k m) :=
  of_word rfl fun h => by simp_all [decoderOf, decodeSlot, decodeG7, keep]
theorem fsin (d) (a) (k) (m) : Statement (.fsin d a k m) :=
  of_word rfl fun h => by simp_all [decoderOf, decodeSlot, decodeG7, keep]
theorem fcos (d) (a) (k) (m) : Statement (.fcos d a k m) :=
  of_word rfl fun h => by simp_all [decoderOf, decodeSlot, decodeG7, keep]
theorem ferf (d) (a) (k) (m) : Statement (.ferf d a k m) :=
  of_word rfl fun h => by simp_all [decoderOf, decodeSlot, decodeG7, keep]
theorem mlds (a) : Statement (.mlds a) :=
  of_word rfl fun h => by simp_all [decoderOf, decodeSlot, decodeG8, keep]
theorem mswap : Statement (.mswap) :=
  of_word rfl fun h => by simp_all [decoderOf, decodeSlot, decodeG8, keep]
theorem mma (d) (a) (k) : Statement (.mma d a k) :=
  of_word rfl fun h => by simp_all [decoderOf, decodeSlot, decodeG8, keep]
theorem mmas (d) (a) (k) : Statement (.mmas d a k) :=
  of_word rfl fun h => by simp_all [decoderOf, decodeSlot, decodeG8, keep]
theorem mzero (d) (k) : Statement (.mzero d k) :=
  of_word rfl fun h => by simp_all [decoderOf, decodeSlot, decodeG8, keep]
theorem mdrain (d) (a) (b) (k) (m) : Statement (.mdrain d a b k m) :=
  of_word rfl fun h => by simp_all [decoderOf, decodeSlot, decodeG8, keep]
theorem mrdv (d) (a) (b) (m) : Statement (.mrdv d a b m) :=
  of_word rfl fun h => by simp_all [decoderOf, decodeSlot, decodeG8, keep]
theorem mwrv (d) (a) (b) (k) (m) : Statement (.mwrv d a b k m) :=
  of_word rfl fun h => by simp_all [decoderOf, decodeSlot, decodeG8, keep]
theorem mmode (a) : Statement (.mmode a) :=
  of_word rfl fun h => by simp_all [decoderOf, decodeSlot, decodeG8, keep]
theorem mwait (m) : Statement (.mwait m) :=
  of_word rfl fun h => by simp_all [decoderOf, decodeSlot, decodeG8, keep]
theorem mtrw (a) (m) : Statement (.mtrw a m) :=
  of_word rfl fun h => by simp_all [decoderOf, decodeSlot, decodeG8, keep]
theorem ld (d) (a) (off) : Statement (.ld d a off) :=
  of_word rfl fun h => by simp_all [decoderOf, decodeSlot, decodeG9, keep]
theorem st (d) (a) (off) : Statement (.st d a off) :=
  of_word rfl fun h => by simp_all [decoderOf, decodeSlot, decodeG9, keep]
theorem vld (d) (a) (sp) (off) : Statement (.vld d a sp off) :=
  of_word rfl fun h => by simp_all [decoderOf, decodeSlot, decodeG9, keep]
theorem vst (d) (a) (sp) (off) : Statement (.vst d a sp off) :=
  of_word rfl fun h => by simp_all [decoderOf, decodeSlot, decodeG9, keep]
theorem vlds (d) (a) (b) (k) (sp) (z) : Statement (.vlds d a b k sp z) :=
  of_word rfl fun h => by simp_all [decoderOf, decodeSlot, decodeG9, keep]
theorem vsts (d) (a) (b) (k) (sp) (z) : Statement (.vsts d a b k sp z) :=
  of_word rfl fun h => by simp_all [decoderOf, decodeSlot, decodeG9, keep]
theorem vgath (d) (a) (b) (k) (sp) (z) : Statement (.vgath d a b k sp z) :=
  of_word rfl fun h => by simp_all [decoderOf, decodeSlot, decodeG9, keep]
theorem vscat (d) (a) (b) (k) (sp) (z) : Statement (.vscat d a b k sp z) :=
  of_word rfl fun h => by simp_all [decoderOf, decodeSlot, decodeG9, keep]
theorem ldw (d) (a) (sp) (off) : Statement (.ldw d a sp off) :=
  of_word rfl fun h => by simp_all [decoderOf, decodeSlot, decodeG9, keep]
theorem vldw (d) (a) (sp) (off) : Statement (.vldw d a sp off) :=
  of_word rfl fun h => by simp_all [decoderOf, decodeSlot, decodeG9, keep]
theorem qld (d) (a) (t) (s) : Statement (.qld d a t s) :=
  of_word rfl fun h => by simp_all [decoderOf, decodeSlot, decodeG9, keep]
theorem qst (d) (a) (t) (s) : Statement (.qst d a t s) :=
  of_word rfl fun h => by simp_all [decoderOf, decodeSlot, decodeG9, keep]
theorem talloc (d) (a) (b) (m) : Statement (.talloc d a b m) :=
  of_word rfl fun h => by simp_all [decoderOf, decodeSlot, decodeG9, keep]
theorem tfree (a) : Statement (.tfree a) :=
  of_word rfl fun h => by simp_all [decoderOf, decodeSlot, decodeG9, keep]
theorem tstat (d) (a) : Statement (.tstat d a) :=
  of_word rfl fun h => by simp_all [decoderOf, decodeSlot, decodeG9, keep]
theorem twait (a) (b) (m) : Statement (.twait a b m) :=
  of_word rfl fun h => by simp_all [decoderOf, decodeSlot, decodeG9, keep]
theorem tset (a) (b) (m) : Statement (.tset a b m) :=
  of_word rfl fun h => by simp_all [decoderOf, decodeSlot, decodeG9, keep]
theorem icinv (a) (m) : Statement (.icinv a m) :=
  of_word rfl fun h => by simp_all [decoderOf, decodeSlot, decodeG9, keep]
theorem fetchb : Statement (.fetchb) :=
  of_word rfl fun h => by simp_all [decoderOf, decodeSlot, decodeG9, keep]
theorem gld (d) (a) (sp) (t) (s) : Statement (.gld d a sp t s) :=
  of_word rfl fun h => by simp_all [decoderOf, decodeSlot, decodeGA, keep]
theorem gst (d) (a) (sp) (t) (s) : Statement (.gst d a sp t s) :=
  of_word rfl fun h => by simp_all [decoderOf, decodeSlot, decodeGA, keep]
theorem vgld (d) (a) (sp) (t) (s) : Statement (.vgld d a sp t s) :=
  of_word rfl fun h => by simp_all [decoderOf, decodeSlot, decodeGA, keep]
theorem vgst (d) (a) (sp) (t) (s) : Statement (.vgst d a sp t s) :=
  of_word rfl fun h => by simp_all [decoderOf, decodeSlot, decodeGA, keep]
theorem ldacq (d) (a) (sp) (t) (s) : Statement (.ldacq d a sp t s) :=
  of_word rfl fun h => by simp_all [decoderOf, decodeSlot, decodeGA, keep]
theorem strel (d) (a) (sp) (t) (s) : Statement (.strel d a sp t s) :=
  of_word rfl fun h => by simp_all [decoderOf, decodeSlot, decodeGA, keep]
theorem promacq (d) (a) (sp) (t) (s) : Statement (.promacq d a sp t s) :=
  of_word rfl fun h => by simp_all [decoderOf, decodeSlot, decodeGA, keep]
theorem fence (sp) (t) (s) : Statement (.fence sp t s) :=
  of_word rfl fun h => by simp_all [decoderOf, decodeSlot, decodeGA, keep]
theorem atom (d) (a) (sp) (t) (s) : Statement (.atom d a sp t s) :=
  of_word rfl fun h => by simp_all [decoderOf, decodeSlot, decodeGA, keep]
theorem atomr (d) (a) (sp) (t) (s) : Statement (.atomr d a sp t s) :=
  of_word rfl fun h => by simp_all [decoderOf, decodeSlot, decodeGA, keep]
theorem mred (d) (a) (sp) (t) (s) : Statement (.mred d a sp t s) :=
  of_word rfl fun h => by simp_all [decoderOf, decodeSlot, decodeGA, keep]
theorem mredrd (d) (a) (sp) (t) (s) : Statement (.mredrd d a sp t s) :=
  of_word rfl fun h => by simp_all [decoderOf, decodeSlot, decodeGA, keep]
theorem clwb (a) (sp) (t) (s) : Statement (.clwb a sp t s) :=
  of_word rfl fun h => by simp_all [decoderOf, decodeSlot, decodeGA, keep]
theorem clinv (a) (sp) (t) (s) : Statement (.clinv a sp t s) :=
  of_word rfl fun h => by simp_all [decoderOf, decodeSlot, decodeGA, keep]
theorem xcopy (d) (a) (b) (t) (sp) : Statement (.xcopy d a b t sp) :=
  of_word rfl fun h => by simp_all [decoderOf, decodeSlot, decodeGA, keep]
theorem xgath (d) (a) (b) (t) (sp) : Statement (.xgath d a b t sp) :=
  of_word rfl fun h => by simp_all [decoderOf, decodeSlot, decodeGA, keep]
theorem xscat (d) (a) (b) (t) (sp) : Statement (.xscat d a b t sp) :=
  of_word rfl fun h => by simp_all [decoderOf, decodeSlot, decodeGA, keep]
theorem xfill (d) (a) (b) (t) (sp) : Statement (.xfill d a b t sp) :=
  of_word rfl fun h => by simp_all [decoderOf, decodeSlot, decodeGA, keep]
theorem subName (d) (a) : Statement (.subName d a) :=
  of_word rfl fun h => by simp_all [decoderOf, decodeSlot, decodeGC, keep]
theorem unsub (a) : Statement (.unsub a) :=
  of_word rfl fun h => by simp_all [decoderOf, decodeSlot, decodeGC, keep]
theorem pub (d) (a) (m) : Statement (.pub d a m) :=
  of_word rfl fun h => by simp_all [decoderOf, decodeSlot, decodeGC, keep]
theorem pubr (d) (a) : Statement (.pubr d a) :=
  of_word rfl fun h => by simp_all [decoderOf, decodeSlot, decodeGC, keep]
theorem ropen (d) (a) (b) (m) : Statement (.ropen d a b m) :=
  of_word rfl fun h => by simp_all [decoderOf, decodeSlot, decodeGC, keep]
theorem resub (d) (a) : Statement (.resub d a) :=
  of_word rfl fun h => by simp_all [decoderOf, decodeSlot, decodeGC, keep]
theorem nhold (d) (a) (m) : Statement (.nhold d a m) :=
  of_word rfl fun h => by simp_all [decoderOf, decodeSlot, decodeGC, keep]
theorem nrel (d) : Statement (.nrel d) :=
  of_word rfl fun h => by simp_all [decoderOf, decodeSlot, decodeGC, keep]
theorem nqry (d) (a) (m) : Statement (.nqry d a m) :=
  of_word rfl fun h => by simp_all [decoderOf, decodeSlot, decodeGC, keep]
theorem pubx (d) (a) (b) (t) (sp) : Statement (.pubx d a b t sp) :=
  of_word rfl fun h => by simp_all [decoderOf, decodeSlot, decodeGC, keep]
theorem fend : Statement (.fend) :=
  of_word rfl fun h => by simp_all [decoderOf, decodeSlot, decodeGD, keep]
theorem spawn (a) : Statement (.spawn a) :=
  of_word rfl fun h => by simp_all [decoderOf, decodeSlot, decodeGD, keep]
theorem launchr (a) (b) (m) : Statement (.launchr a b m) :=
  of_word rfl fun h => by simp_all [decoderOf, decodeSlot, decodeGD, keep]
theorem yield : Statement (.yield) :=
  of_word rfl fun h => by simp_all [decoderOf, decodeSlot, decodeGD, keep]
theorem tcadd (a) (m) : Statement (.tcadd a m) :=
  of_word rfl fun h => by simp_all [decoderOf, decodeSlot, decodeGD, keep]
theorem tcrd (d) (m) : Statement (.tcrd d m) :=
  of_word rfl fun h => by simp_all [decoderOf, decodeSlot, decodeGD, keep]
theorem tcwait (a) (m) : Statement (.tcwait a m) :=
  of_word rfl fun h => by simp_all [decoderOf, decodeSlot, decodeGD, keep]
theorem bar (a) (b) (m) : Statement (.bar a b m) :=
  of_word rfl fun h => by simp_all [decoderOf, decodeSlot, decodeGD, keep]
theorem barrd (d) (a) : Statement (.barrd d a) :=
  of_word rfl fun h => by simp_all [decoderOf, decodeSlot, decodeGD, keep]
theorem timeq (d) (m) : Statement (.timeq d m) :=
  of_word rfl fun h => by simp_all [decoderOf, decodeSlot, decodeGD, keep]
theorem stamp (d) : Statement (.stamp d) :=
  of_word rfl fun h => by simp_all [decoderOf, decodeSlot, decodeGD, keep]
theorem prio (a) : Statement (.prio a) :=
  of_word rfl fun h => by simp_all [decoderOf, decodeSlot, decodeGD, keep]
theorem ecfg (a) (b) (m) : Statement (.ecfg a b m) :=
  of_word rfl fun h => by simp_all [decoderOf, decodeSlot, decodeGD, keep]
theorem ego (a) (b) : Statement (.ego a b) :=
  of_word rfl fun h => by simp_all [decoderOf, decodeSlot, decodeGD, keep]
theorem estat (d) (a) (m) : Statement (.estat d a m) :=
  of_word rfl fun h => by simp_all [decoderOf, decodeSlot, decodeGD, keep]
theorem eabort (a) (m) : Statement (.eabort a m) :=
  of_word rfl fun h => by simp_all [decoderOf, decodeSlot, decodeGD, keep]
theorem trap (imm) : Statement (.trap imm) :=
  of_word rfl fun h => by simp_all [decoderOf, decodeSlot, decodeGE, keep]
theorem tret (m) : Statement (.tret m) :=
  of_word rfl fun h => by simp_all [decoderOf, decodeSlot, decodeGE, keep]
theorem ctlrd (d) (imm) : Statement (.ctlrd d imm) :=
  of_word rfl fun h => by simp_all [decoderOf, decodeSlot, decodeGE, keep]
theorem ctlwr (a) (imm) : Statement (.ctlwr a imm) :=
  of_word rfl fun h => by simp_all [decoderOf, decodeSlot, decodeGE, keep]
theorem brk (m) : Statement (.brk m) :=
  of_word rfl fun h => by simp_all [decoderOf, decodeSlot, decodeGE, keep]
theorem evpost (a) (b) (m) : Statement (.evpost a b m) :=
  of_word rfl fun h => by simp_all [decoderOf, decodeSlot, decodeGE, keep]
theorem moncfg (a) (b) : Statement (.moncfg a b) :=
  of_word rfl fun h => by simp_all [decoderOf, decodeSlot, decodeGE, keep]
theorem monrd (d) (a) (m) : Statement (.monrd d a m) :=
  of_word rfl fun h => by simp_all [decoderOf, decodeSlot, decodeGE, keep]
theorem haltc (a) : Statement (.haltc a) :=
  of_word rfl fun h => by simp_all [decoderOf, decodeSlot, decodeGE, keep]
theorem ctxsv (a) : Statement (.ctxsv a) :=
  of_word rfl fun h => by simp_all [decoderOf, decodeSlot, decodeGE, keep]
theorem ctxld (d) (a) : Statement (.ctxld d a) :=
  of_word rfl fun h => by simp_all [decoderOf, decodeSlot, decodeGE, keep]
theorem xadd (a) (b) (d) (t) : Statement (.xadd a b d t) :=
  of_word rfl fun h => by simp_all [decoderOf, decodeEdge, decodeEdgeOp, keepEdge, litSelected, Instr.wf, LitTag.wf]
theorem xrnd (a) (d) (t) (l) : Statement (.xrnd a d t l) :=
  of_word rfl fun h => by simp_all [decoderOf, decodeEdge, decodeEdgeOp, keepEdge]
theorem cvt (a) (d) (t) (l) : Statement (.cvt a d t l) :=
  of_word rfl fun h => by simp_all [decoderOf, decodeEdge, decodeEdgeOp, keepEdge]
theorem qmx (a) (d) (t) (l) : Statement (.qmx a d t l) :=
  of_word rfl fun h => by simp_all [decoderOf, decodeEdge, decodeEdgeOp, keepEdge]
theorem dqmx (a) (d) (t) : Statement (.dqmx a d t) :=
  of_word rfl fun h => by simp_all [decoderOf, decodeEdge, decodeEdgeOp, keepEdge, litSelected, Instr.wf, LitTag.wf]
theorem cmpz (a) (d) (t) : Statement (.cmpz a d t) :=
  of_word rfl fun h => by simp_all [decoderOf, decodeEdge, decodeEdgeOp, keepEdge, litSelected, Instr.wf, LitTag.wf]
theorem dcmpz (a) (d) (t) : Statement (.dcmpz a d t) :=
  of_word rfl fun h => by simp_all [decoderOf, decodeEdge, decodeEdgeOp, keepEdge, litSelected, Instr.wf, LitTag.wf]
theorem mrr (a) (b) (d) (t) : Statement (.mrr a b d t) :=
  of_word rfl fun h => by simp_all [decoderOf, decodeEdge, decodeEdgeOp, keepEdge, litSelected, Instr.wf, LitTag.wf]
theorem mtag (a) (b) (d) (t) : Statement (.mtag a b d t) :=
  of_word rfl fun h => by simp_all [decoderOf, decodeEdge, decodeEdgeOp, keepEdge, litSelected, Instr.wf, LitTag.wf]
theorem splitE (a) (d) (e) (t) (l) : Statement (.splitE a d e t l) :=
  of_word rfl fun h => by simp_all [decoderOf, decodeEdge, decodeEdgeOp, keepEdge]
theorem dup (a) (d) (e) (t) : Statement (.dup a d e t) :=
  of_word rfl fun h => by simp_all [decoderOf, decodeEdge, decodeEdgeOp, keepEdge, litSelected, Instr.wf, LitTag.wf]
theorem gate (a) (b) (d) (t) : Statement (.gate a b d t) :=
  of_word rfl fun h => by simp_all [decoderOf, decodeEdge, decodeEdgeOp, keepEdge, litSelected, Instr.wf, LitTag.wf]
theorem steer (a) (d) (e) (t) (l) : Statement (.steer a d e t l) :=
  of_word rfl fun h => by simp_all [decoderOf, decodeEdge, decodeEdgeOp, keepEdge]
theorem cnt (a) (d) (e) (t) : Statement (.cnt a d e t) :=
  of_word rfl fun h => by simp_all [decoderOf, decodeEdge, decodeEdgeOp, keepEdge, litSelected, Instr.wf, LitTag.wf]
theorem lim (a) (d) (t) (l) : Statement (.lim a d t l) :=
  of_word rfl fun h => by simp_all [decoderOf, decodeEdge, decodeEdgeOp, keepEdge]
theorem fifo (a) (d) (t) (l) : Statement (.fifo a d t l) :=
  of_word rfl fun h => by simp_all [decoderOf, decodeEdge, decodeEdgeOp, keepEdge]
theorem pack (a) (b) (d) (t) : Statement (.pack a b d t) :=
  of_word rfl fun h => by simp_all [decoderOf, decodeEdge, decodeEdgeOp, keepEdge, litSelected, Instr.wf, LitTag.wf]
theorem unpk (a) (d) (e) (t) : Statement (.unpk a d e t) :=
  of_word rfl fun h => by simp_all [decoderOf, decodeEdge, decodeEdgeOp, keepEdge, litSelected, Instr.wf, LitTag.wf]
theorem scl (a) (d) (t) (l) : Statement (.scl a d t l) :=
  of_word rfl fun h => by simp_all [decoderOf, decodeEdge, decodeEdgeOp, keepEdge]
theorem hist (a) (d) (e) (t) : Statement (.hist a d e t) :=
  of_word rfl fun h => by simp_all [decoderOf, decodeEdge, decodeEdgeOp, keepEdge, litSelected, Instr.wf, LitTag.wf]
theorem eosg (a) (d) (t) (l) : Statement (.eosg a d t l) :=
  of_word rfl fun h => by simp_all [decoderOf, decodeEdge, decodeEdgeOp, keepEdge]
theorem sink (a) (l) : Statement (.sink a l) :=
  of_word rfl fun h => by simp_all [decoderOf, decodeEdge, decodeEdgeOp, keepEdge]
theorem srcn (a) (d) (t) : Statement (.srcn a d t) :=
  of_word rfl fun h => by simp_all [decoderOf, decodeEdge, decodeEdgeOp, keepEdge, litSelected, Instr.wf, LitTag.wf]
theorem pubn (a) (d) (e) (t) : Statement (.pubn a d e t) :=
  of_word rfl fun h => by simp_all [decoderOf, decodeEdge, decodeEdgeOp, keepEdge, litSelected, Instr.wf, LitTag.wf]
theorem rin (a) (d) (t) : Statement (.rin a d t) :=
  of_word rfl fun h => by simp_all [decoderOf, decodeEdge, decodeEdgeOp, keepEdge, litSelected, Instr.wf, LitTag.wf]
theorem rout (a) (d) (t) : Statement (.rout a d t) :=
  of_word rfl fun h => by simp_all [decoderOf, decodeEdge, decodeEdgeOp, keepEdge, litSelected, Instr.wf, LitTag.wf]
theorem edgeNop (a) (d) (t) : Statement (.edgeNop a d t) :=
  of_word rfl fun h => by simp_all [decoderOf, decodeEdge, decodeEdgeOp, keepEdge, litSelected, Instr.wf, LitTag.wf]
theorem halte (a) : Statement (.halte a) :=
  of_word rfl fun h => by simp_all [decoderOf, decodeEdge, decodeEdgeOp, keepEdge]
theorem matrixCmdStart : Statement .matrixCmdStart := of_none rfl
theorem matrixCmdComplete : Statement .matrixCmdComplete := of_none rfl
theorem remoteQaccess : Statement .remoteQaccess := of_none rfl
theorem icinvTakeEffect : Statement .icinvTakeEffect := of_none rfl
theorem icacheFill : Statement .icacheFill := of_none rfl
theorem gcacheFill : Statement .gcacheFill := of_none rfl
theorem promotionRequest : Statement .promotionRequest := of_none rfl
theorem fenceComplete : Statement .fenceComplete := of_none rfl
theorem engineCmdStart : Statement .engineCmdStart := of_none rfl
theorem engineCmdComplete : Statement .engineCmdComplete := of_none rfl
theorem agentRequest : Statement .agentRequest := of_none rfl
theorem hostRequestTimeout : Statement .hostRequestTimeout := of_none rfl
theorem varResultLand : Statement .varResultLand := of_none rfl
theorem resultWrite : Statement .resultWrite := of_none rfl
theorem boundaryFault : Statement .boundaryFault := of_none rfl
theorem publicationRead : Statement .publicationRead := of_none rfl
theorem subscriptionToken : Statement .subscriptionToken := of_none rfl
theorem unsubscriptionToken : Statement .unsubscriptionToken := of_none rfl
theorem publicationHop : Statement .publicationHop := of_none rfl
theorem publicationAtHome : Statement .publicationAtHome := of_none rfl
theorem subscriptionAtHome : Statement .subscriptionAtHome := of_none rfl
theorem withdrawalAtHome : Statement .withdrawalAtHome := of_none rfl
theorem nholdAtHome : Statement .nholdAtHome := of_none rfl
theorem nrelAtHome : Statement .nrelAtHome := of_none rfl
theorem nqryAtHome : Statement .nqryAtHome := of_none rfl
theorem heldTokenRetry : Statement .heldTokenRetry := of_none rfl
theorem fallThroughFetch : Statement .fallThroughFetch := of_none rfl
theorem tileDelivery : Statement .tileDelivery := of_none rfl
theorem handOver : Statement .handOver := of_none rfl
theorem contributionToken : Statement .contributionToken := of_none rfl
theorem slotFlush : Statement .slotFlush := of_none rfl
theorem contributionAtHome : Statement .contributionAtHome := of_none rfl
theorem ropenAtHome : Statement .ropenAtHome := of_none rfl
theorem reductionPublish : Statement .reductionPublish := of_none rfl
theorem lqtailDoorbell : Statement .lqtailDoorbell := of_none rfl
theorem launch : Statement .launch := of_none rfl
theorem abort : Statement .abort := of_none rfl
theorem regionComplete : Statement .regionComplete := of_none rfl
theorem schedulerSelect : Statement .schedulerSelect := of_none rfl
theorem firingRetire : Statement .firingRetire := of_none rfl
theorem launchrRun : Statement .launchrRun := of_none rfl
theorem ecfgImageRead : Statement .ecfgImageRead := of_none rfl
theorem shadowCommit : Statement .shadowCommit := of_none rfl
theorem estatArrival : Statement .estatArrival := of_none rfl
theorem eabortArrival : Statement .eabortArrival := of_none rfl
theorem periodStart : Statement .periodStart := of_none rfl
theorem bindingArm : Statement .bindingArm := of_none rfl
theorem elementTokenArrival : Statement .elementTokenArrival := of_none rfl
theorem periodEnd : Statement .periodEnd := of_none rfl
theorem inactivityTimeout : Statement .inactivityTimeout := of_none rfl
theorem drainWatchdog : Statement .drainWatchdog := of_none rfl
theorem linkBeatResend : Statement .linkBeatResend := of_none rfl
theorem podFormation : Statement .podFormation := of_none rfl
theorem seamFailure : Statement .seamFailure := of_none rfl
theorem netwUpdate : Statement .netwUpdate := of_none rfl
theorem barrierArrival : Statement .barrierArrival := of_none rfl
theorem barrierCompletion : Statement .barrierCompletion := of_none rfl
theorem waferTimeBeacon : Statement .waferTimeBeacon := of_none rfl
theorem moncfgApply : Statement .moncfgApply := of_none rfl
theorem captureSample : Statement .captureSample := of_none rfl
theorem levelSample : Statement .levelSample := of_none rfl
theorem captureGrantWrite : Statement .captureGrantWrite := of_none rfl
theorem watchdog : Statement .watchdog := of_none rfl
theorem preemptHalt : Statement .preemptHalt := of_none rfl
theorem preemptResume : Statement .preemptResume := of_none rfl
theorem coreHalt : Statement .coreHalt := of_none rfl
theorem saveSequence : Statement .saveSequence := of_none rfl
theorem landingEntryLand : Statement .landingEntryLand := of_none rfl
theorem coreFailure : Statement .coreFailure := of_none rfl
theorem coreSave : Statement .coreSave := of_none rfl
theorem eventRecordWrite : Statement .eventRecordWrite := of_none rfl
theorem eqheadWrite : Statement .eqheadWrite := of_none rfl
theorem dbgselWrite : Statement .dbgselWrite := of_none rfl
theorem dbgctlHalt : Statement .dbgctlHalt := of_none rfl
theorem dbgctlResume : Statement .dbgctlResume := of_none rfl
theorem debugApertureRead : Statement .debugApertureRead := of_none rfl
theorem debugApertureWrite : Statement .debugApertureWrite := of_none rfl
theorem debugWritePerform : Statement .debugWritePerform := of_none rfl
theorem debugWriteTimeout : Statement .debugWriteTimeout := of_none rfl
theorem bootctlRestart : Statement .bootctlRestart := of_none rfl
theorem bootctlValid : Statement .bootctlValid := of_none rfl
theorem wtsetWrite : Statement .wtsetWrite := of_none rfl
theorem attctlGo : Statement .attctlGo := of_none rfl
theorem attestationReport : Statement .attestationReport := of_none rfl
theorem registerWrite : Statement .registerWrite := of_none rfl
theorem powerGood : Statement .powerGood := of_none rfl
theorem romSelfTest : Statement .romSelfTest := of_none rfl
theorem romCoreTest : Statement .romCoreTest := of_none rfl
theorem phaseOverrun : Statement .phaseOverrun := of_none rfl
theorem seamTraining : Statement .seamTraining := of_none rfl
theorem seamTrainTimeout : Statement .seamTrainTimeout := of_none rfl
theorem electRoundMessage : Statement .electRoundMessage := of_none rfl
theorem claim : Statement .claim := of_none rfl
theorem claimWindowClose : Statement .claimWindowClose := of_none rfl
theorem lead : Statement .lead := of_none rfl
theorem leadTimeout : Statement .leadTimeout := of_none rfl
theorem noleader : Statement .noleader := of_none rfl
theorem bootDescriptorPoll : Statement .bootDescriptorPoll := of_none rfl
theorem firmwareFetch : Statement .firmwareFetch := of_none rfl
theorem firmwareReceive : Statement .firmwareReceive := of_none rfl
theorem followerReportTimeout : Statement .followerReportTimeout := of_none rfl
theorem enumeration : Statement .enumeration := of_none rfl
theorem enumTimeout : Statement .enumTimeout := of_none rfl
theorem coolantOvertemp : Statement .coolantOvertemp := of_none rfl
theorem checkpointRestart : Statement .checkpointRestart := of_none rfl
theorem translationCacheInvalidate : Statement .translationCacheInvalidate := of_none rfl
theorem linkTokenArrival : Statement .linkTokenArrival := of_none rfl
theorem bridgeAttachmentTraining : Statement .bridgeAttachmentTraining := of_none rfl

end Sys2Proof.Laws.RoundTrip
end

