-- ==== Sys2Proof/Tests/Slice0.lean ====
section
/-! SUPPORT. Small tests of the decoder, of well-formedness and of single steps, with expected values taken from the worked examples and tables of the spec. -/

set_option Elab.async false

namespace Sys2Proof.Tests
open Sys2Proof Sys2Proof.Machine Sys2Proof.Safety

/-! Words laid out by the forms of 02 R42 with the minor codes of R50, one of every slot instruction. -/

theorem test_decode_scalar_alu_a : [
    0x00061100#32, 0x00461100#32, 0x00861100#32, 0x00C61100#32, 0x01061100#32, 0x01461100#32, 0x01861100#32, 0x01C61100#32,
    0x02061100#32, 0x02461100#32, 0x02861100#32, 0x02C61100#32, 0x03061100#32, 0x03461100#32, 0x03861100#32, 0x03C61100#32].map decodeSlot = [
    Instr.add 3#5 1#5 2#5, .sub 3#5 1#5 2#5, .mul 3#5 1#5 2#5, .mulh 3#5 1#5 2#5, .mulhu 3#5 1#5 2#5, .div 3#5 1#5 2#5,
    .divu 3#5 1#5 2#5, .rem 3#5 1#5 2#5, .remu 3#5 1#5 2#5, .and 3#5 1#5 2#5, .or 3#5 1#5 2#5, .xor 3#5 1#5 2#5, .andn 3#5 1#5 2#5,
    .shl 3#5 1#5 2#5, .shr 3#5 1#5 2#5, .sra 3#5 1#5 2#5].map some := by decide +kernel

theorem test_decode_scalar_alu_b : [
    0x04061100#32, 0x04461100#32, 0x04861100#32, 0x04C61100#32, 0x05061100#32, 0x05461101#32, 0x05861100#32, 0x05C61000#32,
    0x06061000#32, 0x06461000#32, 0x06861101#32, 0x06C61100#32, 0x07061001#32, 0x07461001#32, 0x07861101#32, 0x07C61000#32].map decodeSlot = [
    Instr.rol 3#5 1#5 2#5, .min 3#5 1#5 2#5, .max 3#5 1#5 2#5, .minu 3#5 1#5 2#5, .maxu 3#5 1#5 2#5, .cmp 3#5 1#5 2#5 1#4,
    .sel 3#5 1#5 2#5, .clz 3#5 1#5, .ctz 3#5 1#5, .popc 3#5 1#5, .bfx 3#5 1#5 2#5 1#4, .bfi 3#5 1#5 2#5, .sext 3#5 1#5 1#4,
    .zext 3#5 1#5 1#4, .addx 3#5 1#5 2#5 1#4, .mov 3#5 1#5].map some := by decide +kernel

theorem test_decode_scalar_immediate_a : [
    0x10061FFE#32, 0x10461FFE#32, 0x10861FFE#32, 0x10C61FFE#32, 0x1106103E#32, 0x1146103E#32, 0x1186103E#32, 0x11C61FFE#32,
    0x12061802#32, 0x12460800#32, 0x12861FFE#32].map decodeSlot = [
    Instr.addi 3#5 1#5 4094#12, .andi 3#5 1#5 4094#12, .ori 3#5 1#5 4094#12, .xori 3#5 1#5 4094#12, .shli 3#5 1#5 62#6,
    .shri 3#5 1#5 62#6, .srai 3#5 1#5 62#6, .cmpi 3#5 1#5 4094#12, .lit 3#5 1#5 2#2 2#10, .lit64 3#5 2#2, .muli 3#5 1#5 4094#12].map some := by decide +kernel

theorem test_decode_control_a : [
    0x200003FD#32, 0x204203FD#32, 0x208203FD#32, 0x20C203FD#32, 0x210203FD#32, 0x214203FD#32, 0x21801000#32, 0x21C203FD#32,
    0x220203FD#32].map decodeSlot = [
    Instr.br 1021#17, .brz 1#5 1021#17, .brnz 1#5 1021#17, .brany 1#3 1021#17, .brnone 1#3 1021#17, .jal 1#5 1021#17, .jr 1#5,
    .loop 1#5 1021#17, .loopi 1#5 1021#17].map some := by decide +kernel

theorem test_decode_predicate_name_a : [
    0x30061100#32, 0x30461100#32, 0x30861100#32, 0x30C61100#32, 0x31061000#32, 0x31461000#32, 0x31861000#32, 0x31C61000#32,
    0x32061000#32, 0x32461001#32, 0x32861100#32, 0x32C61001#32, 0x33061001#32, 0x33461101#32, 0x33861000#32, 0x33C61101#32].map decodeSlot = [
    Instr.kand 3#3 1#3 2#3, .kor 3#3 1#3 2#3, .kxor 3#3 1#3 2#3, .kandn 3#3 1#3 2#3, .knot 3#3 1#3, .kmov 3#3 1#3, .ktos 3#5 1#3,
    .kpopc 3#5 1#3, .kfirst 3#5 1#3, .ksetn 3#3 1#5 1#4, .nmk 3#4 1#5 2#5, .nset 3#4 1#5 1#4, .nget 3#5 1#4 1#4, .nadd 3#4 1#4 2#5 1#4,
    .nmov 3#4 1#4, .ncmp 3#5 1#4 2#4 1#4].map some := by decide +kernel

theorem test_decode_vector_alu_a : [
    0x40061151#32, 0x40461151#32, 0x40861151#32, 0x40C61151#32, 0x41061151#32, 0x41461151#32, 0x41861151#32, 0x41C61051#32,
    0x42061051#32, 0x42461150#32, 0x42861150#32, 0x42C61150#32, 0x43061151#32, 0x43461151#32, 0x43861151#32, 0x43C61151#32].map decodeSlot = [
    Instr.vadd 3#5 1#5 2#5 5#3 1#4, .vsub 3#5 1#5 2#5 5#3 1#4, .vmul 3#5 1#5 2#5 5#3 1#4, .vfma 3#5 1#5 2#5 5#3 1#4,
    .vfms 3#5 1#5 2#5 5#3 1#4, .vmin 3#5 1#5 2#5 5#3 1#4, .vmax 3#5 1#5 2#5 5#3 1#4, .vabs 3#5 1#5 5#3 1#4, .vneg 3#5 1#5 5#3 1#4,
    .vand 3#5 1#5 2#5 5#3, .vor 3#5 1#5 2#5 5#3, .vxor 3#5 1#5 2#5 5#3, .vshl 3#5 1#5 2#5 5#3 1#4, .vshr 3#5 1#5 2#5 5#3 1#4,
    .vsra 3#5 1#5 2#5 5#3 1#4, .vcmp 3#3 1#5 2#5 5#3 1#4].map some := by decide +kernel

theorem test_decode_vector_alu_b : [
    0x44061150#32, 0x44461050#32, 0x44861051#32, 0x44C61152#32, 0x45061154#32, 0x45461151#32, 0x45861051#32, 0x45C61051#32,
    0x46061151#32].map decodeSlot = [
    Instr.vsel 3#5 1#5 2#5 5#3, .vmov 3#5 1#5 5#3, .vbcast 3#5 1#5 5#3 1#4, .vdot4 3#5 1#5 2#5 5#3, .vdot2 3#5 1#5 2#5 5#3 4#4,
    .vsat 3#5 1#5 2#5 5#3 1#4, .vclz 3#5 1#5 5#3 1#4, .vpopc 3#5 1#5 5#3 1#4, .vmulh 3#5 1#5 2#5 5#3 1#4].map some := by decide +kernel

theorem test_decode_vector_convert_permute_a : [
    0x50061151#32, 0x50461006#32, 0x50861051#32, 0x50C61001#32, 0x51061001#32, 0x51461150#32, 0x51861150#32, 0x51C61150#32,
    0x52061151#32, 0x52461101#32, 0x52861001#32, 0x52C61050#32, 0x53061050#32, 0x53461050#32, 0x53861101#32, 0x53C61100#32].map decodeSlot = [
    Instr.vcvt 3#5 1#5 2#5 5#3 1#4, .vqmx 3#5 1#5 6#4, .vdqmx 3#5 1#5 5#3 1#4, .vtag 3#5 1#5 1#4, .vgtag 3#5 1#5 1#4,
    .vperm 3#5 1#5 2#5 5#3, .vshuf 3#5 1#5 2#5 5#3, .vrot 3#5 1#5 2#5 5#3, .vslide 3#5 1#5 2#5 5#3 1#4, .vpack 3#5 1#5 2#5 1#4,
    .vunpk 3#5 1#5 1#4, .vcmprs 3#5 1#5 5#3, .vexpnd 3#5 1#5 5#3, .viota 3#5 1#5 5#3, .vextr 3#5 1#5 2#5 1#4, .vins 3#5 1#5 2#5].map some := by decide +kernel

theorem test_decode_vector_convert_permute_b : [
    0x54061101#32].map decodeSlot = [
    Instr.vscl 3#5 1#5 2#5 1#4].map some := by decide +kernel

theorem test_decode_vector_reduce_search_a : [
    0x60061051#32, 0x60461051#32, 0x60861051#32, 0x60C61051#32, 0x61082351#32, 0x61482051#32, 0x61861051#32, 0x61C61150#32,
    0x62061051#32, 0x62461150#32, 0x62861003#32, 0x62C61150#32].map decodeSlot = [
    Instr.vredadd 3#5 1#5 5#3 1#4, .vredmin 3#5 1#5 5#3 1#4, .vredmax 3#5 1#5 5#3 1#4, .vscan 3#5 1#5 5#3 1#4,
    .vtopk 4#5 2#5 6#5 5#3 1#4, .vsorts 4#5 2#5 5#3 1#4, .vargmx 3#5 1#5 5#3 1#4, .vrand 3#5 1#5 2#5 5#3, .vhistx 3#5 1#5 5#3 1#4,
    .vredx 3#5 1#5 2#5 5#3 0#4, .vrndx 3#5 1#5 3#4, .vlut 3#5 1#5 2#5 5#3].map some := by decide +kernel

theorem test_decode_special_function_a : [
    0x70061054#32, 0x70461054#32, 0x70861054#32, 0x70C61054#32, 0x71061054#32, 0x71461154#32, 0x71861054#32, 0x71C61054#32,
    0x72061054#32, 0x72461054#32, 0x72861054#32].map decodeSlot = [
    Instr.fexp2 3#5 1#5 5#3 4#4, .flog2 3#5 1#5 5#3 4#4, .frcp 3#5 1#5 5#3 4#4, .frsq 3#5 1#5 5#3 4#4, .fsqrt 3#5 1#5 5#3 4#4,
    .fdiv 3#5 1#5 2#5 5#3 4#4, .ftanh 3#5 1#5 5#3 4#4, .fsigm 3#5 1#5 5#3 4#4, .fsin 3#5 1#5 5#3 4#4, .fcos 3#5 1#5 5#3 4#4,
    .ferf 3#5 1#5 5#3 4#4].map some := by decide +kernel

theorem test_decode_matrix_a : [
    0x80001000#32, 0x80400000#32, 0x80861050#32, 0x80C61050#32, 0x81060050#32, 0x81461151#32, 0x81861101#32, 0x81C61151#32,
    0x82001000#32, 0x82400001#32, 0x82801004#32].map decodeSlot = [
    Instr.mlds 1#5, .mswap, .mma 3#2 1#5 5#3, .mmas 3#2 1#5 5#3, .mzero 3#2 5#3, .mdrain 3#5 1#2 2#5 5#3 1#4, .mrdv 3#5 1#2 2#5 1#4,
    .mwrv 3#2 1#5 2#5 5#3 1#4, .mmode 1#5, .mwait 1#4, .mtrw 1#2 4#4].map some := by decide +kernel

theorem test_decode_local_memory_a : [
    0x900617FD#32, 0x904617FD#32, 0x908617FD#32, 0x90C617FD#32, 0x91061156#32, 0x91461156#32, 0x91861156#32, 0x91C61156#32,
    0x920617FD#32, 0x924617FD#32, 0x92861651#32, 0x92C61654#32, 0x93061100#32, 0x93401000#32, 0x93861000#32, 0x93C01101#32].map decodeSlot = [
    Instr.ld 3#5 1#5 1021#10, .st 3#5 1#5 1021#10, .vld 3#5 1#5 1#2 1021#10, .vst 3#5 1#5 1#2 1021#10, .vlds 3#5 1#5 2#5 5#3 1#2 2#2,
    .vsts 3#5 1#5 2#5 5#3 1#2 2#2, .vgath 3#5 1#5 2#5 5#3 1#2 2#2, .vscat 3#5 1#5 2#5 5#3 1#2 2#2, .ldw 3#5 1#5 1#2 1021#10,
    .vldw 3#5 1#5 1#2 1021#10, .qld 3#5 1#5 9#4 17#6, .qst 3#5 1#5 9#4 20#6, .talloc 3#5 1#5 2#5 0#4, .tfree 1#5, .tstat 3#5 1#5,
    .twait 1#5 2#5 1#4].map some := by decide +kernel

theorem test_decode_local_memory_b : [
    0x94001101#32, 0x94401000#32, 0x94800000#32].map decodeSlot = [
    Instr.tset 1#5 2#5 1#4, .icinv 1#5 0#4, .fetchb].map some := by decide +kernel

theorem test_decode_global_memory_a : [
    0xA0061660#32, 0xA0461660#32, 0xA0861660#32, 0xA0C61660#32, 0xA1061660#32, 0xA1461660#32, 0xA1861660#32, 0xA1C00660#32,
    0xA2061660#32, 0xA2461660#32, 0xA2861660#32, 0xA2C61660#32, 0xA3001640#32, 0xA3401640#32, 0xA386114A#32, 0xA3C6114A#32].map decodeSlot = [
    Instr.gld 3#5 1#5 1#2 9#4 32#6, .gst 3#5 1#5 1#2 9#4 32#6, .vgld 3#5 1#5 1#2 9#4 32#6, .vgst 3#5 1#5 1#2 9#4 32#6,
    .ldacq 3#5 1#5 1#2 9#4 32#6, .strel 3#5 1#5 1#2 9#4 32#6, .promacq 3#5 1#5 1#2 9#4 32#6, .fence 1#2 9#4 32#6,
    .atom 3#5 1#5 1#2 9#4 32#6, .atomr 3#5 1#5 1#2 9#4 32#6, .mred 3#5 1#5 1#2 9#4 32#6, .mredrd 3#5 1#5 1#2 9#4 32#6,
    .clwb 1#5 1#2 9#4 0#6, .clinv 1#5 1#2 9#4 0#6, .xcopy 3#5 1#5 2#5 9#4 1#2, .xgath 3#5 1#5 2#5 9#4 1#2].map some := by decide +kernel

theorem test_decode_global_memory_b : [
    0xA406114A#32, 0xA446114A#32].map decodeSlot = [
    Instr.xscat 3#5 1#5 2#5 9#4 1#2, .xfill 3#5 1#5 2#5 9#4 1#2].map some := by decide +kernel

theorem test_decode_names_a : [
    0xC0061000#32, 0xC0401000#32, 0xC0861001#32, 0xC0C61000#32, 0xC1061104#32, 0xC1461000#32, 0xC1861001#32, 0xC1C60000#32,
    0xC2061001#32, 0xC246114A#32].map decodeSlot = [
    Instr.subName 3#4 1#5, .unsub 1#5, .pub 3#4 1#5 1#4, .pubr 3#4 1#5, .ropen 3#4 1#4 2#5 4#4, .resub 3#4 1#5, .nhold 3#4 1#5 1#4,
    .nrel 3#4, .nqry 3#5 1#4 1#4, .pubx 3#4 1#5 2#5 9#4 1#2].map some := by decide +kernel

theorem test_decode_scheduling_sync_a : [
    0xD0000000#32, 0xD0401000#32, 0xD0801101#32, 0xD0C00000#32, 0xD1001001#32, 0xD1460001#32, 0xD1801001#32, 0xD1C04081#32,
    0xD2061000#32, 0xD2460001#32, 0xD2860000#32, 0xD2C01000#32, 0xD3001101#32, 0xD3401100#32, 0xD3861001#32, 0xD3C01001#32].map decodeSlot = [
    Instr.fend, .spawn 1#5, .launchr 1#5 2#5 1#4, .yield, .tcadd 1#5 1#4, .tcrd 3#5 1#4, .tcwait 1#5 1#4, .bar 4#5 1#5 1#4,
    .barrd 3#5 1#5, .timeq 3#5 1#4, .stamp 3#5, .prio 1#5, .ecfg 1#5 2#5 1#4, .ego 1#5 2#5, .estat 3#5 1#5 1#4, .eabort 1#5 1#4].map some := by decide +kernel

theorem test_decode_system_trap_a : [
    0xE0000FFE#32, 0xE0400001#32, 0xE0860FFE#32, 0xE0C01FFE#32, 0xE1000001#32, 0xE1401101#32, 0xE1801100#32, 0xE1C61001#32,
    0xE2001000#32, 0xE2401000#32, 0xE2861000#32].map decodeSlot = [
    Instr.trap 4094#12, .tret 1#4, .ctlrd 3#5 4094#12, .ctlwr 1#5 4094#12, .brk 1#4, .evpost 1#5 2#5 1#4, .moncfg 1#5 2#5,
    .monrd 3#5 1#5 1#4, .haltc 1#5, .ctxsv 1#5, .ctxld 3#5 1#5].map some := by decide +kernel

/-! Words of 15 R381 and R384 to R386, one of every element operation, and the header-only bundles of 02 R40. -/

theorem test_decode_element_a : [
    0x00679D94#32, 0x04769D96#32, 0x08769D96#32, 0x0C769D96#32, 0x10769D94#32, 0x14769D94#32, 0x18769D94#32, 0x1C679D94#32,
    0x20679D94#32, 0x24769D56#32, 0x28769D54#32, 0x2C679D94#32, 0x30769D56#32, 0x34769D54#32].map decodeEdge = [
    Instr.xadd 3#5 7#5 19#5 ⟨5#4, 0#2⟩, .xrnd 3#5 19#5 5#4 2#2, .cvt 3#5 19#5 5#4 2#2, .qmx 3#5 19#5 5#4 2#2, .dqmx 3#5 19#5 ⟨5#4, 0#2⟩,
    .cmpz 3#5 19#5 ⟨5#4, 0#2⟩, .dcmpz 3#5 19#5 ⟨5#4, 0#2⟩, .mrr 3#5 7#5 19#5 ⟨5#4, 0#2⟩, .mtag 3#5 7#5 19#5 ⟨5#4, 0#2⟩, .splitE 3#5 19#5 21#5 5#4 2#2,
    .dup 3#5 19#5 21#5 ⟨5#4, 0#2⟩, .gate 3#5 7#5 19#5 ⟨5#4, 0#2⟩, .steer 3#5 19#5 21#5 5#4 2#2, .cnt 3#5 19#5 21#5 ⟨5#4, 0#2⟩].map some := by decide +kernel

theorem test_decode_element_b : [
    0x38769D96#32, 0x3C769D96#32, 0x40679D94#32, 0x44769D54#32, 0x48769D96#32, 0x4C769D54#32, 0x50769D96#32, 0x5476B582#32,
    0x58769D94#32, 0x5C769D54#32, 0x60769D94#32, 0x64769D94#32, 0x68769D94#32, 0x6C76B580#32].map decodeEdge = [
    Instr.lim 3#5 19#5 5#4 2#2, .fifo 3#5 19#5 5#4 2#2, .pack 3#5 7#5 19#5 ⟨5#4, 0#2⟩, .unpk 3#5 19#5 21#5 ⟨5#4, 0#2⟩, .scl 3#5 19#5 5#4 2#2,
    .hist 3#5 19#5 21#5 ⟨5#4, 0#2⟩, .eosg 3#5 19#5 5#4 2#2, .sink 3#5 2#2, .srcn 3#5 19#5 ⟨5#4, 0#2⟩, .pubn 3#5 19#5 21#5 ⟨5#4, 0#2⟩, .rin 3#5 19#5 ⟨5#4, 0#2⟩,
    .rout 3#5 19#5 ⟨5#4, 0#2⟩, .edgeNop 3#5 19#5 ⟨5#4, 0#2⟩, .halte 3#5].map some := by decide +kernel

theorem test_decode_header_only : [
    0xB0009200#32, 0xB0008000#32].map decodeHeaderOnly = [
    Instr.nop 4#4 9#4, .waitPoint 4#4].map some := by decide +kernel

/-! One ill-formed term for each check of an operand field (02 R45 and the descriptions; 15 R378, R381, R382). -/

theorem test_ill_formed_a : [
    Instr.cmp 3#5 1#5 2#5 15#4, .bfx 3#5 1#5 2#5 15#4, .sext 3#5 1#5 15#4, .zext 3#5 1#5 15#4, .lit 3#5 1#5 2#2 1023#10,
    .ksetn 3#3 1#5 15#4, .nset 3#4 1#5 15#4, .nget 3#5 1#4 15#4, .nadd 3#4 1#4 2#5 15#4, .ncmp 3#5 1#4 2#4 15#4,
    .vadd 3#5 1#5 2#5 5#3 15#4, .vsub 3#5 1#5 2#5 5#3 15#4, .vmul 3#5 1#5 2#5 5#3 15#4, .vfma 3#5 1#5 2#5 5#3 15#4,
    .vfms 3#5 1#5 2#5 5#3 15#4, .vmin 3#5 1#5 2#5 5#3 15#4, .vmax 3#5 1#5 2#5 5#3 15#4, .vabs 3#5 1#5 5#3 15#4, .vneg 3#5 1#5 5#3 15#4,
    .vshl 3#5 1#5 2#5 5#3 15#4, .vshr 3#5 1#5 2#5 5#3 15#4, .vsra 3#5 1#5 2#5 5#3 15#4, .vbcast 3#5 1#5 5#3 15#4,
    .vdot2 3#5 1#5 2#5 5#3 15#4].any Instr.wf = false := by decide +kernel

theorem test_ill_formed_b : [
    Instr.vsat 3#5 1#5 2#5 5#3 15#4, .vclz 3#5 1#5 5#3 15#4, .vpopc 3#5 1#5 5#3 15#4, .vmulh 3#5 1#5 2#5 5#3 15#4,
    .vcvt 3#5 1#5 2#5 5#3 15#4, .vqmx 3#5 1#5 15#4, .vdqmx 3#5 1#5 5#3 15#4, .vtag 3#5 1#5 15#4, .vgtag 3#5 1#5 15#4,
    .vpack 3#5 1#5 2#5 15#4, .vunpk 3#5 1#5 15#4, .vextr 3#5 1#5 2#5 15#4, .vscl 3#5 1#5 2#5 15#4, .vredadd 3#5 1#5 5#3 15#4,
    .vredmin 3#5 1#5 5#3 15#4, .vredmax 3#5 1#5 5#3 15#4, .vscan 3#5 1#5 5#3 15#4, .vtopk 31#5 2#5 6#5 5#3 1#4,
    .vtopk 4#5 31#5 6#5 5#3 1#4, .vtopk 4#5 2#5 31#5 5#3 1#4, .vtopk 4#5 2#5 6#5 5#3 15#4, .vsorts 31#5 2#5 5#3 1#4,
    .vsorts 4#5 31#5 5#3 1#4, .vsorts 4#5 2#5 5#3 15#4].any Instr.wf = false := by decide +kernel

theorem test_ill_formed_c : [
    Instr.vargmx 3#5 1#5 5#3 15#4, .vhistx 3#5 1#5 5#3 15#4, .vredx 3#5 1#5 2#5 5#3 15#4, .vrndx 3#5 1#5 15#4, .fexp2 3#5 1#5 5#3 15#4,
    .flog2 3#5 1#5 5#3 15#4, .frcp 3#5 1#5 5#3 15#4, .frsq 3#5 1#5 5#3 15#4, .fsqrt 3#5 1#5 5#3 15#4, .fdiv 3#5 1#5 2#5 5#3 15#4,
    .ftanh 3#5 1#5 5#3 15#4, .fsigm 3#5 1#5 5#3 15#4, .fsin 3#5 1#5 5#3 15#4, .fcos 3#5 1#5 5#3 15#4, .ferf 3#5 1#5 5#3 15#4,
    .mdrain 3#5 1#2 31#5 5#3 1#4, .mdrain 3#5 1#2 2#5 5#3 15#4, .mrdv 3#5 1#2 2#5 15#4, .mwrv 3#2 1#5 2#5 5#3 15#4, .mtrw 1#2 15#4,
    .vld 3#5 1#5 3#2 1021#10, .vst 3#5 1#5 3#2 1021#10, .vlds 3#5 1#5 2#5 5#3 3#2 2#2, .vsts 3#5 1#5 2#5 5#3 3#2 2#2].any Instr.wf = false := by decide +kernel

theorem test_ill_formed_d : [
    Instr.vgath 3#5 1#5 2#5 5#3 3#2 2#2, .vscat 3#5 1#5 2#5 5#3 3#2 2#2, .ldw 3#5 1#5 3#2 1021#10, .vldw 3#5 1#5 3#2 1021#10,
    .qld 3#5 1#5 0#4 17#6, .qld 3#5 1#5 9#4 63#6, .qst 3#5 1#5 9#4 63#6, .talloc 3#5 1#5 2#5 15#4, .twait 1#5 2#5 0#4,
    .tset 1#5 2#5 15#4, .icinv 1#5 15#4, .gld 3#5 1#5 1#2 0#4 32#6, .gld 3#5 1#5 1#2 9#4 63#6, .gst 3#5 1#5 1#2 9#4 63#6,
    .vgld 3#5 1#5 1#2 0#4 32#6, .vgld 3#5 1#5 1#2 9#4 63#6, .vgst 3#5 1#5 1#2 9#4 63#6, .ldacq 3#5 1#5 1#2 0#4 32#6,
    .ldacq 3#5 1#5 1#2 9#4 63#6, .strel 3#5 1#5 1#2 9#4 63#6, .promacq 3#5 1#5 1#2 0#4 32#6, .promacq 3#5 1#5 1#2 9#4 63#6,
    .fence 1#2 9#4 63#6, .atom 3#5 1#5 1#2 9#4 63#6].any Instr.wf = false := by decide +kernel

theorem test_ill_formed_e : [
    Instr.atomr 3#5 1#5 1#2 0#4 32#6, .atomr 3#5 1#5 1#2 9#4 63#6, .mred 3#5 1#5 1#2 9#4 63#6, .mredrd 3#5 1#5 1#2 0#4 32#6,
    .mredrd 3#5 1#5 1#2 9#4 63#6, .clwb 1#5 1#2 9#4 63#6, .clinv 1#5 1#2 9#4 63#6, .xcopy 3#5 1#5 2#5 0#4 1#2,
    .xgath 3#5 1#5 2#5 0#4 1#2, .xscat 3#5 1#5 2#5 0#4 1#2, .xfill 3#5 1#5 2#5 0#4 1#2, .pub 3#4 1#5 15#4, .ropen 3#4 1#4 2#5 15#4,
    .nhold 3#4 1#5 15#4, .nqry 3#5 1#4 0#4, .pubx 3#4 1#5 2#5 0#4 1#2, .tcadd 1#5 0#4, .tcrd 3#5 0#4, .tcwait 1#5 0#4,
    .bar 31#5 1#5 1#4, .bar 4#5 31#5 1#4, .bar 4#5 1#5 0#4, .barrd 3#5 31#5, .timeq 3#5 0#4].any Instr.wf = false := by decide +kernel

theorem test_ill_formed_f : [
    Instr.estat 3#5 1#5 0#4, .tret 15#4, .monrd 3#5 1#5 0#4, .nop 4#4 0#4, .waitPoint 0#4, .xadd 31#5 7#5 19#5 ⟨5#4, 0#2⟩,
    .xadd 3#5 31#5 19#5 ⟨5#4, 0#2⟩, .xadd 3#5 7#5 19#5 ⟨5#4, 2#2⟩, .xadd 3#5 7#5 31#5 ⟨5#4, 0#2⟩, .xadd 3#5 7#5 19#5 ⟨15#4, 0#2⟩, .xrnd 31#5 19#5 5#4 2#2, .xrnd 3#5 31#5 5#4 2#2,
    .xrnd 3#5 19#5 15#4 2#2, .cvt 31#5 19#5 5#4 2#2, .cvt 3#5 31#5 5#4 2#2, .cvt 3#5 19#5 15#4 2#2, .qmx 31#5 19#5 5#4 2#2,
    .qmx 3#5 31#5 5#4 2#2, .qmx 3#5 19#5 15#4 2#2, .dqmx 31#5 19#5 ⟨5#4, 0#2⟩, .dqmx 3#5 31#5 ⟨5#4, 0#2⟩, .dqmx 3#5 19#5 ⟨15#4, 0#2⟩, .cmpz 31#5 19#5 ⟨5#4, 0#2⟩,
    .cmpz 3#5 31#5 ⟨5#4, 0#2⟩, .cmpz 3#5 19#5 ⟨15#4, 0#2⟩].any Instr.wf = false := by decide +kernel

theorem test_ill_formed_g : [
    Instr.dcmpz 31#5 19#5 ⟨5#4, 0#2⟩, .dcmpz 3#5 31#5 ⟨5#4, 0#2⟩, .dcmpz 3#5 19#5 ⟨15#4, 0#2⟩, .mrr 31#5 7#5 19#5 ⟨5#4, 0#2⟩, .mrr 3#5 31#5 19#5 ⟨5#4, 0#2⟩,
    .mrr 3#5 7#5 31#5 ⟨5#4, 0#2⟩, .mrr 3#5 7#5 19#5 ⟨15#4, 0#2⟩, .mtag 31#5 7#5 19#5 ⟨5#4, 0#2⟩, .mtag 3#5 31#5 19#5 ⟨5#4, 0#2⟩, .mtag 3#5 7#5 31#5 ⟨5#4, 0#2⟩,
    .mtag 3#5 7#5 19#5 ⟨15#4, 0#2⟩, .splitE 31#5 19#5 21#5 5#4 2#2, .splitE 3#5 31#5 21#5 5#4 2#2, .splitE 3#5 19#5 31#5 5#4 2#2,
    .splitE 3#5 19#5 21#5 15#4 2#2, .dup 31#5 19#5 21#5 ⟨5#4, 0#2⟩, .dup 3#5 31#5 21#5 ⟨5#4, 0#2⟩, .dup 3#5 19#5 31#5 ⟨5#4, 0#2⟩, .dup 3#5 19#5 21#5 ⟨15#4, 0#2⟩,
    .gate 31#5 7#5 19#5 ⟨5#4, 0#2⟩, .gate 3#5 31#5 19#5 ⟨5#4, 0#2⟩, .gate 3#5 7#5 31#5 ⟨5#4, 0#2⟩, .gate 3#5 7#5 19#5 ⟨15#4, 0#2⟩, .steer 31#5 19#5 21#5 5#4 2#2].any Instr.wf = false := by decide +kernel

theorem test_ill_formed_h : [
    Instr.steer 3#5 31#5 21#5 5#4 2#2, .steer 3#5 19#5 31#5 5#4 2#2, .steer 3#5 19#5 21#5 15#4 2#2, .cnt 31#5 19#5 21#5 ⟨5#4, 0#2⟩,
    .cnt 3#5 31#5 21#5 ⟨5#4, 0#2⟩, .cnt 3#5 19#5 31#5 ⟨5#4, 0#2⟩, .cnt 3#5 19#5 21#5 ⟨15#4, 0#2⟩, .lim 31#5 19#5 5#4 2#2, .lim 3#5 31#5 5#4 2#2,
    .lim 3#5 19#5 15#4 2#2, .fifo 31#5 19#5 5#4 2#2, .fifo 3#5 31#5 5#4 2#2, .fifo 3#5 19#5 15#4 2#2, .pack 31#5 7#5 19#5 ⟨5#4, 0#2⟩,
    .pack 3#5 31#5 19#5 ⟨5#4, 0#2⟩, .pack 3#5 7#5 31#5 ⟨5#4, 0#2⟩, .pack 3#5 7#5 19#5 ⟨15#4, 0#2⟩, .unpk 31#5 19#5 21#5 ⟨5#4, 0#2⟩, .unpk 3#5 31#5 21#5 ⟨5#4, 0#2⟩,
    .unpk 3#5 19#5 31#5 ⟨5#4, 0#2⟩, .unpk 3#5 19#5 21#5 ⟨15#4, 0#2⟩, .scl 31#5 19#5 5#4 2#2, .scl 3#5 31#5 5#4 2#2, .scl 3#5 19#5 15#4 2#2].any Instr.wf = false := by decide +kernel

theorem test_ill_formed_i : [
    Instr.hist 31#5 19#5 21#5 ⟨5#4, 0#2⟩, .hist 3#5 31#5 21#5 ⟨5#4, 0#2⟩, .hist 3#5 19#5 31#5 ⟨5#4, 0#2⟩, .hist 3#5 19#5 21#5 ⟨15#4, 0#2⟩, .eosg 31#5 19#5 5#4 2#2,
    .eosg 3#5 31#5 5#4 2#2, .eosg 3#5 19#5 15#4 2#2, .sink 31#5 2#2, .srcn 31#5 19#5 ⟨5#4, 0#2⟩, .srcn 3#5 31#5 ⟨5#4, 0#2⟩, .srcn 3#5 19#5 ⟨15#4, 0#2⟩,
    .pubn 31#5 19#5 21#5 ⟨5#4, 0#2⟩, .pubn 3#5 31#5 21#5 ⟨5#4, 0#2⟩, .pubn 3#5 19#5 31#5 ⟨5#4, 0#2⟩, .pubn 3#5 19#5 21#5 ⟨15#4, 0#2⟩, .rin 31#5 19#5 ⟨5#4, 0#2⟩,
    .rin 3#5 31#5 ⟨5#4, 0#2⟩, .rin 3#5 19#5 ⟨15#4, 0#2⟩, .rout 31#5 19#5 ⟨5#4, 0#2⟩, .rout 3#5 31#5 ⟨5#4, 0#2⟩, .rout 3#5 19#5 ⟨15#4, 0#2⟩, .edgeNop 31#5 19#5 ⟨5#4, 0#2⟩,
    .edgeNop 3#5 31#5 ⟨5#4, 0#2⟩, .edgeNop 3#5 19#5 ⟨15#4, 0#2⟩].any Instr.wf = false := by decide +kernel

theorem test_ill_formed_j : [
    Instr.halte 31#5, .lit 3#5 1#5 2#2 0#10, .vredx 3#5 1#5 2#5 5#3 1#4, .talloc 3#5 1#5 2#5 1#4, .icinv 1#5 1#4,
    .clwb 1#5 1#2 9#4 1#6, .clinv 1#5 1#2 9#4 1#6, .clwb 1#5 1#2 9#4 2#6].any Instr.wf = false := by decide +kernel
/-! Words of the spec's examples: 02 R42, 03, 05, 06, 14 R354. -/

theorem test_example_words : [
    0x05524284#32, 0x100C6FF8#32, 0x120E0000#32, 0x220A0005#32, 0xE092000A#32, 0xE0C04009#32, 0x40C61123#32, 0x61102233#32,
    0x82009000#32, 0x8000A000#32, 0x80400000#32, 0x81C03023#32, 0x82400000#32, 0x8080B000#32, 0x81580083#32, 0xE0000012#32,
    0xE0400001#32, 0xE1000003#32, 0xE1403202#32].map decodeSlot = [
    Instr.cmp 9#5 4#5 5#5 4#4, .addi 6#5 6#5 0xFF8#12, .lit 7#5 0#5 0#2 0#10, .loopi 5#5 5#17, .ctlrd 9#5 0x00A#12, .ctlwr 4#5 0x009#12,
    .vfma 3#5 1#5 2#5 2#3 3#4, .vtopk 8#5 2#5 4#5 3#3 3#4, .mmode 9#5, .mlds 10#5, .mswap, .mwrv 0#2 3#5 0#5 2#3 3#4, .mwait 0#4,
    .mma 0#2 11#5 0#3, .mdrain 12#5 0#2 1#5 0#3 3#4, .trap 0x12#12, .tret 1#4, .brk 3#4, .evpost 3#5 4#5 2#4].map some := by decide +kernel

/-! Values of the spec's examples. -/

/-- 03 R69, R71, R79, R80. -/
theorem test_scalar_examples :
    divS (-7#64) 2#64 = -3#64 ∧ remS (-7#64) 2#64 = -1#64 ∧ remS 7#64 (-2#64) = 1#64 ∧ divS 15#64 0#64 = BitVec.allOnes 64 ∧
    bitField false 0xF3A50000#64 0xC14#64 = 0xF3A#64 ∧ bitField true 0xF3A50000#64 0xC14#64 = 0xFFFFFFFFFFFFFF3A#64 ∧
    nameGet 1#4 0x3A7001230000000402000005#96 = 0x002 ∧ nameGet 2#4 0x3A7001230000000402000005#96 = 0x001 ∧
    nameSet 1#4 0x3A7001230000000402000005#96 (0x002 + 0x3FF) = 0x3A7001230000000401000005#96 := by decide +kernel

/-- 04, worked conversions of R98. -/
theorem test_conversion_examples :
    [(4#4, 0, 0, 0x3F808000), (4#4, 0, 0, 0x3F818000), (4#4, 4, 0x3FFFFFFF, 0x3F804000), (4#4, 4, 0x40000000, 0x3F804000),
     (5#4, 0, 0, 0x477FF000), (5#4, 1, 0, 0x477FF000), (5#4, 0, 0, 0x33800000), (5#4, 0, 0, 0x33000000), (2#4, 0, 0, 0xC0200000),
     (2#4, 0, 0, 0x43960000)].map (fun (p : BitVec 4 × Nat × Nat × Nat) => cvtElem 3#4 p.1 p.2.1 p.2.2.1 p.2.2.2) =
    [(0x3F80, flNX), (0x3F82, flNX), (0x3F81, flNX), (0x3F80, flNX), (0x7C00, flOF ||| flNX), (0x7BFF, flNX), (0x0001, 0#5),
     (0x0000, flUF ||| flNX), (0xFE, flNX), (0x7F, flNV)] := by decide +kernel

/-- 04, worked quantisation into MX-E2M1 (R100, R101). -/
theorem test_quantisation_example :
    quantizeMx 10#4 (([0x40400000, 0xBF400000, 0x41200000, 0x41700000, 0x3DCCCCCD, 0x80000000] ++ List.replicate 26 0).map (decodeElem 3#4)) =
      ⟨0x80, [0x3, 0x9, 0x6, 0x7, 0x0, 0x8] ++ List.replicate 26 0, 0x07#5⟩ ∧
    [0x3, 0x9, 0x6, 0x7, 0x0, 0x8].map (fun e => (dequantizeMx 10#4 0x80 e).1) =
      [0x40400000, 0xBF800000, 0x41000000, 0x41400000, 0, 0x80000000] := by decide +kernel

/-- 04, worked window saturation (R104, R105). -/
theorem test_window_example :
    let c : WCell := { sig := BitVec.ofNat 96 (2 ^ 95 - 1), anch := -10#10 }
    let c1 := windowAdd c 1 (-10)
    let c2 := windowAdd c1 1 (-10)
    c1 = { sig := BitVec.ofNat 96 (2 ^ 94), anch := -9#10 } ∧ c2 = { c1 with z := true } ∧ drainWindow c2 fmtFP32 = (0x6A000000, flNX) := by
  decide +kernel

/-- 04, worked exact sum (R107 to R110). -/
theorem test_mangle_example :
    let m := ([0x3F800000, 0x33800000, 0xBF800000, 0x33800000].map (decodeElem 3#4)).foldl M320.add .empty
    m.v = BitVec.ofNat 320 (2 ^ 126) ∧ m.count = 4#41 ∧ m.az = false ∧ m.round fmtFP32 = (0x34000000, 0#5) ∧
    cxpEncode m = ⟨0x027E#16, [1#32]⟩ ∧ (regOfCxp m).data = BitVec.ofNat 2048 (4 + 0x027E * 2 ^ 64 + 2 ^ 96) := by decide +kernel

/-- 05 R133, the two-shard top-k: the six real pairs in order. -/
theorem test_topk_example :
    topkSort 3#4 [(0x40400000, 40), (0x7FC00000, 2), (0, 17), (0x40400000, 12), (0x80000000, 9), (0xFF800000, 5)] =
      [(0x40400000, 12), (0x40400000, 40), (0x80000000, 9), (0, 17), (0xFF800000, 5), (0x7FC00000, 2)] := by decide +kernel

/-- 05, reproducible stochastic conversion (R134). -/
theorem test_vrand_example : vrandWord 1#64 0#64 = 0xFC2EC6C0#64 ∧ cvtElem 3#4 4#4 4 0xFC2EC6C0 0x3F804000 = (0x3F80, flNX) := by
  decide +kernel

/-- 06, the MXFP4 product: the cell after its term, drained to FP32 and to BF16 (R104, R105, R157). -/
theorem test_matrix_example :
    let c := addTerms 10#4 10#4 0x7E [0x5, 0xB, 0x7, 0x1] 0x83 [0x2, 0x6, 0xF, 0x3] { sig := 13421773#96, anch := -27#10 }
    c = { sig := BitVec.ofInt 96 (-41057202995), anch := -27#10 } ∧ drainCell 3#4 c = (0xC398F333, flNX) ∧ drainCell 4#4 c = (0xC399, flNX) := by
  decide +kernel

/-- 01 R24, the firing identifier. -/
theorem test_fireid_example :
    fidTask 0x0123000045000002#64 = 0x0123#16 ∧ fidGen 0x0123000045000002#64 = 0x000045#24 ∧ fidOrd 0x0123000045000002#64 = 2#24 := by
  decide +kernel

/-! Single steps of small states. -/

/-- A core that runs a firing, and the machine that holds it. -/
def core0 : Core := { fwm := false, halt := .no, running := true }
def s0 : State := { core := core0 }

/-- The core after an instruction and its latency; the answer's core. -/
def coreOf (o : Out) : Core :=
  match o with
  | .next t => t.core
  | _ => core0
def issueOf (o : Out) : Issue :=
  match o with
  | .next t => t.issue
  | _ => {}

def answers (o : Out) : Bool :=
  match o with
  | .next _ => true
  | _ => false

def ticks3 (c : Core) : Core := c.tick.tick.tick

/-- s with scalar registers 1, 2, 3 set. -/
def withS (x y z : W64) : State := { s0 with core := ((core0.setS 1#5 x).setS 2#5 y).setS 3#5 z }
/-- s with vector registers 1, 2, 3 set. -/
def withV (x y z : VReg) : State := { s0 with core := ((core0.setV 1#5 x).setV 2#5 y).setV 3#5 z }

/-- 03 R68: the carry out of bit 63 is dropped. -/
theorem test_add_wraps : (coreOf (exec (.add 3#5 1#5 2#5) (withS (BitVec.allOnes 64) 2#64 0#64))).tick.s 3#5 = 1#64 := by decide +kernel
/-- 03 R68: the high half of a signed and of an unsigned product. -/
theorem test_mulh : (ticks3 (coreOf (exec (.mulh 3#5 1#5 2#5) (withS (-1#64) 2#64 0#64)))).s 3#5 = BitVec.allOnes 64 ∧
    (ticks3 (coreOf (exec (.mulhu 3#5 1#5 2#5) (withS (-1#64) 2#64 0#64)))).s 3#5 = 1#64 := by decide +kernel
/-- 03 R65: a result for s0 is dropped. -/
theorem test_s0_stays_zero : (coreOf (exec (.add 0#5 1#5 2#5) (withS 1#64 2#64 0#64))).tick.s 0#5 = 0#64 := by decide +kernel
/-- 03 R75: a branch back by one word; BRZ with its register zero and not. -/
theorem test_brz : (issueOf (exec (.brz 1#5 0x1FFFF#17) (withS 0#64 0#64 0#64))).redirect = some (-4#56) ∧
    (issueOf (exec (.brz 1#5 0x1FFFF#17) (withS 1#64 0#64 0#64))).redirect = none := by decide +kernel
/-- 03 R76: LOOPI 0 counts 32. -/
theorem test_loopi_zero_is_32 : (coreOf (exec (.loopi 0#5 5#17) { s0 with issue := { len := 8 } })).tick.regs.lpcnt = 32#64 := by decide +kernel
/-- 05 R118, R120: INT32 addition in lane 0 alone, lane 1 masked off. -/
theorem test_vadd_predicate :
    let s := withV { tag := 1#4, data := 0x0000000500000007#2048 } { tag := 1#4, data := 0x0000000100000002#2048 } { data := 0x0000000900000000#2048 }
    let t : State := { s with core := s.core.setK 1#3 1#64 }
    let v := (coreOf (exec (.vadd 3#5 1#5 2#5 1#3 1#4) t)).tick.tick.v 3#5
    v.tag = 1#4 ∧ lane v 0 = 9 ∧ lane v 1 = 9 := by decide +kernel
/-- 04 R91: BF16 is no operand of an INT32 addition; the trap is the value 0x07 of 14 R348. -/
theorem test_vadd_format_mismatch :
    (coreOf (exec (.vadd 3#5 1#5 2#5 0#3 1#4) (withV { tag := 4#4 } {} {}))).trapcause = 0x07#6 := by decide +kernel
/-- 05 R130: VROT by one lane. -/
theorem test_vrot :
    let s := { withV { data := 0x0000000500000007#2048 } {} {} with core := (withV { data := 0x0000000500000007#2048 } {} {}).core.setS 4#5 1#64 }
    lane ((coreOf (exec (.vrot 3#5 1#5 4#5 0#3) s)).tick.tick.v 3#5) 0 = 5 ∧
    lane ((coreOf (exec (.vrot 3#5 1#5 4#5 0#3) s)).tick.tick.v 3#5) 63 = 7 := by decide +kernel
/-- 07 R176: ST at 8 bytes below the register, the last 8 bytes of the A buffer; LD reads them back. -/
theorem test_st_then_ld :
    let c := coreOf (exec (.st 2#5 1#5 0x3FF#10) (withS 0xC0000#64 0x0102030405060708#64 0#64))
    rd c.bufA 0xBFFF8 = 8#8 ∧ rd c.bufA 0xBFFFF = 1#8 ∧
    (coreOf (exec (.ld 3#5 1#5 0x3FF#10) { s0 with core := c })).tick.tick.s 3#5 = 0x0102030405060708#64 := by decide +kernel
/-- 07 R169: one word further is out of bounds. -/
theorem test_st_out_of_bounds : (coreOf (exec (.st 2#5 1#5 0#10) (withS 0xC0000#64 1#64 0#64))).trapcause = 0x09#6 := by decide +kernel
/-- 13 R327: TCADD sign-extends 17 bits. -/
theorem test_tcadd : (coreOf (exec (.tcadd 1#5 3#4) (withS 0x1FFFF#64 0#64 0#64))).tcd = [(3, -1)] := by decide +kernel
/-- 14 R354: TRAP enters firmware at the vector with its immediate as value. -/
theorem test_trap :
    let s : State := { withS 0#64 0#64 0#64 with core := { core0 with trapvec := 0x8000#56, regs := { core0.regs with pc := 0x100#56 } }, issue := { len := 8, commit := true } }
    let c := coreOf (exec (.trap 0x12#12) s)
    c.fwm = true ∧ c.trapcause = 0x12#6 ∧ c.trappc = 0x108#56 ∧ c.trapval = 0x12#64 ∧ c.regs.pc = 0x9200#56 := by decide +kernel
/-- 14 R355: TRET outside firmware is ILLEGAL_OP. -/
theorem test_tret_illegal : (coreOf (exec (.tret 0#4) s0)).trapcause = 0x02#6 := by decide +kernel
/-- 03 R81: FPMODE keeps its value where the written mode is reserved. -/
theorem test_fpmode_reserved : ((core0.ctlWrite 0x009#12 4#64).ctlWrite 0x009#12 5#64).regs.fpmode = 4#3 := by decide +kernel
/-- 10 R279: NHOLD sends one token to the name's home. -/
theorem test_nhold_token :
    (match exec (.nhold 2#4 1#5 1#4) (withS 5#64 0#64 0#64) with | .next t => t.net.map Token.msg | _ => []) = [Msg.nhold 0#96 true 5#64] := by
  decide +kernel
/-- 12 R310: SPAWN of more than one child from an ordinal that is not 0 is refused with LAUNCH_RECORD. -/
theorem test_spawn_ordinal : (coreOf (exec (.spawn 1#5) { withS 1#64 0#64 0#64 with core :=
    { (withS 1#64 0#64 0#64).core with regs := { (withS 1#64 0#64 0#64).core.regs with fireid := 1#64 } } })).trapcause = 0x16#6 := by decide +kernel

/-- 16 R403, 02 R40: a step runs the placed header-only bundle; with STALL 3 it owes 3 ticks. -/
theorem test_step_runs_placed_nop :
    (match step (State.reset.withFetchWord 32 0xB0000600) with | .next t => (t.core.stallrem, t.core.regs.pc, t.core.cycle) | _ => (0, 0#56, 0#64)) =
      (3, 4#56, 1#64) := by decide +kernel

/-- A core whose instruction store holds one line at address 0, and whose next bundle is its first. -/
def withLine (x : BitVec 512) : State := { s0 with core := { core0 with istore := [(0, x)] } }

/-- 03, the counted loop: header 0xB8000000 and LOOPI's word, as a step. -/
theorem test_step_runs_loopi_bundle :
    (match step (withLine 0x220A0005B8000000#512) with
      | .next t => (t.core.regs.lpcnt, t.core.regs.lpbeg, t.core.regs.lpexit, t.core.regs.pc) | _ => (0#64, 0#56, 0#56, 0#56)) =
      (5#64, 8#56, 20#56, 8#56) := by decide +kernel
/-! Witnesses: for each statement of Certificates/Slice0/Obligations.lean that has hypotheses, states and operands that meet them,
clause by clause. -/

theorem witness_DecodeEncodeRoundTrip :
    encode (.add 31#5 0#5 31#5) = some 0x003E0F80#32 ∧ (Instr.add 31#5 0#5 31#5).wf = true ∧
    (encode (.br 0x10000#17)).isSome = true ∧ (Instr.br 0x10000#17).wf = true ∧ (encode (.xadd 5#5 6#5 18#5 ⟨7#4, 0#2⟩)).isSome = true := by decide +kernel

theorem witness_HeaderOnlyShapes :
    ([0xB0020000#32, 0xB0000200#32, 0xB0002000#32, 0xB0000000#32].all fun h => hSig h == 0xB#4 && hMask h == 0#9 && hRes h == 0#9) = true ∧
    hLitc 0xB0020000#32 ≠ 0#2 ∧ (hLitc 0xB0000200#32 = 0#2 ∧ hStall 0xB0000200#32 ≠ 0#4) ∧
    (hLitc 0xB0002000#32 = 0#2 ∧ hStall 0xB0002000#32 = 0#4 ∧ hWait 0xB0002000#32 ≠ 0#4) ∧
    (hLitc 0xB0000000#32 = 0#2 ∧ hStall 0xB0000000#32 = 0#4 ∧ hWait 0xB0000000#32 = 0#4) ∧ (4#56).extractLsb' 0 2 = 0#2 := by decide +kernel

/-- The state in which an event stands first on the agenda. -/
def sEvent : State := { s0 with agenda := [.event 0 .firingRetire []] }
/-- The state in which element 0 of port 0 runs XADD next. -/
def sElem : State := State.reset.withFetchWord 32 0x00A6959C

theorem witness_StepRuns_event : sEvent.agenda = .event 0 .firingRetire [] :: [] ∧ encode .firingRetire = none := by decide +kernel

theorem witness_StepRuns_element : sElem.agenda = [.element 0 0] ∧ (sElem.block 0).runs sElem = true ∧ ((sElem.block 0).elem 0).halted = false ∧
    ((sElem.block 0).plane.any fun m => choose m 0 (runnable { sElem with agenda := [] } (sElem.block 0) m 0) == some 5 &&
      decodeEdge (entryWord (planeEntry m 0 5)) == some (.xadd 5#5 6#5 18#5 ⟨7#4, 0#2⟩)) = true := by decide +kernel

/-- The state that runs a NOP next, and one that runs LOOPI. -/
def sNop : State := State.reset.withFetchWord 32 0xB0000600
def sLoop : State := withLine 0x220A0005B8000000#512

theorem witness_StepRuns_header : sNop.agenda = [] ∧ issuing sNop.core = true ∧ fetchAt sNop.core sNop.core.regs.pc = .words [0xB0000600#32] ∧
    decodeFault sNop.core.fwm sNop.core.regs.pc [0xB0000600#32] = none ∧ decodeHeaderOnly 0xB0000600#32 = some (.nop 0#4 3#4) ∧
    answers (exec (.nop 0#4 3#4) (latched [0xB0000600#32] sNop)) = true := by decide +kernel

theorem witness_StepRuns_bundle : sLoop.agenda = [] ∧ issuing sLoop.core = true ∧
    fetchAt sLoop.core sLoop.core.regs.pc = .words [0xB8000000#32, 0x220A0005#32] ∧
    decodeFault sLoop.core.fwm sLoop.core.regs.pc [0xB8000000#32, 0x220A0005#32] = none ∧ decodeHeaderOnly 0xB8000000#32 = none ∧
    slotsOf 0xB8000000#32 = [0] ∧ decodeSlot 0x220A0005#32 = some (.loopi 5#5 5#17) ∧ waitHeld (latched [0xB8000000#32, 0x220A0005#32] sLoop) = false ∧
    (let l := latched [0xB8000000#32, 0x220A0005#32] sLoop
     let w := (slotWords [0xB8000000#32, 0x220A0005#32]).1
     let go : State := { l with issue := { l.issue with commit := true } }
     (issueOf (checkSlots l l.issue w)).stop = none ∧ answers (checkSlots l l.issue w) = true ∧ answers (commitSlots go (commitOrder w)) = true) := by
  decide +kernel

/-- A bundle whose TRET stops at its checks: firmware's privilege is missing. -/
theorem witness_StepRuns_stopped :
    (issueOf (exec (.tret 0#4) ((latched [0xB8000000#32, 0xE0400000#32] (withLine 0xE0400000B8000000#512)).atSlot (0, 0xE0400000#32)))).stop.isSome = true := by
  decide +kernel

/-- One result on its way, due at the end of the next tick. -/
def onWay (q : Put) : Core := { core0 with pend := [{ rem := 1, put := q }] }

theorem witness_ResultWrittenAfterLatency :
    (∀ q ∈ (onWay (.s 3#5 7#64)).pend, mayWriteS 3#5 q = true → q = { rem := 0 + 1, put := .s 3#5 7#64 }) ∧
    ({ rem := 0 + 1, put := .s 3#5 7#64 } : Pending) ∈ (onWay (.s 3#5 7#64)).pend := by decide +kernel

theorem witness_HardwiredRegisters :
    (let s : State := { s0 with core := onWay (.s 3#5 7#64) }
     s.issue.commit = false ∧ ({ rem := 1, put := .s 3#5 7#64 } : Pending) ∈ s.core.pend ++ s.issue.claims ∧ (3#5 : Reg) ≠ 0#5) ∧
    (let s : State := { s0 with core := onWay (.k 3#3 7#64) }
     s.issue.commit = false ∧ ({ rem := 1, put := .k 3#3 7#64 } : Pending) ∈ s.core.pend ++ s.issue.claims ∧ (3#3 : KReg) ≠ 0#3) := by decide +kernel

/-- Each of the other register files and the loop's registers, two results of one tick; s0 and k0 beside another register. -/
theorem witness_HardwiredRegisters_files :
    ([.n 2#4 5#96, .v 3#5 {}, .vv 3#5 {} {}, .loop 8#56 20#56 2#64, .s 3#5 7#64, .k 3#3 7#64] : List Put).all (fun q =>
      (onWay q).pend == [{ rem := 1, put := q }] && clashes { s0 with core := onWay q } { rem := 1, put := q }) = true ∧
    (∀ p ∈ (onWay (.s 0#5 7#64)).pend ++ s0.issue.claims, (∃ y, p.put = .s 0#5 y) ∨ ∃ y, p.put = .k 0#3 y) := by
  refine ⟨by decide +kernel, ?_⟩
  intro p hp
  exact .inl ⟨7#64, by simp [onWay, s0] at hp; rw [hp]⟩

theorem witness_TrapEntry : core0.fwm = false := rfl
theorem witness_DoubleFaultFails : Core.reset.fwm = true := rfl
theorem witness_TretResumes :
    (∃ p ∈ ({ core0 with fwm := true, lq := [{ rem := 2, put := .none }] } : Core).lq, p.var = false) ∧
    (∃ p ∈ ({ core0 with fwm := true, lq := [{ rem := 2, put := .none, var := true }] } : Core).lq, p.var = true) := by decide +kernel

theorem witness_TokenCountersClamp : (15 : Fin 16).val ≠ 0 ∧ (∀ p ∈ [((14 : Nat), (1 : Int))], p.1 ≠ (15 : Fin 16).val) := by decide

/-- A core in a loop from 8 to 20. -/
def inLoop (n : W64) : Core := { core0 with regs := { core0.regs with lpcnt := n, lpbeg := 8#56, lpexit := 20#56 } }
theorem witness_LoopStep :
    (2 ≤ (inLoop 2#64).regs.lpcnt.toNat ∧ 20#56 = (inLoop 2#64).regs.lpexit) ∧
    ((inLoop 1#64).regs.lpcnt = 1#64 ∧ 20#56 = (inLoop 1#64).regs.lpexit) ∧
    (inLoop 0#64).regs.lpcnt = 0#64 ∧ 16#56 ≠ (inLoop 1#64).regs.lpexit := by decide +kernel

theorem witness_BundleCloses :
    s0.core.pend = [] ∧ s0.core.watches = [] ∧ s0.core.tcd = [] ∧ s0.core.fwm = false ∧ s0.core.regs.lpcnt = 0#64 ∧ (15#4 : BitVec 4) ≠ 0#4 := by
  decide +kernel

/-! Scalar instructions. -/

/-- In s0 nothing is on its way, so nothing is claimed; this meets the hypotheses of ScalarAluResults, ExtensionResults,
ImmediateResults, MaskResults, NameRegisterResults and of the first clauses of the vector statements. -/
theorem witness_unclaimed (lat : Nat) (q : Put) : unclaimed lat q s0 := by simp [unclaimed, clashes, s0, core0]

theorem witness_CompareConditions : (5#4 : BitVec 4) < 6#4 ∧ (0 : Nat) < 2 ∧ encode (.cmp 9#5 4#5 5#5 6#4) = some 0x05524286#32 := by decide +kernel
theorem witness_ExtensionResults :
    ((4#4 : BitVec 4), 48) ∈ [((0#4 : BitVec 4), 8), (1#4, 16), (2#4, 24), (3#4, 32), (4#4, 48)] ∧ (4#4 : BitVec 4) < 5#4 ∧
    (encode (.sext 1#5 2#5 5#4)).isSome = true ∧ (encode (.zext 1#5 2#5 15#4)).isSome = true := by decide +kernel

theorem witness_MultiplyDivideResults :
    s0.core.divrem = 0 ∧ s0.issue.divClaim = false ∧ s0.issue.commit = false ∧
    (({ s0 with core := { core0 with divrem := 1 } } : State).core.divrem ≠ 0) ∧ ({ s0 with issue := { divClaim := true } } : State).issue.divClaim = true := by
  decide +kernel

theorem witness_BranchAndLoopResults :
    (let s : State := { s0 with issue := { len := 8 } }
     s.core.regs.pc + BitVec.ofNat 56 s.issue.len < s.core.regs.pc + ((3#17).signExtend 56 <<< 2) ∧
     s.core.regs.pc + ((2#17).signExtend 56 <<< 2) ≤ s.core.regs.pc + BitVec.ofNat 56 s.issue.len ∧ s.issue.commit = false) := by decide +kernel

theorem witness_HeaderOnlyBundles :
    s0.issue.commit = false ∧ (15#4 : BitVec 4) ≠ 0#4 ∧ s0.core.tc 15#4 = 0#16 ∧
    ({ core0 with regs := { core0.regs with tc := Vector.replicate 16 1#16 } } : Core).tc 15#4 ≠ 0#16 := by decide +kernel

/-! Vector instructions. -/

theorem witness_ElementwiseByElement : (12#4 : BitVec 4).toNat ≤ 12 ∧ 127 < nelem 12#4 := by decide +kernel
theorem witness_MergeByLane : isMx 3#4 = false ∧ isMx 6#4 = true ∧ isMx 11#4 = true := by decide

/-- Tags that the formats admit; with `witness_unclaimed` they meet the hypotheses of the vector statements. -/
theorem witness_VectorArithmeticResults : tagOk 3#4 (vreg (withV { tag := 3#4 } { tag := 4#4 } { tag := 0#4 }) 1#5).tag = true ∧
    tagOk 3#4 (vreg (withV { tag := 3#4 } { tag := 4#4 } { tag := 0#4 }) 2#5).tag = true ∧
    tagOk 3#4 (vreg (withV { tag := 3#4 } { tag := 4#4 } { tag := 0#4 }) 3#5).tag = true ∧ (3#4 : BitVec 4) ≠ 12#4 := by decide +kernel
theorem witness_VectorIntegerResults : isF 12#4 = false ∧ tagOk 12#4 (vreg s0 1#5).tag = true ∧ tagOk 2#4 (vreg s0 1#5).tag = true ∧
    tagOk 1#4 (vreg s0 3#5).tag = true := by decide +kernel
theorem witness_VectorMoveResults : tagOk 3#4 (vreg s0 1#5).tag = true ∧ tagOk 1#4 (vreg s0 2#5).tag = true := by decide +kernel
theorem witness_VectorConversionResults :
    isF (vreg (withV { tag := 5#4 } {} {}) 1#5).tag = true ∧ (vreg (withV { tag := 12#4 } {} {}) 1#5).tag = 12#4 ∧ tagOk 3#4 (vreg s0 1#5).tag = true ∧
    isMx (vreg (withV { tag := 11#4 } {} {}) 1#5).tag = true := by decide +kernel
theorem witness_VectorPermuteResults :
    let s := withV { tag := 4#4 } { tag := 4#4 } {}
    (vreg s 2#5).tag = (vreg s 1#5).tag ∧ (1#4 : BitVec 4).toNat < nelem (vreg s 1#5).tag / 64 ∧ (vreg s 1#5).tag ≠ 13#4 ∧
    (vreg (withV { tag := 6#4 } {} {}) 2#5).tag = 0#4 ∧ (3#4 : BitVec 4).toNat < nelem 6#4 / 64 := by decide +kernel
theorem witness_VectorReductionResults :
    tagOk 3#4 (vreg s0 1#5).tag = true ∧ tagOk 1#4 (vreg s0 (1#5 + 1#5)).tag = true ∧ (vreg (withV {} { tag := 5#4 } {}) 2#5).tag = 5#4 ∧
    (vreg s0 1#5).tag = 0#4 ∧ (vreg (withV {} { tag := 13#4 } {}) 2#5).tag = 13#4 ∧
    countOver (cxpOfReg (vreg (withV {} { tag := 13#4 } {}) 2#5)).count.toNat (activeVals (vreg s0 1#5) (kreg s0 0#3)).length = false ∧
    countOver M320.empty.count.toNat (activeVals (vreg s0 1#5) (kreg s0 0#3)).length = false := by decide +kernel
theorem witness_SpecialFunctionResults : tagOk 3#4 (vreg s0 1#5).tag = true ∧ tagOk 3#4 (vreg s0 2#5).tag = true := by decide +kernel

/-- An integer argument whose power the format holds, and one whose power exceeds it; powers of two of either kind, an even one; an even and
an odd number of halves; a value finer than the format's unit; arguments that are no exact point. -/
theorem witness_SpecialFunctionResults_points :
    let f := fmtF 3#4
    (asInteger 3 0 = some 3 ∧ powFits f 3 ∧ asInteger 1 8 = some 256 ∧ (f.emax : Int) < 256 ∧ asInteger 1 (-3) = none) ∧
    (powFits f (-((2 : Nat) + (-4) : Int)) ∧ (f.emax : Int) < -((2 : Nat) + (-140) : Int) ∧ ((2 : Nat) : Int) + (-4) = 2 * (-1) ∧ powFits f 1) ∧
    (asInteger 3 (1 + 1) = some 12 ∧ asInteger 5 (-1 + 1) = some 5 ∧ 12 % 2 = 0 ∧ 5 % 2 = 1) ∧
    ((-256 : Int) ≤ max ((Nat.log2 1 : Int) + -256) (1 - (f.bias : Int)) - f.mb ∧ (-256 : Int) ≤ -(f.mb : Int) - 1) ∧
    ((∀ i, asInteger 1 (-1) = some i → false = true ∧ ¬powFits f (-(i : Int))) ∧ (∀ i, asInteger 1 8 = some i → true = true ∧ ¬powFits f (-(i : Int)))) ∧
    ((∀ j, 3 ≠ 2 ^ j) ∧ ∀ (j : Nat) (h : Int), 2 = 2 ^ j → (j : Int) + 0 ≠ 2 * h) := by
  have h3 : ∀ j : Nat, 3 ≠ 2 ^ j := by
    intro j
    rcases j with _ | _ | j <;> simp [Nat.pow_succ] <;> omega
  have h2 : ∀ j : Nat, 2 = 2 ^ j → j = 1 := by
    intro j hj
    rcases j with _ | _ | j <;> simp [Nat.pow_succ] at hj ⊢ <;> omega
  refine ⟨by unfold powFits; decide +kernel, by unfold powFits; decide +kernel, by decide +kernel, by decide +kernel, ⟨?_, ?_⟩, h3, ?_⟩
  · intro i hi; rw [show asInteger 1 (-1) = none by decide +kernel] at hi; exact absurd hi (by simp)
  · intro i hi
    have : i = 256 := by
      have e : asInteger 1 8 = some 256 := by decide +kernel
      rw [e] at hi; exact (Option.some.inj hi).symm
    subst this
    exact ⟨rfl, by unfold powFits; decide +kernel⟩
  · intro j h hj; have := h2 j hj; omega

theorem witness_IssueFaultsOfResults :
    s0.issue.commit = false ∧ tagOk 1#4 (vreg (withV { tag := 4#4 } {} {}) 1#5).tag = false ∧
    clashes { s0 with core := onWay (.s 3#5 7#64) } { rem := 1, put := .s 3#5 0#64 } = true := by decide +kernel

/-- Words that each check of a slot refuses, in a slot where every earlier check passes. -/
theorem witness_IssueFaultsOfResults_slots :
    (decodeSlot 0x05461106#32 = none ∧ decodeSlot 0x12061802#32 = some (.lit 3#5 1#5 2#2 2#10) ∧ decodeSlot 0x12460800#32 = some (.lit64 3#5 2#2) ∧
      decodeSlot 0xE2001000#32 = some (.haltc 1#5) ∧ decodeSlot 0xE2401000#32 = some (.ctxsv 1#5) ∧ decodeSlot 0xE2861000#32 = some (.ctxld 3#5 1#5) ∧
      decodeSlot 0x00061100#32 = some (.add 3#5 1#5 2#5)) ∧
    ([0x05461106#32, 0x12061802#32, 0x12460800#32, 0xE2001000#32, 0x00061100#32].all fun w =>
      [0, 1, 2, 3, 0xD, 0xE].contains (w.extractLsb' 28 4).toNat) = true ∧
    ((0x40C61100#32).extractLsb' 28 4).toNat = 4 ∧ ((0x40C61100#32).extractLsb' 22 6).toNat = 3 := by decide +kernel

/-- Headers that are bad for each of their reasons; a bundle whose second slot faults, one with two ending slots, one with one, one with none. -/
theorem witness_IssueFaultsOfResults_bundles :
    headerBad 0#56 0xA8000000#32 = true ∧ headerBad 0#56 0xB8000001#32 = true ∧ headerBad 0#56 0xB0000000#32 = true ∧ headerBad 2#56 0xB8000000#32 = true ∧
    (headerBad 0#56 0xBC000000#32 = false ∧ (slotWords [0xBC000000#32, 0x00061100#32, 0x05461106#32]).1 = [(0, 0x00061100#32), (1, 0x05461106#32)] ∧
      slotFault false 0 0 0x00061100#32 = none ∧ slotFault false 0 1 0x05461106#32 = some .illegalOp) ∧
    ((slotWords [0xBC000000#32, 0x20000002#32, 0xD0000000#32]).1 = [(0, 0x20000002#32), (1, 0xD0000000#32)]) ∧
    (slotFault false 0 0 0x20000002#32 = none ∧ slotFault false 0 1 0xD0000000#32 = none ∧ (decodeSlot 0x20000002#32).any ends = true ∧
      (decodeSlot 0xD0000000#32).any ends = true ∧ (decodeSlot 0x00061100#32).any ends = false) := by decide +kernel

/-- A core at a bundle whose slot faults, and one that a branch has led to a word that is no header. -/
theorem witness_IssueFaultsOfResults_steps :
    (let s := withLine 0x05461106B8000000#512
     s.agenda = [] ∧ s.core.fwm = false ∧ issuing s.core = true ∧ fetchAt s.core s.core.regs.pc = .words [0xB8000000#32, 0x05461106#32] ∧
     decodeFault false s.core.regs.pc [0xB8000000#32, 0x05461106#32] = some (0, 0x05461106#32, .illegalOp)) ∧
    (let s := withLine 0x00061100#512
     let c : Core := { s.core with branch := some 0x40#56 }
     c.branch = some 0x40#56 ∧ issuing { c with branch := none } = true ∧
     (match fetchAt c c.regs.pc with | .words (h :: _) => h.extractLsb' 28 4 != 0xB#4 | _ => false) = true) := by decide +kernel

/-! The matrix unit, core memories. -/

/-- A tile that is READY. -/
def tileOf (buf : BitVec 2) (line : Nat) (size : Nat) (tag : BitVec 4) : Tile :=
  { state := .ready, buf := buf, line := BitVec.ofNat 14 line, sizem1 := BitVec.ofNat 16 (size - 1), tag := tag }

/-- A core that owns the windows and planes, in E2M1 with E2M1, dense or 1 of 2; slots 0, 1, 2 hold a W, an A and a C tile of the
least sizes, s1 to s3 name them. -/
def coreM (mode : BitVec 10) : Core :=
  { (withS 1#64 2#64 0xAA#64).core with
    owners := Vector.replicate 5 (some 0#4), matmode := mode, wf := { fmt := 10#4 }
    tiles := [(0, tileOf 0#2 0 1088 10#4), (1, tileOf 1#2 0 544 10#4), (2, tileOf 2#2 0 8192 0#4)] }
def sM (mode : BitVec 10) : State := { s0 with core := coreM mode }

theorem witness_MatrixCommandsEnter :
    (sM 0xAA#10).core.matq.length < 16 ∧ owned (sM 0xAA#10) 4 ∧ owned (sM 0xAA#10) (3#2).toNat ∧
    (sreg (sM 0xAA#10) 3#5).extractLsb' 10 54 = 0#54 ∧
    legalPair ((sreg (sM 0xAA#10) 3#5).extractLsb' 0 4) ((sreg (sM 0xAA#10) 3#5).extractLsb' 4 4) = true ∧
    tagOk 3#4 (vreg (sM 0xAA#10) 1#5).tag = true ∧
    (planeFmt (wfmt (coreM 0xAA#10).matFormats.mode) = true ∧ usable ((coreM 0xAA#10).tile 0) 0#2 (64 * rowBytes (wfmt (coreM 0xAA#10).matFormats.mode) false) ∧
      ((coreM 0xAA#10).tile 0).tag = wfmt (coreM 0xAA#10).matFormats.mode ∧ slotOf (sreg (sM 0xAA#10) 0#5) = 0) ∧
    (legalPair (afmt (coreM 0xAA#10).matFormats.mode) (coreM 0xAA#10).matFormats.wf = true ∧ slotOf (sreg (sM 0xAA#10) 1#5) = 1 ∧
      ((coreM 0xAA#10).tile 1).tag = afmt (coreM 0xAA#10).matFormats.mode ∧ staggerHeld (sM 0xAA#10) = false ∧
      usable ((coreM 0xAA#10).tile 1) 1#2 (32 * rowBytes (afmt (coreM 0xAA#10).matFormats.mode) false)) ∧
    (sparse (coreM 0x1AA#10).matFormats.mode ≠ 0#2 ∧
      usable (tileOf 1#2 0 (32 * rowBytes 10#4 true) 10#4) 1#2 (32 * rowBytes (afmt (coreM 0x1AA#10).matFormats.mode) true)) ∧
    (usable ((coreM 0xAA#10).tile 2) 2#2 (2048 * drainBytes 3#4) ∧ ((coreM 0xAA#10).tile 2).holds = 0#5) ∧
    (coreM 0xAA#10).matq = [] ∧ ((coreM 0xAA#10).matq.any fun e => e.cmd.writesWin 0#2) = false := by
  unfold owned usable; decide +kernel

/-- One matrix command, started or not, that an event names. -/
def sCmd (c : MatCmd) (started : Bool) : State :=
  { s0 with core := { coreM 0xAA#10 with matq := [{ ser := 0, fid := 0#64, cmd := c, started := started }], windows := [(65, {})] }, input := [0] }

theorem witness_MatrixCommandsComplete :
    inp (sCmd .mswap true) 0 = 0 ∧ (sCmd .mswap false).core.matCanStart 0 { ser := 0, fid := 0#64, cmd := .mswap } = true ∧
    (sCmd .mswap true).core.matq[0]? = some { ser := 0, fid := 0#64, cmd := .mswap, started := true } ∧
    (sCmd (.mmode 0#10) true).core.matq[0]? = some { ser := 0, fid := 0#64, cmd := .mmode 0#10, started := true } ∧
    (sCmd (.mzero 0#2 2#64) true).core.matq[0]? = some { ser := 0, fid := 0#64, cmd := .mzero 0#2 2#64, started := true } ∧
    sortedFrom 0 (sCmd (.mzero 0#2 2#64) true).core.windows = true ∧ (2#64).getLsbD 1 = true := by decide +kernel

/-- The commands whose results the statement gives, each started and first of the queue; MDRAIN's tile fills and one holder has it. -/
theorem witness_MatrixCommandsComplete_results :
    ([.mma 1#2 1 3#64 false, .mma 1#2 1 3#64 true, .mlds 0 10#4, .mwrv 1#2 31 3#64 1#4 {}, .mwrv 1#2 0 3#64 3#4 {}, .mtrw 1#2 6#4] : List MatCmd).all (fun c =>
      (sCmd c true).core.matq[0]? == some { ser := 0, fid := 0#64, cmd := c, started := true } && sortedFrom 0 (sCmd c true).core.windows) = true ∧
    planeFmt 10#4 = true ∧
    (let c := MatCmd.mdrain 2 1#2 true true 3#64 3#4
     let t : Tile := { tileOf 2#2 0 8192 3#4 with state := .filling, holds := 1#5 }
     let s : State := { sCmd c true with core := { (sCmd c true).core with tiles := [(2, t)] } }
     s.core.matq[0]? = some { ser := 0, fid := 0#64, cmd := c, started := true } ∧ BuffersWf s.core ∧ sortedFrom 0 s.core.windows = true ∧
     (s.core.tile 2).state = .filling ∧ (s.core.tile 2).buf = 2#2 ∧ (s.core.tile 2).dying = false ∧ (s.core.tile 2).holds = 1#5 ∧
     2048 * drainBytes 3#4 ≤ (s.core.tile 2).size) := by unfold BuffersWf; decide +kernel

theorem witness_MemoryReadAfterWrite : Memory.wf [(0, 1#8), (5, 255#8)] = true := by decide

theorem buffers_nil (s : State) (h : ∀ n, (s.coreAt n).bufW = [] ∧ (s.coreAt n).bufA = [] ∧ (s.coreAt n).bufC = []) : ∀ n, BuffersWf (s.coreAt n) := by
  intro n; obtain ⟨a, b, c⟩ := h n
  simp only [BuffersWf, a, b, c]; decide
theorem witness_MemoryReadAfterWrite_step : (∀ n, BuffersWf (sNop.coreAt n)) ∧ answers (step sNop) = true := by
  have hp : sNop.parked = [] := by decide +kernel
  have hc : sNop.core.bufW = [] ∧ sNop.core.bufA = [] ∧ sNop.core.bufC = [] := by decide +kernel
  refine ⟨buffers_nil _ fun n => ?_, by decide +kernel⟩
  unfold State.coreAt
  by_cases h : n = sNop.cur
  · rw [if_pos h]; exact hc
  · rw [if_neg h, hp]; exact ⟨rfl, rfl, rfl⟩

/-- A core with a tile of 1,024 bytes in the A buffer at 0, filled or not; s1 is 0, s2 the last word of the A buffer. -/
def sL (fill : BitVec 1024) (st : TState) (tag : BitVec 4) : State :=
  { s0 with core := { (withS 0#64 0xBFFF8#64 0#64).core with tiles := [(0, { tileOf 1#2 0 1024 tag with state := st, fill := fill })] } }

theorem witness_LocalLoadResults :
    (let s := sL 0#1024 .ready 0#4
     let ea := (sreg s 2#5 + (0#10).signExtend 64 * 8#64).toNat
     ea + 8 ≤ 0xC0000 ∧ ea % 8 = 0 ∧ s.core.bad 1#2 ea 8 = false) ∧
    (let s := withS 0x5FF00#64 0#64 0#64
     let va := (sreg s 1#5 + (0#10).signExtend 64 * 64#64).toNat
     va + 256 ≤ bufSize 0#2 ∧ va % 4 = 0 ∧ s.core.bad 0#2 va 256 = false) ∧
    (let s := sL 0xFFFF#1024 .filling 0#4
     ∃ p, s.core.tileOf 1#2 0 = some p ∧ p.2.base ≤ 0 ∧ 0 + 256 ≤ p.2.base + p.2.size ∧ filled p.2 0 8 = true ∧ filled p.2 0 256 = true ∧
       s.core.bad 1#2 0 256 = false ∧ 0 + 256 ≤ bufSize 1#2) ∧
    (let s := sL 0#1024 .filling 0#4
     ∃ p, s.core.tileOf 1#2 0 = some p ∧ filled p.2 0 8 = false ∧ filled p.2 0 256 = false ∧ s.issue.commit = false) ∧
    (let s := withS 0#64 0#64 0#64
     ∀ l, l < 64 → (kreg s 0#3).getLsbD l = true → laneAddr s 1#5 2#5 2#2 l + 4 ≤ bufSize 1#2 ∧ laneAddr s 1#5 2#5 2#2 l % 4 = 0 ∧
       s.core.bad 1#2 (laneAddr s 1#5 2#5 2#2 l) 4 = false) ∧
    (let s := sL 0#1024 .ready 10#4
     ∃ p, s.core.tileOf 1#2 (sreg s 1#5 + sreg s 3#5).toNat = some p ∧ isMx p.2.tag = true ∧
       (sreg s 1#5 + sreg s 3#5).toNat + 2 ^ (3#2).toNat * blockBytes p.2.tag ≤ p.2.base + p.2.size ∧
       s.core.bad 1#2 0 (2 ^ (3#2).toNat * blockBytes p.2.tag) = false) := by
  refine ⟨by decide +kernel, by decide +kernel, ⟨_, rfl, ?_⟩, ⟨_, rfl, ?_⟩, by decide +kernel, ⟨_, rfl, ?_⟩⟩ <;> decide +kernel

theorem witness_LocalStoreResults :
    (let s := sL 0#1024 .ready 0#4
     eaMI s 2#5 0#10 8 + 8 ≤ 0xC0000 ∧ eaMI s 2#5 0#10 8 % 8 = 0 ∧ s.core.storeRefused 1#2 (eaMI s 2#5 0#10 8) 8 = false) ∧
    (let s := withS 0x3FF00#64 0#64 0#64
     eaMI s 1#5 0#10 64 + 256 ≤ bufSize 2#2 ∧ eaMI s 1#5 0#10 64 % 4 = 0 ∧ s.core.storeRefused 2#2 (eaMI s 1#5 0#10 64) 256 = false) ∧
    (let s := withS 0#64 0#64 0#64
     ∀ l ∈ lanesOf (kreg s 0#3), laneAddr s 1#5 2#5 2#2 l + 4 ≤ bufSize 1#2 ∧ laneAddr s 1#5 2#5 2#2 l % 4 = 0 ∧
       s.core.storeRefused 1#2 (laneAddr s 1#5 2#5 2#2 l) 4 = false) ∧
    (let s := withV { tag := 10#4 } {} {}
     isMx (vreg s 1#5).tag = true ∧ (sreg s 1#5 + sreg s 2#5).toNat + 2 ^ (3#2).toNat * blockBytes (vreg s 1#5).tag ≤ bufSize 1#2 ∧
     ∀ i ∈ (List.range 8).filter (fun i => blockOn (kreg s 0#3) i), s.core.storeRefused 1#2 (i * blockBytes (vreg s 1#5).tag) (blockBytes (vreg s 1#5).tag) = false) := by
  decide +kernel

theorem witness_LocalStoreFrame :
    answers (exec (.st 1#5 2#5 0#10) (sL 0#1024 .ready 0#4)) = true ∧ answers (exec (.vst 1#5 1#5 1#2 0#10) s0) = true ∧
    answers (exec (.vscat 1#5 2#5 3#5 0#3 1#2 2#2) s0) = true ∧ answers (exec (.vsts 1#5 2#5 3#5 0#3 1#2 3#2) (withV { tag := 10#4 } {} {})) = true := by
  decide +kernel

theorem witness_LocalAccessTraps :
    (0xC0000 < eaMI (withS 0xC0000#64 0#64 0#64) 1#5 0#10 8 + 8) ∧
    (eaMI (withS 1#64 0#64 0#64) 1#5 0#10 8 + 8 ≤ 0xC0000 ∧ eaMI (withS 1#64 0#64 0#64) 1#5 0#10 8 % 8 ≠ 0) ∧
    (bufSize 1#2 < eaMI (withS 0xC0000#64 0#64 0#64) 1#5 0#10 64 + 256) ∧
    (eaMI (withS 2#64 0#64 0#64) 1#5 0#10 64 + 256 ≤ bufSize 2#2 ∧ eaMI (withS 2#64 0#64 0#64) 1#5 0#10 64 % 4 ≠ 0) ∧
    (eaMI (sL 0#1024 .draining 0#4) 1#5 0#10 8 = 0 ∧ (sL 0#1024 .draining 0#4).core.storeRefused 1#2 0 8 = true) ∧
    ({ core0 with badWord := [(1, 0)] } : Core).bad 1#2 0 8 = true ∧ s0.issue.commit = false := by decide +kernel

/-- Tile slot 0 in a state; s1 names slot 0, or as a descriptor is a tile of 64 bytes in the A buffer. -/
def sT (t : Tile) (y : W64) : State := { s0 with core := { (withS 0#64 y 0#64).core with tiles := [(0, t)] } }

theorem witness_TileInstructionResults :
    (let s := withS 0x4000000000#64 0#64 0#64
     let n := newTile (sreg s 1#5) s.core.slot
     n.buf ≠ 3#2 ∧ n.tag < 14#4 ∧ 64 * (n.line.toNat + n.nl) ≤ bufSize n.buf ∧ (∀ q ∈ tilesSeen s, q.2.touches n.buf n.base (64 * n.nl) = false) ∧
     slotEmpty (tilesSeen s) (slotOf (sreg s 2#5)) = true ∧ slotEmpty (tilesSeen s) 0 = true) ∧
    (let s : State := { s0 with core := { core0 with tiles := (List.range 256).map fun i => (i, tileOf 1#2 (8 * i) 64 0#4) } }
     ∀ j, j < 256 → slotEmpty (tilesSeen s) j = false) ∧
    (let t := (sT (tileOf 1#2 0 64 0#4) 13#64).core.tile 0
     t.state = .ready ∧ t.holds = 0#5 ∧ t.nb = false ∧ (13#64).extractLsb' 0 4 < 14#4) ∧
    (let t := (sT { tileOf 1#2 0 64 0#4 with state := .filling, pf := true } 0#64).core.tile 0
     t.state = .filling ∧ t.pf = true ∧ t.state ≠ .empty ∧ t.nb = false ∧ t.state ≠ .ready) ∧
    (s0.core.tile 0).state = .empty ∧ s0.issue.commit = false ∧ s0.core.watchCount < 16 ∧
    16 ≤ ({ core0 with watches := List.replicate 15 { tile := 0, thr := 0#64, tc := 0#4, fw := false }
                       yframes := [(0, { watches := [{ tile := 0, thr := 0#64, tc := 0#4, fw := false }] })] } : Core).watchCount := by decide +kernel

/-- A cached translation of page 0 of a region: every permission. -/
def page0 (r : Nat) : Tlb := { die := 0, region := r, page := 0, bits := 21, leaf := 0x0F#64 }
/-- A core with one unfinished operation, that an event names; its region's page 0 is mapped. -/
def sOp (o : Op) : State := { s0 with core := { core0 with ops := [o] }, tlb := [page0 0, page0 16], input := [0, 0] }

theorem witness_InstructionStoreControl :
    clwbPending s0.core s0.core.regs.fireid = false ∧
    clwbPending (sOp { kind := .clwb none }).core 0#64 = true ∧
    ((sOp { kind := .icinv none }).core.ops[inp (sOp { kind := .icinv none }) 0]? = some { kind := .icinv none } ∧
      clwbPending { (sOp { kind := .icinv none }).core with ops := [] } 0#64 = false) ∧
    (let s : State := { s0 with core := { core0 with ifill := [(1, true)] }, tlb := [page0 0], input := [1] }
     inp s 0 = 1 ∧ 1 < 2 ^ 51 ∧ (∀ p ∈ s.core.ifill, p.1 = 1 → p.2 = true) ∧ (agentRead s (fetchRegion s 1) (64 * (1 % 2 ^ 50)) 64 .fetch).isOk = true) := by
  decide +kernel
/-! Operations at issue: global, remote, engines, names, scheduling, system. -/

/-- A region of one task on one core, in its middle. -/
def region1 : Region := { phase := .running, w := 1, h := 1, tasks := 1, dir := [(0, { core := 0, slot := 0#4 })] }

theorem witness_GlobalAccessesIssue :
    (let s := { withS 0x00FFFFFFFFFFFF00#64 0#64 0#64 with regions := [(0, region1)] }
     let x := sreg s 1#5
     x.extractLsb' 56 8 = 0#8 ∧ x.toNat % sizeBytes 4 = 0 ∧ x.toNat % 64 = 0 ∧ x.toNat % 8 = 0 ∧ (wCheck s x.toNat 8).bad = false ∧ (wCheck s x.toNat 256).bad = false ∧
     (sreg s 2#5).toNat % 2 ^ 16 < taskCount s ∧ (sreg s 2#5).toNat % 2 ^ 16 ≠ 0xFFFF ∧ tagOk 3#4 (vreg s 1#5).tag = true) ∧
    ((0#6).getLsbD 0 = false ∧ (1#6).getLsbD 0 = true ∧ ((1#6).extractLsb' 0 3).toNat = 1 ∧ ((3#6).extractLsb' 0 3).toNat = 3) ∧
    fenceReady s0 s0.core.ops s0.core.regs.fireid true 0 5 = true ∧
    (let s := sOp { kind := .gstore 8, fid := s0.core.regs.fireid }
     fenceReady s s.core.ops s.core.regs.fireid true 0 1 = false) ∧
    (sreg (withS 0x0100000000000000#64 0#64 0#64) 1#5).extractLsb' 56 8 ≠ 0#8 ∧ s0.issue.commit = false := by decide +kernel

/-- Lines 0 to 3 held whole, in set 0, 1, 2 and 3. -/
def sG : State :=
  { withS 0#64 0#64 0#64 with core := { (withS 0#64 0#64 0#64).core with gcache := (List.range 4).map fun i => (i, { valid := BitVec.allOnes 64 }) }
                              regions := [(0, region1)] }
theorem witness_GlobalAccessesIssue_bytes :
    firingAlone sG ∧ isHost (sreg sG 1#5).toNat = false ∧ (∀ i, i < 4 → isHost (64 * i) = false) ∧
    (∀ i, i < 4 → sG.core.gline i = some { valid := BitVec.allOnes 64 }) ∧ (sG.core.setLines 0).length < 8 ∧
    (wCheck sG 0 8).bad = false ∧ (wCheck sG 0 256).bad = false ∧ sG.core.darn.length + sG.core.dirtyLines.length ≤ 256 ∧
    ([exec (.gst 2#5 1#5 1#2 0#4 3#6) sG, exec (.strel 2#5 1#5 1#2 0#4 3#6) sG, exec (.strel 2#5 1#5 1#2 0#4 0x23#6) sG,
      exec (.vgst 2#5 1#5 1#2 0#4 0#6) sG].all answers) = true := by unfold firingAlone; decide +kernel

/-- A store of the firing that is put off. -/
theorem witness_GlobalAccessesIssue_putOff :
    putOff { s0 with core := { core0 with ops := [{ kind := .gstore 8, wait := true }] } } = true ∧ putOff s0 = false := by decide +kernel

/-- Tile 0 in a buffer and s1 a global address, s2 a descriptor, s3 the tile. -/
def sE (t : Tile) (desc : W64) : State := { withS 0#64 desc 0#64 with core := { (withS 0#64 desc 0#64).core with tiles := [(0, t)] } }
/-- A descriptor of one row of 64 bytes, from memory or, with bit 31, to it. -/
def rowDesc (hi : W64) : W64 := 0x0000004000000000#64 ||| hi

theorem witness_CommandsIssue_remote :
    (let s := { withS 0#64 0#64 0#64 with regions := [(0, region1)] }
     (∀ c ∈ qChecks s (sreg s 1#5) 256, c.bad = false) ∧ s.core.qCount < 16) ∧
    (16 ≤ ({ core0 with ops := List.replicate 16 { kind := .qld false false 0 0 } } : Core).qCount) := by decide +kernel

theorem witness_CommandsIssue_engines :
    s0.core.engines < 32 ∧
    ([(0, rowDesc 64#64), (1, rowDesc 0#64), (2, rowDesc 0#64), (3, 64#64)].all fun (k, desc) =>
      let s := sE (tileOf 1#2 0 1024 0#4) desc
      (engChecks k (sreg s 2#5) (sreg s 1#5) (s.core.tile 0).size (fld (sreg s 3#5) 16 16)).all (fun c => !c.bad) &&
        (sreg s 1#5).extractLsb' 56 8 == 0#8 && (s.core.tile 0).state == .ready && (s.core.tile 0).holds == 0#5 && (s.core.tile 0).buf == 1#2) = true ∧
    (sreg (sE {} (rowDesc 0#64)) 2#5).getLsbD 31 = false ∧
    (let s := sE {} 0x80000040#64
     (sreg s 2#5).getLsbD 31 = true ∧ (sreg s 1#5).extractLsb' 56 8 = 0#8 ∧ ∀ c ∈ engChecks 3 (sreg s 2#5) (sreg s 1#5) (s.core.tile 0).size 0, c.bad = false) := by
  decide +kernel

theorem witness_CommandsIssue_full :
    32 ≤ ({ core0 with ops := List.replicate 32 { kind := .engine 0 0 0 0#64 64#64 0#64 } } : Core).engines := by decide +kernel

theorem witness_CommandsIssue_pubx :
    (let s := sE (tileOf 1#2 0 1024 0#4) (rowDesc 0#64)
     let desc := sreg s 2#5
     let rb := fld desc 32 17
     nSpace (nreg s 1#4) = s.core.space ∧ (s.core.tile 0).state = .ready ∧ (s.core.tile 0).holds = 0#5 ∧ (s.core.tile 0).buf = 1#2 ∧
     fld desc 49 15 = 0 ∧ fld desc 0 6 = 0 ∧ 0 < rb ∧ rb ≤ 65536 ∧ rb % 4 = 0 ∧ fld desc 16 16 % 4 = 0 ∧ (fld desc 6 10 + 1) * rb ≤ 65536 ∧
     fld (sreg s 1#5) 16 16 + fld desc 6 10 * fld desc 16 16 + rb ≤ (s.core.tile 0).size) := by decide +kernel

/-- The firing's region holds the block of a port on its edge. -/
def sB : State := { withS 0#64 64#64 0#64 with regions := [(0, { region1 with edgemask := 1#32 })], blocks := [(0, { owner := some 0 })] }
theorem witness_CommandsIssue_edge :
    blockOf sB 1#5 = some 0 ∧ sB.core.fwm = false ∧ (sreg sB 2#5).toNat % 64 = 0 ∧ (sreg sB 2#5).extractLsb' 56 8 = 0#8 := by decide +kernel

/-- A tile of a name, and a region with a tensor of 64-byte tiles. -/
def sN (t : Tile) : State :=
  { sE t 0#64 with regions := [(0, { region1 with tensors := [(0x40 : BitVec 256) <<< 40 ||| 1#256] })] }

theorem witness_NameInstructionsIssue :
    (let s := sE (tileOf 1#2 0 1024 0#4) 0#64
     nSpace (nreg s 1#4) = s.core.space ∧ (s.core.tile 0).state = .ready ∧ (s.core.tile 0).holds = 0#5 ∧ (s.core.tile 0).buf = 1#2 ∧ (s.core.tile 0).nb = false) ∧
    (let s := sE { tileOf 1#2 0 1024 0#4 with nb := true } 0#64
     (s.core.tile 0).nb = true ∧ s.core.standing 0 = false ∧ (s.core.tile 0).state = .ready ∧ (s.core.tile 0).buf ≠ 3#2) ∧
    (sE { tileOf 1#2 0 1024 0#4 with nb := true, state := .filling } 0#64).core.standing 0 = false ∧
    nSpace (nreg { s0 with core := core0.setN 1#4 (BitVec.allOnes 96) } 1#4) ≠ s0.core.space ∧ s0.issue.commit = false := by decide +kernel

theorem witness_SchedulingInstructionResults :
    (s0.core.fwm = false ∧ fidOrd s0.core.regs.fireid = 0#24 ∧ s0.core.regs.created = false) ∧
    (let s := withS 0xFFFFFF#64 0#64 0#64
     1 ≤ (sreg s 1#5).toNat ∧ (sreg s 1#5).toNat ≤ 0xFFFFFF ∧ s.core.childClash (sreg s 1#5).toNat = false ∧ s.core.poolUsed < 192 ∧ s.core.freeNameFrame = some 0) ∧
    (let s := withS 0xBFFE0#64 1#64 0#64
     (sreg s 1#5).toNat % 32 = 0 ∧ sreg s 2#5 ≠ 0#64 ∧ (sreg s 1#5).toNat + 32 * (sreg s 2#5).toNat ≤ 0xC0000) ∧
    (fidOrd ({ core0 with regs := { core0.regs with fireid := 1#64 } } : Core).regs.fireid ≠ 0#24 ∧ s0.issue.commit = false) ∧
    (let s := { withS 5#64 0#64 0#64 with core := { (withS 5#64 0#64 0#64).core with regs := { (withS 5#64 0#64 0#64).core.regs with tc := Vector.replicate 16 5#16 } } }
     ((sreg s 1#5).extractLsb' 0 16).toNat + (if s.issue.wait = 15#4 then 1 else 0) ≤ (s.core.tc 15#4).toNat) ∧
    (((sreg (withS 1#64 0#64 0#64) 1#5).extractLsb' 0 16).toNat ≠ 0 ∧ ((withS 1#64 0#64 0#64).core.tc 1#4).toNat < 1) ∧
    (s0.core.arrOf 5 - s0.core.instOf 5).toInt < 2 ∧
    (let c : Core := { core0 with slots := Vector.replicate 16 { arr := Vector.replicate 6 2#32 } }
     2 ≤ (c.arrOf 0 - c.instOf 0).toInt) ∧
    ({ s0 with issue := { commit := true } } : State).issue.commit = true ∧
    (({ s0 with core := { core0 with fwm := true } } : State).core.fwm = true ∧ s0.issue.commit = false) := by decide +kernel

/-- In firmware, past the checks, with page 0 mapped. -/
def sF : State := { s0 with core := { core0 with fwm := true }, issue := { commit := true }, tlb := [page0 0, page0 16], regions := [(0, region1)] }

theorem witness_SystemInstructionResults :
    sF.issue.commit = true ∧ sF.core.fwm = true ∧ sF.issue.loaded = none ∧
    (({ s0 with core := { core0 with dbgen := 1#1 } } : State).core.dbgen = 1#1) ∧ ((2#4 : BitVec 4) ≠ 1#4) ∧
    (sF.queue (evTarget sF (sreg sF 1#5)).1).stagedBy (reticleOf sF.cur) < 64 ∧
    ((ctlValue s0 0x03F).isSome = true ∧ ctlFault false false 0x03F = none ∧ ctlFault false true 0x03F = none ∧ ctlFault false true 0x00B = none ∧
      ctlAssigned 0x03F = true ∧ ctlAssigned 0x00B = true ∧ ctlAssigned 0x040 = false) ∧
    (fld (sreg (withS 0#64 12#64 0#64) 2#5) 44 17 = 0 ∧ srcOk (sreg (withS 0#64 12#64 0#64) 2#5) = true) ∧
    (s0.issue.commit = false ∧ s0.core.fwm = false ∧ 0x100 ≤ (0x100#12).toNat ∧ (0x106#12).toNat ≤ 0x106 ∧
      (grantOf s0 (reticleOf s0.cur) 0).getLsbD 4 = false) := by decide +kernel

theorem witness_ControlRegisterWrites : 0x020 ≤ (0x03F#12).toNat ∧ (0x03F#12).toNat < 0x040 ∧ (0x008#12).toNat ≤ 0x008 := by decide

theorem witness_EdgeOperationsRun :
    sElem.handler = (0, 0, 0) ∧
    (let s : State := { sElem with handler := (0, 0, 5) }
     let bl := s.block 0
     bl.owner = some 0 ∧ (bl.plane.any fun m => bl.runs s && !(bl.elem 0).halted && entryRuns (planeEntry m 0 5) && !(bl.elem 0).heldFor 5 &&
       (edgeAct s bl m { op := 0x00, a := 5#5, b := 6#5, d := 18#5, t := 7#4 } 0 5).isSome) = true ∧
     (bl.plane.any fun m => !entryRuns (planeEntry m 0 4)) = true) := by decide +kernel
/-- A plane whose element 0 has a handler of channel 5, and the state in which that handler is in focus. -/
def plane5 : Memory := wrN [] (0x400 + 8 * 5) (2 ^ 63) 8
def sHand (x : Element) (b : Block) : State :=
  { s0 with
    regions := [(0, { phase := .running, w := 1, h := 1 })], handler := (0, 0, 5)
    blocks := [(0, { b with owner := some 0, state := .running, plane := some plane5, elems := [(0, x)] })] }
/-- Two queues with a data token each; a data token of a CXP stream; an EOS. -/
def xPair : Element := { queues := [(5, [({} : ETok)]), (6, [({} : ETok)])] }
def tCxp : ETok := { fmt := 13#4 }
def tEos : ETok := { eos := true }

theorem witness_EdgeOperations_ready :
    ([{ op := 0x1A, a := 5#5, d := 18#5 }, { op := 0x0A, a := 5#5, d := 18#5, e := 19#5 }, { op := 0x0B, a := 5#5, b := 6#5, d := 18#5 },
      { op := 0x0F, a := 5#5, d := 21#5 }, { op := 0x19, a := 5#5, d := 15#5 }, { op := 0x17, a := 5#5, d := 3#5, e := 18#5 },
      { op := 0x18, a := 3#5, d := 18#5 }, { op := 0x16, a := 3#5, d := 18#5 }] : List EdgeOp).all (fun o =>
        let s := sHand xPair {}
        let b := s.block 0
        b.runs s && entryRuns (handlerEntry plane5 s) && !(b.elem 0).halted && (b.elem 0).out.isEmpty &&
          b.credit 0 o.d.toNat (fld (handlerEntry plane5 s) 54 4) && b.credit 0 o.e.toNat (fld (handlerEntry plane5 s) 50 4)) = true ∧
    handlerReady { op := 0x1A, a := 5#5, d := 18#5 } plane5 (sHand xPair {}) := by
  refine ⟨by decide +kernel, ?_⟩
  unfold handlerReady; decide +kernel

theorem witness_EdgeOperations_heads :
    ((xPair.queue 5).head? = some {} ∧ (xPair.queue 6).head? = some {} ∧ ({} : ETok).eos = false ∧ ({} : ETok).isErr = false ∧ tEos.eos = true) ∧
    ((xPair.state 5).held = [] ∧ (xPair.state 5).bad = false ∧ (xPair.state 5).eosA = false ∧ (xPair.state 5).eosB = false) ∧
    (({ fmt := 15#4 } : ETok).isErr = true ∧ (({ queues := [(5, [({ fmt := 15#4 } : ETok)])] } : Element).queue 5).head? = some { fmt := 15#4 } ∧
      ((({} : Element).queue 6).head? = none)) ∧
    (chunkFull [] = false ∧ chunkFull (List.replicate 5 tCxp) = true ∧ (List.replicate 5 tCxp).getLast? = some tCxp ∧
      tCxp.isErr = false ∧ ({} : ETok).fmt ≠ 0xD#4 ∧ chunkFull (List.replicate 4 tCxp) = false) ∧
    (({ op := 0x17, elem := 0, lit := 0#256, det := false, g := 0#24, points := 1, taga := 3, room := true } : EEnv).tag
      { last := some 5#24 } 4#24 4#24).2 ≠ 0 ∧
    (let b : Block := { rx := [(3, [({} : ETok)])] }
     (findD 3 [] b.rx).head? = some {} ∧ (findD 15 [] b.tx).length < 64) ∧
    (let ar : Armed := { bind := 3, point := 0, name := 0#96, got := some ⟨0#96, 0#4, 32, 0⟩ }
     let b : Block := { armed := [ar] }
     b.armed.findIdx? (fun y => y.bind == 3) = some 0 ∧ ar.failed = false ∧
     ((tileToks 0#4 ((List.range (Nat.min (bindSize (planeBind plane5 3)) 32)).map (slice 0 8)))[ar.sent]?).isSome = true) ∧
    (pubTile (sHand xPair {}) 0 0 plane5 3 0 5 0 [({} : ETok)] tEos).isSome = true := by decide +kernel
/-! An image that CTXLD takes: page 0 of the region holds a header of 14 R365, every other byte is zero. -/

def imgHbm : Memory := [(0, 0x57#8), (1, 0x4B#8), (2, 0x01#8), (37, 0x80#8), (38, 0x1A#8)]
def sImg : State := { sF with hbm := imgHbm }

theorem xlate_page0 (s : State) (va : Nat) (h : s.tlb = [page0 0, page0 16]) (hv : va < 2 ^ 21) :
    (∃ p, xlate s 0 va .read = .ok p ∧ p.host = false ∧ p.addr = va) ∧ (∃ p, xlate s 0 va .write = .ok p ∧ p.host = false) := by
  have e (k : Nat) (hk : 21 ≤ k) : va >>> k = 0 := by
    rw [Nat.shiftRight_eq_div_pow]
    exact Nat.div_eq_of_lt (Nat.lt_of_lt_of_le hv (Nat.pow_le_pow_right (by decide) hk))
  have h0 : hemOf va = 0 := by simp [hemOf, portOf, e]
  have hl : leafFor s 0 va = some (0x0F#64, 21) := by simp [leafFor, h, page0, h0, e]
  have hn : ¬ 2 ^ 56 ≤ va := by omega
  constructor
  · exact ⟨⟨false, va, true⟩, by simp only [xlate, if_neg hn, hl]; simp; omega, rfl, rfl⟩
  · exact ⟨⟨false, va, true⟩, by simp only [xlate, if_neg hn, hl]; simp; omega, rfl⟩

theorem rdN_zero (m : Memory) : ∀ n a, (∀ p ∈ m, p.1 < a) → rdN m a n = 0
  | 0, _, _ => rfl
  | n + 1, a, h => by
    have hf : ∀ l : Memory, (∀ p ∈ l, p.1 < a) → find? a l = none := by
      intro l; induction l with
      | nil => intro _; rfl
      | cons p t ih =>
        intro hl
        have := hl p (by simp)
        simp only [find?]
        rw [if_neg (by omega)]
        exact ih fun q hq => hl q (by simp [hq])
    simp [rdN, rd, findD, hf m h, rdN_zero m n (a + 1) fun p hp => Nat.lt_succ_of_lt (h p hp)]

theorem wrN_nil_zero : ∀ n a, wrN [] a 0 n = []
  | 0, _ => rfl
  | n + 1, a => by simp [wrN, wr, put, erase, wrN_nil_zero n]

theorem read_image_line (s : State) (ht : s.tlb = [page0 0, page0 16]) (hb : s.hbm = imgHbm) (hl : s.badLine = []) (i : Nat) (hi : i < imageLines) :
    agentRead s 0 (64 * i) 64 .read = .ok (if i = 0 then rdN imgHbm 0 64 else 0) := by
  have hv : 64 * i < 2 ^ 21 := by unfold imageLines at hi; omega
  obtain ⟨p, hp, hh, ha⟩ := (xlate_page0 s (64 * i) ht hv).1
  simp only [agentRead, hp, bind, Except.bind, hh, ha, Bool.false_eq_true, if_false]
  have : s.lineBad (64 * i) = false := by simp [State.lineBad, hl]
  rw [this]
  rw [hb]
  by_cases h : i = 0
  · subst h; rfl
  · rw [if_neg h]
    simp only [Bool.false_eq_true, if_false]
    have : rdN imgHbm (64 * i) 64 = 0 := rdN_zero imgHbm 64 (64 * i) (by intro p hp; simp [imgHbm] at hp; rcases hp with h | h | h | h | h <;> (subst h; simp <;> omega))
    rw [this]

theorem mapM_eq {α β : Type} (f : α → Option β) (g : α → β) : ∀ l : List α, (∀ x ∈ l, f x = some (g x)) → l.mapM f = some (l.map g)
  | [], _ => rfl
  | a :: t, h => by
    rw [List.mapM_cons, h a (by simp), mapM_eq f g t fun x hx => h x (by simp [hx])]; rfl

theorem read_image (s : State) (ht : s.tlb = [page0 0, page0 16]) (hb : s.hbm = imgHbm) (hl : s.badLine = []) : readImage s 0 0 = some (wrN [] 0 (rdN imgHbm 0 64) 64) := by
  have h := mapM_eq (fun i =>
      let va := 0 + 64 * i
      if 2 ^ 56 ≤ va then none
      else match agentRead s 0 va 64 .read with
        | .ok x => some (wrN [] (64 * i) x 64)
        | .error _ => none)
    (fun i => wrN [] (64 * i) (if i = 0 then rdN imgHbm 0 64 else 0) 64) (List.range imageLines) (by
      intro i hi
      have hi := List.mem_range.mp hi
      simp only [Nat.zero_add]
      rw [if_neg (by unfold imageLines at hi; omega), read_image_line s ht hb hl i hi])
  have e : List.range imageLines = 0 :: (List.range 27135).map (· + 1) := by
    rw [show imageLines = 27135 + 1 from rfl, List.range_succ_eq_map]
  unfold readImage
  refine (congrArg (Option.map List.flatten) h).trans ?_
  simp only [Option.map_some, Option.some.injEq]
  rw [e, List.map_cons, List.flatten_cons, if_pos rfl, List.map_map]
  rw [show ((List.range 27135).map ((fun i => wrN [] (64 * i) (if i = 0 then rdN imgHbm 0 64 else 0) 64) ∘ (· + 1))).flatten = [] from ?_, List.append_nil]
  rw [List.flatten_eq_nil_iff]
  intro l hl
  obtain ⟨i, -, rfl⟩ := List.mem_map.mp hl
  simp [wrN_nil_zero]

theorem image_line0 : wrN [] 0 (rdN imgHbm 0 64) 64 = imgHbm := by decide +kernel
theorem image_status (c : Core) (h : c.region = 0#32) : imageStatus c imgHbm = 0 := by
  have e : (List.range 64).any (fun i => entryBad (rdN imgHbm (0x2600 + 576 * i) 576)) = false := by
    rw [List.any_eq_false]
    intro i _
    rw [rdN_zero imgHbm 576 (0x2600 + 576 * i) (by intro p hp; simp [imgHbm] at hp; rcases hp with h | h | h | h | h <;> (subst h; simp <;> omega))]
    decide +kernel
  have h0 : BitVec.ofNat 512 (rdN imgHbm 0 64) = BitVec.ofNat 512 (0x14B57 + 0x1A8000 * 2 ^ 288) := by decide +kernel
  unfold imageStatus
  simp only [e, h, Bool.or_false, h0]
  decide +kernel

theorem host_page0 : hostImage 0 = false := by decide +kernel

/-- The image is taken by every core of region 0. -/
theorem load_image (c : Core) (h : c.region = 0#32) (s : State) (ht : s.tlb = [page0 0, page0 16]) (hb : s.hbm = imgHbm) (hl : s.badLine = []) :
    ∃ k, loadAt 0 0 c s = .inr k := by
  have h1 : agentRead s 0 0 64 .read = .ok (rdN imgHbm 0 64) := read_image_line s ht hb hl 0 (by decide)
  have hh : imageHead 0 0 c s = some imgHbm := by simp [imageHead, imageLine, host_page0, h1, image_line0]
  refine ⟨c.restore imgHbm (restAt s 0 0), ?_⟩
  unfold loadAt
  simp [hh, image_line0, image_status c h, read_image s ht hb hl]

theorem witness_SystemInstructionResults_ctxld :
    (∃ k, loadAt (regionOf sImg) (sreg sImg 1#5).toNat sImg.core sImg = .inr k) ∧
    (match loadAt 0 0 sF.core sF with | .inl _ => true | .inr _ => false) = true :=
  ⟨load_image sImg.core rfl sImg rfl rfl rfl, by decide +kernel⟩

/-- What page 0 translates is cached already. -/
theorem cache_page0 (s : State) (va : Nat) (h : s.tlb = [page0 0, page0 16]) (hv : va < 2 ^ 21) : cacheLeaf s 0 va = s := by
  have e (k : Nat) (hk : 21 ≤ k) : va >>> k = 0 := by
    rw [Nat.shiftRight_eq_div_pow]
    exact Nat.div_eq_of_lt (Nat.lt_of_lt_of_le hv (Nat.pow_le_pow_right (by decide) hk))
  simp [cacheLeaf, h, page0, hemOf, portOf, e]

/-- An image can be stored where page 0 is mapped. -/
theorem save_page0 (k : Core) : ∀ (l : List Nat) (m : Memory) (s : State), s.tlb = [page0 0, page0 16] → (∀ i ∈ l, i < imageLines) →
    ∀ n, ∃ t k, l.foldl (writeLine 0 0 m) (s, n, none) = (t, k, none)
  | [], _, s, _, _, n => ⟨s, n, rfl⟩
  | i :: l, m, s, h, hl, n => by
    have hi := hl i (by simp)
    obtain ⟨p, hp, hh⟩ := (xlate_page0 s (0 + 64 * i) h (by unfold imageLines at hi; omega)).2
    have hw : ∃ u, agentWrite s 0 (0 + 64 * i) 64 (2 ^ 64 - 1) (rdN m (64 * i) 64) = .ok u ∧ u.tlb = s.tlb := by
      simp only [agentWrite, hp, bind, Except.bind, hh, Bool.false_eq_true, if_false]
      exact ⟨_, rfl, rfl⟩
    obtain ⟨u, hu, ht⟩ := hw
    obtain ⟨t, c, ht'⟩ := save_page0 k l m u (ht.trans h) (fun j hj => hl j (by simp [hj])) (n + 1)
    refine ⟨t, c, ?_⟩
    have e : writeLine 0 0 m (s, n, none) i = (u, n + 1, none) := by
      unfold writeLine
      simp only [Option.isSome_none, Bool.false_eq_true, if_false]
      rw [if_neg (by unfold imageLines at hi; omega), cache_page0 s _ h (by unfold imageLines at hi; omega), hu]
    rw [List.foldl_cons, e]
    exact ht'

theorem save_ok (k : Core) (s : State) (h : s.tlb = [page0 0, page0 16]) (hk : k.badWord = []) : ∃ t, saveAt 0 0 k s = (t, none) := by
  obtain ⟨u, n, ht⟩ := save_page0 k (List.range imageLines) k.image s h (fun i hi => List.mem_range.mp hi) 0
  refine ⟨waferRelease { u.onCore (fun c => { dropLines 0 n c with imageErr := false }) with resume := insert (restKey 0 0) k.rest u.resume }, ?_⟩
  have hw : writeImage 0 0 k.image s = (u, n, none) := ht
  simp only [saveAt, hk, host_page0, hw, List.isEmpty_nil, Bool.not_true, Bool.and_false, Bool.or_false, Bool.false_eq_true, if_false]

theorem witness_SystemInstructionResults_ctxsv :
    ∃ t, saveAt (regionOf sF) (sreg sF 1#5).toNat sF.atIssue sF = (t, none) := save_ok _ _ rfl rfl
/-! Operations carried out, tokens, publications. -/

/-- A region of one task and one core, with a tensor of 256-byte tiles and its home at the core, on a reticle that is up. -/
def region2 : Region :=
  { region1 with homes := 1, home := [(0, { router := 0 })], tensors := [BitVec.ofNat 256 (2 ^ 236 + 255 * 2 ^ 166 + 1)] }
def sW (t : State) : State := { t with regions := [(0, region2)], reticles := [(0, { phase := .leader, lrow := 0 })] }
/-- One operation of the core, that an event names. -/
def sO (o : Op) : State := sW (sOp o)

/-- The hypothesis that part 0 of the operation may be carried out. -/
def may0 (o : Op) : Bool :=
  (sO o).core.ops[inp (sO o) 0]? == some o && !o.wait && o.resp == false && decide (0 < o.parts) && !o.done.contains 0 && mayPerform (sO o).core 0 o

theorem witness_OperationEvents_agents :
    (let o : Op := { kind := .gload 0 true }
     may0 o = true ∧ o.agentPart 0 = true ∧ podReady (sO o) o.scope o.fid = true) ∧
    (let o : Op := { kind := .gload 0 true, va := 0x00F0000000000000#64 }
     may0 o = true ∧ o.hostPart 0 = true ∧ podReady (sO o) o.scope o.fid = true) ∧
    (let o : Op := { kind := .gload 0 false }
     may0 o = true ∧ o.bytes ≠ 0 ∧ o.agentPart 0 = false ∧ (agentRead (sO o) (regionOf (sO o)) (64 * (0 / 64)) 64 .read).isOk = true ∧
       ((sO o).core.setLines (0 / 64)).length < 8) ∧
    (let o : Op := { kind := .fence true, scope := 5 }
     fenceReady (sO o) ((sO o).core.ops.take 0) o.fid true o.cls o.scope = true) := by decide +kernel

/-- The directory entry of task 0 in a state. -/
def sDir (o : Op) (w : TaskWhere) : State := { sO o with regions := [(0, { region2 with dir := [(0, { core := 0, slot := 0#4, state := w })] })] }

theorem witness_OperationEvents_targets :
    (let o : Op := { kind := .promacq 0 0 }
     may0 o = true ∧ o.started = false ∧ (find? 0 ((sDir o .lost).region 0).dir).isSome = true ∧ (find? 0 ((sDir o .saved).region 0).dir).isSome = true ∧
     (sDir o .resident).within 0 0 = true ∧ ((sDir o .resident).coreAt 0).halt = .no ∧ ((sDir o .resident).coreAt 0).moving = false) ∧
    (let o : Op := { kind := .qld true false 0 0, parts := 4 }
     qMayPerform (sO o).core 0 o = true ∧ 3 < o.parts ∧ o.done.contains 3 = false ∧ o.started = false ∧ (sDir o .resident).within 0 0 = true ∧
       (find? 0 ((sDir o .resident).region (regionOf (sO o))).dir).map DirEntry.state = some .resident) ∧
    (let o : Op := { kind := .qst false true 0 0 }
     qMayPerform (sO o).core 0 o = true ∧ (find? 0 ((sDir o .lost).region (regionOf (sO o))).dir).map DirEntry.state = some .lost) := by decide +kernel

theorem witness_OperationEvents_rest :
    (let o : Op := { kind := .engine 0 0 0 0#64 64#64 0#64 }
     o.started = false ∧ engMayStart (sO o).core 0 o = true ∧
       (o.engine.any fun e => e.listLines == [] && e.rows == 1 && ((e.rowAddr o.snap 0).any e.inSpace)) = true) ∧
    (let o : Op := { kind := .engine 1 0 0 0#64 64#64 0#64 }
     (o.engine.any fun e => e.listLines != []) = true) ∧
    (let o : Op := { kind := .engine 0 0 0 0#64 64#64 0#64, started := true, done := [partTile 0, partGlob 0] }
     (o.engine.any fun e => e.whole o) = true ∧ o.bad = none) ∧
    (let o : Op := { kind := .atom 0 0#64 0#64, resp := true }
     (o.served (sO o) 0).resp = true ∧ (o.served (sO o) 0).bad = none ∧ (sO o).core.fwm = false) ∧
    (let o : Op := { kind := .moncfg 0 1#64 }
     ((sO o).core.ops.take 0).all (fun e => match e.kind with | .moncfg .. => false | _ => true) = true) := by decide +kernel

/-- What the agents do: page 0 is mapped for reading and writing, no line of it is poisoned. -/
theorem witness_OperationEvents_bytes :
    ([.gload 0 true, .ldacq 3, .gstore 8, .strel 8, .claim [0] 8, .clwb (some 0), .clinv (some 0), .atom 7 1#64 2#64, .mred 0 [0], .mred 2 [], .mredrd 0 true] : List OpKind).all
      (fun k => may0 { kind := k } && podReady (sO { kind := k }) 0 0#64 && (agentRead (sO { kind := k }) (regionOf (sO { kind := k })) 0 64 .read).isOk &&
        (xlate (sO { kind := k }) (regionOf (sO { kind := k })) 0 .write).isOk && (xlate (sO { kind := k }) (regionOf (sO { kind := k })) 0 .both).isOk &&
        !(sO { kind := k }).lineBad 0) = true ∧
    ({ kind := .gload 0 true } : Op).agentPart 0 = true ∧ ({ kind := .ldacq 3, scope := 4 } : Op).agentPart 0 = true ∧ may0 { kind := .ldacq 3, scope := 4 } = true ∧ isHost 0 = false ∧
    GlobalWf (sO { kind := .gstore 8 }) ∧
    (let g : GLine := { valid := BitVec.allOnes 64, dirty := 1#64 }
     let s : State := { sO { kind := .clwb (some 0) } with core := { (sO { kind := .clwb (some 0) }).core with gcache := [(0, g)] } }
     s.core.gline 0 = some g ∧ sortedFrom 0 s.core.gcache = true ∧ g.valid ≠ 0#64 ∧ (xlate s (regionOf s) 0 .write).isOk = true) ∧
    countOver (cellOfLine 0).count.toNat 1 = false ∧ countOver (cellOfLine (2 ^ 361 - 2 ^ 320)).count.toNat 1 = true ∧ 2 ^ 364 + 5 < 2 ^ 365 := by
  unfold GlobalWf; decide +kernel

/-- An engine command of one row of 64 bytes that has started: from memory, to memory, a fill of memory and one of a tile. -/
theorem witness_OperationEvents_engine :
    ([(0, 64#64, false), (0, 0x80000040#64, true), (3, 0x80000040#64, true), (3, 64#64, false)] : List (Nat × W64 × Bool)).all (fun (k, desc, st) =>
      let o : Op := { kind := .engine k 0 0 0#64 desc 0#64, started := true }
      let s := sO o
      s.core.ops[inp s 0]? == some o && (xlate s (regionOf s) 0 .write).isOk && (agentRead s (regionOf s) 0 64 .read).isOk &&
        (o.engine.any fun e => e.listed o && e.stores == st && e.goodRows o.snap != [])) = true ∧
    ((({ kind := .engine 0 0 0 0#64 64#64 0#64 } : Op).engine.any fun e => e.lines [] == [0]) = true) := by decide +kernel

/-- A token in the network of region 0. -/
def sTok (m : Msg) (f : Token → Token) : State := { sW s0 with net := [f { region := 0, loc := 0, msg := m }], input := [0], clock := 1 }
def tokOf (s : State) : Token := s.net.getD 0 { region := 0, loc := 0, msg := .nrel 0#96 }
def atHome0 (t : Token) : Token := { t with dest := some 0, here := true }
/-- A name of the region's tensor. -/
def name1 : Name := 0x000000010000000000000000#96

theorem witness_NetworkEvents_tokens :
    (let s := sTok (.sub 0 0 0#96 0#96 false) id
     let t := tokOf s
     t.here = false ∧ behind s 0 t = false ∧ ((t.resolved s).any fun u => ((s.router u.loc).count 0#96 0#96 u.port).isSome) = true) ∧
    (let s := sTok (.oneShot 0#96 (.tile 0 0 0#64) none) id
     (tokOf s).here = false ∧ behind s 0 (tokOf s) = false ∧ ((tokOf s).resolved s).isSome = true) ∧
    (let s := sTok (.unsub 0 0 0#96 0#96 false) fun t => { t with dest := some 1 }
     (tokOf s).here = false ∧ behind s 0 (tokOf s) = false ∧ (((tokOf s).resolved s).any fun u => u.dest != some u.loc) = true ∧
     (s.router 0).turned.contains (0, 0) = false ∧ ({ turned := [(0, 0)] } : Router).turned.contains (0, 0) = true) ∧
    (let s := sTok (.copy ⟨0#96, 0#4, 64, 0⟩) id
     (tokOf s).here = false ∧ behind s 0 (tokOf s) = false) ∧
    (let s := sTok (.pub ⟨0#96, 0#4, 64, 0⟩) atHome0
     homeTurn s (tokOf s) = true) ∧
    (let s := { sTok (.nqry 0#96 0) atHome0 with core := { core0 with ops := [{ ser := 0, kind := .nqry 0#96 }] } }
     homeTurn s (tokOf s) = true ∧ (s.coreAt (tokOf s).src).opIdx 0 = some 0 ∧ ((s.coreAt (tokOf s).src).ops[0]?).isSome = true) ∧
    ((sTok (.withdraw 0#96 (.tile 0 0 0#64)) atHome0).net.take 0).length = 0 ∧
    (let s := sTok (.contrib 0#96 0 0 136) fun t => { atHome0 t with held := true }
     (tokOf s).held = true ∧ (tokOf s).atHome = true) ∧
    (tokOf (sTok (.ropen 0#96 0#96 1#64 0) atHome0)).held = false := by decide +kernel

theorem witness_NetworkEvents_slots :
    (let s := sTok (.contrib 0#96 0 0 136) fun t => { t with dest := some 1 }
     let t := tokOf s
     t.dest = some 1 ∧ t.loc ≠ 1 ∧ t.here = false ∧ behind s 0 t = false ∧ (s.router t.loc).slots = [] ∧ find? 0 (s.router t.loc).slots = none) ∧
    (let s := { sTok (.fetch name1 [] []) id with
        regions := [(0, { region2 with tensors := [BitVec.ofNat 256 (2 ^ 236 + 255 * 2 ^ 166 + 64 * 2 ^ 70 + 1)] })], tlb := [page0 0] }
     let d := descAt s 0 0 name1
     linesOf ((backing d name1).getD 0) (dSize d) = [1, 2, 3, 4] ∧ (agentRead s 0 (64 * 1) 64 .read).isOk = true) ∧
    (let s := { sTok (.fetch name1 [(1, 0#512), (2, 0#512), (3, 0#512)] []) id with
        regions := [(0, { region2 with tensors := [BitVec.ofNat 256 (2 ^ 236 + 255 * 2 ^ 166 + 64 * 2 ^ 70 + 1)] })], tlb := [page0 0], input := [0, 3] }
     (agentRead s 0 (64 * 4) 64 .read).isOk = true ∧ (insert 4 0#512 [(1, 0#512), (2, 0#512), (3, 0#512)]).length = 4) ∧
    (let s := sTok (.give ⟨name1, 0#4, 64, 0⟩ 0 0) id
     holderOf s 0 0 = some (0, 0#4) ∧ s.within 0 0 = true ∧ (s.coreAt 0).halt = .no ∧ (s.net.take 0).length = 0 ∧
     ((s.coreAt 0).deliverStanding 0#4 0 ⟨name1, 0#4, 64, 0⟩ none).2 = true) ∧
    (let s := sTok (.withdrawn name1 0 0 false) id
     holderOf s 0 0 = some (0, 0#4) ∧ s.within 0 0 = true ∧ (s.coreAt 0).halt = .no) := by decide +kernel

/-- A token at its home, and what the home's router holds. -/
def sHome (m : Msg) (r : Router) : State := { sTok m atHome0 with routers := [(0, r)] }
/-- The region's tensor with a backing at 4 KB, and with a hold of one round or of 3 deliveries. -/
def withTensor (x : BitVec 256) (s : State) : State := { s with regions := [(0, { region2 with tensors := [region2.tensors.headD 0#256 ||| x] })], tlb := [page0 0] }
def parcel1 : Parcel := ⟨name1, 3#4, 256, 5⟩
def aired1 : Aired := { name := name1, state := .held, hkind := 1, hcnt := 1#8, tag := 3#4, size := 256 }

theorem witness_NetworkEvents_paths :
    (let s := { sTok (.sub 0 0 0#96 0#96 false) (fun t => { t with dest := some 1 }) with
        routers := [(0, { table := List.replicate 1024 { name := name1, mask := 0#96 } })] }
     (tokOf s).here = false ∧ behind s 0 (tokOf s) = false ∧ (tokOf s).resolved s = some (tokOf s) ∧ (tokOf s).dest ≠ some (tokOf s).loc ∧
       ((s.router 0).count 0#96 0#96 0) = none) ∧
    (let s := sTok (.unsub 0 0 name1 0#96 false) id
     (tokOf s).here = false ∧ ((tokOf s).resolved s).any (fun u => u.dest == some u.loc) = true) ∧
    (let s := sHome (.unsub 0 0 name1 0#96 true) { directs := [(0, 0, name1, 0#96)] }
     homeTurn s (tokOf s) = true ∧ behind s 0 (tokOf s) = false ∧ (s.router 0).directs ≠ []) ∧
    (let s := sHome (.unsub 0 0 name1 0#96 false) {}
     homeTurn s (tokOf s) = true ∧ ((tokOf s).resolved s).any (fun u => u.path.dropLast.all (· == u.loc)) = true ∧ (s.router 0).turned.contains (0, 0) = false) ∧
    (let s := sTok (.pub parcel1) fun t => { t with dest := some 1 }
     (tokOf s).here = false ∧ behind s 0 (tokOf s) = false ∧ (tokOf s).loc ≠ 1) ∧
    (sTok (.pub parcel1) fun t => { t with dest := some 0 }).net.length = 1 := by decide +kernel

theorem witness_NetworkEvents_homes :
    (let s := withTensor (BitVec.ofNat 256 (2 ^ 230 + 3 * 2 ^ 222)) (sHome (.pub parcel1) { shots := [{ name := name1, who := .tile 0 0 0#64 }], directs := [(0, 1, name1, BitVec.allOnes 96)] })
     homeTurn s (tokOf s) = true ∧ (tokOf s).fetched = false ∧ holds (descAt s 0 0 name1) = true ∧ reduces s (tokOf s) name1 = false ∧
       ({} : Router).freeRun 4 = some 0 ∧ (s.router 0).air.wf = true ∧ matchesPat name1 name1 (BitVec.allOnes 96) = true) ∧
    (let s := sHome (.oneShot name1 (.tile 0 0 0#64) none) { airDir := [aired1] }
     homeTurn s (tokOf s) = true ∧ (tokOf s).held = false ∧ (s.router 0).airDir.find? (fun a => a.name == name1 && a.state != .pending) = some aired1) ∧
    (let s := sHome (.oneShot name1 (.tile 0 0 0#64) none) {}
     (s.router 0).airDir.find? (fun a => a.name == name1 && a.state != .pending) = none ∧ (s.router 0).shots.length < 64 ∧
       backing (descAt s 0 0 name1) name1 = none ∧ reduces s (tokOf s) name1 = false) ∧
    (let s := withTensor (BitVec.ofNat 256 (64 * 2 ^ 70)) (sHome (.oneShot name1 (.tile 0 0 0#64) none) {})
     (backing (descAt s 0 0 name1) name1).isSome = true ∧ reduces s (tokOf s) name1 = false ∧ (s.router 0).airDir.length < 256) ∧
    64 ≤ ({ shots := List.replicate 64 { name := name1, who := .tile 0 0 0#64 } } : Router).shots.length ∧
    256 ≤ ({ airDir := List.replicate 256 { aired1 with name := 0#96 } } : Router).airDir.length ∧
    (let s := sHome (.sub 0 0 name1 (BitVec.allOnes 96) true) { airDir := [aired1] }
     homeTurn s (tokOf s) = true ∧ (s.router 0).directs.length < 256 ∧ matchesPat aired1.name name1 (BitVec.allOnes 96) = true ∧
       answers (exec .subscriptionAtHome s) = true ∧ backing (descAt s 0 0 name1) name1 = none) := by decide +kernel

theorem witness_NetworkEvents_reductions :
    (let e : RedEntry := { name := name1, nelem := 64, place := 0, counts := [2 ^ 40 - 1] }
     let s := sHome (.contrib name1 0 (2 ^ 64 - 1) 136) { reds := [e] }
     homeTurn s (tokOf s) = true ∧ redIdx (s.router 0) name1 = some 0 ∧ (s.router 0).reds[0]? = some e ∧ (s.router 0).air.wf = true ∧
       countOver (e.counts.getD 0 0) 1 = false ∧ countOver (e.counts.getD 0 0) 2 = true) ∧
    (let s := sHome (.contrib name1 0 1 136) {}
     redIdx (s.router 0) name1 = none ∧ redShape (descAt s 0 0 name1) = some (64, 1) ∧ ({} : Router).freeRun 64 = some 0 ∧ countOver 0 (chunkOf 1 136).count = false) ∧
    (let s := sHome (.contrib name1 0 1 136) { table := List.replicate 1024 { name := 0#96, mask := 0#96 } }
     redIdx (s.router 0) name1 = none ∧ (redAlloc s 0 0 name1).isNone = true) ∧
    (let e : RedEntry := { name := name1, nelem := 64, place := 0 }
     let s := sHome (.ropen name1 0#96 3#64 0) { reds := [e] }
     homeTurn s (tokOf s) = true ∧ (s.router 0).reds.findIdx? (fun e => e.name == name1 && !e.opened) = some 0 ∧
       ({ e with opened := true } : RedEntry).opened = true) ∧
    (let sl : RedSlot := { chunk := 0, count := 1, name := name1 }
     let s := { sTok (.contrib name1 0 1 136) (fun t => { t with dest := some 1 }) with routers := [(0, { slots := [(0, sl)] })] }
     behind s 0 (tokOf s) = false ∧ (s.router 0).slots.find? (fun p => p.2.name == name1 && p.2.chunk == 0 && !p.2.flushing) = some (0, sl) ∧
       countOver 1 (chunkOf 1 136).count = false ∧ countOver (2 ^ 40) (chunkOf 1 136).count = true) ∧
    (let s := { sTok (.contrib name1 0 1 136) (fun t => { t with dest := some 1 }) with
        routers := [(0, { slots := (List.range 16).map fun i => (i, { chunk := 1, count := 1, name := name1 }) })] }
     (∀ p ∈ (s.router 0).slots, p.2.name ≠ name1 ∨ p.2.chunk ≠ 0 ∨ p.2.flushing = true) ∧ ∀ i, i < 16 → (find? i (s.router 0).slots).isSome = true) := by
  decide +kernel

/-- A standing subscription 0 of slot 0 for the name, with tile 0; a delivery, and one for tile 0's one-shot. -/
def sGive (m : Msg) (t : Tile) : State :=
  { sTok m id with core := { core0 with
      tiles := [(0, t)], slots := core0.slots.set 0 { subs := [{ tensor := 1#20, coord := [], gen := none, buf := 1#2, tile := 0, depth := 1 }] } } }
theorem witness_NetworkEvents_deliveries :
    (let t : Tile := { tileOf 1#2 0 256 0#4 with state := .filling, filler := .delivery none, name := name1, nb := true }
     let s := sGive (.give parcel1 0 0) t
     let c := s.coreAt 0
     (tokOf s).entry s = none ∧ (tokOf s).targetCore s = some 0 ∧ c.takesNone = false ∧
       (c.slots[0].subs[0]?.any fun pat => c.verdict c.slots[0] pat name1 == .take 0) = true ∧ parcel1.size ≤ (c.tile 0).size ∧
     (let s := sGive (.giveTo parcel1 (.tile 0 0 0#64)) t
      (tokOf s).targetCore s = some 0 ∧ (s.coreAt 0).faultRoom 0#64 = true ∧ ((s.coreAt 0).tile 0).holds = 0#5)) ∧
    (let s := { sTok (.arrive parcel1 none) (fun t => { t with loc := 1 }) with clock := 2 }
     (tokOf s).entry s = none ∧ (tokOf s).targetCore s = some 1 ∧ s.within 0 1 = false) ∧
    (let s := sTok (.give parcel1 0 0) fun t => { t with loc := 1 }
     (tokOf s).targetCore s = some 0 ∧ s.within 0 0 = true ∧ (tokOf s).loc ≠ 0) := by decide +kernel

theorem witness_PublicationEvents :
    (let o : Op := { kind := .pub name1 0 true }
     let s := sO o
     let u := waferRelease s
     let t := s.core.tile 0
     allPerformed (s.core.ops.take 0) o.fid = true ∧ (acceptPub u 0 s.cur s.cur o.fid ⟨name1, t.tag, t.size, u.core.load t.buf t.base t.size⟩).isSome = true) ∧
    (let o : Op := { kind := .pubr name1 0 }
     let s := { sO o with core := { (sO o).core with tiles := [(0, tileOf 1#2 0 256 3#4)] } }
     redShape (descAt s 0 0 name1) = some (64, 1) ∧
     ((redChunks 3#4 64 1 256 0).any fun ch => (acceptContrib s 0 0 0 o.fid name1 ch).isSome) = true) ∧
    (let s : State := { sW s0 with input := [0, 0], routers := [(0, { slots := [(0, { flushing := true, chunk := 0, count := 1, name := name1 })] })] }
     ((find? (inp s 1) (s.router (inp s 0)).slots).any fun sl => sl.flushing && (resolve s (regionOfName s sl.name) 0 sl.name).isSome) = true) ∧
    (let e : RedEntry := { name := name1, opened := true, dcount := 1, nelem := 64, place := 0, cdone := 1, rname := name1 }
     let s : State := { sW s0 with input := [0, 0], routers := [(0, { reds := [e] })] }
     let reg := regionOfName s e.name
     e.completing = true ∧ (acceptPub (redCache s reg 0 e) reg 0 0 (BitVec.allOnes 64) (redResult s reg 0 e)).isSome = true) := by
  decide +kernel

/-- A publication and a contribution whose home is known or not, a slot's and a reduction's home; a hand-over whose old holder lies outside. -/
theorem witness_PublicationEvents_homes :
    resolve (sO { kind := .pub name1 0 false }) 0 0 name1 = some 0 ∧ resolve s0 0 0 name1 = none ∧
    (let s : State := { sO { kind := .pubr name1 0 } with core := { (sO { kind := .pubr name1 0 }).core with tiles := [(0, tileOf 1#2 0 256 3#4)] } }
     redChunks (s.core.tile 0).tag 64 1 (s.core.tile 0).size (s.core.load (s.core.tile 0).buf (s.core.tile 0).base (s.core.tile 0).size) ≠ none) := by
  decide +kernel

/-- Two cores, one task, a second core to take its work. -/
def sTwo (input : List Nat) : State :=
  { sW s0 with input := input, core := { core0 with running := false }, parked := [(1, { core0 with running := false })]
               regions := [(0, { region2 with w := 2 })] }

theorem witness_HandOver :
    (let s := sTwo [0, 1, 0, 1]
     (s.region 0).live = true ∧ inp s 3 ∈ (s.region 0).cores s ∧ ((find? 0 (s.region 0).home).any fun e => !e.ho) = true) ∧
    (let s : State := { sTwo [0, 1, 0, 1] with regions := [(0, { region2 with w := 2, home := [(0, { router := 0, ho := true })] })] }
     ((find? 0 (s.region 0).home).any fun e => e.ho && (moveHome s 0 0 1 e).isSome && (moveHome s 0 0 0 e).isSome) = true) ∧
    (let s := sTwo [0, 0, 0, 1, 15]
     inp s 3 ∈ (s.region 0).cores s ∧ inp s 1 ≠ 1 ∧ ((find? 0 (s.region 0).dir).any fun e => e.state == .resident) = true) ∧
    (let s : State := { sTwo [0, 0, 0, 1, 15] with
        regions := [(0, { region2 with w := 2, dir := [(0, { core := 0, slot := 0#4, state := .rebinding })] })] }
     ((find? 0 (s.region 0).dir).any fun e => e.state == .rebinding && (moveTask s 0 0 1 15#4 e).isSome) = true) := by decide +kernel

theorem witness_HandOver_border :
    (let s : State := { sTwo [0, 1, 0, 1] with regions := [(0, { region2 with w := 2, home := [(0, { router := 7 })] })] }
     ((find? 0 (s.region 0).home).any fun e => !e.ho && !s.within 0 e.router) = true) ∧
    (let s : State := { sTwo [0, 1, 0, 1] with regions := [(0, { region2 with w := 2, home := [(0, { router := 7, ho := true })] })] }
     ((find? 0 (s.region 0).home).any fun e => e.ho && !s.within 0 e.router) = true) ∧
    (let s : State := { sTwo [0, 0, 0, 1, 15] with regions := [(0, { region2 with w := 2, dir := [(0, { core := 7, slot := 0#4 })] })] }
     ((find? 0 (s.region 0).dir).any fun e => e.state == .resident && !s.within 0 e.core) = true) ∧
    (let s : State := { sTwo [0, 0, 0, 1, 15] with regions := [(0, { region2 with w := 2, dir := [(0, { core := 7, slot := 0#4, state := .rebinding })] })] }
     ((find? 0 (s.region 0).dir).any fun e => e.state == .rebinding && !s.within 0 e.core) = true) := by decide +kernel

/-! Launch, traps, contexts. -/

/-- Page tables for the first 8 MB of queue 0's region: 2 MB pages, one on each of ports 0 to 3. -/
def tables : Memory :=
  [(0x1000, 0x01#8), (0x1001, 0x20#8), (0x2000, 0x01#8), (0x2001, 0x30#8), (0x3000, 0x01#8), (0x3001, 0x40#8), (0x4000, 0x1F#8), (0x4008, 0x1F#8), (0x400C, 0x10#8), (0x4010, 0x1F#8), (0x4014, 0x20#8), (0x4018, 0x1F#8), (0x401C, 0x30#8)]

/-- The smallest image: no kernel, no template, one home; its save area lies behind its spill area. -/
def image1 : Memory :=
  [(0x0, 0x47#8), (0x1, 0x4B#8), (0x2, 0x01#8), (0x4, 0x90#8), (0x8, 0x02#8), (0xA, 0x02#8), (0xC, 0x01#8), (0x1A, 0x01#8), (0x22, 0x09#8), (0x30, 0x80#8), (0x38, 0x80#8), (0x40, 0x80#8), (0x48, 0x80#8), (0x50, 0x80#8), (0x54, 0x08#8), (0x58, 0x88#8), (0x5C, 0x08#8), (0x60, 0x80#8), (0x68, 0x80#8)]

/-- LAUNCH of a region of 2 by 2 cores in space 1, ROOT 0x1000, COMPL 0x780000; a record of zeros; an ABORT. -/
def record1 : Memory := [(0x2, 0x01#8), (0x8, 0x02#8), (0xA, 0x02#8), (0x18, 0x90#8), (0x21, 0x10#8), (0x2A, 0x78#8)]

def sLaunch (ring : Memory) : State :=
  { s0 with
    core := { core0 with running := false }, hbm := tables, host := image1, ports := 0xF#32, input := [0, 0, 1]
    bridge := { phase := 6#4, leader := some 0 }, reticles := [(0, { phase := .leader, lrow := 0 })]
    pages := [(0, { ring := ring, tail := 1#16 })], doorbells := [(0, 0#16)] }

theorem witness_Launch_ok :
    nextLaunch (sLaunch record1) = some (0, 0#16) ∧ ((sLaunch record1).region 0).phase ≠ .loading ∧
    (let s := sLaunch record1
     let r := recordAt s 0 0#16
     let u : State := { s with doorbells := s.doorbells.erase (0, 0#16), roots := insert 0 (rf r 256 64) s.roots, tlb := s.tlb.filter fun t => t.region != 0 }
     (checkLaunch u 0 r (inp s 1 == 1) (s.input.drop 2)).isOk = true) := by decide +kernel

theorem witness_Launch_refused :
    nextLaunch (sLaunch []) = some (0, 0#16) ∧
    (let s := sLaunch []
     let r := recordAt s 0 0#16
     let u : State := { s with doorbells := s.doorbells.erase (0, 0#16), roots := insert 0 (rf r 256 64) s.roots, tlb := s.tlb.filter fun t => t.region != 0 }
     (checkLaunch u 0 r (inp s 1 == 1) (s.input.drop 2)).isOk = false) := by decide +kernel

/-- Region 0 in a phase. -/
def sPhase (p : Phase) : State := { sW s0 with core := { core0 with running := false }, regions := [(0, { region2 with phase := p })], input := [0] }

theorem witness_LaunchAndFiringEvents :
    (let s := sLaunch record1
     let p := s.page 0
     s.bridge.phase = 6#4 ∧ ((16#16 : BitVec 16) - p.head).toNat ≤ 16 ∧ ((16#16 : BitVec 16) - p.tail).toNat ≤ 16 ∧ 16 < ((17#16 : BitVec 16) - p.head).toNat) ∧
    (((sPhase .loading).region 0).phase = .loading ∧ (sPhase .loading).net = []) ∧
    ((sLaunch [(0, 1#8)]).doorbells.find? fun d => d.1 == 0 && isAbort (sLaunch [(0, 1#8)]) d) = some (0, 0#16) ∧
    (((sPhase .running).region 0).live = true ∧ ((sPhase .running).region 0).phase ≠ .ending ∧ ((sLaunch [(0, 1#8)]).region 0).live = false) ∧
    mayComplete (sPhase .running) 0 = true ∧ (mayComplete (sPhase .ending) 0 = false ∧ endedFree (sPhase .ending) 0 = true) ∧
    (let e : Ready := { kind := .record, slot := 0#4, prio := 0#3, rdyseq := 0#32, fid := 1#64 }
     let s : State := { sW s0 with core := { core0 with running := false, ready := [e] } }
     begun s = true ∧ s.core.running = false ∧ s.core.fwm = false ∧ s.core.halt = .no ∧ s.core.hreq = false ∧ bestReady s.core.detmode s.core.ready = some e) ∧
    (let s : State := { s0 with core := { core0 with ending := .fend } }
     s.core.halt = .no ∧ s.core.fwm = false ∧ s.core.faults = [] ∧ mayRetire s = true) ∧
    (let s : State := { s0 with core := { core0 with ending := .trapEnd } }
     s.core.halt = .no ∧ mayRetire s = true) ∧
    (let o : Op := { kind := .launchr 0#64 1#64 }
     let s := { sO o with core := { (sO o).core with bufA := [(2, 32#8)] } }
     let x := readRecord (readLaunchLine s.core (0 / 64) o) 0
     s.core.halt = .no ∧ s.core.hreq = false ∧ o.started = false ∧ o.next < (1#64).toNat ∧ x.clean = true ∧ x.task = 0 ∧ x.task < taskCount s ∧
     1 ≤ x.rows ∧ x.rows ≤ 32 ∧ (find? x.task (s.region (regionOf s)).dir).isSome = true ∧ s.within (regionOf s) 0 = true ∧
     (s.coreAt 0).holdsFid 1#64 = false ∧ (s.coreAt 0).poolUsed < 192) ∧
    (let o : Op := { kind := .launchr 0#64 1#64 }
     (readRecord (readLaunchLine (sO o).core 0 o) 0).rows = 0) ∧
    (let o : Op := { kind := .launchr 0#64 1#64, next := 1 }
     (1#64).toNat ≤ o.next ∧ o.bad = none) := by decide +kernel

/-- The best ready entry of each kind. -/
theorem witness_LaunchAndFiringEvents_kinds :
    ([.yielded, .spawn, .record, .subscription] : List ReadyKind).all (fun k =>
      let e : Ready := { kind := k, slot := 0#4, prio := 0#3, rdyseq := 0#32, fid := 1#64 }
      let s : State := { sW s0 with core := { core0 with running := false, ready := [e] } }
      begun s && bestReady s.core.detmode s.core.ready == some e) = true := by decide +kernel

/-- The core in focus holds work of region 0, whose save area is page 0 with an image in it. -/
def sSave (p : Phase) (h : Halt) (lost : Bool) : State :=
  { sW s0 with core := { core0 with halt := h }, regions := [(0, { region2 with phase := p, lost := lost })], tlb := [page0 0, page0 16], hbm := imgHbm, input := [0, 0] }

theorem witness_TrapAndContextEvents :
    ((let c := { onWay .none with pend := [{ rem := 0, put := .none }] }
      c.pend[0]? = some { rem := 0, put := .none } ∧ c.halt = .no)) ∧
    (let c : Core := { core0 with lq := [{ rem := 0, put := .none }] }
     c.lq[0]? = some { rem := 0, put := .none } ∧ c.halt = .no ∧ c.fwm = false) ∧
    (let c : Core := { core0 with faults := [{ cause := .poison, val := 8#64 }] }
     c.running = true ∧ c.fwm = false ∧ c.halt = .no ∧ c.faults = { cause := .poison, val := 8#64 } :: []) ∧
    ({ core0 with wdlim := 1#32, wdFrozen := 1000000000 } : Core).watchdogVal.isSome = true ∧
    ((sSave .running .no false).region 0).phase = .running ∧ ((sSave .saved (.region true) false).region 0).phase = .saved ∧
    (((sSave .resuming (.region true) false).region 0).phase = .resuming ∧ saveOpen (sSave .resuming (.region true) false) 0 = false) ∧
    (((sSave .halting .no false).region 0).phase = .halting ∧ 0 ∈ ((sSave .halting .no false).region 0).cores (sSave .halting .no false)) ∧
    ((sSave .halting .no false).core.maySplit = true ∧ ({ core0 with ending := .yield } : Core).maySplit = false) ∧
    (collected (sSave .halting (.region false) false) = true ∧ mayEnd (sSave .halting (.region false) false) = false ∧ ((sSave .halting (.region false) false).region 0).live = true) ∧
    ((sSave .running .failed true).region 0).lost = true := by decide +kernel

theorem witness_SaveSequence :
    ∃ u, saveAt 0 (((sSave .halting (.region false) false).region 0).saveArea (sSave .halting (.region false) false) 0)
      (sSave .halting (.region false) false).core.applyTc (sSave .halting (.region false) false) = (u, none) :=
  save_ok _ _ rfl rfl

theorem load_not_refused (c : Core) (h : c.region = 0#32) (s : State) (ht : s.tlb = [page0 0, page0 16]) (hb : s.hbm = imgHbm) (hl : s.badLine = [])
    (st : Nat) (hs : loadAt 0 0 c s = .inl st) : False := by
  obtain ⟨k, hk⟩ := load_image c h s ht hb hl
  rw [hk] at hs; cases hs

theorem resume_page0 (s : State) (n : Nat) (h : (s.coreAt n).region = 0#32) (ht : s.tlb = [page0 0, page0 16]) (hb : s.hbm = imgHbm) (hl : s.badLine = []) :
    ∃ t, resumeCore 0 0 n s = some t := by
  obtain ⟨k, hk⟩ := load_image (s.coreAt n) h s ht hb hl
  unfold resumeCore
  rw [hk]
  exact ⟨_, rfl⟩

theorem saveArea_resuming : ((sSave .resuming (.region true) false).region 0).saveArea (sSave .resuming (.region true) false) 0 = 0 := by decide +kernel
theorem saveArea_running : ((sSave .running (.region true) false).region 0).saveArea (sSave .running (.region true) false) 0 = 0 := by decide +kernel

theorem witness_PreemptResume :
    ((((sSave .resuming (.region true) false).region 0).cores (sSave .resuming (.region true) false)).filter
      fun n => ((sSave .resuming (.region true) false).coreAt n).halt == .region true) = [0] ∧
    ∃ t, [0].foldlM (fun u n => resumeCore 0 (((sSave .resuming (.region true) false).region 0).saveArea (sSave .resuming (.region true) false) n) n u)
      (sSave .resuming (.region true) false) = some t := by
  refine ⟨by decide +kernel, ?_⟩
  obtain ⟨t, ht⟩ := resume_page0 (sSave .resuming (.region true) false) 0 rfl rfl rfl rfl
  refine ⟨t, ?_⟩
  rw [List.foldlM_cons, saveArea_resuming, ht]
  rfl

theorem witness_CoreSave :
    (sSave .running (.region true) false).core.halt = .region true ∧ inp (sSave .running (.region true) false) 0 = (sSave .running (.region true) false).cur ∧
    ∃ t, restoreHere 0 (((sSave .running (.region true) false).region 0).saveArea (sSave .running (.region true) false) 0) 0 (sSave .running (.region true) false) = some t := by
  refine ⟨rfl, rfl, ?_⟩
  rw [saveArea_running]
  obtain ⟨t, ht⟩ := resume_page0 (sSave .running (.region true) false) 0 rfl rfl rfl rfl
  unfold restoreHere
  rw [ht]
  exact ⟨_, rfl⟩

theorem restore_page0 (s : State) (n : Nat) (hn : (s.region 0).number s n = 0) (h : (s.coreAt n).region = 0#32) (ht : s.tlb = [page0 0, page0 16])
    (hb : s.hbm = imgHbm) (hl : s.badLine = []) : ∃ t, restoreCore 0 0 id s n = some t := by
  have hv : ((s.coreAt n).vacate).region = 0#32 := h
  unfold restoreCore
  extract_lets r dst slots src k
  rw [show r.number s n = 0 from hn, Nat.mul_zero, Nat.add_zero]
  have hk : k.region = 0#32 := hv
  clear_value k
  split
  · rename_i st hs
    exact (load_not_refused k hk s ht hb hl st hs).elim
  · exact ⟨_, rfl⟩

/-- The state in which the work of a checkpoint restart begins. -/
def sRestart : State := ((sSave .running .no true).onRouter 0 Router.cleared).onRegion 0 fun r => { r with subPath := [], left := [] }
theorem number_restart : (sRestart.region 0).number sRestart 0 = 0 := by decide +kernel

/-- No core of the region has failed, and its one core is restored from page 0. -/
theorem witness_CheckpointRestart :
    (let s := sSave .running .no true
     (s.region 0).live = true ∧ (s.region 0).lost = true ∧ (((s.region 0).cores s).filter fun n => (s.region 0).dir.any fun e => e.2.core == n) = [0] ∧
     (((s.region 0).cores s).filter fun n => (s.coreAt n).halt == .failed && (s.region 0).dir.any fun e => e.2.core == n) = []) ∧
    ∃ u, [0].foldlM (restoreCore 0 0 id) sRestart = some u := by
  refine ⟨by decide +kernel, ?_⟩
  obtain ⟨t, ht⟩ := restore_page0 sRestart 0 number_restart (by rfl) rfl rfl rfl
  refine ⟨t, ?_⟩
  rw [List.foldlM_cons, ht]
  rfl
/-! Edge blocks, counters and time, the host, bring-up. -/

/-- Port 0's block of region 0, that an event names. -/
def sEdge (b : Block) (input : List Nat) : State := { sW s0 with blocks := [(0, { b with owner := some 0 })], input := input, tlb := [page0 0] }
def cmd (cfg : Option W64) (par : BitVec 32) : EdgeCmd := { core := 0, fid := 0#64, fw := false, tc := 0#4, cfg := cfg, par := par }
/-- A plane with one binding, a subscription, and one point. -/
def plane1 : Memory := [(0x58, 1#8)]

theorem witness_EdgeEvents_commands :
    (let s := sEdge { queue := [cmd (some 0#64) 0#32] } [0]
     let b := s.block 0
     inp s 0 ≤ 31 ∧ b.owner = some 0 ∧ (s.region 0).phase = .running ∧ b.shadow = none ∧ b.malformed = false) ∧
    (let b := (sEdge { queue := [cmd (some 0#64) 0#32], shadow := some plane1 } [0]).block 0
     b.state = .idle ∧ b.quiet = true ∧ b.malformed = false ∧ b.shadow = some plane1) ∧
    (let b := (sEdge { queue := [cmd (some 0#64) 0#32], malformed := true } [0]).block 0
     b.state = .idle ∧ b.quiet = true ∧ b.malformed = true) ∧
    (let b := (sEdge { queue := [cmd none 0x00FFFFFF#32], plane := some plane1, state := .configured } [0]).block 0
     b.queue = [cmd none 0x00FFFFFF#32] ∧ b.plane = some plane1 ∧ b.state = .configured ∧ (0x00FFFFFF#32).extractLsb' 24 8 = 0#8 ∧
     (0x01000000#32).extractLsb' 24 8 ≠ 0#8) := by decide +kernel

/-- A block of which n lines of its image have come, after an ECFG_IMAGE_READ of line k. -/
def sLoad (n k : Nat) : Block :=
  let s := sEdge { queue := [cmd (some 0#64) 0#32], load := (List.range n).map fun i => (i, 0#512) } [0, k]
  ((planeLines s).foldl (readPlaneLine 0 (0#64).toNat) (s, s.block 0)).2

theorem witness_EdgeEvents_image :
    ((sLoad 655 655).loaded && (sLoad 655 655).loadBad.isEmpty && !(sLoad 0 3).loaded && (sLoad 0 3).load.length == 1) = true := by
  decide +kernel

theorem witness_EdgeEvents_period :
    (let b := (sEdge { plane := some plane1, state := .running } [0]).block 0
     b.nextArm plane1 = some (0, 0)) ∧
    (let b := (sEdge { state := .running, elems := [(0, { out := [(0x12, ({} : ETok))] })] } [0, 0, 0]).block 0
     (b.elem 0).out[0]? = some (0x12, ({} : ETok)) ∧ (b.elem 0).firstOut 0 0x12 0#4 = true ∧ destElem 0 0x12 = some 1 ∧
     ((b.setElem 0 { b.elem 0 with out := [] }).elem 1).halted = false ∧ (((b.setElem 0 { b.elem 0 with out := [] }).elem 1).queue 0).length < 2) ∧
    (({ halted := true } : Element).halted = true) ∧
    (let s := sEdge { plane := some plane1, state := .draining } [0]
     let b := s.block 0
     b.quiet = true ∧ b.periodFaults s 0 0 = [] ∧
     ((s.coreAt (cmdCore s 0 b.ownerCore b.ownerFid).1).faultsOf b.ownerFid).length + (b.periodFaults s 0 0).length ≤ 16 ∧
     (acceptTile s 0 (entryRouter s 0 0) (entryRouter s 0 0) (BitVec.allOnes 64) (b.completion plane1)).isSome = true) ∧
    (let s := sEdge { plane := some plane1, state := .draining, perDrop := 1#32 } [0]
     let b := s.block 0
     let owner := (cmdCore s 0 b.ownerCore b.ownerFid).1
     b.quiet = true ∧ b.periodFaults s 0 0 ≠ [] ∧ ((s.coreAt owner).faultsOf b.ownerFid).length + (b.periodFaults s 0 0).length ≤ 16 ∧
     ((acceptTile s 0 (entryRouter s 0 0) (entryRouter s 0 0) (BitVec.allOnes 64) (b.completion plane1)).any fun u =>
       ((unlistAll 0 u).setBlock 0 b).within 0 owner) = true) := by decide +kernel

theorem witness_EdgeEvents_drain :
    (let s := sEdge { plane := some [], state := .running, waited := 65536 } [0]
     let b := s.block 0
     planeDwd [] ≤ b.waited ∧ ({} : Block).waited < planeDwd [] ∧ b.canStart s [] = false ∧ b.canMove = false ∧ b.nextArm [] = none ∧ ∀ k, k < b.tiles.length → edgePubTry 0 k s = none) ∧
    (let b := (sEdge { plane := some [], state := .draining, waited := 65536, elems := [(0, { queues := [(0, [({} : ETok)])] })] } [0]).block 0
     b.plane = some [] ∧ b.state = .draining ∧ b.quiet = false ∧ planeDwd [] ≤ b.waited) ∧
    (let s := { sEdge {} [0, 15, 0] with links := [(0, { up := true, farw := 1#6 })], bridge := { podmemb := Vector.replicate 16 2#64, podcfg := 0x80000100#32 } }
     inp s 1 ≤ 15 ∧ (s.link 0).up = true ∧ linkOwned s 0 0 = true ∧ (findD 15 [] (s.block 0).rx).length < 64 ∧ (ETok.ofBits (inp s 2)).fmt ≠ 0xE#4 ∧
     (s.link 0).absent = false ∧ (s.link 0).down = false ∧ s.bridge.podcfg.getLsbD 31 = true) ∧
    ((sO { kind := .estat 0 }).core.ops.take 0 = [] ∧ (sO { kind := .eabort 0 }).core.ops[0]? = some { kind := .eabort 0 } ∧
      ({ kind := .eabort 0 } : Op).started = false ∧ ((sEdge { state := .aborting } [0]).block 0).state = .aborting) := by decide +kernel

theorem witness_CounterEvents :
    (let o : Op := { kind := .bar 5 true 1#32, scope := 5 }
     (sO o).core.ops[0]? = some o ∧ barReady (sO o) 0 o 5 = true) ∧
    ((({} : Node).cur + 1 = (membersOf (sW s0) 0 1 (unitOf (sW s0) 1 0)).length) ∧ ({} : Node).nxt < 1 ∧ ((sW s0).region 0).lost = false) ∧
    (let s : State := { sTwo [0] with regions := [(0, { region2 with w := 2, dir := [(0, { core := 0, slot := 0#4 }), (1, { core := 1, slot := 0#4 })] })] }
     ({} : Node).cur + 1 < (membersOf s 0 4 (unitOf s 4 0)).length) ∧
    (let n : Node := { inst := 0x80000001#32 }
     (0x7FFFFFFF#32 - n.inst).toInt ≤ 0 ∧ ¬ (n.inst + 1#32 - n.inst).toInt ≤ 0) ∧
    (let s : State := { sW s0 with notices := [⟨0, 0, 5, 1#32⟩] }
     s.net = [] ∧ s.notices[0]? = some ⟨0, 0, 5, 1#32⟩ ∧ (s.coreAt 0).halt = .no ∧ (s.coreAt 0).hreq = false) ∧
    ((sW s0).bridge.leader ≠ some 47 ∧ ({ leader := some 47 } : Bridge).leader = some 47 ∧ (timeAt (sW s0) 48).toNat ≤ 32 + 32 ∧ ((sW s0).reticle 47).time.toNat ≤ 32 ∧ 32 ≤ (timeAt (sW s0) 48).toNat + 32) ∧
    (let s : State := { sW s0 with reticles := [(0, { captures := [(15, { cfg := 0x800000000000000C#64 })] })], input := [0, 0] }
     records s 0 15 (inp s 1) 12 0 = true ∧ records s 0 14 (inp s 1) 12 0 = false) ∧
    (let s : State := { sW s0 with reticles := [(0, { captures := [(15, { cfg := 0x8000000000000006#64 })] })] }
     records s 0 15 ((grantOf s 0 15).extractLsb' 0 4).toNat 6 (fld (s.capture 0 15).cfg 16 16) = true) ∧
    (({} : Capture).last ≠ some 5) ∧
    (let q : Region := { region2 with netwq := [(1, 9#32), (0, 1#32)], netwOut := [(0, 1#32)] }
     q.netwq[1]? = some (0, 1#32) ∧ (∀ e ∈ q.netwq.take 1, e.1 ≠ 0) ∧ q.netwOut[0]? = some (0, 1#32)) := by decide +kernel

/-- The bridge when the module is ready. -/
def sReady (b : Bridge) : State := { sW s0 with bridge := { b with phase := 6#4 } }

theorem witness_HostEvents :
    (let s : State := { sReady {} with input := [16, 0], queues := [(16, { base := 0x1000#64, size := 4#8, staged := [{ ctl := 48, bits := 0#256 }] })] }
     inp s 0 ≤ 16 ∧ (s.queue 16).staged[0]? = some { ctl := 48, bits := 0#256 } ∧ (s.queue 16).full = false ∧ (s.queue 16).staged.take 0 = []) ∧
    ((sReady {}).bridge.phase = 6#4 ∧ (sReady {}).bridge.wtset = false ∧ (timeAt (sReady {}) 48).toNat ≤ 1) ∧
    ((sReady { fetched := true }).bridge.fetched = true ∧ (sReady { fetched := true }).bridge.attBusy = false ∧ (sReady { attBusy := true }).bridge.attBusy = true) ∧
    (let s := { sReady {} with input := [16, 0x1F03F8, 5] }
     inp s 0 = 16 ∧ inp s 1 = 0x100000 + 0x10000 * 15 + 0x3F8 ∧ 0x3F8 < 0x400 ∧ 0x3F8 % 8 = 0) ∧
    (let s := { State.reset with input := [16, 0x100, 0] }
     inp s 1 = 0x100 ∧ ∀ p ∈ s.regions, p.2.runs = false) ∧
    ((sW s0).bridge.phase ≠ 6#4) ∧
    (dbgCore (sReady {}) = some 0 ∧ ((sReady {}).coreAt 0).halt = .no) ∧
    ({ core0 with halt := .report 0x11#64 true } : Core).halt = .report 0x11#64 true ∧
    (dbgItem (sReady { dbgsel := 0xFF00000000000000#64 }) 0xFF00000000000000#64 = none) ∧
    (let s := { sReady {} with input := [4088, 1] }
     inp s 0 < 4096 ∧ inp s 0 % 8 = 0 ∧ (dbgItem s s.bridge.dbgsel).isSome = true) := by decide +kernel

theorem witness_HostEvents_debug :
    ((dbgItem (sReady {}) 0#64).any fun i => i.writable { sReady {} with core := { core0 with halt := .report 0#64 true } }) = true ∧
    ((dbgItem (sReady {}) 0#64).any fun i => !i.writable (sReady {})) = true ∧
    (let w : DebugWrite := ⟨0x1000000000000000#64, 0, 0, 0⟩
     let s := { sReady { dbgwrite := [w] } with clock := 1024 }
     (dbgItem s w.sel == some (.router 0 0)) = true ∧ s.clock ≤ w.since + 1024 ∧ routerIdle s 0 = true ∧
       routerIdle { s with net := [{ region := 0, loc := 0, msg := .nrel 0#96 }] } 0 = false) ∧
    (let w : DebugWrite := ⟨0#64, 0, 0, 0⟩
     let s := { sReady { dbgwrite := [w, { w with since := 1 }] } with clock := 1025 }
     w ∈ s.bridge.dbgwrite ∧ w.since + 1024 < s.clock) := by decide +kernel

/-- Reticle i in a phase. -/
def sRet (i : Nat) (r : Reticle) (b : Bridge) (input : List Nat) : State := { s0 with reticles := [(i, r)], bridge := b, input := input }

theorem witness_BringUp_rom :
    (((sRet 47 {} {} [0, 1]).reticle 0).phase = .off ∧ inp (sRet 47 {} {} [47]) 0 ≤ 47) ∧
    ((sRet 47 { phase := .self } {} [47, 1]).reticle 47).phase = .self ∧ ((sRet 0 { phase := .cores } {} [0, 1]).reticle 0).phase = .cores ∧
    (((sRet 18 { phase := .seams } {} [18, 1]).reticle 18).phase = .seams ∧ bridgeSite 18 = true) ∧
    (let s : State := { s0 with reticles := [(0, { phase := .seams }), (6, { phase := .seams })], input := [0, 1, 1] }
     across 0 1 = some 6 ∧ (s.reticle 0).seam 1 = .untrained ∧ (s.reticle 6).phase = .seams ∧ (s.reticle 6).seam (facing 1) = .untrained) ∧
    (let r : Reticle := { phase := .elect 0, seams := Vector.replicate 4 .up, votes := [(0, 1, none)] }
     (r.votes.find? fun v => v.2.1 == 1) = some (0, 1, none) ∧ r.seam 1 = .up) := by decide +kernel

theorem witness_BringUp_election :
    ((sRet 18 { phase := .claim } {} [18]).reticle 18).phase = .claim ∧ (sRet 18 { phase := .claim } {} [18]).bridge.leader = none ∧
    (sRet 18 { phase := .claim } { leader := some 24 } [18]).bridge.leader = some 24 ∧
    (let s : State := { s0 with reticles := [(0, { phase := .await, seams := Vector.replicate 4 .up }), (6, { phase := .leader })], input := [0, 2, 1] }
     1 ∈ s.input.drop 1 ∧ across 0 1 = some 6 ∧ (s.reticle 0).phase = .await ∧ (s.reticle 0).seam 1 = .up ∧ (s.reticle 6).leads = true ∧
       ∀ e, e < 1 → e ∈ s.input.drop 1 → leadOver s 0 e = false) ∧
    (let s := sRet 0 { phase := .await } {} [0]
     (s.reticle 0).phase = .await ∧ component s 48 [0] = [0] ∧ (s.reticle 0).leads = false) ∧
    ((({ window := some [0x00080000#32] } : Bridge).window = some [0x00080000#32])) ∧
    (let s : State := { s0 with reticles := (List.range 48).map fun i => (i, { phase := .dark }), bridge := { phase := 2#4 } }
     s.bridge.leader = none ∧ s.bridge.window = none ∧ s.bridge.phase.ult 3#4 = true ∧ ∀ j, j < 48 → electing (s.reticle j) = false) := by decide +kernel

theorem witness_BringUp_firmware :
    (let b : Bridge := { phase := 3#4, valid := true, leader := some 0 }
     b.phase = 3#4 ∧ b.valid = true ∧ b.leader.isSome = true ∧ b.fetching = false) ∧
    (let b : Bridge := { phase := 3#4, leader := some 0, fetching := true, fetches := 2 }
     b.fetching = true ∧ b.valid = false ∧ b.fetches = 2 ∧ ({} : Bridge).fetches < 2) ∧
    (let s := sRet 47 { phase := .follower } { phase := 4#4 } [47]
     s.bridge.phase = 4#4 ∧ sendTurn s 47 = true ∧ copyVerified s = false) ∧
    (let s := sRet 47 { phase := .follower, loaded := true } { phase := 5#4 } [47]
     s.bridge.phase = 5#4 ∧ (s.reticle 47).phase = .follower ∧ copyVerified s = false) ∧
    (let s := sRet 0 { phase := .leader } { phase := 5#4 } [0, 0, 0x1000]
     let s1 := (List.range 48).foldl (fun s i => s.onReticle i fun r => { r with lrow := logicalRow s i, code := r.state }) s
     s.bridge.phase = 5#4 ∧ gridForms s1 = true ∧ (s1.reticle 0).state = 0) ∧
    gridForms { s0 with bridge := { grade40 := true } } = false ∧
    (let s : State := { s0 with reticles := [(0, { seams := Vector.replicate 4 .up })], input := [0, 2] }
     across 0 (inp s 1) = some 1 ∧ (s.reticle 0).seam (inp s 1) = .up) := by decide +kernel

/-- An image of the smallest size whose key, signature and SVN pass: whether they do is up to the opaque hash and keys (log 9). -/
theorem witness_BringUp_verified (hk : Config.shake256 (rdBytes [(0, 0x46#8), (1, 0x4B#8), (2, 1#8), (8, 64#8)] 0x40 1793) 64 = Config.keyHash)
    (hs : Config.svnMin = 0)
    (hf : ∀ k h x, Config.falconVerify k h x = true) :
    let m : Memory := [(0, 0x46#8), (1, 0x4B#8), (2, 1#8), (8, 64#8)]
    (verifyImage ({ valid := true } : Bridge).leastSvn m 0 (0xC80 + 64)).isSome = true ∧ ({ valid := true } : Bridge).fetchLost = false ∧
      copyVerified (sRet 47 { phase := .follower } { phase := 4#4, image := m, polledLen := 0xCC0#32 } [47]) = true := by
  have h0 : ∀ m : Memory, m = [(0, 0x46#8), (1, 0x4B#8), (2, 1#8), (8, 64#8)] →
      rdN m 0 2 = 0x4B46 ∧ rdN m 2 2 = 1 ∧ rdN m 8 4 = 64 ∧ rdN m 12 4 = 0 := by rintro m rfl; decide +kernel
  obtain ⟨h1, h2, h3, h4⟩ := h0 _ rfl
  have hv : (verifyImage 0 [(0, 0x46#8), (1, 0x4B#8), (2, 1#8), (8, 64#8)] 0 (0xC80 + 64)).isSome = true := by
    simp only [verifyImage, Nat.zero_add, h1, h2, h3, h4, hk, hf]
    simp
  have hl (b : Bridge) (h : b.svnMin = 0#16) : b.leastSvn = 0 := by simp [Bridge.leastSvn, hs, h]
  refine ⟨?_, rfl, ?_⟩
  · rw [hl _ rfl]; exact hv
  · unfold copyVerified
    rw [hl _ rfl]; exact hv

/-! Frames and the invariant. -/

theorem witness_RegisterResultFrame :
    onlyResults (.add 3#5 1#5 2#5) = true ∧ answers (exec (.add 3#5 1#5 2#5) s0) = true ∧ onlyResults (.vadd 3#5 1#5 2#5 0#3 1#4) = true ∧
    answers (exec (.vadd 3#5 1#5 2#5 0#3 1#4) s0) = true := by decide +kernel
theorem witness_LandingWritesOnlyItsRegister :
    (∀ num x, ({ rem := 0, put := .s 3#5 7#64 } : Pending).put ≠ .ctl num x) ∧ (∀ x, ({ rem := 0, put := .s 3#5 7#64 } : Pending).put ≠ .prio x) ∧
    (∀ b e n, ({ rem := 0, put := .s 3#5 7#64 } : Pending).put ≠ .loop b e n) ∧
    (∀ x, ({ rem := 0, put := .s 3#5 7#64 } : Pending).put ≠ .s 4#5 x) := by
  refine ⟨?_, ?_, ?_, ?_⟩ <;> simp

/-- A result for each register file. -/
theorem witness_LandingWritesOnlyItsRegister_files :
    ([.s 3#5 7#64, .s 0#5 7#64, .k 3#3 7#64, .k 0#3 7#64, .n 2#4 5#96, .v 31#5 {}, .vv 30#5 {} {}] : List Put).all (fun p =>
      match p with | .ctl .. | .prio .. | .loop .. => false | _ => true) = true := by decide

theorem witness_GlobalMemoryStaysCanonical : GlobalWf State.reset ∧ answers (step sNop) = true := by
  unfold GlobalWf; decide +kernel

end Sys2Proof.Tests
end

section
/-! O4: a step runs the decoded instruction. What a bundle of one slot does in the two passes, and how each kind of turn is taken. -/

namespace Sys2Proof.Proofs

open Sys2Proof.Machine Sys2Proof.Safety Sys2Proof.Laws

/-! The slots of a bundle (02 R46, R47, R51). -/

theorem runSlot_of_decode {w : Word} {i : Instr} (hi : decodeSlot w = some i) (n : Nat) (s : State) :
    runSlot (n, w) s = exec i (s.atSlot (n, w)) := by simp only [runSlot, hi]

theorem commitSlots_cons {s t : State} {n : Nat} {w : Word} {i : Instr} (hi : decodeSlot w = some i)
    (he : exec i (s.atSlot (n, w)) = .next t) (rest : List (Nat × Word)) :
    commitSlots s ((n, w) :: rest) = if t.issue.stop.isSome then .next t else commitSlots t rest := by
  simp only [commitSlots, runSlot_of_decode hi, he]

theorem commitSlots_singleton {s t : State} {n : Nat} {w : Word} {i : Instr} (hi : decodeSlot w = some i)
    (he : exec i (s.atSlot (n, w)) = .next t) : commitSlots s [(n, w)] = .next t := by
  rw [commitSlots_cons hi he]
  exact ite_self _

/-- A slot whose checks stop the bundle stops it with its own state. -/
theorem checkSlots_singleton_of_stop {s t : State} {n : Nat} {w : Word} {i : Instr} (hi : decodeSlot w = some i)
    (he : exec i (s.atSlot (n, w)) = .next t) (hs : t.issue.stop.isSome = true) : checkSlots s s.issue [(n, w)] = .next t := by
  simp only [checkSlots, runSlot_of_decode hi, he, hs, if_true]

/-- A slot that passes its checks leaves the bundle as little stopped as before. -/
theorem checkSlots_singleton_of_pass {s t : State} {n : Nat} {w : Word} {i : Instr} (hi : decodeSlot w = some i)
    (he : exec i (s.atSlot (n, w)) = .next t) (hs : t.issue.stop = none) :
    ∃ u, checkSlots s s.issue [(n, w)] = .next u ∧ u.issue.stop = s.issue.stop := by
  simp only [checkSlots, runSlot_of_decode hi, he, hs]
  exact ⟨_, rfl, rfl⟩

theorem slotWords_of_one_slot {h : Word} {n : Nat} (hs : slotsOf h = [n]) (w : Word) (lits : List Word) :
    (slotWords (h :: w :: lits)).1 = [(n, w)] := by simp [slotWords, hs]

theorem commitOrder_singleton (p : Nat × Word) : commitOrder [p] = [p] := by
  cases h : closes p <;> simp [commitOrder, h]

@[simp] theorem latched_stop (ws : List Word) (s : State) : (latched ws s).issue.stop = none := rfl

/-! The turns (log 1). -/

/-- What the encoding does not name is an event, and runs at its core with its input. -/
theorem step_event {s : State} {c : Nat} {i : Instr} {input : List Nat} {rest : List Turn} (ha : s.agenda = .event c i input :: rest)
    (hi : encode i = none) : step s = exec i { ({ s with agenda := rest }).focus c with input := input } := by
  have hev : isEvent i = true := by rw [isEvent, hi]; rfl
  simp only [step, nextTurn, ha, runTurn, hev, if_true]

/-- An element that may run takes the handler chosen among those that can (15 R380). -/
theorem step_element {s : State} {p e c : Nat} {rest : List Turn} {m : Memory} {i : Instr} (ha : s.agenda = .element p e :: rest)
    (he : e ≤ 63) (hp : (s.block p).plane = some m) (hr : (s.block p).runs s = true) (hh : ((s.block p).elem e).halted = false)
    (hc : choose m e (runnable { s with agenda := rest } (s.block p) m e) = some c)
    (hi : decodeEdge (entryWord (planeEntry m e c)) = some i) : step s = exec i { s with agenda := rest, handler := (p, e, c) } := by
  have hblock : ({ s with agenda := rest } : State).block p = s.block p := rfl
  have hruns : (s.block p).runs { s with agenda := rest } = (s.block p).runs s := rfl
  have hturn : (decide (63 < e) || !(s.block p).runs s || ((s.block p).elem e).halted) = false := by
    simp [hr, hh]; omega
  simp only [step, nextTurn, ha, runTurn, elementTurn, hblock, hp, hruns, hturn, hc, hi]
  rfl

section Issue

variable {s : State} {ws : List Word} (ha : s.agenda = []) (hi : issuing s.core = true)
  (hf : fetchAt s.core s.core.regs.pc = .words ws) (hd : decodeFault s.core.fwm s.core.regs.pc ws = none)

include ha hi hf

/-- A core that issues and has its words at hand issues their bundle. -/
theorem step_eq_issueBundle : step s = issueBundle ws s := by
  obtain ⟨hstep, hb, hn, hw, hfb⟩ := step_of_issuing hi ha
  rw [hstep, fetchCycle_words hb hn hw hfb hf]

include hd

theorem step_headerOnly {i : Instr} {t : State} (hh : decodeHeaderOnly (ws.headD 0#32) = some i)
    (he : exec i (latched ws s) = .next t) : step s = .next (conclude (latched ws s) t) := by
  rw [step_eq_issueBundle ha hi hf, issueBundle_latched hd]
  simp only [hh, he]

section Slots

variable (hh : decodeHeaderOnly (ws.headD 0#32) = none) (hw : waitHeld (latched ws s) = false)

include hh hw

/-- Where a check stops a bundle of slots, its cycle is concluded with no effect made (02 R51). -/
theorem step_of_checks_stop {t : State} (hc : checkSlots (latched ws s) (latched ws s).issue (slotWords ws).1 = .next t)
    (hs : t.issue.stop.isSome = true) : step s = .next (conclude (latched ws s) t) := by
  rw [step_eq_issueBundle ha hi hf, issueBundle_latched hd]
  simp only [hh, hw, hc, hs, if_true, Bool.false_eq_true, if_false]

/-- Where no check stops it, every slot's effect is made, and the cycle is concluded. -/
theorem step_of_checks_pass {t u : State} (hc : checkSlots (latched ws s) (latched ws s).issue (slotWords ws).1 = .next t)
    (hs : t.issue.stop = none)
    (hu : commitSlots { latched ws s with issue := { (latched ws s).issue with commit := true } } (commitOrder (slotWords ws).1) = .next u) :
    step s = .next (conclude (latched ws s) u) := by
  rw [step_eq_issueBundle ha hi hf, issueBundle_latched hd]
  simp only [hh, hw, hc, hs, hu, Option.isSome_none, Bool.false_eq_true, if_false]

end Slots

end Issue

/-- Settles O4: each kind of turn by its own lemma; a bundle of one slot is a bundle of slots whose two passes are that slot's. -/
theorem stepRunsTheDecodedInstruction : Obligations.StepRunsTheDecodedInstruction := by
  unfold Obligations.StepRunsTheDecodedInstruction
  refine ⟨fun s c i input rest => step_event, fun s p e c rest m i => step_element,
    fun s h i t ha hi hf hd hh => step_headerOnly ha hi hf hd hh, ?slots, ?oneSlot, fun s t n w rest i hi he => commitSlots_cons hi he rest⟩
  case slots =>
    intro s ws t u ha hi hf hd hh hw l go hc
    exact ⟨step_of_checks_stop ha hi hf hd hh hw hc, step_of_checks_pass ha hi hf hd hh hw hc⟩
  case oneSlot =>
    intro s h w n lits i t u ha hi hf hd hh hslots hdec hw he
    have hl := slotWords_of_one_slot hslots w lits
    constructor
    · intro hs
      exact step_of_checks_stop ha hi hf hd hh hw (hl ▸ checkSlots_singleton_of_stop hdec he hs) hs
    · intro hs hu
      obtain ⟨v, hv, hvs⟩ := checkSlots_singleton_of_pass hdec he hs
      refine step_of_checks_pass ha hi hf hd hh hw (hl ▸ hv) (hvs.trans (latched_stop ..)) ?_
      rw [hl, commitOrder_singleton]
      exact commitSlots_singleton hdec hu

end Sys2Proof.Proofs
end

section
/-! O51: launch queues, the start and the end of a region, the start and the retirement of a firing, LAUNCHR (12 R296 to R314). -/

namespace Sys2Proof.Proofs

open Sys2Proof.Machine Sys2Proof.Safety Sys2Proof.Laws

/-! The launch queue (12 R296, R299, R300). -/

/-- The events of a launch queue fault above the sixteenth (log 24). -/
theorem not_beyond_queues {q : Nat} (h : q < 16) : ¬15 < q := Nat.not_lt.2 (Nat.le_of_lt_succ h)

theorem lqtailDoorbell_taken {s : State} (hq : inp s 0 < 16) (hr : s.bridge.phase = 6#4)
    (hh : (BitVec.ofNat 16 (inp s 1) - (s.page (inp s 0)).head).toNat ≤ 16)
    (ht : (BitVec.ofNat 16 (inp s 1) - (s.page (inp s 0)).tail).toNat ≤ 16) :
    exec .lqtailDoorbell s = .next { s.setPage (inp s 0) { s.page (inp s 0) with tail := BitVec.ofNat 16 (inp s 1) } with
      doorbells := s.doorbells ++ (List.range (BitVec.ofNat 16 (inp s 1) - (s.page (inp s 0)).tail).toNat).map fun i =>
        (inp s 0, (s.page (inp s 0)).tail + BitVec.ofNat 16 i) } := by
  change execLqtailDoorbell s = _
  simp only [execLqtailDoorbell, hr, bne_self_eq_false, Bool.false_eq_true, if_false, if_neg (Nat.not_lt.2 hh), if_neg (Nat.not_lt.2 ht),
    if_neg (not_beyond_queues hq)]

theorem lqtailDoorbell_overflow {s : State} (hq : inp s 0 < 16) (hr : s.bridge.phase = 6#4)
    (hh : 16 < (BitVec.ofNat 16 (inp s 1) - (s.page (inp s 0)).head).toNat) :
    exec .lqtailDoorbell s = .next (s.setPage (inp s 0) { s.page (inp s 0) with ovf := true }) := by
  change execLqtailDoorbell s = _
  simp only [execLqtailDoorbell, hr, bne_self_eq_false, Bool.false_eq_true, if_false, if_pos hh, if_neg (not_beyond_queues hq)]

/-- The state in which the checks of a launch are made: its doorbell taken, the record's root standing, no translation of its region cached. -/
def launching (s : State) (q : Nat) (j : BitVec 16) : State :=
  { s with doorbells := s.doorbells.erase (q, j), roots := Machine.insert q (rf (recordAt s q j) 256 64) s.roots
           tlb := s.tlb.filter fun t => t.region != q }

section Launch

variable {s : State} {j : BitVec 16} (hq : inp s 0 < 16) (hp : (s.region (inp s 0)).phase ≠ .loading) (hn : nextLaunch s = some (inp s 0, j))

include hq hp hn

theorem launch_loads {plan : Plan}
    (hc : checkLaunch (launching s (inp s 0) j) (inp s 0) (recordAt s (inp s 0) j) (inp s 1 == 1) (s.input.drop 2) = .ok plan) :
    exec .launch s = .next (loadRegion (inp s 0) (recordAt s (inp s 0) j) plan (launching s (inp s 0) j)) := by
  change execLaunch s = _
  simp only [execLaunch, if_neg (not_beyond_queues hq), beq_iff_eq, hp, if_false, hn, ne_eq, not_true_eq_false]
  split
  · cases Eq.trans (Eq.symm ‹_›) hc
    rfl
  · cases Eq.trans (Eq.symm ‹_›) hc

theorem launch_refuses {st d : Nat}
    (hc : checkLaunch (launching s (inp s 0) j) (inp s 0) (recordAt s (inp s 0) j) (inp s 1 == 1) (s.input.drop 2) = .error (st, d)) :
    exec .launch s = .next (
      let r := recordAt s (inp s 0) j
      let w := completionWord (rLtag r) st d
      launchDone (inp s 0) w (rCompl r) none
        (finishRecord (inp s 0) j (rLtag r) st (storeCompletion (inp s 0) (rCompl r) w (launching s (inp s 0) j)))) := by
  change execLaunch s = _
  simp only [execLaunch, if_neg (not_beyond_queues hq), beq_iff_eq, hp, if_false, hn, ne_eq, not_true_eq_false]
  split
  · cases Eq.trans (Eq.symm ‹_›) hc
  · cases Eq.trans (Eq.symm ‹_›) hc
    rfl

end Launch

/-- A loaded region none of whose subscriptions is still on its way starts (R300, step 7). -/
theorem launch_starts {s : State} (hq : inp s 0 < 16) (hp : (s.region (inp s 0)).phase = .loading)
    (hs : ∀ t ∈ s.net, t.region = inp s 0 → ∀ a b c d e, t.msg ≠ .sub a b c d e) :
    exec .launch s = .next (startRegion (inp s 0) s) := by
  change execLaunch s = _
  simp only [execLaunch, if_neg (not_beyond_queues hq), hp, beq_self_eq_true, if_true]
  rw [if_neg]
  intro h
  simp only [List.any_eq_true, Bool.and_eq_true, beq_iff_eq] at h
  obtain ⟨t, ht, hreg, hmsg⟩ := h
  split at hmsg
  · exact hs t ht hreg _ _ _ _ _ ‹_›
  · exact Bool.false_ne_true hmsg

/-! What stays in the network (12 R301 to R303). -/

theorem foldl_net {α : Type} {f : State → α → State} (h : ∀ s x, (f s x).net = s.net) (l : List α) (s : State) :
    (l.foldl f s).net = s.net := by
  induction l generalizing s with
  | nil => rfl
  | cons x t ih => rw [List.foldl_cons, ih, h]

theorem startRegion_net (q : Nat) (s : State) : (startRegion q s).net = s.net := by
  simp only [startRegion, onRegion_net]
  exact foldl_net (fun s n => setCoreAt_net ..) _ s

theorem startRegion_phase (q : Nat) (s : State) : ((startRegion q s).region q).phase = .running := by
  simp only [startRegion, region_onRegion_self]

@[simp] theorem cacheLeaf_net (s : State) (r va : Nat) : (cacheLeaf s r va).net = s.net := by
  unfold cacheLeaf
  dsimp only
  (repeat' split) <;> rfl

theorem agentWrite_net {s t : State} {r va n mask x : Nat} (h : agentWrite s r va n mask x = .ok t) : t.net = s.net := by
  simp only [agentWrite, bind, Except.bind] at h
  split at h
  · cases h
  · split at h <;> (cases h; rfl)

@[simp] theorem storeCompletion_net (reg : Nat) (va w : W64) (s : State) : (storeCompletion reg va w s).net = s.net := by
  unfold storeCompletion
  split
  · rfl
  · dsimp only
    split
    · rw [agentWrite_net ‹_›, cacheLeaf_net]
    · exact cacheLeaf_net ..

@[simp] theorem flushRegion_net (s : State) (reg : Nat) : (flushRegion s reg).net = s.net := rfl

@[simp] theorem finishRecord_net (q : Nat) (j : BitVec 16) (ltag : BitVec 32) (status : Nat) (s : State) :
    (finishRecord q j ltag status s).net = s.net := rfl

@[simp] theorem launchDone_net (q : Nat) (w compl : W64) (done : Option Nat) (s : State) : (launchDone q w compl done s).net = s.net := rfl

theorem endRecord_net (reg status detail : Nat) (s : State) : (endRecord reg status detail s).net = s.net := by
  simp only [endRecord, onRegion_net, launchDone_net, finishRecord_net, storeCompletion_net, flushRegion_net]

theorem endRecord_phase (reg status detail : Nat) (s : State) : ((endRecord reg status detail s).region reg).phase = .ending := by
  simp only [endRecord, region_onRegion_self]

theorem endRegion_phase (reg status : Nat) (s : State) : ((endRegion reg status s).region reg).phase = .ending := endRecord_phase ..

/-- A region that ends without completing loses its tokens, and no others. -/
theorem endRegion_net (reg status : Nat) (s : State) : (endRegion reg status s).net = s.net.filter fun t => t.region != reg := by
  rw [endRegion, endRecord_net]
  simp only [discardFirings]
  rw [foldl_net fun s n => setCoreAt_net ..]

/-! The abort and the completion of a region (12 R301, R303). -/

theorem abort_runs {s : State} (hq : inp s 0 < 16) {d : Nat × BitVec 16}
    (hd : (s.doorbells.find? fun d => d.1 == inp s 0 && isAbort s d) = some d) :
    exec .abort s = .next (
      let r := recordAt s (inp s 0) d.2
      let u : State := { s with doorbells := s.doorbells.erase (inp s 0, d.2) }
      if (s.region (inp s 0)).live = true ∧ (s.region (inp s 0)).phase ≠ .ending then
        finishRecord (inp s 0) d.2 (rLtag r) 0x01 (endRegion (inp s 0) 0x02 u)
      else finishRecord (inp s 0) d.2 (rLtag r) 0x89 u) := by
  change execAbort s = _
  obtain ⟨p, j⟩ := d
  have hlive : (({ s with doorbells := s.doorbells.erase (inp s 0, j) } : State).region (inp s 0)) = s.region (inp s 0) := rfl
  simp only [execAbort, if_neg (not_beyond_queues hq), hd, hlive, Bool.and_eq_true, bne_iff_ne]

theorem regionComplete_ends {s : State} (hq : inp s 0 < 16) (hm : mayComplete s (inp s 0) = true) :
    exec .regionComplete s = .next (endRecord (inp s 0) 0x01 0
      ((((s.region (inp s 0)).cores s).foldl (fun s n => waferRelease (s.focus n)) s).focus s.cur)) := by
  change execRegionComplete s = _
  simp only [execRegionComplete, if_neg (not_beyond_queues hq), hm, if_true]

theorem regionComplete_frees {s : State} (hq : inp s 0 < 16) (hm : mayComplete s (inp s 0) = false) (he : endedFree s (inp s 0) = true) :
    exec .regionComplete s = .next (freeRegion (inp s 0) s) := by
  change execRegionComplete s = _
  simp only [execRegionComplete, if_neg (not_beyond_queues hq), hm, he, if_true, Bool.false_eq_true, if_false]

/-! The selection of a ready entry (01 R32, 12 R307). -/

theorem eff_le_of_before {det : Bool} {a b : Ready} (h : a.before det b = true) : b.eff ≤ a.eff := by
  unfold Ready.before Machine.before at h
  split at h
  · exact Nat.le_of_lt (of_decide_eq_true h)
  · omega

theorem eff_le_of_not_before {det : Bool} {a b : Ready} (h : a.before det b = false) : a.eff ≤ b.eff := by
  unfold Ready.before Machine.before at h
  split at h
  · exact Nat.not_lt.1 (of_decide_eq_false h)
  · omega

theorem bestReady_eq_none {det : Bool} {l : List Ready} (h : bestReady det l = none) : l = [] := by
  cases l with
  | nil => rfl
  | cons e t =>
    simp only [bestReady] at h
    split at h
    · cases h
    · split at h <;> cases h

/-- No entry has a higher effective priority than the one selected. -/
theorem eff_le_bestReady {det : Bool} {l : List Ready} {e : Ready} (h : bestReady det l = some e) : ∀ f ∈ l, f.eff ≤ e.eff := by
  induction l generalizing e with
  | nil => cases h
  | cons x t ih =>
    simp only [bestReady] at h
    split at h
    case h_1 hb =>
      cases h
      simp [bestReady_eq_none hb]
    case h_2 b hb =>
      have hle := ih hb
      split at h
      · cases h
        exact List.forall_mem_cons.2 ⟨eff_le_of_before ‹_›, hle⟩
      · cases h
        have hbx := eff_le_of_not_before (Bool.eq_false_iff.2 ‹_›)
        exact List.forall_mem_cons.2 ⟨Nat.le_refl _, fun f hf => Nat.le_trans (hle f hf) hbx⟩

theorem schedulerSelect_starts {s : State} {e : Ready} (hr : s.core.running = false) (hf : s.core.fwm = false) (hh : s.core.halt = .no)
    (hq : s.core.hreq = false) (hb : begun s = true) (he : bestReady s.core.detmode s.core.ready = some e) :
    exec .schedulerSelect s = .next { s with core := s.core.startEntry e } := by
  change execSchedulerSelect s = _
  simp [execSchedulerSelect, Core.mayRun, State.onCore, hr, hf, hh, hq, hb, he]

/-! The start of a firing (01 R27). -/

/-- The registers that every new firing starts with, whatever created it. -/
theorem startRegs_fixed (fid s4 s5 k1 : W64) (names : List Name) (prio mode : BitVec 3) (pc : Addr) :
    let x := startRegs fid s4 s5 k1 names prio mode pc
    x.fireid = fid ∧ x.pc = pc ∧ x.prio = prio ∧ x.fpmode = mode ∧ x.fpstat = 0#5 ∧
      x.tc = Vector.replicate 16 0#16 ∧ x.v = Vector.replicate 32 {} ∧ x.lpcnt = 0#64 ∧
      x.s[0] = 0#64 ∧ x.s[1] = fid ∧ x.s[2] = (fidTask fid).zeroExtend 64 ∧ x.s[3] = (fidGen fid).zeroExtend 64 ∧
      (∀ i : Fin 32, 6 ≤ i.val → x.s[i] = 0#64) ∧ (∀ i : Fin 8, i.val ≠ 1 → x.k[i] = 0#64) ∧
      ∀ i : Fin 16, i.val = 0 ∨ 8 < i.val → x.n[i] = 0#96 := by
  refine ⟨rfl, rfl, rfl, rfl, rfl, rfl, rfl, rfl, ?_, ?_, ?_, ?_, ?_, ?_, ?_⟩
  · simp [startRegs]
  · simp [startRegs]
  · simp [startRegs]
  · simp [startRegs]
  · intro i hi
    simp [startRegs, show 1 ≠ i.val by omega, show 2 ≠ i.val by omega, show 3 ≠ i.val by omega, show 4 ≠ i.val by omega, show 5 ≠ i.val by omega]
  · intro i hi
    simp [startRegs, hi.symm]
  · intro i hi
    simp only [startRegs, Fin.getElem_fin, Vector.getElem_ofFn, if_pos hi]

/-- The registers in which what created a firing says what it starts with. -/
theorem startRegs_given (fid s4 s5 k1 : W64) (names : List Name) (prio mode : BitVec 3) (pc : Addr) :
    let x := startRegs fid s4 s5 k1 names prio mode pc
    x.s[4] = s4 ∧ x.s[5] = s5 ∧ x.k[1] = k1 ∧ ∀ i : Fin 16, 1 ≤ i.val → i.val ≤ 8 → x.n[i] = names.getD (i.val - 1) 0#96 := by
  refine ⟨by simp [startRegs], by simp [startRegs], by simp [startRegs], fun i h1 h8 => ?_⟩
  simp only [startRegs, Fin.getElem_fin, Vector.getElem_ofFn, if_neg (show ¬(i.val = 0 ∨ 8 < i.val) by omega)]

section StartEntry

variable (c : Core) (e : Ready)

/-- A started entry runs in its slot with nothing in flight; the core's memories, tiles and matrix registers are as they were. -/
theorem startEntry_frame :
    let d := c.startEntry e
    d.running = true ∧ d.slot = e.slot ∧ d.pend = [] ∧ d.windows = c.windows ∧ d.wf = c.wf ∧ d.ws = c.ws ∧
      d.tiles = c.tiles ∧ d.bufW = c.bufW ∧ d.bufA = c.bufA ∧ d.bufC = c.bufC ∧ d.gcache = c.gcache := by
  cases hk : e.kind with
  | spawn =>
    simp only [Core.startEntry, hk, Core.begin, Core.takeDue]
    split <;> simp
  | _ => simp [Core.startEntry, hk, Core.begin, Core.takeDue]

variable {c e}

theorem startEntry_of_yielded (h : e.kind = .yielded) :
    (c.startEntry e).regs = (findD e.yfr.toNat {} c.yframes).regs ∧ (c.startEntry e).watches = (findD e.yfr.toNat {} c.yframes).watches := by
  simp [Core.startEntry, Core.begin, h]

theorem startEntry_of_spawn (h : e.kind = .spawn) :
    (c.startEntry e).regs = startRegs e.fid ((fidOrd e.fid).zeroExtend 64 - 1#64) 0#64 0#64 (findD e.nfr.toNat [] c.nframes) e.prio
      (c.slots[e.slot.toNat]'e.slot.isLt).fpmode (c.slots[e.slot.toNat]'e.slot.isLt).kernel := by
  simp [Core.startEntry, Core.begin, Core.takeDue, h]

theorem startEntry_of_record (h : e.kind = .record) :
    (c.startEntry e).regs = startRegs e.fid e.param (e.rows.zeroExtend 64) ((1#64 <<< e.rows.toNat) - 1#64) [] e.prio
      (c.slots[e.slot.toNat]'e.slot.isLt).fpmode (c.slots[e.slot.toNat]'e.slot.isLt).kernel := by
  simp [Core.startEntry, Core.begin, Core.takeDue, h]

theorem startEntry_of_subscription (h : e.kind = .subscription) :
    (c.startEntry e).regs = startRegs e.fid 0#64 0#64 0#64 e.names e.prio (c.slots[e.slot.toNat]'e.slot.isLt).fpmode
        (c.slots[e.slot.toNat]'e.slot.isLt).kernel ∧
      (c.startEntry e).faults = e.faults ++ (c.slots[e.slot.toNat]'e.slot.isLt).due := by
  simp [Core.startEntry, Core.begin, Core.takeDue, h]

/-- Whatever created it, a new firing starts with start registers of its task's slot. -/
theorem startEntry_regs_of_new (h : e.kind ≠ .yielded) :
    ∃ s4 s5 k1 names, (c.startEntry e).regs = startRegs e.fid s4 s5 k1 names e.prio (c.slots[e.slot.toNat]'e.slot.isLt).fpmode
      (c.slots[e.slot.toNat]'e.slot.isLt).kernel := by
  cases hk : e.kind with
  | yielded => exact absurd hk h
  | spawn => exact ⟨_, _, _, _, startEntry_of_spawn hk⟩
  | record => exact ⟨_, _, _, _, startEntry_of_record hk⟩
  | subscription => exact ⟨_, _, _, _, (startEntry_of_subscription hk).1⟩

theorem startEntry_watches_of_new (h : e.kind ≠ .yielded) : (c.startEntry e).watches = [] := by
  cases hk : e.kind with
  | yielded => exact absurd hk h
  | _ => simp [Core.startEntry, Core.begin, Core.takeDue, hk]

end StartEntry

/-! Retirement (12 R310). -/

theorem firingRetire_of_mayEnd {s : State} (hh : s.core.halt = .no ∨ s.core.halt = .region false) (hm : mayEnd s = true) :
    exec .firingRetire s = .next { s with core := s.core.retire } := by
  change execFiringRetire s = _
  have hhalt : (s.core.halt == .no || s.core.halt == .region false) = true := by simpa using hh
  simp only [execFiringRetire, hhalt, hm, Bool.and_self, if_true, State.onCore]

theorem mayEnd_of_fend {s : State} (he : s.core.ending = .fend) (hm : mayRetire s = true) (hw : s.core.fwm = false)
    (hf : s.core.faults = []) : mayEnd s = true := by simp [mayEnd, he, hm, hw, hf]

theorem mayEnd_of_trapEnd {s : State} (he : s.core.ending = .trapEnd) (hm : mayRetire s = true) : mayEnd s = true := by
  simp [mayEnd, he, hm]

/-! LAUNCHR (12 R314). -/

section Launchr

/-- The operation in focus is a LAUNCHR that may go on. -/
theorem launchrRun_goes_on {s : State} {o : Op} {ra nr : W64} (ho : s.core.ops[inp s 0]? = some o) (hk : o.kind = .launchr ra nr)
    (hh : s.core.halt = .no) (hr : s.core.hreq = false) (hs : o.started = false) (hi : inp s 1 ≠ 1) :
    exec .launchrRun s =
      .next (if o.next < nr.toNat then reserve (inp s 0) o ra.toNat s else finishLaunchr (inp s 0) o ra s) := by
  change execLaunchrRun s = _
  simp [execLaunchrRun, Core.mayRun, ho, hk, hh, hr, hs, hi]

variable (c : Core) (l : Nat) (o : Op)

@[simp] theorem readLaunchLine_ser : (readLaunchLine c l o).ser = o.ser := by unfold readLaunchLine; split <;> rfl
@[simp] theorem readLaunchLine_fid : (readLaunchLine c l o).fid = o.fid := by unfold readLaunchLine; split <;> rfl
@[simp] theorem readLaunchLine_data : (readLaunchLine c l o).data = o.data := by unfold readLaunchLine; split <;> rfl

/-- A LAUNCHR once it has read the line of its next record. -/
def nextLine (o : Op) (ra : Nat) (s : State) : Op := readLaunchLine s.core ((ra + 32 * o.next) / 64) o

/-- The next record of a LAUNCHR. -/
def nextRecord (o : Op) (ra : Nat) (s : State) : Record := readRecord (nextLine o ra s) (ra + 32 * o.next)

variable {s : State} {j ra : Nat} {o : Op} (hc : (nextRecord o ra s).clean = true) (ht : (nextRecord o ra s).task ≠ 0xFFFF)
  (hb : (nextRecord o ra s).task < taskCount s)

include hc ht hb

/-- A record without rows is passed and counted. -/
theorem reserve_of_no_rows (hr : (nextRecord o ra s).rows = 0) :
    reserve j o ra s =
      { s with core := s.core.setOp j { nextLine o ra s with got := (nextLine o ra s).got + 1, next := o.next + 1 } } := by
  unfold nextRecord nextLine at *
  simp [reserve, hc, ht, Nat.not_le.2 hb, hr, State.onCore]

/-- A record whose task's core can take it is reserved there. -/
theorem reserve_of_room (h1 : 1 ≤ (nextRecord o ra s).rows) (h32 : (nextRecord o ra s).rows ≤ 32) {e : DirEntry}
    (he : find? (nextRecord o ra s).task (s.region (regionOf s)).dir = some e) (hres : e.state = .resident)
    (hin : s.within (regionOf s) e.core = true) (hq : (s.coreAt e.core).hreq = false) (hh : (s.coreAt e.core).halt = .no)
    (hf : (s.coreAt e.core).holdsFid (mkFid (BitVec.ofNat 16 (nextRecord o ra s).task) (fidGen o.fid) (BitVec.ofNat 24 (o.next + 1))) = false)
    (hp : (s.coreAt e.core).poolUsed < 192) :
    reserve j o ra s =
      (s.setCoreAt e.core { s.coreAt e.core with
        resv := (s.coreAt e.core).resv ++ [⟨s.cur, o.ser,
          { kind := .record, slot := e.slot, prio := BitVec.ofNat 3 o.data, rdyseq := 0#32
            rows := BitVec.ofNat 6 (nextRecord o ra s).rows, param := (nextRecord o ra s).param
            fid := mkFid (BitVec.ofNat 16 (nextRecord o ra s).task) (fidGen o.fid) (BitVec.ofNat 24 (o.next + 1)) }⟩] }).onCore
        fun k => k.setOp j { nextLine o ra s with next := o.next + 1 } := by
  unfold nextRecord nextLine at *
  simp [reserve, hc, ht, Nat.not_le.2 hb, Nat.not_lt.2 h32, Nat.one_le_iff_ne_zero.1 h1, he, hres, hin, hq, hh, hf, Nat.not_le.2 hp]

end Launchr

/-- Settles O51: each event by its own lemma, the start of an entry by what every kind shares and what each kind gives. -/
theorem launchAndFiringEvents : Obligations.LaunchAndFiringEvents := by
  unfold Obligations.LaunchAndFiringEvents
  intro s q p v
  refine ⟨lqtailDoorbell_taken, lqtailDoorbell_overflow, ?launch, ?start, ?abort, ?complete, regionComplete_frees, ?select, ?retire, ?launchr⟩
  case launch => exact fun hq hp j hn => ⟨fun _ => launch_loads hq hp hn, fun _ _ => launch_refuses hq hp hn⟩
  case start => exact fun hq hp hs => ⟨launch_starts hq hp hs, startRegion_phase .., startRegion_net ..⟩
  case abort => exact fun hq d hd => ⟨abort_runs hq hd, endRegion_phase .., endRegion_net ..⟩
  case complete => exact fun hq hm => ⟨regionComplete_ends hq hm, endRecord_phase ..⟩
  case select =>
    intro e hr hf hh hq hb he
    refine ⟨schedulerSelect_starts hr hf hh hq hb he, eff_le_bestReady he, ?_⟩
    intro d x ts
    obtain ⟨h1, h2, h3, h4, h5, h6, h7, h8, h9, h10, h11⟩ := startEntry_frame s.core e
    refine ⟨h1, h2, h3, h4, h5, h6, h7, h8, h9, h10, h11, startEntry_of_yielded, ?new, ?subscription, ?spawn, ?record⟩
    case new =>
      intro hk
      obtain ⟨s4, s5, k1, names, hx⟩ := startEntry_regs_of_new (c := s.core) hk
      obtain ⟨hfid, hpc, hprio, hmode, hstat, htc, hv, hlp, hs0, hs1, hs2, hs3, hs6, hks, hns⟩ :=
        hx ▸ startRegs_fixed e.fid s4 s5 k1 names e.prio ts.fpmode ts.kernel
      exact ⟨hfid, hpc, hprio, hmode, hstat, htc, hv, hlp, hs0, hs1, hs2, hs3, hs6, hks, hns, startEntry_watches_of_new hk⟩
    case subscription =>
      intro hk
      obtain ⟨hx, hfaults⟩ := startEntry_of_subscription (c := s.core) hk
      obtain ⟨hs4, hs5, hk1, hns⟩ := hx ▸ startRegs_given e.fid 0#64 0#64 0#64 e.names e.prio ts.fpmode ts.kernel
      exact ⟨hs4, hs5, hk1, hfaults, hns⟩
    case spawn =>
      intro hk
      rw [show x = _ from startEntry_of_spawn hk]
      exact startRegs_given ..
    case record =>
      intro hk
      rw [show x = _ from startEntry_of_record hk]
      exact startRegs_given ..
  case retire =>
    exact fun hh hm => ⟨fun he hw hf => firingRetire_of_mayEnd hh (mayEnd_of_fend he hm hw hf),
      fun he => firingRetire_of_mayEnd hh (mayEnd_of_trapEnd he hm)⟩
  case launchr =>
    intro o ra nr ho hk hh hr hs hi j
    have hgo := launchrRun_goes_on ho hk hh hr hs hi
    refine ⟨?next, ?done⟩
    case next =>
      intro hn at_ p x hc ht hb
      rw [hgo, if_pos hn]
      constructor
      · exact fun h0 => congrArg _ (reserve_of_no_rows hc ht hb h0)
      · intro e h1 h32 he hres hin hq hh c fid q t hf hp
        exact congrArg _ (reserve_of_room hc ht hb h1 h32 he hres hin hq hh hf hp)
    case done =>
      intro hn hbad
      rw [hgo, if_neg (Nat.not_lt.2 hn)]
      simp only [finishLaunchr, hbad]
      rfl

end Sys2Proof.Proofs
end

section
/-! O2: decode and encode agree (02 R42 to R50, 15 R381). -/

namespace Sys2Proof.Proofs

open Sys2Proof.Machine Sys2Proof.Laws

/-- Every instruction has the law: each that has a word by its own lemma of Laws/PerInstr.lean, the events because they have none. -/
theorem roundTrip (i : Instr) : RoundTrip.Statement i := by
  cases i with
  | nop => apply RoundTrip.nop | waitPoint => apply RoundTrip.waitPoint | add => apply RoundTrip.add | sub => apply RoundTrip.sub
  | mul => apply RoundTrip.mul | mulh => apply RoundTrip.mulh | mulhu => apply RoundTrip.mulhu | div => apply RoundTrip.div
  | divu => apply RoundTrip.divu | rem => apply RoundTrip.rem | remu => apply RoundTrip.remu | and => apply RoundTrip.and | or => apply RoundTrip.or
  | xor => apply RoundTrip.xor | andn => apply RoundTrip.andn | shl => apply RoundTrip.shl | shr => apply RoundTrip.shr | sra => apply RoundTrip.sra
  | rol => apply RoundTrip.rol | min => apply RoundTrip.min | max => apply RoundTrip.max | minu => apply RoundTrip.minu | maxu => apply RoundTrip.maxu
  | cmp => apply RoundTrip.cmp | sel => apply RoundTrip.sel | clz => apply RoundTrip.clz | ctz => apply RoundTrip.ctz | popc => apply RoundTrip.popc
  | bfx => apply RoundTrip.bfx | bfi => apply RoundTrip.bfi | sext => apply RoundTrip.sext | zext => apply RoundTrip.zext
  | addx => apply RoundTrip.addx | mov => apply RoundTrip.mov | addi => apply RoundTrip.addi | andi => apply RoundTrip.andi
  | ori => apply RoundTrip.ori | xori => apply RoundTrip.xori | shli => apply RoundTrip.shli | shri => apply RoundTrip.shri
  | srai => apply RoundTrip.srai | cmpi => apply RoundTrip.cmpi | lit => apply RoundTrip.lit | lit64 => apply RoundTrip.lit64
  | muli => apply RoundTrip.muli | br => apply RoundTrip.br | brz => apply RoundTrip.brz | brnz => apply RoundTrip.brnz
  | brany => apply RoundTrip.brany | brnone => apply RoundTrip.brnone | jal => apply RoundTrip.jal | jr => apply RoundTrip.jr
  | loop => apply RoundTrip.loop | loopi => apply RoundTrip.loopi | kand => apply RoundTrip.kand | kor => apply RoundTrip.kor
  | kxor => apply RoundTrip.kxor | kandn => apply RoundTrip.kandn | knot => apply RoundTrip.knot | kmov => apply RoundTrip.kmov
  | ktos => apply RoundTrip.ktos | kpopc => apply RoundTrip.kpopc | kfirst => apply RoundTrip.kfirst | ksetn => apply RoundTrip.ksetn
  | nmk => apply RoundTrip.nmk | nset => apply RoundTrip.nset | nget => apply RoundTrip.nget | nadd => apply RoundTrip.nadd
  | nmov => apply RoundTrip.nmov | ncmp => apply RoundTrip.ncmp | vadd => apply RoundTrip.vadd | vsub => apply RoundTrip.vsub
  | vmul => apply RoundTrip.vmul | vfma => apply RoundTrip.vfma | vfms => apply RoundTrip.vfms | vmin => apply RoundTrip.vmin
  | vmax => apply RoundTrip.vmax | vabs => apply RoundTrip.vabs | vneg => apply RoundTrip.vneg | vand => apply RoundTrip.vand
  | vor => apply RoundTrip.vor | vxor => apply RoundTrip.vxor | vshl => apply RoundTrip.vshl | vshr => apply RoundTrip.vshr
  | vsra => apply RoundTrip.vsra | vcmp => apply RoundTrip.vcmp | vsel => apply RoundTrip.vsel | vmov => apply RoundTrip.vmov
  | vbcast => apply RoundTrip.vbcast | vdot4 => apply RoundTrip.vdot4 | vdot2 => apply RoundTrip.vdot2 | vsat => apply RoundTrip.vsat
  | vclz => apply RoundTrip.vclz | vpopc => apply RoundTrip.vpopc | vmulh => apply RoundTrip.vmulh | vcvt => apply RoundTrip.vcvt
  | vqmx => apply RoundTrip.vqmx | vdqmx => apply RoundTrip.vdqmx | vtag => apply RoundTrip.vtag | vgtag => apply RoundTrip.vgtag
  | vperm => apply RoundTrip.vperm | vshuf => apply RoundTrip.vshuf | vrot => apply RoundTrip.vrot | vslide => apply RoundTrip.vslide
  | vpack => apply RoundTrip.vpack | vunpk => apply RoundTrip.vunpk | vcmprs => apply RoundTrip.vcmprs | vexpnd => apply RoundTrip.vexpnd
  | viota => apply RoundTrip.viota | vextr => apply RoundTrip.vextr | vins => apply RoundTrip.vins | vscl => apply RoundTrip.vscl
  | vredadd => apply RoundTrip.vredadd | vredmin => apply RoundTrip.vredmin | vredmax => apply RoundTrip.vredmax | vscan => apply RoundTrip.vscan
  | vtopk => apply RoundTrip.vtopk | vsorts => apply RoundTrip.vsorts | vargmx => apply RoundTrip.vargmx | vrand => apply RoundTrip.vrand
  | vhistx => apply RoundTrip.vhistx | vredx => apply RoundTrip.vredx | vrndx => apply RoundTrip.vrndx | vlut => apply RoundTrip.vlut
  | fexp2 => apply RoundTrip.fexp2 | flog2 => apply RoundTrip.flog2 | frcp => apply RoundTrip.frcp | frsq => apply RoundTrip.frsq
  | fsqrt => apply RoundTrip.fsqrt | fdiv => apply RoundTrip.fdiv | ftanh => apply RoundTrip.ftanh | fsigm => apply RoundTrip.fsigm
  | fsin => apply RoundTrip.fsin | fcos => apply RoundTrip.fcos | ferf => apply RoundTrip.ferf | mlds => apply RoundTrip.mlds
  | mswap => apply RoundTrip.mswap | mma => apply RoundTrip.mma | mmas => apply RoundTrip.mmas | mzero => apply RoundTrip.mzero
  | mdrain => apply RoundTrip.mdrain | mrdv => apply RoundTrip.mrdv | mwrv => apply RoundTrip.mwrv | mmode => apply RoundTrip.mmode
  | mwait => apply RoundTrip.mwait | mtrw => apply RoundTrip.mtrw | ld => apply RoundTrip.ld | st => apply RoundTrip.st | vld => apply RoundTrip.vld
  | vst => apply RoundTrip.vst | vlds => apply RoundTrip.vlds | vsts => apply RoundTrip.vsts | vgath => apply RoundTrip.vgath
  | vscat => apply RoundTrip.vscat | ldw => apply RoundTrip.ldw | vldw => apply RoundTrip.vldw | qld => apply RoundTrip.qld
  | qst => apply RoundTrip.qst | talloc => apply RoundTrip.talloc | tfree => apply RoundTrip.tfree | tstat => apply RoundTrip.tstat
  | twait => apply RoundTrip.twait | tset => apply RoundTrip.tset | icinv => apply RoundTrip.icinv | fetchb => apply RoundTrip.fetchb
  | gld => apply RoundTrip.gld | gst => apply RoundTrip.gst | vgld => apply RoundTrip.vgld | vgst => apply RoundTrip.vgst
  | ldacq => apply RoundTrip.ldacq | strel => apply RoundTrip.strel | promacq => apply RoundTrip.promacq | fence => apply RoundTrip.fence
  | atom => apply RoundTrip.atom | atomr => apply RoundTrip.atomr | mred => apply RoundTrip.mred | mredrd => apply RoundTrip.mredrd
  | clwb => apply RoundTrip.clwb | clinv => apply RoundTrip.clinv | xcopy => apply RoundTrip.xcopy | xgath => apply RoundTrip.xgath
  | xscat => apply RoundTrip.xscat | xfill => apply RoundTrip.xfill | subName => apply RoundTrip.subName | unsub => apply RoundTrip.unsub
  | pub => apply RoundTrip.pub | pubr => apply RoundTrip.pubr | ropen => apply RoundTrip.ropen | resub => apply RoundTrip.resub
  | nhold => apply RoundTrip.nhold | nrel => apply RoundTrip.nrel | nqry => apply RoundTrip.nqry | pubx => apply RoundTrip.pubx
  | fend => apply RoundTrip.fend | spawn => apply RoundTrip.spawn | launchr => apply RoundTrip.launchr | yield => apply RoundTrip.yield
  | tcadd => apply RoundTrip.tcadd | tcrd => apply RoundTrip.tcrd | tcwait => apply RoundTrip.tcwait | bar => apply RoundTrip.bar
  | barrd => apply RoundTrip.barrd | timeq => apply RoundTrip.timeq | stamp => apply RoundTrip.stamp | prio => apply RoundTrip.prio
  | ecfg => apply RoundTrip.ecfg | ego => apply RoundTrip.ego | estat => apply RoundTrip.estat | eabort => apply RoundTrip.eabort
  | trap => apply RoundTrip.trap | tret => apply RoundTrip.tret | ctlrd => apply RoundTrip.ctlrd | ctlwr => apply RoundTrip.ctlwr
  | brk => apply RoundTrip.brk | evpost => apply RoundTrip.evpost | moncfg => apply RoundTrip.moncfg | monrd => apply RoundTrip.monrd
  | haltc => apply RoundTrip.haltc | ctxsv => apply RoundTrip.ctxsv | ctxld => apply RoundTrip.ctxld | xadd => apply RoundTrip.xadd
  | xrnd => apply RoundTrip.xrnd | cvt => apply RoundTrip.cvt | qmx => apply RoundTrip.qmx | dqmx => apply RoundTrip.dqmx
  | cmpz => apply RoundTrip.cmpz | dcmpz => apply RoundTrip.dcmpz | mrr => apply RoundTrip.mrr | mtag => apply RoundTrip.mtag
  | splitE => apply RoundTrip.splitE | dup => apply RoundTrip.dup | gate => apply RoundTrip.gate | steer => apply RoundTrip.steer
  | cnt => apply RoundTrip.cnt | lim => apply RoundTrip.lim | fifo => apply RoundTrip.fifo | pack => apply RoundTrip.pack
  | unpk => apply RoundTrip.unpk | scl => apply RoundTrip.scl | hist => apply RoundTrip.hist | eosg => apply RoundTrip.eosg
  | sink => apply RoundTrip.sink | srcn => apply RoundTrip.srcn | pubn => apply RoundTrip.pubn | rin => apply RoundTrip.rin
  | rout => apply RoundTrip.rout | edgeNop => apply RoundTrip.edgeNop | halte => apply RoundTrip.halte
  | _ => exact RoundTrip.of_none rfl

/-- Settles O2: the law of each instruction. -/
theorem decodeEncodeRoundTrip : Obligations.DecodeEncodeRoundTrip := roundTrip

end Sys2Proof.Proofs
end

section
/-! O5: a scalar result in flight reaches its register with its last tick (02 R53, R54). -/

namespace Sys2Proof.Proofs

open Sys2Proof.Machine Sys2Proof.Safety Sys2Proof.Laws

/-! A scalar result in flight whose register no other result names. -/

/-- p is in flight for scalar register r with the value x, and nothing else in flight may write r. -/
def soleWriter (c : Core) (r : Reg) (x : W64) (p : Pending) : Prop :=
  p ∈ c.pend ∧ p.put = .s r x ∧ ∀ q ∈ c.pend, mayWriteS r q = true → q = p

/-- The register that a scalar write names, in the file in use. -/
theorem mayWriteS_of_meets {c : Core} {r : Reg} {x : W64} {q : Pending} (h : Put.meets c (.s r x) q.put = true) : mayWriteS r q = true := by
  rcases q with ⟨rem, put, fl, hist, var, tcn⟩
  by_cases hr : r = 0#5
  · simp [Put.meets, Put.keys, hr] at h
  cases put with
  | s q y =>
    by_cases hq : q = 0#5
    · simp [Put.meets, Put.keys, hr, hq] at h
    · simp only [Put.meets, Put.keys, hr, hq, if_false, List.any_cons, List.contains_cons, List.contains_nil, List.any_nil, Bool.or_false,
        beq_iff_eq, Prod.mk.injEq] at h
      simp [mayWriteS, BitVec.eq_of_toNat_eq h.2]
  | ctl n y => rfl
  | k q y => by_cases hq : q = 0#3 <;> by_cases hb : inBank c r <;> simp [Put.meets, Put.keys, hr, hq, hb] at h
  | _ => by_cases hb : inBank c r <;> simp [Put.meets, Put.keys, hr, hb] at h

/-- Such a result is never put off: what could put it off would write its register. -/
theorem soleWriter_not_late {c : Core} {r : Reg} {x : W64} {p : Pending} (h : soleWriter c r x p) : c.late p = false := by
  obtain ⟨-, hput, hsole⟩ := h
  rw [Core.late, Bool.and_eq_false_iff]
  refine Classical.byContradiction fun hl => ?_
  simp only [not_or, Bool.not_eq_false, List.any_eq_true, Bool.and_eq_true] at hl
  obtain ⟨hvar, q, hq, ⟨-, hfix⟩, hm⟩ := hl
  have hqp := hsole q hq (mayWriteS_of_meets (hput ▸ hm))
  simp [hqp, hvar] at hfix

/-- A counted tick brings it one tick nearer. -/
theorem soleWriter_count {c : Core} {r : Reg} {x : W64} {p : Pending} (h : soleWriter c r x p) :
    soleWriter c.count r x { p with rem := p.rem - 1 } := by
  obtain ⟨hp, hput, hsole⟩ := h
  refine ⟨List.mem_map_of_mem hp, hput, ?_⟩
  simp only [Core.count, List.mem_map]
  rintro _ ⟨q, hq, rfl⟩ hw
  rw [hsole q hq hw]

/-- What a tick leaves in flight writes no register that it did not. -/
theorem soleWriter_tick {c : Core} {r : Reg} {x : W64} {p : Pending} {n : Nat} (h : soleWriter c r x p) (hn : p.rem = n + 2) :
    soleWriter c.tick r x { p with rem := n + 1 } := by
  have hc := soleWriter_count h
  rw [show p.rem - 1 = n + 1 by omega] at hc
  obtain ⟨hp, hput, hsole⟩ := hc
  rw [soleWriter, tick_pend]
  refine ⟨List.mem_append_left _ (List.mem_filter.2 ⟨hp, rfl⟩), hput, ?_⟩
  intro q hq hw
  simp only [Core.staying, List.mem_append, List.mem_filter, List.mem_map] at hq
  obtain ⟨hq, -⟩ | ⟨q', ⟨hq', hdue⟩, rfl⟩ := hq
  · exact hsole q hq hw
  · have := hsole q' hq' hw
    simp [this] at hdue

/-- Until its last tick the register stays. -/
theorem tick_s_of_waiting {c : Core} {r : Reg} {x : W64} {p : Pending} {n : Nat} (h : soleWriter c r x p) (hn : p.rem = n + 2) :
    c.tick.s r = c.s r := by
  obtain ⟨-, -, hsole⟩ := soleWriter_count h
  obtain ⟨l, hl, hmem⟩ := tick_lands c
  rw [hl, foldl_landOne_s l _ r]
  · rfl
  · intro q hq
    obtain ⟨hq, hrem, -⟩ := (hmem q).1 hq
    refine Classical.byContradiction fun hw => ?_
    have := hsole q hq (by simpa using hw)
    simp [this] at hrem
    omega

/-- Landing results of which one writes r, and no other does, leaves its value there. -/
theorem foldl_landOne_s_of_sole {l : List Pending} {c : Core} {r : Reg} {x : W64} {p : Pending} (hp : p ∈ l) (hput : p.put = .s r x)
    (hsole : ∀ q ∈ l, mayWriteS r q = true → q = p) : (l.foldl Core.landOne c).s r = if r = 0#5 then 0#64 else x := by
  induction l generalizing c with
  | nil => cases hp
  | cons q t ih =>
    rw [List.foldl_cons]
    by_cases ht : p ∈ t
    · exact ih ht fun q' hq' => hsole q' (List.mem_cons_of_mem _ hq')
    · have hqp : p = q := (List.mem_cons.1 hp).resolve_right ht
      rw [foldl_landOne_s t _ r, ← hqp, landOne_s_self c p r x hput]
      intro q' hq'
      refine Classical.byContradiction fun hw => ?_
      exact ht (hsole q' (List.mem_cons_of_mem _ hq') (by simpa using hw) ▸ hq')

/-- With its last tick the register holds the value. -/
theorem tick_s_of_due {c : Core} {r : Reg} {x : W64} {p : Pending} (h : soleWriter c r x p) (hn : p.rem = 1) :
    c.tick.s r = if r = 0#5 then 0#64 else x := by
  have hc := soleWriter_count h
  obtain ⟨l, hl, hmem⟩ := tick_lands c
  rw [hl]
  refine foldl_landOne_s_of_sole (p := { p with rem := p.rem - 1 }) ((hmem _).2 ⟨hc.1, by simp [hn], soleWriter_not_late hc⟩) hc.2.1 ?_
  intro q hq
  exact hc.2.2 q ((hmem q).1 hq).1

/-- Settles O5: by induction on the ticks that are left, each a tick that leaves the register and brings the result one nearer. -/
theorem resultWrittenAfterLatency : Obligations.ResultWrittenAfterLatency := by
  unfold Obligations.ResultWrittenAfterLatency
  intro c r x p n hp hput hrem hsole
  have h : soleWriter c r x p := ⟨hp, hput, hsole⟩
  clear hp hput hsole
  induction n generalizing c p with
  | zero => exact ⟨rfl, tick_s_of_due h hrem⟩
  | succ n ih =>
    obtain ⟨hwait, hland⟩ := ih c.tick { p with rem := n + 1 } rfl (soleWriter_tick h hrem)
    exact ⟨hwait.trans (tick_s_of_waiting h hrem), hland⟩

end Sys2Proof.Proofs
end

section
/-! O57: the instructions that only write registers (02 R53, R55, 03 R64 to R80, 05 R117 to R141). -/

namespace Sys2Proof.Proofs

open Sys2Proof.Machine Sys2Proof.Safety Sys2Proof.Laws

/-- VHISTX puts its bin counts on their way, or its lane histogram. -/
theorem execVhistx_frame (d a : Reg) (k : KReg) (m : BitVec 4) (s : State) : ∃ t, exec (.vhistx d a k m) s = .next t ∧ resultFrame s t := by
  change ∃ t, execVhistx d a k m s = .next t ∧ _
  unfold execVhistx
  dsimp only
  split
  · exact ⟨_, rfl, resultFrame_guarded ..⟩
  · exact ⟨_, rfl, resultFrame_guarded ..⟩

/-- Of these instructions the division takes the divider too; each other one is its checks and one result. -/
theorem exec_frame_of_onlyResults {i : Instr} (h : onlyResults i = true) (s : State) : ∃ t, exec i s = .next t ∧ resultFrame s t := by
  cases i with
  | div | divu | rem | remu => exact ⟨_, rfl, resultFrame_divide ..⟩
  | vhistx => exact execVhistx_frame ..
  | add | sub | mul | mulh | mulhu | and | or | xor | andn | shl | shr | sra | rol | min | max | minu | maxu | cmp | sel | clz | ctz | popc
  | bfx | bfi | sext | zext | addx | mov | addi | andi | ori | xori | shli | shri | srai | cmpi | lit | lit64 | muli
  | kand | kor | kxor | kandn | knot | kmov | ktos | kpopc | kfirst | ksetn | nmk | nset | nget | nadd | nmov | ncmp
  | vadd | vsub | vmul | vfma | vfms | vmin | vmax | vabs | vneg | vand | vor | vxor | vshl | vshr | vsra | vcmp | vsel | vmov | vbcast
  | vdot4 | vdot2 | vsat | vclz | vpopc | vmulh | vcvt | vqmx | vdqmx | vtag | vgtag | vperm | vshuf | vrot | vslide | vpack | vunpk
  | vcmprs | vexpnd | viota | vextr | vins | vscl | vredadd | vredmin | vredmax | vscan | vtopk | vsorts | vargmx | vrand | vredx | vrndx
  | vlut | fexp2 | flog2 | frcp | frsq | fsqrt | fdiv | ftanh | fsigm | fsin | fcos | ferf => exact ⟨_, rfl, resultFrame_guarded ..⟩
  | _ => cases h

/-- Settles O57: the answer is the one of `exec_frame_of_onlyResults`. -/
theorem registerResultFrame : Obligations.RegisterResultFrame := by
  unfold Obligations.RegisterResultFrame
  intro i s t hi ht
  obtain ⟨u, hu, hframe⟩ := exec_frame_of_onlyResults hi s
  cases ht.symm.trans hu
  exact hframe

end Sys2Proof.Proofs
end

section
/-! O58: a landing result writes its own register (02 R53, 03 R65, 04 R97, 05 R134). -/

namespace Sys2Proof.Proofs

open Sys2Proof.Machine Sys2Proof.Safety Sys2Proof.Laws

/-- The writes to control registers, PRIO and the loop's registers are described elsewhere (O46, O18). -/
def namesFile : Put → Bool
  | .ctl .. | .prio .. | .loop .. => false
  | _ => true

/-! A landing reads as its write does: flags, histogram and token are beside the register files. -/

theorem landOne_k (c : Core) (p : Pending) (q : KReg) : (c.landOne p).k q = (c.apply p.put).k q := by simp [Core.landOne, Core.k, Core.orFlags]
theorem landOne_n (c : Core) (p : Pending) (q : NReg) : (c.landOne p).n q = (c.apply p.put).n q := by simp [Core.landOne, Core.n, Core.orFlags]
theorem landOne_v (c : Core) (p : Pending) (q : Reg) : (c.landOne p).v q = (c.apply p.put).v q := by simp [Core.landOne, Core.v, Core.orFlags]

/-! A write to one register leaves the others. -/

theorem apply_k_of_ne {c : Core} {p : Put} {q : KReg} (hp : namesFile p = true) (h : ∀ x, p ≠ .k q x) : (c.apply p).k q = c.k q := by
  cases p with
  | ctl | prio | loop => cases hp
  | k r x =>
    have hq : q ≠ r := by rintro rfl; exact h x rfl
    simp [Core.apply, k_setK, hq]
  | _ => simp [Core.apply]

theorem apply_n_of_ne {c : Core} {p : Put} {q : NReg} (hp : namesFile p = true) (h : ∀ x, p ≠ .n q x) : (c.apply p).n q = c.n q := by
  cases p with
  | ctl | prio | loop => cases hp
  | n r x =>
    have hq : q ≠ r := by rintro rfl; exact h x rfl
    simp [Core.apply, n_setN, hq]
  | _ => simp [Core.apply]

theorem apply_v_of_ne {c : Core} {p : Put} {q : Reg} (hp : namesFile p = true) (h : ∀ x, p ≠ .v q x)
    (hh : ∀ r x y, p = .vv r x y → q ≠ r ∧ q ≠ r + 1#5) : (c.apply p).v q = c.v q := by
  cases p with
  | ctl | prio | loop => cases hp
  | v r x =>
    have hq : q ≠ r := by rintro rfl; exact h x rfl
    simp [Core.apply, v_setV, hq]
  | vv r x y => simp [Core.apply, v_setV, hh r x y rfl]
  | _ => simp [Core.apply]

theorem apply_pair (c : Core) (r : Reg) (x y : VReg) : (c.apply (.vv r x y)).v r = x ∧ (c.apply (.vv r x y)).v (r + 1#5) = y := by
  simp [Core.apply, v_setV]

/-- Outside the register files a write leaves everything, FPSTAT, the histogram and the token changes too. -/
theorem apply_register_frame {c : Core} {p : Put} (hp : namesFile p = true) :
    c.apply p = { c with
      regs := { c.regs with s := (c.apply p).regs.s, k := (c.apply p).regs.k, n := (c.apply p).regs.n, v := (c.apply p).regs.v }
      bankS := (c.apply p).bankS } := by
  cases p with
  | ctl | prio | loop => cases hp
  | s r x => by_cases hr : r = 0#5 <;> by_cases hb : inBank c r = true <;> simp [Core.apply, Core.setS, hr, hb]
  | k r x => by_cases hr : r = 0#3 <;> simp [Core.apply, Core.setK, hr]
  | _ => rfl

theorem landOne_flags {c : Core} {p : Pending} (hp : namesFile p.put = true) : (c.landOne p).regs.fpstat = c.regs.fpstat ||| p.flags := by
  simp only [Core.landOne, addTc_regs, Core.orFlags]
  rw [apply_register_frame hp]

theorem landOne_hist {c : Core} {p : Pending} (hp : namesFile p.put = true) : (c.landOne p).exphist = histAdd c.exphist p.hist := by
  simp only [Core.landOne, addTc_exphist, orFlags_exphist]
  rw [apply_register_frame hp]

theorem landOne_tcd (c : Core) (p : Pending) : (c.landOne p).tcd = if p.tcn = 0#4 then c.tcd else c.tcd ++ [(p.tcn.toNat, 1)] := by
  obtain ⟨-, -, htcd, -⟩ := apply_frame c p.put
  unfold Core.landOne Core.addTc
  split <;> simp [htcd]

theorem landOne_register_frame {c : Core} {p : Pending} (hp : namesFile p.put = true) :
    c.landOne p = { c with
      regs := { c.regs with s := (c.landOne p).regs.s, k := (c.landOne p).regs.k, n := (c.landOne p).regs.n, v := (c.landOne p).regs.v
                            fpstat := (c.landOne p).regs.fpstat }
      bankS := (c.landOne p).bankS, exphist := (c.landOne p).exphist, tcd := (c.landOne p).tcd } := by
  unfold Core.landOne Core.addTc
  rw [apply_register_frame hp]
  split <;> rfl

/-- Settles O58: file by file, a landing reads as its write does. -/
theorem landingWritesOnlyItsRegister : Obligations.LandingWritesOnlyItsRegister := by
  unfold Obligations.LandingWritesOnlyItsRegister
  intro c p hctl hprio hloop
  have hp : namesFile p.put = true := by
    unfold namesFile
    split
    · exact absurd ‹_› (hctl _ _)
    · exact absurd ‹_› (hprio _)
    · exact absurd ‹_› (hloop _ _ _)
    · rfl
  refine ⟨fun q x h => landOne_s_self c p q x h, ?k, ?n, ?v, ?vv, ?sFrame, ?kFrame, ?nFrame, ?vFrame,
    landOne_flags hp, landOne_hist hp, landOne_tcd c p, landOne_register_frame hp⟩
  case k =>
    intro q x h
    rw [landOne_k, h, Core.apply, k_setK]
    by_cases hq : q = 0#3 <;> simp [hq, Core.k]
  case n => intro q x h; simp [landOne_n, h, Core.apply, n_setN]
  case v => intro q x h; simp [landOne_v, h, Core.apply, v_setV]
  case vv => intro r x y h; simpa only [landOne_v, h] using apply_pair c r x y
  case sFrame =>
    intro q h
    refine landOne_s c p q ?_
    unfold mayWriteS
    split
    next r x hput => exact beq_eq_false_iff_ne.2 fun hr => h x (hr ▸ hput)
    · exact absurd ‹_› (hctl _ _)
    · rfl
  case kFrame => intro q h; rw [landOne_k, apply_k_of_ne hp h]
  case nFrame => intro q h; rw [landOne_n, apply_n_of_ne hp h]
  case vFrame => intro q h hh; rw [landOne_v, apply_v_of_ne hp h hh]

end Sys2Proof.Proofs
end

section
/-! O1, O3: words laid out by hand, and headers with an empty slot mask (02 R40, R42, 15 R381). -/

namespace Sys2Proof.Proofs

open Sys2Proof.Machine Sys2Proof.Laws

/-- Settles O1: each word is evaluated. -/
theorem decodeKnownWords : Obligations.DecodeKnownWords := by
  unfold Obligations.DecodeKnownWords
  decide

/-! A header with an empty mask (02 R40). -/

section

variable {h : Word} (hs : hSig h = 0xB#4) (hm : hMask h = 0#9) (hr : hRes h = 0#9)

theorem decodeHeaderOnly_of_literals (hl : hLitc h ≠ 0#2) : decodeHeaderOnly h = none := by simp [decodeHeaderOnly, hl]

include hs hm hr

theorem decodeHeaderOnly_of_stall (hl : hLitc h = 0#2) (ht : hStall h ≠ 0#4) : decodeHeaderOnly h = some (.nop (hWait h) (hStall h)) := by
  simp [decodeHeaderOnly, hs, hm, hr, hl, ht, keep, Instr.wf]

theorem decodeHeaderOnly_of_wait (hl : hLitc h = 0#2) (ht : hStall h = 0#4) (hw : hWait h ≠ 0#4) :
    decodeHeaderOnly h = some (.waitPoint (hWait h)) := by
  simp [decodeHeaderOnly, hs, hm, hr, hl, ht, hw, keep, Instr.wf]

theorem decodeHeaderOnly_of_neither (hl : hLitc h = 0#2) (ht : hStall h = 0#4) (hw : hWait h = 0#4) : decodeHeaderOnly h = none := by
  simp [decodeHeaderOnly, hs, hm, hr, hl, ht, hw, keep, Instr.wf]

/-- At a bundle address such a header is bad exactly where it is no header-only bundle. -/
theorem headerBad_of_empty {pc : Addr} (hp : pc.extractLsb' 0 2 = 0#2) : headerBad pc h = (decodeHeaderOnly h).isNone := by
  simp [headerBad, hs, hm, hr, hp]

end

/-- A bad header is the bundle's fault, whatever follows it (02 R51, item 2). -/
theorem decodeFault_of_headerBad {pc : Addr} {h : Word} (hb : headerBad pc h = true) (fwm : Bool) (rest : List Word) :
    decodeFault fwm pc (h :: rest) = some (15, h, .illegalBundle) := by
  simp only [decodeFault, hb, if_true]

/-- Settles O3: the cases of LITC, STALL and WAIT. -/
theorem headerOnlyShapes : Obligations.HeaderOnlyShapes := by
  unfold Obligations.HeaderOnlyShapes
  intro h hs hm hr
  refine ⟨decodeHeaderOnly_of_literals, decodeHeaderOnly_of_stall hs hm hr, decodeHeaderOnly_of_wait hs hm hr,
    decodeHeaderOnly_of_neither hs hm hr, ?_⟩
  intro fwm pc rest hp
  have hbad := headerBad_of_empty hs hm hr hp
  constructor
  · intro hill
    refine decodeFault_of_headerBad (hbad.trans (Option.isNone_iff_eq_none.2 ?_)) fwm rest
    by_cases hl : hLitc h = 0#2
    · obtain ⟨ht, hw⟩ := hill.resolve_left (Classical.not_not.2 hl)
      exact decodeHeaderOnly_of_neither hs hm hr hl ht hw
    · exact decodeHeaderOnly_of_literals hl
  · intro hl hsome
    rw [hbad]
    by_cases ht : hStall h = 0#4
    · rw [decodeHeaderOnly_of_wait hs hm hr hl ht (hsome.resolve_left (Classical.not_not.2 ht))]
      rfl
    · rw [decodeHeaderOnly_of_stall hs hm hr hl ht]
      rfl

end Sys2Proof.Proofs
end

section
/-! O12, O19: the closing of a bundle (02 R40, R53). -/

namespace Sys2Proof.Proofs

open Sys2Proof.Machine Sys2Proof.Safety Sys2Proof.Laws

/-! Header-only bundles. -/

/-- A header-only bundle closes, unless its counter is zero: then it is held. -/
theorem headerOnly_of_open {s : State} {w stl : BitVec 4} (h : w = 0#4 ∨ s.core.tc w ≠ 0#16) :
    headerOnly w stl s = closeBundle { s with issue := { s.issue with wait := w, stall := stl } } := by
  unfold headerOnly waitHeld
  obtain rfl | h := h
  · rfl
  · simp [beq_eq_false_iff_ne.2 h]

theorem headerOnly_of_held {s : State} {w stl : BitVec 4} (hc : s.issue.commit = false) (hw : w ≠ 0#4) (h : s.core.tc w = 0#16) :
    headerOnly w stl s = hold 0 { s with issue := { s.issue with wait := w, stall := stl } } := by
  simp [headerOnly, waitHeld, waitFor, hc, hw, h]

/-- Settles O19: NOP and the wait point are header-only bundles. -/
theorem headerOnlyBundles : Obligations.HeaderOnlyBundles := by
  unfold Obligations.HeaderOnlyBundles
  intro s w st hc
  exact ⟨fun h => ⟨congrArg _ (headerOnly_of_open h), congrArg _ (headerOnly_of_open h)⟩,
    fun hw h => ⟨congrArg _ (headerOnly_of_held hc hw h), congrArg _ (headerOnly_of_held hc hw h)⟩⟩

/-! The end of a cycle at which no watch is met and no BAR.ln of an earlier cycle completes. -/

section

variable {c : Core} (hw : c.watches = []) (hl : ∀ a ∈ c.arrivals, a.scope = 0 → a.new = true)

/-- The core before its counters are changed: its arrivals are of an earlier cycle now. -/
def agedArrivals (c : Core) : Core := { c with arrivals := c.arrivals.map fun (a : Arrival) => { a with new := false } }

include hl in
theorem runLn_of_fresh : c.runLn = agedArrivals c := by
  have hdue : (c.arrivals.filter fun a => a.scope == 0 && !a.new) = [] := by
    rw [List.filter_eq_nil_iff]
    intro a ha
    cases hn : a.new with
    | true => simp
    | false => simpa using fun h0 => absurd (hl a ha h0) (by simp [hn])
  have hkeep : (c.arrivals.filter fun a => !(a.scope == 0 && !a.new)) = c.arrivals := by
    rw [List.filter_eq_self]
    intro a ha
    simpa only [Bool.not_eq_true', Bool.not_eq_true] using List.filter_eq_nil_iff.1 hdue a ha
  simp only [Core.runLn, hdue, hkeep, List.foldl_nil]
  rfl

include hw hl in
theorem runWatches_runLn_of_quiet : c.runWatches.runLn = agedArrivals c := by
  have : c.runWatches = c := by cases c; simp_all [Core.runWatches]
  rw [this, runLn_of_fresh hl]

variable (hf : c.fwm = false)

include hw hl hf in
/-- Such a cycle's end changes the counters and the cycle count, and owes the same ticks. -/
theorem endCycle_of_quiet : c.endCycle.regs = { c.regs with tc := tcApply c.regs.tc c.tcd } ∧ c.endCycle.stallrem = c.stallrem ∧
    c.endCycle.cycle = c.cycle + 1#64 ∧ c.endCycle.fwm = false := by
  unfold Core.endCycle
  rw [runWatches_runLn_of_quiet hw hl]
  simp [agedArrivals, Core.applyTc, Core.banked, hf]

end

/-! The counters at the end of a bundle's cycle (13 R326). -/

theorem tcClamp_zero (x : BitVec 16) : (tcClamp x 0).toNat = x.toNat := by
  have := x.isLt
  simp only [tcClamp, clampI, BitVec.toNat_ofInt]
  omega

theorem tcClamp_neg_one (x : BitVec 16) : (tcClamp x (-1)).toNat = x.toNat - 1 := by
  have := x.isLt
  simp only [tcClamp, clampI, BitVec.toNat_ofInt]
  omega

theorem getElem_tcApply (t : Vector (BitVec 16) 16) {l : List (Nat × Int)} (hl : l ≠ []) {i : Nat} (h0 : i ≠ 0) (hi : i < 16) :
    (tcApply t l)[i] = tcClamp t[i] (tcSum i l) := by simp [tcApply, hl, h0]

/-- The WAIT counter falls by one, and no other changes. -/
theorem tcApply_wait (t : Vector (BitVec 16) 16) {w i : BitVec 4} (hi : i ≠ 0#4) :
    ((tcApply t (if w = 0#4 then [] else [(w.toNat, -1)]))[i.toNat]'i.isLt).toNat =
      if w = i then (t[i.toNat]'i.isLt).toNat - 1 else (t[i.toNat]'i.isLt).toNat := by
  by_cases hw : w = 0#4
  · simp [hw, tcApply, Ne.symm hi]
  · rw [if_neg hw, getElem_tcApply t (List.cons_ne_nil _ _) (toNat_ne hi)]
    by_cases hwi : w = i
    · simp [hwi, tcSum, tcClamp_neg_one]
    · simp [hwi, tcSum, toNat_ne hwi, tcClamp_zero]

/-! The closing of a bundle with nothing in flight. -/

/-- The core as its next address is found: the WAIT counter's change noted, a tick of the divider run. -/
def ticked (s : State) : Core := { s.core.addTc s.issue.wait (-1) with divrem := (s.core.addTc s.issue.wait (-1)).divrem - 1 }

section

variable {s : State} (hp : s.core.pend = []) (hw : s.core.watches = []) (ht : s.core.tcd = []) (hf : s.core.fwm = false)
  (hl : ∀ a ∈ s.core.arrivals, a.scope = 0 → a.new = true)

include hp hw ht hf hl in
/-- A bundle whose next address is t closes with only its pc, its WAIT counter and the cycle's own counts changed. -/
theorem closeWith_of_quiet {go : Core → Core} {b : Option Addr} {t : Addr}
    (hgo : go (ticked s) = { ticked s with branch := b, regs := { (ticked s).regs with pc := t } }) :
    (closeWith go s).core.regs =
        { s.core.regs with pc := t, tc := tcApply s.core.regs.tc (if s.issue.wait = 0#4 then [] else [(s.issue.wait.toNat, -1)]) } ∧
      (closeWith go s).core.stallrem = s.issue.stall.toNat ∧ (closeWith go s).core.cycle = s.core.cycle + 1#64 ∧
      (closeWith go s).core.fwm = false := by
  have htick : (s.core.addTc s.issue.wait (-1)).tick = ticked s := tick_of_empty (by simpa using hp)
  have htcd : (ticked s).tcd = if s.issue.wait = 0#4 then [] else [(s.issue.wait.toNat, -1)] := by
    simp only [ticked, Core.addTc]
    split <;> simp [ht]
  have hcore : (closeWith go s).core =
      Core.endCycle { go (ticked s) with stallrem := s.issue.stall.toNat, frozen := bankFreeze s.issue.words } := by
    simp only [closeWith, htick]
  have hwatches : (go (ticked s)).watches = [] := by rw [hgo]; simp [ticked, hw]
  have harrivals : (go (ticked s)).arrivals = s.core.arrivals := by rw [hgo]; simp [ticked]
  have hfwm : (go (ticked s)).fwm = false := by rw [hgo]; simp [ticked, hf]
  have hregs : (go (ticked s)).regs = { s.core.regs with pc := t } := by rw [hgo]; simp [ticked]
  have hchanges : (go (ticked s)).tcd = (ticked s).tcd := by rw [hgo]
  have hcycle : (go (ticked s)).cycle = s.core.cycle := by rw [hgo]; simp [ticked]
  obtain ⟨hr, hstall, hcyc, hfw⟩ := endCycle_of_quiet
    (c := { go (ticked s) with stallrem := s.issue.stall.toNat, frozen := bankFreeze s.issue.words }) hwatches (harrivals ▸ hl) hfwm
  rw [hcore]
  exact ⟨hr.trans (by simp only [hregs, hchanges, htcd]), hstall, hcyc.trans (by simp only [hcycle]), hfw⟩

/-- A sequential bundle outside a loop goes on in sequence. -/
theorem loopStep_of_no_loop {c : Core} (h : c.regs.lpcnt = 0#64) (t : Addr) : c.loopStep t = { c with regs := { c.regs with pc := t } } := by
  simp [Core.loopStep, h]

include hp hw ht hf hl in
theorem closeBundle_of_quiet (hn : s.core.regs.lpcnt = 0#64) :
    (closeBundle s).core.regs =
        { s.core.regs with pc := s.issue.redirect.getD (nextPc s)
                           tc := tcApply s.core.regs.tc (if s.issue.wait = 0#4 then [] else [(s.issue.wait.toNat, -1)]) } ∧
      (closeBundle s).core.stallrem = s.issue.stall.toNat ∧ (closeBundle s).core.cycle = s.core.cycle + 1#64 ∧
      (closeBundle s).core.fwm = false := by
  unfold closeBundle
  split
  · rw [‹s.issue.redirect = _›]
    exact closeWith_of_quiet hp hw ht hf hl rfl
  · rw [‹s.issue.redirect = _›]
    exact closeWith_of_quiet hp hw ht hf hl (b := s.core.branch) ((loopStep_of_no_loop (by simp [ticked, hn]) _).trans (by simp [ticked]))

end

/-- Settles O12: the registers after the closing, and the one counter that has changed. -/
theorem bundleCloses : Obligations.BundleCloses := by
  unfold Obligations.BundleCloses
  intro s hp hw ht hf hn hl c
  obtain ⟨hregs, hstall, hcycle, hfwm⟩ := closeBundle_of_quiet hp hw ht hf hl hn
  refine ⟨(congrArg Regs.pc hregs :), hstall, hcycle, (congrArg Regs.s hregs :), (congrArg Regs.v hregs :), ?_, closeBundle_stop s⟩
  intro i hi
  have htc : ∀ d : Core, d.fwm = false → d.tc i = d.regs.tc[i.toNat]'i.isLt := fun d hd => by simp [Core.tc, Core.banked, hd]
  rw [htc _ hfwm, htc _ hf]
  simpa only [hregs] using tcApply_wait s.core.regs.tc hi

end Sys2Proof.Proofs
end

section
/-! O31, the decode: faults found before a bundle issues, in their order (02 R41, R45, R48, R49, R51). -/

namespace Sys2Proof.Proofs

open Sys2Proof.Machine Sys2Proof.Safety Sys2Proof.Laws

/-! One slot word. -/

/-- The slots that accept a group and minor opcode, slot by slot (02 R49). -/
def groupAccepted (slot g minor : Nat) : Prop :=
  (slot = 0 ∧ g ∈ [0, 1, 2, 3, 0xD, 0xE]) ∨ (slot = 1 ∧ g ∈ [0, 1, 3, 0xD, 0xE]) ∨ ((slot = 2 ∨ slot = 3) ∧ g ∈ [4, 5, 6]) ∨
    (slot = 4 ∧ (g = 4 ∧ minor ∉ [0x03, 0x04, 0x13, 0x14] ∨ g ∈ [5, 6])) ∨ (slot = 5 ∧ g = 7) ∨
    ((slot = 6 ∨ slot = 7) ∧ g ∈ [9, 0xA, 0xC]) ∨ (slot = 8 ∧ g = 8)

theorem slotAccepts_iff {slot : Nat} (hs : slot < 9) (w : Word) :
    slotAccepts slot w = true ↔ groupAccepted slot (fGroup w).toNat (fMinor w).toNat := by
  obtain rfl | rfl | rfl | rfl | rfl | rfl | rfl | rfl | rfl :
    slot = 0 ∨ slot = 1 ∨ slot = 2 ∨ slot = 3 ∨ slot = 4 ∨ slot = 5 ∨ slot = 6 ∨ slot = 7 ∨ slot = 8 := by omega
  all_goals simp [slotAccepts, groupAccepted, and_assoc, or_assoc]

section

variable {fwm : Bool} {litc slot : Nat} {w : Word}

theorem slotFault_of_header (hg : (fGroup w).toNat = 0xB) : slotFault fwm litc slot w = some .illegalBundle :=
  if_pos (BitVec.eq_of_toNat_eq hg)

theorem slotFault_of_groupF (hg : (fGroup w).toNat = 0xF) : slotFault fwm litc slot w = some .illegalOp := by
  have hF : fGroup w = 0xF#4 := BitVec.eq_of_toNat_eq hg
  simp [slotFault, hF]

section

variable (hB : (fGroup w).toNat ≠ 0xB) (hF : (fGroup w).toNat ≠ 0xF)

include hB hF

theorem slotFault_of_refused (ha : slotAccepts slot w = false) : slotFault fwm litc slot w = some .slotGroup := by
  have hB' : fGroup w ≠ 0xB#4 := fun e => hB (congrArg BitVec.toNat e)
  have hF' : fGroup w ≠ 0xF#4 := fun e => hF (congrArg BitVec.toNat e)
  simp [slotFault, hB', hF', ha]

variable (ha : slotAccepts slot w = true)

include ha

theorem slotFault_of_undecoded (hd : decodeSlot w = none) : slotFault fwm litc slot w = some .illegalOp := by
  have hB' : fGroup w ≠ 0xB#4 := fun e => hB (congrArg BitVec.toNat e)
  have hF' : fGroup w ≠ 0xF#4 := fun e => hF (congrArg BitVec.toNat e)
  simp [slotFault, hB', hF', ha, hd]

/-- A decoded word faults by its literal index, then by its mode. -/
theorem slotFault_of_decoded {i : Instr} (hd : decodeSlot w = some i) :
    slotFault fwm litc slot w = if litOk litc i then modeFault fwm i else some .illegalBundle := by
  have hB' : fGroup w ≠ 0xB#4 := fun e => hB (congrArg BitVec.toNat e)
  have hF' : fGroup w ≠ 0xF#4 := fun e => hF (congrArg BitVec.toNat e)
  cases hl : litOk litc i <;> simp [slotFault, hB', hF', ha, hd, hl]

end

end

/-! The header (02 R41). -/

theorem headerBad_iff (pc : Addr) (h : Word) : headerBad pc h = true ↔
    hSig h ≠ 0xB#4 ∨ hRes h ≠ 0#9 ∨ (hMask h = 0#9 ∧ decodeHeaderOnly h = none) ∨ pc.extractLsb' 0 2 ≠ 0#2 := by
  simp [headerBad, or_assoc]

/-! The slots of a bundle (02 R51, items 2 and 3). -/

/-- A word that ends its bundle (02 R46). -/
def endsBundle (p : Nat × Word) : Bool := match decodeSlot p.2 with | some i => ends i | none => false

theorem endsBundle_iff (p : Nat × Word) : endsBundle p = true ↔ ∃ i, decodeSlot p.2 = some i ∧ ends i = true := by
  unfold endsBundle
  cases decodeSlot p.2 <;> simp

section

variable {fwm : Bool} {pc : Addr} {h : Word} {rest : List Word} (hb : headerBad pc h = false)

include hb

/-- The first slot with a fault is the bundle's. -/
theorem decodeFault_of_slotFault {pre post : List (Nat × Word)} {p : Nat × Word} {c : Cause} (hs : (slotWords (h :: rest)).1 = pre ++ p :: post)
    (hpre : ∀ q ∈ pre, slotFault fwm (hLitc h).toNat q.1 q.2 = none) (hp : slotFault fwm (hLitc h).toNat p.1 p.2 = some c) :
    decodeFault fwm pc (h :: rest) = some (p.1, p.2, c) := by
  have hnone : (pre.findSome? fun p => (slotFault fwm (hLitc h).toNat p.1 p.2).map fun c => (p.1, p.2, c)) = none := by
    rw [List.findSome?_eq_none_iff]
    intro q hq
    rw [hpre q hq]
    rfl
  simp [decodeFault, hb, hs, List.findSome?_append, hnone, hp]

/-- Of sound slots the second that ends the bundle is its fault. -/
theorem decodeFault_of_sound (hs : ∀ q ∈ (slotWords (h :: rest)).1, slotFault fwm (hLitc h).toNat q.1 q.2 = none) :
    decodeFault fwm pc (h :: rest) = ((((slotWords (h :: rest)).1.filter endsBundle)[1]?).map fun q => (q.1, q.2, Cause.illegalBundle)) := by
  have hnone : ((slotWords (h :: rest)).1.findSome? fun p => (slotFault fwm (hLitc h).toNat p.1 p.2).map fun c => (p.1, p.2, c)) = none := by
    rw [List.findSome?_eq_none_iff]
    intro q hq
    rw [hs q hq]
    rfl
  simp only [decodeFault, hb, hnone, Bool.false_eq_true, if_false]
  change (match (slotWords (h :: rest)).1.filter endsBundle with | _ :: q :: _ => some (q.1, q.2, Cause.illegalBundle) | _ => none) = _
  split
  · rename_i q _ hl
    simp [hl]
  · rename_i hl
    cases hf : (slotWords (h :: rest)).1.filter endsBundle with
    | nil => rfl
    | cons a t =>
      cases t with
      | nil => rfl
      | cons q l => exact absurd hf (hl a q l)

end

/-! The clauses of the statement. -/

theorem slotFault_clauses (fwm : Bool) (litc slot : Nat) (w : Word) (hs : slot < 9) :
    ((fGroup w).toNat = 0xB → slotFault fwm litc slot w = some .illegalBundle) ∧
    ((fGroup w).toNat = 0xF → slotFault fwm litc slot w = some .illegalOp) ∧
    ((fGroup w).toNat ≠ 0xB → (fGroup w).toNat ≠ 0xF → ¬groupAccepted slot (fGroup w).toNat (fMinor w).toNat →
      slotFault fwm litc slot w = some .slotGroup) ∧
    ((fGroup w).toNat ≠ 0xB → (fGroup w).toNat ≠ 0xF → groupAccepted slot (fGroup w).toNat (fMinor w).toNat →
      (decodeSlot w = none → slotFault fwm litc slot w = some .illegalOp) ∧
      (∀ d a i x, litc ≤ BitVec.toNat i → decodeSlot w = some (.lit d a i x) → slotFault fwm litc slot w = some .illegalBundle) ∧
      (∀ d i, litc ≤ BitVec.toNat i + 1 → decodeSlot w = some (.lit64 d i) → slotFault fwm litc slot w = some .illegalBundle) ∧
      (∀ i d a, fwm = false → decodeSlot w = some i → i = .haltc a ∨ i = .ctxsv a ∨ i = .ctxld d a →
        slotFault fwm litc slot w = some .privilege) ∧
      (∀ d a b, decodeSlot w = some (.add d a b) → slotFault fwm litc slot w = none)) := by
  refine ⟨slotFault_of_header, slotFault_of_groupF, ?_, ?_⟩
  · intro hB hF ha
    exact slotFault_of_refused hB hF (by rwa [← Bool.not_eq_true, slotAccepts_iff hs])
  · intro hB hF ha
    have ha := (slotAccepts_iff hs w).2 ha
    refine ⟨slotFault_of_undecoded hB hF ha, ?lit, ?lit64, ?privilege, fun d a b hd => slotFault_of_decoded hB hF ha hd⟩
    case lit =>
      intro d a i x hl hd
      rw [slotFault_of_decoded hB hF ha hd, litOk, if_neg (by simpa using hl)]
    case lit64 =>
      intro d i hl hd
      rw [slotFault_of_decoded hB hF ha hd, litOk, if_neg (by simpa using hl)]
    case privilege =>
      rintro i d a rfl hd (rfl | rfl | rfl) <;> exact slotFault_of_decoded hB hF ha hd

theorem filter_endsBundle_eq_nil {l : List (Nat × Word)} (hl : ∀ r ∈ l, ¬endsBundle r = true) : l.filter endsBundle = [] :=
  List.filter_eq_nil_iff.2 hl

section

variable {fwm : Bool} {pc : Addr} {h : Word} {rest : List Word} (hb : headerBad pc h = false)
  (hs : ∀ q ∈ (slotWords (h :: rest)).1, slotFault fwm (hLitc h).toNat q.1 q.2 = none)

include hb hs

/-- Of two words that end the bundle the second is its fault. -/
theorem decodeFault_of_two_ends {pre mid post : List (Nat × Word)} {p q : Nat × Word}
    (hl : (slotWords (h :: rest)).1 = pre ++ p :: mid ++ q :: post) (hp : endsBundle p = true) (hq : endsBundle q = true)
    (hn : ∀ r ∈ pre ++ mid, ¬endsBundle r = true) : decodeFault fwm pc (h :: rest) = some (q.1, q.2, .illegalBundle) := by
  have hpre := filter_endsBundle_eq_nil fun r hr => hn r (List.mem_append_left mid hr)
  have hmid := filter_endsBundle_eq_nil fun r hr => hn r (List.mem_append_right pre hr)
  simp [decodeFault_of_sound hb hs, hl, List.filter_append, List.filter_cons_of_pos, hp, hq, hpre, hmid]

theorem decodeFault_of_one_end {pre post : List (Nat × Word)} {p : Nat × Word} (hl : (slotWords (h :: rest)).1 = pre ++ p :: post)
    (hn : ∀ r ∈ pre ++ post, ¬endsBundle r = true) : decodeFault fwm pc (h :: rest) = none := by
  have hpre := filter_endsBundle_eq_nil fun r hr => hn r (List.mem_append_left post hr)
  have hpost := filter_endsBundle_eq_nil fun r hr => hn r (List.mem_append_right pre hr)
  have hone : (((slotWords (h :: rest)).1.filter endsBundle)[1]?) = none := by
    cases hp : endsBundle p <;> simp [hl, List.filter_append, hp, hpre, hpost]
  rw [decodeFault_of_sound hb hs, hone]
  rfl

theorem decodeFault_of_no_end (hn : ∀ r ∈ (slotWords (h :: rest)).1, ¬endsBundle r = true) : decodeFault fwm pc (h :: rest) = none := by
  rw [decodeFault_of_sound hb hs, filter_endsBundle_eq_nil hn]
  rfl

end

end Sys2Proof.Proofs
end

section
/-! O31, the trap: the step that takes a fault found before issue, and the faults of operands and results (02 R51, R55, 04 R91). -/

namespace Sys2Proof.Proofs

open Sys2Proof.Machine Sys2Proof.Safety Sys2Proof.Laws

/-! What the end of a cycle in firmware mode leaves alone. -/

/-- The firing's registers, the mode and the trap registers. -/
def trapView (c : Core) : Regs × Bool × Ending × BitVec 6 × Addr × W64 := (c.regs, c.fwm, c.ending, c.trapcause, c.trappc, c.trapval)

theorem banked_of_trapView {c d : Core} (h : trapView d = trapView c) : d.banked = c.banked := by
  simp only [trapView, Prod.mk.injEq] at h
  obtain ⟨-, hf, he, -⟩ := h
  rw [Core.banked, Core.banked, hf, he]

theorem parkVar_trapView (c : Core) (p : Pending) : trapView (c.parkVar p) = trapView c := by
  unfold Core.parkVar
  split <;> rfl

theorem onFrame_trapView (c : Core) (fid : W64) (f : Frame → Frame) : trapView (c.onFrame fid f) = trapView c := by
  unfold Core.onFrame
  split <;> rfl

theorem addTc_trapView (c : Core) (i : BitVec 4) (d : Int) : trapView (c.addTc i d) = trapView c := by
  unfold Core.addTc
  split <;> rfl

/-- What each act keeps in firmware mode, a list of acts keeps. -/
theorem foldl_trapView {α : Type} {f : Core → α → Core} (h : ∀ c x, c.banked = true → trapView (f c x) = trapView c) (l : List α) {c : Core}
    (hb : c.banked = true) : trapView (l.foldl f c) = trapView c := by
  induction l generalizing c with
  | nil => rfl
  | cons x t ih =>
    have hx := h c x hb
    exact (ih ((banked_of_trapView hx).trans hb)).trans hx

section

variable {c : Core} (hb : c.banked = true)

include hb

theorem applyTc_trapView : trapView c.applyTc = trapView c := by simp [Core.applyTc, hb, trapView]

/-- A token comes to the bank, or waits in the landing queue. -/
theorem tokenFor_trapView (fw : Bool) (tc : BitVec 4) : trapView (c.tokenFor fw tc) = trapView c := by
  simp only [Core.tokenFor, hb, if_true]
  split
  · rfl
  split
  · exact addTc_trapView ..
  · exact parkVar_trapView ..

theorem runWatch_trapView (w : Watch) : trapView (c.runWatch w) = trapView c := by
  unfold Core.runWatch
  dsimp only
  split
  · exact tokenFor_trapView hb ..
  · rfl

theorem runWatches_trapView : trapView c.runWatches = trapView c :=
  foldl_trapView (fun _ w h => runWatch_trapView h w) _ (c := { c with watches := [] }) hb

/-- A response for the firing waits in the landing queue, or comes to its frame. -/
theorem landVar_trapView (fid : W64) (p : Put) (fl : Flags) (tc : BitVec 4) : trapView (c.landVar fid false p fl tc) = trapView c := by
  simp only [Core.landVar, Core.landHist, hb, if_true, Bool.false_eq_true, if_false]
  split
  · exact parkVar_trapView ..
  · exact onFrame_trapView ..

theorem completeLn_trapView (a : Arrival) : trapView (c.completeLn a) = trapView c :=
  landVar_trapView (c := c.onTaskSlot a.fid fun ts => { ts with inst := ts.inst.set 0 a.inst }) hb ..

theorem runLn_trapView : trapView c.runLn = trapView c :=
  foldl_trapView (fun _ a h => completeLn_trapView h a) _ (c := { c with arrivals := _ }) hb

theorem endCycle_trapView : trapView c.endCycle = trapView c := by
  have hw := runWatches_trapView hb
  have hbw := (banked_of_trapView hw).trans hb
  have hl := runLn_trapView hbw
  exact (applyTc_trapView ((banked_of_trapView hl).trans hbw)).trans (hl.trans hw)

end

/-! The trap (14 R349, R350). -/

/-- The core in t has taken the trap that the core in s was given, its registers as they were, and the memories stand. -/
def tookTrap (s t : State) (cause : Cause) (pc : Addr) (val : W64) : Prop :=
  t.core.trapcause = cause.code ∧ t.core.trappc = pc ∧ t.core.trapval = val ∧ t.core.fwm = true ∧
    t.core.regs.pc = s.core.trapvec.extractLsb' 14 42 ++ cause.code ++ 0#8 ∧ t.core.regs.s = s.core.regs.s ∧ t.core.regs.k = s.core.regs.k ∧
    t.core.regs.n = s.core.regs.n ∧ t.core.regs.v = s.core.regs.v ∧ memorySame s t

/-- A trap from outside firmware goes to the cause's entry. -/
theorem takeTrap_entry {c : Core} (h : c.fwm = false) (cause : BitVec 6) (pc : Addr) (val : W64) :
    (c.takeTrap cause pc val).regs.pc = c.trapvec.extractLsb' 14 42 ++ cause ++ 0#8 ∧ (c.takeTrap cause pc val).banked = true := by
  simp [Core.takeTrap, h, Core.applyTc, Core.banked, Core.park]

/-- A cycle that ends with a trap of a core d that differs from s's in no register. -/
theorem tookTrap_of_core {s t : State} {d c0 : Core} {cause : Cause} {pc : Addr} {val : W64} (hf : d.fwm = false) (hr : d.regs = s.core.regs)
    (hv : d.trapvec = s.core.trapvec) (ht : t.core = ((d.takeTrap cause.code pc val).countedFrom c0).endCycle) (hm : memorySame s t) :
    tookTrap s t cause pc val := by
  obtain ⟨hfwm, hcause, hpc, hval, -⟩ := takeTrap_of_user hf cause.code pc val
  obtain ⟨hs, hk, hn, hvr, -⟩ := takeTrap_frame d cause.code pc val
  obtain ⟨hentry, hbank⟩ := takeTrap_entry hf cause.code pc val
  have hview := endCycle_trapView (c := (d.takeTrap cause.code pc val).countedFrom c0) hbank
  rw [← ht] at hview
  simp only [trapView, Core.countedFrom, Prod.mk.injEq] at hview
  obtain ⟨eregs, efwm, -, ecause, epc, eval⟩ := hview
  refine ⟨ecause.trans hcause, epc.trans hpc, eval.trans hval, efwm.trans hfwm, ?_, ?_, ?_, ?_, ?_, hm⟩ <;> rw [eregs]
  · rw [hentry, hv]
  · rw [hs, hr]
  · rw [hk, hr]
  · rw [hn, hr]
  · rw [hvr, hr]

/-- A bundle with a decode fault takes its trap (02 R51). -/
theorem step_of_decodeFault {s : State} (ha : s.agenda = []) (hf : s.core.fwm = false) (hi : issuing s.core = true) {ws : List Word} {n : Nat}
    {w : Word} {cause : Cause} (hw : fetchAt s.core s.core.regs.pc = .words ws)
    (hd : decodeFault false s.core.regs.pc ws = some (n, w, cause)) :
    ∃ t, step s = .next t ∧ tookTrap s t cause s.core.regs.pc (0#28 ++ BitVec.ofNat 4 n ++ w) := by
  have hopen : decodeFault s.opened.core.fwm s.opened.core.regs.pc ws = some (n, w, cause) := by
    rw [← hd, ← hf]
    rfl
  refine ⟨conclude s.opened (raise cause (s.opened.atSlot (n, w))), ?_, ?_⟩
  · rw [step_eq_issueBundle ha hi hw]
    simp only [issueBundle, hopen]
  · exact tookTrap_of_core (d := s.opened.core) (c0 := s.opened.core) hf rfl rfl rfl ⟨rfl, rfl⟩

/-- A core that would issue but for a target to be checked fetches (02 R48). -/
theorem step_of_branch {s : State} (ha : s.agenda = []) (hi : issuing { s.core with branch := none } = true) :
    step s = fetchCycle s ∧ fenceHolds s.core = false ∧ fetchWaits s.core = false := by
  have hb : Core.atBoundary { s.core with branch := none } = s.core.atBoundary := rfl
  have hw : Core.watchdogVal { s.core with branch := none } = s.core.watchdogVal := rfl
  have hn : fenceHolds { s.core with branch := none } = fenceHolds s.core := rfl
  have hq : fetchWaits { s.core with branch := none } = fetchWaits s.core := rfl
  simp only [issuing, hb, hw, hn, hq, Bool.and_eq_true, Bool.not_eq_true', beq_iff_eq, Option.isNone_iff_eq_none] at hi
  obtain ⟨⟨⟨⟨⟨⟨⟨⟨⟨⟨⟨⟨hhalt, hreq⟩, hfaults⟩, hdog⟩, hrun⟩, hwarm⟩, hfrozen⟩, hstall⟩, hend⟩, hfence⟩, hwait⟩, -⟩, -⟩ := hi
  have hruns : (!s.core.running && !s.core.fwm) = false := by rw [← Bool.not_or, hrun]; rfl
  exact ⟨by simp [step, nextTurn, ha, coreCycle, hhalt, hreq, hfaults, hdog, hruns, hwarm, hfrozen, hstall, hend], hfence, hwait⟩

/-- A target that is no bundle is the branch's own fault (02 R48). -/
theorem step_of_badTarget {s : State} (ha : s.agenda = []) (hf : s.core.fwm = false) {b : Addr} (hb : s.core.branch = some b)
    (hi : issuing { s.core with branch := none } = true)
    (hbad : s.core.regs.pc.extractLsb' 0 2 ≠ 0#2 ∨ ∃ h rest, fetchAt s.core s.core.regs.pc = .words (h :: rest) ∧ hSig h ≠ 0xB#4) :
    ∃ t, step s = .next t ∧ tookTrap s t .branchTarget b (s.core.regs.pc.zeroExtend 64) := by
  obtain ⟨hstep, hfence, hwait⟩ := step_of_branch ha hi
  rw [hstep]
  by_cases hp : s.core.regs.pc.extractLsb' 0 2 = 0#2
  · obtain ⟨h, rest, hw, hsig⟩ := hbad.resolve_left (Classical.not_not.2 hp)
    refine ⟨badTarget b (s.onCore fun c => { c with fetchb := false }), ?_, ?_⟩
    · simp [fetchCycle, hfence, hwait, hb, hp, hw, hsig]
    · exact tookTrap_of_core (d := { s.core with fetchb := false, branch := none }) (c0 := { s.core with fetchb := false }) hf rfl rfl rfl ⟨rfl, rfl⟩
  · refine ⟨badTarget b s, ?_, ?_⟩
    · simp [fetchCycle, hfence, hwait, hb, hp]
    · exact tookTrap_of_core (d := { s.core with branch := none }) (c0 := s.core) hf rfl rfl rfl ⟨rfl, rfl⟩

/-! Faults of operands and results at issue (02 R55, 04 R91). -/

/-- The first check of an instruction that fails is its fault, with the slot's word. -/
theorem guarded_of_first {s : State} (hc : s.issue.commit = false) {cs : List Check} {c : Check} (hb : c.bad = true) (hv : c.val = none)
    (eff : State → State) : guarded (c :: cs) eff s = raise c.cause s := by
  rw [guarded_of_bad hc (List.find?_cons_of_pos hb), hv]
  rfl

theorem tagCheck_bad {m : BitVec 4} {v : VReg} (h : tagOk m v.tag = false) : (tagCheck m v).bad = true := by simp [tagCheck, h]

theorem writeS_of_claimed {s : State} (hc : s.issue.commit = false) {lat : Nat} {d : Reg} (hu : ¬unclaimed lat (.s d 0#64) s) (x : W64) :
    writeS lat d x s = raiseWith .writeCollision (slotVal s) s := by
  have hclash : clashes s { rem := lat, put := .s d 0#64 } = true := by simpa [unclaimed] using hu
  exact guarded_of_first (c := collision { rem := lat, put := .s d x } s) hc hclash rfl _

/-- Settles O31: the decode's clauses, the step that takes their trap, the checks at issue. -/
theorem issueFaultsOfResults : Obligations.IssueFaultsOfResults := by
  unfold Obligations.IssueFaultsOfResults
  refine ⟨?slot, ?bundle, ?traps, ?issue⟩
  case slot => exact fun fwm litc slot w => slotFault_clauses fwm litc slot w
  case bundle =>
    intro fwm pc h rest litc slots sound ending
    have hends (p : Nat × Word) : ending p ↔ endsBundle p = true := (endsBundle_iff p).symm
    refine ⟨headerBad_iff pc h, fun hb => decodeFault_of_headerBad hb fwm rest, fun hb => ⟨?_, fun hs => ?_⟩⟩
    · exact fun pre p post c hl hpre hp => decodeFault_of_slotFault hb hl hpre hp
    · simp only [hends]
      exact ⟨fun pre p mid q post hl hp hq hn => decodeFault_of_two_ends hb hs hl hp hq hn,
        fun pre p post hl hn => decodeFault_of_one_end hb hs hl hn, decodeFault_of_no_end hb hs⟩
  case traps =>
    intro s ha hf
    exact ⟨fun hi ws n w cause hw hd => step_of_decodeFault ha hf hi hw hd, fun b hb hi hbad => step_of_badTarget ha hf hb hi hbad⟩
  case issue =>
    intro s d a b k m hc
    constructor
    · intro ht
      have hbad := tagCheck_bad ht
      exact ⟨congrArg _ (guarded_of_first hc hbad rfl _), congrArg _ (guarded_of_first hc hbad rfl _), congrArg _ (guarded_of_first hc hbad rfl _),
        congrArg _ (guarded_of_first hc hbad rfl _), congrArg _ (guarded_of_first hc hbad rfl _)⟩
    · exact fun hu => ⟨congrArg _ (writeS_of_claimed hc hu _), congrArg _ (writeS_of_claimed hc hu _)⟩

end Sys2Proof.Proofs
end

section
/-! O52: results that land, boundary faults, the watchdog, halts, saves, failure and restart (02 R53, 14 R348 to R373). -/

namespace Sys2Proof.Proofs

open Sys2Proof.Machine Sys2Proof.Safety Sys2Proof.Laws

/-! Results and traps as events of their own (02 R53, 14 R348, R360). -/

theorem resultWrite_due {s : State} {p : Pending} (hp : s.core.pend[inp s 0]? = some p) (hr : p.rem = 0) (hh : s.core.halt = .no) :
    exec .resultWrite s = .next { s with core := (Core.landOne { s.core with pend := dropAt s.core.pend (inp s 0) } p).applyTc } := by
  change execResultWrite s = _
  simp only [execResultWrite, hp, if_pos (And.intro hr hh), State.onCore]

theorem landingEntryLand_due {s : State} {p : Pending} (hp : s.core.lq[inp s 0]? = some p) (hr : p.rem = 0) (hh : s.core.halt = .no)
    (hf : s.core.fwm = false) :
    exec .landingEntryLand s = .next { s with core := (Core.landOne { s.core with lq := dropAt s.core.lq (inp s 0) } p).applyTc } := by
  change execLandingEntryLand s = _
  simp only [execLandingEntryLand, hp, if_pos (And.intro hr (And.intro hh hf)), State.onCore]

theorem boundaryFault_taken {s : State} {d : Deferred} {rest : List Deferred} (hr : s.core.running = true) (hf : s.core.fwm = false)
    (hh : s.core.halt = .no) (hd : s.core.faults = d :: rest) :
    exec .boundaryFault s = .next { s with core := Core.takeTrap d.cause.code s.core.regs.pc d.val { s.core with faults := rest } } := by
  have hb : s.core.atBoundary = true := by simp [Core.atBoundary, hr, hf, hh]
  change execBoundaryFault s = _
  simp only [execBoundaryFault, if_pos hb, State.onCore, Core.takePending, hd]

theorem watchdog_taken {s : State} {v : W64} (hv : s.core.watchdogVal = some v) :
    exec .watchdog s = .next { s with core := { s.core.takeTrap 0x13#6 s.core.regs.pc v with wdFrozen := 0, wdHeld := 0 } } := by
  change execWatchdog s = _
  simp only [execWatchdog, hv]
  rfl

/-! Pre-emption (14 R361, R369). -/

theorem preemptHalt_taken {s : State} (hq : inp s 0 < 16) (hp : (s.region (inp s 0)).phase = .running) :
    ∃ t : State, exec .preemptHalt s = .next t ∧ (t.region (inp s 0)).phase = .halting ∧ t.core = s.core := by
  have hrun : ((s.region (inp s 0)).phase == .running) = true := beq_iff_eq.2 hp
  have he : exec .preemptHalt s = _ := (if_neg (not_beyond_queues hq)).trans (congrArg _ (if_pos hrun))
  refine ⟨_, he, ?_, rfl⟩
  exact congrArg Region.phase (region_onRegion_self s (inp s 0) fun x => { x with phase := .halting })

theorem preemptResume_accepted {s : State} (hq : inp s 0 < 16) (hi : inp s 1 ≠ 1) (hp : (s.region (inp s 0)).phase = .saved) :
    exec .preemptResume s = .next (s.onRegion (inp s 0) fun x => { x with phase := .resuming }) := by
  change execPreemptResume s = _
  simp [execPreemptResume, not_beyond_queues hq, hp, hi]

theorem preemptResume_done {s t : State} (hq : inp s 0 < 16) (hp : (s.region (inp s 0)).phase = .resuming) (ho : saveOpen s (inp s 0) = false)
    (ht : (savedCores (inp s 0) s).foldlM (fun u n => resumeCore (inp s 0) ((s.region (inp s 0)).saveArea u n) n u) s = some t) :
    exec .preemptResume s = .next (t.onRegion (inp s 0) fun x => { x with phase := .running }) := by
  have hr : resumeRegion (inp s 0) s = some (t.onRegion (inp s 0) fun x => { x with phase := .running }) :=
    congrArg (Option.map fun u : State => u.onRegion (inp s 0) fun x => { x with phase := .running }) ht
  change execPreemptResume s = _
  simp [execPreemptResume, not_beyond_queues hq, hp, ho, hr]

/-! The halt of a core and its save (14 R361, R364). -/

section
variable {s : State} (hp : (s.region (regionOf s)).phase = .halting) (hh : s.core.halt = .no) (hc : s.cur ∈ (s.region (regionOf s)).cores s)

include hp hh hc

theorem coreHalt_asked (hr : s.core.hreq = false) : exec .coreHalt s = .next { s with core := { s.core with hreq := true } } := by
  change execCoreHalt s = _
  simp [execCoreHalt, hp, hh, hc, hr, State.onCore]

theorem coreHalt_stops (hr : s.core.hreq = true) : exec .coreHalt s = .next (haltNow s) := by
  change execCoreHalt s = _
  simp [execCoreHalt, hp, hh, hc, hr]

end

theorem haltNow_of_unsplit {s : State} (hm : s.core.maySplit = false) : haltNow s = s := by simp [haltNow, hm]

theorem haltNow_of_split {s : State} (hm : s.core.maySplit = true) :
    haltNow s = { s with core := (if mayEnd s then s.core.retire else s.core).stop (.region false) } := by
  cases he : mayEnd s <;> simp [haltNow, hm, he, State.onCore, Core.haltHere]

section
variable {s u : State} (hh : s.core.halt = .region false) (hcol : collected s = true) (hm : mayEnd s = false)
  (hl : (s.region (regionOf s)).live = true) (hc : s.cur ∈ (s.region (regionOf s)).cores s)

include hh hcol hm hl hc

theorem saveSequence_refused {e : Cause}
    (hs : saveAt (regionOf s) ((s.region (regionOf s)).saveArea s s.cur) s.core.applyTc s = (u, some e)) :
    exec .saveSequence s = .next (endRegion (regionOf s) 0x03 u) := by
  change execSaveSequence s = _
  simp [execSaveSequence, hh, hcol, hm, hl, hc, hs]

theorem saveSequence_saved (hs : saveAt (regionOf s) ((s.region (regionOf s)).saveArea s s.cur) s.core.applyTc s = (u, none)) :
    ∃ t : State, exec .saveSequence s = .next t ∧ t.core.halt = .region true ∧ t.core.regs = u.core.regs ∧ t.hbm = u.hbm := by
  change ∃ t : State, execSaveSequence s = .next t ∧ _
  simp only [execSaveSequence, hh, hcol, hm, hl, List.contains_iff_mem.2 hc, hs, Bool.not_false, Bool.and_self, if_true]
  refine ⟨_, rfl, ?_⟩
  split <;> exact ⟨rfl, rfl, rfl⟩

end

/-! What keeps the table of the regions (08 R203, R205, 14 R372). -/

/-- A part of the state that no step of a fold changes. -/
theorem foldl_keeps {α β : Type} {g : State → β} {f : State → α → State} (h : ∀ s x, g (f s x) = g s) (l : List α) (s : State) :
    g (l.foldl f s) = g s := by
  induction l generalizing s with
  | nil => rfl
  | cons x t ih => rw [List.foldl_cons, ih, h]

theorem foldl_core {α : Type} {f : State → α → State} (h : ∀ s x, (f s x).core = s.core) (l : List α) (s : State) :
    (l.foldl f s).core = s.core := foldl_keeps h l s

theorem foldl_regions {α : Type} {f : State → α → State} (h : ∀ s x, (f s x).regions = s.regions) (l : List α) (s : State) :
    (l.foldl f s).regions = s.regions := foldl_keeps h l s

theorem region_of_regions {s t : State} (h : t.regions = s.regions) (q : Nat) : t.region q = s.region q := by
  simp [State.region, h]

theorem foldl_region {α : Type} {f : State → α → State} (h : ∀ s x, (f s x).regions = s.regions) (l : List α) (s : State) (q : Nat) :
    (l.foldl f s).region q = s.region q := region_of_regions (foldl_regions h l s) q

@[simp] theorem cacheLeaf_regions (s : State) (r va : Nat) : (cacheLeaf s r va).regions = s.regions := by
  unfold cacheLeaf
  dsimp only
  (repeat' split) <;> rfl

theorem agentWrite_regions {s t : State} {r va n mask x : Nat} (h : agentWrite s r va n mask x = .ok t) : t.regions = s.regions := by
  simp only [agentWrite, bind, Except.bind] at h
  split at h
  · cases h
  · split at h <;> (cases h; rfl)

@[simp] theorem wbLine_regions (l : Nat) (s : State) : (wbLine l s).regions = s.regions := by
  unfold wbLine
  split
  · rfl
  · split
    · rfl
    · dsimp only
      split
      · rw [onCore_regions, agentWrite_regions ‹_›, cacheLeaf_regions]
      · rw [onCore_regions, cacheLeaf_regions]

@[simp] theorem salvage_regions (s : State) : (salvage s).regions = s.regions :=
  foldl_regions (fun s l => wbLine_regions l s) _ s

@[simp] theorem poisonLine_regions (reg : Nat) (s : State) (l : Nat) : (poisonLine reg s l).regions = s.regions := by
  unfold poisonLine
  split <;> rfl

@[simp] theorem cancelResv_regions (core ser : Nat) (s : State) : (cancelResv core ser s).regions = s.regions := rfl

@[simp] theorem post_core (s : State) (q : Nat) (src : Source) (code : Nat) (p0 p1 : W64) (held : Bool)
    (tok : Option (Nat × W64 × Bool × BitVec 4)) (done : Option Nat) : (post s q src code p0 p1 held tok done).core = s.core := rfl

@[simp] theorem post_regions (s : State) (q : Nat) (src : Source) (code : Nat) (p0 p1 : W64) (held : Bool)
    (tok : Option (Nat × W64 × Bool × BitVec 4)) (done : Option Nat) : (post s q src code p0 p1 held tok done).regions = s.regions := rfl

/-! Core failure (14 R371, R372). -/

/-- Every task that the directory has at a core is lost. -/
def tasksLost (reg code : Nat) (s : State) : Prop := ∀ p ∈ (s.region reg).dir, p.2.core = code → p.2.state = .lost

theorem tasksLost_setTasks (reg code : Nat) (s : State) : tasksLost reg code (setTasks reg code .lost s) := by
  intro p hp hc
  rw [setTasks, region_onRegion_self] at hp
  obtain ⟨e, -, rfl⟩ := List.mem_map.1 hp
  by_cases he : e.2.core = code
  · rw [if_pos he]
  · rw [if_neg he] at hc
    exact absurd hc he

theorem tasksLost_of_dir {reg code : Nat} {s t : State} (h : (t.region reg).dir = (s.region reg).dir) (hs : tasksLost reg code s) :
    tasksLost reg code t := by
  rwa [tasksLost, h]

theorem coreFailure_lost {s : State} (hl : (s.region (regionOf s)).live = true) (hc : s.cur ∈ (s.region (regionOf s)).cores s) :
    ∃ t : State, exec .coreFailure s = .next t ∧ t.core.halt = .failed ∧ t.core.gcache = [] ∧ t.core.tiles = [] ∧
      tasksLost (regionOf s) s.cur t := by
  refine ⟨_, rfl, ?_⟩
  simp only [failCore, hl, List.contains_iff_mem.2 hc, Bool.and_self, Bool.not_true, Bool.false_eq_true, if_false]
  refine ⟨?halt, ?gcache, ?tiles, tasksLost_of_dir ?dir (tasksLost_setTasks (regionOf s) s.cur s)⟩
  case halt => rw [foldl_core (by simp)]; rfl
  case gcache => rw [foldl_core (by simp)]; rfl
  case tiles => rw [foldl_core (by simp)]; rfl
  case dir =>
    rw [foldl_region (by simp), region_onRegion_self]
    dsimp only
    rw [region_of_regions (s := setTasks (regionOf s) s.cur .lost s)]
    -- the directory stands as `setTasks` left it through the fence, the cancellations, the poisoning and the salvage
    rw [onCore_regions, foldl_regions (by simp)]
    dsimp only
    rw [foldl_regions (by simp)]
    split
    · exact salvage_regions _
    · rfl

/-! Core save (21 R468). -/

theorem coreSave_asked {s : State} (hp : (s.region (regionOf s)).phase = .running) (hc : s.cur ∈ (s.region (regionOf s)).cores s)
    (hh : s.core.halt = .no) : exec .coreSave s = .next { s with core := { s.core with hreq := true, moving := true } } := by
  change execCoreSave s = _
  simp [execCoreSave, hp, hc, hh, State.onCore]

theorem coreSave_restored {s t : State} (hp : (s.region (regionOf s)).phase = .running) (hc : s.cur ∈ (s.region (regionOf s)).cores s)
    (hh : s.core.halt = .region true) (hd : inp s 0 = s.cur)
    (ht : restoreHere (regionOf s) ((s.region (regionOf s)).saveArea s s.cur) s.cur s = some t) : exec .coreSave s = .next t := by
  change execCoreSave s = _
  simp [execCoreSave, hp, hc, hh, hd, ht]

/-! Checkpoint restart (14 R373). -/

theorem installSubs_regions (reg code : Nat) (ts : TaskSlot) (s : State) : (installSubs reg code ts s).regions = s.regions := by
  unfold installSubs
  exact foldl_regions (fun s p => send_regions ..) _ s

theorem resetNodes_region (reg : Nat) (s : State) :
    ((resetNodes reg s).region reg).phase = (s.region reg).phase ∧ ((resetNodes reg s).region reg).lost = false ∧
      ((resetNodes reg s).region reg).dir = (s.region reg).dir := by
  simp only [resetNodes]
  rw [foldl_region (fun s n => setCoreAt_regions ..), region_onRegion_self]
  exact ⟨rfl, rfl, rfl⟩

/-- The failed cores of a region that tasks are bound to. -/
def deadCores (q : Nat) (s : State) : List Nat :=
  ((s.region q).cores s).filter fun n => (s.coreAt n).halt == .failed && (s.region q).dir.any fun e => e.2.core == n

/-- The core that a core's work goes on at: an input of its own for a failed core, itself for every other. -/
def restartTarget (q : Nat) (s : State) (n : Nat) : Nat := match (deadCores q s).findIdx? (· == n) with | some i => inp s (2 + i) | none => n

/-- What a restart restores the cores of a region into: its tokens, its notices and what its routers hold are gone. -/
def cleanSlate (q : Nat) (s : State) : State :=
  (((s.region q).cores s).foldl (fun (s : State) n => s.onRouter n fun r => { r.cleared with homeCopy := r.homeCopy, tensCopy := r.tensCopy })
    { s with net := s.net.filter (fun t => t.region != q), notices := s.notices.filter fun n => n.region != q }).onRegion q
      fun r => { r with subPath := [], left := [] }

/-- The cores of a region that tasks are bound to. -/
def boundCores (q : Nat) (s : State) : List Nat := ((s.region q).cores s).filter fun n => (s.region q).dir.any fun e => e.2.core == n

/-- The region runs with nothing lost, and every task is at its core. -/
def goesOn (r : Region) : Prop := r.phase = .running ∧ r.lost = false ∧ ∀ e ∈ r.dir, e.2.state = .resident

theorem goesOn_resetNodes {q : Nat} {s : State} (hp : (s.region q).phase = .running) (hd : ∀ e ∈ (s.region q).dir, e.2.state = .resident) :
    goesOn ((resetNodes q s).region q) := by
  obtain ⟨hphase, hlost, hdir⟩ := resetNodes_region q s
  exact ⟨hphase.trans hp, hlost, fun e he => hd e (hdir ▸ he)⟩

theorem checkpointRestart_restored {s u : State} (hq : inp s 0 < 16) (hl : (s.region (inp s 0)).live = true)
    (hlost : (s.region (inp s 0)).lost = true)
    (hok : ∀ n ∈ deadCores (inp s 0) s, restartTarget (inp s 0) s n ∈ (s.region (inp s 0)).cores s ∧
      (s.coreAt (restartTarget (inp s 0) s n)).vacant = true ∧ (s.coreAt (restartTarget (inp s 0) s n)).halt ≠ .failed)
    (hu : (boundCores (inp s 0) s).foldlM (restoreCore (inp s 0) (inp s 1) (restartTarget (inp s 0) s)) (cleanSlate (inp s 0) s) = some u) :
    ∃ t : State, exec .checkpointRestart s = .next t ∧ goesOn (t.region (inp s 0)) := by
  have hall : (deadCores (inp s 0) s).all (fun n => ((s.region (inp s 0)).cores s).contains (restartTarget (inp s 0) s n) &&
      (s.coreAt (restartTarget (inp s 0) s n)).vacant && (s.coreAt (restartTarget (inp s 0) s n)).halt != .failed) = true := by
    simpa only [List.all_eq_true, Bool.and_eq_true, List.contains_iff_mem, bne_iff_ne, and_assoc] using hok
  have hgo : ¬(!(s.region (inp s 0)).live || !(s.region (inp s 0)).lost ||
      !(deadCores (inp s 0) s).all (fun n => ((s.region (inp s 0)).cores s).contains (restartTarget (inp s 0) s n) &&
        (s.coreAt (restartTarget (inp s 0) s n)).vacant && (s.coreAt (restartTarget (inp s 0) s n)).halt != .failed)) = true := by
    simp only [hl, hlost, hall, Bool.not_true, Bool.or_self, Bool.false_eq_true, not_false_eq_true]
  have he : exec .checkpointRestart s = _ := (if_neg (not_beyond_queues hq)).trans (congrArg _ (if_neg hgo))
  refine ⟨_, he, ?_⟩
  dsimp only
  split
  · exact absurd (hu.symm.trans ‹_›) (Option.some_ne_none u)
  · next v hv =>
    obtain rfl := Option.some.inj (hu.symm.trans hv)
    rw [foldl_region fun s p => installSubs_regions ..]
    refine goesOn_resetNodes ?phase ?dir
    all_goals rw [foldl_region (by simp), region_onRegion_self]
    case dir =>
      intro e he
      obtain ⟨x, -, rfl⟩ := List.mem_map.1 he
      rfl

/-- Settles O52: each event by the lemma that says what it does where its conditions hold. -/
theorem trapAndContextEvents : Obligations.TrapAndContextEvents := by
  unfold Obligations.TrapAndContextEvents
  intro s j q reg r here
  refine ⟨fun p hp hr hh => resultWrite_due hp hr hh, fun p hp hr hh hf => landingEntryLand_due hp hr hh hf,
    fun d rest hr hf hh hd => boundaryFault_taken hr hf hh hd, fun v hv => watchdog_taken hv, preemptHalt_taken, preemptResume_accepted,
    fun hq hp ho t ht => preemptResume_done hq hp ho ht, fun hp hh hc => ⟨coreHalt_asked hp hh hc, fun hr hm => ?_, fun hr hm => ?_⟩,
    fun hh hcol hm ⟨hl, hc⟩ u => ⟨saveSequence_saved hh hcol hm hl hc, fun e he => saveSequence_refused hh hcol hm hl hc he⟩,
    fun ⟨hl, hc⟩ => coreFailure_lost hl hc, fun hp hc => ⟨coreSave_asked hp hc, fun hh hd t ht => coreSave_restored hp hc hh hd ht⟩,
    fun hq hl hlost hok u hu => checkpointRestart_restored hq hl hlost hok hu, fun hq => if_neg (Nat.not_lt.2 hq)⟩
  · rw [coreHalt_stops hp hh hc hr, haltNow_of_unsplit hm]
  · rw [coreHalt_stops hp hh hc hr, haltNow_of_split hm]

end Sys2Proof.Proofs
end

section
/-! O6, O11: the hardwired registers and the claims of a tick, the loop step (02 R55, 03 R65, R76). -/

namespace Sys2Proof.Proofs

open Sys2Proof.Machine Sys2Proof.Safety Sys2Proof.Laws

/-- What an instruction answers is decided by the state it leaves. -/
theorem next_congr {s t : State} (h : s = t) : (.next s : Out) = .next t := congrArg _ h

/-! Claims of a register in one tick (02 R55). -/

/-- Two writes of the same keys meet where there is one. -/
theorem meets_of_mem {c : Core} {p q : Put} {x : Nat × Nat} (hp : x ∈ p.keys c) (hq : x ∈ q.keys c) : p.meets c q = true :=
  List.any_eq_true.2 ⟨x, hp, List.contains_iff_mem.2 hq⟩

theorem not_meets_of_no_keys {c : Core} {p q : Put} (h : p.keys c = [] ∨ q.keys c = []) : p.meets c q = false := by
  obtain h | h := h <;> simp [Put.meets, h]

/-- A write to s0 or k0 names no register (03 R65). -/
theorem keys_s0 (c : Core) (x : W64) : (Put.s 0#5 x).keys c = [] := rfl
theorem keys_k0 (c : Core) (x : W64) : (Put.k 0#3 x).keys c = [] := rfl

theorem clashes_eq_false {s : State} {p : Pending} (h : ∀ q ∈ s.core.pend ++ s.issue.claims, q.put.meets s.core p.put = false) :
    clashes s p = false :=
  List.any_eq_false.2 fun q hq => by simp [h q hq]

section

variable {s : State} {p : Pending} {n : Nat} (hp : p ∈ s.core.pend ++ s.issue.claims) (hv : p.var = false) (hr : p.rem = n)

include hp hv hr

/-- A fixed-latency result due in a tick clashes with every write of that tick that names its register. -/
theorem clashes_of_mem {x : Nat × Nat} {q : Put} (h1 : x ∈ p.put.keys s.core) (h2 : x ∈ q.keys s.core) :
    clashes s { rem := n, put := q } = true :=
  List.any_eq_true.2 ⟨p, hp, by simp [hv, hr, meets_of_mem h1 h2]⟩

theorem clashes_s {r : Reg} {y : W64} (h0 : r ≠ 0#5) (h : p.put = .s r y) (x : W64) : clashes s { rem := n, put := .s r x } = true :=
  clashes_of_mem hp hv hr (x := (if inBank s.core r then 4 else 0, r.toNat)) (by simp [h, Put.keys, h0]) (by simp [Put.keys, h0])

theorem clashes_k {k : KReg} {y : W64} (h0 : k ≠ 0#3) (h : p.put = .k k y) (x : W64) : clashes s { rem := n, put := .k k x } = true :=
  clashes_of_mem hp hv hr (x := (1, k.toNat)) (by simp [h, Put.keys, h0]) (by simp [Put.keys, h0])

theorem clashes_n {d : NReg} {y : Name} (h : p.put = .n d y) (x : Name) : clashes s { rem := n, put := .n d x } = true :=
  clashes_of_mem hp hv hr (x := (2, d.toNat)) (by simp [h, Put.keys]) (by simp [Put.keys])

/-- A vector register clashes alone and as the first of a pair, a pair of registers (05 R134) as either. -/
theorem clashes_v {r : Reg} {y : VReg} (h : p.put = .v r y) (z : VReg) :
    clashes s { rem := n, put := .v r z } = true ∧ clashes s { rem := n, put := .vv r z z } = true := by
  have hkey : (3, r.toNat) ∈ p.put.keys s.core := by simp [h, Put.keys]
  exact ⟨clashes_of_mem hp hv hr hkey (by simp [Put.keys]), clashes_of_mem hp hv hr hkey (by simp [Put.keys])⟩

theorem clashes_vv {r : Reg} {y y2 : VReg} (h : p.put = .vv r y y2) (z : VReg) :
    clashes s { rem := n, put := .v r z } = true ∧ clashes s { rem := n, put := .v (r + 1#5) z } = true :=
  ⟨clashes_of_mem hp hv hr (x := (3, r.toNat)) (by simp [h, Put.keys]) (by simp [Put.keys]),
    clashes_of_mem hp hv hr (x := (3, (r + 1#5).toNat)) (by simp [h, Put.keys]) (by simp [Put.keys])⟩

theorem clashes_loop {b e b2 e2 : Addr} {m m2 : W64} (h : p.put = .loop b e m) : clashes s { rem := n, put := .loop b2 e2 m2 } = true :=
  clashes_of_mem hp hv hr (x := (5, 0)) (by simp [h, Put.keys]) (by simp [Put.keys])

end

/-- A result whose register is claimed in its tick raises WRITE_COLLISION. -/
theorem guarded_of_clash {s : State} (hc : s.issue.commit = false) {p : Pending} (h : clashes s p = true) (cs : List Check)
    (eff : State → State) : guarded (collision p s :: cs) eff s = raise .writeCollision s :=
  guarded_of_first hc (c := collision p s) h rfl eff

theorem setLoop_of_claimed {s : State} (hc : s.issue.commit = false) {p : Pending} (hp : p ∈ s.core.pend ++ s.issue.claims) (hv : p.var = false)
    (hr : p.rem = 1) {b e : Addr} {n : W64} (h : p.put = .loop b e n) (cnt : W64) (off : BitVec 17) :
    setLoop cnt off s = raise .writeCollision s := by
  unfold setLoop
  exact guarded_of_clash hc (clashes_loop hp hv hr h) _ _

/-- Settles O6: what is read back by the laws of the files, the collisions by the registers that each write names. -/
theorem hardwiredRegisters : Obligations.HardwiredRegisters := by
  unfold Obligations.HardwiredRegisters
  intro c r q k j x
  refine ⟨s_setS c r q x, if_pos rfl, k_setK c k j x, if_pos rfl, ⟨if_pos rfl, if_pos rfl⟩, ?discarded, ?claimed, ?raised⟩
  case discarded =>
    intro s n
    refine ⟨clashes_eq_false fun p _ => not_meets_of_no_keys (.inr (keys_s0 ..)),
      clashes_eq_false fun p _ => not_meets_of_no_keys (.inr (keys_k0 ..)), fun put h => clashes_eq_false fun p hp => not_meets_of_no_keys (.inl ?_)⟩
    obtain ⟨y, e⟩ | ⟨y, e⟩ := h p hp <;> rw [e]
    · exact keys_s0 ..
    · exact keys_k0 ..
  case claimed =>
    intro s p n hp hv hr
    exact ⟨fun y h0 h => clashes_s hp hv hr h0 h x, fun y h0 h => clashes_k hp hv hr h0 h x, fun d y z h => clashes_n hp hv hr h z,
      fun y z h => clashes_v hp hv hr h z, fun y y2 z h => clashes_vv hp hv hr h z, fun b e m b2 e2 m2 h => clashes_loop hp hv hr h⟩
  case raised =>
    intro s p hc hp hv hr
    exact ⟨fun y h0 h => next_congr (guarded_of_clash hc (clashes_s hp hv hr h0 h _) _ _),
      fun y h0 h => next_congr (guarded_of_clash hc (clashes_k hp hv hr h0 h _) _ _),
      fun d e y h => next_congr (guarded_of_clash hc (clashes_n hp hv hr h _) _ _),
      fun b e n h off => ⟨next_congr (setLoop_of_claimed hc hp hv hr h ..), next_congr (setLoop_of_claimed hc hp hv hr h ..)⟩⟩

/-! The loop step (03 R76). -/

/-- Settles O11: the three branches of the step. -/
theorem loopStep : Obligations.LoopStep := by
  unfold Obligations.LoopStep
  intro c nxt
  unfold Core.loopStep
  refine ⟨fun h2 he => ?back, fun h1 he => if_pos ⟨he, h1⟩, fun h => ?sequence⟩
  case back =>
    have h1 : c.regs.lpcnt ≠ 1#64 := by rintro e; simp [e] at h2
    have h0 : c.regs.lpcnt ≠ 0#64 := by rintro e; simp [e] at h2
    rw [if_neg fun h => h1 h.2, if_pos ⟨he, h0⟩]
  case sequence =>
    obtain h | h := h
    · exact loopStep_of_no_loop h nxt
    · rw [if_neg fun e => h e.1, if_neg fun e => h e.1]

end Sys2Proof.Proofs
end

section
/-! O13 to O17, O20, O21: results of the scalar, mask and name instructions (03 R68 to R80). -/

namespace Sys2Proof.Proofs

open Sys2Proof.Machine Sys2Proof.Safety Sys2Proof.Laws

/-! One result on its way (02 R53, R55). -/

section

variable {s : State} {lat : Nat}

theorem writeS_lands {d : Reg} (h : unclaimed lat (.s d 0#64) s) {x y : W64} (e : x = y) :
    (.next (writeS lat d x s) : Out) = lands lat (.s d y) s := next_congr (e ▸ writeS_eq h x)

theorem writeK_lands {d : KReg} (h : unclaimed lat (.k d 0#64) s) {x y : W64} (e : x = y) :
    (.next (writeK lat d x s) : Out) = lands lat (.k d y) s := next_congr (e ▸ writeK_eq h x)

theorem writeN_lands {d : NReg} (h : unclaimed lat (.n d 0#96) s) {x y : Name} (e : x = y) :
    (.next (writeN lat d x s) : Out) = lands lat (.n d y) s := next_congr (e ▸ writeN_eq h x)

end

/-! Values of group 0x0 (R68). -/

/-- A rotation is the two shifts ORed, also by 0. -/
theorem rol_value (x y : W64) : (x <<< sh6 y) ||| (x >>> ((64 - sh6 y) % 64)) = x.rotateLeft (y.extractLsb' 0 6).toNat := by
  have hlt : sh6 y < 64 := (y.extractLsb' 0 6).isLt
  change _ = x.rotateLeft (sh6 y)
  rw [BitVec.rotateLeft_def, Nat.mod_eq_of_lt hlt]
  rcases Nat.eq_zero_or_pos (sh6 y) with h0 | hpos
  · simp [h0, BitVec.ushiftRight_eq_zero (Nat.le_refl 64)]
  · rw [Nat.mod_eq_of_lt (by omega : 64 - sh6 y < 64)]

theorem sel_value (c x y : W64) : (if c != 0#64 then x else y) = if c = 0#64 then y else x := by
  by_cases h : c = 0#64 <;> simp [h]

theorem slt_ite {α : Type} (x y : W64) (p q : α) : (if x.slt y then p else q) = if x.toInt < y.toInt then p else q := by
  simp only [BitVec.slt, decide_eq_true_eq]

theorem ult_ite {α : Type} (x y : W64) (p q : α) : (if x.ult y then p else q) = if x.toNat < y.toNat then p else q := by
  simp only [BitVec.ult, decide_eq_true_eq]

/-- Settles O13: each instruction writes one result; a rotation, a comparison of operands and SEL give the value in the model's own terms. -/
theorem scalarAluResults : Obligations.ScalarAluResults := by
  unfold Obligations.ScalarAluResults
  intro s d a b m h
  exact ⟨writeS_lands h rfl, writeS_lands h rfl, writeS_lands h rfl, writeS_lands h rfl, writeS_lands h rfl, writeS_lands h rfl,
    writeS_lands h rfl, writeS_lands h rfl, writeS_lands h rfl, writeS_lands h (rol_value ..), writeS_lands h (slt_ite ..),
    writeS_lands h (slt_ite ..), writeS_lands h (ult_ite ..), writeS_lands h (ult_ite ..), writeS_lands h rfl, writeS_lands h (sel_value ..),
    writeS_lands h rfl, writeS_lands h rfl, writeS_lands h rfl, writeS_lands h rfl, writeS_lands h rfl, writeS_lands h rfl,
    writeS_lands h rfl⟩

/-! The multiplier and the divider (R68, R69). -/

/-- A product of sign-extended operands is the exact one. -/
theorem mulHi_value (x y : W64) : mulHi x y = BitVec.ofInt 64 (x.toInt * y.toInt / 2 ^ 64) := by
  have hprod : x.signExtend 128 * y.signExtend 128 = BitVec.ofInt 128 (x.toInt * y.toInt) := (BitVec.ofInt_mul ..).symm
  rw [mulHi, hprod]
  generalize x.toInt * y.toInt = z
  apply BitVec.eq_of_toNat_eq
  simp only [BitVec.extractLsb'_toNat, BitVec.toNat_ofInt, Nat.shiftRight_eq_div_pow]
  omega

theorem mulHiU_value (x y : W64) : mulHiU x y = BitVec.ofNat 64 (x.toNat * y.toNat / 2 ^ 64) := by
  have hx := x.isLt
  have hy := y.isLt
  have hprod : x.toNat * y.toNat < 2 ^ 64 * 2 ^ 64 := Nat.mul_lt_mul'' hx hy
  apply BitVec.eq_of_toNat_eq
  simp only [mulHiU, BitVec.extractLsb'_toNat, BitVec.toNat_mul, BitVec.toNat_setWidth, BitVec.toNat_ofNat, Nat.shiftRight_eq_div_pow]
  rw [Nat.mod_eq_of_lt (a := x.toNat) (by omega), Nat.mod_eq_of_lt (a := y.toNat) (by omega)]
  generalize x.toNat * y.toNat = z at *
  omega

theorem divS_value (x y : W64) : divS x y = if y = 0#64 then BitVec.allOnes 64 else BitVec.ofInt 64 (x.toInt.tdiv y.toInt) := by
  unfold divS
  congr 1
  apply BitVec.eq_of_toInt_eq
  rw [BitVec.toInt_sdiv, BitVec.toInt_ofInt]

theorem divU_value (x y : W64) : divU x y = if y = 0#64 then BitVec.allOnes 64 else BitVec.ofNat 64 (x.toNat / y.toNat) := by
  unfold divU
  congr 1
  rw [← BitVec.toNat_udiv, BitVec.ofNat_toNat, BitVec.setWidth_eq]

theorem remS_value (x y : W64) : remS x y = if y = 0#64 then x else BitVec.ofInt 64 (x.toInt.tmod y.toInt) := by
  unfold remS
  rw [← BitVec.toInt_srem, BitVec.ofInt_toInt]

theorem remU_value (x y : W64) : remU x y = if y = 0#64 then x else BitVec.ofNat 64 (x.toNat % y.toNat) := by
  unfold remU
  rw [← BitVec.toNat_umod, BitVec.ofNat_toNat, BitVec.setWidth_eq]

/-- What a division that passes its checks leaves: its result on its way, the divider busy for 20 ticks. -/
def divided (d : Reg) (v : W64) (s : State) : State :=
  let t := launchResult { rem := 20, put := .s d v } s
  { t with core := { t.core with divrem := 20 }, issue := { t.issue with divClaim := true } }

theorem divide_of_free {s : State} {d : Reg} (h : unclaimed 20 (.s d 0#64) s) (h0 : s.core.divrem = 0) (hd : s.issue.divClaim = false)
    {f : W64 → W64 → W64} {a b : Reg} {v : W64} (e : f (sreg s a) (sreg s b) = v) : divide f d a b s = divided d v s := by
  subst e
  have hbusy : divBusy s = false := by simp [divBusy, h0, hd]
  unfold divide
  refine guarded_of_ok ?_ _ _
  exact List.forall_mem_cons.2 ⟨hbusy, List.forall_mem_singleton.2 h⟩

theorem divide_of_busy {s : State} (hc : s.issue.commit = false) (hb : s.core.divrem ≠ 0 ∨ s.issue.divClaim = true)
    (f : W64 → W64 → W64) (d a b : Reg) : divide f d a b s = raise .unitBusy s := by
  have hbusy : divBusy s = true := by simpa [divBusy] using hb
  unfold divide
  exact guarded_of_first hc (c := { bad := divBusy s, cause := .unitBusy }) hbusy rfl _

/-- Settles O16: the multiplier by its results, the divider free and busy. -/
theorem multiplyDivideResults : Obligations.MultiplyDivideResults := by
  unfold Obligations.MultiplyDivideResults
  intro s d a b imm x y _
  refine ⟨fun h => ?multiplied, fun h h0 hd => ?free, fun hc hb => ?busy⟩
  case multiplied =>
    exact ⟨writeS_lands h rfl, writeS_lands h (mulHi_value ..), writeS_lands h (mulHiU_value ..), writeS_lands h rfl⟩
  case free =>
    exact ⟨next_congr (divide_of_free h h0 hd (divS_value ..)), next_congr (divide_of_free h h0 hd (divU_value ..)),
      next_congr (divide_of_free h h0 hd (remS_value ..)), next_congr (divide_of_free h h0 hd (remU_value ..))⟩
  case busy =>
    exact ⟨next_congr (divide_of_busy hc hb ..), next_congr (divide_of_busy hc hb ..), next_congr (divide_of_busy hc hb ..),
      next_congr (divide_of_busy hc hb ..)⟩

/-! Immediates and literals (R73, R74). -/

theorem cmpi_value (x v : W64) : (if x = v then 0#64 else if x.slt v then BitVec.allOnes 64 else 1#64) =
    if x = v then 0#64 else if x.toInt < v.toInt then BitVec.allOnes 64 else 1#64 := by rw [slt_ite]

/-- Settles O17: each instruction writes one result; CMPI compares in the model's own terms. -/
theorem immediateResults : Obligations.ImmediateResults := by
  unfold Obligations.ImmediateResults
  intro s d a imm sh i h
  exact ⟨writeS_lands h rfl, writeS_lands h rfl, writeS_lands h rfl, writeS_lands h rfl, writeS_lands h rfl, writeS_lands h rfl,
    writeS_lands h rfl, writeS_lands h (cmpi_value ..), writeS_lands h rfl, writeS_lands h rfl, writeS_lands h rfl, writeS_lands h rfl⟩

/-! Masks and names (R78 to R80). -/

/-- Settles O20: each instruction writes one mask or scalar result. -/
theorem maskResults : Obligations.MaskResults := by
  unfold Obligations.MaskResults
  intro s d a b r q
  exact ⟨fun h => ⟨writeK_lands h rfl, writeK_lands h rfl, writeK_lands h rfl, writeK_lands h rfl, writeK_lands h rfl, writeK_lands h rfl,
      writeK_lands h rfl, writeK_lands h rfl⟩,
    fun h => ⟨writeS_lands h rfl, writeS_lands h rfl, writeS_lands h rfl⟩⟩

/-- Settles O21: each instruction writes one name or scalar result. -/
theorem nameRegisterResults : Obligations.NameRegisterResults := by
  unfold Obligations.NameRegisterResults
  intro s d a b r q m
  exact ⟨fun h => ⟨writeN_lands h rfl, writeN_lands h rfl, writeN_lands h rfl, writeN_lands h rfl⟩,
    fun h => ⟨writeS_lands h rfl, writeS_lands h rfl, writeS_lands h rfl, writeS_lands h rfl⟩⟩

/-! Operands that the description refuses (02 R45, 03 R70, R72). -/

/-- A word of group 0x0 that decodes to nothing raises ILLEGAL_OP in either slot that takes the group. -/
theorem slotFault_of_group0 {mi : BitVec 6} {d a b : Reg} {k : KReg} {m : BitVec 4} (hd : decodeSlot (encR 0#4 mi d a b k m) = none)
    (fwm : Bool) (litc : Nat) {slot : Nat} (hs : slot < 2) : slotFault fwm litc slot (encR 0#4 mi d a b k m) = some .illegalOp := by
  refine slotFault_of_undecoded (by simp) (by simp) ((slotAccepts_iff (by omega) _).2 ?_) hd
  obtain rfl | rfl : slot = 0 ∨ slot = 1 := by omega
  · exact .inl ⟨rfl, by simp⟩
  · exact .inr (.inl ⟨rfl, by simp⟩)

theorem ule_of_lt {k m : BitVec 4} (h : k < m) : m.ule k = false := decide_eq_false (Nat.not_le.2 h)

theorem decodeSlot_cmp_none {m : BitVec 4} (h : 5#4 < m) (d x y : Reg) : decodeSlot (encR 0#4 0x15#6 d x y 0#3 m) = none := by
  simp [decodeSlot, decodeG0, keep, Instr.wf, ule_of_lt h]

theorem decodeSlot_sext_none {m : BitVec 4} (h : 4#4 < m) (d a : Reg) : decodeSlot (encR 0#4 0x1C#6 d a 0#5 0#3 m) = none := by
  simp [decodeSlot, decodeG0, keep, Instr.wf, ule_of_lt h]

theorem decodeSlot_zext_none {m : BitVec 4} (h : 4#4 < m) (d a : Reg) : decodeSlot (encR 0#4 0x1D#6 d a 0#5 0#3 m) = none := by
  simp [decodeSlot, decodeG0, keep, Instr.wf, ule_of_lt h]

/-- Settles O14: each condition, and the word of a code above 5. -/
theorem compareConditions : Obligations.CompareConditions := by
  unfold Obligations.CompareConditions
  intro a b
  refine ⟨beq_iff_eq, bne_iff_ne, ?_, ?_, ?_, ?_, ?_⟩
  · exact BitVec.slt_iff_toInt_lt
  · exact BitVec.sle_iff_toInt_le
  · exact BitVec.ult_iff_toNat_lt
  · exact BitVec.ule_iff_toNat_le
  · intro d x y m fwm litc slot w hm hs hw
    obtain rfl := Option.some.inj hw
    exact slotFault_of_group0 (decodeSlot_cmp_none hm ..) fwm litc hs

/-! Widths of SEXT and ZEXT (R72). -/

theorem signedOf_toNat {n : Nat} (x : BitVec n) : signedOf n x.toNat = x.toInt := by
  rw [BitVec.toInt_eq_msb_cond, BitVec.msb_eq_getLsbD_last]
  rfl

theorem sext_value (n : Nat) (x : W64) : BitVec.ofInt 64 (signedOf n (x.toNat % 2 ^ n)) = (x.truncate n).signExtend 64 := by
  rw [← BitVec.toNat_setWidth, signedOf_toNat]
  rfl

theorem zext_value (n : Nat) (x : W64) : BitVec.ofNat 64 (x.toNat % 2 ^ n) = (x.truncate n).zeroExtend 64 := by
  rw [← BitVec.toNat_setWidth, BitVec.ofNat_toNat]

theorem extWidth_of_mem {m : BitVec 4} {n : Nat} (h : (m, n) ∈ [(0#4, 8), (1#4, 16), (2#4, 24), (3#4, 32), (4#4, 48)]) : extWidth m = n := by
  simp only [List.mem_cons, Prod.mk.injEq, List.not_mem_nil, or_false] at h
  obtain ⟨rfl, rfl⟩ | ⟨rfl, rfl⟩ | ⟨rfl, rfl⟩ | ⟨rfl, rfl⟩ | ⟨rfl, rfl⟩ := h <;> rfl

/-- Settles O15: the value of a width, and the word of a code above 4. -/
theorem extensionResults : Obligations.ExtensionResults := by
  unfold Obligations.ExtensionResults
  intro s d a m n h hm
  obtain rfl := extWidth_of_mem hm
  refine ⟨writeS_lands h (sext_value ..), writeS_lands h (zext_value ..), ?_⟩
  intro k fwm litc slot w hk hs hw
  obtain hw | hw := hw <;> obtain rfl := Option.some.inj hw
  · exact slotFault_of_group0 (decodeSlot_sext_none hk ..) fwm litc hs
  · exact slotFault_of_group0 (decodeSlot_zext_none hk ..) fwm litc hs

end Sys2Proof.Proofs
end

section
/-! O18: branches and the hardware loop (02 R48, 03 R75, R76). -/

namespace Sys2Proof.Proofs

open Sys2Proof.Machine Sys2Proof.Safety Sys2Proof.Laws

theorem branchIf_eq_zero (x : W64) (off : BitVec 17) (s : State) :
    branchIf (x == 0#64) off s = if x = 0#64 then takeBranch (branchTo s off) s else s := by
  unfold branchIf
  by_cases h : x = 0#64
  · rw [if_pos h, if_pos (beq_iff_eq.2 h)]
  · rw [if_neg h, if_neg (mt beq_iff_eq.1 h)]

theorem branchIf_ne_zero (x : W64) (off : BitVec 17) (s : State) :
    branchIf (x != 0#64) off s = if x = 0#64 then s else takeBranch (branchTo s off) s := by
  unfold branchIf
  by_cases h : x = 0#64
  · rw [if_pos h, if_neg fun e => bne_iff_ne.1 e h]
  · rw [if_neg h, if_pos (bne_iff_ne.2 h)]

section

variable {s : State} {off : BitVec 17}

/-- LOOP and LOOPI whose body holds a bundle set the loop's registers, and skip to the exit on a count of 0. -/
theorem setLoop_of_body (h : unclaimed 1 (.loop 0#56 0#56 0#64) s) (hx : nextPc s < branchTo s off) (cnt : W64) :
    setLoop cnt off s =
      let u := launchResult { rem := 1, put := .loop (nextPc s) (branchTo s off) cnt } s
      if cnt = 0#64 then takeBranch (branchTo s off) u else u := by
  have hexit : (branchTo s off).ule (nextPc s) = false := decide_eq_false (Nat.not_le.2 hx)
  unfold setLoop
  refine guarded_of_ok ?_ _ _
  exact List.forall_mem_cons.2 ⟨h, List.forall_mem_singleton.2 hexit⟩

/-- An exit that leaves the body no bundle. -/
theorem setLoop_of_no_body (h : unclaimed 1 (.loop 0#56 0#56 0#64) s) (hx : branchTo s off ≤ nextPc s) (hc : s.issue.commit = false) (cnt : W64) :
    setLoop cnt off s = raise .illegalOp s := by
  have hclash : clashes s { rem := 1, put := .loop (nextPc s) (branchTo s off) cnt } = false := h
  have hexit : (branchTo s off).ule (nextPc s) = true := decide_eq_true hx
  unfold setLoop
  refine guarded_of_bad hc (c := { bad := (branchTo s off).ule (nextPc s), cause := .illegalOp }) ?_ _
  simp [firstBad, collision, hclash, hexit]

end

/-- Settles O18: branches by their conditions, the loop by its exit. -/
theorem branchAndLoopResults : Obligations.BranchAndLoopResults := by
  unfold Obligations.BranchAndLoopResults
  intro s a k off x taken
  refine ⟨rfl, next_congr (branchIf_eq_zero ..), next_congr (branchIf_ne_zero ..), next_congr (branchIf_ne_zero ..),
    next_congr (branchIf_eq_zero ..), ?jr, ?jal, ?loop⟩
  case jr => exact congrArg (fun y => Host.Outcome.next (takeBranch y s)) (BitVec.setWidth_eq_extractLsb' (by decide))
  case jal =>
    refine fun h => next_congr (guarded_of_ok ?_ _ _)
    exact List.forall_mem_singleton.2 h
  case loop =>
    exact fun h => ⟨fun hx => ⟨next_congr (setLoop_of_body h hx _), next_congr (setLoop_of_body h hx _)⟩,
      fun hx hc => ⟨next_congr (setLoop_of_no_body h hx hc _), next_congr (setLoop_of_no_body h hx hc _)⟩⟩

end Sys2Proof.Proofs
end

section
/-! O46: control registers, what a write leaves and a read gives (03 R81 to R85, 14 R352). -/

namespace Sys2Proof.Proofs

open Sys2Proof.Machine Sys2Proof.Safety Sys2Proof.Laws

/-- TRAPVEC keeps the bits above its low 14. -/
theorem clear_low14 (x : W64) : x.truncate 56 &&& ~~~(0x3FFF#56) = x.extractLsb' 14 42 ++ 0#14 := by
  apply BitVec.eq_of_getLsbD_eq
  intro i hi
  have hm : (0x3FFF#56).getLsbD i = decide (i < 14) := by
    rw [show (0x3FFF#56 : BitVec 56) = BitVec.ofNat 56 (2 ^ 14 - 1) from rfl, BitVec.getLsbD_ofNat, Nat.testBit_two_pow_sub_one]
    simp [hi]
  rw [BitVec.getLsbD_and, BitVec.getLsbD_not, hm, BitVec.getLsbD_append]
  by_cases h : i < 14
  · simp [h]
  · simp [h, hi, show i - 14 < 42 by omega, show 14 + (i - 14) = i by omega]

/-- FPMODE takes the rounding modes 0 to 4 (R85). -/
theorem ctlWrite_fpmode (c : Core) (x : W64) : (c.ctlWrite 0x009#12 x).regs.fpmode =
    if (x.extractLsb' 0 3).toNat ≤ 4 then x.extractLsb' 0 3 else c.regs.fpmode := by
  change (if (x.extractLsb' 0 3).ule 4#3 then { c with regs := { c.regs with fpmode := x.extractLsb' 0 3 } } else c).regs.fpmode = _
  by_cases h : (x.extractLsb' 0 3).toNat ≤ 4
  · rw [if_pos (BitVec.ule_iff_toNat_le.2 h), if_pos h]
  · rw [if_neg (mt BitVec.ule_iff_toNat_le.1 h), if_neg h]

/-- The EXPHIST bins are the registers 0x020 to 0x03F (R81). -/
theorem ctlWrite_bin {n : BitVec 12} (hl : 0x020 ≤ n.toNat) (hh : n.toNat < 0x040) (c : Core) (x : W64) :
    c.ctlWrite n x = { c with exphist := c.exphist.set (n.toNat % 32) (x.truncate 32) (Nat.mod_lt _ (by decide)) } := by
  unfold Core.ctlWrite
  split
  case h_14 => rw [if_pos ⟨hl, hh⟩]
  all_goals omega

theorem ctlValue_bin {n : Nat} (hl : 0x020 ≤ n) (hh : n < 0x040) (s : State) :
    ctlValue s n = some ((s.core.exphist[n % 32]'(Nat.mod_lt _ (by decide))).zeroExtend 64) := by
  unfold ctlValue
  dsimp only
  split
  case h_30 => rw [if_pos ⟨hl, hh⟩]
  all_goals omega

/-- The registers 0x000 to 0x008 are read-only. -/
theorem ctlWrite_readOnly {n : BitVec 12} (h : n.toNat ≤ 0x008) (c : Core) (x : W64) : c.ctlWrite n x = c := by
  unfold Core.ctlWrite
  split
  case h_14 => rw [if_neg (by omega), if_neg (by omega), if_neg (by omega)]
  all_goals omega

/-- Settles O46: each register by the value that its write leaves. -/
theorem controlRegisterWrites : Obligations.ControlRegisterWrites := by
  unfold Obligations.ControlRegisterWrites
  intro s x after
  refine ⟨?fpmode, rfl, ?trapcause, ?trappc, rfl, ?trapvec, rfl, ?bins, fun n h => ctlWrite_readOnly h ..⟩
  case fpmode =>
    change some ((s.core.ctlWrite 0x009#12 x).regs.fpmode.zeroExtend 64) = _
    rw [ctlWrite_fpmode, apply_ite (BitVec.zeroExtend 64)]
  case trapcause =>
    have hlow : x.truncate 6 = x.extractLsb' 0 6 := BitVec.setWidth_eq_extractLsb' (by decide)
    exact congrArg (fun y : BitVec 6 => some (y.zeroExtend 64)) hlow
  case trappc =>
    have hlow : x.truncate 56 = x.extractLsb' 0 56 := BitVec.setWidth_eq_extractLsb' (by decide)
    exact congrArg (fun y : Addr => some (y.zeroExtend 64)) hlow
  case trapvec => exact congrArg (fun y : Addr => some (y.zeroExtend 64)) (clear_low14 x)
  case bins =>
    intro n hl hh
    change ctlValue { s with core := s.core.ctlWrite n x } n.toNat = _
    rw [ctlValue_bin hl hh]
    simp only [ctlWrite_bin hl hh, Vector.getElem_set_self, BitVec.setWidth_eq_extractLsb' (show 32 ≤ 64 by decide)]

end Sys2Proof.Proofs
end

section
/-! O45: the system instructions, and the privilege of each (03 R83 to R86, 13 R342, R346, 14 R354 to R359, R364 to R368). -/

namespace Sys2Proof.Proofs

open Sys2Proof.Machine Sys2Proof.Safety Sys2Proof.Laws

/-! What the end of a cycle leaves alone, in either mode: every register but the counters and FPSTAT. -/

/-- The register files, the program counter and the mode. -/
def filesView (c : Core) : Vector W64 32 × Vector W64 8 × Vector Name 16 × Vector VReg 32 × Addr × Bool :=
  (c.regs.s, c.regs.k, c.regs.n, c.regs.v, c.regs.pc, c.fwm)

theorem foldl_filesView {α : Type} {f : Core → α → Core} (h : ∀ c x, filesView (f c x) = filesView c) (l : List α) (c : Core) :
    filesView (l.foldl f c) = filesView c := by
  induction l generalizing c with
  | nil => rfl
  | cons x t ih => rw [List.foldl_cons, ih, h]

theorem filesView_of_trapView {c d : Core} (h : trapView d = trapView c) : filesView d = filesView c := by
  simp only [trapView, Prod.mk.injEq] at h
  obtain ⟨hr, hf, -⟩ := h
  simp only [filesView, hr, hf]

section

variable (c : Core)

theorem applyTc_filesView : filesView c.applyTc = filesView c := by
  unfold Core.applyTc
  split <;> rfl

theorem tokenFor_filesView (fw : Bool) (tc : BitVec 4) : filesView (c.tokenFor fw tc) = filesView c := by
  have hadd := filesView_of_trapView (addTc_trapView c tc 1)
  unfold Core.tokenFor
  split
  · rfl
  split
  · split
    · exact hadd
    · rfl
  split
  · exact filesView_of_trapView (parkVar_trapView ..)
  · exact hadd

theorem runWatch_filesView (w : Watch) : filesView (c.runWatch w) = filesView c := by
  unfold Core.runWatch
  dsimp only
  split
  · exact tokenFor_filesView ..
  · rfl

theorem runWatches_filesView : filesView c.runWatches = filesView c :=
  foldl_filesView runWatch_filesView c.watches { c with watches := [] }

/-- A token without a write lands in the counters. -/
theorem landVar_none_filesView (fid : W64) (fl : Flags) (tc : BitVec 4) : filesView (c.landVar fid false .none fl tc) = filesView c := by
  simp only [Core.landVar, Core.landHist, Bool.false_eq_true, if_false]
  split
  · split
    · exact filesView_of_trapView (parkVar_trapView ..)
    · have hnow : c.landNow .none fl [] tc = c.landOne { rem := 1, put := .none, flags := fl, hist := [], var := true, tcn := tc } :=
        if_neg fun h => h.2 rfl
      rw [hnow]
      exact (filesView_of_trapView (addTc_trapView _ tc 1)).trans rfl
  · exact filesView_of_trapView (onFrame_trapView ..)

theorem completeLn_filesView (a : Arrival) : filesView (c.completeLn a) = filesView c :=
  landVar_none_filesView (c.onTaskSlot a.fid fun ts => { ts with inst := ts.inst.set 0 a.inst }) ..

theorem runLn_filesView : filesView c.runLn = filesView c :=
  foldl_filesView completeLn_filesView _ ({ c with arrivals := _ } : Core)

theorem endCycle_filesView : filesView c.endCycle = filesView c :=
  (applyTc_filesView c.runWatches.runLn).trans ((runLn_filesView c.runWatches).trans (runWatches_filesView c))

end

/-! The core that CTXLD restores (14 R368; log 15). -/

/-- With no result of a later slot in flight, what CTXLD restored stands at the bundle's end. -/
theorem closeLoaded_files {k : Core} {s : State} (h : s.core.pend = k.pend) : filesView (closeLoaded k s).core = filesView k := by
  have hnew : (s.core.pend.drop k.pend.length).filter (fun p => k.fwm || !p.inBank) = [] := by rw [h, List.drop_length]; rfl
  unfold closeLoaded
  rw [hnew]
  exact endCycle_filesView _

/-! Instructions that end their bundle (02 R46). -/

section

variable {s : State} (hc : s.issue.commit = true)

include hc

theorem ending_acts (hl : s.issue.loaded = none) (cs : List Check) (eff : State → State) : ending cs eff s = eff s := by
  rw [ending, guarded_commit hc]
  exact if_pos (by simp [hc, hl])

/-- TRET.end: the firing ends without a further bundle, what was parked runs on (14 R356). -/
def trapEnded (c : Core) : Core :=
  { c with ending := .trapEnd, faults := [], stallrem := 0
           pend := runOn c.lq ++ (c.pend.filter fun p => !p.inBank) ++ runOn c.heldVar
           lq := [], heldVar := [] }

theorem tret_ends (hl : s.issue.loaded = none) : exec (.tret 1#4) s = .next ((closeStraight s).onCore trapEnded) := by
  change Host.Outcome.next (ending _ _ s) = _
  rw [ending_acts hc hl, if_pos rfl]
  rfl

theorem tret_returns (hl : s.issue.loaded = none) {m : BitVec 4} (hm : m ≠ 1#4) :
    exec (.tret m) s = .next ((closeStraight s).onCore Core.tret) := by
  change Host.Outcome.next (ending _ _ s) = _
  rw [ending_acts hc hl, if_neg hm]

theorem brk_reports (hd : s.core.dbgen = 1#1) (hf : s.core.fwm = false) (hl : s.issue.loaded = none) (m : BitVec 4) :
    exec (.brk m) s = .next ((closeStepped s).onCore fun c =>
      Core.stop (.report 0x11#64 true) { c with trapcause := 0x11#6, trappc := c.regs.pc, trapval := slotVal s }) := by
  change Host.Outcome.next (ending _ _ s) = _
  rw [ending_acts hc hl, if_pos ⟨hd, hf⟩]
  rfl

theorem haltc_stops (hl : s.issue.loaded = none) (a : Reg) :
    exec (.haltc a) s = .next ((closeStepped s).onCore fun c => c.stop (.report (sreg s a) false)) :=
  next_congr (ending_acts hc hl ..)

theorem trap_traps (hl : s.issue.loaded = none) (imm : BitVec 12) :
    exec (.trap imm) s = .next (issueThenTrap .trap (imm.zeroExtend 64) s) := next_congr (ending_acts hc hl ..)

theorem brk_traps (h : s.core.dbgen = 0#1 ∨ s.core.fwm = true) (hl : s.issue.loaded = none) (m : BitVec 4) :
    exec (.brk m) s = .next (issueThenTrap .brk (slotVal s) s) := by
  change Host.Outcome.next (ending _ _ s) = _
  rw [ending_acts hc hl, if_neg]
  rintro ⟨hd, hf⟩
  obtain h | h := h
  · rw [h] at hd; cases hd
  · rw [h] at hf; cases hf

/-- EVPOST posts where the stage has room. -/
theorem evpost_posts {a b : Reg} (hr : (s.queue (evTarget s (sreg s a)).1).stagedBy (reticleOf s.cur) < 64) (m : BitVec 4) :
    exec (.evpost a b m) s = .next (post s (evTarget s (sreg s a)).1 ⟨0, (fidTask s.core.regs.fireid).toNat, reticleOf s.cur⟩
      (evTarget s (sreg s a)).2 (sreg s b) (BitVec.ofNat 64 (fld (sreg s a) 0 16 + if s.core.fwm then 65536 else 0)) false
      (if m = 0#4 then none else some (s.cur, s.core.regs.fireid, s.core.fwm, m)) none) := by
  refine next_congr ((guarded_commit hc ..).trans ?_)
  rw [decide_eq_false (Nat.not_le.2 hr), waitRoom_false]
  simp [hc]

theorem ctxsv_saves {a : Reg} {t : State} (h : saveAt (regionOf s) (sreg s a).toNat s.atIssue s = (t, none)) :
    exec (.ctxsv a) s = .next { t with issue := { t.issue with savedKey := some (restKey (regionOf s) (sreg s a).toNat) } } := by
  refine next_congr ((guarded_commit hc ..).trans ?_)
  simp [hc, h]

theorem ctxsv_faults {a : Reg} {t : State} {e : Cause} (h : saveAt (regionOf s) (sreg s a).toNat s.atIssue s = (t, some e)) :
    exec (.ctxsv a) s = .next (raise e t) := by
  refine next_congr ((guarded_commit hc ..).trans ?_)
  simp [hc, h]

/-- The state in which CTXLD has read its image. -/
def imageRead (a : Reg) (s : State) : State :=
  (cacheLoad (regionOf s) (sreg s a).toNat s.core s).onCore fun c => { c with imageErr := false }

/-- The state in which a restored core waits for the end of its bundle, the registers those at issue. -/
def imageLoaded (k : Core) (t : State) : State :=
  { t with core := { k with regs := t.core.regs, bankS := t.core.bankS, bankTc := t.core.bankTc, fwm := t.core.fwm }
           fresh := t.fresh + 1, issue := { t.issue with loaded := some k } }

theorem ctxld_refused {d a : Reg} {st : Nat} (h : loadAt (regionOf s) (sreg s a).toNat s.core s = .inl st) :
    exec (.ctxld d a) s = lands 1 (.s d (BitVec.ofNat 64 st)) (imageRead a s) := by
  refine next_congr ((guarded_commit hc ..).trans ?_)
  simp only [hc, h]
  rfl

theorem ctxld_loads {d a : Reg} {k : Core} (h : loadAt (regionOf s) (sreg s a).toNat s.core s = .inr k) :
    exec (.ctxld d a) s = .next (imageLoaded k (imageRead a s)) := by
  refine next_congr ((guarded_commit hc ..).trans ?_)
  simp only [hc, h]
  rfl

end

/-! Control registers (03 R83 to R86). -/

/-- A number that CTLRD reads is assigned. -/
theorem ctlAssigned_of_value {s : State} {n : Nat} {v : W64} (h : ctlValue s n = some v) : ctlAssigned n = true := by
  unfold ctlValue at h
  dsimp only at h
  split at h
  case h_30 =>
    unfold ctlAssigned
    split at h
    next hbin => simp [hbin]
    split at h
    next hreg => simp [hreg]
    split at h
    next htc => simp [htc]
    cases h
  all_goals rfl

theorem privCheck_passes {s : State} {write : Bool} {imm : BitVec 12} (h : ctlFault s.core.fwm write imm.toNat = none) :
    (privCheck s write imm).bad = false := by simp [privCheck, causeCheck, h]

theorem ctlrd_reads {s : State} {d : Reg} {imm : BitVec 12} {v : W64} (hv : ctlValue s.issued imm.toNat = some v)
    (hf : ctlFault s.core.fwm false imm.toNat = none) (hu : unclaimed 1 (.s d 0#64) s) : exec (.ctlrd d imm) s = lands 1 (.s d v) s := by
  have hassigned : (unassigned imm).bad = false := by simp [unassigned, ctlAssigned_of_value hv]
  refine next_congr ((guarded_of_ok ?_ _ _).trans (by rw [hv]; rfl))
  exact List.forall_mem_cons.2 ⟨privCheck_passes hf, List.forall_mem_cons.2 ⟨hu, List.forall_mem_singleton.2 hassigned⟩⟩

/-- CTLWR past its checks: a write at the end of the tick, one of NETW to the region's leader. -/
theorem ctlwr_writes {s : State} {imm : BitVec 12} (hf : ctlFault s.core.fwm true imm.toNat = none) (ha : ctlAssigned imm.toNat = true)
    (hu : unclaimed 1 (.ctl imm 0#64) s) (a : Reg) : exec (.ctlwr a imm) s = .next (
      if imm = 0x00B#12 then s.onRegion (regionOf s) fun r => { r with netwq := r.netwq ++ [(s.cur, (sreg s a).truncate 32)] }
      else launchResult { rem := 1, put := .ctl imm (sreg s a) } s) := by
  have hassigned : (unassigned imm).bad = false := by simp [unassigned, ha]
  refine next_congr (guarded_of_ok ?_ _ _)
  exact List.forall_mem_cons.2 ⟨privCheck_passes hf, List.forall_mem_cons.2 ⟨hu, List.forall_mem_singleton.2 hassigned⟩⟩

/-- Outside firmware the firmware's numbers have PRIVILEGE. -/
theorem privCheck_of_firmware {s : State} (hf : s.core.fwm = false) {imm : BitVec 12} (hl : 0x100 ≤ imm.toNat) (hh : imm.toNat ≤ 0x106)
    (write : Bool) : privCheck s write imm = { bad := true, cause := .privilege } := by
  have hassigned : ctlAssigned imm.toNat = true := by simp [ctlAssigned, hl, hh]
  have hfw : isFwNum imm.toNat = true := by simp [isFwNum, hl, Nat.lt_of_le_of_lt hh]
  simp [privCheck, causeCheck, ctlFault, hf, hassigned, hfw]

theorem guarded_of_privileged {s : State} (hc : s.issue.commit = false) (hf : s.core.fwm = false) {imm : BitVec 12} (hl : 0x100 ≤ imm.toNat)
    (hh : imm.toNat ≤ 0x106) (write : Bool) (cs : List Check) (eff : State → State) :
    guarded (privCheck s write imm :: cs) eff s = raise .privilege s := by
  rw [privCheck_of_firmware hf hl hh]
  exact guarded_of_first hc rfl rfl eff

/-! Capture units (13 R342, R346). -/

/-- The running stream may name the unit: firmware may, and a firing of the region that it is granted to. -/
def mayName (s : State) (u : Nat) : Prop := s.core.fwm = true ∨ (grantOf s (reticleOf s.cur) u).getLsbD 4 = true ∧
  ((grantOf s (reticleOf s.cur) u).extractLsb' 0 4).toNat = s.core.regnum

theorem unitCheck_bad_iff (s : State) (u : Nat) : (unitCheck s u).bad = true ↔ ¬mayName s u := by
  simp only [unitCheck, mayName, Bool.and_eq_true, Bool.not_eq_true', ← Bool.not_eq_true, beq_iff_eq, not_or]

theorem unitCheck_passes {s : State} {u : Nat} (h : mayName s u) : (unitCheck s u).bad = false :=
  Bool.eq_false_iff.2 fun hb => (unitCheck_bad_iff s u).1 hb h

theorem monrd_asks {s : State} {a : Reg} (h : mayName s (fld (sreg s a) 0 4)) (d : Reg) (m : BitVec 4) : exec (.monrd d a m) s =
    .next (addOp { kind := .monrd (fld (sreg s a) 0 4) (fld (sreg s a) 8 6), tc := m, dest := .s d } s) :=
  next_congr (guarded_of_ok (List.forall_mem_singleton.2 (unitCheck_passes h)) _ _)

theorem moncfg_asks {s : State} {a b : Reg} (h : mayName s (fld (sreg s a) 0 4)) (h0 : fld (sreg s b) 44 17 = 0) (hok : srcOk (sreg s b) = true) :
    exec (.moncfg a b) s = .next (addOp { kind := .moncfg (fld (sreg s a) 0 4) (sreg s b) } s) := by
  have hcfg : (fld (sreg s b) 44 17 != 0 || !srcOk (sreg s b)) = false := by simp [h0, hok]
  exact next_congr (guarded_of_ok (List.forall_mem_cons.2 ⟨unitCheck_passes h, List.forall_mem_singleton.2 hcfg⟩) _ _)

theorem guarded_of_unitCheck {s : State} (hc : s.issue.commit = false) {u : Nat} (hm : ¬mayName s u) (cs : List Check) (eff : State → State) :
    guarded (unitCheck s u :: cs) eff s = raise .privilege s := guarded_of_first hc ((unitCheck_bad_iff s u).2 hm) rfl eff

/-! What firmware alone may do (14 R354, R359, R367). -/

theorem guarded_of_firing {s : State} (hc : s.issue.commit = false) (hf : s.core.fwm = false) (cause : Cause) (cs : List Check)
    (eff : State → State) : guarded ({ bad := !s.core.fwm, cause := cause } :: cs) eff s = raise cause s :=
  guarded_of_first hc (c := { bad := !s.core.fwm, cause := cause }) (by rw [hf]; rfl) rfl eff

/-- What firmware alone may do faults in a firing. -/
theorem system_faults_of_firing {s : State} (hc : s.issue.commit = false) (hf : s.core.fwm = false) (d a b : Reg) (m : BitVec 4) (imm : BitVec 12) :
    exec (.tret m) s = .next (raise .illegalOp s) ∧ exec (.haltc a) s = .next (raise .privilege s) ∧
      exec (.ctxsv a) s = .next (raise .privilege s) ∧ exec (.ctxld d a) s = .next (raise .privilege s) ∧
      (0x100 ≤ imm.toNat → imm.toNat ≤ 0x106 →
        exec (.ctlrd d imm) s = .next (raise .privilege s) ∧ exec (.ctlwr a imm) s = .next (raise .privilege s)) ∧
      (¬mayName s (fld (sreg s a) 0 4) → exec (.monrd d a m) s = .next (raise .privilege s) ∧ exec (.moncfg a b) s = .next (raise .privilege s)) := by
  have fault (cause : Cause) := guarded_of_firing hc hf cause
  exact ⟨next_congr (fault ..), next_congr (fault ..), next_congr (fault ..), next_congr (fault ..),
    fun hl hh => ⟨next_congr (guarded_of_privileged hc hf hl hh ..), next_congr (guarded_of_privileged hc hf hl hh ..)⟩,
    fun hm => ⟨next_congr (guarded_of_unitCheck hc hm ..), next_congr (guarded_of_unitCheck hc hm ..)⟩⟩

/-- Settles O45: each instruction by the lemma that says what it does past its checks, and the checks themselves. -/
theorem systemInstructionResults : Obligations.SystemInstructionResults := by
  unfold Obligations.SystemInstructionResults
  intro s d a b m imm x y c1 read c2 stepped straight u mine q
  refine ⟨fun hc => ⟨fun hl => ?ends, fun hr => evpost_posts hc hr m, fun t => ctxsv_saves hc, fun t e => ctxsv_faults hc,
    fun st => ctxld_refused hc, fun k hk => ⟨ctxld_loads hc hk, fun t ht => ?loaded⟩⟩,
    fun v hv hf hu => ctlrd_reads hv hf hu, fun hf ha hu => ⟨fun hn => (ctlwr_writes hf ha hu a).trans (next_congr (if_neg hn)),
      fun hn => (ctlwr_writes hf ha hu a).trans (next_congr (if_pos hn))⟩,
    fun hm => ⟨monrd_asks hm d m, moncfg_asks hm⟩, fun hc hf => system_faults_of_firing hc hf d a b m imm⟩
  case ends =>
    exact ⟨trap_traps hc hl imm, fun h => brk_traps hc h hl m, fun hd hf => brk_reports hc hd hf hl m,
      fun hm => tret_returns hc hl hm, ⟨trapEnded c2, tret_ends hc hl, rfl, rfl, rfl⟩, haltc_stops hc hl a⟩
  case loaded =>
    obtain rfl := Host.Outcome.next.inj ((ctxld_loads hc hk).symm.trans ht)
    have hfiles := closeLoaded_files (k := k) (s := imageLoaded k (imageRead a s)) rfl
    simp only [filesView, Prod.mk.injEq] at hfiles
    obtain ⟨hs, hk', hn, hv, hpc, hfwm⟩ := hfiles
    exact ⟨hs, hv, hk', hn, hpc, hfwm⟩

end Sys2Proof.Proofs
end

section
/-! O22, O23: the elements of a register's data, element-wise results, merging under a predicate (05 R114 to R118). -/

namespace Sys2Proof.Proofs

open Sys2Proof.Machine Sys2Proof.Safety Sys2Proof.Laws

/-! Elements packed into data. -/

theorem slice_succ (d w e : Nat) : slice d w (e + 1) = slice (d / 2 ^ w) w e := by
  rw [slice, slice, Nat.mul_succ, Nat.add_comm, Nat.shiftRight_add, Nat.shiftRight_eq_div_pow d]

theorem slice_pack (w : Nat) (l : List Nat) (e : Nat) : slice (pack w l) w e = l.getD e 0 % 2 ^ w := by
  induction l generalizing e with
  | nil => simp [pack, slice]
  | cons x t ih =>
    cases e with
    | zero => simp [pack, slice]
    | succ e =>
      have hrest : (x % 2 ^ w + 2 ^ w * pack w t) / 2 ^ w = pack w t := by
        rw [Nat.add_mul_div_left _ _ (Nat.two_pow_pos w), Nat.div_eq_of_lt (Nat.mod_lt _ (Nat.two_pow_pos w)), Nat.zero_add]
      rw [slice_succ, pack, hrest, ih, List.getD_cons_succ]

theorem slice_ofNat {n w e : Nat} (h : w * e + w ≤ n) (x : Nat) : slice (BitVec.ofNat n x).toNat w e = slice x w e := by
  rw [BitVec.toNat_ofNat, slice_mod h]

/-- An element of n elements packed into a word is the one given. -/
theorem slice_pack_range {v w n e : Nat} (hw : w * e + w ≤ v) (he : e < n) (f : Nat → Nat) :
    slice (BitVec.ofNat v (pack w ((List.range n).map f))).toNat w e = f e % 2 ^ w := by
  rw [slice_ofNat hw, slice_pack]
  simp [he]

theorem element_fits {w n e : Nat} (he : e < n / w) : w * e + w ≤ n :=
  calc w * e + w = w * (e + 1) := (Nat.mul_succ w e).symm
    _ ≤ w * (n / w) := Nat.mul_le_mul_left w he
    _ ≤ n := Nat.mul_div_le n w

theorem slice_lt (d w e : Nat) : slice d w e < 2 ^ w := Nat.mod_lt _ (Nat.two_pow_pos w)

/-! Flags of a list of results. -/

theorem flags_foldl_iff (l : List (Nat × Flags)) (a : Flags) (i : Nat) :
    (l.foldl (fun a p => a ||| p.2) a).getLsbD i = true ↔ a.getLsbD i = true ∨ ∃ p ∈ l, p.2.getLsbD i = true := by
  induction l generalizing a with
  | nil => simp
  | cons p t ih => simp [ih, or_assoc]

section

variable (m : BitVec 4) (k : W64) (old : VReg) (f : Nat → Nat × Flags)

theorem elementwise_element {e : Nat} (he : e < nelem m) : slice (elementwise m k old f).1.data.toNat (regWidth m) e =
    if active k (regWidth m) e then (f e).1 % 2 ^ regWidth m else slice old.data.toNat (regWidth m) e := by
  rw [elementwise]
  simp only [packV, List.map_map]
  rw [slice_pack_range (element_fits he) he, Function.comp_apply]
  split
  · rfl
  · exact Nat.mod_eq_of_lt (slice_lt ..)

theorem elementwise_flag (i : Nat) : (elementwise m k old f).2.getLsbD i = true ↔
    ∃ e, e < nelem m ∧ active k (regWidth m) e = true ∧ (f e).2.getLsbD i = true := by
  rw [elementwise]
  simp only [flags_foldl_iff, List.mem_map, List.mem_range]
  constructor
  · rintro (h | ⟨-, ⟨e, he, rfl⟩, h⟩)
    · simp at h
    · split at h
      next ha => exact ⟨e, he, ha, h⟩
      next => simp at h
  · rintro ⟨e, he, ha, h⟩
    exact .inr ⟨_, ⟨e, he, rfl⟩, by rwa [if_pos ha]⟩

end

/-- Settles O22: element by element and flag by flag. -/
theorem elementwiseByElement : Obligations.ElementwiseByElement := by
  unfold Obligations.ElementwiseByElement
  intro m k old f _
  exact ⟨rfl, rfl, fun e he => elementwise_element m k old f he, fun i _ => elementwise_flag m k old f i⟩

/-! Masks over the elements. -/

/-- Under a mask of whole elements each element is the new one or the old one. -/
theorem slice_select {n w e : Nat} (hn : w * e + w ≤ n) {mask : BitVec n} {b : Bool} (hm : slice mask.toNat w e = if b then 2 ^ w - 1 else 0)
    (x y : BitVec n) : slice ((x &&& mask) ||| (y &&& ~~~mask)).toNat w e = slice (if b then x else y).toNat w e := by
  refine slice_eq fun i hi => ?_
  have hlt : w * e + i < n := by omega
  have hbit : mask.getLsbD (w * e + i) = b := by
    rw [BitVec.getLsbD, ← testBit_slice hi, hm]
    cases b <;> simp [hi]
  simp only [BitVec.testBit_toNat, BitVec.getLsbD_or, BitVec.getLsbD_and, BitVec.getLsbD_not, hbit, hlt]
  cases b <;> simp

theorem slice_unpad {t : BitVec 4} {w e : Nat} {x y : VData} (h : slice x.toNat w e = slice y.toNat w e) :
    slice (unpad t x).toNat w e = slice (unpad t y).toNat w e := by
  have hand (p : VData) : slice (x &&& p).toNat w e = slice (y &&& p).toNat w e := by
    refine slice_eq fun i hi => ?_
    have hbit : x.toNat.testBit (w * e + i) = y.toNat.testBit (w * e + i) := by rw [← testBit_slice hi, h, testBit_slice hi]
    simp [hbit]
  unfold unpad
  split
  · exact hand _
  split
  · exact hand _
  · exact h

section

variable (k : W64)

theorem slice_laneMask {l : Nat} (hl : l < 64) : slice (laneMask k).toNat 32 l = if k.getLsbD l then 2 ^ 32 - 1 else 0 := by
  rw [laneMask, packV, slice_pack_range (by omega) hl]
  split <;> rfl

theorem slice_blockMask {i : Nat} (hi : i < 8) : slice (blockMask k).toNat 256 i = if blockOn k i then 2 ^ 256 - 1 else 0 := by
  rw [blockMask, packV, slice_pack_range (by omega) hi]
  split <;> rfl

theorem slice_scaleMask {i : Nat} (hi : i < 8) : slice (scaleMask k).toNat 8 i = if blockOn k i then 2 ^ 8 - 1 else 0 := by
  rw [scaleMask, slice_pack_range (by omega) hi]
  split <;> rfl

variable (old : VReg) {new : VReg}

theorem merge_tag (new : VReg) : (merge k old new).tag = new.tag := by
  unfold merge
  split <;> rfl

theorem merge_of_lanes (h : isMx new.tag = false) : merge k old new =
    { tag := new.tag, scale := new.scale, data := (new.data &&& laneMask k) ||| (old.data &&& ~~~(laneMask k)) } := by simp [merge, h]

theorem merge_of_blocks (h : isMx new.tag = true) : merge k old new =
    { tag := new.tag, scale := (new.scale &&& scaleMask k) ||| (old.scale &&& ~~~(scaleMask k)),
      data := unpad new.tag ((new.data &&& blockMask k) ||| (old.data &&& ~~~(blockMask k))) } := by simp [merge, h]

end

/-- Settles O23: lanes and blocks by the masks that cover them. -/
theorem mergeByLane : Obligations.MergeByLane := by
  unfold Obligations.MergeByLane
  intro k old new
  refine ⟨merge_tag k old new, fun h => ?lanes, fun h i hi => ?blocks⟩
  case lanes =>
    rw [merge_of_lanes k old h]
    refine ⟨rfl, fun l hl => ?_⟩
    have hlane := slice_select (by omega : 32 * l + 32 ≤ 2048) (slice_laneMask k hl) new.data old.data
    simp only [lane, hlane]
    split <;> rfl
  case blocks =>
    rw [merge_of_blocks k old h]
    refine ⟨slice_unpad (slice_select (by omega) (slice_blockMask k hi) ..), ?_⟩
    have hscale := slice_select (by omega : 8 * i + 8 ≤ 64) (slice_scaleMask k hi) new.scale old.scale
    simp only [hscale]
    split <;> rfl

end Sys2Proof.Proofs
end

section
/-! O24 to O26: vector arithmetic, integer instructions, moves and comparisons (05 R120 to R126, R129). -/

namespace Sys2Proof.Proofs

open Sys2Proof.Machine Sys2Proof.Safety Sys2Proof.Laws
open List (forall_mem_nil forall_mem_singleton forall_mem_cons)

/-! A result of the vector unit past its checks (02 R53, R55). -/

section

variable {f g h : BitVec 4} {u v w : VReg} (hu : tagOk f u.tag = true)

include hu

theorem tagCheck_passes : (tagCheck f u).bad = false := by simp [tagCheck, hu]

theorem oneTag_passes : ∀ c ∈ [tagCheck f u], c.bad = false := forall_mem_singleton.2 (tagCheck_passes hu)

variable (hv : tagOk g v.tag = true)

include hv

theorem twoTags_pass : ∀ c ∈ [tagCheck f u, tagCheck g v], c.bad = false := forall_mem_cons.2 ⟨tagCheck_passes hu, oneTag_passes hv⟩

theorem threeTags_pass (hw : tagOk h w.tag = true) : ∀ c ∈ [tagCheck f u, tagCheck g v, tagCheck h w], c.bad = false :=
  forall_mem_cons.2 ⟨tagCheck_passes hu, twoTags_pass hv hw⟩

end

section

variable {s : State} {lat : Nat} {d : Reg} {tags own : List Check}

theorem vresult_lands (h : unclaimed lat (.v d {}) s) (ht : ∀ c ∈ tags, c.bad = false) (ho : ∀ c ∈ own, c.bad = false) {r q : VReg × Flags}
    (e : r = q) : (.next (vresult lat d tags own r s) : Out) = landsWith lat (.v d q.1) q.2 s := next_congr (e ▸ vresult_eq h ht ho r)

/-- The same of a result without flags. -/
theorem vresult_lands_plain (h : unclaimed lat (.v d {}) s) (ht : ∀ c ∈ tags, c.bad = false) (ho : ∀ c ∈ own, c.bad = false) {v w : VReg}
    (e : v = w) : (.next (vresult lat d tags own (v, 0#5) s) : Out) = lands lat (.v d w) s :=
  vresult_lands h ht ho (congrArg (·, 0#5) e)

theorem sresult_lands (h : unclaimed lat (.s d 0#64) s) (ht : ∀ c ∈ tags, c.bad = false) (ho : ∀ c ∈ own, c.bad = false) {x y : W64}
    (e : x = y) (fl : Flags) : (.next (sresult lat d tags own x fl s) : Out) = landsWith lat (.s d y) fl s :=
  next_congr (e ▸ sresult_eq h ht ho x fl)

theorem guarded_lands (ht : ∀ c ∈ tags, c.bad = false) {p : Pending} (h : clashes s p = false) :
    (.next (guarded (tags ++ [collision p s]) (launchResult p) s) : Out) = .next (launchResult p s) :=
  next_congr (guarded_of_ok (List.forall_mem_append.2 ⟨ht, forall_mem_singleton.2 h⟩) _ _)

/-! The value of a result decides nothing about its claim. -/

theorem unclaimed_mask {q : KReg} (h : unclaimed lat (.k q 0#64) s) (x : W64) : unclaimed lat (.k q x) s := h

theorem unclaimed_pair (h : unclaimed lat (.vv d {} {}) s) (x y : VReg) : unclaimed lat (.vv d x y) s := h

end

/-- Element-wise results agree where their elements do. -/
theorem elementwise_congr {f g : Nat → Nat × Flags} (h : ∀ e, f e = g e) (m : BitVec 4) (k : W64) (old : VReg) :
    elementwise m k old f = elementwise m k old g := by rw [funext h]

/-! Element-wise instructions past their tag checks. -/

section

variable {s : State} {lat : Nat} {d a b : Reg} {m : BitVec 4} (h : unclaimed lat (.v d {}) s) (ha : tagOk m (vreg s a).tag = true)

include h ha

theorem vun_lands {ff : Exact → Nat × Flags} {fi : Int → Int} {g : Nat → Nat × Flags}
    (e : ∀ e, (if isF m then ff (opndX (vreg s a) m e) else (codeOf (regWidth m) (fi (opndI (vreg s a) m e)), 0#5)) = g e) (k : KReg) :
    (.next (vun lat ff fi d a k m s) : Out) =
      landsWith lat (.v d (elementwise m (kreg s k) (vreg s d) g).1) (elementwise m (kreg s k) (vreg s d) g).2 s :=
  vresult_lands h (oneTag_passes ha) (forall_mem_nil _) (elementwise_congr e ..)

variable (hb : tagOk m (vreg s b).tag = true)

include hb

theorem vbin_lands {ff : Exact → Exact → Nat × Flags} {fi : Int → Int → Int} {g : Nat → Nat × Flags}
    (e : ∀ e, (if isF m then ff (opndX (vreg s a) m e) (opndX (vreg s b) m e)
      else (codeOf (regWidth m) (fi (opndI (vreg s a) m e) (opndI (vreg s b) m e)), 0#5)) = g e) (k : KReg) :
    (.next (vbin lat ff fi d a b k m s) : Out) =
      landsWith lat (.v d (elementwise m (kreg s k) (vreg s d) g).1) (elementwise m (kreg s k) (vreg s d) g).2 s :=
  vresult_lands h (twoTags_pass ha hb) (forall_mem_nil _) (elementwise_congr e ..)

theorem vtri_lands (hd : tagOk m (vreg s d).tag = true) {ff : Exact → Exact → Exact → Nat × Flags} {fi : Int → Int → Int → Int}
    {g : Nat → Nat × Flags} (e : ∀ e, (if isF m then ff (opndX (vreg s a) m e) (opndX (vreg s b) m e) (opndX (vreg s d) m e)
      else (codeOf (regWidth m) (fi (opndI (vreg s a) m e) (opndI (vreg s b) m e) (opndI (vreg s d) m e)), 0#5)) = g e) (k : KReg) :
    (.next (vtri lat ff fi d a b k m s) : Out) =
      landsWith lat (.v d (elementwise m (kreg s k) (vreg s d) g).1) (elementwise m (kreg s k) (vreg s d) g).2 s :=
  vresult_lands h (threeTags_pass ha hb hd) (forall_mem_nil _) (elementwise_congr e ..)

end

/-! The model's order and clamp of integers. -/

theorem minI_eq (x y : Int) : minI x y = min x y := by unfold minI; split <;> omega

theorem maxI_eq (x y : Int) : maxI x y = max x y := by unfold maxI; split <;> omega

theorem clampI_eq {lo hi : Int} (h : lo ≤ hi) (x : Int) : clampI x lo hi = max lo (min x hi) := by
  unfold clampI
  split
  · omega
  · split <;> omega

/-- Settles O24: each instruction by its element; minimum, maximum and the saturating sum in the integers' own terms. -/
theorem vectorArithmeticResults : Obligations.VectorArithmeticResults := by
  unfold Obligations.VectorArithmeticResults
  intro s d a b k m va vb vd w lat res x y z i j l
  refine ⟨fun ha h => ⟨vun_lands h ha (fun _ => rfl) k, vun_lands h ha (fun _ => rfl) k⟩,
    fun ha hb h => ⟨vbin_lands h ha hb (fun _ => rfl) k, vbin_lands h ha hb (fun _ => rfl) k, vbin_lands h ha hb (fun _ => rfl) k,
      ?min, ?max, ?sat⟩,
    fun ha hb hd h => ⟨vtri_lands h ha hb hd (fun _ => rfl) k, vtri_lands h ha hb hd (fun _ => rfl) k⟩, fun hm ha hb hd h => ?dot⟩
  case min => exact vbin_lands h ha hb (fun e => by rw [minI_eq]) k
  case max => exact vbin_lands h ha hb (fun e => by rw [maxI_eq]) k
  case sat =>
    have hpos := Nat.two_pow_pos (regWidth m - 1)
    exact vbin_lands h ha hb (fun e => by rw [clampI_eq (by omega)]) k
  case dot =>
    have hne : (m == 12#4) = false := beq_eq_false_iff_ne.2 hm
    refine vresult_lands h (threeTags_pass ha hb ?_) (forall_mem_nil _) ?_
    · simpa [hne] using hd
    · simp only [hne, Bool.false_eq_true, if_false]
      rfl

/-- Settles O25: each instruction by its element, with no floating-point form. -/
theorem vectorIntegerResults : Obligations.VectorIntegerResults := by
  unfold Obligations.VectorIntegerResults
  intro s d a b k m hI va vb vd w res i c
  have int (x : Nat × Flags) (y : Nat × Flags) : (if isF m then x else y) = y := by simp [hI]
  refine ⟨fun ha h => ⟨vun_lands h ha (fun _ => int ..) k, vun_lands h ha (fun _ => int ..) k⟩,
    fun ha hb => ⟨fun h => ⟨vbin_lands h ha hb (fun _ => int ..) k, vbin_lands h ha hb (fun _ => ?shr) k,
        vbin_lands h ha hb (fun _ => int ..) k⟩,
      fun h => vbin_lands h ha hb (fun _ => int ..) k⟩,
    fun ha hb hd h => ?dot4, fun ha hb hd h => ?dot2⟩
  case shr => rw [int, Nat.shiftRight_eq_div_pow]; rfl
  case dot4 => exact vresult_lands h (threeTags_pass ha hb hd) (forall_mem_nil _) rfl
  case dot2 => exact vresult_lands h (threeTags_pass ha hb hd) (forall_mem_nil _) rfl

/-! Moves and comparisons (R125, R126, R129). -/

theorem testBit_pack_range {n l : Nat} (hl : l < n) (b : Nat → Bool) :
    (pack 1 ((List.range n).map fun i => if b i then 1 else 0)).testBit l = b l := by
  have hbit := testBit_slice (x := pack 1 ((List.range n).map fun i => if b i then 1 else 0)) (k := l) Nat.zero_lt_one
  rw [slice_pack, Nat.one_mul, Nat.add_zero] at hbit
  rw [← hbit]
  cases hb : b l <;> simp [hl, hb]

theorem vcmp_lands {s : State} {q : KReg} {a b : Reg} {m : BitVec 4} (ha : tagOk (if m.getLsbD 3 then 3#4 else 1#4) (vreg s a).tag = true)
    (hb : tagOk (if m.getLsbD 3 then 3#4 else 1#4) (vreg s b).tag = true) (h : unclaimed (if m.getLsbD 3 then 3 else 2) (.k q 0#64) s)
    (k : KReg) : exec (.vcmp q a b k m) s = lands (if m.getLsbD 3 then 3 else 2)
      (.k q (BitVec.ofNat 64 (pack 1 ((List.range 64).map fun l =>
        if (kreg s k).getLsbD l && vcond m (vreg s a) (vreg s b) l then 1 else 0)))) s :=
  guarded_lands (tags := [_, _]) (twoTags_pass ha hb) (unclaimed_mask h _)

/-- Settles O26: each instruction by the register it writes, a comparison bit by bit. -/
theorem vectorMoveResults : Obligations.VectorMoveResults := by
  unfold Obligations.VectorMoveResults
  intro s d a b q r k m va vb kk cls
  refine ⟨fun h => ?moves, fun h => ?tags, fun ha hb h => ⟨_, vcmp_lands ha hb h k, fun l hl => ?_⟩⟩
  case moves =>
    have move {x y : VReg} (e : x = y) := vresult_lands_plain h (forall_mem_nil _) (forall_mem_nil _) e
    exact ⟨move rfl, move rfl, move rfl, move rfl, move rfl, vresult_lands h (forall_mem_nil _) (forall_mem_nil _) rfl, move rfl⟩
  case tags =>
    have move {x y : W64} (e : x = y) := sresult_lands h (forall_mem_nil _) (forall_mem_nil _) e 0#5
    exact ⟨move rfl, move rfl⟩
  · rw [BitVec.getLsbD_ofNat, testBit_pack_range hl]
    simp [hl, va, vb, kk]

end Sys2Proof.Proofs
end

section
/-! O27 to O29: conversions, permutes, reductions (05 R127 to R137). -/

namespace Sys2Proof.Proofs

open Sys2Proof.Machine Sys2Proof.Safety Sys2Proof.Laws
open List (forall_mem_nil forall_mem_singleton forall_mem_cons)

/-! Block scales (R128). -/

/-- Packing the bytes of a scalar gives it back. -/
theorem pack_bytes (x : W64) : BitVec.ofNat 64 (pack 8 ((List.range 8).map (slice x.toNat 8))) = x := by
  apply BitVec.eq_of_getLsbD_eq
  intro i hi
  have hbyte : i / 8 < 8 := by omega
  have hbit : i % 8 < 8 := by omega
  rw [BitVec.getLsbD_ofNat, testBit_pack8]
  simp [hbyte, hi, testBit_slice hbit, Nat.div_add_mod]
  rfl

/-- The low byte of a scalar as a signed number. -/
theorem signedOf_low_byte (x : W64) : signedOf 8 (x.toNat % 256) = (x.extractLsb' 0 8).toInt := by
  rw [← signedOf_toNat, BitVec.extractLsb'_toNat]
  rfl

/-- A block scale of VSCL. -/
def sclByte (v : VReg) (x : W64) (m : BitVec 4) (i : Nat) : Nat :=
  if m == 0#4 then slice x.toNat 8 i
  else if scaleOf v i == 0xFF then 0xFF
  else (clampI ((scaleOf v i : Int) + signedOf 8 (x.toNat % 256)) 0 0xFE).toNat

theorem sclByte_moved (v : VReg) (x : W64) (i : Nat) : sclByte v x 1#4 i =
    if scaleOf v i = 0xFF then 0xFF else (max 0 (min 0xFE ((scaleOf v i : Int) + (x.extractLsb' 0 8).toInt))).toNat := by
  simp only [sclByte, beq_iff_eq, signedOf_low_byte]
  rw [clampI_eq (by decide), if_neg (by decide), Int.min_comm]

theorem sclByte_lt (v : VReg) (x : W64) (m : BitVec 4) (i : Nat) : sclByte v x m i < 2 ^ 8 := by
  unfold sclByte
  split
  · exact slice_lt ..
  split
  · decide
  · rw [clampI_eq (by decide)]
    omega

/-- Settles O27: each instruction past its checks; the scales of VSCL byte by byte. -/
theorem vectorConversionResults : Obligations.VectorConversionResults := by
  unfold Obligations.VectorConversionResults
  intro s d a b k m h va old block
  refine ⟨fun ht => ?vcvt, fun ht => ?vqmx, fun ht => ⟨?vdqmx, ?vscl⟩⟩
  case vcvt =>
    have hok : (isF va.tag || va.tag == 1#4 || va.tag == 2#4 || va.tag == 12#4) = true := by simpa [or_assoc] using ht
    exact vresult_lands h (forall_mem_nil _) (forall_mem_singleton.2 ((Bool.not_eq_false' _).mpr hok)) rfl
  case vqmx => exact vresult_lands h (oneTag_passes ht) (forall_mem_nil _) rfl
  case vdqmx => exact vresult_lands h (forall_mem_nil _) (forall_mem_singleton.2 ((Bool.not_eq_false' _).mpr ht)) rfl
  case vscl =>
    refine ⟨BitVec.ofNat 64 (pack 8 ((List.range 8).map (sclByte va (sreg s b) m))),
      vresult_lands h (forall_mem_nil _) (forall_mem_singleton.2 ((Bool.not_eq_false' _).mpr ht)) rfl, ?_, ?_⟩
    · rintro rfl
      exact pack_bytes _
    · rintro i hi rfl
      rw [slice_pack_range (by omega) hi, Nat.mod_eq_of_lt (sclByte_lt ..), sclByte_moved]

/-! Permutes (R130). -/

/-- A lane as a signed scalar. -/
theorem lane_signed (v : VReg) (l : Nat) : BitVec.ofInt 64 (signedOf 32 (lane v l)) = (BitVec.ofNat 32 (lane v l)).signExtend 64 := by
  have hlt : lane v l < 2 ^ 32 := slice_lt ..
  have htoNat : (BitVec.ofNat 32 (lane v l)).toNat = lane v l := by rw [BitVec.toNat_ofNat, Nat.mod_eq_of_lt hlt]
  have hsigned := signedOf_toNat (BitVec.ofNat 32 (lane v l))
  rw [htoNat] at hsigned
  rw [hsigned]
  rfl

/-- A scale taken from a number, or left as it stands. -/
theorem ofNat_ite (c : Prop) [Decidable c] (n : Nat) (x : W64) : BitVec.ofNat 64 (if c then n else x.toNat) = if c then BitVec.ofNat 64 n else x := by
  split
  · rfl
  · rw [BitVec.ofNat_toNat, BitVec.setWidth_eq]

/-- Settles O28: each instruction by the register it writes. -/
theorem vectorPermuteResults : Obligations.VectorPermuteResults := by
  unfold Obligations.VectorPermuteResults
  intro s d a b r k m va vb kk perm byte e w
  refine ⟨fun h => ?vectors, fun h => ?scalars⟩
  case vectors =>
    have move {x y : VReg} (e : x = y) := vresult_lands_plain h (forall_mem_nil _) (forall_mem_nil _) e
    refine ⟨move rfl, move rfl, move rfl, move rfl, move rfl, move rfl, move rfl, move (by simp only [beq_iff_eq]),
      fun ht hm => ?vpack, fun hm ht => ?vunpk⟩
    case vpack =>
      have htag := Bool.and_eq_false_iff.2 (ht.imp bne_eq_false_iff_eq.2 bne_eq_false_iff_eq.2)
      have hquarter := decide_eq_false (Nat.not_le.2 hm)
      refine vresult_lands_plain h (forall_mem_nil _) (forall_mem_cons.2 ⟨htag, forall_mem_singleton.2 hquarter⟩) ?_
      simp only [Bool.and_eq_true, Bool.or_eq_true, beq_iff_eq, decide_eq_true_eq]
      rfl
    case vunpk =>
      have hok := Bool.or_eq_false_iff.2 ⟨decide_eq_false (Nat.not_le.2 hm), beq_eq_false_iff_ne.2 ht⟩
      exact vresult_lands_plain h (forall_mem_nil _) (forall_mem_singleton.2 hok) (by rw [ofNat_ite])
  case scalars =>
    have move {x y : W64} (e : x = y) := sresult_lands h (forall_mem_nil _) (forall_mem_nil _) e 0#5
    exact ⟨move rfl, move (lane_signed ..)⟩

/-! Reductions (R131 to R137). -/

theorem pairChecks_pass {s : State} {p : Reg} {m : BitVec 4} (h : tagOk m (vreg s p).tag = true) (h1 : tagOk 1#4 (vreg s (p + 1#5)).tag = true) :
    ∀ c ∈ pairChecks s p m, c.bad = false := twoTags_pass h h1

/-- A sorted pair past its checks is on its way. -/
theorem pairResult_lands {s : State} {d : Reg} {tags : List Check} (h : unclaimed 8 (.vv d {} {}) s) (ht : ∀ c ∈ tags, c.bad = false)
    (m : BitVec 4) (l : List KeyIdx) : (.next (pairResult d m tags l s) : Out) = lands 8
      (.vv d { tag := m, data := packV 32 ((padTo 64 (fillerPair m) l).map Prod.fst) }
        { tag := 1#4, data := packV 32 ((padTo 64 (fillerPair m) l).map Prod.snd) }) s :=
  guarded_lands ht (unclaimed_pair h _ _)

/-- The index of the pair that is first in order. -/
theorem first_index (l : List KeyIdx) : (match l with | [] => 64 | p :: _ => p.2) = (l.head?.map Prod.snd).getD 64 := by
  cases l <;> rfl

theorem needFloat_passes {v : VReg} (h : isF v.tag = true ∨ v.tag = 0#4) : (needFloat v).bad = false :=
  (Bool.not_eq_false' _).mpr (by simpa using h)

theorem vhistx_bins {s : State} {a : Reg} (h : isF (vreg s a).tag = true ∨ (vreg s a).tag = 0#4) (d : Reg) (k : KReg) :
    exec (.vhistx d a k 0#4) s = .next (launchResult
      { rem := 6, put := .none, hist := binCounts 32 ((activeVals (vreg s a) (kreg s k)).filterMap expBin) } s) :=
  next_congr (guarded_of_ok (forall_mem_singleton.2 (needFloat_passes h)) _ _)

theorem vhistx_lanes {s : State} {d a : Reg} (ha : tagOk 1#4 (vreg s a).tag = true) (h : unclaimed 6 (.v d {}) s) (k : KReg) :
    exec (.vhistx d a k 1#4) s = lands 6 (.v d { tag := 1#4, data := packV 32 ((List.range 64).map fun (j : Nat) =>
      (((List.range 64).filter fun l => (kreg s k).getLsbD l).map fun l => opndI (vreg s a) 1#4 l).countP (· == (j : Int))) }) s :=
  vresult_lands h (oneTag_passes ha) (forall_mem_nil _) rfl

/-- Settles O29: each instruction past its checks. -/
theorem vectorReductionResults : Obligations.VectorReductionResults := by
  unfold Obligations.VectorReductionResults
  intro s d a b k m va vb kk act lanes pairs
  refine ⟨fun ha h => ?scalars, fun ha h => ?scan, fun ha ha1 h => ⟨?sorts, ?topk⟩, fun h => ⟨?rand, fun ht => ?lut⟩,
    fun ha => vhistx_bins ha d k, fun ha h => vhistx_lanes ha h k, ?mangle, fun ht h => ?round⟩
  case scalars =>
    have reduce {x y : W64} (e : x = y) (fl : Flags) := sresult_lands h (oneTag_passes ha) (forall_mem_nil _) e fl
    exact ⟨reduce rfl _, reduce rfl _, reduce rfl _, reduce (congrArg _ (first_index _)) _⟩
  case scan => exact vresult_lands h (oneTag_passes ha) (forall_mem_nil _) rfl
  case sorts => exact pairResult_lands h (pairChecks_pass ha ha1) ..
  case topk =>
    intro hb hb1
    exact pairResult_lands h (List.forall_mem_append.2 ⟨pairChecks_pass ha ha1, pairChecks_pass hb hb1⟩) ..
  case rand => exact vresult_lands h (forall_mem_nil _) (forall_mem_nil _) rfl
  case lut =>
    have hok : (vb.tag == 12#4 || vb.tag == 4#4 || vb.tag == 5#4) = true := by simpa [or_assoc] using ht
    exact vresult_lands h (forall_mem_nil _) (forall_mem_singleton.2 ((Bool.not_eq_false' _).mpr hok)) rfl
  case mangle =>
    intro base ha hb hc h
    refine vresult_lands_plain h (forall_mem_nil _)
      (forall_mem_cons.2 ⟨needFloat_passes ha, forall_mem_cons.2 ⟨?_, forall_mem_singleton.2 ?_⟩⟩) ?_
    · simpa [vb] using hb
    · simpa [base] using hc
    · simp [base, va, vb, kk]
  case round => exact sresult_lands h (oneTag_passes (by rw [ht]; rfl)) (forall_mem_nil _) rfl _

end Sys2Proof.Proofs
end

section
/-! O30: special functions at their special inputs, exact points and elsewhere (05 R138 to R141). -/

namespace Sys2Proof.Proofs

open Sys2Proof.Machine Sys2Proof.Safety Sys2Proof.Laws
open List (forall_mem_nil forall_mem_singleton forall_mem_cons)

/-! Powers of two in a format of class F (04 R87, R93). -/

/-- What the formats of class F have in common: the largest exponent is the bias, and the largest finite value is the last code with it. -/
structure ClassF (f : Fmt) : Prop where
  emax : f.emax = f.bias
  maxfin : f.maxfin + 1 = (2 * f.bias + 1) * 2 ^ f.mb
  bias : 1 < f.bias

theorem classF_of_tag {m : BitVec 4} (hm : m = 3#4 ∨ m = 4#4 ∨ m = 5#4) : ClassF (fmtF m) := by
  obtain rfl | rfl | rfl := hm <;> exact ⟨rfl, rfl, by decide⟩

theorem two_pow_beq_zero (j : Nat) : (2 ^ j == 0) = false := beq_eq_false_iff_ne.2 (Nat.ne_of_gt (Nat.two_pow_pos j))

/-- A power of two moved by no more than its exponent, and what it loses. -/
theorem pow2_shift {j : Nat} {sh : Int} (h : sh ≤ j) :
    (if sh ≤ 0 then 2 ^ j <<< (-sh).toNat else 2 ^ j >>> sh.toNat) = 2 ^ ((j : Int) - sh).toNat ∧
      (if sh ≤ 0 then 0 else 2 ^ j % 2 ^ sh.toNat) = 0 := by
  by_cases h0 : sh ≤ 0
  · have hexp : ((j : Int) - sh).toNat = j + (-sh).toNat := by omega
    exact ⟨by rw [if_pos h0, Nat.shiftLeft_eq, hexp, Nat.pow_add], if_pos h0⟩
  · have hexp : ((j : Int) - sh).toNat = j - sh.toNat := by omega
    have hle : sh.toNat ≤ j := by omega
    refine ⟨by rw [if_neg h0, Nat.shiftRight_eq_div_pow, hexp, Nat.pow_div hle Nat.two_pos], ?_⟩
    rw [if_neg h0, Nat.mod_eq_zero_of_dvd (Nat.pow_dvd_pow 2 hle)]

section

variable {f : Fmt}

/-- The exponent field and the significand of a power of two make its code. -/
theorem powCode_eq (n : Int) :
    ((max n (1 - (f.bias : Int)) + f.bias - 1).toNat <<< f.mb) + 2 ^ (n + f.mb - max n (1 - (f.bias : Int))).toNat = powCode f n := by
  unfold powCode
  by_cases hn : 1 - (f.bias : Int) ≤ n
  · have hfield : (n + f.bias).toNat = (n + f.bias - 1).toNat + 1 := by omega
    rw [if_pos hn, Int.max_eq_left hn, Nat.shiftLeft_eq, hfield, Nat.succ_mul]
    congr 2
    omega
  · have hfield : (1 - (f.bias : Int) + f.bias - 1).toNat = 0 := by omega
    rw [if_neg hn, Int.max_eq_right (by omega), hfield, Nat.zero_shiftLeft, Nat.zero_add]
    congr 2
    omega

theorem roundFmt_pow2_eq {j : Nat} {e : Int} (h : 1 - (f.bias : Int) - f.mb ≤ j + e) (s : Bool) (mode rw : Nat) :
    roundFmt (.fin s (2 ^ j) e false) f mode rw = if f.maxfin < powCode f (j + e) then
      ((if !f.hasInf || mode == 1 || (mode == 2 && !s) || (mode == 3 && s) then f.maxfin else f.maxfin + 1) + signCode f s, flOF ||| flNX)
    else (powCode f (j + e) + signCode f s, 0#5) := by
  have hsh : max ((j : Int) + e) (1 - f.bias) - f.mb - e ≤ j := by omega
  have hexp : (j : Int) - (max ((j : Int) + e) (1 - f.bias) - f.mb - e) = j + e + f.mb - max ((j : Int) + e) (1 - f.bias) := by omega
  obtain ⟨hn, hr⟩ := pow2_shift hsh
  simp only [roundFmt, two_pow_beq_zero, Nat.log2_two_pow, hn, hr, hexp, roundUp, flIf, beq_self_eq_true, bne_self_eq_false,
    Bool.not_false, Bool.and_true, Bool.or_false, Bool.false_and, Bool.false_or, Bool.false_eq_true, if_true, if_false, powCode_eq]
  rfl

variable (hf : ClassF f)

include hf

theorem powCode_le_maxfin {n : Int} (h : powFits f n) : powCode f n ≤ f.maxfin := by
  obtain ⟨hlo, hhi⟩ := h
  have hmax := hf.maxfin
  rw [hf.emax] at hhi
  have hunit := Nat.two_pow_pos f.mb
  unfold powCode
  split
  · have hle : (n + f.bias).toNat * 2 ^ f.mb ≤ (2 * f.bias) * 2 ^ f.mb := Nat.mul_le_mul_right _ (by omega)
    rw [Nat.add_mul] at hmax
    omega
  · have hle : 2 ^ (n + f.bias + f.mb - 1).toNat ≤ 2 ^ f.mb := Nat.pow_le_pow_right Nat.two_pos (by omega)
    have hbias : 2 * 2 ^ f.mb ≤ (2 * f.bias + 1) * 2 ^ f.mb := Nat.mul_le_mul_right _ (by have := hf.bias; omega)
    omega

theorem maxfin_lt_powCode {n : Int} (h : (f.emax : Int) < n) : f.maxfin < powCode f n := by
  rw [hf.emax] at h
  have hle : (2 * f.bias + 1) * 2 ^ f.mb ≤ (n + f.bias).toNat * 2 ^ f.mb := Nat.mul_le_mul_right _ (by omega)
  rw [← hf.maxfin] at hle
  rw [powCode, if_pos (by omega)]
  omega

theorem roundFmt_pow2 {j : Nat} {e : Int} (h : powFits f (j + e)) (s : Bool) (mode rw : Nat) :
    roundFmt (.fin s (2 ^ j) e false) f mode rw = (powCode f (j + e) + signCode f s, 0#5) := by
  rw [roundFmt_pow2_eq h.1, if_neg (Nat.not_lt.2 (powCode_le_maxfin hf h))]

theorem exceeds_pow2 {j : Nat} {e : Int} (h : (f.emax : Int) < j + e) : exceeds f (.fin false (2 ^ j) e false) = true := by
  have hlow : 1 - (f.bias : Int) - f.mb ≤ j + e := by rw [hf.emax] at h; omega
  rw [exceeds, roundFmt_pow2_eq hlow, if_pos (maxfin_lt_powCode hf h)]
  rfl

theorem not_exceeds_pow2 {j : Nat} {e : Int} (h : powFits f (j + e)) : exceeds f (.fin false (2 ^ j) e false) = false := by
  rw [exceeds, roundFmt_pow2 hf h]
  simp

theorem powFits_zero : powFits f 0 := by
  have hb := hf.bias
  constructor <;> omega

theorem powFits_half : powFits f (-1) := by
  have hb := hf.bias
  constructor <;> omega

end

theorem powCode_zero {f : Fmt} (hf : ClassF f) : powCode f 0 = f.bias * 2 ^ f.mb := by
  have hb := hf.bias
  rw [powCode, if_pos (by omega)]
  simp

section

variable {m : BitVec 4} (hf : ClassF (fmtF m))

include hf

theorem exactRes_pow2 {j : Nat} {e : Int} (h : powFits (fmtF m) (j + e)) (s : Bool) :
    exactRes m (.fin s (2 ^ j) e false) = (powCode (fmtF m) (j + e) + signCode (fmtF m) s, 0#5) := by rw [exactRes, roundFmt_pow2 hf h]

theorem exactRes_pow {n : Int} (h : powFits (fmtF m) n) : exactRes m (.fin false 1 n false) = (powCode (fmtF m) n, 0#5) := by
  have hn : ((0 : Nat) : Int) + n = n := Int.zero_add n
  have hres := exactRes_pow2 hf (j := 0) (by rwa [hn]) false
  rwa [hn] at hres

theorem exactRes_unit (s : Bool) :
    exactRes m (.fin s 1 0 false) = ((fmtF m).bias * 2 ^ (fmtF m).mb + signCode (fmtF m) s, 0#5) := by
  rw [← powCode_zero hf]
  exact exactRes_pow2 hf (j := 0) (e := 0) (powFits_zero hf) s

end

/-! Integers and powers of two. -/

theorem asInteger_eq_some_iff (x i : Nat) (e : Int) :
    asInteger x e = some i ↔ if 0 ≤ e then i = x * 2 ^ e.toNat else x = i * 2 ^ (-e).toNat := by
  unfold asInteger
  split
  · rw [Nat.shiftLeft_eq, Option.some.injEq, eq_comm]
  · have hpos := Nat.two_pow_pos (-e).toNat
    rw [Nat.shiftRight_eq_div_pow]
    split
    next h =>
      have hdvd := Nat.dvd_of_mod_eq_zero (beq_iff_eq.1 h)
      rw [Option.some.injEq]
      exact Nat.div_eq_iff_eq_mul_left hpos hdvd
    next h =>
      simp only [reduceCtorEq, false_iff]
      rintro rfl
      exact h (beq_iff_eq.2 (Nat.mul_mod_left ..))

/-- An integer is chosen as it stands, whatever the mode. -/
theorem toInteger_of_asInteger {x i : Nat} {e : Int} (h : asInteger x e = some i) (s : Bool) (mode rw : Nat) :
    (toInteger (.fin s x e false) mode rw).1 = if s then -(i : Int) else i := by
  rw [asInteger_eq_some_iff] at h
  by_cases he : 0 ≤ e
  · rw [if_pos he] at h
    have hsh : -e ≤ 0 := by omega
    simp only [toInteger, roundUp, hsh, if_true, Nat.shiftLeft_eq, Int.neg_neg, ← h, beq_self_eq_true, Bool.not_false, Bool.and_self,
      Bool.false_eq_true, if_false]
  · rw [if_neg he] at h
    have hsh : ¬-e ≤ 0 := by omega
    have hdiv := Nat.mul_div_cancel i (Nat.two_pow_pos (-e).toNat)
    subst h
    simp only [toInteger, roundUp, hsh, if_false, Nat.shiftRight_eq_div_pow, hdiv, Nat.mul_mod_left, beq_self_eq_true, Bool.not_false,
      Bool.and_self, if_true, Bool.false_eq_true]

theorem asPow2_pow2 (j : Nat) (e : Int) : asPow2 (2 ^ j) e = some (j + e) := by simp [asPow2, Nat.log2_two_pow]

theorem asPow2_eq_none {x : Nat} (h : ∀ j, x ≠ 2 ^ j) (e : Int) : asPow2 x e = none :=
  if_neg fun hx => h _ (beq_iff_eq.1 hx)

theorem eq_of_asPow2 {x : Nat} {e n : Int} (h : asPow2 x e = some n) : x = 2 ^ Nat.log2 x ∧ n = Nat.log2 x + e := by
  unfold asPow2 at h
  split at h
  next hx => exact ⟨beq_iff_eq.1 hx, (Option.some.inj h).symm⟩
  next => cases h

/-! The free results (R139; log 8). -/

/-- Every place in the order of the codes below the middle of the code space is a code's own. -/
theorem ordOfCode_codeOfOrd {f : Fmt} {o : Int} (h : o < (2 ^ (f.w - 1) : Nat)) : ordOfCode f (codeOfOrd f o) = o := by
  unfold codeOfOrd ordOfCode
  split
  · rw [if_pos (by omega)]
    omega
  · rw [if_neg (by omega)]
    omega

theorem ordOfCode_lt (f : Fmt) (c : Nat) : ordOfCode f c < (2 ^ (f.w - 1) : Nat) := by
  have hpos := Nat.two_pow_pos (f.w - 1)
  unfold ordOfCode
  split <;> omega

/-- A code no further above the lower end than the upper end is lies between them. -/
theorem code_between (f : Fmt) (lo hi : Nat) {q : Nat} (hq : q < (ordOfCode f hi - ordOfCode f lo).toNat + 1) :
    ordOfCode f lo ≤ ordOfCode f (codeOfOrd f (ordOfCode f lo + q)) ∧
      ordOfCode f (codeOfOrd f (ordOfCode f lo + q)) ≤ max (ordOfCode f lo) (ordOfCode f hi) := by
  have hlo := ordOfCode_lt f lo
  have hhi := ordOfCode_lt f hi
  rw [ordOfCode_codeOfOrd (by omega)]
  omega

theorem approx_within (minor : Nat) (m : BitVec 4) (code ulps : Nat) (absolute neg : Bool) (y : Nat) (e : Int) :
    withinBound (fmtF m) ulps absolute neg y e (approx minor m code ulps absolute neg y e) := by
  obtain ⟨hge, hle⟩ := code_between (fmtF m) _ _ (Nat.mod_lt (Config.special minor m.toNat 0 code) (Nat.succ_pos _))
  exact ⟨hge, hle, rfl⟩

theorem boundOf_of_fine {f : Fmt} {y : Nat} {e : Int} (h : e ≤ max ((Nat.log2 y : Int) + e) (1 - (f.bias : Int)) - f.mb)
    (h1 : e ≤ -(f.mb : Int) - 1) (ulps : Nat) (absolute : Bool) : boundOf f ulps absolute y e =
      max (ulps * 2 ^ (max ((Nat.log2 y : Int) + e) (1 - (f.bias : Int)) - f.mb - e).toNat)
        (if absolute then 2 ^ (-(f.mb : Int) - 1 - e).toNat else 0) := by simp only [boundOf, h, h1, if_true]

theorem inside_between {lo hi : Nat} (h : lo + 1 < hi) (y : Nat) : lo < inside lo hi y ∧ inside lo hi y < hi := by
  unfold inside
  omega

/-! FEXP2. -/

/-- The integer part of an argument of FEXP2. -/
def exp2Floor (s : Bool) (x : Nat) (e : Int) : Int := (toInteger (.fin s x e false) 2 0).1

/-- A result of FEXP2 beside its exact points: an overflow, or free. -/
def exp2Rest (m : BitVec 4) (c : Nat) (r : Nat × Flags) : Prop :=
  r = (infCode (fmtF m) false, flOF ||| flNX) ∨ ∃ y i, r = approx 0 m c 2 false false y i

/-- FEXP2 of a number: an overflow, an exact point, or what else there is. -/
theorem exp2_finite (m : BitVec 4) (c : Nat) (s : Bool) (x : Nat) (e : Int) : ∃ r, exp2Rest m c r ∧ exp2 m c (.fin s x e false) =
    if ((fmtF m).emax : Int) + 1 ≤ exp2Floor s x e then (infCode (fmtF m) false, flOF ||| flNX)
    else if (asInteger x e).isSome && decide (1 - ((fmtF m).bias : Int) - (fmtF m).mb ≤ exp2Floor s x e) then
      exactRes m (.fin false 1 (exp2Floor s x e) false)
    else r := by
  refine ⟨_, ?_, rfl⟩
  exact iteInduction (motive := exp2Rest m c) (fun _ => .inr ⟨_, _, rfl⟩) fun _ =>
    iteInduction (motive := exp2Rest m c) (fun _ => .inl rfl) fun _ => .inr ⟨_, _, rfl⟩

/-- Where the argument is no integer whose power the format holds, the result is free or overflows. -/
theorem exp2_free {m : BitVec 4} {s : Bool} {x : Nat} {e : Int}
    (h : ∀ i, asInteger x e = some i → s = true ∧ ¬powFits (fmtF m) (-(i : Int))) (c : Nat) : exp2Rest m c (exp2 m c (.fin s x e false)) := by
  obtain ⟨r, hr, hexp⟩ := exp2_finite m c s x e
  rw [hexp]
  split
  next => exact .inl rfl
  next hsmall =>
    rwa [if_neg]
    intro hexact
    obtain ⟨hsome, hleast⟩ := Bool.and_eq_true_iff.1 hexact
    obtain ⟨i, hi⟩ := Option.isSome_iff_exists.1 hsome
    obtain ⟨rfl, hno⟩ := h i hi
    have hfloor : exp2Floor true x e = -(i : Int) := toInteger_of_asInteger hi ..
    rw [hfloor] at hleast
    exact hno ⟨of_decide_eq_true hleast, by omega⟩

/-- An integer argument. -/
theorem exp2_at_integer {m : BitVec 4} (hf : ClassF (fmtF m)) {x i : Nat} {e : Int} (h : asInteger x e = some i) (c : Nat) (s : Bool) :
    (powFits (fmtF m) (if s then -(i : Int) else i) →
      exp2 m c (.fin s x e false) = (powCode (fmtF m) (if s then -(i : Int) else i), 0#5)) ∧
    (((fmtF m).emax : Int) < (if s then -(i : Int) else i) → exp2 m c (.fin s x e false) = (infCode (fmtF m) false, flOF ||| flNX)) := by
  have hfloor : exp2Floor s x e = if s then -(i : Int) else i := toInteger_of_asInteger h ..
  obtain ⟨r, -, hexp⟩ := exp2_finite m c s x e
  rw [← hfloor, hexp]
  refine ⟨fun hfit => ?_, fun hlt => if_pos hlt⟩
  have hlo := hfit.1
  have hhi := hfit.2
  rw [if_neg (by omega), if_pos (by simp [h, hlo]), exactRes_pow hf hfit]

/-! FLOG2, FRCP, FRSQ. -/

/-- The exponent of two over which FRCP divides, and its quotient with what it loses. -/
def rcpExp (x : Nat) : Nat := Nat.log2 x + 256
def rcpQuot (x : Nat) (e : Int) : Exact :=
  .fin false (2 ^ rcpExp x / x) (-e - rcpExp x) (x * (2 ^ rcpExp x / x) != 2 ^ rcpExp x)

/-- FRCP of a number other than zero: an overflow, an exact point, or free. -/
theorem rcp_finite {m : BitVec 4} (c : Nat) {x : Nat} (hx : x ≠ 0) (s : Bool) (e : Int) : rcp m c (.fin s x e false) =
    if exceeds (fmtF m) (rcpQuot x e) then (infCode (fmtF m) s, flOF ||| flNX)
    else if (asPow2 x e).isSome && (roundFmt (rcpQuot x e) (fmtF m) 1 0).2 == 0#5 then
      exactRes m (.fin s (2 ^ rcpExp x / x) (-e - rcpExp x) false)
    else approx 2 m c 1 false s (2 ^ rcpExp x / x) (-e - rcpExp x) := by
  simp only [rcp, beq_eq_false_iff_ne.2 hx, Bool.false_eq_true, if_false]
  rfl

section

variable {m : BitVec 4} (hf : ClassF (fmtF m)) (c j : Nat) (e : Int)

theorem log2F_pow2 : log2F m c (.fin false (2 ^ j) e false) = exactRes m (Exact.ofInt (j + e)) := by
  simp only [log2F, two_pow_beq_zero, asPow2_pow2, Bool.false_eq_true, if_false]

theorem rcpExp_pow2 : rcpExp (2 ^ j) = j + 256 := by rw [rcpExp, Nat.log2_two_pow]

theorem two_pow_rcpExp_div : 2 ^ rcpExp (2 ^ j) / 2 ^ j = 2 ^ 256 := by
  rw [rcpExp_pow2, Nat.pow_add, Nat.mul_div_cancel_left _ (Nat.two_pow_pos j)]

theorem rcpQuot_pow2 : rcpQuot (2 ^ j) e = .fin false (2 ^ 256) (-e - rcpExp (2 ^ j)) false := by
  rw [rcpQuot, two_pow_rcpExp_div, rcpExp_pow2, ← Nat.pow_add, bne_self_eq_false]

include hf

theorem rcp_pow2 (s : Bool) :
    (powFits (fmtF m) (-((j : Int) + e)) →
      rcp m c (.fin s (2 ^ j) e false) = (powCode (fmtF m) (-((j : Int) + e)) + signCode (fmtF m) s, 0#5)) ∧
    (((fmtF m).emax : Int) < -((j : Int) + e) → rcp m c (.fin s (2 ^ j) e false) = (infCode (fmtF m) s, flOF ||| flNX)) := by
  have hn : ((256 : Nat) : Int) + (-e - rcpExp (2 ^ j)) = -((j : Int) + e) := by rw [rcpExp_pow2]; omega
  rw [rcp_finite c (Nat.ne_of_gt (Nat.two_pow_pos j)), rcpQuot_pow2, asPow2_pow2, two_pow_rcpExp_div, ← hn]
  refine ⟨fun hfit => ?_, fun hlt => if_pos (exceeds_pow2 hf hlt)⟩
  rw [not_exceeds_pow2 hf hfit, roundFmt_pow2 hf hfit]
  exact exactRes_pow2 hf hfit s

theorem rsq_pow2 {h : Int} (hn : (j : Int) + e = 2 * h) (hfit : powFits (fmtF m) (-h)) :
    rsq m c (.fin false (2 ^ j) e false) = (powCode (fmtF m) (-h), 0#5) := by
  have heven : (2 * h % 2 == 0) = true := by rw [Int.mul_emod_right]; rfl
  have hhalf : 2 * h / 2 = h := Int.mul_ediv_cancel_left h (by decide)
  simp only [rsq, two_pow_beq_zero, asPow2_pow2, hn, heven, hhalf, Bool.false_eq_true, if_false, if_true]
  exact exactRes_pow hf hfit

end

section

variable {m : BitVec 4} (c : Nat) {x : Nat} (hx : x ≠ 0) (e : Int)

include hx

theorem log2F_free (h : ∀ j, x ≠ 2 ^ j) : ∃ neg y, log2F m c (.fin false x e false) = approx 1 m c 2 true neg y (-256) := by
  simp only [log2F, beq_eq_false_iff_ne.2 hx, asPow2_eq_none h, Bool.false_eq_true, if_false]
  exact ⟨_, _, rfl⟩

theorem rcp_free (h : ∀ j, x ≠ 2 ^ j) (s : Bool) : rcp m c (.fin s x e false) = (infCode (fmtF m) s, flOF ||| flNX) ∨
    rcp m c (.fin s x e false) = approx 2 m c 1 false s (2 ^ rcpExp x / x) (-e - rcpExp x) := by
  rw [rcp_finite c hx, asPow2_eq_none h]
  split
  · exact .inl rfl
  · exact .inr rfl

/-- No even power of two has a free root. -/
theorem rsq_free (h : ∀ (j : Nat) (h : Int), x = 2 ^ j → (j : Int) + e ≠ 2 * h) :
    ∃ y i, rsq m c (.fin false x e false) = approx 3 m c 1 false false y i := by
  simp only [rsq, beq_eq_false_iff_ne.2 hx, Bool.false_eq_true, if_false]
  cases hp : asPow2 x e with
  | none => exact ⟨_, _, rfl⟩
  | some n =>
    obtain ⟨hpow, rfl⟩ := eq_of_asPow2 hp
    refine ⟨_, _, if_neg fun heven => h _ (((Nat.log2 x : Int) + e) / 2) hpow ?_⟩
    exact (Int.mul_ediv_cancel' (Int.dvd_of_emod_eq_zero (beq_iff_eq.1 heven))).symm

end

/-! FTANH, FERF, FSIGM: free between their limits. -/

section

variable (m : BitVec 4) (c : Nat) (s : Bool) {x : Nat} (hx : x ≠ 0) (e : Int)

include hx

theorem oddUnit_finite (minor : Nat) (g : Nat → Nat) :
    oddUnit minor g m c (.fin s x e false) = approx minor m c 2 true s (inside 0 (2 ^ 256) (g (fxOf x e))) (-256) := by
  simp only [oddUnit, beq_eq_false_iff_ne.2 hx, Bool.false_eq_true, if_false]
  rfl

theorem oddUnit_free (minor : Nat) (g : Nat → Nat) :
    ∃ y, 0 < y ∧ y < 2 ^ 256 ∧ oddUnit minor g m c (.fin s x e false) = approx minor m c 2 true s y (-256) := by
  obtain ⟨hlo, hhi⟩ := inside_between (lo := 0) (hi := 2 ^ 256) (by decide) (g (fxOf x e))
  exact ⟨_, hlo, hhi, oddUnit_finite m c s hx e minor g⟩

theorem sigm_negative : sigm m c (.fin true x e false) = approx 7 m c 2 true false
    (inside 0 (2 ^ 255) (fxExpNeg (fxOf x e) * fxOne / (fxOne + fxExpNeg (fxOf x e)))) (-256) := by
  simp only [sigm, beq_eq_false_iff_ne.2 hx, Bool.false_eq_true, if_false, if_true]
  rfl

theorem sigm_positive : sigm m c (.fin false x e false) = approx 7 m c 2 true false
    (inside (2 ^ 255) (2 ^ 256) (fxOne * fxOne / (fxOne + fxExpNeg (fxOf x e)))) (-256) := by
  simp only [sigm, beq_eq_false_iff_ne.2 hx, Bool.false_eq_true, if_false]
  rfl

theorem sigm_free : ∃ y, (if s then 0 < y ∧ y < 2 ^ 255 else 2 ^ 255 < y ∧ y < 2 ^ 256) ∧
    sigm m c (.fin s x e false) = approx 7 m c 2 true false y (-256) := by
  cases s with
  | true =>
    rw [sigm_negative m c hx]
    exact ⟨_, (if_pos rfl).mpr (inside_between (by decide) _), rfl⟩
  | false =>
    rw [sigm_positive m c hx]
    exact ⟨_, (if_neg Bool.false_ne_true).mpr (inside_between (by decide) _), rfl⟩

end

/-! FSIN and FCOS. -/

section

variable {m : BitVec 4} (c : Nat) (s : Bool) {x : Nat} {e : Int}

theorem sinCos_free (h : asInteger x (e + 1) = none) (cosine : Bool) : ∃ neg y, 0 < y ∧ y < 2 ^ 256 ∧
    sinCos cosine m c (.fin s x e false) = approx (if cosine then 9 else 8) m c 2 true neg y (-256) := by
  simp only [sinCos, h]
  obtain ⟨hlo, hhi⟩ := inside_between (lo := 0) (hi := 2 ^ 256) (by decide) _
  exact ⟨_, _, hlo, hhi, rfl⟩

variable {h : Nat} (hh : asInteger x (e + 1) = some h)

include hh

theorem sinCos_even (heven : h % 2 = 0) : sinCos false m c (.fin s x e false) = exactRes m (.zero s) ∧
    sinCos true m c (.fin s x e false) = exactRes m (.fin (h / 2 % 2 == 1) 1 0 false) := by
  have hturn : ((if s then 4 - h % 4 else h) % 4 == 2) = (h / 2 % 2 == 1) := by
    rw [Bool.eq_iff_iff, beq_iff_eq, beq_iff_eq]
    split <;> omega
  simp [sinCos, hh, heven, hturn]

theorem sinCos_odd (hodd : h % 2 = 1) :
    sinCos false m c (.fin s x e false) = exactRes m (.fin ((if s then (h + 1) / 2 else (h - 1) / 2) % 2 == 1) 1 0 false) ∧
    sinCos true m c (.fin s x e false) = exactRes m (.zero false) := by
  have hturn : ((if s then 4 - h % 4 else h) % 4 == 3) = ((if s then (h + 1) / 2 else (h - 1) / 2) % 2 == 1) := by
    rw [Bool.eq_iff_iff, beq_iff_eq, beq_iff_eq]
    split <;> omega
  simp [sinCos, hh, hodd, hturn]

end

/-! Instructions. -/

theorem sfu_lands {s : State} {lat : Nat} {d a : Reg} {m : BitVec 4} (h : unclaimed lat (.v d {}) s) (ha : tagOk m (vreg s a).tag = true)
    {f : Nat → Exact → Nat × Flags} {g : Nat → Nat × Flags}
    (e : ∀ e, f (roundFmt (opndX (vreg s a) m e) (fmtF m) 0 0).1 (opndX (vreg s a) m e) = g e) (k : KReg) :
    (.next (sfu lat f d a k m s) : Out) =
      landsWith lat (.v d (elementwise m (kreg s k) (vreg s d) g).1) (elementwise m (kreg s k) (vreg s d) g).2 s :=
  vresult_lands h (oneTag_passes ha) (forall_mem_nil _) (elementwise_congr e ..)

/-- Settles O30: function by function at special inputs, exact points and elsewhere; then each instruction past its checks. -/
theorem specialFunctionResults : Obligations.SpecialFunctionResults := by
  unfold Obligations.SpecialFunctionResults
  refine ⟨fun m c hm => ?functions, fun s d a b k m ha => ?instructions⟩
  case functions =>
    have hf := classF_of_tag hm
    intro f one ovf nan zero unit free
    refine ⟨?nans, ?infinities, ?zeros, asInteger_eq_some_iff, fun s x i e hi => exp2_at_integer hf hi c s, fun s j e => ?powers,
      fun s x h e hh => ?halves, ?bound, fun s x e hx => ?elsewhere⟩
    case nans =>
      exact ⟨rfl, rfl, rfl, rfl, rfl, rfl, rfl, rfl, rfl, rfl, fun x => ⟨rfl, by cases x <;> rfl⟩⟩
    case infinities =>
      exact ⟨rfl, rfl, rfl, rfl, fun _ => rfl, rfl, rfl, fun s => ⟨exactRes_unit hf s, exactRes_unit hf s⟩, exactRes_unit hf false, rfl,
        fun _ => ⟨rfl, rfl⟩, rfl, rfl, fun _ _ => rfl⟩
    case zeros =>
      intro s e
      have hzero : asInteger 0 e = some 0 := by simp [asInteger_eq_some_iff]
      have hunit : unit false = (powCode f (if s then -((0 : Nat) : Int) else (0 : Nat)), 0#5) := by
        simp [unit, one, f, powCode_zero hf, signCode]
      refine ⟨?exp2, rfl, rfl, rfl, rfl, rfl, exactRes_pow hf (powFits_half hf), rfl, fun t i => ⟨rfl, fun x hx => ?div⟩,
        fun x hx => ?negative⟩
      case exp2 =>
        rw [hunit]
        exact (exp2_at_integer hf hzero c s).1 (by cases s <;> exact powFits_zero hf)
      case div => simp [Exact.div, hx]
      case negative => simp [log2F, rsq, Exact.sqrt, hx, nan, nanRes, f]
    case powers =>
      intro n
      obtain ⟨hrcp, hover⟩ := rcp_pow2 hf c j e s
      exact ⟨log2F_pow2 c j e, hrcp, hover, fun h hn hfit => rsq_pow2 hf c j e hn hfit⟩
    case halves =>
      refine ⟨fun heven => ?_, fun hodd => ?_⟩
      · obtain ⟨hsin, hcos⟩ := sinCos_even (m := m) c s hh heven
        exact ⟨hsin, hcos.trans (exactRes_unit hf _)⟩
      · obtain ⟨hsin, hcos⟩ := sinCos_odd (m := m) c s hh hodd
        exact ⟨hsin.trans (exactRes_unit hf _), hcos⟩
    case bound =>
      intro k ulps absolute neg y e
      exact ⟨approx_within .., fun h h1 => boundOf_of_fine h h1 ..⟩
    case elsewhere =>
      exact ⟨fun h => exp2_free h c, fun h => ⟨log2F_free c hx e h, rcp_free c hx e h s⟩, fun h => rsq_free c hx e h,
        oddUnit_free m c s hx e 6 fxTanh, oddUnit_free m c s hx e 10 fxErf, sigm_free m c s hx e, fun h cosine => sinCos_free c s h cosine⟩
  case instructions =>
    refine ⟨fun h => ?free, fun h => ⟨sfu_lands h ha (fun _ => rfl) k, fun hb => ?div⟩⟩
    case free =>
      have each {f : Nat → Exact → Nat × Flags} {g : Nat → Nat × Flags} (e) := sfu_lands h ha (f := f) (g := g) e k
      exact ⟨each fun _ => rfl, each fun _ => rfl, each fun _ => rfl, each fun _ => rfl, each fun _ => rfl, each fun _ => rfl,
        each fun _ => rfl, each fun _ => rfl, each fun _ => rfl⟩
    case div => exact vresult_lands h (twoTags_pass ha hb) (forall_mem_nil _) rfl

end Sys2Proof.Proofs
end

section
/-! O32: the matrix unit's commands at issue (06 R145, R146, R150, R155 to R163). -/

namespace Sys2Proof.Proofs

open Sys2Proof.Machine Sys2Proof.Safety Sys2Proof.Laws
open List (forall_mem_nil forall_mem_singleton forall_mem_cons)

/-! The checks of a matrix instruction, passed (01 R29, 06 R146). -/

section

variable {s : State}

theorem ownerCheck_passes {i : Nat} (h : owned s i) : (ownerCheck s i).bad = false := bne_eq_false_iff_eq.2 h

theorem emptyCheck_of_ready {i : Nat} (h : (s.core.tile i).state = .ready) : (emptyCheck s i).bad = false := by
  simp [emptyCheck, h]

theorem interlock_of_ready {i : Nat} (h : (s.core.tile i).state = .ready) : interlock s i false = false := by
  simp [interlock, h]

/-- An instruction that changes the tile passes where no command holds it. -/
theorem interlock_of_unheld {i : Nat} (h : (s.core.tile i).state = .ready) (hh : (s.core.tile i).holds = 0#5) (change : Bool) :
    interlock s i change = false := by simp [interlock, h, hh]

/-- A tile operand passes: its buffer, its size, its tag where the command asks for a format. -/
theorem tileOperand_passes {t : Tile} {b : BitVec 2} {n : Nat} (h : usable t b n) {fmt : Option (BitVec 4)}
    (hf : ∀ f, fmt = some f → t.tag = f ∨ t.tag = 0#4) : ∀ c ∈ tileOperand t b fmt n, c.bad = false := by
  obtain ⟨-, hbuf, hsize⟩ := h
  refine forall_mem_cons.2 ⟨?buffer, forall_mem_cons.2 ⟨?format, forall_mem_singleton.2 ?size⟩⟩
  case buffer => simp [hbuf]
  case size => simpa using hsize
  case format =>
    cases fmt with
    | none => rfl
    | some f => simpa [← not_or, Classical.or_iff_not_imp_left] using hf f rfl

theorem matFull_of_lt (h : s.core.matq.length < 16) : matFull s = false := by simpa [matFull] using h

/-- A command of no tile, past its checks. -/
theorem matSimple_enters (h : s.core.matq.length < 16) {checks : List Check} (hc : ∀ c ∈ checks, c.bad = false) (cmd : MatCmd) :
    matSimple checks cmd s = s.onCore fun x => x.enqueue cmd := by
  rw [matSimple, guarded_of_ok hc, matFull_of_lt h, waitRoom_false]

/-! Commands with a tile. -/

/-- MLDS past its checks (R156). -/
theorem execMlds_enters (h : s.core.matq.length < 16) {a : Reg} (hown : owned s 4)
    (hplane : planeFmt (wfmt s.core.matFormats.mode) = true)
    (ht : usable (s.core.tile (slotOf (sreg s a))) 0#2 (64 * rowBytes (wfmt s.core.matFormats.mode) false))
    (htag : (s.core.tile (slotOf (sreg s a))).tag = wfmt s.core.matFormats.mode ∨ (s.core.tile (slotOf (sreg s a))).tag = 0#4) :
    execMlds a s = .next (s.onCore fun x =>
      (x.enqueue (.mlds (slotOf (sreg s a)) (wfmt s.core.matFormats.mode))).holdTile (slotOf (sreg s a))) := by
  refine next_congr ((guarded_of_ok ?checks _ _).trans ?_)
  case checks =>
    exact forall_mem_cons.2 ⟨ownerCheck_passes hown, forall_mem_cons.2 ⟨by simp [hplane], forall_mem_singleton.2 (emptyCheck_of_ready ht.1)⟩⟩
  rw [interlock_of_ready ht.1, waitFor_false, guarded_of_ok (tileOperand_passes ht (by rintro f ⟨⟩; exact htag)),
    matFull_of_lt h, waitRoom_false]

/-- MMA and MMAS past their checks (R157). -/
theorem issueMma_enters (h : s.core.matq.length < 16) {w : WReg} {a : Reg} {sp : Bool} (hown : owned s w.toNat) (hplanes : owned s 4)
    (hpair : legalPair (afmt s.core.matFormats.mode) s.core.matFormats.wf = true)
    (htag : (s.core.tile (slotOf (sreg s a))).tag = afmt s.core.matFormats.mode ∨ (s.core.tile (slotOf (sreg s a))).tag = 0#4)
    (hstagger : staggerHeld s = false) (hsp : sp = true → sparse s.core.matFormats.mode ≠ 0#2)
    (ht : usable (s.core.tile (slotOf (sreg s a))) 1#2 (32 * rowBytes (afmt s.core.matFormats.mode) sp)) (k : KReg) :
    issueMma sp w a k s = s.onCore fun x =>
      { (x.enqueue (.mma w (slotOf (sreg s a)) (x.k k) sp)).holdTile (slotOf (sreg s a)) with matHold := 0 } := by
  refine (guarded_of_ok ?checks _ _).trans ?_
  case checks =>
    exact forall_mem_cons.2 ⟨ownerCheck_passes hown, forall_mem_cons.2 ⟨ownerCheck_passes hplanes, forall_mem_cons.2 ⟨by simp [hpair],
      forall_mem_cons.2 ⟨by simpa using hsp, forall_mem_singleton.2 (emptyCheck_of_ready ht.1)⟩⟩⟩⟩
  rw [interlock_of_ready ht.1, waitFor_false, guarded_of_ok (tileOperand_passes ht (by rintro f ⟨⟩; exact htag)),
    matFull_of_lt h, waitRoom_false, hstagger, waitFor_false]

/-- MDRAIN past its checks (R146, R152): its tile starts to fill. -/
theorem execMdrain_enters (h : s.core.matq.length < 16) {d : Reg} {w : WReg} {m : BitVec 4} (hown : owned s w.toNat)
    (ht : usable (s.core.tile (slotOf (sreg s d))) 2#2 (2048 * drainBytes m)) (hh : (s.core.tile (slotOf (sreg s d))).holds = 0#5)
    (b : Reg) (k : KReg) :
    execMdrain d w b k m s = .next (s.onCore fun x =>
      let y := x.enqueue (.mdrain (slotOf (sreg s d)) w (b.getLsbD 0) (b.getLsbD 1) (x.k k) m)
      y.setTile (slotOf (sreg s d)) { (y.tile (slotOf (sreg s d))).toFilling (.cmd x.nextSer) with tag := m, holds := 1#5 }) := by
  refine next_congr ((guarded_of_ok ?checks _ _).trans ?_)
  case checks => exact forall_mem_cons.2 ⟨ownerCheck_passes hown, forall_mem_singleton.2 (emptyCheck_of_ready ht.1)⟩
  rw [interlock_of_unheld ht.1 hh, waitFor_false, guarded_of_ok (tileOperand_passes ht (by rintro f ⟨⟩)),
    matFull_of_lt h, waitRoom_false]

end

/-- Settles O32: each instruction past its checks. -/
theorem matrixCommandsEnter : Obligations.MatrixCommandsEnter := by
  unfold Obligations.MatrixCommandsEnter
  intro s w a b d k m f i ti j r enters row
  refine ⟨fun hroom => ⟨?mswap, ?mmode, ?mzero, ?mwrv, ?mtrw, ?mwait, ?mlds, ?mma, ?mdrain⟩, ?empty, ?mrdv⟩
  case mswap =>
    exact fun hplanes => next_congr (matSimple_enters hroom (forall_mem_singleton.2 (ownerCheck_passes hplanes)) _)
  case mmode =>
    intro hplanes hhigh hpair
    refine next_congr (matSimple_enters hroom (forall_mem_cons.2 ⟨ownerCheck_passes hplanes, forall_mem_singleton.2 ?_⟩) _)
    simp [afmt, wfmt, hhigh, hpair]
  case mzero =>
    exact fun hown => next_congr (matSimple_enters hroom (forall_mem_singleton.2 (ownerCheck_passes hown)) _)
  case mwrv =>
    exact fun hown htag =>
      next_congr (matSimple_enters hroom (forall_mem_cons.2 ⟨tagCheck_passes htag, forall_mem_singleton.2 (ownerCheck_passes hown)⟩) _)
  case mtrw =>
    exact fun hown hplanes =>
      next_congr (matSimple_enters hroom (forall_mem_cons.2 ⟨ownerCheck_passes hown, forall_mem_singleton.2 (ownerCheck_passes hplanes)⟩) _)
  case mwait =>
    intro hm
    exact next_congr ((if_neg hm).trans (matSimple_enters hroom (forall_mem_nil _) _))
  case mlds => exact fun hplanes hplane ht htag => execMlds_enters hroom hplanes hplane ht htag
  case mma =>
    intro hown hplanes hpair htag hstagger
    exact ⟨fun ht => next_congr (issueMma_enters hroom hown hplanes hpair htag hstagger (by simp) ht k),
      fun hsp ht => next_congr (issueMma_enters hroom hown hplanes hpair htag hstagger (fun _ => hsp) ht k)⟩
  case mdrain => exact fun hown ht hh => execMdrain_enters hroom hown ht hh b k
  case empty =>
    intro hq
    have hwait : waitFor (!s.core.matq.isEmpty) 4 (fun u => u) s = s := by rw [hq]; rfl
    exact next_congr ((if_pos rfl).trans hwait)
  case mrdv =>
    intro hown hidle hfree
    refine next_congr ((guarded_of_ok ?checks _ _).trans ?_)
    case checks => exact forall_mem_cons.2 ⟨hfree, forall_mem_singleton.2 (ownerCheck_passes hown)⟩
    rw [hidle, waitFor_false]

end Sys2Proof.Proofs
end

section
/-! O33, the windows: what a command leaves in their cells (04 R102, 06 R142, R157, R158, R161). -/

namespace Sys2Proof.Proofs

open Sys2Proof.Machine Sys2Proof.Safety Sys2Proof.Laws

/-! Tables in which a default value is left out. -/

section

variable {α : Type} [DecidableEq α] {m : Map α}

theorem sortedFrom_put (h : sortedFrom 0 m = true) (d : α) (k : Nat) (x : α) : sortedFrom 0 (put d k x m) = true := by
  unfold put
  split
  · exact sortedFrom_erase h
  · exact sortedFrom_insert h (Nat.zero_le k)

theorem findD_put (h : sortedFrom 0 m = true) (d : α) (k j : Nat) (x : α) : findD j d (put d k x m) = if j = k then x else findD j d m := by
  unfold put findD
  by_cases hj : j = k
  · subst hj
    split
    next hx => simp [find_erase_self h, hx]
    next => simp
  · rw [if_neg hj]
    split
    · rw [find_erase_of_ne hj]
    · rw [find_insert_of_ne hj]

end

/-! Cells set one after the other. -/

/-- A row and a column of a window. -/
abbrev CellPos := Nat × Nat

/-- The number of a cell in the table of the windows. -/
def cellKey (w : WReg) (p : CellPos) : Nat := 2048 * w.toNat + 64 * p.1 + p.2

/-- The position lies in a window. -/
def inWindow (p : CellPos) : Prop := p.1 < 32 ∧ p.2 < 64

theorem cellKey_inj {v w : WReg} {p q : CellPos} (hp : inWindow p) (hq : inWindow q) : cellKey v p = cellKey w q ↔ v = w ∧ p = q := by
  obtain ⟨r, n⟩ := p
  obtain ⟨q, o⟩ := q
  simp only [inWindow] at hp hq
  rw [Prod.mk.injEq, ← BitVec.toNat_inj]
  unfold cellKey
  omega

/-- The windows after every cell of a list, in its order, has become what g makes of it. -/
def mapCells (w : WReg) (g : CellPos → WCell → WCell) (l : List CellPos) (m : Map WCell) : Map WCell :=
  l.foldl (fun m p => put {} (cellKey w p) (g p (findD (cellKey w p) {} m)) m) m

section

variable (w : WReg) (g : CellPos → WCell → WCell)

/-- Each listed cell has changed once, and no other. -/
theorem findD_mapCells {l : List CellPos} (hl : l.Nodup) (hin : ∀ p ∈ l, inWindow p) {m : Map WCell} (hm : sortedFrom 0 m = true)
    (v : WReg) {q : CellPos} (hq : inWindow q) : findD (cellKey v q) {} (mapCells w g l m) =
      if v = w ∧ q ∈ l then g q (findD (cellKey v q) {} m) else findD (cellKey v q) {} m := by
  induction l generalizing m with
  | nil => simp [mapCells]
  | cons p t ih =>
    obtain ⟨hp, ht⟩ := List.nodup_cons.1 hl
    have hinp := hin p List.mem_cons_self
    have hstep := ih ht (fun x hx => hin x (List.mem_cons_of_mem p hx)) (sortedFrom_put hm {} (cellKey w p) (g p (findD (cellKey w p) {} m)))
    rw [mapCells, List.foldl_cons, ← mapCells, hstep]
    simp only [findD_put hm, cellKey_inj hq hinp]
    by_cases hqp : v = w ∧ q = p
    · obtain ⟨rfl, rfl⟩ := hqp
      simp [hp]
    · have hmem : (v = w ∧ q ∈ p :: t) ↔ (v = w ∧ q ∈ t) :=
        ⟨fun ⟨hv, hq⟩ => ⟨hv, (List.mem_cons.1 hq).resolve_left fun he => hqp ⟨hv, he⟩⟩, fun ⟨hv, hq⟩ => ⟨hv, List.mem_cons_of_mem p hq⟩⟩
      simp only [if_neg hqp, hmem]

end

/-- A core with other windows. -/
def withWindows (c : Core) (ws : Map WCell) : Core := { c with windows := ws }

theorem cell_eq (c : Core) (w : WReg) (r n : Nat) : c.cell w r n = findD (cellKey w (r, n)) {} c.windows := rfl

theorem cell_withWindows (c : Core) (ws : Map WCell) (w : WReg) (r n : Nat) :
    (withWindows c ws).cell w r n = findD (cellKey w (r, n)) {} ws := rfl

section

variable {w : WReg} {g : CellPos → WCell → WCell} {c : Core}

/-- Cells of a core set one after the other, as a step on its windows. -/
theorem foldl_setCell (l : List CellPos) (ws : Map WCell) :
    l.foldl (fun d p => d.setCell w p.1 p.2 (g p (d.cell w p.1 p.2))) (withWindows c ws) = withWindows c (mapCells w g l ws) := by
  induction l generalizing ws with
  | nil => rfl
  | cons p t ih =>
    have hset : (withWindows c ws).setCell w p.1 p.2 (g p ((withWindows c ws).cell w p.1 p.2)) =
        withWindows c (put {} (cellKey w p) (g p (findD (cellKey w p) {} ws)) ws) := rfl
    rw [List.foldl_cons, hset, ih, mapCells, mapCells, List.foldl_cons]

/-- The cells of one row at some columns. -/
theorem foldl_setCell_row (r : Nat) (ns : List Nat) (ws : Map WCell) :
    ns.foldl (fun d n => d.setCell w r n (g (r, n) (d.cell w r n))) (withWindows c ws) =
      withWindows c (mapCells w g (ns.map (Prod.mk r)) ws) := by rw [← foldl_setCell, List.foldl_map]

/-- Steps that each set cells of one row. -/
theorem foldl_row {G : Core → Nat → Core} {ns : List Nat}
    (hG : ∀ ws r, G (withWindows c ws) r = withWindows c (mapCells w g (ns.map (Prod.mk r)) ws))
    (rs : List Nat) (ws : Map WCell) : rs.foldl G (withWindows c ws) = withWindows c (mapCells w g (rs.flatMap fun r => ns.map (Prod.mk r)) ws) := by
  induction rs generalizing ws with
  | nil => rfl
  | cons r t ih =>
    rw [List.foldl_cons, hG, ih, List.flatMap_cons]
    simp only [mapCells, List.foldl_append]

end

/-- The cells of the rows that a mask selects. -/
def cellsOf (rows : W64) : List CellPos := (rowsOf rows).flatMap fun r => (List.range 64).map (Prod.mk r)

theorem mem_cellsOf {rows : W64} {p : CellPos} : p ∈ cellsOf rows ↔ inWindow p ∧ rows.getLsbD p.1 = true := by
  obtain ⟨r, n⟩ := p
  simp only [cellsOf, List.mem_flatMap, List.mem_map, rowsOf, List.mem_filter, List.mem_range, inWindow, Prod.mk.injEq]
  constructor
  · rintro ⟨a, ⟨ha, hbit⟩, b, hb, rfl, rfl⟩
    exact ⟨⟨ha, hb⟩, hbit⟩
  · rintro ⟨⟨hr, hn⟩, hbit⟩
    exact ⟨r, ⟨hr, hbit⟩, n, hn, rfl, rfl⟩

/-- The cells of a row at different columns are different. -/
theorem nodup_row (r : Nat) {ns : List Nat} (h : ns.Nodup) : (ns.map (Prod.mk r)).Nodup :=
  List.Pairwise.map (Prod.mk r) (fun _ _ hne he => hne (Prod.mk.inj he).2) h

theorem nodup_cellsOf (rows : W64) : (cellsOf rows).Nodup := by
  have hrows : (rowsOf rows).Nodup := List.Pairwise.filter _ List.nodup_range
  refine List.pairwise_flatMap.2 ⟨fun r _ => nodup_row r List.nodup_range, hrows.imp fun hne p hp q hq hpq => hne ?_⟩
  obtain ⟨_, _, rfl⟩ := List.mem_map.1 hp
  obtain ⟨_, _, rfl⟩ := List.mem_map.1 hq
  exact (Prod.mk.inj hpq).1

/-- The selected rows of one window change, cell by cell; nothing else does. -/
theorem cell_mapCells_rows {c : Core} (hs : sortedFrom 0 c.windows = true) (w : WReg) (g : CellPos → WCell → WCell) (rows : W64) (v : WReg)
    {r n : Nat} (hr : r < 32) (hn : n < 64) : (withWindows c (mapCells w g (cellsOf rows) c.windows)).cell v r n =
      if v = w ∧ rows.getLsbD r = true then g (r, n) (c.cell v r n) else c.cell v r n := by
  have hread := findD_mapCells w g (nodup_cellsOf rows) (fun p hp => (mem_cellsOf.1 hp).1) hs v (q := (r, n)) ⟨hr, hn⟩
  rw [cell_withWindows]
  simpa only [cell_eq, mem_cellsOf, inWindow, hr, hn, true_and, and_true] using hread

/-! MZERO (R158). -/

theorem runMzero_eq (c : Core) (w : WReg) (rows : W64) :
    c.runMzero w rows = withWindows c (mapCells w (fun _ _ => {}) (cellsOf rows) c.windows) := by
  unfold Core.runMzero cellsOf
  exact foldl_row (c := c) (fun ws r => foldl_setCell_row (g := fun _ _ => {}) r (List.range 64) ws) (rowsOf rows) c.windows

theorem runMat_mzero (c : Core) {e : MatEntry} {w : WReg} {rows : W64} (he : e.cmd = .mzero w rows) :
    c.runMat e = withWindows c (mapCells w (fun _ _ => {}) (cellsOf rows) c.windows) := by simp only [Core.runMat, he, runMzero_eq]

/-! MMA and MMAS (R157). -/

/-- Row r of a product's A tile. -/
def mmaRow (c : Core) (e : MatEntry) (i : Nat) (sp : Bool) (r : Nat) : MatBlock :=
  let fa := afmt c.matmode
  matBlock fa (if sp then 16 else 32) (c.srcBytes e (c.tile i) (rowBytes fa sp * r) (rowBytes fa sp))

/-- A cell after the terms of its row of the A tile and its column of the plane. -/
def mmaCell (c : Core) (e : MatEntry) (i : Nat) (sp : Bool) (p : CellPos) (x : WCell) : WCell :=
  let row := mmaRow c e i sp p.1
  let ks := if sp then sparsePos (sparse c.matmode) (row.md % 2 ^ 64) else List.range 32
  addTerms (afmt c.matmode) c.wf.fmt row.scale row.e (c.wf.sc p.2) (ks.map fun k => c.wf.at k p.2) x

theorem runMma_eq (c : Core) (e : MatEntry) (w : WReg) (i : Nat) (rows : W64) (sp : Bool) :
    c.runMma e w i rows sp = withWindows c (mapCells w (mmaCell c e i sp) (cellsOf rows) c.windows) := by
  unfold Core.runMma cellsOf
  refine foldl_row (c := c) (fun ws r => ?_) (rowsOf rows) c.windows
  exact foldl_setCell_row (c := c) (g := mmaCell c e i sp) r (List.range 64) ws

theorem runMat_mma (c : Core) {e : MatEntry} {w : WReg} {i : Nat} {rows : W64} {sp : Bool} (he : e.cmd = .mma w i rows sp) :
    c.runMat e = (withWindows c (mapCells w (mmaCell c e i sp) (cellsOf rows) c.windows)).releaseTile i := by
  simp only [Core.runMat, he, runMma_eq]

/-! MWRV (R161). -/

/-- The cells of one row that a mask selects. -/
def cellsAt (r : Nat) (k : W64) : List CellPos := ((List.range 64).filter fun n => k.getLsbD n).map (Prod.mk r)

theorem runMwrv_eq (c : Core) (w : WReg) (r : Nat) (k : W64) (m : BitVec 4) (v : VReg) :
    c.runMwrv w r k m v = withWindows c (mapCells w (fun p _ => cellOf m v p.2) (cellsAt r k) c.windows) := by
  unfold Core.runMwrv cellsAt
  exact foldl_setCell_row (c := c) (g := fun p _ => cellOf m v p.2) r _ c.windows

theorem runMat_mwrv (c : Core) {e : MatEntry} {w : WReg} {q : Nat} {k : W64} {m : BitVec 4} {v : VReg} (he : e.cmd = .mwrv w q k m v) :
    c.runMat e = withWindows c (mapCells w (fun p _ => cellOf m v p.2) (cellsAt q k) c.windows) := by simp only [Core.runMat, he, runMwrv_eq]

/-- One cell, by its format. -/
theorem cellOf_eq (m : BitVec 4) (v : VReg) (n : Nat) : cellOf m v n =
    if m = 1#4 then windowAdd {} (opndI v 1#4 n) 0
    else match decodeFp fmtFP32 (roundFmt (opndX v 3#4 n) fmtFP32 0 0).1 with
      | .nan => { ns := true }
      | .inf neg => if neg then { ni := true } else { pi := true }
      | .fin neg y z _ => windowAdd {} (if neg then -(y : Int) else y) z := by
  by_cases h : m = 1#4
  · exact (if_pos (beq_iff_eq.2 h)).trans (if_pos h).symm
  · exact (if_neg (by simpa using h)).trans (if_neg h).symm

/-- The selected cells of one row of one window change; nothing else does. -/
theorem cell_mapCells_row {c : Core} (hs : sortedFrom 0 c.windows = true) (w : WReg) (g : CellPos → WCell → WCell) {q : Nat} (hq : q < 32)
    (k : W64) (v : WReg) {r n : Nat} (hr : r < 32) (hn : n < 64) :
    (withWindows c (mapCells w g (cellsAt q k) c.windows)).cell v r n =
      if v = w ∧ r = q ∧ k.getLsbD n = true then g (r, n) (c.cell v r n) else c.cell v r n := by
  have hmem (p : CellPos) : p ∈ cellsAt q k ↔ p.2 < 64 ∧ p.1 = q ∧ k.getLsbD p.2 = true := by
    obtain ⟨r, n⟩ := p
    simp only [cellsAt, List.mem_map, List.mem_filter, List.mem_range, Prod.mk.injEq]
    constructor
    · rintro ⟨a, ⟨hlt, hbit⟩, rfl, rfl⟩
      exact ⟨hlt, rfl, hbit⟩
    · rintro ⟨hlt, rfl, hbit⟩
      exact ⟨n, ⟨hlt, hbit⟩, rfl, rfl⟩
  have hnodup : (cellsAt q k).Nodup := nodup_row q (List.Pairwise.filter _ List.nodup_range)
  have hread := findD_mapCells w g hnodup (fun p hp => ⟨((hmem p).1 hp).2.1 ▸ hq, ((hmem p).1 hp).1⟩) hs v (q := (r, n)) ⟨hr, hn⟩
  rw [cell_withWindows]
  simpa only [cell_eq, hmem, hn, true_and] using hread

end Sys2Proof.Proofs
end

section
/-! O33, the planes: what MLDS and MTRW leave in the shadow plane (06 R143, R147, R148, R151, R156, R162). -/

namespace Sys2Proof.Proofs

open Sys2Proof.Machine Sys2Proof.Safety Sys2Proof.Laws

/-! A plane made of columns. -/

theorem getD_map_range {α : Type} {n k : Nat} (h : k < n) (f : Nat → α) (d : α) : ((List.range n).map f).getD k d = f k := by simp [h]

/-- A table of the numbers of a list that are not zero. -/
theorem toNat_findD_foldr (w : Nat) (f : Nat → Nat) (l : List Nat) (k : Nat) :
    (findD k 0#w (l.foldr (fun i m => if f i == 0 then m else (i, BitVec.ofNat w (f i)) :: m) [])).toNat = if k ∈ l then f k % 2 ^ w else 0 := by
  induction l with
  | nil => simp [findD]
  | cons i t ih =>
    rw [List.foldr_cons]
    by_cases hz : f i = 0
    · rw [if_pos (beq_iff_eq.2 hz), ih]
      by_cases hk : k = i
      · subst hk; simp [hz]
      · simp [hk]
    · rw [if_neg (by simpa using hz)]
      by_cases hk : k = i
      · subst hk; simp [findD, find?]
      · have hfind (m : Map (BitVec w)) (x : BitVec w) : findD k 0#w ((i, x) :: m) = findD k 0#w m := by simp [findD, find?, Ne.symm hk]
        rw [hfind, ih]
        simp [hk]

section

variable (f : BitVec 4) (col : Nat → Nat × List Nat) {n : Nat} (hn : n < 64)

include hn

theorem mkPlane_scale : (mkPlane f ((List.range 64).map col)).sc n = (col n).1 % 256 := by
  have hzip : (List.range 64).zip ((List.range 64).map col) = (List.range 64).map fun n => (n, col n) :=
    List.ext_getElem (by simp) fun i _ _ => by simp
  simp only [Plane.sc, mkPlane, hzip, List.foldr_map]
  rw [toNat_findD_foldr 8 fun n => (col n).1]
  simp [hn]

theorem mkPlane_elem {k : Nat} (hk : k < 32) : (mkPlane f ((List.range 64).map col)).at k n = (col n).2.getD k 0 % 2 ^ 16 := by
  have hmod : (64 * k + n) % 64 = n := by omega
  have hdiv : (64 * k + n) / 64 = k := by omega
  simp only [Plane.at, mkPlane]
  rw [toNat_findD_foldr 16 fun i => ((((List.range 64).map col).getD (i % 64) (0, [])).2).getD (i / 64) 0, hmod, hdiv,
    if_pos (List.mem_range.2 (by omega)), getD_map_range hn]

end

/-! MLDS (R148, R156). -/

theorem matBlock_scale (f : BitVec 4) (n x : Nat) : (matBlock f n x).scale = if isMx f then x % 256 else 0 := rfl

theorem matBlock_elem (f : BitVec 4) {n k : Nat} (h : k < n) (x : Nat) :
    (matBlock f n x).e.getD k 0 = slice (if isMx f then x / 256 else x) (tagWidth f) k := getD_map_range h _ 0

/-- The element width of a format that a plane can hold. -/
theorem tagWidth_le {f : BitVec 4} (h : planeFmt f = true) : tagWidth f ≤ 16 := by
  revert f; decide

/-- The source bytes of a command that has read no line ahead are the tile's (R151). -/
theorem slice_srcBytes {e : MatEntry} (he : e.snap = []) (c : Core) (t : Tile) (off : Nat) {n b : Nat} (hb : b < n) :
    slice (c.srcBytes e t off n) 8 b = (rd (c.buf t.buf) (t.base + (off + b))).toNat := by
  have hpack (l : List Nat) : (l.foldr (fun i acc => (rd (c.buf t.buf) (t.base + (off + i))).toNat + 256 * acc) 0) =
      pack 8 (l.map fun i => (rd (c.buf t.buf) (t.base + (off + i))).toNat) := by
    have hbyte : 2 ^ 8 = 256 := by decide
    induction l with
    | nil => rfl
    | cons i l ih => rw [List.foldr_cons, ih, List.map_cons, pack, Nat.mod_eq_of_lt (BitVec.isLt _), hbyte]
  have hsrc : c.srcBytes e t off n = pack 8 ((List.range n).map fun i => (rd (c.buf t.buf) (t.base + (off + i))).toNat) := by
    rw [← hpack, Core.srcBytes]
    simp only [he, find_nil]
  rw [hsrc, slice_pack, getD_map_range hb, Nat.mod_eq_of_lt (BitVec.isLt _)]

/-- The shadow plane that MLDS leaves. -/
def mldsPlane (c : Core) (e : MatEntry) (i : Nat) (f : BitVec 4) : Plane :=
  let cb := rowBytes f false
  mkPlane f ((List.range 64).map fun n =>
    let b := matBlock f 32 (c.srcBytes e (c.tile i) (cb * n) cb)
    (b.scale, b.e))

theorem runMlds_eq (c : Core) (e : MatEntry) (i : Nat) (f : BitVec 4) : c.runMlds e i f = { c with ws := mldsPlane c e i f } := rfl

theorem runMat_mlds (c : Core) {e : MatEntry} {i : Nat} {f : BitVec 4} (he : e.cmd = .mlds i f) :
    c.runMat e = ({ c with ws := mldsPlane c e i f } : Core).releaseTile i := by simp only [Core.runMat, he, runMlds_eq]

section

variable (c : Core) (e : MatEntry) (i : Nat) (f : BitVec 4) {n : Nat} (hn : n < 64)

include hn

theorem mldsPlane_scale : (mldsPlane c e i f).sc n =
    if isMx f then c.srcBytes e (c.tile i) (rowBytes f false * n) (rowBytes f false) % 256 else 0 := by
  rw [mldsPlane, mkPlane_scale f _ hn]
  dsimp only
  rw [matBlock_scale]
  split
  · exact Nat.mod_mod _ _
  · rfl

theorem mldsPlane_elem (hf : planeFmt f = true) {k : Nat} (hk : k < 32) : (mldsPlane c e i f).at k n =
    slice (if isMx f then c.srcBytes e (c.tile i) (rowBytes f false * n) (rowBytes f false) / 256
      else c.srcBytes e (c.tile i) (rowBytes f false * n) (rowBytes f false)) (tagWidth f) k := by
  rw [mldsPlane, mkPlane_elem f _ hn hk]
  dsimp only
  rw [matBlock_elem f hk]
  exact Nat.mod_eq_of_lt (Nat.lt_of_lt_of_le (slice_lt ..) (Nat.pow_le_pow_right (by decide) (tagWidth_le hf)))

end

/-! MTRW (R162). -/

/-- The shadow plane that MTRW leaves. -/
def mtrwPlane (c : Core) (w : WReg) (f : BitVec 4) : Plane :=
  mkPlane f ((List.range 64).map fun n => ((c.trwCol w f n).1, (c.trwCol w f n).2.1))

/-- The flags of its columns. -/
def mtrwFlags (c : Core) (w : WReg) (f : BitVec 4) : Flags :=
  ((List.range 64).map fun n => c.trwCol w f n).foldl (fun a x => a ||| x.2.2) 0#5

theorem runMat_mtrw (c : Core) {e : MatEntry} {w : WReg} {f : BitVec 4} (he : e.cmd = .mtrw w f) :
    c.runMat e = Core.landVar { c with ws := mtrwPlane c w f } e.fid e.fw .none (mtrwFlags c w f) 0#4 := by
  simp only [Core.runMat, he, mtrwPlane, mtrwFlags, List.map_map]
  rfl

/-- The block of a column that MTRW quantises. -/
def trwBlock (c : Core) (w : WReg) (f : BitVec 4) (n : Nat) : MxBlock :=
  quantizeMx f ((List.range 32).map fun k => decodeFp fmtFP32 (drainWindow (c.cell w k n) fmtFP32).1)

theorem trwCol_scale (c : Core) (w : WReg) (f : BitVec 4) (n : Nat) :
    (c.trwCol w f n).1 = if isMx f then (trwBlock c w f n).scale else 0 := by
  unfold Core.trwCol
  split
  · dsimp only
    rw [trwBlock, List.map_map]
    rfl
  · split <;> rfl

theorem trwCol_elem (c : Core) (w : WReg) (f : BitVec 4) (n : Nat) {k : Nat} (hk : k < 32) : (c.trwCol w f n).2.1.getD k 0 =
    if isMx f then (trwBlock c w f n).e.getD k 0 else if f = 4#4 then (drainWindow (c.cell w k n) fmtBF16).1
      else codeOf 8 (clampI (signedOf 32 (drainInt32 (c.cell w k n)).1) (-128) 127) := by
  unfold Core.trwCol
  split
  · dsimp only
    rw [trwBlock, List.map_map]
    rfl
  · by_cases h4 : f = 4#4
    · rw [if_pos h4, if_pos (beq_iff_eq.2 h4)]
      dsimp only
      rw [List.map_map, getD_map_range hk, Function.comp_apply]
    · rw [if_neg h4, if_neg (by simpa using h4)]
      dsimp only
      rw [List.map_map, getD_map_range hk, Function.comp_apply]

section

variable (c : Core) (w : WReg) (f : BitVec 4) {n : Nat} (hn : n < 64)

include hn

theorem mtrwPlane_scale : (mtrwPlane c w f).sc n = if isMx f then (trwBlock c w f n).scale % 256 else 0 := by
  rw [mtrwPlane, mkPlane_scale f _ hn, trwCol_scale]
  split <;> rfl

theorem mtrwPlane_elem {k : Nat} (hk : k < 32) : (mtrwPlane c w f).at k n =
    (if isMx f then (trwBlock c w f n).e.getD k 0 else if f = 4#4 then (drainWindow (c.cell w k n) fmtBF16).1
      else codeOf 8 (clampI (signedOf 32 (drainInt32 (c.cell w k n)).1) (-128) 127)) % 2 ^ 16 := by
  rw [mtrwPlane, mkPlane_elem f _ hn hk, trwCol_elem c w f n hk]

end

end Sys2Proof.Proofs
end

section
/-! O33, the drain: the bytes, the cells and the tile that MDRAIN leaves (06 R151, R152, R159; log 83). -/

namespace Sys2Proof.Proofs

open Sys2Proof.Machine Sys2Proof.Safety Sys2Proof.Laws

/-! Bytes written. -/

/-- A byte of a number written reads as that byte of the number. -/
theorem rd_wrN_inside {m : Memory} (hm : m.wf = true) (a x : Nat) {n b : Nat} (hb : b < n) :
    rd (wrN m a x n) (a + b) = BitVec.ofNat 8 (slice x 8 b) := by
  induction n generalizing m a x b with
  | zero => omega
  | succ n ih =>
    rw [wrN]
    cases b with
    | zero =>
      have hlow : BitVec.ofNat 8 (slice x 8 0) = BitVec.ofNat 8 x := BitVec.eq_of_toNat_eq (by simp [slice])
      rw [rd_wrN_outside (by omega), Nat.add_zero, rd_wr_self hm, hlow]
    | succ b =>
      have haddr : a + (b + 1) = a + 1 + b := by omega
      have hbyte : 2 ^ 8 = 256 := by decide
      rw [haddr, ih (wr_wf hm ..) _ _ (by omega), slice_succ, hbyte]

/-- A store of fewer than eight bytes clears no poison (07 R170; log 83). -/
theorem clearBad_of_short (c : Core) (b : BitVec 2) (a : Nat) {n : Nat} (hn : n < 8) : c.clearBad b [(a, n)] = c := by
  have hpart (w : Nat) :
      ((List.range 8).all fun i => [(a, n)].any fun r => decide (r.1 ≤ 8 * w + i) && decide (8 * w + i < r.1 + r.2)) = false := by
    rw [List.all_eq_false]
    by_cases h : a ≤ 8 * w
    · exact ⟨7, by simp, by simp; omega⟩
    · exact ⟨0, by simp, by simp; omega⟩
  simp only [Core.clearBad, hpart, Bool.and_false, Bool.not_false]
  exact congrArg (fun l => { c with badWord := l }) (List.filter_eq_self.2 fun _ _ => rfl)

/-! The drained elements in the C buffer (R152). -/

/-- The buffer after those of some elements that are drained have been written, eb bytes each, from a base on. -/
def drainInto (base eb : Nat) (on : Nat → Bool) (code : Nat → Nat) (xs : List Nat) (m : Memory) : Memory :=
  xs.foldl (fun m x => if on x then wrN m (base + eb * x) (code x) eb else m) m

/-- Elements of eb bytes stand one behind the other. -/
theorem mul_add_le_mul (eb : Nat) {x y : Nat} (h : x < y) : eb * x + eb ≤ eb * y := Nat.mul_succ eb x ▸ Nat.mul_le_mul_left eb h

/-- Element x of a drain is written: it is one of the window's, in a selected row. -/
def drained (rows : W64) (x : Nat) : Bool := decide (x < 2048) && rows.getLsbD (x / 64)

/-- The code of element x. -/
def drainCode (c : Core) (w : WReg) (f : BitVec 4) (x : Nat) : Nat := (drainCell f (c.cell w (x / 64) (x % 64))).1

/-- The elements in line l of the C tile. -/
def lineElems (f : BitVec 4) (l : Nat) : List Nat := (List.range (64 / drainBytes f)).map fun j => 64 / drainBytes f * l + j

theorem drainBytes_cases (f : BitVec 4) : drainBytes f = 4 ∨ drainBytes f = 2 := by unfold drainBytes; split <;> simp

theorem mem_lineElems {f : BitVec 4} {l x : Nat} : x ∈ lineElems f l ↔ drainBytes f * x / 64 = l := by
  simp only [lineElems, List.mem_map, List.mem_range]
  rcases drainBytes_cases f with h | h <;> rw [h]
  · exact ⟨fun ⟨j, _, _⟩ => by omega, fun _ => ⟨x % 16, by omega, by omega⟩⟩
  · exact ⟨fun ⟨j, _, _⟩ => by omega, fun _ => ⟨x % 32, by omega, by omega⟩⟩

section

variable (base eb : Nat) (on : Nat → Bool) (code : Nat → Nat)

theorem drainInto_cons (x : Nat) (xs : List Nat) (m : Memory) : drainInto base eb on code (x :: xs) m =
    drainInto base eb on code xs (if on x then wrN m (base + eb * x) (code x) eb else m) := rfl

/-- Each listed element that is drained reads as its code, byte by byte; between the elements nothing has changed. -/
theorem rd_drainInto (xs : List Nat) {m : Memory} (hm : m.wf = true) (x : Nat) {b : Nat} (hb : b < eb) :
    rd (drainInto base eb on code xs m) (base + eb * x + b) =
      if x ∈ xs ∧ on x = true then BitVec.ofNat 8 (slice (code x) 8 b) else rd m (base + eb * x + b) := by
  induction xs generalizing m with
  | nil => simp [drainInto]
  | cons y t ih =>
    rw [drainInto_cons]
    by_cases hy : on y = true
    · rw [if_pos hy, ih (wrN_wf hm ..)]
      by_cases hxy : x = y
      · subst hxy
        rw [rd_wrN_inside hm _ _ hb]
        simp [hy]
      · have hapart : base + eb * x + b < base + eb * y ∨ base + eb * y + eb ≤ base + eb * x + b := by
          rcases Nat.lt_or_gt_of_ne hxy with h | h <;> have := mul_add_le_mul eb h <;> omega
        rw [rd_wrN_outside hapart]
        simp [hxy]
    · rw [if_neg hy, ih hm]
      by_cases hxy : x = y
      · subst hxy; simp [hy]
      · simp [hxy]

theorem rd_drainInto_outside {n : Nat} (hon : ∀ x, on x = true → x < n) (xs : List Nat) (m : Memory) {a : Nat}
    (ha : a < base ∨ base + n * eb ≤ a) : rd (drainInto base eb on code xs m) a = rd m a := by
  induction xs generalizing m with
  | nil => rfl
  | cons y t ih =>
    rw [drainInto_cons, ih]
    split
    next hy =>
      have := mul_add_le_mul eb (hon y hy)
      rw [Nat.mul_comm eb n] at this
      exact rd_wrN_outside (by omega) ..
    next => rfl

end

/-! The tile under a drain. -/

theorem insert_insert {α : Type} (k : Nat) (x y : α) (m : Map α) : Machine.insert k x (Machine.insert k y m) = Machine.insert k x m := by
  induction m with
  | nil => simp [Machine.insert]
  | cons p t ih =>
    obtain ⟨j, z⟩ := p
    simp only [Machine.insert]
    split
    · simp [Machine.insert]
    · split
      · simp [Machine.insert]
      · simp [Machine.insert, *]

theorem setTile_setTile (c : Core) (i : Nat) {t u : Tile} (ht : t ≠ {}) (hu : u ≠ {}) : (c.setTile i t).setTile i u = c.setTile i u := by
  simp [Core.setTile, put, ht, hu, insert_insert]

/-- A core whose C buffer is m and whose tile i is u. -/
def draining (c : Core) (i : Nat) (u : Tile) (m : Memory) : Core := { c.setTile i u with bufC := m }

/-- A tile that fills, or is READY, is not the EMPTY one. -/
theorem tile_ne_empty {t : Tile} (h : t.state ≠ .empty) : t ≠ {} := fun e => h (congrArg Tile.state e)

section

variable {c : Core} {i : Nat} {u : Tile} {m : Memory}

theorem tile_draining (hu : u.state ≠ .empty) : (draining c i u m).tile i = u := tile_setTile_self (tile_ne_empty hu) i

theorem tile_draining_of_ne {k : Nat} (h : k ≠ i) : (draining c i u m).tile k = c.tile k := tile_setTile_of_ne h c u

theorem setTile_draining (hu : u.state ≠ .empty) {v : Tile} (hv : v.state ≠ .empty) : (draining c i u m).setTile i v = draining c i v m :=
  congrArg (fun d : Core => { d with bufC := m }) (setTile_setTile c i (tile_ne_empty hu) (tile_ne_empty hv))

theorem withWindows_tile (ws : Map WCell) (k : Nat) : (withWindows c ws).tile k = c.tile k := rfl

theorem withWindows_draining_bufC (ws : Map WCell) : (withWindows (draining c i u m) ws).bufC = m := rfl

/-- Its C buffer, its windows and its tile table are all that differs. -/
theorem withWindows_draining_eq (ws : Map WCell) : withWindows (draining c i u m) ws = { c with
    bufC := (withWindows (draining c i u m) ws).bufC, windows := (withWindows (draining c i u m) ws).windows
    tiles := (withWindows (draining c i u m) ws).tiles } := by dsimp only [withWindows, draining, Core.setTile]

theorem store_draining (a x : Nat) {n : Nat} (hn : n < 8) : (draining c i u m).store 2#2 a x n = draining c i u (wrN m a x n) :=
  clearBad_of_short _ _ _ hn

/-- One line of a drain. -/
theorem drainLine_draining (hu : u.state ≠ .empty) (w : WReg) (rows : W64) (f : BitVec 4) (l : Nat) :
    (draining c i u m).drainLine i w rows f l = draining c i { u with fill := u.fill ||| (1#1024 <<< l) }
      (drainInto u.base (drainBytes f) (drained rows) (drainCode c w f) (lineElems f l) m) := by
  have hshort : drainBytes f < 8 := by rcases drainBytes_cases f with h | h <;> omega
  have hfold (js : List Nat) (m : Memory) : (js.foldl (fun d j =>
        let x := 64 / drainBytes f * l + j
        if x < 2048 && rows.getLsbD (x / 64) then
          d.store 2#2 (u.base + drainBytes f * x) (drainCell f (d.cell w (x / 64) (x % 64))).1 (drainBytes f) else d) (draining c i u m)) =
      draining c i u (drainInto u.base (drainBytes f) (drained rows) (drainCode c w f) (js.map fun j => 64 / drainBytes f * l + j) m) := by
    induction js generalizing m with
    | nil => rfl
    | cons j t ih =>
      rw [List.foldl_cons, List.map_cons, drainInto_cons, ← ih]
      dsimp only
      rw [← drained]
      split
      · rw [store_draining _ _ hshort]; rfl
      · rfl
  unfold Core.drainLine
  rw [tile_draining hu]
  dsimp only
  rw [hfold, tile_draining hu]
  exact setTile_draining hu (v := { u with fill := u.fill ||| (1#1024 <<< l) }) hu

/-- Lines of a drain, one after the other: the buffer holds their elements; of the tile the fill bits alone change. -/
theorem foldl_drainLine (w : WReg) (rows : W64) (f : BitVec 4) (ls : List Nat) (hu : u.state ≠ .empty) (m : Memory) :
    ∃ fill, ls.foldl (fun d l => d.drainLine i w rows f l) (draining c i u m) = draining c i { u with fill := fill }
      (drainInto u.base (drainBytes f) (drained rows) (drainCode c w f) (ls.flatMap (lineElems f)) m) := by
  induction ls generalizing u m with
  | nil => exact ⟨u.fill, rfl⟩
  | cons l t ih =>
    obtain ⟨fill, h⟩ := ih (u := { u with fill := u.fill ||| (1#1024 <<< l) }) hu
      (drainInto u.base (drainBytes f) (drained rows) (drainCode c w f) (lineElems f l) m)
    refine ⟨fill, ?_⟩
    rw [List.foldl_cons, drainLine_draining hu, h, List.flatMap_cons, drainInto, drainInto, drainInto, List.foldl_append]
    rfl

end

/-! MDRAIN at its completion (R152, R159). -/

/-- The tile that a drain leaves. -/
def drainedTile (t : Tile) : Tile := { t with state := .ready, pf := false, fill := fillAll t.nl, filler := .none, holds := 0#5 }

/-- A tile that no command holds. -/
def unheld (t : Tile) : Tile := { t with holds := 0#5 }

/-- The lines of a tile that are still to be written. -/
def openLines (t : Tile) : List Nat := (List.range t.nl).filter fun l => !t.fill.getLsbD l

/-- The buffer that a drain leaves. -/
def drainedBuf (c : Core) (i : Nat) (w : WReg) (rows : W64) (f : BitVec 4) : Memory :=
  drainInto (c.tile i).base (drainBytes f) (drained rows) (drainCode c w f) ((openLines (c.tile i)).flatMap (lineElems f)) c.bufC

/-- The core that a drain leaves, its flags and counts apart. -/
def drainedCore (c : Core) (i : Nat) (w : WReg) (zero : Bool) (rows : W64) (f : BitVec 4) : Core :=
  withWindows (draining c i (drainedTile (c.tile i)) (drainedBuf c i w rows f))
    (if zero then mapCells w (fun _ _ => {}) (cellsOf rows) c.windows else c.windows)

/-- The increments of EXPHIST (R159). -/
def drainCounts (f : BitVec 4) (hist : Bool) (rs : List (Nat × Flags)) : List Nat :=
  let bins := rs.filterMap fun r => expBin (drainValue f r.1)
  if hist then (List.range 32).map fun b => bins.countP (· == b) else []

section

variable {c : Core} {i : Nat} (hstate : (c.tile i).state = .filling) (hholds : (c.tile i).holds = 1#5)

include hstate hholds

/-- A filling tile that one command holds is let go. -/
theorem releaseTile_filling : c.releaseTile i = draining c i (unheld (c.tile i)) c.bufC := by
  have hlast : { c.tile i with holds := (c.tile i).holds - 1#5 } = unheld (c.tile i) := by rw [hholds]; rfl
  have hrel : Tile.released (unheld (c.tile i)) = unheld (c.tile i) := by simp [Tile.released, unheld, hstate]
  have hskip : ((c.tile i).state == .empty || (c.tile i).holds == 0#5) = false := by simp [hstate, hholds]
  simp only [Core.releaseTile, hskip, hlast, hrel]
  rfl

theorem runMdrain_eq (hdying : (c.tile i).dying = false) (e : MatEntry) (w : WReg) (hist zero : Bool) (rows : W64) (f : BitVec 4) :
    (c.releaseTile i).runMdrain e i w hist zero rows f = (drainedCore c i w zero rows f).landHist e.fid e.fw .none
      ((c.drainAll w rows f).foldl (fun a r => a ||| r.2) 0#5) (drainCounts f hist (c.drainAll w rows f)) 0#4 := by
  have hu : (unheld (c.tile i)).state ≠ .empty := by simp [unheld, hstate]
  obtain ⟨fill, hlines⟩ := foldl_drainLine (c := c) (i := i) w rows f (openLines (c.tile i)) hu c.bufC
  have hopen : ((List.range (unheld (c.tile i)).nl).filter fun l => !(unheld (c.tile i)).fill.getLsbD l) = openLines (c.tile i) := rfl
  have hready : Tile.toReady { unheld (c.tile i) with fill := fill } = drainedTile (c.tile i) := by
    simp [Tile.toReady, unheld, hdying, drainedTile, Tile.nl]
  have hall : (draining c i (unheld (c.tile i)) c.bufC).drainAll w rows f = c.drainAll w rows f := rfl
  rw [releaseTile_filling hstate hholds]
  unfold Core.runMdrain
  rw [tile_draining hu, hall]
  dsimp only
  rw [hopen, hlines, tile_draining (u := { unheld (c.tile i) with fill := fill }) hu, hready]
  rw [setTile_draining (u := { unheld (c.tile i) with fill := fill }) hu (v := drainedTile (c.tile i)) nofun]
  cases zero with
  | false => rfl
  | true => rw [if_pos rfl, runMzero_eq]; rfl

theorem runMat_mdrain (hdying : (c.tile i).dying = false) {e : MatEntry} {w : WReg} {hist zero : Bool} {rows : W64} {f : BitVec 4}
    (he : e.cmd = .mdrain i w hist zero rows f) : c.runMat e = (drainedCore c i w zero rows f).landHist e.fid e.fw .none
      ((c.drainAll w rows f).foldl (fun a r => a ||| r.2) 0#5) (drainCounts f hist (c.drainAll w rows f)) 0#4 := by
  simp only [Core.runMat, he, runMdrain_eq hstate hholds hdying]

end

section

variable (c : Core) (i : Nat) (w : WReg) (zero : Bool) (rows : W64) (f : BitVec 4)

/-- A drain changes the C buffer, the windows and the tile table of a core, and nothing else. -/
theorem drainedCore_eq : drainedCore c i w zero rows f = { c with
    bufC := (drainedCore c i w zero rows f).bufC, windows := (drainedCore c i w zero rows f).windows
    tiles := (drainedCore c i w zero rows f).tiles } := withWindows_draining_eq ..

theorem drainedCore_bufC : (drainedCore c i w zero rows f).bufC = drainedBuf c i w rows f := withWindows_draining_bufC ..

theorem drainedCore_tile : (drainedCore c i w zero rows f).tile i = drainedTile (c.tile i) := by
  rw [drainedCore, withWindows_tile, tile_draining (u := drainedTile (c.tile i)) nofun]

theorem drainedCore_tile_of_ne {k : Nat} (h : k ≠ i) : (drainedCore c i w zero rows f).tile k = c.tile k := by
  rw [drainedCore, withWindows_tile, tile_draining_of_ne h]

theorem drainedCore_cell (hs : sortedFrom 0 c.windows = true) (v : WReg) {r n : Nat} (hr : r < 32) (hn : n < 64) :
    (drainedCore c i w zero rows f).cell v r n = if zero = true ∧ v = w ∧ rows.getLsbD r = true then {} else c.cell v r n := by
  have hzero := cell_mapCells_rows hs w (fun _ _ => {}) rows v hr hn
  rw [cell_withWindows] at hzero
  rw [drainedCore, cell_withWindows]
  cases zero with
  | false => simp [cell_eq]
  | true => simpa using hzero

/-- Where the tile has room for the drain, the elements still to be written are those whose line's fill bit is clear. -/
theorem mem_openElems {t : Tile} (hsize : 2048 * drainBytes f ≤ t.size) {x : Nat} (hx : x < 2048) :
    x ∈ (openLines t).flatMap (lineElems f) ↔ t.fill.getLsbD (drainBytes f * x / 64) = false := by
  have hline : drainBytes f * x / 64 < t.nl := by
    unfold Tile.size at hsize
    unfold Tile.nl
    rcases drainBytes_cases f with h | h <;> rw [h] at hsize ⊢ <;> omega
  simp only [List.mem_flatMap, mem_lineElems, openLines, List.mem_filter, List.mem_range, Bool.not_eq_true']
  exact ⟨fun ⟨l, ⟨_, hl⟩, he⟩ => he ▸ hl, fun h => ⟨_, ⟨hline, h⟩, rfl⟩⟩

theorem rd_drainedCore (hw : BuffersWf c) (hsize : 2048 * drainBytes f ≤ (c.tile i).size) {x b : Nat} (hx : x < 2048) (hb : b < drainBytes f) :
    rd (drainedCore c i w zero rows f).bufC ((c.tile i).base + drainBytes f * x + b) =
      if rows.getLsbD (x / 64) = true ∧ (c.tile i).fill.getLsbD (drainBytes f * x / 64) = false then
        BitVec.ofNat 8 (slice (drainCell f (c.cell w (x / 64) (x % 64))).1 8 b)
      else rd c.bufC ((c.tile i).base + drainBytes f * x + b) := by
  have hread := rd_drainInto (c.tile i).base (drainBytes f) (drained rows) (drainCode c w f) ((openLines (c.tile i)).flatMap (lineElems f))
    hw.2.2 x hb
  have hdrained : drained rows x = rows.getLsbD (x / 64) := by simp [drained, hx]
  rw [drainedCore_bufC, drainedBuf, hread]
  simp only [mem_openElems f hsize hx, hdrained, drainCode, and_comm]

theorem rd_drainedCore_outside {a : Nat} (ha : a < (c.tile i).base ∨ (c.tile i).base + 2048 * drainBytes f ≤ a) :
    rd (drainedCore c i w zero rows f).bufC a = rd c.bufC a := by
  have hbound (x : Nat) (hx : drained rows x = true) : x < 2048 := of_decide_eq_true (Bool.and_eq_true_iff.1 hx).1
  rw [drainedCore_bufC, drainedBuf, rd_drainInto_outside _ _ _ _ hbound _ _ ha]

end

/-! The queue (R150, R164). -/

section

variable {s : State} {j : Nat} {e : MatEntry} (hj : inp s 0 = j) (he : s.core.matq[j]? = some e)

include hj he

theorem matrixCmdStart_eq (h : s.core.matCanStart j e = true) : exec .matrixCmdStart s = .next (s.onCore fun x => { x with
    matq := setAt x.matq j { e with started := true }, matIdle := match e.cmd with | .mma .. => 0 | _ => x.matIdle }) := by
  subst hj
  refine next_congr ?_
  rw [he]
  dsimp only
  rw [if_pos h]
  cases e.cmd <;> rfl

/-- A started command takes effect; MWAIT does once it is the first of the queue. -/
theorem matrixCmdComplete_eq (hs : e.started = true) (hwait : j = 0 ∨ ∀ t, e.cmd ≠ .mwait t) :
    exec .matrixCmdComplete s = .next { s with core := Core.runMat { s.core with matq := dropAt s.core.matq j } e } := by
  subst hj
  have hready : (e.started && match e.cmd with | .mwait _ => inp s 0 == 0 | _ => true) = true := by
    rw [hs, Bool.true_and]
    cases hc : e.cmd with
    | mwait t => exact beq_iff_eq.2 (hwait.resolve_right fun h => h t hc)
    | _ => rfl
  refine next_congr ?_
  rw [he]
  exact if_pos hready

end

/-- Settles O33: each command's effect on the core that its entry has left. -/
theorem matrixCommandsComplete : Obligations.MatrixCommandsComplete := by
  unfold Obligations.MatrixCommandsComplete
  intro s j e hj he c
  refine ⟨matrixCmdStart_eq hj he, fun hs => ?_⟩
  have complete {x : MatCmd} {d : Core} (hx : e.cmd = x) (hw : ∀ t, x ≠ .mwait t) (hd : c.runMat e = d) :
      exec .matrixCmdComplete s = .next { s with core := d } := hd ▸ matrixCmdComplete_eq hj he hs (.inr (hx ▸ hw))
  refine ⟨matrixCmdComplete_eq hj he hs, ?mswap, ?mmode, ?mzero, ?mma, ?mlds, ?mwrv, ?mtrw, ?mdrain⟩
  case mswap => exact fun hx => complete hx nofun (by rw [Core.runMat, hx])
  case mmode => exact fun x hx => complete hx nofun (by rw [Core.runMat, hx])
  case mzero =>
    intro w rows hx hsort
    exact ⟨_, complete hx nofun (runMat_mzero c hx), rfl, fun v r n hr hn => cell_mapCells_rows (c := c) hsort w _ rows v hr hn⟩
  case mma =>
    intro w i rows sp hx hsort fa pl row ks
    refine ⟨_, complete hx nofun (runMat_mma c hx), fun v r n hr hn => ?_⟩
    refine (cell_mapCells_rows (c := c) hsort w (mmaCell c e i sp) rows v hr hn).trans ?_
    by_cases hsel : v = w ∧ rows.getLsbD r = true
    · rw [if_pos hsel, if_pos hsel, hsel.1]
      rfl
    · rw [if_neg hsel, if_neg hsel]
      rfl
  case mlds =>
    intro i f hx hf t cb
    refine ⟨mldsPlane c e i f, complete hx nofun (runMat_mlds c hx), rfl, fun n hn => ⟨?_, fun k hk => ?_, fun hsnap b hb => ?_⟩⟩
    · exact mldsPlane_scale c e i f hn
    · exact mldsPlane_elem c e i f hn hf hk
    · exact slice_srcBytes hsnap s.core t _ hb
  case mwrv =>
    intro w q k m x hx hq hsort
    refine ⟨_, complete hx nofun (runMat_mwrv c hx), fun v r n hr hn => ?_⟩
    refine (cell_mapCells_row (c := c) hsort w (fun p _ => cellOf m x p.2) hq k v hr hn).trans ?_
    rw [cellOf_eq]
    rfl
  case mtrw =>
    intro w f hx dr mx whole
    refine ⟨mtrwPlane c w f, mtrwFlags c w f, complete hx nofun (runMat_mtrw c hx), rfl, fun n hn => ⟨?_, fun k hk => ?_⟩⟩
    · exact mtrwPlane_scale c w f hn
    · exact mtrwPlane_elem c w f hn hk
  case mdrain =>
    intro i w hist zero rows f hx hw hsort t eb rs fl bins inc hstate _ hdying hholds hsize
    have hrun := runMat_mdrain (c := c) (i := i) hstate hholds hdying hx
    refine ⟨drainedCore c i w zero rows f, drainedCore_eq .., complete hx nofun hrun, drainedCore_tile .., fun k hk => ?_,
      fun x b hx hb => ?_, fun a ha => ?_, fun v r n hr hn => ?_⟩
    · exact drainedCore_tile_of_ne c i w zero rows f hk
    · exact rd_drainedCore c i w zero rows f hw hsize hx hb
    · exact rd_drainedCore_outside c i w zero rows f ha
    · exact drainedCore_cell c i w zero rows f hsort v hr hn

end Sys2Proof.Proofs
end

section
/-! O44: the scheduling instructions, FEND and YIELD (12 R310 to R315, 13 R327 to R342). -/

namespace Sys2Proof.Proofs

open Sys2Proof.Machine Sys2Proof.Safety Sys2Proof.Laws

/-! What firmware may not issue (14 R357). -/

theorem notFirmware_passes {s : State} (hf : s.core.fwm = false) : ∀ c ∈ [notFirmware s], c.bad = false := List.forall_mem_singleton.2 hf

theorem guarded_of_notFirmware {s : State} (hc : s.issue.commit = false) (hf : s.core.fwm = true) (cs : List Check) (eff : State → State) :
    guarded (notFirmware s :: cs) eff s = raise .illegalOp s := guarded_of_first hc (c := notFirmware s) hf rfl eff

/-- What makes, ranks or ends firings, or arrives at a barrier, is illegal in firmware. -/
theorem scheduling_faults_of_firmware {s : State} (hf : s.core.fwm = true) (hc : s.issue.commit = false) (a b : Reg) (m : BitVec 4) :
    exec (.spawn a) s = .next (raise .illegalOp s) ∧ exec (.launchr a b m) s = .next (raise .illegalOp s) ∧
      exec (.bar a b m) s = .next (raise .illegalOp s) ∧ exec (.prio a) s = .next (raise .illegalOp s) ∧
      exec .fend s = .next (raise .illegalOp s) ∧ exec .yield s = .next (raise .illegalOp s) := by
  have fault := guarded_of_notFirmware hc hf
  exact ⟨next_congr (fault ..), next_congr (fault ..), next_congr (fault ..), next_congr (fault ..), next_congr (fault ..), next_congr (fault ..)⟩

/-! Creation (12 R312 to R314, 01 R26). -/

/-- The running stream may create: a firing of ordinal 0 that has created none. -/
def mayCreate (s : State) : Prop := s.core.fwm = false ∧ fidOrd s.core.regs.fireid = 0#24 ∧ s.core.regs.created = false

/-- The core once its firing has created. -/
def created (c : Core) : Core := { c with regs := { c.regs with created := true } }

/-- The core with its names in frame i. -/
def named (c : Core) (i : Nat) : Core := { created c with nframes := insert i (c.regs.n.toList.extract 1 9) c.nframes }

/-- The ready entry of a firing's n children, their names in frame i. -/
def childEntry (c : Core) (n i : Nat) : Ready :=
  { kind := .spawn, slot := c.slot, prio := c.regs.prio, rdyseq := 0#32, nleft := BitVec.ofNat 24 n, nfr := BitVec.ofNat 6 i
    fid := fidTask c.regs.fireid ++ fidGen c.regs.fireid ++ 1#24 }

/-- The core with n children made. -/
def spawned (c : Core) (n i : Nat) : Core := Core.addReady (named c i) (childEntry c n i)

section

variable {s : State}

theorem createChecks_pass (h : mayCreate s) : ∀ c ∈ notFirmware s :: createChecks s.core, c.bad = false := by
  obtain ⟨hf, ho, hm⟩ := h
  refine List.forall_mem_cons.2 ⟨hf, List.forall_mem_cons.2 ⟨?_, List.forall_mem_singleton.2 hm⟩⟩
  exact bne_eq_false_iff_eq.2 ho

/-- The checks of a creation pass where its firing may create and its own checks pass. -/
theorem guarded_of_creation (h : mayCreate s) {cs : List Check} (hcs : ∀ c ∈ cs, c.bad = false) (eff : State → State) :
    guarded (notFirmware s :: createChecks s.core ++ cs) eff s = eff s :=
  guarded_of_ok (List.forall_mem_append.2 ⟨createChecks_pass h, hcs⟩) eff s

/-- A firing that may not create has LAUNCH_RECORD. -/
theorem guarded_of_no_creation (hf : s.core.fwm = false) (h : ¬mayCreate s) (hc : s.issue.commit = false) (cs : List Check)
    (eff : State → State) : guarded (notFirmware s :: createChecks s.core ++ cs) eff s = raise .launchRecord s := by
  by_cases ho : fidOrd s.core.regs.fireid = 0#24
  · have hm : s.core.regs.created = true := eq_true_of_ne_false fun hm => h ⟨hf, ho, hm⟩
    have hbad : firstBad (notFirmware s :: createChecks s.core ++ cs) = some { bad := s.core.regs.created, cause := .launchRecord } := by
      simp [firstBad, notFirmware, createChecks, hf, ho, hm]
    exact guarded_of_bad hc hbad eff
  · have hbad : firstBad (notFirmware s :: createChecks s.core ++ cs) =
        some { bad := fidOrd s.core.regs.fireid != 0#24, cause := .launchRecord } := by
      simp [firstBad, notFirmware, createChecks, hf, ho]
    exact guarded_of_bad hc hbad eff

theorem creation_faults (hf : s.core.fwm = false) (h : ¬mayCreate s) (hc : s.issue.commit = false) (a b : Reg) (m : BitVec 4) :
    exec (.spawn a) s = .next (raise .launchRecord s) ∧ exec (.launchr a b m) s = .next (raise .launchRecord s) :=
  ⟨next_congr (guarded_of_no_creation hf h hc ..), next_congr (guarded_of_no_creation hf h hc ..)⟩

theorem spawn_none (h : mayCreate s) {a : Reg} (hn : (sreg s a).toNat = 0) : exec (.spawn a) s = .next { s with core := created s.core } := by
  refine next_congr ((guarded_of_creation h ?_ _).trans ?_)
  · simp [hn, Core.childClash]
  · simp only [hn, if_true]
    rfl

theorem spawn_children (h : mayCreate s) {a : Reg} {i : Nat} (h1 : 1 ≤ (sreg s a).toNat) (hmax : (sreg s a).toNat ≤ 0xFFFFFF)
    (hclash : s.core.childClash (sreg s a).toNat = false) (hpool : s.core.poolUsed < 192) (hframe : s.core.freeNameFrame = some i) :
    exec (.spawn a) s = .next { s with core := spawned s.core (sreg s a).toNat i } := by
  have hframe' : (created s.core).freeNameFrame = some i := hframe
  refine next_congr ((guarded_of_creation h ?_ _).trans ?_)
  · simp [hclash, hframe]
    omega
  · change { s with
      core := if (sreg s a).toNat = 0 then created s.core else spawned s.core (sreg s a).toNat ((created s.core).freeNameFrame.getD 0) } = _
    rw [if_neg (Nat.ne_of_gt h1), hframe', Option.getD_some]

theorem launchr_enters (h : mayCreate s) {a b : Reg} (hal : (sreg s a).toNat % 32 = 0) (h0 : sreg s b ≠ 0#64)
    (hend : (sreg s a).toNat + 32 * (sreg s b).toNat ≤ 0xC0000) (m : BitVec 4) :
    exec (.launchr a b m) s = .next (addOp { kind := .launchr (sreg s a) (sreg s b), tc := m, data := s.core.regs.prio.toNat }
      { s with core := created s.core }) := by
  refine next_congr (guarded_of_creation h ?_ _)
  have hsize : bufSize 1#2 = 0xC0000 := rfl
  simp [hal, h0, hsize, hend]

end

/-! Token counters (13 R327, R328). -/

section

variable {s : State} {a : Reg} {m : BitVec 4}

theorem addTc_of_ne (hm : m ≠ 0#4) (c : Core) (d : Int) : c.addTc m d = { c with tcd := c.tcd ++ [(m.toNat, d)] } := if_neg hm

theorem tcadd_adds (hm : m ≠ 0#4) (a : Reg) : exec (.tcadd a m) s =
    .next { s with core := { s.core with tcd := s.core.tcd ++ [(m.toNat, ((sreg s a).extractLsb' 0 17).toInt)] } } := by
  refine next_congr ((guarded_of_ok (List.forall_mem_nil _) _ _).trans ?_)
  rw [State.onCore, addTc_of_ne hm]

/-- TCWAIT waits while its counter holds less than it takes and the header's WAIT. -/
theorem tcwait_eq (s : State) (a : Reg) (m : BitVec 4) : exec (.tcwait a m) s =
    let w := ((sreg s a).extractLsb' 0 16).toNat
    .next (waitFor (w != 0 && decide ((s.core.tc m).toNat < w + if s.issue.wait = m then 1 else 0)) 0
      (fun s => s.onCore fun c => c.addTc m (-(w : Int))) s) := next_congr (guarded_of_ok (List.forall_mem_nil _) _ _)

theorem tcwait_takes (h : ((sreg s a).extractLsb' 0 16).toNat + (if s.issue.wait = m then 1 else 0) ≤ (s.core.tc m).toNat) (hm : m ≠ 0#4) :
    exec (.tcwait a m) s = .next { s with core := { s.core with
      tcd := s.core.tcd ++ [(m.toNat, -(((sreg s a).extractLsb' 0 16).toNat : Int))] } } := by
  rw [tcwait_eq]
  simp only [Nat.not_lt.2 h, decide_false, Bool.and_false, waitFor_false, State.onCore, addTc_of_ne hm]

theorem tcwait_held (h0 : ((sreg s a).extractLsb' 0 16).toNat ≠ 0) (h : (s.core.tc m).toNat < ((sreg s a).extractLsb' 0 16).toNat)
    (hc : s.issue.commit = false) : exec (.tcwait a m) s = .next (hold 0 s) := by
  rw [tcwait_eq]
  have hheld : decide ((s.core.tc m).toNat < ((sreg s a).extractLsb' 0 16).toNat + if s.issue.wait = m then 1 else 0) = true :=
    decide_eq_true (Nat.lt_add_right _ h)
  refine next_congr (if_pos ?_)
  rw [hheld, hc, bne_iff_ne.2 h0]
  rfl

end

/-! Barriers (13 R329 to R334). -/

/-- The core with an arrival more counted for its task at a scope. -/
def arrivedOnce (x : Nat) (c : Core) : Core :=
  let ts := c.slots[c.slot.toNat]'c.slot.isLt
  { c with slots := c.slots.set c.slot.toNat { ts with arr := ts.arr.set (scopeIx x).val (c.arrOf x + 1#32) (scopeIx x).isLt } c.slot.isLt }

theorem arrivedOnce_arrOf (x : Nat) (c : Core) : (arrivedOnce x c).arrOf x = c.arrOf x + 1#32 := by
  simp [arrivedOnce, Core.arrOf]

section

variable {s : State} (hf : s.core.fwm = false) {a : Reg}

include hf

theorem bar_arrives (hx : (s.core.arrOf a.toNat - s.core.instOf a.toNat).toInt < 2) (b : Reg) (m : BitVec 4) : exec (.bar a b m) s = .next (
    let t := s.onCore (arrivedOnce a.toNat)
    let arr := s.core.arrOf a.toNat + 1#32
    if a.toNat = 0 ∧ b ≠ 1#5 then t.onCore fun c => { c with
      arrivals := c.arrivals ++ [⟨c.regs.fireid, 0, arr, m, false, true, c.nextSer, c.cycle⟩] }
    else addOp { kind := .bar a.toNat (b == 1#5) arr, tc := m, scope := a.toNat } t) := by
  refine next_congr ((guarded_of_ok (notFirmware_passes hf) _ _).trans ?_)
  rw [decide_eq_false (Int.not_le.2 hx)]
  rfl

theorem bar_held (hx : 2 ≤ (s.core.arrOf a.toNat - s.core.instOf a.toNat).toInt) (b : Reg) (m : BitVec 4) :
    exec (.bar a b m) s = .next (hold 4 s) := by
  refine next_congr ((guarded_of_ok (notFirmware_passes hf) _ _).trans ?_)
  rw [decide_eq_true hx]
  rfl

end

/-- BARRD gives the copy of INST and the count of arrivals, at .ln the count twice. -/
theorem barrd_lands {s : State} {d : Reg} (h : unclaimed 1 (.s d 0#64) s) (a : Reg) :
    let arr := match s.issue.arr0 with | some l => l[scopeIx a.toNat] | none => s.core.arrOf a.toNat
    exec (.barrd d a) s = lands 1 (.s d ((if a = 0#5 then arr else s.issued.core.instOf a.toNat) ++ arr)) s := by
  refine writeS_lands h ?_
  have hzero : a.toNat = 0 ↔ a = 0#5 := BitVec.toNat_inj (y := 0#5)
  exact congrArg (· ++ _) (ite_congr (propext hzero) (fun _ => rfl) fun _ => rfl)

/-! The end of a firing's turn (12 R310, R311). -/

section

variable {s : State} (hc : s.issue.commit = true)

include hc

/-- FEND owes no stall and stays at its bundle. -/
theorem fend_waits : exec .fend s = .next ((closeStraight { s with issue := { s.issue with stall := 0#4 } }).onCore fun c =>
    { c with ending := .fend, stallrem := 0, regs := { c.regs with pc := s.core.regs.pc } }) := by
  change Host.Outcome.next (guarded _ _ s) = _
  rw [guarded_commit hc, if_pos hc]

theorem yield_closes : exec .yield s = .next (if yieldSwitches s.core then
      (closeStraight s).onCore fun c => { c with ending := .yield, stallrem := 0 }
    else closeStepped s) := by
  change Host.Outcome.next (guarded _ _ s) = _
  rw [guarded_commit hc, if_pos hc]

end

/-- Settles O44: creations, counters and barriers by what each does past its checks, FEND and YIELD by how they close, and the checks themselves. -/
theorem schedulingInstructionResults : Obligations.SchedulingInstructionResults := by
  unfold Obligations.SchedulingInstructionResults
  intro s d a b m x n made named child mayCreate arr inst w arr0 ended goes
  refine ⟨fun h => ⟨spawn_none h, fun i h1 hmax => spawn_children h h1 hmax, fun hal h0 hend => launchr_enters h hal h0 hend m⟩,
    fun h hf hc => creation_faults hf h hc a b m, fun hm => tcadd_adds hm a, tcwait_takes, tcwait_held,
    fun h => ⟨writeS_lands h rfl, barrd_lands h a, writeS_lands h rfl⟩, fun hf hx => ?bar, fun hf hx => bar_held hf hx b m,
    next_congr (guarded_of_ok (List.forall_mem_nil _) _ _), fun hf => next_congr (guarded_of_ok (notFirmware_passes hf) _ _),
    fun hc => ⟨fend_waits hc, yield_closes hc⟩, fun hf hc => scheduling_faults_of_firmware hf hc a b m⟩
  case bar =>
    have hbar := bar_arrives hf hx b m
    refine ⟨s.onCore (arrivedOnce a.toNat), rfl, arrivedOnce_arrOf .., rfl, fun h => hbar.trans (next_congr (if_neg ?_)),
      fun h0 hb => hbar.trans (next_congr (if_pos ⟨congrArg BitVec.toNat h0, hb⟩))⟩
    rintro ⟨h0, hb⟩
    exact h.elim (fun h => h (BitVec.eq_of_toNat_eq h0)) hb

end Sys2Proof.Proofs
end

section
/-! O53: the events of edge blocks and links (12 R316, R317, 15 R391 to R400, 17 R447, R448). -/

namespace Sys2Proof.Proofs

open Sys2Proof.Machine Sys2Proof.Safety Sys2Proof.Laws

/-- The events of a block or a link fault above port 31 (log 24). -/
theorem not_beyond_ports {p : Nat} (h : p ≤ 31) : ¬31 < p := Nat.not_lt.2 h

/-! What the completion of a command leaves alone. -/

@[simp] theorem offer_blocks (s : State) (ret region src sel v : Nat) : (offer s ret region src sel v).blocks = s.blocks := by
  refine (foldl_keeps (g := State.blocks) (fun s u => ?_) ..).trans (setReticle_blocks ..)
  split
  · exact setCapture_blocks ..
  · rfl

@[simp] theorem refuseAtBorder_blocks (s : State) (reg a d : Nat) (n : Name) (cls : Nat) : (refuseAtBorder s reg a d n cls).blocks = s.blocks := by
  simp [refuseAtBorder, borderRefused, post]

@[simp] theorem cmdDone_blocks (s : State) (reg p : Nat) (k : EdgeCmd) : (cmdDone s reg p k).blocks = s.blocks := by
  unfold cmdDone
  split
  · rfl
  unfold answerCore
  dsimp only
  split
  · exact setCoreAt_blocks ..
  · exact refuseAtBorder_blocks ..

theorem block_of_blocks {s t : State} (h : t.blocks = s.blocks) (q : Nat) : t.block q = s.block q := by
  simp [State.block, h]

/-! An event of a block whose region runs. -/

/-- A block with a period on runs with its region (15 R375). -/
theorem runs_of_period {s : State} {reg : Nat} {b : Block} (ho : b.owner = some reg) (hr : (s.region reg).phase = .running)
    (hs : b.state = .running ∨ b.state = .draining) : b.runs s = true := by
  have hperiod : (b.state == .running || b.state == .draining) = true := by simp [hs]
  simp only [Block.runs, hperiod, ho, hr, beq_self_eq_true, Bool.and_self]

/-- The states in which a block has no period on. -/
theorem between_periods {b : Block} (hs : b.state = .idle ∨ b.state = .configured) : (b.state == .idle || b.state == .configured) = true := by
  simp [hs]

section Running

variable {s : State} {b : Block} {reg : Nat} (hp : inp s 0 ≤ 31) (hb : s.block (inp s 0) = b) (ho : b.owner = some reg)
  (hr : (s.region reg).phase = .running)

/-! The configuration (15 R391, R398). -/

/-- The state and the block once the lines that an ECFG_IMAGE_READ reads have come or failed. -/
def imageLines (reg : Nat) (va : W64) (s : State) (b : Block) : State × Block :=
  (planeLines s).foldl (readPlaneLine reg va.toNat) (s, b)

section Image

variable {k : EdgeCmd} {rest : List EdgeCmd} {va : W64} (hq : b.queue = k :: rest) (hk : k.cfg = some va)

include hp hb ho hr hq hk

section Read

variable (hs : b.shadow = none) (hm : b.malformed = false)

include hs hm

theorem ecfgImageRead_goes_on (hl : (imageLines reg va s b).2.loaded = false) :
    exec .ecfgImageRead s = .next ((imageLines reg va s b).1.setBlock (inp s 0) (imageLines reg va s b).2) := by
  change execEcfgImageRead s = _
  simp only [execEcfgImageRead, if_neg (not_beyond_ports hp), hb, ho, hq, hk, hs, hm, hr]
  exact next_congr (if_pos (congrArg (!·) hl))

theorem ecfgImageRead_checks (hl : (imageLines reg va s b).2.loaded = true) (hbad : (imageLines reg va s b).2.loadBad = []) :
    exec .ecfgImageRead s = .next ((imageLines reg va s b).1.setBlock (inp s 0)
      ((imageLines reg va s b).2.shadowed ((imageLines reg va s b).1.region reg).space)) := by
  have hlow : lowest (imageLines reg va s b).2.loadBad = none := congrArg lowest hbad
  have hlines : (planeLines s).foldl (readPlaneLine reg va.toNat) (s, b) = imageLines reg va s b := rfl
  change execEcfgImageRead s = _
  simp only [execEcfgImageRead, if_neg (not_beyond_ports hp), hb, ho, hq, hk, hs, hm, hr, hlines]
  generalize imageLines reg va s b = x at hl hlow
  obtain ⟨t, c⟩ := x
  simp only [hl, hlow]
  rfl

end Read

section Commit

variable (hs : b.state = .idle ∨ b.state = .configured) (hz : b.quiet = true)

include hs hz

theorem shadowCommit_commits {m : Memory} (hm : b.malformed = false) (hd : b.shadow = some m) :
    exec .shadowCommit s = .next (cmdDone (s.setBlock (inp s 0) { b with
      queue := rest, shadow := none, plane := some m, state := .configured, elems := [] }) reg (inp s 0) k) := by
  change execShadowCommit s = _
  simp only [execShadowCommit, if_neg (not_beyond_ports hp), hb, ho, hq, hk, hz, between_periods hs, hm, hd, hr]
  rfl

theorem shadowCommit_drops (hm : b.malformed = true) :
    exec .shadowCommit s = .next (cmdDone (s.setBlock (inp s 0) { b with
      queue := rest, malformed := false, plane := none, state := .idle, elems := [] }) reg (inp s 0) k) := by
  change execShadowCommit s = _
  simp only [execShadowCommit, if_neg (not_beyond_ports hp), hb, ho, hq, hk, hz, between_periods hs, hm, hr]
  rfl

end Commit

end Image

/-! Periods (15 R392 to R397). -/

/-- The block of a period that begins. -/
def periodBlock (b : Block) (k : EdgeCmd) (rest : List EdgeCmd) : Block :=
  { b with
    queue := rest, state := .running, gen := k.par.extractLsb' 0 24, ownerFid := k.fid, ownerCore := k.core, armedTo := 0
    perErr := 0#32, perDrop := 0#32, drained := false, waited := 0, elems := [], armed := [], tiles := [] }

section Start

variable {k : EdgeCmd} {rest : List EdgeCmd} (hq : b.queue = k :: rest) (hk : k.cfg = none) (hs : b.state = .configured)

include hp hb ho hr hq hk hs

theorem periodStart_starts {m : Memory} (hm : b.plane = some m) (h0 : k.par.extractLsb' 24 8 = 0#8) :
    exec .periodStart s = .next (s.setBlock (inp s 0) ((periodBlock b k rest).settle m)) := by
  change execPeriodStart s = _
  simp only [execPeriodStart, if_neg (not_beyond_ports hp), hb, periodBlock, ho, hq, hk, hs, hr, h0, hm]
  rfl

theorem periodStart_refuses (h0 : k.par.extractLsb' 24 8 ≠ 0#8) :
    exec .periodStart s = .next (s.setBlock (inp s 0) { b with
      queue := rest, errs := if b.errs = 0xFF#8 then b.errs else b.errs + 1#8 }) := by
  have hpar : (k.par.extractLsb' 24 8 == 0#8) = false := beq_false_of_ne h0
  change execPeriodStart s = _
  simp only [execPeriodStart, if_neg (not_beyond_ports hp), hb, ho, hq, hk, hs, hr, hpar]
  rfl

end Start

section Period

variable (hs : b.state = .running ∨ b.state = .draining)

include hp hb ho hr hs

theorem bindingArm_arms {m : Memory} {bind point : Nat} (hm : b.plane = some m) (ha : b.nextArm m = some (bind, point)) :
    exec .bindingArm s = .next (
      let n := pointName m (planeBind m bind) point b.gen
      let loc := entryRouter s reg (inp s 0)
      let v := listPoint reg (inp s 0) n s
      (v.1.setBlock (inp s 0)
          { b with armedTo := b.armedTo + 1, armed := b.armed ++ [{ bind := bind, point := point, name := n, listed := v.2 }] }).send
        { region := reg, loc := loc, src := loc, fid := BitVec.allOnes 64, gone := true, msg := .oneShot n (.block (inp s 0) bind point) none }) := by
  change execBindingArm s = _
  simp only [execBindingArm, if_neg (not_beyond_ports hp), hb, ho, hm, runs_of_period ho hr hs, ha]
  rfl

/-- The block once output k of an element has left it. -/
def outputTaken (b : Block) (e k : Nat) : Block := b.setElem e { b.elem e with out := dropAt (b.elem e).out k }

/-- The element once a token has come to its queue c. -/
def tokenQueued (x : Element) (c : Nat) (t : ETok) : Element :=
  { x with queues := Machine.insert c (x.queue c ++ [t]) x.queues, hs := Machine.insert c { x.state c with armed := true } x.hs }

section Arrival

variable {code d : Nat} {t : ETok} (he : inp s 1 ≤ 63) (hk : (b.elem (inp s 1)).out[inp s 2]? = some (code, t))
  (hf : (b.elem (inp s 1)).firstOut (inp s 2) code t.chan = true) (hd : destElem (inp s 1) code = some d)

include he hk hf hd

theorem elementTokenArrival_at_stopped : let b1 := outputTaken b (inp s 1) (inp s 2)
    (b1.elem d).halted = true → exec .elementTokenArrival s = .next (s.setBlock (inp s 0) (b1.drop 1)) := by
  have hin : ¬(31 < inp s 0 ∨ 63 < inp s 1) := by omega
  intro b1 hh
  change execElementTokenArrival s = _
  simp only [execElementTokenArrival, if_neg hin, hb, hk, hf, runs_of_period ho hr hs, hd]
  exact next_congr (if_pos hh)

theorem elementTokenArrival_queues : let b1 := outputTaken b (inp s 1) (inp s 2)
    (b1.elem d).halted = false → ((b1.elem d).queue t.chan.toNat).length < 2 →
      exec .elementTokenArrival s = .next (s.setBlock (inp s 0) (b1.setElem d (tokenQueued (b1.elem d) t.chan.toNat t))) := by
  have hin : ¬(31 < inp s 0 ∨ 63 < inp s 1) := by omega
  intro b1 hh hl
  change execElementTokenArrival s = _
  simp only [execElementTokenArrival, if_neg hin, hb, hk, hf, runs_of_period ho hr hs, hd]
  exact next_congr ((if_neg (Bool.eq_false_iff.1 hh)).trans (if_neg (Nat.not_le.2 hl)))

end Arrival

end Period

/-- The state in which the period is over and its completion tile on its way. -/
def periodOver (p : Nat) (b : Block) (u : State) : State :=
  (unlistAll p u).setBlock p { b with state := .configured, periods := b.periods + 1#16, drained := false, armed := [], elems := [] }

section End

variable {m : Memory} {u : State} (hm : b.plane = some m) (hs : b.state = .draining) (hz : b.quiet = true)
  (hf : ((s.coreAt (cmdCore s reg b.ownerCore b.ownerFid).1).faultsOf b.ownerFid).length + (b.periodFaults s reg (inp s 0)).length ≤ 16)
  (hu : acceptTile s reg (entryRouter s reg (inp s 0)) (entryRouter s reg (inp s 0)) (BitVec.allOnes 64) (b.completion m) = some u)

include hp hb ho hr hm hs hz hf hu

/-- The completion tile is accepted, then the period's faults go to its owner. -/
theorem periodEnd_eq : exec .periodEnd s = .next (
    let owner := cmdCore s reg b.ownerCore b.ownerFid
    let fs := b.periodFaults s reg (inp s 0)
    let w := periodOver (inp s 0) b u
    if fs.isEmpty then w
    else answerCore reg (inp s 0) owner.1 (fun w =>
      w.setCoreAt owner.1 (fs.foldl (fun (c : Core) f => c.faultTask b.ownerFid owner.2 f) (w.coreAt owner.1))) w) := by
  have hroom := decide_eq_false (Nat.not_lt.2 hf)
  change execPeriodEnd s = _
  simp only [execPeriodEnd, if_neg (not_beyond_ports hp), hb, periodOver, ho, hm, hs, hz, runs_of_period ho hr (.inr hs), hroom, hu]
  rfl

theorem periodEnd_clean (h : b.periodFaults s reg (inp s 0) = []) :
    exec .periodEnd s = .next (periodOver (inp s 0) b u) :=
  (periodEnd_eq hp hb ho hr hm hs hz hf hu).trans (next_congr (if_pos (List.isEmpty_iff.2 h)))

theorem periodEnd_faults (h : b.periodFaults s reg (inp s 0) ≠ []) :
    let owner := cmdCore s reg b.ownerCore b.ownerFid
    let w := periodOver (inp s 0) b u
    w.within reg owner.1 = true → exec .periodEnd s = .next (w.setCoreAt owner.1
      ((b.periodFaults s reg (inp s 0)).foldl (fun (c : Core) f => c.faultTask b.ownerFid owner.2 f) (w.coreAt owner.1))) :=
  fun hw => (periodEnd_eq hp hb ho hr hm hs hz hf hu).trans (next_congr ((if_neg (mt List.isEmpty_iff.1 h)).trans (if_pos hw)))

end End

/-! The drain watchdog (15 R397, R399). -/

section Watchdog

variable {m : Memory} (hm : b.plane = some m)

include hp hb hm

section Ripe

variable (hd : planeDwd m ≤ b.waited)

include ho hr hd

theorem inactivityTimeout_drains (hs : b.state = .running) (hc : b.canStart s m = false) (hv : b.canMove = false) (ha : b.nextArm m = none)
    (ht : ∀ k, k < b.tiles.length → edgePubTry (inp s 0) k s = none) :
    exec .inactivityTimeout s = .next (s.setBlock (inp s 0) { b with state := .draining, drained := true, waited := 0 }) := by
  have htiles : ((List.range b.tiles.length).all fun k => (edgePubTry (inp s 0) k s).isNone) = true :=
    List.all_eq_true.2 fun k hk => Option.isNone_iff_eq_none.2 (ht k (List.mem_range.1 hk))
  change execInactivityTimeout s = _
  simp only [execInactivityTimeout, if_neg (not_beyond_ports hp), hb, hm, hs, runs_of_period ho hr (.inl hs), decide_eq_true hd, hc, hv, ha, htiles]
  rfl

theorem drainWatchdog_discards (hs : b.state = .draining) (hz : b.quiet = false) :
    exec .drainWatchdog s = .next ((unlistAll (inp s 0) s).setBlock (inp s 0) { b.discard with drained := true }) := by
  change execDrainWatchdog s = _
  simp only [execDrainWatchdog, if_neg (not_beyond_ports hp), hb, hm, hs, hz, runs_of_period ho hr (.inr hs), Option.getD_some, decide_eq_true hd]
  rfl

end Ripe

theorem inactivityTimeout_waits (hd : b.waited < planeDwd m) : exec .inactivityTimeout s = .next s := by
  change execInactivityTimeout s = _
  simp [execInactivityTimeout, not_beyond_ports hp, hb, hm, decide_eq_false (Nat.not_le.2 hd)]

theorem drainWatchdog_waits (hd : b.waited < planeDwd m) : exec .drainWatchdog s = .next s := by
  change execDrainWatchdog s = _
  simp [execDrainWatchdog, not_beyond_ports hp, hb, hm, decide_eq_false (Nat.not_le.2 hd)]

end Watchdog

include hp hb ho in
theorem linkTokenArrival_receives (hk : inp s 1 ≤ 15) (hu : (s.link (inp s 0)).up = true) (hw : linkOwned s (inp s 0) reg = true)
    (hl : (findD (inp s 1) [] b.rx).length < 64) (hf : (ETok.ofBits (inp s 2)).fmt ≠ 0xE#4) :
    exec .linkTokenArrival s = .next (s.setBlock (inp s 0) { b with
      rx := Machine.insert (inp s 1) (findD (inp s 1) [] b.rx ++ [ETok.ofBits (inp s 2)]) b.rx
      waited := if b.state == .running then 0 else b.waited }) := by
  have hin : ¬(31 < inp s 0 ∨ 15 < inp s 1) := by omega
  change execLinkTokenArrival s = _
  simp only [execLinkTokenArrival, if_neg hin, hb, ho, hu, hw, bne_iff_ne.2 hf, decide_eq_true hl]
  rfl

end Running

/-! ESTAT and EABORT at their block (12 R317). -/

section Commands

variable {s : State} {o : Op} {q : Nat} (hj : s.core.ops[inp s 0]? = some o) (hresp : o.resp = false)
  (hfirst : ∀ e ∈ s.core.ops.take (inp s 0), e.fid ≠ o.fid ∨ e.kind.edgePort ≠ some q)

/-- No command of the same firing for the block goes before it. -/
theorem no_command_before {l : List Op} (h : ∀ e ∈ l, e.fid ≠ o.fid ∨ e.kind.edgePort ≠ some q) (full : Bool) :
    (l.any fun e => e.kind.edgePort == some q && e.fid == o.fid && !e.resp && !(e.kind.queues && full)) = false := by
  refine List.any_eq_false.2 fun e he => ?_
  obtain hfid | hport := h e he
  · simp [hfid]
  · simp [hport]

/-- The block that an EABORT has emptied. -/
def abortedBlock (b : Block) : Block :=
  { b.discard.drop b.discard.tiles.length with
    queue := [], shadow := none, load := [], loadBad := [], malformed := false, plane := none, state := .aborting, elems := [], tiles := []
    tx := [] }

/-- The state in which a block is emptied and the commands that its queue held are completed. -/
def blockAborted (q : Nat) (s : State) : State :=
  (s.block q).queue.foldl (fun u k => cmdDone u ((s.block q).owner.getD 0) q k) ((unlistAll q s).setBlock q (abortedBlock (s.block q)))

theorem blockAborted_block (q : Nat) (s : State) : (blockAborted q s).block q = abortedBlock (s.block q) := by
  have hblocks := foldl_keeps (g := State.blocks) (fun u k => cmdDone_blocks u ((s.block q).owner.getD 0) q k) (s.block q).queue
    ((unlistAll q s).setBlock q (abortedBlock (s.block q)))
  exact (block_of_blocks hblocks q).trans (block_setBlock_self ..)

theorem blockAborted_hbm (q : Nat) (s : State) : (blockAborted q s).hbm = s.hbm :=
  (foldl_keeps (g := State.hbm) (fun u k => (cmdDone_global u ((s.block q).owner.getD 0) q k).1) ..).trans (unlistAll_global q s).1

include hj hresp hfirst

theorem estatArrival_answers (hk : o.kind = .estat q) : exec .estatArrival s =
    .next { s with core := s.core.setOp (inp s 0) { o with got := (s.block q).status.toNat, resp := true } } := by
  change execEstatArrival s = _
  simp only [execEstatArrival, hj, hk, hresp, no_command_before hfirst]
  rfl

theorem eabortArrival_empties (hk : o.kind = .eabort q) (hs : o.started = false) : exec .eabortArrival s =
    .next ((blockAborted q s).onCore fun c => c.setOp (inp s 0) { o with started := true }) := by
  change execEabortArrival s = _
  simp only [execEabortArrival, hj, hk, hresp, hs, no_command_before hfirst]
  rfl

theorem eabortArrival_answers (hk : o.kind = .eabort q) (hs : o.started = true) (hb : (s.block q).state = .aborting) : exec .eabortArrival s =
    .next { s.setBlock q { s.block q with state := .idle } with core := s.core.setOp (inp s 0) { o with resp := true } } := by
  change execEabortArrival s = _
  simp only [execEabortArrival, hj, hk, hresp, hs, hb, no_command_before hfirst]
  rfl

end Commands

/-! Links (17 R447, R448). -/

section Links

variable {s : State} {l : Link} (hp : inp s 0 ≤ 31) (hk : s.link (inp s 0) = l)

/-- The port with failed resends more counted. -/
def resendsCounted (l : Link) (n : Nat) : Link := { l with retry := BitVec.ofNat 32 (Nat.min (l.retry.toNat + n) 0xFFFFFFFF) }

/-- The state in which port p, with link l, has gone down: what was in flight on it is lost. -/
def portDown (p : Nat) (l : Link) (lost : Nat) (s : State) : State :=
  let u : State := { s with links := Machine.insert p { l with up := false, down := true } s.links }
  if (u.block p).owner.isSome then u.onBlock p fun b => { b.drop (Nat.min lost 1024) with tx := [] } else u

theorem portDown_links (p : Nat) (l : Link) (lost : Nat) (s : State) :
    (portDown p l lost s).links = Machine.insert p { l with up := false, down := true } s.links := by
  unfold portDown
  dsimp only
  split
  · exact onBlock_links ..
  · rfl

theorem portDown_block {p : Nat} {s : State} (h : (s.block p).owner.isSome = true) (l : Link) (lost : Nat) :
    (portDown p l lost s).block p = { (s.block p).drop (Nat.min lost 1024) with tx := [] } :=
  (congrArg (State.block · p) (if_pos h)).trans (block_onBlock_self ..)

include hp hk

section Resend

variable (hl : l.up = true ∨ (l.absent = false ∧ l.down = false ∧ s.bridge.podcfg.getLsbD 31 = true))

include hl

/-- A port that is up or exchanges its formation counts its resends, and with the 16th goes down. -/
theorem linkBeatResend_eq : exec .linkBeatResend s = .next (
    if inp s 1 < 16 then { s with links := Machine.insert (inp s 0) (resendsCounted l (inp s 1)) s.links }
    else
      let u := portDown (inp s 0) (resendsCounted l (inp s 1)) (inp s 2) s
      post u 16 (fromLeader u) 0x09 (BitVec.ofNat 64 (inp s 0))
        (BitVec.ofNat 64 (resendsCounted l (inp s 1)).retry.toNat) true none none) := by
  have hlive : (!l.up && (l.absent || l.down || !s.bridge.podcfg.getLsbD 31)) = false := by
    obtain hup | ⟨ha, hd, he⟩ := hl
    · rw [hup]; rfl
    · rw [ha, hd, he]; exact Bool.and_false _
  change execLinkBeatResend s = _
  simp only [execLinkBeatResend, if_neg (not_beyond_ports hp), hk, hlive]
  rfl

theorem linkBeatResend_counts (hn : inp s 1 < 16) : exec .linkBeatResend s =
    .next { s with links := Machine.insert (inp s 0) (resendsCounted l (inp s 1)) s.links } :=
  (linkBeatResend_eq hp hk hl).trans (next_congr (if_pos hn))

theorem linkBeatResend_goes_down (hn : 16 ≤ inp s 1) : ∃ t : State, exec .linkBeatResend s = .next t ∧
    t.links = Machine.insert (inp s 0) { resendsCounted l (inp s 1) with up := false, down := true } s.links ∧
    ((s.block (inp s 0)).owner.isSome = true →
      t.block (inp s 0) = { (s.block (inp s 0)).drop (Nat.min (inp s 2) 1024) with tx := [] }) :=
  ⟨_, (linkBeatResend_eq hp hk hl).trans (next_congr (if_neg (Nat.not_lt.2 hn))), portDown_links .., fun h => portDown_block h ..⟩

end Resend

/-- What a port learns of its far end. -/
def linkFormed (s : State) (l : Link) : Link :=
  { l with
    farw := BitVec.ofNat 6 (inp s 1), farp := BitVec.ofNat 5 (inp s 2)
    up := inp s 4 == 1 && BitVec.ofNat 6 (inp s 3) == s.bridge.podcfg.extractLsb' 8 6 && BitVec.ofNat 6 (inp s 1) != s.bridge.podcfg.extractLsb' 0 6 }

theorem podFormation_learns (ha : l.absent = false) (hd : l.down = false) (he : s.bridge.podcfg.getLsbD 31 = true) :
    exec .podFormation s = .next { s with links := Machine.insert (inp s 0) (linkFormed s l) s.links } := by
  change execPodFormation s = _
  simp only [execPodFormation, if_neg (not_beyond_ports hp), hk, linkFormed, ha, hd, he]
  rfl

end Links

theorem linkFormed_up {s : State} {l : Link} (h : (linkFormed s l).up = true) :
    inp s 4 = 1 ∧ (linkFormed s l).farw ≠ s.bridge.podcfg.extractLsb' 0 6 := by
  simp only [linkFormed, Bool.and_eq_true, beq_iff_eq, bne_iff_ne] at h
  obtain ⟨⟨hen, -⟩, hfar⟩ := h
  exact ⟨hen, hfar⟩

/-- Settles O53: each event by the lemma that says what it does where its conditions hold. -/
theorem edgeEventResults : Obligations.EdgeEventResults := by
  unfold Obligations.EdgeEventResults
  intro s reg p b
  refine ⟨fun hp ho hr => ?block, fun o q hj hresp hfirst => ⟨estatArrival_answers hj hresp hfirst, ?abort⟩, fun n hn hp hl => ?resend,
    fun hp ha hd he => ⟨_, podFormation_learns hp rfl ha hd he, linkFormed s _, find_insert_self .., rfl, rfl, linkFormed_up⟩⟩
  case block =>
    refine ⟨?image, ?commit, ?start, ?arm, ?arrival, ?finish, ?inactive, ?waiting, ?watchdog, ?unripe, ?token⟩
    case image =>
      exact fun k rest va hq hk hs hm => ⟨ecfgImageRead_goes_on hp rfl ho hr hq hk hs hm, ecfgImageRead_checks hp rfl ho hr hq hk hs hm⟩
    case commit =>
      intro k rest hq hk hs hz
      obtain ⟨va, hva⟩ := Option.isSome_iff_exists.1 hk
      exact ⟨fun m => shadowCommit_commits hp rfl ho hr hq hva hs hz, shadowCommit_drops hp rfl ho hr hq hva hs hz⟩
    case start =>
      exact fun k rest m hq hk hm => ⟨fun hs h0 => ⟨periodBlock b k rest, periodStart_starts hp rfl ho hr hq hk hs hm h0,
        rfl, rfl, rfl, rfl, hm, rfl, rfl, rfl, rfl⟩, periodStart_refuses hp rfl ho hr hq hk⟩
    case arm => exact fun m bind point hm hs => bindingArm_arms hp rfl ho hr hs hm
    case arrival =>
      exact fun code t d he hs hk hf hd => ⟨elementTokenArrival_at_stopped hp rfl ho hr hs he hk hf hd,
        elementTokenArrival_queues hp rfl ho hr hs he hk hf hd⟩
    case finish =>
      exact fun m u hm hs hz hf hu => ⟨periodEnd_clean hp rfl ho hr hm hs hz hf hu, periodEnd_faults hp rfl ho hr hm hs hz hf hu⟩
    case inactive => exact fun m hm hs hd => inactivityTimeout_drains hp rfl ho hr hm hd hs
    case waiting => exact fun m hm _ => inactivityTimeout_waits hp rfl hm
    case watchdog => exact fun m hm hs hz hd => drainWatchdog_discards hp rfl ho hr hm hd hs hz
    case unripe => exact fun m hm => drainWatchdog_waits hp rfl hm
    case token => exact linkTokenArrival_receives hp rfl ho
  case abort =>
    refine fun hk => ⟨fun hs => ⟨_, eabortArrival_empties hj hresp hfirst hk hs, ?_⟩, eabortArrival_answers hj hresp hfirst hk⟩
    have hblock (f : Core → Core) : ((blockAborted q s).onCore f).block q = abortedBlock (s.block q) := blockAborted_block q s
    rw [hblock]
    exact ⟨rfl, rfl, rfl, rfl, rfl, rfl, rfl, blockAborted_hbm q s⟩
  case resend =>
    subst hn
    exact ⟨linkBeatResend_counts hp rfl hl, linkBeatResend_goes_down hp rfl hl⟩

end Sys2Proof.Proofs
end

section
/-! O10: the changes of one cycle to a token counter (13 R326). -/

namespace Sys2Proof.Proofs

open Sys2Proof.Machine Sys2Proof.Laws

theorem toNat_tcClamp (x : BitVec 16) (d : Int) : ((tcClamp x d).toNat : Int) = max 0 (min 0xFFFF ((x.toNat : Int) + d)) := by
  simp only [tcClamp, clampI, BitVec.toNat_ofInt]
  omega

/-- Changes that do not name a counter sum to nothing for it. -/
theorem tcSum_of_unnamed {i : Nat} : ∀ {l : List (Nat × Int)}, (∀ p ∈ l, p.1 ≠ i) → tcSum i l = 0
  | [], _ => rfl
  | (j, d) :: t, h => by
    obtain ⟨hj, ht⟩ := List.forall_mem_cons.1 h
    rw [tcSum, if_neg hj, tcSum_of_unnamed ht, Int.zero_add]

/-- In a cycle without changes the counters stand, which is the sum of none. -/
theorem tcApply_getElem (t : Vector (BitVec 16) 16) (l : List (Nat × Int)) {i : Fin 16} (h0 : i.val ≠ 0) :
    (tcApply t l)[i] = tcClamp t[i] (tcSum i.val l) := by
  by_cases hl : l = []
  · subst hl
    exact BitVec.eq_of_toNat_eq (tcClamp_zero t[i]).symm
  · exact getElem_tcApply t hl h0 i.isLt

/-- Settles O10: every counter holds its clamped sum, which for no change is what it held. -/
theorem tokenCountersClamp : Obligations.TokenCountersClamp := by
  unfold Obligations.TokenCountersClamp
  intro t l i h0
  rw [tcApply_getElem t l h0]
  refine ⟨toNat_tcClamp .., fun h => ?_⟩
  rw [tcSum_of_unnamed h]
  exact BitVec.eq_of_toNat_eq (tcClamp_zero t[i])

end Sys2Proof.Proofs
end

section
/-! O54: barriers, wafer time, capture units, NETW (13 R331 to R347, 03 R86). -/

namespace Sys2Proof.Proofs

open Sys2Proof.Machine Sys2Proof.Safety Sys2Proof.Laws

/-! The nodes of a barrier (R329, R331). -/

/-- The node of a unit, and the state with another in its place. -/
def unitNode (s : State) (reg scope unit : Nat) : Node := findD (nodeKey scope unit) {} (s.region reg).nodes
def setUnitNode (reg scope unit : Nat) (n : Node) (s : State) : State :=
  s.onRegion reg fun r => { r with nodes := Machine.insert (nodeKey scope unit) n r.nodes }

/-- A node that has counted an arrival ahead of its INST (R330; log 45). -/
def counted (inst : BitVec 32) (n : Node) : Node :=
  if inst = n.inst + 1#32 then { n with cur := n.cur + 1 }
  else if inst = n.inst + 2#32 then { n with nxt := n.nxt + 1 }
  else { n with later := n.later ++ [inst] }

/-- A node whose next INST is complete (R331, R336). -/
def completed (n : Node) : Node :=
  { inst := n.inst + 1#32, cur := n.nxt, nxt := n.later.countP fun a => a == n.inst + 1#32 + 2#32
    later := n.later.filter fun a => decide (3 ≤ (a - (n.inst + 1#32)).toInt) }

section Nodes

variable {s : State} {reg x unit : Nat}

@[simp] theorem unitNode_setUnitNode (n : Node) : unitNode (setUnitNode reg x unit n s) reg x unit = n := by
  simp [unitNode, setUnitNode]

@[simp] theorem membersOf_setUnitNode (n : Node) : membersOf (setUnitNode reg x unit n s) reg x unit = membersOf s reg x unit := by
  simp only [membersOf, setUnitNode, region_onRegion_self]
  rfl

@[simp] theorem lost_setUnitNode (n : Node) : ((setUnitNode reg x unit n s).region reg).lost = (s.region reg).lost := by
  simp [setUnitNode]

theorem cores_setUnitNode (n : Node) :
    ((setUnitNode reg x unit n s).region reg).cores (setUnitNode reg x unit n s) = (s.region reg).cores s := by
  simp only [setUnitNode, region_onRegion_self]
  rfl

@[simp] theorem noticed_setUnitNode (n : Node) : noticed (setUnitNode reg x unit n s) reg x unit = noticed s reg x unit := by
  rw [noticed, membersOf_setUnitNode, cores_setUnitNode]
  rfl

@[simp] theorem setUnitNode_notices (n : Node) : (setUnitNode reg x unit n s).notices = s.notices := rfl

theorem membersOf_notify (i : BitVec 32) : membersOf (notify reg x unit i s) reg x unit = membersOf s reg x unit := rfl

/-- A node with too few arrivals waits. -/
theorem testNode_waits (h : (unitNode s reg x unit).cur < (membersOf s reg x unit).length) : ∀ fuel, testNode reg x unit fuel s = s
  | 0 => rfl
  | fuel + 1 => by
    rw [unitNode] at h
    simp [testNode, h]

/-- A node at which every member has arrived steps its INST and sends the notices. -/
theorem testNode_completes (hx : x < 5) (hl : (s.region reg).lost = false) (h0 : membersOf s reg x unit ≠ [])
    (h : (membersOf s reg x unit).length ≤ (unitNode s reg x unit).cur) (fuel : Nat) : testNode reg x unit (fuel + 1) s =
      testNode reg x unit fuel (notify reg x unit ((unitNode s reg x unit).inst + 1#32)
        (setUnitNode reg x unit (completed (unitNode s reg x unit)) s)) := by
  rw [unitNode] at h
  simp only [testNode, List.isEmpty_eq_false_iff.2 h0, decide_eq_false (Nat.not_lt.2 h), hl, beq_eq_false_iff_ne.2 (Nat.ne_of_lt hx),
    Bool.false_and, Bool.or_false, Bool.false_eq_true, if_false]
  rfl

/-- An arrival ahead of the node's INST is counted, and the node is tested. -/
theorem arriveAt_counts {inst : BitVec 32} (h : 0 < (inst - (unitNode s reg x unit).inst).toInt) :
    arriveAt s reg x unit inst = testNode reg x unit 2 (setUnitNode reg x unit (counted inst (unitNode s reg x unit)) s) := by
  rw [unitNode] at h
  have hpassed : passed (findD (nodeKey x unit) {} (s.region reg).nodes).inst inst = false := decide_eq_false (Int.not_le.2 h)
  simp only [arriveAt, hpassed, Bool.and_false, Bool.false_eq_true, if_false]
  rfl

/-- An arrival that the node's INST has passed notifies again (log 45). -/
theorem arriveAt_passed {inst : BitVec 32} (hx : x < 4) (h : (inst - (unitNode s reg x unit).inst).toInt ≤ 0) :
    arriveAt s reg x unit inst = notify reg x unit (unitNode s reg x unit).inst s := by
  have hpassed : passed (unitNode s reg x unit).inst inst = true := decide_eq_true h
  exact if_pos (Bool.and_eq_true_iff.2 ⟨decide_eq_true hx, hpassed⟩)

/-- An arrival after which members are missing is only counted. -/
theorem arriveAt_waits {inst : BitVec 32} (h : 0 < (inst - (unitNode s reg x unit).inst).toInt)
    (hm : (counted inst (unitNode s reg x unit)).cur < (membersOf s reg x unit).length) :
    arriveAt s reg x unit inst = setUnitNode reg x unit (counted inst (unitNode s reg x unit)) s := by
  rw [arriveAt_counts h]
  exact testNode_waits (by rwa [unitNode_setUnitNode, membersOf_setUnitNode]) 2

theorem next_not_passed (i : BitVec 32) : 0 < (i + 1#32 - i).toInt := by
  have hone : i + 1#32 - i = 1#32 := by bv_omega
  rw [hone]
  decide

theorem counted_next {n : Node} : counted (n.inst + 1#32) n = { n with cur := n.cur + 1 } := if_pos rfl

theorem counted_ahead {inst : BitVec 32} {n : Node} (h : inst ≠ n.inst + 1#32) :
    counted inst n = if inst = n.inst + 2#32 then { n with nxt := n.nxt + 1 } else { n with later := n.later ++ [inst] } := if_neg h

theorem counted_ahead_cur {inst : BitVec 32} {n : Node} (h : inst ≠ n.inst + 1#32) : (counted inst n).cur = n.cur := by
  rw [counted_ahead h]
  split <;> rfl

/-- The state after the last member's arrival: the node's INST stepped, the notices on their way. -/
def instanceDone (s : State) (reg x unit : Nat) : State :=
  let n := unitNode s reg x unit
  let n' : Node := { n with cur := n.cur + 1 }
  notify reg x unit (n.inst + 1#32) (setUnitNode reg x unit (completed n') (setUnitNode reg x unit n' s))

theorem instanceDone_node : unitNode (instanceDone s reg x unit) reg x unit = completed (unitNode s reg x unit) := unitNode_setUnitNode _

theorem instanceDone_notices : (instanceDone s reg x unit).notices =
    s.notices ++ (noticed s reg x unit).map fun c => ⟨reg, c, x, (unitNode s reg x unit).inst + 1#32⟩ := by
  simp [instanceDone, notify]

theorem instanceDone_members : membersOf (instanceDone s reg x unit) reg x unit = membersOf s reg x unit := by
  rw [instanceDone, membersOf_notify, membersOf_setUnitNode, membersOf_setUnitNode]

theorem arriveAt_completes (hx : x < 5) (hl : (s.region reg).lost = false)
    (hm : (unitNode s reg x unit).cur + 1 = (membersOf s reg x unit).length)
    (hn : (unitNode s reg x unit).nxt < (membersOf s reg x unit).length) :
    arriveAt s reg x unit ((unitNode s reg x unit).inst + 1#32) = instanceDone s reg x unit := by
  have h0 : membersOf s reg x unit ≠ [] := List.ne_nil_of_length_pos (Nat.zero_lt_of_lt hn)
  rw [arriveAt_counts (next_not_passed _), counted_next, testNode_completes hx (by rwa [lost_setUnitNode]) (by rwa [membersOf_setUnitNode])
    (by rw [membersOf_setUnitNode, unitNode_setUnitNode]; exact Nat.le_of_eq hm.symm), unitNode_setUnitNode]
  refine testNode_waits (s := instanceDone s reg x unit) ?_ 1
  rw [instanceDone_node, instanceDone_members]
  exact hn

end Nodes

/-! BAR at its node, and the notice at its core (R331 to R333, R336). -/

theorem barrierArrival_arrives {s : State} {o : Op} {x : Nat} {ra : Bool} {inst : BitVec 32} (hj : s.core.ops[inp s 0]? = some o)
    (hk : o.kind = .bar x ra inst) (hr : ra = true → barReady s (inp s 0) o x = true) :
    let v := if !ra then s else if x < 4 then coreRelease s else waferRelease s
    let w := v.core.dropOp (inp s 0)
    let a : Arrival := { fid := o.fid, scope := x, inst := inst, tc := o.tc, ra := ra, ser := o.ser, born := w.cycle }
    let v1 : State := { v with core := { w with arrivals := w.arrivals ++ [a] } }
    exec .barrierArrival s = .next (if x = 0 then v1 else arriveAt v1 (regionOf v1) x (unitOf v1 x v1.cur) inst) := by
  have hready : (ra && !barReady s (inp s 0) o x) = false := by
    cases ra
    · rfl
    · rw [hr rfl]; rfl
  change execBarrierArrival s = _
  simp only [execBarrierArrival, hj, hk, hready, Bool.false_eq_true, if_false]
  rfl

theorem barrierCompletion_taken {s : State} {n : Notice} (hj : s.notices[inp s 0]? = some n) (hh : (s.coreAt n.core).halt = .no)
    (hq : (s.coreAt n.core).hreq = false) (hfirst : ∀ e ∈ s.notices.take (inp s 0), e.core ≠ n.core ∨ e.scope ≠ n.scope) :
    exec .barrierCompletion s = .next (takeNotice (inp s 0) n s) := by
  have hdefers : (s.coreAt n.core).defers = false := by simp [Core.defers, hh, hq]
  have hahead : (s.notices.take (inp s 0)).any (fun e => e.core == n.core && e.scope == n.scope) = false := by
    refine List.any_eq_false.2 fun e he hboth => ?_
    obtain ⟨hcore, hscope⟩ := Bool.and_eq_true_iff.1 hboth
    exact (hfirst e he).elim (· (beq_iff_eq.1 hcore)) (· (beq_iff_eq.1 hscope))
  change execBarrierCompletion s = _
  simp [execBarrierCompletion, hj, hdefers, hahead]

/-! Wafer time (R338, R339). -/

theorem not_beyond_reticles {r : Nat} (h : r ≤ 47) : ¬47 < r := Nat.not_lt.2 h

theorem waferTimeBeacon_slews {s : State} (hr : inp s 0 ≤ 47) (hl : s.bridge.leader ≠ some (inp s 0))
    (hlo : (timeAt s 48).toNat ≤ inp s 1 + 32) (hhi : inp s 1 ≤ (timeAt s 48).toNat + 32) (hf : (s.reticle (inp s 0)).time.toNat ≤ inp s 1)
    (ht : inp s 1 < 2 ^ 64) : exec .waferTimeBeacon s =
      .next (s.setReticle (inp s 0) { s.reticle (inp s 0) with time := BitVec.ofNat 64 (inp s 1) }) :=
  (if_neg (not_beyond_reticles hr)).trans (next_congr (if_pos ⟨hl, hlo, hhi, hf, ht⟩))

theorem waferTimeBeacon_of_leader {s : State} (hl : s.bridge.leader = some (inp s 0)) (hr : inp s 0 ≤ 47) : exec .waferTimeBeacon s = .next s :=
  (if_neg (not_beyond_reticles hr)).trans (next_congr (if_neg fun h => h.1 hl))

/-! Capture units (R342 to R345). -/

section Captures

variable {s : State} {r : Nat}

@[simp] theorem capture_setCapture_self (u : Nat) (c : Capture) : (s.setCapture r u c).capture r u = c := by
  simp [State.capture, State.setCapture]

theorem capture_setCapture_of_ne {u k : Nat} (h : k ≠ u) (c : Capture) : (s.setCapture r u c).capture r k = s.capture r k := by
  simp [State.capture, State.setCapture, findD_insert_of_ne h]

/-- What decides, beside its own cell, what a unit makes of a sample: the grants, the samples offered, the clock. -/
def besideUnits (r : Nat) (s : State) : Map (BitVec 5) × List (Nat × Nat × Nat × Nat) × Nat × Nat :=
  ((s.reticle r).grants, (s.reticle r).offered, (s.reticle r).offeredAt, s.clock)

theorem besideUnits_setCapture (u : Nat) (c : Capture) : besideUnits r (s.setCapture r u c) = besideUnits r s := by
  simp [besideUnits, State.setCapture]

variable (region src sel v : Nat)

/-- A unit after a sample of a source is offered to it (R343, R344). -/
def sampled (s : State) (r : Nat) (k : Nat) : Capture :=
  if records s r k region src sel then (s.capture r k).sample s.cycles v else s.capture r k

/-- The state in which a unit has seen the sample. -/
def unitSees (r : Nat) (s : State) (u : Nat) : State :=
  if records s r u region src sel then s.setCapture r u ((s.capture r u).sample s.cycles v) else s

/-- The state in which the sample stands in the list of those offered (log 72). -/
def offerNoted (s : State) (r : Nat) : State :=
  s.setReticle r { s.reticle r with offered := s.offeredNow r ++ [(region, src, sel, v)], offeredAt := s.cycles }

variable {region src sel v}

theorem offer_eq : offer s r region src sel v = (List.range 16).foldl (unitSees region src sel v r) (offerNoted region src sel v s r) := rfl

theorem besideUnits_unitSees (s : State) (u : Nat) : besideUnits r (unitSees region src sel v r s u) = besideUnits r s := by
  rw [unitSees]
  split
  · exact besideUnits_setCapture ..
  · rfl

theorem besideUnits_offer : besideUnits r (offer s r region src sel v) = besideUnits r (offerNoted region src sel v s r) :=
  foldl_keeps besideUnits_unitSees ..

theorem unitSees_core (s : State) (u : Nat) : (unitSees region src sel v r s u).core = s.core := by
  rw [unitSees]
  split <;> rfl

theorem offer_core : (offer s r region src sel v).core = s.core := foldl_core unitSees_core ..

theorem offer_offeredNow : (offer s r region src sel v).offeredNow r = s.offeredNow r ++ [(region, src, sel, v)] := by
  have hview : besideUnits r (offer s r region src sel v) = besideUnits r (offerNoted region src sel v s r) := besideUnits_offer
  simp only [besideUnits, offerNoted, reticle_setReticle_self, setReticle_clock, Prod.mk.injEq] at hview
  obtain ⟨-, hoffered, hat, hclock⟩ := hview
  have hnow : ((offer s r region src sel v).reticle r).offeredAt = (offer s r region src sel v).cycles := by
    rw [hat, State.cycles, State.cycles, hclock]
  rw [State.offeredNow, if_pos hnow, hoffered]

/-- What a unit makes of a sample rests on its own cell, its grant and the clock. -/
theorem sampled_congr {s t : State} {k : Nat} (hc : t.capture r k = s.capture r k) (hg : (t.reticle r).grants = (s.reticle r).grants)
    (ht : t.clock = s.clock) : sampled region src sel v t r k = sampled region src sel v s r k := by
  have hrecords : records t r k region src sel = records s r k region src sel := by
    simp only [records, grantOf, hc, hg]
  rw [sampled, sampled, hrecords, hc, State.cycles, State.cycles, ht]

theorem capture_unitSees_self (s : State) (k : Nat) : (unitSees region src sel v r s k).capture r k = sampled region src sel v s r k := by
  rw [unitSees, sampled]
  split
  · exact capture_setCapture_self ..
  · rfl

theorem capture_unitSees_of_ne (s : State) {u k : Nat} (h : k ≠ u) : (unitSees region src sel v r s u).capture r k = s.capture r k := by
  rw [unitSees]
  split
  · exact capture_setCapture_of_ne h _
  · rfl

theorem sampled_unitSees_of_ne (s : State) {u k : Nat} (h : k ≠ u) :
    sampled region src sel v (unitSees region src sel v r s u) r k = sampled region src sel v s r k := by
  have hview : besideUnits r (unitSees region src sel v r s u) = besideUnits r s := besideUnits_unitSees s u
  simp only [besideUnits, Prod.mk.injEq] at hview
  obtain ⟨hgrants, -, -, hclock⟩ := hview
  exact sampled_congr (capture_unitSees_of_ne s h) hgrants hclock

theorem capture_foldl_unitSees_of_notMem {k : Nat} {l : List Nat} (h : k ∉ l) (s : State) :
    (l.foldl (unitSees region src sel v r) s).capture r k = s.capture r k := by
  induction l generalizing s with
  | nil => rfl
  | cons u l ih =>
    rw [List.foldl_cons, ih (List.not_mem_of_not_mem_cons h), capture_unitSees_of_ne s (List.ne_of_not_mem_cons h)]

/-- Each unit is offered the sample once. -/
theorem capture_foldl_unitSees {k : Nat} {l : List Nat} (hn : l.Nodup) (h : k ∈ l) (s : State) :
    (l.foldl (unitSees region src sel v r) s).capture r k = sampled region src sel v s r k := by
  induction l generalizing s with
  | nil => cases h
  | cons u l ih =>
    obtain ⟨hu, hnl⟩ := List.nodup_cons.1 hn
    rw [List.foldl_cons]
    by_cases hk : k = u
    · subst hk
      rw [capture_foldl_unitSees_of_notMem hu, capture_unitSees_self]
    · rw [ih hnl (List.mem_of_ne_of_mem hk h), sampled_unitSees_of_ne s hk]

theorem offer_capture {k : Nat} (hk : k ≤ 15) : (offer s r region src sel v).capture r k = sampled region src sel v s r k := by
  rw [offer_eq, capture_foldl_unitSees List.nodup_range (List.mem_range.2 (Nat.lt_succ_of_le hk))]
  exact sampled_congr (by simp [offerNoted, State.capture]) (by simp [offerNoted]) rfl

end Captures

theorem captureSample_offers {s : State} (hr : inp s 0 ≤ 47) : exec .captureSample s = .next (offer s (inp s 0) (inp s 1) 12 0 1) :=
  if_neg (not_beyond_reticles hr)

theorem sample_records {c : Capture} {now : Nat} (h : c.last ≠ some now) (v : Nat) : (c.sample now v).count = satAdd c.count 1 ∧
    (c.sample now v).sum = satAdd c.sum v ∧ (c.sample now v).drops = c.drops := by
  rw [Capture.sample, if_neg h]
  exact ⟨rfl, rfl, rfl⟩

/-- The state in which a unit is granted anew, cleared and disabled (R342). -/
def granted (s : State) (r u : Nat) (g : BitVec 5) : State :=
  s.setReticle r { s.reticle r with
    grants := Machine.insert u g (s.reticle r).grants, captures := Machine.insert u {} (s.reticle r).captures }

theorem granted_capture (s : State) (r u : Nat) (g : BitVec 5) : (granted s r u g).capture r u = {} := by
  simp [granted, State.capture]

theorem granted_grantOf (s : State) (r u : Nat) (g : BitVec 5) : grantOf (granted s r u g) r u = g := by
  simp [granted, grantOf]

section Units

variable {s : State} (hr : inp s 0 ≤ 47) (hu : inp s 1 ≤ 15)

include hr hu

/-- The events of a unit fault where there is none. -/
theorem not_beyond_units : ¬(47 < inp s 0 ∨ 15 < inp s 1) := not_or.2 ⟨Nat.not_lt.2 hr, Nat.not_lt.2 hu⟩

theorem levelSample_samples :
    let c := s.capture (inp s 0) (inp s 1)
    let src := fld c.cfg 0 16
    let g := grantOf s (inp s 0) (inp s 1)
    6 ≤ src → src ≤ 8 → records s (inp s 0) (inp s 1) (g.extractLsb' 0 4).toNat src (fld c.cfg 16 16) = true →
    exec .levelSample s = .next (s.setCapture (inp s 0) (inp s 1)
      { c.sample s.cycles (levelOf s (inp s 0) src c.turn (inp s 2) g) with turn := c.turn + 1 }) := by
  intro c src g h6 h8 hrec
  refine (if_neg (not_beyond_units hr hu)).trans (next_congr (if_pos ?_))
  rw [decide_eq_true h6, decide_eq_true h8]
  exact hrec

theorem captureGrantWrite_grants : exec .captureGrantWrite s = .next (granted s (inp s 0) (inp s 1) (BitVec.ofNat 5 (inp s 2))) :=
  if_neg (not_beyond_units hr hu)

end Units

/-! NETW (03 R86; log 49). -/

section Netw

variable {s : State} {c : Nat} {x : BitVec 32}

theorem first_of_core {l : List (Nat × BitVec 32)} (h : ∀ e ∈ l, e.1 ≠ c) : l.all (fun e => e.1 != c) = true :=
  List.all_eq_true.2 fun e he => bne_iff_ne.2 (h e he)

theorem netwUpdate_applies (h1 : inp s 2 ≠ 1) (hq : (s.region (inp s 0)).netwq[inp s 1]? = some (c, x))
    (hfirst : ∀ e ∈ (s.region (inp s 0)).netwq.take (inp s 1), e.1 ≠ c) :
    let q := s.region (inp s 0)
    exec .netwUpdate s = .next (s.setRegion (inp s 0)
      { q with netw := x, netwq := dropAt q.netwq (inp s 1), netwOut := q.netwOut ++ (q.cores s).map fun n => (n, x) }) := by
  change execNetwUpdate s = _
  simp only [execNetwUpdate, if_neg h1, hq, first_of_core hfirst, if_true]

theorem netwUpdate_reaches (h1 : inp s 2 = 1) (hq : (s.region (inp s 0)).netwOut[inp s 1]? = some (c, x))
    (hfirst : ∀ e ∈ (s.region (inp s 0)).netwOut.take (inp s 1), e.1 ≠ c) :
    let q := s.region (inp s 0)
    exec .netwUpdate s = .next ((s.setRegion (inp s 0) { q with netwOut := dropAt q.netwOut (inp s 1) }).setCoreAt c
      { s.coreAt c with netw := x }) := by
  change execNetwUpdate s = _
  simp only [execNetwUpdate, if_pos h1, hq, first_of_core hfirst, if_true]

end Netw

/-- Settles O54: each event by the lemma that says what it does where its conditions hold. -/
theorem counterEventResults : Obligations.CounterEventResults := by
  unfold Obligations.CounterEventResults
  intro s j r u
  refine ⟨fun o x ra inst => barrierArrival_arrives, ?arrival, fun n => barrierCompletion_taken, fun hr => waferTimeBeacon_slews hr,
    waferTimeBeacon_of_leader, fun hr => ?sample, fun hr hu => ⟨levelSample_samples hr hu, ?grant⟩, fun c now v h => sample_records h v,
    fun h1 c x => netwUpdate_applies h1, fun h1 c x => netwUpdate_reaches h1⟩
  case arrival =>
    intro reg x unit inst n ms now
    refine ⟨arriveAt_passed, ?counts, ?ahead, ?last⟩
    case counts =>
      rintro ⟨rfl, -, -⟩ hm
      have hcur : (counted (n.inst + 1#32) n).cur = n.cur + 1 := by rw [counted_next]
      rw [arriveAt_waits (next_not_passed n.inst) (hcur ▸ hm), ← counted_next]
      rfl
    case ahead =>
      intro waits hlater hne hm
      have hwaits : counted inst n = waits := counted_ahead hne
      rw [arriveAt_waits hlater (counted_ahead_cur hne ▸ hm), ← hwaits]
      rfl
    case last =>
      rintro ⟨rfl, hx, hl⟩ hm hn
      exact ⟨_, arriveAt_completes hx hl hm hn, instanceDone_node, instanceDone_notices⟩
  case sample =>
    exact ⟨_, captureSample_offers hr, offer_core, offer_offeredNow, fun k => offer_capture⟩
  case grant =>
    exact ⟨_, captureGrantWrite_grants hr hu, granted_capture .., granted_grantOf .., rfl⟩

end Sys2Proof.Proofs
end

section
/-! O7 to O9: what a trap parks, saves and clears, a trap in firmware mode, what tret resumes (14 R349, R350, R353, R356, R362). -/

namespace Sys2Proof.Proofs

open Sys2Proof.Machine Sys2Proof.Laws

/-! The entry (R349, R362). -/

/-- The landing queue of a firing with what is in flight behind it, as its park leaves them (R362). -/
def parkedList (c : Core) : List Pending :=
  c.lq ++ (c.pend.filter (fun p => !p.var) ++ c.pend.filter Pending.var).map fun p => { p with own := false }

/-- Outside firmware mode the cycle's changes go to the firing's counters. -/
theorem applyTc_of_user {c : Core} (h : c.fwm = false) :
    c.applyTc = { c with regs := { c.regs with tc := tcApply c.regs.tc c.tcd }, tcd := [] } := by
  simp [Core.applyTc, Core.banked, h]

/-- What is parked outside firmware mode is the firing's. -/
theorem park_of_user {c : Core} (h : c.fwm = false) :
    c.park = { c with lq := (parkedList c).take 64, heldVar := c.heldVar ++ (parkedList c).drop 64, pend := [] } := by
  simp only [Core.park, h, parkedList]

section Entry

variable {c : Core} (h : c.fwm = false) (cause : BitVec 6) (pc : Addr) (val : W64)

include h

theorem takeTrap_parks :
    (c.takeTrap cause pc val).lq = (parkedList c).take 64 ∧
      (c.takeTrap cause pc val).heldVar = c.heldVar ++ (parkedList c).drop 64 ∧ (c.takeTrap cause pc val).pend = [] := by
  have hu : c.applyTc.fwm = false := by rw [applyTc_of_user h, h]
  have hl : parkedList c.applyTc = parkedList c := by rw [applyTc_of_user h]; rfl
  have hv : c.applyTc.heldVar = c.heldVar := by rw [applyTc_of_user h]
  simp only [Core.takeTrap, h, Bool.false_eq_true, if_false, park_of_user hu, hl, hv, and_self]

/-- The firing's STALL ticks and divider are kept aside; the handler owes none and finds an empty bank (R349, R350). -/
theorem takeTrap_saves :
    (c.takeTrap cause pc val).savedStall = c.stallrem ∧ (c.takeTrap cause pc val).savedDiv = c.divrem ∧
      (c.takeTrap cause pc val).stallrem = 0 ∧ (c.takeTrap cause pc val).divrem = 0 ∧
      (c.takeTrap cause pc val).bankS = Vector.replicate 8 0#64 ∧ (c.takeTrap cause pc val).bankTc = Vector.replicate 16 0#16 := by
  simp only [Core.takeTrap, h, Bool.false_eq_true, if_false, applyTc_of_user h, Core.park, and_self]

end Entry

/-- Settles O7: what is parked and saved, and the entry, by the lemma of each. -/
theorem trapEntry : Obligations.TrapEntry := by
  unfold Obligations.TrapEntry
  intro c cause pc val h
  obtain ⟨hfwm, hcause, hpc, hval, hhalt⟩ := takeTrap_of_user h cause pc val
  obtain ⟨hlq, hheld, hpend⟩ := takeTrap_parks h cause pc val
  obtain ⟨hstall, hdiv, hstall0, hdiv0, hbankS, hbankTc⟩ := takeTrap_saves h cause pc val
  obtain ⟨hs, hk, hn, hv, hfpstat, -⟩ := takeTrap_frame c cause pc val
  obtain ⟨hentry, -⟩ := takeTrap_entry h cause pc val
  exact ⟨hcause, hpc, hval, hfwm, hlq, hheld, hpend, hstall, hdiv, hstall0, hdiv0, hbankS, hbankTc, hentry, hhalt, hs, hk, hn, hv, hfpstat⟩

/-- Settles O8: a trap in firmware mode is the failure of the core. -/
theorem doubleFaultFails : Obligations.DoubleFaultFails := by
  unfold Obligations.DoubleFaultFails
  intro c cause pc val h
  exact takeTrap_of_firmware h cause pc val

/-! The return (R356). -/

theorem mem_runOn {p : Pending} {l : List Pending} (hp : p ∈ l) :
    { p with rem := if p.var then 1 else p.rem, own := false } ∈ runOn l := List.mem_map_of_mem hp

/-- In flight after tret: the landing queue, what firmware has in flight beside its bank, and what waited at the router. -/
theorem tret_pend (c : Core) : c.tret.pend = runOn c.lq ++ (c.pend.filter fun p => !p.inBank) ++ runOn c.heldVar := rfl

/-- What was parked, in the queue or at the router, is in flight again. -/
theorem mem_tret_pend_of_parked {c : Core} {p : Pending} (hp : p ∈ c.lq ++ c.heldVar) :
    { p with rem := if p.var then 1 else p.rem, own := false } ∈ c.tret.pend := by
  rw [tret_pend]
  cases List.mem_append.1 hp with
  | inl hq => exact List.mem_append_left _ (List.mem_append_left _ (mem_runOn hq))
  | inr hr => exact List.mem_append_right _ (mem_runOn hr)

/-- Settles O9: tret's fields as it writes them, and each parked result in one of the two lists that run on. -/
theorem tretResumes : Obligations.TretResumes := by
  unfold Obligations.TretResumes
  intro c
  exact ⟨rfl, rfl, rfl, rfl, rfl, rfl, fun p hp => mem_tret_pend_of_parked hp, rfl⟩

end Sys2Proof.Proofs
end

section
/-! O59: the state that reset leaves, and what the host reads of it (14 R351, R352, 16 R403, 17 R436, R438). -/

namespace Sys2Proof.Proofs

open Sys2Proof.Machine Sys2Proof.Safety Sys2Proof.Laws

/-- Memory that lists nothing reads zero (07 R167; log 5). -/
theorem rdN_nil (a n : Nat) : rdN [] a n = 0 := by
  induction n generalizing a with
  | zero => rfl
  | succ n ih => rw [rdN, ih]; rfl

/-- Reset parks no core, so every core is as core reset leaves it. -/
theorem coreAt_reset (n : Nat) : State.reset.coreAt n = Core.reset := by
  unfold State.coreAt
  split <;> rfl

/-! The control window (17 R436). -/

theorem controlRead_podmemb (s : State) {i : Nat} (hi : i < 16) :
    controlRead s (0x180 + 8 * i) = (s.bridge.podmemb[i]).toNat := by
  unfold controlRead
  iterate 8 rw [if_neg (by omega)]
  rw [if_pos (by omega)]
  simp [hi]

theorem controlRead_link (s : State) {i : Nat} (hi : i < 32) :
    controlRead s (0x200 + 8 * i) = (s.link i).word.toNat := by
  unfold controlRead
  iterate 9 rw [if_neg (by omega)]
  rw [if_pos (by omega)]
  have hq : (0x200 + 8 * i - 0x200) / 8 = i := by omega
  rw [hq]

/-! A launch page (17 R438). -/

/-- The registers of an event queue that is not set up. -/
theorem register_empty (off : Nat) : ({} : EventQueue).register off = 0 := by
  unfold EventQueue.register
  split <;> rfl

/-- A launch page of the reset state: no ring is written, no record taken, no region placed, no event queue set up. -/
theorem pageRead_reset (q off : Nat) : pageRead State.reset q off = 0 := by
  have hpage : State.reset.page q = {} := rfl
  have hstate : rstate State.reset q = 0 := rfl
  have hqueue : (State.reset.queue q).register (off - 0x440) = 0 := register_empty _
  simp [pageRead, rdN_nil, hpage, hstate, hqueue]

/-! The statement's parts. -/

theorem globalWf_reset : GlobalWf State.reset := ⟨wf_nil, wf_nil⟩

theorem buffersWf_reset : BuffersWf State.reset.core := ⟨wf_nil, wf_nil, wf_nil⟩

theorem controlRead_reset_named : ∀ off, off ∈ [0x08, 0x18, 0x20, 0x80, 0x100] → controlRead State.reset off = 0 := by
  simp only [List.forall_mem_cons]
  exact ⟨rfl, rfl, rfl, rfl, rfl, List.forall_mem_nil _⟩

theorem controlRead_reset_podmemb {i : Nat} (hi : i < 16) : controlRead State.reset (0x180 + 8 * i) = 0 := by
  rw [controlRead_podmemb _ hi]
  exact congrArg BitVec.toNat (Vector.getElem_replicate hi)

theorem controlRead_reset_link {i : Nat} (hi : i < 32) : controlRead State.reset (0x200 + 8 * i) = 0 := by
  rw [controlRead_link _ hi]
  change ({} : Link).word.toNat = 0
  decide

/-- Settles O59: the fields hold the values that State and Core give them, RSEQ's zero among them (no rule gives it before the region's
launch, 09 R232), and the host's reads follow from those of the bridge, the links and the pages. -/
theorem resetState : Obligations.ResetState := by
  unfold Obligations.ResetState
  intro c
  have hslots (i : Fin 16) : c.slots[i] = {} := Vector.getElem_replicate i.isLt
  have hboot : controlRead State.reset 0x10 = 0x00FF0000 := rfl
  exact ⟨globalWf_reset, buffersWf_reset, rfl, rfl, rfl, rfl, fun _ => rfl, coreAt_reset,
    rfl, rfl, rfl, rfl, rfl, rfl, rfl, rfl, rfl, rfl, rfl, rfl, rfl, rfl, rfl, rfl, rfl, rfl, rfl, rfl, fun _ => rfl, hslots,
    controlRead_reset_named, hboot, fun _ => controlRead_reset_podmemb, fun _ => controlRead_reset_link,
    fun q off _ => pageRead_reset q off⟩

end Sys2Proof.Proofs
end

section
/-! O47, the run of a handler: what an operation leaves in its block and at its element (15 R378 to R383, R395, R400). -/

namespace Sys2Proof.Proofs

open Sys2Proof.Machine Sys2Proof.Safety Sys2Proof.Laws

/-! Elements of a block. -/

@[simp] theorem elem_setElem_self (b : Block) (e : Nat) (x : Element) : (b.setElem e x).elem e = x := by simp [Block.elem, Block.setElem]

theorem elem_setElem_of_ne {e k : Nat} (h : k ≠ e) (b : Block) (x : Element) : (b.setElem e x).elem k = b.elem k := by
  simp [Block.elem, Block.setElem, findD_insert_of_ne h]

theorem elem_of_elems {b d : Block} (h : d.elems = b.elems) (k : Nat) : d.elem k = b.elem k := by simp [Block.elem, h]

/-- A block's commands, armed points, link streams and formed tiles: what stands in it beside its elements. -/
def besideElems (b : Block) : List EdgeCmd × List Armed × Map (List ETok) × Map (List ETok) × List PubTile :=
  (b.queue, b.armed, b.rx, b.tx, b.tiles)

theorem settle_frame (m : Memory) (b : Block) : (b.settle m).elems = b.elems ∧ besideElems (b.settle m) = besideElems b := by
  unfold Block.settle
  split <;> exact ⟨rfl, rfl⟩

/-! The stages of a run (R380). -/

section Stages

variable (o : EdgeOp) (m : Memory) (reg : Nat) (act : Act) (s : State)

/-- The block of the handler in focus, and the handler's element. -/
abbrev focusBlock : Block := s.block s.handler.1
abbrev focusElem (b : Block) : Element := b.elem s.handler.2.1

/-- The block once the consumed tokens have left source A, then source B. -/
def sourcesTaken : Block :=
  let e := s.handler.2.1
  let b := focusBlock s
  let b1 := if act.popA then b.popA s m o.op e o.a.toNat else b
  if act.popB && decide (o.b.toNat < 16) then b1.popA s m 0 e o.b.toNat else b1

/-- The generation at source A. -/
def headGen : BitVec 24 :=
  match (focusBlock s).headA s m o.op s.handler.2.1 o.a.toNat with
  | some t => t.gen
  | none => 0#24

/-- The block once a whole stream has become a tile and the tokens of a link are sent; and the tokens of destination B. -/
def outputsGiven : Block × List ETok :=
  let r := (sourcesTaken o m act s).publish s reg s.handler.1 m o s.handler.2.1 s.handler.2.2 act
    ((focusElem s (focusBlock s)).state s.handler.2.2) (headGen o m s)
  (if o.op = 0x19 then r.1.sendLink (linkOwned s s.handler.1 reg) o.d.toNat act.outA else r.1, r.2)

/-- The outputs of a run as they stand at the element, for the tokens of destination B. -/
def outputsAt (outB : List ETok) : List (Nat × ETok) × List (Nat × ETok) :=
  (if o.op = 0x19 then [] else toward o.d.toNat ((handlerEntry m s).extractLsb' 54 4) act.outA,
    toward o.e.toNat ((handlerEntry m s).extractLsb' 50 4) outB)

/-- The element with the working state and the outputs of the run. -/
def outputsLeft (r : Block × List ETok) : Element :=
  let x := focusElem s r.1
  let t := outputsAt o m act s r.2
  { x with
    hs := Machine.insert s.handler.2.2 act.hs x.hs, out := x.out ++ weave t.1 t.2
    hold := (x.hold && !x.out.isEmpty) || decide (1 < t.1.length) || decide (1 < t.2.length) }

/-- The block with the error tokens that a SINK has counted. -/
def errsCounted (n : Nat) (b : Block) : Block :=
  { b with lenerr := BitVec.ofNat 16 (Nat.min (b.lenerr.toNat + n) 0xFFFF)
           perErr := BitVec.ofNat 32 (Nat.min (b.perErr.toNat + n) 0xFFFFFFFF) }

/-- The block with the element so. -/
def elementLeft : Block :=
  let r := outputsGiven o m reg act s
  errsCounted act.errs
    { r.1.setElem s.handler.2.1 (outputsLeft o m act s r) with waited := if r.1.state == BlockState.running then 0 else r.1.waited }

/-- The block after the run. -/
def blockAfter : Block := ((elementLeft o m reg act s).record s reg s.handler.1 s.handler.2.1 act).settle m

end Stages

/-- The handler in focus may run: it is not masked, its block runs, its element is neither stopped nor held (R380). -/
def handlerMay (m : Memory) (s : State) : Bool :=
  decide (s.handler.2.1 ≤ 63) && (s.block s.handler.1).runs s && !((s.block s.handler.1).elem s.handler.2.1).halted &&
    entryRuns (planeEntry m s.handler.2.1 s.handler.2.2) && !((s.block s.handler.1).elem s.handler.2.1).heldFor s.handler.2.2

section Run

variable {o : EdgeOp} {m : Memory} {reg : Nat} {s : State} (hm : (s.block s.handler.1).plane = some m) (hr : (s.block s.handler.1).owner = some reg)

include hm hr

theorem runHandler_eq : runHandler o s = if handlerMay m s then
    match edgeAct s (s.block s.handler.1) m o s.handler.2.1 s.handler.2.2 with
    | none => s
    | some act => { s.setBlock s.handler.1 (blockAfter o m reg act s) with fresh := s.fresh + 1 }
    else s := by
  have hmay : (decide (63 < s.handler.2.1) || !(s.block s.handler.1).runs s || ((s.block s.handler.1).elem s.handler.2.1).halted ||
      !entryRuns (planeEntry m s.handler.2.1 s.handler.2.2) || ((s.block s.handler.1).elem s.handler.2.1).heldFor s.handler.2.2) =
      !handlerMay m s := by
    have hbound : decide (63 < s.handler.2.1) = !decide (s.handler.2.1 ≤ 63) := by rw [← decide_not, decide_eq_decide, Nat.not_le]
    simp only [handlerMay, hbound, Bool.not_and, Bool.not_not]
  simp only [runHandler, hm, hr, hmay]
  cases handlerMay m s
  · rfl
  · rfl

end Run

/-! What each stage leaves alone. -/

/-- An element's working states, outputs and stop: what stands in it beside its queues. -/
def besideQueues (x : Element) : Map HState × List (Nat × ETok) × Bool := (x.hs, x.out, x.halted)

/-- Every element but e is as it was, and e beside its queues; the block's commands, sent tokens and tiles too. -/
def onlyQueues (e : Nat) (b d : Block) : Prop :=
  (∀ k, k ≠ e → d.elem k = b.elem k) ∧ besideQueues (d.elem e) = besideQueues (b.elem e) ∧
    d.queue = b.queue ∧ d.tx = b.tx ∧ d.tiles = b.tiles

theorem onlyQueues_refl (e : Nat) (b : Block) : onlyQueues e b b := ⟨fun _ _ => rfl, rfl, rfl, rfl, rfl⟩

theorem onlyQueues_trans {e : Nat} {b d f : Block} (h : onlyQueues e b d) (g : onlyQueues e d f) : onlyQueues e b f := by
  obtain ⟨helems, helem, hqueue, htx, htiles⟩ := h
  obtain ⟨gelems, gelem, gqueue, gtx, gtiles⟩ := g
  exact ⟨fun k hk => (gelems k hk).trans (helems k hk), gelem.trans helem, gqueue.trans hqueue, gtx.trans htx, gtiles.trans htiles⟩

section Pop

variable (s : State) (m : Memory) (b : Block) (e a : Nat)

/-- Every operation but SRCN and RIN takes its token from a queue (R378). -/
theorem popA_of_queue {op : Nat} (hop : op ≠ 0x16 ∧ op ≠ 0x18) :
    b.popA s m op e a = b.setElem e { b.elem e with queues := Machine.insert a ((b.elem e).queue a).tail (b.elem e).queues } := by
  simp [Block.popA, hop]

theorem popA_onlyQueues (op : Nat) : onlyQueues e b (b.popA s m op e a) := by
  unfold Block.popA
  split
  · exact onlyQueues_refl e b
  split
  · exact onlyQueues_refl e b
  · exact ⟨fun k hk => elem_setElem_of_ne hk b _, by rw [elem_setElem_self]; rfl, rfl, rfl, rfl⟩

theorem popA_queue {op : Nat} (hop : op ≠ 0x16 ∧ op ≠ 0x18) (k : Nat) :
    ((b.popA s m op e a).elem e).queue k = ((b.elem e).queue k).drop (if k = a then 1 else 0) := by
  rw [popA_of_queue s m b e a hop, elem_setElem_self]
  by_cases hk : k = a
  · subst hk; simp [Element.queue]
  · simp [Element.queue, hk, findD_insert_of_ne hk]

end Pop

theorem publish_frame (s : State) (reg p : Nat) (m : Memory) (o : EdgeOp) (e c : Nat) (act : Act) (old : HState) (g : BitVec 24) (b : Block) :
    (b.publish s reg p m o e c act old g).1 = { b with tiles := (b.publish s reg p m o e c act old g).1.tiles } := by
  unfold Block.publish
  split
  · rfl
  split <;> rfl

theorem publish_of_no_stream {act : Act} (h : act.stream = none) (s : State) (reg p : Nat) (m : Memory) (o : EdgeOp) (e c : Nat)
    (old : HState) (g : BitVec 24) (b : Block) : b.publish s reg p m o e c act old g = (b, act.outB) := by
  simp only [Block.publish, h]

theorem sendLink_frame (owned : Bool) (k : Nat) (ts : List ETok) (b : Block) :
    (b.sendLink owned k ts).elems = b.elems ∧ (b.sendLink owned k ts).queue = b.queue ∧ (b.sendLink owned k ts).armed = b.armed ∧
      (b.sendLink owned k ts).rx = b.rx := by
  cases owned <;> exact ⟨rfl, rfl, rfl, rfl⟩

theorem sendLink_tx (owned : Bool) (k : Nat) (ts : List ETok) (b : Block) :
    findD k [] (b.sendLink owned k ts).tx = findD k [] b.tx ++ if owned then ts else [] := by
  cases owned
  · exact (List.append_nil _).symm
  · exact findD_insert_self ..

/-- The block with the element stopped. -/
def elementStopped (e : Nat) (b : Block) : Block := b.setElem e { b.elem e with halted := true }

theorem record_of_halt {act : Act} (h : act.halt.isSome = true) (s : State) (reg p e : Nat) (b : Block) :
    (b.record s reg p e act).elems = (elementStopped e b).elems ∧ besideElems (b.record s reg p e act) = besideElems b := by
  obtain ⟨t, ht⟩ := Option.isSome_iff_exists.1 h
  simp only [Block.record, ht]
  exact ⟨rfl, rfl⟩

theorem record_frame (act : Act) (s : State) (reg p e : Nat) (b : Block) :
    besideElems (b.record s reg p e act) = besideElems b ∧ (∀ k, k ≠ e → (b.record s reg p e act).elem k = b.elem k) ∧
      ((b.record s reg p e act).elem e).queues = (b.elem e).queues ∧
      besideQueues ((b.record s reg p e act).elem e) = ((b.elem e).hs, (b.elem e).out, (b.elem e).halted || act.halt.isSome) := by
  cases hh : act.halt.isSome
  · have hnone : b.record s reg p e act = b := by simp [Block.record, Option.isSome_eq_false_iff.1 hh |> Option.isNone_iff_eq_none.1]
    simp [hnone, besideQueues]
  · obtain ⟨helems, hbeside⟩ := record_of_halt hh s reg p e b
    have hown : (elementStopped e b).elem e = { b.elem e with halted := true } := elem_setElem_self ..
    simp only [elem_of_elems helems, hown, Bool.or_true]
    exact ⟨hbeside, fun k hk => elem_setElem_of_ne hk b _, trivial, rfl⟩

section StageFrames

variable (o : EdgeOp) (m : Memory) (reg : Nat) (act : Act) (s : State)

theorem sourcesTaken_onlyQueues : onlyQueues s.handler.2.1 (focusBlock s) (sourcesTaken o m act s) := by
  have hA : onlyQueues s.handler.2.1 (focusBlock s)
      (if act.popA then (focusBlock s).popA s m o.op s.handler.2.1 o.a.toNat else focusBlock s) := by
    split
    · exact popA_onlyQueues ..
    · exact onlyQueues_refl ..
  unfold sourcesTaken
  dsimp only
  split
  · exact onlyQueues_trans hA (popA_onlyQueues ..)
  · exact hA

/-- The tokens taken from the element's queues (R378). -/
theorem sourcesTaken_queue (hop : act.popA = true → o.op ≠ 0x16 ∧ o.op ≠ 0x18) (k : Nat) :
    (focusElem s (sourcesTaken o m act s)).queue k = ((focusElem s (focusBlock s)).queue k).drop
      ((if act.popA = true ∧ k = o.a.toNat then 1 else 0) + (if act.popB = true ∧ o.b.toNat < 16 ∧ k = o.b.toNat then 1 else 0)) := by
  have hA : (focusElem s (if act.popA then (focusBlock s).popA s m o.op s.handler.2.1 o.a.toNat else focusBlock s)).queue k =
      ((focusElem s (focusBlock s)).queue k).drop (if act.popA = true ∧ k = o.a.toNat then 1 else 0) := by
    cases hpop : act.popA
    · simp
    · simpa using popA_queue s m (focusBlock s) s.handler.2.1 o.a.toNat (hop hpop) k
  rw [← List.drop_drop, ← hA]
  unfold sourcesTaken
  cases hpop : act.popB
  · simp
  by_cases hb : o.b.toNat < 16
  · simpa [hb] using popA_queue s m _ s.handler.2.1 o.b.toNat (op := 0) (by decide) k
  · simp [hb]

theorem outputsGiven_frame :
    (outputsGiven o m reg act s).1.elems = (sourcesTaken o m act s).elems ∧ (outputsGiven o m reg act s).1.queue = (sourcesTaken o m act s).queue ∧
      (outputsGiven o m reg act s).1.armed = (sourcesTaken o m act s).armed ∧ (outputsGiven o m reg act s).1.rx = (sourcesTaken o m act s).rx := by
  unfold outputsGiven
  dsimp only
  rw [publish_frame]
  split
  · exact sendLink_frame ..
  · exact ⟨rfl, rfl, rfl, rfl⟩

/-- The element has the working state and the outputs of the run; the rest of the block is as the outputs left it. -/
theorem elementLeft_frame :
    let x := focusElem s (elementLeft o m reg act s)
    let y := focusElem s (outputsGiven o m reg act s).1
    let t := outputsAt o m act s (outputsGiven o m reg act s).2
    besideElems (elementLeft o m reg act s) = besideElems (outputsGiven o m reg act s).1 ∧
      (∀ k, k ≠ s.handler.2.1 → (elementLeft o m reg act s).elem k = (outputsGiven o m reg act s).1.elem k) ∧ x.queues = y.queues ∧
      besideQueues x = (Machine.insert s.handler.2.2 act.hs y.hs, y.out ++ weave t.1 t.2, y.halted) := by
  have hown : focusElem s (elementLeft o m reg act s) = outputsLeft o m act s (outputsGiven o m reg act s) := elem_setElem_self ..
  intro x y t
  simp only [x, hown]
  exact ⟨rfl, fun k hk => elem_setElem_of_ne hk .., rfl, rfl⟩

/-- The run leaves every other element as it was, its own with the sources taken, the working state and the outputs; and what stands in
the block beside its elements is what its outputs made of it. -/
theorem blockAfter_frame :
    let x := focusElem s (blockAfter o m reg act s)
    let y := focusElem s (focusBlock s)
    let t := outputsAt o m act s (outputsGiven o m reg act s).2
    besideElems (blockAfter o m reg act s) = besideElems (outputsGiven o m reg act s).1 ∧
      (∀ k, k ≠ s.handler.2.1 → (blockAfter o m reg act s).elem k = (focusBlock s).elem k) ∧
      x.queues = (focusElem s (sourcesTaken o m act s)).queues ∧
      besideQueues x = (Machine.insert s.handler.2.2 act.hs y.hs, y.out ++ weave t.1 t.2, y.halted || act.halt.isSome) := by
  obtain ⟨hothers, hown, -⟩ := sourcesTaken_onlyQueues o m act s
  obtain ⟨helems, -⟩ := outputsGiven_frame o m reg act s
  obtain ⟨hlbeside, hlothers, hlqueues, hlown⟩ := elementLeft_frame o m reg act s
  obtain ⟨hrbeside, hrothers, hrqueues, hrown⟩ := record_frame act s reg s.handler.1 s.handler.2.1 (elementLeft o m reg act s)
  obtain ⟨hsettled, hsbeside⟩ := settle_frame m ((elementLeft o m reg act s).record s reg s.handler.1 s.handler.2.1 act)
  simp only [besideQueues, Prod.mk.injEq, elem_of_elems helems] at hown hlothers hlqueues hlown
  obtain ⟨hhs, hout, hhalted⟩ := hown
  obtain ⟨hlhs, hlout, hlhalted⟩ := hlown
  simp only [blockAfter, focusElem, elem_of_elems hsettled]
  refine ⟨hsbeside.trans (hrbeside.trans hlbeside), fun k hk => ?_, hrqueues.trans hlqueues, ?_⟩
  · rw [hrothers k hk, hlothers k hk, hothers k hk]
  · rw [hrown, hlhs, hlout, hlhalted, hhs, hout, hhalted]

end StageFrames

/-! The state after a run. -/

section Ran

variable {o : EdgeOp} {m : Memory} {reg : Nat} {act : Act} {s : State} (hm : (s.block s.handler.1).plane = some m)
  (hr : (s.block s.handler.1).owner = some reg) (hmay : handlerMay m s = true)
  (hact : edgeAct s (s.block s.handler.1) m o s.handler.2.1 s.handler.2.2 = some act)

include hm hr hmay hact

theorem runHandler_of_act : runHandler o s = { s.setBlock s.handler.1 (blockAfter o m reg act s) with fresh := s.fresh + 1 } := by
  rw [runHandler_eq hm hr, if_pos hmay, hact]

theorem runHandler_block : (runHandler o s).block s.handler.1 = blockAfter o m reg act s := by
  rw [runHandler_of_act hm hr hmay hact]
  exact block_setBlock_self ..

theorem handlerDid_of_act : handlerDid act s (runHandler o s) := by
  obtain ⟨-, hothers, -, hown⟩ := blockAfter_frame o m reg act s
  simp only [besideQueues, Prod.mk.injEq] at hown
  obtain ⟨hhs, -, hhalted⟩ := hown
  have hrunning : ((s.block s.handler.1).elem s.handler.2.1).halted = false := by
    simp only [handlerMay, Bool.and_eq_true, Bool.not_eq_true'] at hmay
    exact hmay.1.1.2
  have hran := runHandler_of_act hm hr hmay hact
  unfold handlerDid
  dsimp only
  rw [runHandler_block hm hr hmay hact]
  refine ⟨by rw [hran]; rfl, fun k hk => ?_, hothers, ?_, fun k hk => ?_, ?_⟩
  · rw [hran]; exact block_setBlock_of_ne hk ..
  · rw [Element.state, hhs, findD_insert_self]
  · rw [Element.state, hhs, findD_insert_of_ne hk]; rfl
  · rw [hhalted, hrunning, Bool.false_or]

theorem handlerTook_of_act (hop : act.popA = true → o.op ≠ 0x16 ∧ o.op ≠ 0x18) : handlerTook o act s (runHandler o s) := by
  obtain ⟨-, -, hqueues, -⟩ := blockAfter_frame o m reg act s
  intro k
  rw [runHandler_block hm hr hmay hact, ← sourcesTaken_queue o m act s hop k, Element.queue, hqueues]
  rfl

/-- The outputs of a handler that no earlier output holds. -/
theorem runHandler_out (hout : ((s.block s.handler.1).elem s.handler.2.1).out = []) :
    (focusElem s ((runHandler o s).block s.handler.1)).out =
      weave (outputsAt o m act s (outputsGiven o m reg act s).2).1 (outputsAt o m act s (outputsGiven o m reg act s).2).2 := by
  obtain ⟨-, -, -, hown⟩ := blockAfter_frame o m reg act s
  simp only [besideQueues, Prod.mk.injEq, focusBlock, focusElem, hout] at hown
  rw [runHandler_block hm hr hmay hact]
  exact hown.2.1

theorem handlerPut_of_act (hout : ((s.block s.handler.1).elem s.handler.2.1).out = []) (hop : o.op ≠ 0x19) (hstream : act.stream = none) :
    handlerPut o m act s (runHandler o s) := by
  refine (runHandler_out hm hr hmay hact hout).trans ?_
  simp only [outputsAt, outputsGiven, publish_of_no_stream hstream, if_neg hop]

/-- A run leaves the block's commands. -/
theorem runHandler_queue : ((runHandler o s).block s.handler.1).queue = (s.block s.handler.1).queue := by
  obtain ⟨-, -, hqueue, -⟩ := sourcesTaken_onlyQueues o m act s
  obtain ⟨-, hgiven, -⟩ := outputsGiven_frame o m reg act s
  obtain ⟨hbeside, -⟩ := blockAfter_frame o m reg act s
  rw [runHandler_block hm hr hmay hact]
  exact (congrArg (·.1) hbeside).trans (hgiven.trans hqueue)

end Ran

/-! A handler that is ready: its operation decides what it does. -/

/-- The working state of the handler in focus, and the tokens at its sources. -/
abbrev focusState (s : State) : HState := (focusElem s (focusBlock s)).state s.handler.2.2
abbrev focusA (o : EdgeOp) (m : Memory) (s : State) : Option ETok := (focusBlock s).headA s m o.op s.handler.2.1 o.a.toNat
abbrev focusB (o : EdgeOp) (m : Memory) (reg : Nat) (s : State) : Option ETok :=
  (focusBlock s).headB s.handler.2.1 o.b.toNat (handlerEnv o m reg s).lit (focusA o m s) (focusState s)

section Ready

variable {o : EdgeOp} {m : Memory} {reg : Nat} {act : Act} {s : State}

/-- What a handler whose literal an image may not hold would do (log 70). -/
theorem edgeAct_of_refused {b : Block} {e c : Nat}
    (h : litRefused o.op (planeLit m e ((fld (planeEntry m e c) 46 4 + o.l.toNat) % 16)) = true) : edgeAct s b m o e c = none := by
  simp only [edgeAct, h, if_true]

theorem handlerMay_of_ready (h : handlerReady o m s) : handlerMay m s = true := by
  obtain ⟨he, -, hruns, hentry, hhalted, hout, -⟩ := h
  have hheld : ((s.block s.handler.1).elem s.handler.2.1).heldFor s.handler.2.2 = false := by simp [Element.heldFor, hout]
  have hentry' : entryRuns (planeEntry m s.handler.2.1 s.handler.2.2) = true := hentry
  simp [handlerMay, he, hruns, hentry', hhalted, hheld]

/-- With a credit behind each destination a run stands (R380). -/
theorem edgeAct_of_run (hr : (s.block s.handler.1).owner = some reg) (h : handlerReady o m s)
    (hlink : o.op = 0x19 → (findD o.d.toNat [] (s.block s.handler.1).tx).length < 64)
    (hrun : (handlerEnv o m reg s).run (o.b == 0x10#5) (focusState s) (focusA o m s) (focusB o m reg s) = some act) :
    edgeAct s (s.block s.handler.1) m o s.handler.2.1 s.handler.2.2 = some act := by
  obtain ⟨-, hlit, -, -, -, -, hcreditA, hcreditB⟩ := h
  have hroom : (s.block s.handler.1).roomFor o s.handler.2.1 (fld (handlerEntry m s) 54 4) (fld (handlerEntry m s) 50 4) act = true := by
    by_cases hop : o.op = 0x19
    · simp [Block.roomFor, hop, hlink hop, hcreditB]
    · simp [Block.roomFor, hop, hcreditA, hcreditB]
  simp only [handlerEnv, focusState, focusA, focusB, handlerEntry] at hrun hroom hlit
  simp only [edgeAct, hr, Option.getD_some, hlit, Bool.false_eq_true, if_false, hrun, Option.filter_some, hroom, if_true]

/-- What an operation of queues does when its handler is ready: the tokens taken, the working state, the outputs. -/
def completes (o : EdgeOp) (m : Memory) (act : Act) (s : State) : Prop :=
  handlerDid act s (runHandler o s) ∧ handlerTook o act s (runHandler o s) ∧ handlerPut o m act s (runHandler o s)

theorem completes_of_run (hm : (s.block s.handler.1).plane = some m) (hr : (s.block s.handler.1).owner = some reg) (h : handlerReady o m s)
    (hop : o.op ∉ [0x16, 0x18, 0x19]) (hstream : act.stream = none)
    (hrun : (handlerEnv o m reg s).run (o.b == 0x10#5) (focusState s) (focusA o m s) (focusB o m reg s) = some act) : completes o m act s := by
  simp only [List.mem_cons, List.not_mem_nil, or_false, not_or] at hop
  obtain ⟨hsrcn, hrin, hrout⟩ := hop
  have hact := edgeAct_of_run hr h (fun hlink => absurd hlink hrout) hrun
  have hmay := handlerMay_of_ready h
  obtain ⟨-, -, -, -, -, hout, -⟩ := h
  exact ⟨handlerDid_of_act hm hr hmay hact, handlerTook_of_act hm hr hmay hact fun _ => ⟨hsrcn, hrin⟩,
    handlerPut_of_act hm hr hmay hact hout hrout hstream⟩

end Ready

end Sys2Proof.Proofs
end

section
/-! O47, the operations: what each does with the tokens at its sources (15 R382 to R387, R395). -/

namespace Sys2Proof.Proofs

open Sys2Proof.Machine Sys2Proof.Safety Sys2Proof.Laws

/-! Emission (R382). -/

section Emit

variable {x : EEnv} {a : Act}

/-- What a run takes from its sources, and the stream that it publishes: what emission leaves alone. -/
def consumed (a : Act) : Bool × Bool × Option (List ETok × ETok) := (a.popA, a.popB, a.stream)

@[simp] theorem push_consumed (b : Bool) (ts : List ETok) : consumed (a.push b ts) = consumed a := by cases b <;> rfl

@[simp] theorem emit_consumed (b : Bool) (ts : List ETok) (g h : BitVec 24) : consumed (x.emit b ts g h a) = consumed a := by
  unfold EEnv.emit
  dsimp only
  split
  · rfl
  split <;> exact push_consumed b _

@[simp] theorem error_consumed (r : Nat) (g : BitVec 24) : consumed (x.error r g a) = consumed a := push_consumed ..

@[simp] theorem eos_consumed (ws : List Bool) (fmt : BitVec 4) (g h : BitVec 24) : consumed (x.eos ws fmt g h a) = consumed a := by
  unfold EEnv.eos
  induction ws generalizing a with
  | nil => rfl
  | cons w ws ih => exact ih.trans (emit_consumed ..)

@[simp] theorem repack_consumed (fmt : BitVec 4) (bs : List Nat) (g : BitVec 24) : consumed (x.repack fmt bs g a) = consumed a := emit_consumed ..

@[simp] theorem flush_consumed (g : BitVec 24) : consumed (x.flush g a) = consumed a := emit_consumed ..

@[simp] theorem counted_consumed (t : ETok) : consumed (a.counted t) = consumed a := by unfold Act.counted; split <;> rfl

theorem tag_of_no_action (ht : x.taga = 0) (hs : HState) (g h : BitVec 24) : x.tag hs g h = (g, 0) := by simp [EEnv.tag, ht]

/-- Without a tag action a token is emitted with the trigger's generation. -/
theorem emit_of_no_action (ht : x.taga = 0) (b : Bool) (t : ETok) (g h : BitVec 24) :
    x.emit b [t] g h a = { a.push b [{ t with gen := g }] with hs := { a.hs with last := some g } } := by
  simp [EEnv.emit, tag_of_no_action ht]

theorem emit_token (ht : x.taga = 0) (b : Bool) (t : ETok) (h : BitVec 24) :
    x.emit b [t] t.gen h a = { a.push b [t] with hs := { a.hs with last := some t.gen } } := emit_of_no_action ht b t t.gen h

end Emit

/-! Every operation of one input but PUBN takes its token alone, and publishes nothing. -/

section OneInputConsumed

variable (x : EEnv) (t : ETok) (a : Act)

theorem pass_consumed (ws : List Bool) : consumed (x.pass ws t a) = consumed a := by
  have hemits (ws : List Bool) (a : Act) : consumed (ws.foldl (fun a w => x.emit w [t] t.gen t.gen a) a) = consumed a := by
    induction ws generalizing a with
    | nil => rfl
    | cons w ws ih => exact (ih _).trans (emit_consumed ..)
  unfold EEnv.pass
  split
  · exact eos_consumed ..
  · exact hemits ws a

theorem one_consumed (hs : HState) (h : x.op ≠ 0x17) : consumed (x.one hs t) = (true, false, none) := by
  have ha : consumed { popA := true, hs := hs } = (true, false, none) := rfl
  unfold EEnv.one
  dsimp only
  split
  case isTrue =>
    split
    · rfl
    split
    · exact (push_consumed ..).trans (push_consumed ..)
    · exact push_consumed ..
  case isFalse =>
    split
    · rfl
    rw [counted_consumed]
    split
    case h_17 => exact absurd ‹x.op = 0x17› h
    all_goals grind [consumed, pass_consumed, emit_consumed, eos_consumed, error_consumed, repack_consumed, flush_consumed, EEnv.xrnd, EEnv.cvt,
      EEnv.qmx, EEnv.dqmx, EEnv.cmpz, EEnv.dcmpz, EEnv.split, EEnv.steer, EEnv.cnt, EEnv.lim, EEnv.unpk, EEnv.scl, EEnv.hist, EEnv.eosg, EEnv.sink]

/-- A stream to publish is PUBN's alone (R395). -/
theorem one_stream (hs : HState) (h : x.op ≠ 0x17) : (x.one hs t).stream = none := congrArg (·.2.2) (one_consumed x t hs h)

end OneInputConsumed

/-! One input (R384 to R386): a token that is no error and no EOS, without a tag action; an EOS. -/

section OneInput

variable {x : EEnv} {hs : HState} {t : ETok}

/-- What a token that passes leaves. -/
def passed (hs : HState) (t : ETok) : Act := { popA := true, hs := { hs with last := some t.gen }, outA := [t] }

/-- The low half of a token by its mask. -/
theorem and_low_half (d : BitVec 256) : d &&& (BitVec.allOnes 128).zeroExtend 256 = (d.extractLsb' 0 128).zeroExtend 256 := by
  ext i hi
  simp only [BitVec.truncate_eq_setWidth, BitVec.getElem_and, BitVec.getElem_setWidth, BitVec.getLsbD_allOnes, BitVec.getLsbD_extractLsb',
    Nat.zero_add, BitVec.getLsbD_eq_getElem hi]
  exact Bool.and_comm ..

theorem sink_plain (he : t.eos = false) (hi : t.isErr = false) (hop : x.op = 0x15) : x.one hs t = { popA := true, hs := hs } := by
  simp [EEnv.one, hi, hop, EEnv.sink, Act.counted, he]

section Plain

variable (ht : x.taga = 0) (he : t.eos = false) (hi : t.isErr = false)

include ht he hi

theorem edgeNop_plain (hop : x.op = 0x1A) : x.one hs t = passed hs t := by
  simp [EEnv.one, hi, hop, EEnv.pass, Act.counted, he, emit_token ht, passed, Act.push]

theorem dup_plain (hop : x.op = 0x0A) : x.one hs t = { passed hs t with outB := [t] } := by
  simp [EEnv.one, hi, hop, EEnv.pass, Act.counted, he, emit_token ht, passed, Act.push]

theorem steer_plain (hop : x.op = 0x0C) : x.one hs t =
    if t.gen.getLsbD (x.lit.extractLsb' 0 5).toNat then { passed hs t with outA := [], outB := [t] } else passed hs t := by
  simp only [EEnv.one, hi, hop, EEnv.steer, Act.counted, he, emit_token ht]
  cases t.gen.getLsbD (x.lit.extractLsb' 0 5).toNat <;> rfl

theorem cnt_plain (hop : x.op = 0x0D) : x.one hs t = { passed hs t with hs := { (passed hs t).hs with n := hs.n + 1 } } := by
  simp [EEnv.one, hi, hop, EEnv.cnt, Act.counted, he, emit_token ht, passed, Act.push]

theorem lim_plain (hop : x.op = 0x0E) : x.one hs t =
    if hs.n < (x.lit.extractLsb' 0 24).toNat then { passed hs t with hs := { (passed hs t).hs with n := hs.n + 1 } }
    else { popA := true, hs := { hs with n := hs.n + 1 } } := by
  simp only [EEnv.one, hi, hop, EEnv.lim, Act.counted, he, emit_token ht]
  by_cases h : hs.n < (x.lit.extractLsb' 0 24).toNat
  · rw [if_pos h, if_pos h]; rfl
  · rw [if_neg h, if_neg h]; rfl

theorem unpk_plain (hop : x.op = 0x11) : x.one hs t = { passed hs t with
    outA := [{ t with data := (t.data.extractLsb' 0 128).zeroExtend 256 }], outB := [{ t with data := t.data >>> 128 }] } := by
  simp only [EEnv.one, hi, hop, EEnv.unpk, Act.counted, he, emit_of_no_action ht, and_low_half]
  rfl

end Plain

section Ended

variable (he : t.eos = true)

include he

theorem isErr_of_eos : t.isErr = false := by simp [ETok.isErr, he]

theorem sink_eos (hop : x.op = 0x15) : x.one hs t = { popA := true, hs := { hs with n := hs.n + 1, streams := hs.streams + 1 } } := by
  simp [EEnv.one, isErr_of_eos he, hop, EEnv.sink, Act.counted, he]

theorem edgeNop_eos (ht : x.taga = 0) (hop : x.op = 0x1A) : x.one hs t =
    { popA := true, hs := { hs.clear with last := some t.gen, streams := hs.streams + 1 }, outA := [{ eos := true, fmt := t.fmt, gen := t.gen }] } := by
  simp [EEnv.one, isErr_of_eos he, hop, EEnv.pass, Act.counted, he, EEnv.eos, EEnv.emit, tag_of_no_action ht, Act.push, HState.clear]

theorem dup_eos (ht : x.taga = 0) (hop : x.op = 0x0A) : x.one hs t =
    { popA := true, hs := { hs.clear with last := some t.gen, streams := hs.streams + 1 },
      outA := [{ eos := true, fmt := t.fmt, gen := t.gen }], outB := [{ eos := true, fmt := t.fmt, gen := t.gen }] } := by
  simp [EEnv.one, isErr_of_eos he, hop, EEnv.pass, Act.counted, he, EEnv.eos, EEnv.emit, tag_of_no_action ht, Act.push, HState.clear]

end Ended

theorem halte_stops (hop : x.op = 0x1B) : x.one hs t =
    if t.isErr then { popA := true, hs := hs, outA := [t] } else { popA := true, hs := hs, halt := some t } := by
  unfold EEnv.one
  cases t.isErr <;> simp [hop, Act.push]

end OneInput

/-! PUBN (R386, R395). -/

section Publish

variable {x : EEnv} {hs : HState} {t : ETok} (hop : x.op = 0x17)

include hop

theorem pubn_data (he : t.eos = false) : x.one hs t = { popA := true, hs := { hs with held := hs.held ++ [t] } } := by
  simp [EEnv.one, hop, EEnv.pubn, Act.counted, he]

/-- An EOS with no data goes to DSTB, or the error token of its tag action in its place (log 46). -/
theorem pubn_empty_error (he : t.eos = true) (hh : hs.held = []) (hr : (x.tag hs t.gen t.gen).2 ≠ 0) : x.one hs t =
    { popA := true, hs := { hs.clear with streams := hs.streams + 1 }, outB := [errTok x.elem 0x17 (x.tag hs t.gen t.gen).2 t.gen] } := by
  simp [EEnv.one, hop, EEnv.pubn, Act.counted, he, hh, hr, Act.push, HState.clear]

theorem pubn_empty (ht : x.taga = 0) (he : t.eos = true) (hh : hs.held = []) : x.one hs t =
    { popA := true, hs := { hs.clear with last := some t.gen, streams := hs.streams + 1 }, outB := [t] } := by
  obtain ⟨_, fmt, gen, chan, data⟩ := t
  cases he
  simp [EEnv.one, hop, EEnv.pubn, Act.counted, hh, tag_of_no_action ht, Act.push, HState.clear]

theorem pubn_stream (ht : x.taga = 0) (he : t.eos = true) (hh : hs.held ≠ []) : x.one hs t =
    { popA := true, hs := { hs.clear with last := some t.gen, streams := hs.streams + 1 }, stream := some (hs.held, t) } := by
  obtain ⟨_, fmt, gen, chan, data⟩ := t
  cases he
  simp [EEnv.one, hop, EEnv.pubn, Act.counted, hh, tag_of_no_action ht, HState.clear]

end Publish

/-! Which rule gives the run of an operation (R380). -/

section Runs

variable {x : EEnv} {litB : Bool} {hs : HState} {ha hb : Option ETok}

theorem run_one (hroom : x.room = true) (hop : x.op ∉ [0x00, 0x07, 0x08, 0x0B, 0x0F, 0x10]) {t : ETok} :
    x.run litB hs (some t) hb = some (x.one hs t) := by
  simp only [List.mem_cons, List.not_mem_nil, or_false, not_or] at hop
  obtain ⟨h00, h07, h08, h0B, h0F, h10⟩ := hop
  simp [EEnv.run, hroom, h00, h07, h08, h0B, h0F, h10]

theorem run_fifo (hop : x.op = 0x0F) : x.run litB hs ha hb = x.fifo hs ha := by simp [EEnv.run, hop]

theorem run_pair (hop : x.op = 0x00 ∨ x.op = 0x0B ∨ x.op = 0x10) : x.run litB hs ha hb = x.pair litB hs ha hb := by
  have hmerge : ¬(x.op = 0x07 ∨ x.op = 0x08) := by omega
  rw [EEnv.run, if_neg hmerge, if_pos hop]

theorem run_merge (hop : x.op = 0x07 ∨ x.op = 0x08) : x.run litB hs ha hb = x.mergeIn litB hs ha hb := if_pos hop

/-! FIFO (R385). -/

theorem fifo_takes (t : ETok) (hh : hs.held = []) : x.fifo hs (some t) = some { popA := true, hs := { hs with held := [t] } } := by
  simp [EEnv.fifo, hh]

theorem fifo_gives (hroom : x.room = true) (ht : x.taga = 0) {t : ETok} {q : List ETok} (hh : hs.held = t :: q) (he : t.eos = false)
    (hi : t.isErr = false) : x.fifo hs ha = some { hs := { hs with held := q, last := some t.gen }, outA := [t] } := by
  simp [EEnv.fifo, hh, hroom, he, hi, emit_token ht, Act.push]

/-! Pairs (R384, R385, R387). -/

/-- Source B shows no error token: it is the literal, or none stands there. -/
def noErrorAtB (litB : Bool) (hb : Option ETok) : Prop := ∀ y, hb = some y → (!litB && y.isErr) = false

section Pair

variable (hbad : hs.bad = false)

include hbad

theorem pair_discards {y : ETok} (hl : litB = false) (hy : y.isErr = true) : x.pair litB hs ha (some y) = some { popB := true, hs := hs } := by
  simp [EEnv.pair, hbad, hl, hy]

theorem pair_passes_error (hroom : x.room = true) {t : ETok} (h : noErrorAtB litB hb) (hi : t.isErr = true) :
    x.pair litB hs (some t) hb = some { popA := true, hs := hs, outA := [t] } := by
  cases hb with
  | none => simp [EEnv.pair, hbad, hi, hroom, Act.push]
  | some y => simp only [EEnv.pair, hbad, h y rfl, hi, hroom]; rfl

theorem pair_sides (h : noErrorAtB litB hb) (ha' : ∀ t, ha = some t → t.isErr = false) :
    x.pair litB hs ha hb = EEnv.pair.sides x litB hs ha hb (x.op == 0x00) := by
  cases ha with
  | none =>
    cases hb with
    | none => simp [EEnv.pair, hbad]
    | some y => simp only [EEnv.pair, hbad, h y rfl]; rfl
  | some t =>
    cases hb with
    | none => simp [EEnv.pair, hbad, ha' t rfl]
    | some y => simp only [EEnv.pair, hbad, h y rfl, ha' t rfl]; rfl

end Pair

/-! The sides of a pair. -/

theorem side_full {held : List ETok} (h : chunkFull held = true) (t : Option ETok) : side true held t = .data := by simp [side, h]
theorem side_grows {held : List ETok} (h : chunkFull held = false) {t : ETok} (he : t.eos = false) : side true held (some t) = .grow t := by
  simp [side, h, he]
theorem side_token (held : List ETok) {t : ETok} (he : t.eos = false) : side false held (some t) = .data := by simp [side, he]

theorem sides_both (hroom : x.room = true) {chunk : Bool} (hA : side chunk hs.held ha = .data) (hB : side chunk hs.heldB hb = .data) :
    EEnv.pair.sides x litB hs ha hb chunk = some (EEnv.pair.both x litB hs ha hb chunk) := by
  simp [EEnv.pair.sides, hA, hB, hroom]

theorem sides_grow_a (hroom : x.room = true) {t : ETok} (hop : x.op = 0x00) (hA : side true hs.held ha = .grow t) :
    EEnv.pair.sides x litB hs ha hb true = some (if t.fmt = 0xD#4 then { popA := true, hs := { hs with held := hs.held ++ [t] } }
      else { popA := true, hs := hs, outA := [errTok x.elem 0x00 2 t.gen] }) := by
  simp only [EEnv.pair.sides, hA, hroom, EEnv.error, hop]
  split <;> rfl

theorem sides_grow_b (hroom : x.room = true) {t : ETok} (hop : x.op = 0x00) (hA : side true hs.held ha = .data)
    (hB : side true hs.heldB hb = .grow t) :
    EEnv.pair.sides x litB hs ha hb true = some (if t.fmt = 0xD#4 then { popB := !litB, hs := { hs with heldB := hs.heldB ++ [t] } }
      else { popB := !litB, hs := hs, outA := [errTok x.elem 0x00 2 t.gen] }) := by
  simp only [EEnv.pair.sides, hA, hB, hroom, EEnv.error, hop]
  split <;> rfl

theorem both_chunks {t u : ETok} (hA : hs.held.getLast? = some t) (hB : hs.heldB.getLast? = some u) :
    EEnv.pair.both x litB hs ha hb true =
      x.emit false (allToks 0xD#4 ((mergeChunks (chunkFrom hs.held) (chunkFrom hs.heldB)).bytes.map BitVec.toNat)) t.gen u.gen
        { hs := { hs with held := [], heldB := [] } } := by
  simp [EEnv.pair.both, hA, hB]

theorem both_gate (ht : x.taga = 0) (hop : x.op = 0x0B) {t u : ETok} : EEnv.pair.both x litB hs (some t) (some u) false =
    if u.data.getLsbD 0 then { popA := true, popB := !litB, hs := { hs with last := some t.gen }, outA := [t] }
    else { popA := true, popB := !litB, hs := hs } := by
  simp only [EEnv.pair.both, hop, if_true, emit_token ht]
  rfl

theorem both_pack (ht : x.taga = 0) (hop : x.op = 0x10) {t u : ETok} (hf : t.fmt = u.fmt) : EEnv.pair.both x litB hs (some t) (some u) false =
    { popA := true, popB := !litB, hs := { hs with last := some t.gen }
      outA := [{ t with data := u.data.extractLsb' 0 128 ++ t.data.extractLsb' 0 128 }] } := by
  simp [EEnv.pair.both, hop, hf, emit_of_no_action ht, Act.push]

/-! Merges (R385, R387). -/

/-- In order of generation, as MTAG takes its tokens, and MRR in DETMODE. -/
def inOrder (x : EEnv) : Bool := x.op == 0x08 || x.det

theorem merge_discards {y : ETok} (hl : litB = false) (hy : y.isErr = true) : x.mergeIn litB hs ha (some y) = some { popB := true, hs := hs } := by
  simp [EEnv.mergeIn, hl, hy]

theorem merge_goes (h : noErrorAtB litB hb) : x.mergeIn litB hs ha hb =
    EEnv.mergeIn.go x hs (if hs.eosA then none else ha) (if hs.eosB then none else hb) := by
  cases hb with
  | none => simp [EEnv.mergeIn]
  | some y =>
    have hy : (y.isErr && !litB) = false := (Bool.and_comm ..).trans (h y rfl)
    simp only [EEnv.mergeIn, hy]
    rfl

theorem take_token (ht : x.taga = 0) (fromB : Bool) {t : ETok} (he : t.eos = false) : EEnv.mergeIn.take x hs fromB t =
    { popA := !fromB, popB := fromB, hs := { hs with flip := !fromB, last := some t.gen }, outA := [t] } := by
  simp [EEnv.mergeIn.take, he, emit_token ht, Act.push]

section Merge

variable (hroom : x.room = true) {t u : ETok}

include hroom

theorem go_passes_error (hi : t.isErr = true) : EEnv.mergeIn.go x hs (some t) hb = some { popA := true, hs := hs, outA := [t] } := by
  cases hb <;> simp [EEnv.mergeIn.go, hroom, hi, Act.push]

theorem go_ordered (ho : inOrder x = true) (he : t.eos = false) (hi : t.isErr = false) (he' : u.eos = false) :
    EEnv.mergeIn.go x hs (some t) (some u) =
      some (if t.gen.toNat ≤ u.gen.toNat then EEnv.mergeIn.take x hs false t else EEnv.mergeIn.take x hs true u) := by
  simp only [inOrder, Bool.or_eq_true, beq_iff_eq] at ho
  cases ho with
  | inl hop => by_cases hg : t.gen.toNat ≤ u.gen.toNat <;> simp [EEnv.mergeIn.go, hroom, hi, he, he', hop, hg]
  | inr hdet => by_cases hg : t.gen.toNat ≤ u.gen.toNat <;> simp [EEnv.mergeIn.go, hroom, hi, he, he', hdet, hg]

variable (ho : inOrder x = false)

include ho

theorem go_alternates (hi : t.isErr = false) : EEnv.mergeIn.go x hs (some t) (some u) =
    some (if hs.flip then EEnv.mergeIn.take x hs true u else EEnv.mergeIn.take x hs false t) := by
  simp only [inOrder, Bool.or_eq_false_iff, beq_eq_false_iff_ne] at ho
  simp only [EEnv.mergeIn.go, hroom, hi, ho]
  cases hs.flip <;> simp

theorem go_a (hi : t.isErr = false) : EEnv.mergeIn.go x hs (some t) none = some (EEnv.mergeIn.take x hs false t) := by
  simp only [inOrder, Bool.or_eq_false_iff, beq_eq_false_iff_ne] at ho
  simp [EEnv.mergeIn.go, hroom, hi, ho]

theorem go_b : EEnv.mergeIn.go x hs none (some u) = some (EEnv.mergeIn.take x hs true u) := by
  simp only [inOrder, Bool.or_eq_false_iff, beq_eq_false_iff_ne] at ho
  simp [EEnv.mergeIn.go, hroom, ho]

end Merge

end Runs
end Sys2Proof.Proofs
end

section
/-! O47, the handlers: the run of each operation's handler with a token at its source and a credit behind each destination (15 R380 to R387, R395, R400). -/

namespace Sys2Proof.Proofs

open Sys2Proof.Machine Sys2Proof.Safety Sys2Proof.Laws

/-- The head of the queue at source A. -/
abbrev queuedA (o : EdgeOp) (s : State) : Option ETok := ((focusElem s (focusBlock s)).queue o.a.toNat).head?

/-- The token at source B: of a queue, or the literal beside the token that it pairs with (R378). -/
abbrev shownB (o : EdgeOp) (m : Memory) (reg : Nat) (s : State) : Option ETok :=
  if o.b.toNat < 16 then ((focusElem s (focusBlock s)).queue o.b.toNat).head?
  else if o.b = 0x10#5 then
    ((((focusState s).held[(focusState s).heldB.length]?).or (focusState s).held.getLast?).or (queuedA o s)).map fun x =>
      ({ fmt := x.fmt, gen := x.gen, data := (handlerEnv o m reg s).lit } : ETok)
  else none

/-- What a merge leaves of a token of A, and of B. -/
def mergedA (hs : HState) (x : ETok) : Act := { popA := true, hs := { hs with flip := true, last := some x.gen }, outA := [x] }
def mergedB (hs : HState) (x : ETok) : Act := { popB := true, hs := { hs with flip := false, last := some x.gen }, outA := [x] }

section Sources

variable {o : EdgeOp} {m : Memory} {reg : Nat} {s : State}

theorem focusA_of_queue (hop : o.op ≠ 0x16 ∧ o.op ≠ 0x18) : focusA o m s = queuedA o s := by simp [focusA, Block.headA, hop]

theorem focusB_eq (hop : o.op ≠ 0x16 ∧ o.op ≠ 0x18) : focusB o m reg s = shownB o m reg s := by
  have hlit : o.b.toNat = 0x10 ↔ o.b = 0x10#5 := BitVec.toNat_inj (y := 0x10#5)
  simp only [focusB, focusA_of_queue hop, Block.headB, hlit]

theorem noErrorAtB_of {hb : Option ETok} (h : o.b = 0x10#5 ∨ ∀ y, hb = some y → y.isErr = false) : noErrorAtB (o.b == 0x10#5) hb := by
  intro y hy
  cases h with
  | inl hl => simp [hl]
  | inr hn => simp [hn y hy]

theorem noErrorAtB_of_token {litB : Bool} {hb : Option ETok} {y : ETok} (hy : hb = some y) (h : y.isErr = false) : noErrorAtB litB hb := by
  intro z hz
  cases hy.symm.trans hz
  simp [h]

theorem sourcesTaken_of_a {act : Act} (hA : act.popA = true) (hB : act.popB = false) (o : EdgeOp) (m : Memory) (s : State) :
    sourcesTaken o m act s = (focusBlock s).popA s m o.op s.handler.2.1 o.a.toNat := by
  simp [sourcesTaken, hA, hB]

/-- The token that a binding's lowest point has next (R386, R394). -/
theorem feed_token {b : Block} {e bind k : Nat} {ar : Armed} {pc : Parcel} {x : ETok}
    (hk : b.armed.findIdx? (fun y => y.bind == bind) = some k) (hark : b.armed[k]? = some ar) (hf : ar.failed = false) (hgot : ar.got = some pc)
    (hx : (tileToks pc.tag ((List.range (Nat.min (bindSize (planeBind m bind)) pc.size)).map (slice pc.data 8)))[ar.sent]? = some x) :
    b.feed s m e bind = some ({ x with gen := nGen pc.name }, b.armed.set k { ar with sent := ar.sent + 1 }) := by
  simp only [Block.feed, hk, hark, hf, hgot, hx]
  rfl

end Sources

section Handlers

variable {o : EdgeOp} {m : Memory} {reg : Nat} {s : State} (hm : (s.block s.handler.1).plane = some m)
  (hr : (s.block s.handler.1).owner = some reg) (h : handlerReady o m s)

/-- A token that is neither an error nor an EOS, at an operation without a tag action. -/
def plainFor (o : EdgeOp) (x : ETok) : Prop := x.eos = false ∧ x.isErr = false ∧ o.t = 0#4

theorem taga_of_plain {x : ETok} (hx : plainFor o x) : (handlerEnv o m reg s).taga = 0 := congrArg BitVec.toNat hx.2.2

include hm hr h

theorem oneInput_completes {x : ETok} (hx : queuedA o s = some x) (hop : o.op ∉ [0x00, 0x07, 0x08, 0x0B, 0x0F, 0x10, 0x16, 0x17, 0x18, 0x19]) :
    completes o m ((handlerEnv o m reg s).one (focusState s) x) s := by
  simp only [List.mem_cons, List.not_mem_nil, or_false, not_or] at hop
  obtain ⟨h00, h07, h08, h0B, h0F, h10, h16, h17, h18, h19⟩ := hop
  refine completes_of_run hm hr h (by simp [h16, h18, h19]) (one_stream _ x _ h17) ?_
  rw [focusA_of_queue ⟨h16, h18⟩, hx]
  exact run_one rfl (by simp [handlerEnv, h00, h07, h08, h0B, h0F, h10])

section Fifo

variable (hop : o.op = 0x0F)

include hop

theorem fifo_takes_completes {x : ETok} (hx : queuedA o s = some x) (hh : (focusState s).held = []) :
    completes o m { popA := true, hs := { focusState s with held := [x] } } s := by
  refine completes_of_run hm hr h (by simp [hop]) rfl ?_
  rw [focusA_of_queue (by simp [hop]), hx, run_fifo hop]
  exact fifo_takes x hh

theorem fifo_gives_completes {x : ETok} {q : List ETok} (hh : (focusState s).held = x :: q) (hx : plainFor o x) :
    completes o m { hs := { focusState s with held := q, last := some x.gen }, outA := [x] } s := by
  obtain ⟨heos, herr, -⟩ := id hx
  refine completes_of_run hm hr h (by simp [hop]) rfl ?_
  rw [run_fifo hop]
  exact fifo_gives rfl (taga_of_plain hx) hh heos herr

end Fifo

/-! Two inputs, element by element. -/

section Pair

variable (hop : o.op = 0x00 ∨ o.op = 0x0B ∨ o.op = 0x10) (hbad : (focusState s).bad = false)

theorem pair_completes {act : Act} (hop : o.op = 0x00 ∨ o.op = 0x0B ∨ o.op = 0x10) (hstream : act.stream = none)
    (hpair : (handlerEnv o m reg s).pair (o.b == 0x10#5) (focusState s) (queuedA o s) (shownB o m reg s) = some act) : completes o m act s := by
  have hqueue : o.op ≠ 0x16 ∧ o.op ≠ 0x18 := by omega
  refine completes_of_run hm hr h (by simp only [List.mem_cons, List.not_mem_nil, or_false]; omega) hstream ?_
  rw [focusA_of_queue hqueue, focusB_eq hqueue, run_pair hop]
  exact hpair

include hop hbad

theorem pair_discards_completes (hb : o.b ≠ 0x10#5) {y : ETok} (hy : shownB o m reg s = some y) (hyerr : y.isErr = true) :
    completes o m { popB := true, hs := focusState s } s := by
  refine pair_completes hm hr h hop rfl ?_
  rw [hy]
  exact pair_discards hbad (beq_eq_false_iff_ne.2 hb) hyerr

theorem pair_passes_error_completes {x : ETok} (hx : queuedA o s = some x) (hxerr : x.isErr = true)
    (hy : o.b = 0x10#5 ∨ ∀ y, shownB o m reg s = some y → y.isErr = false) : completes o m { popA := true, hs := focusState s, outA := [x] } s := by
  refine pair_completes hm hr h hop rfl ?_
  rw [hx]
  exact pair_passes_error hbad rfl (noErrorAtB_of hy) hxerr

/-- With no error token at either source the sides of the pair decide. -/
theorem pair_sides_completes {act : Act} (hstream : act.stream = none) (hx : ∀ x, queuedA o s = some x → x.isErr = false)
    (hy : noErrorAtB (o.b == 0x10#5) (shownB o m reg s))
    (hsides : EEnv.pair.sides (handlerEnv o m reg s) (o.b == 0x10#5) (focusState s) (queuedA o s) (shownB o m reg s) (o.op == 0x00) = some act) :
    completes o m act s :=
  pair_completes hm hr h hop hstream ((pair_sides hbad hy hx).trans hsides)

section Tokens

variable {x y : ETok} (hx : queuedA o s = some x) (hy : shownB o m reg s = some y) (hxp : plainFor o x) (hyp : plainFor o y)

include hx hy hxp hyp

/-- GATE and PACK pair token by token. -/
theorem token_pair_completes (hchunk : o.op ≠ 0x00) {act : Act} (hstream : act.stream = none)
    (hboth : EEnv.pair.both (handlerEnv o m reg s) (o.b == 0x10#5) (focusState s) (some x) (some y) false = act) : completes o m act s := by
  obtain ⟨hxeos, hxerr, -⟩ := hxp
  obtain ⟨hyeos, hyerr, -⟩ := hyp
  refine pair_sides_completes hm hr h hop hbad hstream (fun z hz => ?_) (noErrorAtB_of_token hy hyerr) ?_
  · cases hx.symm.trans hz
    exact hxerr
  · rw [beq_eq_false_iff_ne.2 hchunk, hx, hy, sides_both rfl (side_token _ hxeos) (side_token _ hyeos), hboth]

theorem gate_open_completes (hgate : o.op = 0x0B) (hon : y.data.getLsbD 0 = true) :
    completes o m { popA := true, popB := o.b != 0x10#5, hs := { focusState s with last := some x.gen }, outA := [x] } s :=
  token_pair_completes hm hr h hop hbad hx hy hxp hyp (by simp [hgate]) rfl
    ((both_gate (taga_of_plain hxp) hgate).trans (if_pos hon))

theorem gate_shut_completes (hgate : o.op = 0x0B) (hoff : y.data.getLsbD 0 = false) :
    completes o m { popA := true, popB := o.b != 0x10#5, hs := focusState s } s :=
  token_pair_completes hm hr h hop hbad hx hy hxp hyp (by simp [hgate]) rfl
    ((both_gate (taga_of_plain hxp) hgate).trans (if_neg (Bool.eq_false_iff.1 hoff)))

theorem pack_completes (hpack : o.op = 0x10) (hf : x.fmt = y.fmt) :
    completes o m { popA := true, popB := o.b != 0x10#5, hs := { focusState s with last := some x.gen }
                    outA := [{ x with data := y.data.extractLsb' 0 128 ++ x.data.extractLsb' 0 128 }] } s :=
  token_pair_completes hm hr h hop hbad hx hy hxp hyp (by simp [hpack]) rfl (both_pack (taga_of_plain hxp) hpack hf)

end Tokens

/-! XADD collects the chunk of A, then that of B, then merges them (R384). -/

section Chunks

variable (hxadd : o.op = 0x00)

include hxadd

theorem xadd_collects_a_completes {x : ETok} (hx : queuedA o s = some x) (hxp : plainFor o x)
    (hy : noErrorAtB (o.b == 0x10#5) (shownB o m reg s)) (hfull : chunkFull (focusState s).held = false) :
    completes o m (if x.fmt = 0xD#4 then { popA := true, hs := { focusState s with held := (focusState s).held ++ [x] } }
      else { popA := true, hs := focusState s, outA := [errTok s.handler.2.1 0x00 2 x.gen] }) s := by
  obtain ⟨hxeos, hxerr, -⟩ := hxp
  refine pair_sides_completes hm hr h hop hbad (by split <;> rfl) (fun z hz => ?_) hy ?_
  · cases hx.symm.trans hz
    exact hxerr
  · rw [hxadd, hx]
    exact sides_grow_a rfl hxadd (side_grows hfull hxeos)

theorem xadd_collects_b_completes {y : ETok} (hx : ∀ x, queuedA o s = some x → x.isErr = false) (hy : shownB o m reg s = some y)
    (hyp : plainFor o y) (hfullA : chunkFull (focusState s).held = true) (hfullB : chunkFull (focusState s).heldB = false) :
    completes o m (if y.fmt = 0xD#4 then { popB := o.b != 0x10#5, hs := { focusState s with heldB := (focusState s).heldB ++ [y] } }
      else { popB := o.b != 0x10#5, hs := focusState s, outA := [errTok s.handler.2.1 0x00 2 y.gen] }) s := by
  obtain ⟨hyeos, hyerr, -⟩ := hyp
  refine pair_sides_completes hm hr h hop hbad (by split <;> rfl) hx (noErrorAtB_of_token hy hyerr) ?_
  rw [hxadd, hy]
  exact sides_grow_b rfl hxadd (side_full hfullA _) (side_grows hfullB hyeos)

theorem xadd_merges_completes (hx : ∀ x, queuedA o s = some x → x.isErr = false) (hy : noErrorAtB (o.b == 0x10#5) (shownB o m reg s))
    (hfullA : chunkFull (focusState s).held = true) (hfullB : chunkFull (focusState s).heldB = true) {x y : ETok}
    (hlastA : (focusState s).held.getLast? = some x) (hlastB : (focusState s).heldB.getLast? = some y) :
    completes o m ((handlerEnv o m reg s).emit false
      (allToks 0xD#4 ((mergeChunks (chunkFrom (focusState s).held) (chunkFrom (focusState s).heldB)).bytes.map BitVec.toNat)) x.gen y.gen
      { hs := { focusState s with held := [], heldB := [] } }) s := by
  refine pair_sides_completes hm hr h hop hbad (congrArg (·.2.2) (emit_consumed ..)) hx hy ?_
  rw [hxadd]
  exact (sides_both rfl (side_full hfullA _) (side_full hfullB _)).trans (congrArg some (both_chunks hlastA hlastB))

end Chunks

end Pair

/-! Merges. -/

section Merge

variable (hop : o.op = 0x07 ∨ o.op = 0x08)

include hop

theorem merge_completes {act : Act} (hstream : act.stream = none)
    (hmerge : (handlerEnv o m reg s).mergeIn (o.b == 0x10#5) (focusState s) (queuedA o s) (shownB o m reg s) = some act) : completes o m act s := by
  have hqueue : o.op ≠ 0x16 ∧ o.op ≠ 0x18 := by omega
  refine completes_of_run hm hr h (by simp only [List.mem_cons, List.not_mem_nil, or_false]; omega) hstream ?_
  rw [focusA_of_queue hqueue, focusB_eq hqueue, run_merge hop]
  exact hmerge

theorem merge_discards_completes (hb : o.b ≠ 0x10#5) {y : ETok} (hy : shownB o m reg s = some y) (hyerr : y.isErr = true) :
    completes o m { popB := true, hs := focusState s } s := by
  refine merge_completes hm hr h hop rfl ?_
  rw [hy]
  exact merge_discards (beq_eq_false_iff_ne.2 hb) hyerr

/-- With no error token at B the open sides decide. -/
theorem merge_goes_completes {act : Act} (hstream : act.stream = none) (hy : noErrorAtB (o.b == 0x10#5) (shownB o m reg s))
    (hgo : EEnv.mergeIn.go (handlerEnv o m reg s) (focusState s) (if (focusState s).eosA then none else queuedA o s)
      (if (focusState s).eosB then none else shownB o m reg s) = some act) : completes o m act s :=
  merge_completes hm hr h hop hstream ((merge_goes hy).trans hgo)

theorem merge_passes_error_completes (hA : (focusState s).eosA = false) {x : ETok} (hx : queuedA o s = some x) (hxerr : x.isErr = true)
    (hy : noErrorAtB (o.b == 0x10#5) (shownB o m reg s)) : completes o m { popA := true, hs := focusState s, outA := [x] } s := by
  refine merge_goes_completes hm hr h hop rfl hy ?_
  rw [hA, hx]
  exact go_passes_error rfl hxerr

theorem merge_alternates_completes (hA : (focusState s).eosA = false) (hB : (focusState s).eosB = false) {x y : ETok} (hx : queuedA o s = some x)
    (hy : shownB o m reg s = some y) (hxp : plainFor o x) (hyp : plainFor o y) (ho : inOrder (handlerEnv o m reg s) = false) :
    completes o m (if (focusState s).flip then mergedB (focusState s) y else mergedA (focusState s) x) s := by
  obtain ⟨hxeos, hxerr, -⟩ := id hxp
  obtain ⟨hyeos, hyerr, -⟩ := hyp
  refine merge_goes_completes hm hr h hop (by split <;> rfl) (noErrorAtB_of_token hy hyerr) ?_
  rw [hA, hB, hx, hy]
  refine (go_alternates rfl ho hxerr).trans ?_
  rw [take_token (taga_of_plain hxp) _ hxeos, take_token (taga_of_plain hxp) _ hyeos]
  rfl

theorem merge_ordered_completes (hA : (focusState s).eosA = false) (hB : (focusState s).eosB = false) {x y : ETok} (hx : queuedA o s = some x)
    (hy : shownB o m reg s = some y) (hxp : plainFor o x) (hyp : plainFor o y) (ho : inOrder (handlerEnv o m reg s) = true) :
    completes o m (if x.gen.toNat ≤ y.gen.toNat then mergedA (focusState s) x else mergedB (focusState s) y) s := by
  obtain ⟨hxeos, hxerr, -⟩ := id hxp
  obtain ⟨hyeos, hyerr, -⟩ := hyp
  refine merge_goes_completes hm hr h hop (by split <;> rfl) (noErrorAtB_of_token hy hyerr) ?_
  rw [hA, hB, hx, hy]
  refine (go_ordered rfl ho hxeos hxerr hyeos).trans ?_
  rw [take_token (taga_of_plain hxp) _ hxeos, take_token (taga_of_plain hxp) _ hyeos]
  rfl

theorem merge_a_alone_completes (hA : (focusState s).eosA = false) {x : ETok} (hx : queuedA o s = some x) (hy : shownB o m reg s = none)
    (hxp : plainFor o x) (ho : inOrder (handlerEnv o m reg s) = false) : completes o m (mergedA (focusState s) x) s := by
  obtain ⟨hxeos, hxerr, -⟩ := id hxp
  refine merge_goes_completes hm hr h hop rfl (by simp [noErrorAtB, hy]) ?_
  rw [hA, hx, hy, ite_self]
  exact (go_a rfl ho hxerr).trans (congrArg some (take_token (taga_of_plain hxp) _ hxeos))

theorem merge_b_alone_completes (hB : (focusState s).eosB = false) {y : ETok} (hx : queuedA o s = none) (hy : shownB o m reg s = some y)
    (hyp : plainFor o y) (ho : inOrder (handlerEnv o m reg s) = false) : completes o m (mergedB (focusState s) y) s := by
  obtain ⟨hyeos, hyerr, -⟩ := id hyp
  refine merge_goes_completes hm hr h hop rfl (noErrorAtB_of_token hy hyerr) ?_
  rw [hB, hx, hy, ite_self]
  exact (go_b rfl ho).trans (congrArg some (take_token (taga_of_plain hyp) _ hyeos))

end Merge

/-! Links and bindings. -/

/-- SRCN and RIN: the handler passes the token that its binding or its link stream shows. -/
theorem sourced_completes {x : ETok} (hop : o.op = 0x16 ∨ o.op = 0x18) (hx : focusA o m s = some x) :
    let act := (handlerEnv o m reg s).one (focusState s) x
    let b := (focusBlock s).popA s m o.op s.handler.2.1 o.a.toNat
    handlerDid act s (runHandler o s) ∧ handlerPut o m act s (runHandler o s) ∧
      ((runHandler o s).block s.handler.1).armed = b.armed ∧ ((runHandler o s).block s.handler.1).rx = b.rx := by
  intro act b
  have hconsumed : consumed act = (true, false, none) := one_consumed _ _ _ (by simp only [handlerEnv]; omega)
  have hstream : act.stream = none := congrArg (·.2.2) hconsumed
  have hact := edgeAct_of_run (act := act) hr h (fun hlink => by omega)
    (by rw [hx]; exact run_one rfl (by simp only [handlerEnv, List.mem_cons, List.not_mem_nil, or_false]; omega))
  have hmay := handlerMay_of_ready h
  obtain ⟨-, -, -, -, -, hout, -⟩ := h
  obtain ⟨hbeside, -⟩ := blockAfter_frame o m reg act s
  obtain ⟨-, -, harmed, hrx⟩ := outputsGiven_frame o m reg act s
  have htaken : sourcesTaken o m act s = b := sourcesTaken_of_a (congrArg (·.1) hconsumed) (congrArg (·.2.1) hconsumed) o m s
  rw [htaken] at harmed hrx
  refine ⟨handlerDid_of_act hm hr hmay hact, handlerPut_of_act hm hr hmay hact hout (by omega) hstream, ?_, ?_⟩
  · rw [runHandler_block hm hr hmay hact]
    exact (congrArg (·.2.1) hbeside).trans harmed
  · rw [runHandler_block hm hr hmay hact]
    exact (congrArg (·.2.2.1) hbeside).trans hrx

theorem rin_completes (hop : o.op = 0x18) {x : ETok} (hx : (findD o.a.toNat [] (focusBlock s).rx).head? = some x) :
    let act := (handlerEnv o m reg s).one (focusState s) x
    handlerDid act s (runHandler o s) ∧ handlerPut o m act s (runHandler o s) ∧
      findD o.a.toNat [] ((runHandler o s).block s.handler.1).rx = (findD o.a.toNat [] (focusBlock s).rx).tail := by
  obtain ⟨hdid, hput, -, hrx⟩ := sourced_completes hm hr h (.inr hop) (x := x) (by simpa [focusA, Block.headA, hop] using hx)
  refine ⟨hdid, hput, ?_⟩
  rw [hrx]
  simp [Block.popA, hop]

theorem srcn_completes (hop : o.op = 0x16) {y : ETok} {armed : List Armed}
    (hfeed : (focusBlock s).feed s m s.handler.2.1 o.a.toNat = some (y, armed)) :
    let act := (handlerEnv o m reg s).one (focusState s) y
    handlerDid act s (runHandler o s) ∧ handlerPut o m act s (runHandler o s) ∧ ((runHandler o s).block s.handler.1).armed = armed := by
  obtain ⟨hdid, hput, harmed, -⟩ := sourced_completes hm hr h (.inl hop) (x := y) (by simp [focusA, Block.headA, hop, hfeed])
  refine ⟨hdid, hput, ?_⟩
  rw [harmed]
  simp [Block.popA, hop, hfeed]

/-- ROUT: the token goes onto the link's stream, or is discarded where the link is not the region's (R400). -/
theorem rout_completes (hop : o.op = 0x19) (hdst : o.e = 0x16#5) {x : ETok} (hx : queuedA o s = some x)
    (hroom : (findD o.d.toNat [] (focusBlock s).tx).length < 64) :
    let act := (handlerEnv o m reg s).one (focusState s) x
    handlerDid act s (runHandler o s) ∧ handlerTook o act s (runHandler o s) ∧ (focusElem s ((runHandler o s).block s.handler.1)).out = [] ∧
      findD o.d.toNat [] ((runHandler o s).block s.handler.1).tx =
        findD o.d.toNat [] (focusBlock s).tx ++ if linkOwned s s.handler.1 reg then act.outA else [] := by
  intro act
  have hstream : act.stream = none := one_stream _ _ _ (by simp [handlerEnv, hop])
  have hact := edgeAct_of_run (act := act) hr h (fun _ => hroom)
    (by rw [focusA_of_queue (by simp [hop]), hx]; exact run_one rfl (by simp [handlerEnv, hop]))
  have hmay := handlerMay_of_ready h
  obtain ⟨-, -, -, -, -, hout, -⟩ := h
  obtain ⟨hbeside, -⟩ := blockAfter_frame o m reg act s
  obtain ⟨-, -, -, htx, -⟩ := sourcesTaken_onlyQueues o m act s
  refine ⟨handlerDid_of_act hm hr hmay hact, handlerTook_of_act hm hr hmay hact (by simp [hop]), ?_, ?_⟩
  · rw [runHandler_out hm hr hmay hact hout]
    simp [outputsAt, hop, hdst, toward, weave]
  · have hafter : (blockAfter o m reg act s).tx = (outputsGiven o m reg act s).1.tx := congrArg (·.2.2.2.1) hbeside
    rw [runHandler_block hm hr hmay hact, hafter, ← htx]
    simp only [outputsGiven, publish_of_no_stream hstream, if_pos hop]
    exact sendLink_tx ..

section Pubn

variable (hop : o.op = 0x17) {x : ETok} (hx : queuedA o s = some x)

include hop hx

theorem pubn_completes {act : Act} (hone : (handlerEnv o m reg s).one (focusState s) x = act) (hstream : act.stream = none) :
    completes o m act s := by
  refine completes_of_run hm hr h (by simp [hop]) hstream ?_
  rw [focusA_of_queue (by simp [hop]), hx, ← hone]
  exact run_one rfl (by simp [handlerEnv, hop])

/-- A stream whose tile stands waits at the block for its router. -/
theorem pubn_publishes (heos : x.eos = true) (ht : o.t = 0#4) {w : PubTile} (hheld : (focusState s).held ≠ [])
    (hw : pubTile s reg s.handler.1 m o.d.toNat s.handler.2.1 s.handler.2.2 (focusState s).streams (focusState s).held x = some w) :
    let hs : HState := { (focusState s).clear with last := some x.gen, streams := (focusState s).streams + 1 }
    handlerDid { hs := hs } s (runHandler o s) ∧ handlerTook o { popA := true, hs := hs } s (runHandler o s) ∧
      (focusElem s ((runHandler o s).block s.handler.1)).out = [] ∧ ((runHandler o s).block s.handler.1).tiles = (focusBlock s).tiles ++ [w] := by
  intro hs
  have hone : (handlerEnv o m reg s).one (focusState s) x = { popA := true, hs := hs, stream := some ((focusState s).held, x) } :=
    pubn_stream hop (congrArg BitVec.toNat ht) heos hheld
  have hact := edgeAct_of_run (act := { popA := true, hs := hs, stream := some ((focusState s).held, x) }) hr h (by simp [hop])
    (by rw [focusA_of_queue (by simp [hop]), hx, ← hone]; exact run_one rfl (by simp [handlerEnv, hop]))
  have hmay := handlerMay_of_ready h
  obtain ⟨-, -, -, -, -, hout, -⟩ := h
  have hdid := handlerDid_of_act hm hr hmay hact
  have htook := handlerTook_of_act hm hr hmay hact (by simp [hop])
  have hgiven : outputsGiven o m reg { popA := true, hs := hs, stream := some ((focusState s).held, x) } s =
      (let b := sourcesTaken o m { popA := true, hs := hs, stream := some ((focusState s).held, x) } s
       ({ b with tiles := b.tiles ++ [w] }, [])) := by
    simp only [outputsGiven, Block.publish, hw, hop]
    rfl
  obtain ⟨hbeside, -⟩ := blockAfter_frame o m reg { popA := true, hs := hs, stream := some ((focusState s).held, x) } s
  obtain ⟨-, -, -, -, htiles⟩ := sourcesTaken_onlyQueues o m { popA := true, hs := hs, stream := some ((focusState s).held, x) } s
  refine ⟨hdid, htook, ?_, ?_⟩
  · rw [runHandler_out hm hr hmay hact hout, hgiven]
    simp [outputsAt, toward, weave]
  · have hafter := congrArg (·.2.2.2.2) hbeside
    rw [hgiven] at hafter
    rw [runHandler_block hm hr hmay hact, ← htiles]
    exact hafter

end Pubn

end Handlers

/-- An element word is its operation's run as the handler in focus; ROUT has one destination (R381, R384 to R386). -/
def runsAs (q : Instr × EdgeOp) : Prop := (∀ s, exec q.1 s = .next (runHandler q.2 s)) ∧ (q.2.op = 0x19 → q.2.e = 0x16#5)

theorem runsAs_of_mem {l : List (Instr × EdgeOp)} (hl : ∀ q ∈ l, runsAs q) {i : Instr} {o : EdgeOp} (h : (i, o) ∈ l) : runsAs (i, o) := hl _ h

/-- A handler that may not run, or whose operation has nothing that it could do, leaves all as it was (R380). -/
theorem runHandler_of_none {o : EdgeOp} {m : Memory} {reg : Nat} {s : State} (hm : (s.block s.handler.1).plane = some m)
    (hr : (s.block s.handler.1).owner = some reg)
    (h : handlerMay m s = false ∨ edgeAct s (s.block s.handler.1) m o s.handler.2.1 s.handler.2.2 = none) : runHandler o s = s := by
  rw [runHandler_eq hm hr]
  cases h with
  | inl hmay => rw [hmay]; rfl
  | inr hnone => rw [hnone]; exact ite_self _

/-- Settles O47: an element word is its operation's run; the operations' lemmas give what each run takes, leaves and puts. -/
theorem edgeOperationsRun : Obligations.EdgeOperationsRun := by
  unfold Obligations.EdgeOperationsRun
  intro s a b d e t l o i hword
  obtain ⟨hruns, hrout⟩ := runsAs_of_mem (by
    iterate 28 refine List.forall_mem_cons.2 ⟨⟨fun _ => rfl, by simp⟩, ?_⟩
    exact List.forall_mem_nil _) hword
  replace hruns : exec i s = .next (runHandler o s) := hruns s
  intro p el c bl m reg hm hr may
  refine ⟨fun hnot => hruns.trans (next_congr (runHandler_of_none hm hr hnot)),
    fun hlit => hruns.trans (next_congr (runHandler_of_none hm hr (.inr (edgeAct_of_refused hlit)))), ?_, ?_⟩
  case refine_1 =>
    intro act hmay hact
    obtain ⟨hframe, hblocks, -, hstate, -, hhalted⟩ := handlerDid_of_act hm hr hmay hact
    have hfresh : (runHandler o s).fresh = s.fresh + 1 := congrArg State.fresh hframe
    exact ⟨_, hruns, hstate, hfresh, by rw [hfresh]; exact hframe, hblocks, hhalted, runHandler_queue hm hr hmay hact⟩
  intro h env hs qa qb plain does
  have hdoes {act : Act} (hc : completes o m act s) : does act := ⟨_, hruns, hc⟩
  refine ⟨?one, ?plain, ?ended, fun x hop => halte_stops hop, ?fifo, ?pairs, ?merges, ?rin, ?rout, ?srcn, ?pubn⟩
  case one => exact fun x hx hop => hdoes (oneInput_completes hm hr h hx hop)
  case plain =>
    intro x ⟨heos, herr, ht⟩ moved
    have htag : env.taga = 0 := congrArg BitVec.toNat ht
    exact ⟨edgeNop_plain htag heos herr, dup_plain htag heos herr, steer_plain htag heos herr, cnt_plain htag heos herr,
      lim_plain htag heos herr, unpk_plain htag heos herr, sink_plain (x := env) heos herr⟩
  case ended =>
    intro x heos ended done
    exact ⟨sink_eos (x := env) heos, fun ht => edgeNop_eos (x := env) heos (congrArg BitVec.toNat ht),
      fun ht => dup_eos (x := env) heos (congrArg BitVec.toNat ht)⟩
  case fifo =>
    exact fun hop => ⟨fun x hx hh => hdoes (fifo_takes_completes hm hr h hop hx hh),
      fun x q hh hx => hdoes (fifo_gives_completes hm hr h hop hh hx)⟩
  case pairs =>
    intro hop hbad
    refine ⟨fun hb y hy hyerr => hdoes (pair_discards_completes hm hr h hop hbad hb hy hyerr),
      fun x hx hxerr hy => hdoes (pair_passes_error_completes hm hr h hop hbad hx hxerr hy), ?_, ?_, ?_⟩
    · intro x y hx hy hxp hyp
      exact ⟨fun hgate hon => hdoes (gate_open_completes hm hr h hop hbad hx hy hxp hyp hgate hon),
        fun hgate hoff => hdoes (gate_shut_completes hm hr h hop hbad hx hy hxp hyp hgate hoff),
        fun hpack hf => hdoes (pack_completes hm hr h hop hbad hx hy hxp hyp hpack hf),
        fun hxadd hfull => hdoes (xadd_collects_a_completes hm hr h hop hbad hxadd hx hxp (noErrorAtB_of_token hy hyp.2.1) hfull)⟩
    · exact fun y hxadd hx hy hyp hfullA hfullB => hdoes (xadd_collects_b_completes hm hr h hop hbad hxadd hx hy hyp hfullA hfullB)
    · exact fun hxadd hx hy hfullA hfullB x y hlastA hlastB =>
        hdoes (xadd_merges_completes hm hr h hop hbad hxadd hx (noErrorAtB_of hy) hfullA hfullB hlastA hlastB)
  case merges =>
    intro hop inOrder fromA fromB
    refine ⟨fun hb y hy hyerr => hdoes (merge_discards_completes hm hr h hop hb hy hyerr),
      fun hA x hx hxerr hy => hdoes (merge_passes_error_completes hm hr h hop hA hx hxerr (noErrorAtB_of hy)), ?_, ?_, ?_⟩
    · intro hA hB x y hx hy hxp hyp
      exact ⟨fun ho => hdoes (merge_alternates_completes hm hr h hop hA hB hx hy hxp hyp ho),
        fun ho => hdoes (merge_ordered_completes hm hr h hop hA hB hx hy hxp hyp ho)⟩
    · exact fun hA ho x hx hy hxp => hdoes (merge_a_alone_completes hm hr h hop hA hx hy hxp ho)
    · exact fun hB ho y hy hx hyp => hdoes (merge_b_alone_completes hm hr h hop hB hx hy hyp ho)
  case rin => exact fun hop x hx => ⟨_, hruns, rin_completes hm hr h hop hx⟩
  case rout => exact fun hop x hx hroom => ⟨_, hruns, rout_completes hm hr h hop (hrout hop) hx hroom⟩
  case srcn =>
    exact fun hop k ar pc x hk hark hf hgot hx => ⟨_, hruns, srcn_completes hm hr h hop (feed_token hk hark hf hgot hx)⟩
  case pubn =>
    intro hop x hx
    refine ⟨fun heos => hdoes (pubn_completes hm hr h hop hx (pubn_data hop heos) rfl),
      fun heos hh herr => hdoes (pubn_completes hm hr h hop hx (pubn_empty_error hop heos hh herr) rfl), ?_⟩
    intro heos ht ended
    exact ⟨fun hh => hdoes (pubn_completes hm hr h hop hx (pubn_empty hop (congrArg BitVec.toNat ht) heos hh) rfl),
      fun w hheld hw => ⟨_, hruns, pubn_publishes hm hr h hop hx heos ht hheld hw⟩⟩

end Sys2Proof.Proofs
end

section
/-! O55: event records, the host's registers, attestation, the debug window (17 R434 to R446, 16 R427, R430 to R432, 20 R463, R464). -/

namespace Sys2Proof.Proofs

open Sys2Proof.Machine Sys2Proof.Safety Sys2Proof.Laws

variable {s : State}

/-! The rings of event records (17 R439 to R443). -/

/-- The events of an event queue fault above the PF's queue 16 (log 24). -/
theorem not_beyond_event_queues {q : Nat} (h : q ≤ 16) : ¬16 < q := Nat.not_lt.2 h

theorem refill_tail (e : EventQueue) (ctl : Nat) : (e.refill ctl).tail = e.tail := by
  unfold EventQueue.refill
  split <;> rfl

theorem landAt_queues (s : State) (core : Nat) (fid : W64) (fw : Bool) (tc : BitVec 4) : (landAt s core fid fw tc).queues = s.queues :=
  setCoreAt_queues ..

/-- The queue once its record k has been written. -/
def recordTaken (e : EventQueue) (k : Nat) (x : Staged) : EventQueue :=
  EventQueue.refill { e with staged := dropAt e.staged k, tail := e.tail + 1#32 } x.ctl

/-- The state in which record x of queue q stands in its ring. -/
def recordWritten (q k : Nat) (x : Staged) (s : State) : State :=
  let e := s.queue q
  ({ s with host := wrN s.host (e.base.toNat + 32 * (e.tail.toNat % 2 ^ e.size.toNat)) x.bits.toNat 32 }).onQueue q fun e => recordTaken e k x

theorem eventRecordWrite_writes {x : Staged} (hq : inp s 0 ≤ 16) (hx : (s.queue (inp s 0)).staged[inp s 1]? = some x)
    (hf : (s.queue (inp s 0)).full = false) (hfirst : ∀ y ∈ (s.queue (inp s 0)).staged.take (inp s 1), sourceBits y ≠ sourceBits x) :
    exec .eventRecordWrite s = .next (match x.tok with
      | some (core, fid, fw, tc) => landAt (recordWritten (inp s 0) (inp s 1) x s) core fid fw tc
      | none => recordWritten (inp s 0) (inp s 1) x s) := by
  have hnone : ((s.queue (inp s 0)).staged.take (inp s 1)).any (fun y => sourceBits y == sourceBits x) = false := by
    simpa only [List.any_eq_false, beq_iff_eq] using hfirst
  change execEventRecordWrite s = _
  simp only [execEventRecordWrite, if_neg (not_beyond_event_queues hq), hx, hf, hnone]
  rfl

theorem eventRecordWrite_results {x : Staged} (hq : inp s 0 ≤ 16) (hx : (s.queue (inp s 0)).staged[inp s 1]? = some x)
    (hf : (s.queue (inp s 0)).full = false) (hfirst : ∀ y ∈ (s.queue (inp s 0)).staged.take (inp s 1), sourceBits y ≠ sourceBits x) :
    let e := s.queue (inp s 0)
    ∃ t : State, exec .eventRecordWrite s = .next t ∧
      t.host = wrN s.host (e.base.toNat + 32 * (e.tail.toNat % 2 ^ e.size.toNat)) x.bits.toNat 32 ∧
      (t.queue (inp s 0)).tail = e.tail + 1#32 ∧ t.hbm = s.hbm := by
  have hqueue : (recordWritten (inp s 0) (inp s 1) x s).queue (inp s 0) = recordTaken (s.queue (inp s 0)) (inp s 1) x := queue_onQueue_self ..
  have htail : ((recordWritten (inp s 0) (inp s 1) x s).queue (inp s 0)).tail = (s.queue (inp s 0)).tail + 1#32 := by
    rw [hqueue]
    exact refill_tail ..
  refine ⟨_, eventRecordWrite_writes hq hx hf hfirst, ?_⟩
  split
  next core fid fw tc _ =>
    obtain ⟨hhbm, hhost⟩ := landAt_global (recordWritten (inp s 0) (inp s 1) x s) core fid fw tc
    refine ⟨hhost, ?_, hhbm⟩
    rw [State.queue, landAt_queues]
    exact htail
  next => exact ⟨rfl, htail, rfl⟩

theorem eqheadWrite_sets (hq : inp s 0 ≤ 16) :
    exec .eqheadWrite s = .next (s.onQueue (inp s 0) fun e => { e with head := BitVec.ofNat 32 (inp s 1) }) :=
  if_neg (not_beyond_event_queues hq)

/-! Wafer time and attestation (16 R431, R432, 17 R437). -/

theorem not_ready_iff {b : Bridge} : (b.phase != 6#4) = false ↔ b.phase = 6#4 := by simp

theorem wtsetWrite_sets (hp : s.bridge.phase = 6#4) (hw : s.bridge.wtset = false) (ht : (timeAt s 48).toNat ≤ inp s 0) (hx : inp s 0 < 2 ^ 64) :
    exec .wtsetWrite s = .next { s with
      bridge := { s.bridge with wtset := true }
      reticles := s.reticles.map fun (p : Nat × Reticle) => (p.1, { p.2 with time := BitVec.ofNat 64 (inp s 0) }) } := by
  have ht' : (timeAt { s with bridge := { s.bridge with wtset := true } } 48).toNat ≤ inp s 0 ∧ inp s 0 < 2 ^ 64 := ⟨ht, hx⟩
  change execWtsetWrite s = _
  simp only [execWtsetWrite, not_ready_iff.2 hp, hw, if_pos ht']
  rfl

theorem attctlGo_asks (hp : s.bridge.phase = 6#4) (hf : s.bridge.fetched = true) (hb : s.bridge.attBusy = false) : exec .attctlGo s =
    .next { s with bridge := { s.bridge with attBusy := true, attDone := false, attRefused := false, attNonce := s.bridge.nonce } } := by
  change execAttctlGo s = _
  simp only [execAttctlGo, not_ready_iff.2 hp, hf, hb]
  rfl

theorem attestationReport_signs (hb : s.bridge.attBusy = true) : exec .attestationReport s = .next { s with bridge := { s.bridge with
    attBusy := false, attDone := true,
    report := wrBytes (reportBody s.bridge) 0x860 ((Config.falconSign (Config.shake256 (rdBytes (reportBody s.bridge) 0 0x860) 64)).take 1280) } } := by
  change execAttestationReport s = _
  simp only [execAttestationReport, hb]
  rfl

/-! Register writes (17 R434, R436, R438, R448). -/

section Control

variable (h0 : inp s 0 = 16)

include h0

theorem registerWrite_control {off : Nat} (h1 : inp s 1 = off) (hoff : off < 0x100000) :
    exec .registerWrite s = .next (controlWrite off (inp s 2) s) := by
  change execRegisterWrite s = _
  simp only [execRegisterWrite, h0, h1, if_pos hoff]
  rfl

/-- The PF reaches every launch page (17 R434). -/
theorem registerWrite_page {q o : Nat} (hq : q < 16) (ho : o < 0x400) (h1 : inp s 1 = 0x100000 + 0x10000 * q + o) :
    exec .registerWrite s = .next (pageWrite q o (inp s 2) s) := by
  have hpage : (inp s 1 - 0x100000) / 0x10000 = q := by omega
  have hword : inp s 1 % 0x10000 = o := by omega
  have hlow : ¬inp s 1 < 0x100000 := by omega
  have hhigh : inp s 1 < 0x200000 := by omega
  change execRegisterWrite s = _
  simp only [execRegisterWrite, h0, if_neg hlow, if_pos hhigh, hpage, hword]
  rfl

theorem registerWrite_ring {q o : Nat} (hq : q < 16) (ho : o < 0x400) (h8 : o % 8 = 0) (h1 : inp s 1 = 0x100000 + 0x10000 * q + o) :
    exec .registerWrite s = .next (s.setPage q { s.page q with ring := wrN (s.page q).ring o (inp s 2) 8 }) :=
  (registerWrite_page h0 hq ho h1).trans (next_congr (if_pos ⟨ho, h8⟩))

end Control

/-- PODCFG with no region running: EN clear leaves no port up. -/
theorem setPodcfg_results (x : Nat) (h : ∀ p ∈ s.regions, p.2.runs = false) :
    (setPodcfg x s).bridge.podcfg = BitVec.ofNat 32 x &&& 0x80003F3F#32 ∧
      ((setPodcfg x s).bridge.podcfg.getLsbD 31 = false → ∀ p ∈ (setPodcfg x s).links, p.2.up = false) := by
  have hnone : s.regions.any (fun p => p.2.runs) = false := by simpa only [List.any_eq_false, Bool.not_eq_true] using h
  simp only [setPodcfg, hnone, Bool.false_eq_true, if_false, true_and]
  intro hen p hp
  obtain ⟨l, -, rfl⟩ := List.mem_map.1 hp
  simp only [hen, Bool.and_false]

/-- A VF reaches nothing beyond its own page (17 R434). -/
theorem registerWrite_beyond_vf (hq : inp s 0 < 16) (h1 : 0x10000 ≤ inp s 1) : exec .registerWrite s = .next s := by
  have hfn : ¬17 < inp s 0 := by omega
  have hpf : ¬inp s 0 = 17 := by omega
  change execRegisterWrite s = _
  simp only [execRegisterWrite, if_neg hfn, if_neg hpf, if_pos hq, if_neg (Nat.not_lt.2 h1)]

/-! The debug window (17 R444 to R446, 20 R463, R464). -/

theorem registerWrite_dbgaddr (h0 : inp s 0 = 17) (h1 : inp s 1 = 8) : exec .registerWrite s = .next (
    if s.bridge.phase = 6#4 then { s with bridge := { s.bridge with dbgaddr := BitVec.ofNat 64 (inp s 2) &&& ~~~7#64 } }
    else { s with bridge := { s.bridge with dbgerr := true } }) := by
  change execRegisterWrite s = _
  simp only [execRegisterWrite, h0, h1]
  by_cases hp : s.bridge.phase = 6#4 <;> simp [hp, dbgError]

theorem dbgselWrite_eq : exec .dbgselWrite s = .next (
    let x : W64 := BitVec.ofNat 64 (inp s 0) &&& ~~~0xFFFFFFFF#64
    if s.bridge.phase = 6#4 then { s with bridge := { s.bridge with dbgsel := x, dbgerr := decide (600 ≤ selNode x) } }
    else { s with bridge := { s.bridge with dbgerr := true } }) := by
  change execDbgselWrite s = _
  simp only [execDbgselWrite]
  by_cases hp : s.bridge.phase = 6#4 <;> simp [hp, dbgError]

theorem dbgctlHalt_stops {c : Nat} (hc : dbgCore s = some c) (hh : (s.coreAt c).halt = .no) :
    exec .dbgctlHalt s = .next (s.setCoreAt c ((s.coreAt c).stop (.report 0x11#64 true))) := by
  change execDbgctlHalt s = _
  simp only [execDbgctlHalt, hc, hh]
  rfl

theorem dbgctlResume_resumes {c : Nat} {r : W64} (hc : dbgCore s = some c) (hh : (s.coreAt c).halt = .report r true) :
    exec .dbgctlResume s = .next (s.setCoreAt c (s.coreAt c).goOn) := by
  change execDbgctlResume s = _
  simp only [execDbgctlResume, hc, hh]

section Aperture

variable (ho : inp s 0 < 4096) (h8 : inp s 0 % 8 = 0)

include ho h8

theorem debugApertureRead_eq : exec .debugApertureRead s = .next (match dbgItem s s.bridge.dbgsel with
    | none => dbgError { s with bridge := { s.bridge with dbgdata := 0#64 } }
    | some i => { s with bridge := { s.bridge with dbgdata := BitVec.ofNat 64 (i.word s (dbgWordAt s (inp s 0))) } }) := by
  have hin : ¬(4096 ≤ inp s 0 ∨ inp s 0 % 8 ≠ 0) := by omega
  exact if_neg hin

theorem debugApertureWrite_none (hi : dbgItem s s.bridge.dbgsel = none) : exec .debugApertureWrite s = .next (dbgError s) := by
  have hin : ¬(4096 ≤ inp s 0 ∨ inp s 0 % 8 ≠ 0) := by omega
  change execDebugApertureWrite s = _
  simp only [execDebugApertureWrite, if_neg hin, hi]

variable {i : Item} (hi : dbgItem s s.bridge.dbgsel = some i)

include hi

theorem debugApertureWrite_some : exec .debugApertureWrite s = .next (if i.writable s then
    match i with
    | .router .. => { s with bridge := { s.bridge with
        dbgwrite := s.bridge.dbgwrite ++ [⟨s.bridge.dbgsel, dbgWordAt s (inp s 0), inp s 1, s.clock⟩] } }
    | i => i.setWord (dbgWordAt s (inp s 0)) (inp s 1) s
    else dbgError s) := by
  have hin : ¬(4096 ≤ inp s 0 ∨ inp s 0 % 8 ≠ 0) := by omega
  change execDebugApertureWrite s = _
  simp only [execDebugApertureWrite, if_neg hin, hi]
  cases i.writable s <;> cases i <;> rfl

end Aperture

/-- A write that waits for its router is performed in a net cycle in which the router is idle (20 R464). -/
theorem debugWritePerform_one {w : DebugWrite} {c k : Nat} (hw : s.bridge.dbgwrite = [w]) (hi : dbgItem s w.sel = some (.router c k))
    (ht : s.clock ≤ w.since + 1024) : exec .debugWritePerform s = .next (if routerIdle s c then
      setRouterWord c k w.word w.value { s with bridge := { s.bridge with dbgwrite := [] } } else s) := by
  have hdrop : dropWrite w s = { s with bridge := { s.bridge with dbgwrite := [] } } := by simp [dropWrite, hw]
  change (.next (performWrites s) : Out) = _
  simp only [performWrites, hw, List.foldl_cons, List.foldl_nil, performWrite, hi, hdrop, decide_eq_true ht, Bool.and_true]

/-- A list less all its entries of one kind is the list of the others. -/
theorem diff_filter {α : Type} [BEq α] [LawfulBEq α] (p : α → Bool) (l : List α) : l.diff (l.filter p) = l.filter fun x => !p x := by
  induction l with
  | nil => rfl
  | cons a l ih =>
    cases hp : p a
    · have ha : a ∉ l.filter p := by simp [hp]
      simp [hp, List.cons_diff, ha, ih]
    · simp [hp, List.diff_cons, ih]

/-- Waiting writes are refused one after the other (20 R464). -/
theorem foldl_refuse (w : DebugWrite) (ws : List DebugWrite) (s : State) : (w :: ws).foldl (fun s w => dbgError (dropWrite w s)) s =
    { s with bridge := { s.bridge with dbgwrite := s.bridge.dbgwrite.diff (w :: ws), dbgerr := true } } := by
  induction ws generalizing w s with
  | nil => simp [dbgError, dropWrite, List.diff_cons]
  | cons v vs ih =>
    rw [List.foldl_cons, ih, List.diff_cons _ _ w]
    rfl

theorem debugWriteTimeout_refuses (h : ∃ w ∈ s.bridge.dbgwrite, w.since + 1024 < s.clock) : exec .debugWriteTimeout s =
    .next { s with bridge := { s.bridge with dbgwrite := s.bridge.dbgwrite.filter fun w => s.clock ≤ w.since + 1024, dbgerr := true } } := by
  obtain ⟨w, hw, hlate⟩ := h
  have hmem : w ∈ s.bridge.dbgwrite.filter fun w => w.since + 1024 < s.clock := List.mem_filter.2 ⟨hw, decide_eq_true hlate⟩
  obtain ⟨v, vs, hvs⟩ := List.exists_cons_of_ne_nil (List.ne_nil_of_mem hmem)
  have hkept : s.bridge.dbgwrite.diff (v :: vs) = s.bridge.dbgwrite.filter fun w => s.clock ≤ w.since + 1024 := by
    rw [← hvs, diff_filter]
    exact List.filter_congr fun x _ => by rw [← decide_not, decide_eq_decide, Nat.not_lt]
  change (.next (List.foldl _ s (s.bridge.dbgwrite.filter fun w => w.since + 1024 < s.clock)) : Out) = _
  rw [hvs, foldl_refuse, hkept]

/-- Settles O55: each event by its own lemma; VALID and RESTART set their fields. -/
theorem hostEventResults : Obligations.HostEventResults := by
  unfold Obligations.HostEventResults
  intro s b off
  refine ⟨fun x => eventRecordWrite_results, eqheadWrite_sets, rfl, ⟨_, rfl, rfl, rfl, rfl, rfl, rfl, rfl, rfl, rfl, rfl⟩, wtsetWrite_sets,
    attctlGo_asks, attestationReport_signs, ?control, fun q hq h0 => registerWrite_beyond_vf (h0 ▸ hq), ?dbgaddr,
    fun hp => dbgselWrite_eq.trans (next_congr (if_pos hp)), fun hp => dbgselWrite_eq.trans (next_congr (if_neg hp)),
    fun c hc => ⟨dbgctlHalt_stops hc, fun r => dbgctlResume_resumes hc⟩, ?aperture, fun w c k => debugWritePerform_one, debugWriteTimeout_refuses⟩
  case control =>
    rintro x off h0 h1 rfl
    refine ⟨?_, ?_, fun q o hq ho h8 hoff => registerWrite_ring h0 hq ho h8 (h1.trans hoff), ?_⟩
    · rintro rfl
      exact registerWrite_control h0 h1 (by decide)
    · rintro rfl
      exact registerWrite_control h0 h1 (by decide)
    · rintro rfl hidle
      exact ⟨_, registerWrite_control h0 h1 (by decide), setPodcfg_results _ hidle⟩
  case dbgaddr =>
    exact fun h0 h1 => ⟨fun hp => (registerWrite_dbgaddr h0 h1).trans (next_congr (if_pos hp)),
      fun hp => (registerWrite_dbgaddr h0 h1).trans (next_congr (if_neg hp))⟩
  case aperture =>
    intro ho h8
    have hread := debugApertureRead_eq ho h8
    refine ⟨fun hi => ⟨by rw [hread, hi]; rfl, debugApertureWrite_none ho h8 hi⟩, fun i hi => ⟨by rw [hread, hi], ?_, ?_, ?_⟩⟩
    · exact fun hw => (debugApertureWrite_some ho h8 hi).trans (next_congr (if_neg (Bool.eq_false_iff.1 hw)))
    · intro hw hi'
      refine (debugApertureWrite_some ho h8 hi).trans (next_congr ((if_pos hw).trans ?_))
      cases i with
      | router c k => exact absurd rfl (hi' c k)
      | _ => rfl
    · rintro c k rfl
      exact (debugApertureWrite_some ho h8 hi).trans (next_congr (if_pos rfl))

end Sys2Proof.Proofs
end

section
/-! O56, the reticles: power, the ROM's phases, seams, election, LEAD, the followers' firmware (16 R403 to R412, R416, R430). -/

namespace Sys2Proof.Proofs

open Sys2Proof.Machine Sys2Proof.Safety Sys2Proof.Laws

variable {s : State}

/-! An event of a reticle (log 24). -/

theorem reticleIn_eq (hi : inp s 0 ≤ 47) (f : Nat → State) : reticleIn s f = .next (f (inp s 0)) := if_neg (Nat.not_lt.2 hi)

/-- PHASE only rises (R427). -/
theorem setPhase_phase_ne_zero (s : State) : (setPhase 1#4 s).bridge.phase ≠ 0#4 := by
  simp only [setPhase]
  split
  · decide
  next h =>
    intro hz
    rw [hz] at h
    exact h (by decide)

section Rom

variable (hi : inp s 0 ≤ 47)

include hi

/-! Power and the ROM (R403 to R407, R412). -/

theorem powerGood_starts (hp : (s.reticle (inp s 0)).phase = .off) (hbefore : ∀ j, j < inp s 0 → (s.reticle j).phase ≠ .off) :
    ∃ t : State, exec .powerGood s = .next t ∧ t.reticle (inp s 0) = { phase := .self, fenced := inp s 1 == 1 } ∧ t.bridge.phase ≠ 0#4 := by
  have hturn : ((s.reticle (inp s 0)).phase == .off && (List.range (inp s 0)).all fun j => (s.reticle j).phase != .off) = true := by
    simpa [hp] using hbefore
  change ∃ t, execPowerGood s = .next t ∧ _
  simp only [execPowerGood, reticleIn_eq hi, hturn, if_true]
  exact ⟨_, rfl, reticle_setReticle_self .., setPhase_phase_ne_zero _⟩

theorem romSelfTest_eq (hp : (s.reticle (inp s 0)).phase = .self) : exec .romSelfTest s = .next (
    if inp s 1 = 1 then s.setReticle (inp s 0) { s.reticle (inp s 0) with phase := .cores } else goDark (inp s 0) 2 s) := by
  change execRomSelfTest s = _
  simp only [execRomSelfTest, reticleIn_eq hi, hp]
  rfl

theorem romCoreTest_eq (hp : (s.reticle (inp s 0)).phase = .cores) : exec .romCoreTest s = .next (
    if inp s 1 = 1 then recordCores (inp s 0) (s.input.drop 2) s else goDark (inp s 0) 2 s) := by
  change execRomCoreTest s = _
  simp only [execRomCoreTest, reticleIn_eq hi, hp]
  rfl

theorem phaseOverrun_self (hp : (s.reticle (inp s 0)).phase = .self) : exec .phaseOverrun s = .next (goDark (inp s 0) 2 s) := by
  change execPhaseOverrun s = _
  simp only [execPhaseOverrun, reticleIn_eq hi, hp]

/-- A core-fenced reticle has no cores to record (R405). -/
theorem phaseOverrun_cores (hp : (s.reticle (inp s 0)).phase = .cores) : exec .phaseOverrun s = .next (
    let r := s.reticle (inp s 0)
    if inp s 1 = 1 ∧ r.fenced = false then
      s.setReticle (inp s 0) { r.enterSeams (inp s 0) with defects := ((s.input.drop 2).filter (· < 600)).eraseDups }
    else goDark (inp s 0) 2 s) := by
  change execPhaseOverrun s = _
  simp only [execPhaseOverrun, reticleIn_eq hi, hp]
  by_cases h1 : inp s 1 = 1 <;> cases hf : (s.reticle (inp s 0)).fenced <;> simp [h1, hf, recordCores, State.onReticle]

theorem phaseOverrun_seams (hp : (s.reticle (inp s 0)).phase = .seams) : exec .phaseOverrun s = .next (seamTimeout (inp s 0) s) := by
  change execPhaseOverrun s = _
  simp only [execPhaseOverrun, reticleIn_eq hi, hp]

theorem seamTrainTimeout_eq (hp : (s.reticle (inp s 0)).phase = .seams) : exec .seamTrainTimeout s = .next (seamTimeout (inp s 0) s) := by
  change execSeamTrainTimeout s = _
  rw [execSeamTrainTimeout, reticleIn_eq hi]
  exact next_congr (if_pos (beq_iff_eq.2 hp))

theorem bridgeAttachmentTraining_eq (hp : (s.reticle (inp s 0)).phase = .seams) (hb : bridgeSite (inp s 0) = true) :
    exec .bridgeAttachmentTraining s = .next (s.setReticle (inp s 0) { s.reticle (inp s 0) with attached := inp s 1 == 1 }) := by
  change execBridgeAttachmentTraining s = _
  rw [execBridgeAttachmentTraining, reticleIn_eq hi]
  exact next_congr (if_pos (by rw [hb, hp]; rfl))

theorem seamTraining_settles {j : Nat} (hj : across (inp s 0) (inp s 1) = some j) (hp : (s.reticle (inp s 0)).phase = .seams)
    (hs : (s.reticle (inp s 0)).seam (inp s 1) = .untrained) (hp' : (s.reticle j).phase = .seams)
    (hs' : (s.reticle j).seam (facing (inp s 1)) = .untrained) : exec .seamTraining s = .next (
      let x : Seam := if inp s 2 = 1 then .up else .down
      settleSeams j (settleSeams (inp s 0) ((s.setReticle (inp s 0) ((s.reticle (inp s 0)).setSeam (inp s 1) x)).setReticle j
        ((s.reticle j).setSeam (facing (inp s 1)) x)))) := by
  change execSeamTraining s = _
  simp only [execSeamTraining, reticleIn_eq hi, hj, hp, hs, hp', hs']
  rfl

/-! Election and LEAD (R408 to R411, R430). -/

theorem electRoundMessage_received {k : Nat} {v : Nat × Nat × Option (BitVec 32)} (hp : (s.reticle (inp s 0)).phase = .elect k)
    (hv : ((s.reticle (inp s 0)).votes.find? fun v => v.2.1 == inp s 1) = some v) (hs : (s.reticle (inp s 0)).seam (inp s 1) = .up) :
    exec .electRoundMessage s = .next (let r := s.reticle (inp s 0)
      advance (inp s 0) 16 (s.setReticle (inp s 0)
        { r with votes := r.votes.erase v, heard := (v.1, inp s 1) :: r.heard, best := better r.best v.2.2 })) := by
  change execElectRoundMessage s = _
  simp only [execElectRoundMessage, reticleIn_eq hi, hp, hv, hs]
  rfl

/-- A claim stands in the open window, which it opens where none is open (R410). -/
theorem claim_stands (hp : (s.reticle (inp s 0)).phase = .claim) (hl : s.bridge.leader = none) :
    ∃ t : State, exec .claim s = .next t ∧ ∃ w, t.bridge.window = some w ∧ (s.reticle (inp s 0)).ballot (inp s 0) ∈ w := by
  have he : exec .claim s = .next (
      let b := (s.reticle (inp s 0)).ballot (inp s 0)
      let w := s.bridge.window.getD []
      if w.contains b then s else { s with bridge := { s.bridge with window := some (w ++ [b]) } }) := by
    change execClaim s = _
    simp only [execClaim, reticleIn_eq hi, hp, hl]
    rfl
  refine ⟨_, he, ?_⟩
  dsimp only
  split
  next hc =>
    cases hw : s.bridge.window with
    | none => simp [hw] at hc
    | some w => exact ⟨w, rfl, by simpa [hw] using hc⟩
  next => exact ⟨_, rfl, List.mem_append_right _ (List.mem_singleton_self _)⟩

theorem claim_refused {l : Nat} (hp : (s.reticle (inp s 0)).phase = .claim) (hl : s.bridge.leader = some l) :
    exec .claim s = .next (s.setReticle (inp s 0) { s.reticle (inp s 0) with phase := .await }) := by
  change execClaim s = _
  simp only [execClaim, reticleIn_eq hi, hp, hl]
  rfl

/-- The parent is the first of the inputs' seams, in the order of directions, over which LEAD comes (R411). -/
theorem lead_taken {d j : Nat} (hd : d < 4) (hin : d ∈ s.input.drop 1) (hj : across (inp s 0) d = some j)
    (hp : (s.reticle (inp s 0)).phase = .await) (hs : (s.reticle (inp s 0)).seam d = .up) (hl : (s.reticle j).leads = true)
    (hfirst : ∀ e, e < d → e ∈ s.input.drop 1 → leadOver s (inp s 0) e = false) :
    exec .lead s = .next (s.setReticle (inp s 0) { s.reticle (inp s 0) with phase := .follower, parent := some d }) := by
  have hover : leadOver s (inp s 0) d = true := by simp [leadOver, hs, hj, hl]
  have hfind : ((List.range 4).find? fun d => (s.input.drop 1).contains d && leadOver s (inp s 0) d) = some d := by
    rw [List.find?_range_eq_some]
    refine ⟨by rw [List.contains_iff_mem.2 hin, hover]; rfl, List.mem_range.2 hd, fun e he => ?_⟩
    by_cases hein : e ∈ s.input.drop 1
    · rw [hfirst e he hein, Bool.and_false]; rfl
    · rw [← List.contains_iff_mem, Bool.not_eq_true] at hein
      rw [hein]; rfl
  change execLead s = _
  simp only [execLead, reticleIn_eq hi, hfind, hp]
  rfl

theorem leadTimeout_fences (hp : (s.reticle (inp s 0)).phase = .await) (hnone : ∀ j ∈ component s 48 [inp s 0],
      (s.reticle j).leads = false ∧ (s.reticle j).phase ≠ .claim ∧ ∀ k, (s.reticle j).phase ≠ .elect k) :
    exec .leadTimeout s = .next (((List.range 4).filterMap (across (inp s 0))).foldl (fun u k => seamLost k u) (goDark (inp s 0) 3 s)) := by
  change execLeadTimeout s = _
  simp only [execLeadTimeout, reticleIn_eq hi, hp]
  refine next_congr (if_pos (Bool.and_eq_true_iff.2 ⟨rfl, congrArg Bool.not (List.any_eq_false.2 fun j hj => ?_)⟩))
  obtain ⟨hleads, hclaim, helect⟩ := hnone j hj
  rw [hleads]
  cases hphase : (s.reticle j).phase with
  | claim => exact absurd hphase hclaim
  | elect k => exact absurd hphase (helect k)
  | _ => exact Bool.false_ne_true

/-! The followers' firmware (R416, R430). -/

theorem firmwareReceive_distributing (hb : s.bridge.phase = 4#4) (ht : sendTurn s (inp s 0) = true) : exec .firmwareReceive s = .next (
    if copyVerified s then distributed (s.setReticle (inp s 0) { s.reticle (inp s 0) with loaded := true }) else failReceipt (inp s 0) s) := by
  change execFirmwareReceive s = _
  simp only [execFirmwareReceive, reticleIn_eq hi, hb, ht]
  rfl

theorem followerReportTimeout_fails (hb : s.bridge.phase = 4#4) (ht : sendTurn s (inp s 0) = true) :
    exec .followerReportTimeout s = .next (failReceipt (inp s 0) s) := by
  change execFollowerReportTimeout s = _
  rw [execFollowerReportTimeout, reticleIn_eq hi]
  exact next_congr (if_pos (by rw [hb, ht]; rfl))

theorem firmwareReceive_fences (hb : s.bridge.phase = 5#4) (hp : (s.reticle (inp s 0)).phase = .follower) (hv : copyVerified s = false) :
    exec .firmwareReceive s = .next (s.setReticle (inp s 0) { s.reticle (inp s 0) with phase := .fwFenced, code := 4 }) := by
  change execFirmwareReceive s = _
  rw [execFirmwareReceive, reticleIn_eq hi]
  exact next_congr (if_pos (by rw [hb, hp, hv]; rfl))

end Rom

end Sys2Proof.Proofs
end

section
/-! O56, the bridge: the claim window, the descriptor and the firmware's fetch, enumeration, the loss of the election (16 R408, R410, R413 to
R428). -/

namespace Sys2Proof.Proofs

open Sys2Proof.Machine Sys2Proof.Safety Sys2Proof.Laws

variable {s : State}

/-! The claim window (R410, R411). -/

theorem claimWindowClose_grants {x : BitVec 32} (hw : s.bridge.window = some [x]) : ∃ t : State, exec .claimWindowClose s = .next t ∧
    t.bridge.window = none ∧ t.bridge.leader = some (6 * (x.extractLsb' 15 3).toNat + (x.extractLsb' 18 3).toNat) := by
  change ∃ t, execClaimWindowClose s = .next t ∧ _
  simp only [execClaimWindowClose, hw]
  exact ⟨_, rfl, rfl, rfl⟩

theorem noleader_stops (hl : s.bridge.leader = none) (hw : s.bridge.window = none) (hp : s.bridge.phase.ult 3#4 = true)
    (he : ∀ j, j < 48 → electing (s.reticle j) = false) :
    exec .noleader s = .next { s with bridge := { s.bridge with err := 1#4, phase := 7#4 } } := by
  have hnone : ((List.range 48).all fun i => !electing (s.reticle i)) = true :=
    List.all_eq_true.2 fun j hj => congrArg Bool.not (he j (List.mem_range.1 hj))
  change execNoleader s = _
  simp only [execNoleader, hl, hw, hp, hnone]
  rfl

/-! The descriptor and its image (R413 to R415). -/

theorem bootDescriptorPoll_keeps (hp : s.bridge.phase = 3#4) (hv : s.bridge.valid = true) (hl : s.bridge.leader.isSome = true)
    (hf : s.bridge.fetching = false) : exec .bootDescriptorPoll s =
      .next { s with bridge := { s.bridge with fetching := true, polledImg := s.bridge.img, polledLen := s.bridge.len } } := by
  change execBootDescriptorPoll s = _
  simp only [execBootDescriptorPoll, hp, hv, hl, hf]
  rfl

theorem bootDescriptorPoll_waits (h : s.bridge.fetching = true ∨ s.bridge.valid = false) : exec .bootDescriptorPoll s = .next s := by
  change execBootDescriptorPoll s = _
  cases h with
  | inl hf => simp only [execBootDescriptorPoll, hf, Bool.not_true, Bool.and_false, Bool.false_eq_true, if_false]
  | inr hv => simp only [execBootDescriptorPoll, hv, Bool.and_false, Bool.false_and, Bool.false_eq_true, if_false]

/-- What the leader's own verification of a fetch gives. -/
def fetchVerified (s : State) : Option (BitVec 512 × BitVec 16) :=
  if inp s 0 = 1 && s.bridge.valid && !s.bridge.fetchLost then
    verifyImage s.bridge.leastSvn s.host s.bridge.polledImg.toNat s.bridge.polledLen.toNat
  else none

/-- The state in which the leader holds the verified image. -/
def imageHeld (l : Nat) (h : BitVec 512) (v : BitVec 16) (s : State) : State :=
  { s.onReticle l (fun r => { r with loaded := true }) with bridge := { s.bridge with
      fetching := false, fetched := true, image := cutMem s.bridge.polledImg.toNat s.bridge.polledLen.toNat s.host, fwhash := h, svn := v, phase := 4#4 } }

/-- The move to enumeration changes PHASE alone. -/
theorem distributed_frame (s : State) : (distributed s).reticles = s.reticles ∧
    (distributed s).bridge = { s.bridge with phase := (distributed s).bridge.phase } := by
  unfold distributed
  split <;> exact ⟨rfl, rfl⟩

section Fetch

variable {l : Nat} (hl : s.bridge.leader = some l) (hf : s.bridge.fetching = true) (hp : s.bridge.phase = 3#4)

include hf hp

theorem fetch_under_way : ¬(!s.bridge.fetching || s.bridge.phase != 3#4) = true := by simp [hf, hp]

include hl

theorem firmwareFetch_held {h : BitVec 512} {v : BitVec 16} (hver : fetchVerified s = some (h, v)) :
    exec .firmwareFetch s = .next (distributed (imageHeld l h v s)) := by
  unfold fetchVerified at hver
  change execFirmwareFetch s = _
  simp only [execFirmwareFetch, imageHeld, hl, if_neg (fetch_under_way hf hp), hver, onReticle_host]

theorem firmwareFetch_verified {h : BitVec 512} {v : BitVec 16} (h1 : inp s 0 = 1) (hv : s.bridge.valid = true)
    (hlost : s.bridge.fetchLost = false)
    (hok : verifyImage s.bridge.leastSvn s.host s.bridge.polledImg.toNat s.bridge.polledLen.toNat = some (h, v)) :
    ∃ t : State, exec .firmwareFetch s = .next t ∧ t.bridge.image = cutMem s.bridge.polledImg.toNat s.bridge.polledLen.toNat s.host ∧
      t.bridge.fwhash = h ∧ t.bridge.svn = v ∧ t.bridge.fetched = true ∧ (t.reticle l).loaded = true := by
  have hver : fetchVerified s = some (h, v) := by simp [fetchVerified, h1, hv, hlost, hok]
  obtain ⟨hreticles, hbridge⟩ := distributed_frame (imageHeld l h v s)
  refine ⟨_, firmwareFetch_held hl hf hp hver, ?_⟩
  rw [hbridge, State.reticle, hreticles]
  exact ⟨rfl, rfl, rfl, rfl, congrArg Reticle.loaded (reticle_onReticle_self s l fun r => { r with loaded := true })⟩

/-- The third failure stops the bring-up; before it the leader waits for VALID again (R415, R430; log 21). -/
theorem firmwareFetch_failed (hbad : inp s 0 ≠ 1 ∨ s.bridge.valid = false ∨ s.bridge.fetchLost = true ∨
      verifyImage s.bridge.leastSvn s.host s.bridge.polledImg.toNat s.bridge.polledLen.toNat = none) :
    exec .firmwareFetch s = .next (
      if s.bridge.fetches = 2 then { s with bridge := { s.bridge with fetches := 3, fetching := false, err := 2#4, phase := 7#4 } }
      else { s with bridge := { s.bridge with
        fetches := s.bridge.fetches + 1, fetching := s.bridge.valid && !s.bridge.fetchLost, fetchLost := false } }) := by
  have hver : fetchVerified s = none := by
    unfold fetchVerified
    rcases hbad with h | h | h | h <;> simp [h]
  unfold fetchVerified at hver
  change execFirmwareFetch s = _
  simp only [execFirmwareFetch, hl, if_neg (fetch_under_way hf hp), hver]

end Fetch

/-! Enumeration (R417 to R428). -/

theorem enumTimeout_stops (hp : s.bridge.phase = 5#4) : exec .enumTimeout s = .next (enumFail s) := by
  change execEnumTimeout s = _
  simp only [execEnumTimeout, hp]
  rfl

/-- Rows and states as the enumeration finds them. -/
def rowsBound (s : State) : State :=
  (List.range 48).foldl (fun s i => s.onReticle i fun r => { r with lrow := logicalRow s i, code := r.state }) s

theorem rowsBound_bridge (s : State) : (rowsBound s).bridge = s.bridge := by
  unfold rowsBound
  exact foldl_keeps (g := State.bridge) (fun _ _ => onReticle_bridge ..) (List.range 48) s

/-- Ports, the firmware's root and its area, the links, the topology record, as the grid stands (R418 to R425). -/
def gridBuilt (s : State) : State :=
  let dies := inp s 0
  let stks := inp s 1
  let ports := pack 1 ((List.range 32).map fun p => if dies.testBit (p / 2) && stks.testBit p && hemUsed s (p / 2) != 3 then 1 else 0)
  let s := { s with ports := BitVec.ofNat 32 ports, roots := Machine.insert 16 (inp s 2) s.roots, hbm := writeLines s.hbm (s.input.drop 7) }
  let s := { s with links := (List.range 32).map fun p => (p, { s.link p with absent := linkAbsent s p, up := false }) }
  let fenced := ((List.range 48).filter fun i => decide (2 ≤ (s.reticle i).state)).length
  let least := BitVec.ofNat 16 (max s.bridge.svnMin.toNat (inp s 6 % 65536))
  { s with bridge := { s.bridge with fenced := fenced, topology := topologyRecord s dies, svnMin := least } }

/-- The cores of the grid released (R427). -/
def coresReleased (s : State) : State :=
  ((List.range (192 * gridRows s)).filterMap fun i => physOf s (i % 192) (i / 192)).foldl
    (fun s c => s.setCoreAt c (Core.release (inp s 3) (inp s 4) (inp s 5) c)) s

/-- Wafer time at zero, and the bound reticles ready (R427). -/
def reticlesReady (s : State) : State :=
  (List.range 48).foldl (fun s i => s.onReticle i fun r =>
    { r with time := 0#64, phase := match r.phase with | .leader | .follower => .ready | p => p }) s

def moduleReady (s : State) : State := bootRecords { s with bridge := { s.bridge with phase := 6#4 } }

theorem enumeration_eq : exec .enumeration s = .next (
    if s.bridge.phase != 5#4 then s
    else if !gridForms (rowsBound s) || (List.range 48).all (fun i => ((rowsBound s).reticle i).state != 0) then enumFail (rowsBound s)
    else moduleReady (reticlesReady (coresReleased (gridBuilt (rowsBound s))))) := by
  change execEnumeration s = _
  rfl

theorem enumFail_stops (s : State) : (enumFail s).bridge.phase = 7#4 ∧ (enumFail s).bridge.err = 3#4 := ⟨rfl, rfl⟩

theorem enumeration_refused (hp : s.bridge.phase = 5#4) (hg : gridForms (rowsBound s) = false) :
    ∃ t : State, exec .enumeration s = .next t ∧ t.bridge.phase = 7#4 ∧ t.bridge.err = 3#4 := by
  have hon : ¬(s.bridge.phase != 5#4) = true := by simp [hp]
  refine ⟨enumFail (rowsBound s), ?_, enumFail_stops _⟩
  rw [enumeration_eq, if_neg hon, hg]
  rfl

/-- The bridge, the roots of the tables and the reticles: what records of events leave alone. -/
def beyondRecords (s : State) : Bridge × Map Nat × Map Reticle := (s.bridge, s.roots, s.reticles)

theorem bootRecords_frame (s : State) : beyondRecords (bootRecords s) = beyondRecords s := by
  unfold bootRecords
  refine foldl_keeps (g := beyondRecords) (fun s i => ?_) (List.range 48) s
  refine (foldl_keeps (g := beyondRecords) (fun s d => ?_) [1, 2] _).trans ?_
  · split
    · split <;> rfl
    · rfl
  · split <;> rfl

/-- What every step gives a reticle that it comes to, each reticle of the list has in the end. -/
theorem reticle_foldl_onReticle {f : Nat → Reticle → Reticle} {P : Reticle → Prop} (hf : ∀ k r, P (f k r)) {i : Nat} (l : List Nat) (s : State)
    (h : i ∈ l ∨ P (s.reticle i)) : P ((l.foldl (fun s k => s.onReticle k (f k)) s).reticle i) := by
  induction l generalizing s with
  | nil => exact h.resolve_left List.not_mem_nil
  | cons k l ih =>
    refine ih _ ?_
    by_cases hk : i = k
    · subst hk
      exact .inr (reticle_onReticle_self s i (f i) ▸ hf i _)
    · rw [reticle_onReticle_of_ne hk]
      exact h.imp_left fun hi => (List.mem_cons.1 hi).resolve_left hk

theorem reticlesReady_time (s : State) {i : Nat} (hi : i < 48) : ((reticlesReady s).reticle i).time = 0#64 := by
  unfold reticlesReady
  exact reticle_foldl_onReticle (P := fun r => r.time = 0#64) (fun _ _ => rfl) (List.range 48) s (.inl (List.mem_range.2 hi))

theorem reticlesReady_roots (s : State) : (reticlesReady s).roots = s.roots := by
  unfold reticlesReady
  exact foldl_keeps (g := State.roots) (fun _ _ => onReticle_roots ..) (List.range 48) s

theorem coresReleased_roots (s : State) : (coresReleased s).roots = s.roots := by
  unfold coresReleased
  exact foldl_keeps (g := State.roots) (fun _ _ => setCoreAt_roots ..) _ s

theorem rowsBound_input (s : State) : (rowsBound s).input = s.input := by
  unfold rowsBound
  exact foldl_keeps (g := State.input) (fun _ _ => onReticle_input ..) (List.range 48) s

theorem gridBuilt_root (s : State) : find? 16 (gridBuilt s).roots = some (inp s 2) := find_insert_self ..

theorem enumeration_ready (hp : s.bridge.phase = 5#4) (hg : gridForms (rowsBound s) = true)
    (hs : ∃ i, i < 48 ∧ ((rowsBound s).reticle i).state = 0) :
    ∃ t : State, exec .enumeration s = .next t ∧ t.bridge.phase = 6#4 ∧ find? 16 t.roots = some (inp s 2) ∧ ∀ i, i < 48 → (t.reticle i).time = 0#64 := by
  obtain ⟨i, hi, hbound⟩ := hs
  have hon : ¬(s.bridge.phase != 5#4) = true := by simp [hp]
  have hgrid : ¬(!gridForms (rowsBound s) || (List.range 48).all (fun i => ((rowsBound s).reticle i).state != 0)) = true := by
    rw [hg, Bool.not_true, Bool.false_or, List.all_eq_true]
    intro hall
    exact absurd hbound (bne_iff_ne.1 (hall i (List.mem_range.2 hi)))
  have hframe := bootRecords_frame { reticlesReady (coresReleased (gridBuilt (rowsBound s))) with
    bridge := { (reticlesReady (coresReleased (gridBuilt (rowsBound s)))).bridge with phase := 6#4 } }
  simp only [beyondRecords, Prod.mk.injEq] at hframe
  obtain ⟨hbridge, hroots, hreticles⟩ := hframe
  refine ⟨_, by rw [enumeration_eq, if_neg hon, if_neg hgrid], ?_, ?_, fun k hk => ?_⟩
  · rw [moduleReady, hbridge]
  · rw [moduleReady, hroots, reticlesReady_roots, coresReleased_roots, gridBuilt_root, inp, rowsBound_input, inp]
  · rw [moduleReady, State.reticle, hreticles]
    exact reticlesReady_time _ hk

end Sys2Proof.Proofs
end

section
/-! O56, a seam that fails (12 R322, 16 R409), and the statement. -/

namespace Sys2Proof.Proofs

open Sys2Proof.Machine Sys2Proof.Safety Sys2Proof.Laws

/-! What the repair after a lost core leaves to the reticles (14 R372). -/

@[simp] theorem cacheLeaf_reticles (s : State) (r va : Nat) : (cacheLeaf s r va).reticles = s.reticles := by
  unfold cacheLeaf
  dsimp only
  (repeat' split) <;> rfl

theorem agentWrite_reticles {s t : State} {r va n mask x : Nat} (h : agentWrite s r va n mask x = .ok t) : t.reticles = s.reticles := by
  simp only [agentWrite, bind, Except.bind] at h
  split at h
  · cases h
  · split at h <;> (cases h; rfl)

@[simp] theorem wbLine_reticles (l : Nat) (s : State) : (wbLine l s).reticles = s.reticles := by
  unfold wbLine
  split
  · rfl
  split
  · rfl
  dsimp only
  split
  · rw [onCore_reticles, agentWrite_reticles ‹_›, cacheLeaf_reticles]
  · rw [onCore_reticles, cacheLeaf_reticles]

@[simp] theorem salvage_reticles (s : State) : (salvage s).reticles = s.reticles :=
  foldl_keeps (g := State.reticles) (fun s l => wbLine_reticles l s) _ s

@[simp] theorem poisonLine_reticles (reg : Nat) (s : State) (l : Nat) : (poisonLine reg s l).reticles = s.reticles := by
  unfold poisonLine
  split <;> rfl

@[simp] theorem post_reticles (s : State) (q : Nat) (src : Source) (code : Nat) (p0 p1 : W64) (held : Bool)
    (tok : Option (Nat × W64 × Bool × BitVec 4)) (done : Option Nat) : (post s q src code p0 p1 held tok done).reticles = s.reticles := rfl

theorem cancelResv_reticles (core ser : Nat) (s : State) : (cancelResv core ser s).reticles = s.reticles := rfl

theorem failCore_reticles (logOk cacheOk pf : Bool) (s : State) : (failCore logOk cacheOk pf s).reticles = s.reticles := by
  unfold failCore
  dsimp only
  split
  · rfl
  rw [foldl_keeps (g := State.reticles) fun s t => foldl_keeps (g := State.reticles) (fun _ _ => post_reticles ..) _ s]
  rw [onRegion_reticles]
  dsimp only
  rw [onCore_reticles, foldl_keeps (g := State.reticles) fun u (o : Op) => cancelResv_reticles _ o.ser u]
  dsimp only
  rw [foldl_keeps (g := State.reticles) fun _ _ => poisonLine_reticles ..]
  split
  · exact salvage_reticles _
  · rfl

/-! The seam (R322, R409). -/

theorem seam_setSeam_self (r : Reticle) (d : Nat) (x : Seam) : (r.setSeam d x).seam d = x := Vector.getElem_set_self ..

/-- No reticle is its own neighbour. -/
theorem across_ne {i d j : Nat} (h : across i d = some j) : j ≠ i := by
  unfold across at h
  split at h <;> simp only [Option.ite_none_left_eq_some, Option.some.injEq, reduceCtorEq] at h <;> omega

/-- A seam's end is down, and the messages that came over it are discarded. -/
def cutEnd (k d : Nat) (s : State) : State := s.onReticle k fun r => { r.setSeam d .down with votes := r.votes.filter fun v => v.2.1 != d }

theorem seam_cutEnd_self (k d : Nat) (s : State) : ((cutEnd k d s).reticle k).seam d = .down := by
  rw [cutEnd, reticle_onReticle_self]
  exact seam_setSeam_self _ d .down

/-- What a seam that is lost once the module is ready does beyond the two reticles: network, records, the cores that it cuts off. -/
def afterCut (i j : Nat) (s : State) : State :=
  let d := inp s 1
  let (a, e) := if d = 1 ∨ d = 2 then (i, d) else (j, facing d)
  let hit := (s.regions.filter fun p => p.2.live && seamCuts s a e p.2).map Prod.fst
  let gone := s.input.drop 2
  let struck := gone.filterMap fun k => if k < 65536 then (s.net[k]?).map Token.region else some (k - 65536)
  let all := nub (hit ++ struck.filter fun q => (s.region q).live)
  let p0 := BitVec.ofNat 64 (i + 64 * d)
  let me := s.cur
  let s := { s with net := (s.net.zipIdx.filter fun x => !gone.contains x.2).map Prod.fst }
  let s := post s 16 (fromLeader s) 0x03 p0 0#64 true none none
  let s := all.foldl (fun s r => post (s.onRegion r fun x => { x with lost := true }) r (fromLeader s) 0x03 p0 0#64 true none none) s
  (hit.foldl (fun s q => ((s.region q).cores s).foldl (fun s n => failCore true true true (s.focus n)) s) s).focus me

theorem afterCut_reticles (i j : Nat) (s : State) : (afterCut i j s).reticles = s.reticles := by
  unfold afterCut
  dsimp only
  rw [focus_reticles, foldl_keeps (g := State.reticles) fun s q =>
    foldl_keeps (g := State.reticles) (fun u n => (failCore_reticles true true true (u.focus n)).trans (focus_reticles u n)) _ s]
  rw [foldl_keeps (g := State.reticles) fun _ _ => (post_reticles ..).trans (onRegion_reticles ..)]
  exact post_reticles ..

section SeamFailure

variable {s : State} {j : Nat} (hi : inp s 0 ≤ 47) (hj : across (inp s 0) (inp s 1) = some j) (hs : (s.reticle (inp s 0)).seam (inp s 1) = .up)

include hi hj hs

theorem seamFailure_eq : exec .seamFailure s = .next (
    let t := cutEnd j (facing (inp s 1)) (cutEnd (inp s 0) (inp s 1) s)
    if s.bridge.phase.ult 6#4 then seamLost j (seamLost (inp s 0) t) else afterCut (inp s 0) j t) := by
  change execSeamFailure s = _
  rw [execSeamFailure, reticleIn_eq hi]
  simp only [hj, hs]
  rfl

theorem seamFailure_results : ∃ t : State, exec .seamFailure s = .next t ∧
    (s.bridge.phase.ult 6#4 = true → t.hbm = s.hbm ∧ t.host = s.host) ∧
    (s.bridge.phase.ult 6#4 = false →
      (t.reticle (inp s 0)).seam (inp s 1) = .down ∧ (t.reticle j).seam (facing (inp s 1)) = .down) := by
  refine ⟨_, seamFailure_eq hi hj hs, fun hearly => ?_, fun hlate => ?_⟩
  · dsimp only
    rw [if_pos hearly]
    obtain ⟨hhbm, hhost⟩ := seamLost_global (inp s 0) (cutEnd j (facing (inp s 1)) (cutEnd (inp s 0) (inp s 1) s))
    exact ⟨(seamLost_global ..).1.trans hhbm, (seamLost_global ..).2.trans hhost⟩
  · dsimp only
    rw [hlate, if_neg Bool.false_ne_true]
    simp only [State.reticle, afterCut_reticles]
    refine ⟨?_, seam_cutEnd_self j _ _⟩
    have hi' : (cutEnd j (facing (inp s 1)) (cutEnd (inp s 0) (inp s 1) s)).reticle (inp s 0) = (cutEnd (inp s 0) (inp s 1) s).reticle (inp s 0) :=
      reticle_onReticle_of_ne (across_ne hj).symm ..
    exact (congrArg (fun r : Reticle => r.seam (inp s 1)) hi').trans (seam_cutEnd_self ..)

end SeamFailure

/-- Settles O56, event by event: the reticles, the bridge, and the seam that fails. -/
theorem bringUpEventResults : Obligations.BringUpEventResults := by
  intro s i r b
  refine ⟨fun hi => ⟨powerGood_starts hi, fun hp => ⟨fun h1 => ?_, fun h1 => ?_⟩, fun hp => ⟨fun h1 => ?_, fun h1 => ?_⟩, phaseOverrun_self hi,
      phaseOverrun_cores hi, fun hp => ⟨phaseOverrun_seams hi hp, seamTrainTimeout_eq hi hp, bridgeAttachmentTraining_eq hi hp⟩,
      fun _ => seamTraining_settles hi, fun _ _ => electRoundMessage_received hi, claim_stands hi, fun _ => claim_refused hi,
      fun _ _ => lead_taken hi, leadTimeout_fences hi, fun hb ht => ⟨fun hv => ?_, fun hv => ?_, followerReportTimeout_fails hi hb ht⟩,
      firmwareReceive_fences hi, fun _ => seamFailure_results hi⟩,
    fun _ => claimWindowClose_grants, noleader_stops, bootDescriptorPoll_keeps, bootDescriptorPoll_waits,
    fun l hl hf hp => ⟨fun _ _ => firmwareFetch_verified hl hf hp, fun hbad => ⟨fun hfew => ?_, fun htwo => ?_⟩⟩, enumTimeout_stops,
    fun hp => ⟨enumeration_ready hp, enumeration_refused hp⟩, rfl⟩
  · exact (romSelfTest_eq hi hp).trans (next_congr (if_pos h1))
  · exact (romSelfTest_eq hi hp).trans (next_congr (if_neg h1))
  · exact (romCoreTest_eq hi hp).trans (next_congr (if_pos h1))
  · exact (romCoreTest_eq hi hp).trans (next_congr (if_neg h1))
  · exact (firmwareReceive_distributing hi hb ht).trans (next_congr (if_pos hv))
  · exact (firmwareReceive_distributing hi hb ht).trans (next_congr (if_neg (ne_true_of_eq_false hv)))
  · exact (firmwareFetch_failed hl hf hp hbad).trans (next_congr (if_neg (Nat.ne_of_lt hfew)))
  · exact (firmwareFetch_failed hl hf hp hbad).trans (next_congr (if_pos htwo))

end Sys2Proof.Proofs
end
